-- ==== Sys2Proof/Word.lean ====
section
/-!
DEFINITION. Word.lean: the word types of the model and its one sparse table type.
-/
namespace Sys2Proof

/-- A 32-bit data word (D registers, MAXV, MAXI; R78). -/
abbrev Word := BitVec 32
/-- A 16-bit address, offset, wrap or loop register (R78). -/
abbrev Half := BitVec 16
/-- An 80-bit accumulator in Q27.52 (R78). -/
abbrev Acc := BitVec 80
/-- One byte. -/
abbrev Byte := BitVec 8
/-- An object number (00, Object numbers): area in bits 31 to 28, instance in bits 27 to 12, member in bits 11 to 0. -/
abbrev Obj := Nat
/-- A session number, 0 to 31 (R236). -/
abbrev Sess := Nat
/-- An instant as a count of core cycles (R3, R210). -/
abbrev Cycle := Nat
/-- Octets of a message, a BLOB or a packet, each below 256. -/
abbrev Octets := List Nat

/-- A sparse table by key: keys strictly rising, no entry equal to the default of its key. -/
abbrev Tab (α : Type) := List (Nat × α)

/-- A stored dictionary value: the unsigned code of a scalar type (R230), or the bytes of a STRING or BLOB. -/
inductive Val where
  | num  (n : Nat)
  | blob (b : List Nat)
  deriving DecidableEq, Repr, Inhabited

/-- A typed value on a transport (R248): the type code, the number of bytes of its encoding, and the value. -/
structure TVal where
  code : Nat
  size : Nat
  val  : Val
  deriving DecidableEq, Repr, Inhabited

end Sys2Proof
end

