-- ==== Sys2Proof/Runtime.lean ====
section
/-!
DEFINITION. Runtime.lean: the audio state of the units, which the Rosemary export carries (R421).
-/
namespace Sys2Proof

/-- A gain ramp as gain RAM holds it (R160): Q4.27 integers. -/
structure Ramp where
  start  : Int
  target : Int
  pos    : Nat
  len    : Nat
  law    : Nat
  active : Bool
  deriving DecidableEq, Repr

/-- One Lovage path state (R185, R188, R190), fractions in units of 2^-64: mean square, level, histories of the three sidechain filters,
smoothed gain, gate, and the key samples used in the last frame (R193). -/
structure Lov where
  p      : Int
  level  : Int
  hpf    : List Int
  lpf    : List Int
  band   : List Int
  gs     : Int
  isOpen : Bool
  hold   : Nat
  key    : List Int
  deriving DecidableEq, Repr

/-- A core path: histories of the high-pass, the low-pass and each EQ band, gate and compressor states (R143). -/
structure Path where
  hpf  : List Int
  lpf  : List Int
  eq   : Tab (List Int)
  gate : Lov
  comp : Lov
  deriving DecidableEq, Repr

/-- A core crossfade (R143): position, length, the old path, the old values it reads, and the held changes. -/
structure CoreX where
  k    : Nat
  n    : Nat
  old  : Path
  vals : List (Obj × Val)
  held : List (Obj × Val)
  deriving DecidableEq, Repr

/-- A crossfade between two numbered choices (input signals, taps): R142. -/
structure SelX where
  k    : Nat
  n    : Nat
  old  : Nat
  new  : Nat
  held : Option Nat
  deriving DecidableEq, Repr

/-- A dip (R146): stage 0 waits for its frame, 1 fades out, 2 fades in. -/
structure Dip where
  stage : Nat
  k     : Nat
  next  : Nat
  held  : Option Nat
  deriving DecidableEq, Repr

/-- A delay block (R95 to R97, R145), lists newest first but for `tap` and `stage`: the last 63 inputs in the bank, the DRAM ring, the
input buffer with the frame's inputs still to be written, the sample before it, whether the next write is the second of an 8-byte word; the
staging slot with the delay it was read at; the tap buffer; the delay in force; a prefetch or a write that was lost. -/
structure DelayRt where
  short : List Int
  ring  : List Int
  inbuf : List Int
  prev  : Int
  odd   : Bool
  stage : List Int
  stageAt : Nat
  tap   : List Int
  now   : Nat
  dip   : Option Dip
  miss  : Bool
  lost  : Bool
  deriving DecidableEq, Repr

/-- Audio state of a strip, bus or matrix. A customer image in a slot adds the block inputs recorded in this frame, its outputs by path
number, the running path (0 or 1), the coefficient half of each path with the first word of that half, and a COEF set that is still to be
written for the running path (R216, R467). -/
structure UnitRt where
  path  : Path
  core  : Option CoreX
  input : Option SelX
  tapx  : Option SelX
  delay : DelayRt
  sat   : Bool
  fin   : List Int
  fout  : Option (List Int × List Int)
  run   : Nat
  half0 : Nat
  half1 : Nat
  coef0 : Nat
  coef1 : Nat
  due   : Bool
  deriving DecidableEq, Repr

/-- A limiter (R196 to R201): inputs newest first, ceilings at those inputs, required gains newest first, window minima newest first, g (2^-64). -/
structure LimRt where
  xs   : List Int
  cs   : List Int
  rs   : List Int
  hs   : List Int
  g    : Int
  d    : Nat
  onx  : Option SelX
  dip  : Option Dip
  deriving DecidableEq, Repr

/-- Audio state of an output processor (R173 to R178). -/
structure OutRt where
  delay : DelayRt
  hist  : List Int
  taps  : List Int
  firOn : Bool
  firx  : Option (SelX × List Int × Option (List Int))
  onx   : Option SelX
  fdip  : Option (Dip × List Int)
  lim   : LimRt
  sat   : Bool
  deriving DecidableEq, Repr

/-- Automix state of a strip (R150): mean square and gains in units of 2^-64. -/
structure AutoRt where
  p    : Int
  from_ : Int
  to_   : Int
  deriving DecidableEq, Repr

/-- One exported state item of R421: a strip, bus or matrix, or an output processor with its limiter, with the ramps of its members; an automix
level; the ramp of a node; what a delay line gained in the frame, newest first; a stream's next sequence number, next RTP timestamp, SSRC and jitter-buffer position. A
sequence number above 65,535 stands for none. -/
inductive ExportData where
  | unit (o : Obj) (r : UnitRt) (ramps : Tab Ramp)
  | auto (o : Obj) (r : AutoRt)
  | proc (o : Obj) (r : OutRt) (ramps : Tab Ramp)
  | ramp (o : Obj) (r : Ramp)
  | line (o : Obj) (xs : List Int)
  | stream (context seq stamp ssrc position : Nat)
  deriving DecidableEq, Repr

end Sys2Proof
end

