-- ==== Sys2Proof/Syntax.lean ====
section
/-!
DEFINITION. Syntax.lean: the commands of the block, one constructor for each row of spec/opcode_table.json, in its
order. The table gives the rows no operands and no bits; the operands below are what the row's rule reads from outside.
-/
namespace Sys2Proof

/-- Phases of a frame, MATRIX in its two parts (R23, R34). -/
inductive Phase where
  | ingest | output | egress | strip | cross | bus | matrix2 | matrixP | background
  deriving DecidableEq, Repr

/-- Product kinds of the multiply group (R82, R117). -/
inductive Kind where
  | sc | sg | ss | cc | gg
  deriving DecidableEq, Repr

/-- Destination formats of EXT and ACC (R117). -/
inductive Fmt where
  | q823 | q229 | q427
  deriving DecidableEq, Repr

/-- Rounding modes of EXT (R84). -/
inductive Rnd where
  | rn | rd
  deriving DecidableEq, Repr

/-- Post-modify of a memory slot (R90, R120). -/
inductive PMod where
  | none | inc | dec | plusM
  deriving DecidableEq, Repr

/-- The memory slot of a load, store or XMOD (R120). -/
inductive MSlot where
  | ld0 | ls1
  deriving DecidableEq, Repr

/-- Fields of COMMIT and ROLLBACK (R207, R248). A FRAME instant holds the frame above bit 3. -/
structure CommitReq where
  when    : Nat
  base    : Nat
  instant : Nat
  label   : Nat
  deriving DecidableEq, Repr, Inhabited

/-- Fields of SUBSCRIBE (R241, R248). -/
inductive SubReq where
  | value (obj count : Nat) (byInstance : Bool) (interval : Nat)
  | event (codes : List Nat)
  deriving DecidableEq, Repr

/-- The Announce fields that the best master clock algorithm reads (R294, R295). -/
structure Announce where
  domain    : Nat
  sender    : Nat
  portNo    : Nat
  gm        : Nat
  prio1     : Nat
  cclass    : Nat
  accuracy  : Nat
  variance  : Nat
  prio2     : Nat
  steps     : Nat
  interval  : Nat
  timeout   : Nat
  deriving DecidableEq, Repr

/-- A PTP event or general message: domain, sender, sequence, timestamp carried and correction field, in ns; its logMessageInterval; a response also
names the clock and the port that asked, and a Pdelay response the core cycle of its timestamp (R294 to R298). -/
structure PtpMsg where
  domain     : Nat
  sender     : Nat
  portNo     : Nat
  seq        : Nat
  stamp      : Nat
  correction : Int
  twoStep    : Bool
  logDelay   : Int
  interval   : Int
  reqClock   : Nat
  reqPort    : Nat
  arrival    : Cycle
  deriving DecidableEq, Repr

/-- A received RTP packet (R326, R333): addresses, RTP header fields and payload octets. -/
structure RtpPacket where
  source  : Nat
  dest    : Nat
  udpPort : Nat
  version : Nat
  ptype   : Nat
  ssrc    : Nat
  seq     : Nat
  stamp   : Nat
  payload : Octets
  deriving DecidableEq, Repr

/-- What the directory tells of a version beside its number (R218). -/
structure VersionHead where
  parent  : Nat
  source  : Nat
  kind    : Nat
  frame   : Nat
  time    : Nat
  changes : Nat
  label   : Nat
  session : Nat
  deriving DecidableEq, Repr

/-- What a configuration record carries: a copy, the notice of a mode transition with its mode and rate code, a scheduled commit, values and
bank entries, a DISCARD, or a CANCEL (R75, R205, R419, R431). -/
inductive ConfigKind where
  | copy
  | notice (mode rate : Nat)
  | commit
  | values
  | discard
  | cancel
  deriving DecidableEq, Repr

/-- A configuration record from the active side (R419): what it carries, the version number with what the directory tells of it, rate codes
and frame counters by domain, members with their values, staged members, and landing samples by domain of a scheduled commit. -/
structure ConfigRecord where
  what    : ConfigKind
  version : Nat
  head    : VersionHead
  rates   : List (Nat × Nat)
  frames  : List (Nat × Nat)
  values  : List (Nat × Val)
  staged  : List (Nat × Val)
  land    : List (Nat × Nat)
  deriving DecidableEq, Repr

/-- An expected edge of a reference input that did not come: the input, and whether the edge before it was missed too (R280). -/
structure MissedEdge where
  input : Nat
  again : Bool
  deriving DecidableEq, Repr

/-- A MAC-slot operation whose residues the checker compares (R99). -/
inductive MacOp where
  | mac | msu | mpy
  deriving DecidableEq, Repr

/-- What the residue checker of a lane saw in one operation (R99, R100): the lane, its program and cycle, operation and kind, the operands,
the product, the accumulator before and after, and whether the operation saturated. -/
structure ResidueCheck where
  lane      : Nat
  program   : Option Nat
  cycle     : Nat
  op        : MacOp
  kind      : Kind
  a         : Int
  b         : Int
  product   : Int
  before    : Int
  after     : Int
  saturated : Bool
  deriving DecidableEq, Repr

/-- An item of the export of a frame, with its place in it (R421 to R424, R429); the last one closes it with its expiry tick and a handover
frame. -/
structure ExportItem where
  frame    : Nat
  no       : Nat
  data     : Option ExportData
  last     : Bool
  expiry   : Nat
  handover : Option Nat
  deriving DecidableEq, Repr

/-- The exchange of a link start (R414, R418): side, DIE_ID and token of the partner, and the mode and rate code it runs. -/
structure LinkPeer where
  side    : Nat
  dieId   : Nat
  token   : Bool
  mode    : Nat
  rate    : Nat
  deriving DecidableEq, Repr

/-- The commands of the block, one per row of spec/opcode_table.json, in the table's order. -/
inductive Instr where
  | coldStart
  | externalWarmReset (sramKept : Bool)
  | supplyMonitorTrip (rail millivolts nanoseconds : Nat) (sramKept : Bool)
  | resetNRelease (testmode side : Nat) (bankMillivolts : List Nat)
  | fuseLoadDone
  | firmwareLoaded (setsReady : Bool)
  | bootCheckTimeout
  | firmwareRetry
  | dramTrainingStepEnd (procedureDone : Bool)
  | dramTrainingDone (results : List (Option (Option Nat)))
  | unmuteStart
  | startUpDone
  | frameTick (d : Nat) (cycle : Cycle) (peerLow : Bool)
  | shadowCopyEnd (d : Nat)
  | phaseWindowStart (d : Nat) (ph : Phase) (words : List (Nat × List Nat)) (late : List Obj)
  | phaseCutoff (d : Nat) (ph : Phase) (late : List Nat)
  | budgetCounterExhausted (entry : Nat)
  | laneBudgetStop (tile lane : Nat) (ph : Phase)
  | drainComplete (unit : Obj)
  | bridgeRatioSettled (channel ratio : Nat)
  | domainFreeRunTimeout (d : Nat)
  | dpllLocked (d : Nat)
  | dpllSlewDone (d : Nat)
  | referenceEdgeMissing (miss : MissedEdge)
  | referenceGlitch (input : Nat)
  | glitchHoldEnd (input : Nat)
  | rateGateEnd (input rate : Nat)
  | revert (n : Sess) (tag inst : Nat) (v : TVal)
  | realign (n : Sess) (tag inst : Nat) (v : TVal)
  | ptpAnnounceReceived (port : Nat) (a : Announce) (cycle : Cycle)
  | ptpSyncReceived (port : Nat) (m : PtpMsg) (cycle : Cycle)
  | ptpFollowUpReceived (port : Nat) (m : PtpMsg)
  | ptpDelayRespReceived (port : Nat) (m : PtpMsg)
  | delayReqSend (tb : Nat) (cycle : Cycle)
  | ptpMasterLost (tb : Nat)
  | holdLimitExpired (tb : Nat)
  | stepAccept (n : Sess) (tag inst : Nat) (v : TVal)
  | stepReject (n : Sess) (tag inst : Nat) (v : TVal)
  | rtpPacketReceived (port : Nat) (p : RtpPacket) (cycle : Cycle)
  | legLost (context leg : Nat)
  | rateFitUpdate (context rate : Nat)
  | igmpQueryReceived (port version group : Nat)
  | arpRequest (port sender target : Nat)
  | icmpEchoRequest (port source dest : Nat) (payload : Octets)
  | networkLinkChange (port : Nat) (up : Bool)
  | rxOpen (n : Sess) (tag inst : Nat) (v : TVal)
  | txOpen (n : Sess) (tag inst : Nat) (v : TVal)
  | nonaudioCleared (unit : Obj) (pair : Nat)
  | mutingWindowEnd (unit : Obj)
  | bankSupplyFault (bank : Nat)
  | submissionDoorbell (ring word : Nat) (stores : List Host.Cell)
  | completionDoorbell (ring word : Nat)
  | recordDoorbell (ring word : Nat)
  | playbackDoorbell (ring word : Nat) (stores : List Host.Cell)
  | submissionFetch (pair : Nat)
  | commandPairEnable (pair : Nat)
  | commandPairDisable (pair : Nat)
  | pcieFunctionReset
  | pcieLinkDown
  | busMasterDisable
  | ringDmaError (ring : Nat)
  | restart (n : Sess) (tag inst : Nat) (v : TVal)
  | otpKeyProgram (slot : Nat)
  | otpProgramDone (slot : Nat)
  | otpKeyRevoke (slot : Nat)
  | bar0RegisterWrite (offset bytes value : Nat)
  | odpDatagramReceived (addr port : Nat) (data : Octets)
  | odpSessionIdleTimeout (n : Sess)
  | odpReassemblyTimeout (n : Sess) (tag : Nat)
  | hello (addr port privilege dialect slot : Nat) (nc : Octets)
  | auth (n : Sess) (addr port tag : Nat) (proof : Octets)
  | authPendingTimeout (n : Sess)
  | authLockoutEnd (addr : Nat)
  | read (n : Sess) (tag : Nat) (obj : Obj)
  | write (n : Sess) (tag : Nat) (obj : Obj) (v : TVal)
  | readBlock (n : Sess) (tag : Nat) (obj : Obj) (count : Nat) (byInstance : Bool)
  | writeBlock (n : Sess) (tag : Nat) (obj : Obj) (byInstance : Bool) (vs : List TVal)
  | txnBegin (n : Sess) (tag : Nat)
  | txnEnd (n : Sess) (tag : Nat)
  | txnExpired (n : Sess)
  | lockAcquired (n : Sess)
  | lockTimeout (n : Sess)
  | commit (n : Sess) (tag : Nat) (r : CommitReq)
  | rollback (n : Sess) (tag : Nat) (r : CommitReq)
  | subscribe (n : Sess) (tag : Nat) (r : SubReq)
  | unsubscribe (n : Sess) (tag sub : Nat)
  | close (n : Sess) (tag : Nat)
  | nop (n : Sess) (tag : Nat)
  | closeSession (n : Sess) (tag inst : Nat) (v : TVal)
  | subscriptionIntervalEnd (n : Sess) (sub : Nat) (obj : Obj)
  | notifySend (n : Sess)
  | commitValidationEnd
  | cancel (n : Sess) (tag inst : Nat) (v : TVal)
  | discard (n : Sess) (tag inst : Nat) (v : TVal)
  | renumber (n : Sess) (tag inst : Nat) (v : TVal)
  | renumberEnd
  | sessionStagingWrite (n : Sess) (tag inst : Nat) (v : TVal)
  | factory (n : Sess) (tag inst : Nat) (v : TVal)
  | journalWriteDone
  | nodeLiveWrite (n : Sess) (tag row source : Nat) (v : TVal)
  | imageWrite (n : Sess) (tag inst : Nat) (v : TVal)
  | placementListWrite (n : Sess) (tag inst : Nat) (scatter : Bool) (v : TVal)
  | patchWrite (n : Sess) (tag : Nat) (obj : Obj) (v : TVal)
  | clear (n : Sess) (tag : Nat) (obj : Obj) (v : TVal)
  | reqMode (n : Sess) (tag inst : Nat) (v : TVal)
  | modeValidationEnd
  | modeFadeOutEnd
  | modeReconfigureEnd
  | modeFadeInStart
  | modeFadeInEnd
  | rbGo (n : Sess) (tag inst : Nat) (v : TVal)
  | coreCrossfadeEnd (unit : Obj)
  | inputCrossfadeEnd (strip : Nat)
  | delayDipFadeEnd (unit : Obj)
  | patchDipFadeEnd (outlet : Obj)
  | nodeRampEnd (row source : Nat)
  | firCrossfadeEnd (proc : Nat)
  | limOnCrossfadeEnd (proc : Nat)
  | gateHoldExpired (unit : Nat)
  | programStart (lane : Nat) (placement : Obj)
  | nopBundle (lane : Nat)
  | halt (lane : Nat)
  | lset (lane l count : Nat)
  | loop (lane l len : Nat)
  | bld (lane l disp : Nat)
  | mac (lane : Nat) (kind : Kind) (an da db : Nat)
  | msu (lane : Nat) (kind : Kind) (an da db : Nat)
  | mpy (lane : Nat) (kind : Kind) (an da db : Nat)
  | ext (lane dd an : Nat) (fmt : Fmt) (rnd : Rnd) (s : Int)
  | acc (lane an da : Nat) (fmt : Fmt)
  | adda (lane an am : Nat)
  | suba (lane an am : Nat)
  | sha (lane an : Nat) (imm : Int)
  | clr (lane an : Nat)
  | add (lane dd da db : Nat)
  | sub (lane dd da db : Nat)
  | asr (lane dd da imm : Nat)
  | asl (lane dd da imm : Nat)
  | abs (lane dd da : Nat)
  | neg (lane dd da : Nat)
  | mov (lane dd da : Nat)
  | mvi (lane dd : Nat) (imm : Int)
  | mvs (lane s da : Nat)
  | mvr (lane dd s : Nat)
  | max (lane da : Nat)
  | min (lane da : Nat)
  | mxclr (lane dir : Nat)
  | and (lane dd da db : Nat)
  | or (lane dd da db : Nat)
  | xor (lane dd da db : Nat)
  | ld (lane : Nat) (slot : MSlot) (dd xn : Nat) (m : PMod)
  | st (lane da xn : Nat) (m : PMod)
  | xmod (lane : Nat) (slot : MSlot) (xn : Nat) (m : PMod)
  | crossbarRequest (master id addr beats d : Nat) (data : Option Octets)
  | chunkEndGrant (target : Nat)
  | emergencyRequest (target requester addr beats done : Nat) (data : Option Octets)
  | priorityPreemption (target master done : Nat)
  | readDataReturn (master id : Nat)
  | flagAliasWrite (master : Nat) (set : Bool) (addr : Nat) (data : Octets)
  | dramRefresh (ch : Nat)
  | dramSingleBitError (ch offset detail : Nat)
  | dramUncorrectable (ch offset detail : Nat)
  | dramWriteBack (ch : Nat)
  | dramParityAlert (ch : Nat)
  | dramAlertRelease (ch : Nat) (failing : Option Nat)
  | commandBusTestEnd (ch : Nat) (pass : Bool)
  | dramRowTestEnd (ch : Nat) (pass : Bool)
  | setpoint (n : Sess) (tag inst : Nat) (v : TVal)
  | train (n : Sess) (tag inst : Nat) (v : TVal)
  | laneResidueError (tile : Nat) (check : ResidueCheck)
  | knownAnswerTestEnd (tile lane : Nat) (pass : Bool)
  | sparePipelineTest (tile cluster : Nat) (pass : Bool)
  | crosspointResidueError (mac row : Nat)
  | crosspointTestEnd (mac : Nat) (pass : Bool)
  | sramEccError (region detail : Nat) (double : Bool)
  | sramTestEnd (region : Nat) (fail : Option Nat) (owner : Obj)
  | lockstepMismatch (pc : Nat)
  | lockstepResetTimeout
  | recover (n : Sess) (tag inst : Nat) (v : TVal)
  | logClear (n : Sess) (tag inst : Nat) (v : TVal)
  | fullTest (n : Sess) (tag inst : Nat) (v : TVal)
  | fullTestDone (pass : Bool)
  | jtagInstructionLoad (opcode : Nat)
  | dieTempUpdate (tenths : Int)
  | tempClear (n : Sess) (tag inst : Nat) (v : TVal)
  | fwData (n : Sess) (tag inst : Nat) (v : TVal)
  | fwProgramDone
  | fwVerify (n : Sess) (tag inst : Nat) (v : TVal)
  | fwVerifyDone
  | rsmLinkUp (peer : LinkPeer)
  | joinWaitExpired
  | rsmFrameError (frame : Nat)
  | rsmLaneLockLoss (lane : Nat)
  | linkTestEnd (errors : List Nat)
  | configRecordReceived (r : ConfigRecord)
  | exportItemReceived (e : ExportItem)
  | exportAckReceived (period : Nat)
  | fillingEnd
  | leaseExpired
  | standbyTakeover
  | orphanTakeToken
  | releaseNoticeReceived
  | handover (n : Sess) (tag inst : Nat) (v : TVal)
  | referenceFirstEdge (input : Nat)
  | arpReplyReceived (port sender mac : Nat)
  | frameDiscarded (port : Nat) (badFcs : Bool)
  deriving DecidableEq, Repr

end Sys2Proof
end

