-- ==== Sys2Proof/Config.lean ====
section
/-!
DEFINITION. Config.lean: what one part or one implementation fixes, and the free values. Each constant is opaque: no proof can
see a value of it (log entries 6, 7, 10, 11, 14, 22, 45, 47, 72, 100, 132, 198 and 212).
-/
namespace Sys2Proof.Config

/-- DIE_ID bits 63 to 3 of the fuses (R234); its bits 2 to 0 are 0. -/
opaque dieId : BitVec 61
/-- The firmware version running in a slot that the flash record names no version for (R234: no value is fixed). -/
opaque fwVersion : Nat → BitVec 32
/-- A value that the manual leaves open, one per draw: the counter State.free numbers the draws. -/
opaque freeValue : Nat → BitVec 64
/-- The engine nonce of the n-th draw, 16 octets (R255). -/
opaque nonce : Nat → Vector (BitVec 8) 16
/-- One sample through a filter: what fixes its coefficients, histories, input; output and new histories (R136; the coefficients and their
realisation are not published). -/
opaque filterStep : List Nat → List Int → Int → Int × List Int
/-- What a locked DPLL moves by towards its reference in one frame, in units of 2^-16 of the difference, for a BANDWIDTH code (R290: the loop is not
published). -/
opaque loopGain : Nat → BitVec 16
/-- One sample through a sidechain filter of a unit (R184; the coefficients are not published). -/
opaque sidechainStep : List Nat → List Int → List Int → Int → Int × List Int
/-- Words of a system placement's own histories and working words: of an output processor's program or of a bus or matrix program, by samples per
frame (R468: not published). -/
opaque systemWords : Bool → Nat → BitVec 8
/-- The length of a version's state record (R217: not published). -/
opaque recordSize : List (Nat × Val) → BitVec 24
/-- The CRC-32 of a version's state record (R217: not published). -/
opaque recordCrc : List (Nat × Val) → BitVec 32
/-- The payload length of a commit page, and the CRC-32 of the payload for a version and the CRCs it lists (R222: the layout is not
published). -/
opaque pageLength : BitVec 12
opaque pageCrc : Nat → List Nat → BitVec 32
/-- The verdict of the signature check over a firmware image (R441, R445: the key is Limah's own). -/
opaque signatureGood : List (Nat × Nat) → Bool
/-- The rate-converted sample of a bridge channel from the 64 source samples around its place, oldest first, and the fraction of a sample
in units of 2^-32 (R67: the converter's filter is not published). -/
opaque bridgeSample : List Int → Nat → BitVec 32

/-- The Vendor ID of the PCIe function (R257: Limah's PCI-SIG identifier, which the manual does not print). -/
opaque vendorId : BitVec 16
/-- The link-local address bits that a network port takes (R349: RFC 3927 leaves them open). -/
opaque linkLocal : Nat → BitVec 16

/-- The error of a computed ramp gain: start, target, length, law, ramp sample (R166). -/
opaque rampError : Int → Int → Nat → Nat → Nat → BitVec 64
/-- The error of an applied dynamics gain, from the gain in dB (R190). -/
opaque gainError : Int → BitVec 64

/-- The bound of the automix program of a stage, 0 BUS, 1 MATRIX (R151: not published). -/
opaque automixBound : Nat → BitVec 12
/-- The gather entries of the automix program of a stage (R151: not published). -/
opaque automixGather : Nat → BitVec 4
/-- The scatter entries of the automix program of a stage (R151: not published). -/
opaque automixScatter : Nat → BitVec 4
/-- Beats per frame of a bridge channel in its source domain, 0, and in its destination domain, 1 (R41: no rule states them). -/
opaque bridgeBeats : Nat → BitVec 4
/-- Working words of a strip-slot program on its lane: whether a customer image runs there, samples per frame (R468: not published). -/
opaque slotWords : Bool → Nat → BitVec 10
/-- Coefficient words of so many bus and matrix programs on a lane (R158, R468: not published). -/
opaque nodeCoefs : Nat → BitVec 12
/-- Coefficient words of the library program for so many strip-slot programs on a lane (R468: not published). -/
opaque libraryCoefs : Nat → BitVec 13
/-- The bytes of a strip-library image, 0xF0 to 0xFF (R77, R130: the images are Limah's own). -/
opaque libraryImage : Nat → List (BitVec 8)

/-- The placing of fields in a section of the Field Return Record: section, field values, byte (R408: only the lengths and orders
are published). -/
opaque recordByte : Nat → List Nat → Nat → BitVec 8
/-- HMAC-SHA-256 of the record under the device key (R408: the key is Limah's own). -/
opaque deviceHmac : List Nat → Vector (BitVec 8) 32

end Sys2Proof.Config
end

