-- ==== Sys2Proof/Machine/State.lean ====
section
/-!
DEFINITION. Machine/State.lean: the state of the block as plain data, its faults and refusals, and the state after reset.
Every numbered dictionary member has its one home in Dict.force (its default is not listed); what no object names
stands in the structures below.
-/
namespace Sys2Proof.Machine

/-- Reasons for a stop with a fault. -/
inductive Fault where
  /-- The queue's front names a lane the part does not have (only 0 to 255 exist, R16). Raised by the lane commands. Safe: the
  part has no such sequencer, so no behaviour of the part is lost. -/
  | noSuchLane
  deriving DecidableEq, Repr

/-- Reasons for a refusal. -/
inductive Refusal where
  /-- The command of the table has no meaning in this model yet. Raised by Dispatch only. Safe: nothing is claimed of it. -/
  | notModelled (mnemonic : String)
  deriving DecidableEq, Repr

/-- A LIVE value written and not yet in force (R139, R228), or a value of a commit that waits for its landing sample (R212). -/
structure Landing where
  dom    : Nat
  frame  : Nat
  sample : Nat
  obj    : Obj
  val    : Val
  commit : Bool
  deriving DecidableEq, Repr

/-- The dictionary: values in force, staging bank, values on their way, and double-buffer copies in progress (R53). `factory` says that
the bank holds the default of every RETAINED member it does not list (R245). -/
structure Dict where
  force   : Tab Val
  bank    : Tab Val
  landing : List Landing
  copying : List Nat
  held    : List (Nat × Landing)
  factory : Bool
  deriving DecidableEq, Repr

/-- A subscription (R241): the value of each member at its last examination, the end of the interval of members sent, and the members
whose change waits for it. -/
structure Sub where
  req  : SubReq
  last : List (Obj × Val)
  wait : List (Obj × Cycle)
  due  : List Obj
  deriving DecidableEq, Repr

/-- A notification in a session's queue (R242, R250). -/
inductive Notif where
  | value (sub : Nat) (obj : Obj) (frame : Nat) (v : Val)
  | event (code : Nat) (obj : Obj) (dom : Option Nat) (stamp : Nat) (arg : Nat)
  deriving DecidableEq, Repr

/-- A request of the message layer (R248); `bad` stands for one that R249 refuses with RANGE. -/
inductive Req where
  | read (obj : Obj)
  | write (obj : Obj) (v : TVal)
  | readBlock (obj count : Nat) (byInstance : Bool)
  | writeBlock (obj : Obj) (byInstance : Bool) (vs : List TVal)
  | txnBegin | txnEnd
  | commit (r : CommitReq)
  | rollback (r : CommitReq)
  | subscribe (r : SubReq)
  | unsubscribe (sub : Nat)
  | close | nop
  | bad (op : Nat) (obj : Obj)
  deriving DecidableEq, Repr

/-- A reply body (R248). -/
inductive Body where
  | none
  | typed (v : TVal)
  | block (xs : List (Nat × Option TVal))
  | landed (version sample : Nat)
  | sub (n : Nat)
  | challenge (session : Nat) (ne : Octets)
  deriving DecidableEq, Repr

/-- A reply of the engine (R247): opcode with bit 7 set, status, tag, object, AUX and body. -/
structure Reply where
  op     : Nat
  status : Nat
  tag    : Nat
  obj    : Obj
  aux    : Nat
  body   : Body
  deriving DecidableEq, Repr

/-- An open transaction (R239): held writes oldest first, the first bad status, and its start. -/
structure Txn where
  writes : List (Obj × Val)
  bad    : Nat
  start  : Cycle
  deriving DecidableEq, Repr

/-- A write command that waits for an instance lock (R240): what it writes, the locks it holds and still wants. -/
structure Waiting where
  op     : Nat
  tag    : Nat
  obj    : Obj
  writes : List (Obj × Val)
  want   : List Nat
  since  : Cycle
  deriving DecidableEq, Repr

/-- A message in reassembly (R254). -/
structure Reasm where
  tag    : Nat
  total  : Nat
  segs   : Tab Octets
  deriving DecidableEq, Repr

/-- What a session holds beside its members of R236. -/
structure Session where
  authWait : Bool
  addr     : Nat
  port     : Nat
  pair     : Nat
  wantPriv : Nat
  wantDial : Nat
  slot     : Nat
  nc       : Octets
  ne       : Octets
  ks       : Octets
  seqHigh  : Nat
  seqSeen  : List Nat
  seqOut   : Nat
  reasm    : List Reasm
  inbox    : List (Nat × Req)
  kept     : List Reply
  txn      : Option Txn
  subs     : Tab (Option Sub)
  queue    : List Notif
  lostNow  : Nat
  notifNo  : Nat
  sent     : Option Notif
  staging  : Bool
  opened   : Nat
  waiting  : Option Waiting
  deriving DecidableEq, Repr

/-- A session slot with nothing in it. -/
def Session.free : Session :=
  { authWait := false, addr := 0, port := 0, pair := 0, wantPriv := 0, wantDial := 0, slot := 0, nc := [], ne := [],
    ks := [], seqHigh := 0, seqSeen := [], seqOut := 0, reasm := [], inbox := [], kept := [],
    txn := none, subs := [], queue := [], lostNow := 0, notifNo := 0, sent := none, staging := false,
    opened := 0xFFFF, waiting := none }

/-- A held instance lock (R240): instance by the number of its member 000, owner, and the cycle of its release. -/
structure Lock where
  inst  : Nat
  owner : Nat
  until_ : Cycle
  deriving DecidableEq, Repr

/-- The control side: sessions, locks, refused HELLO addresses (R256), the last CHALLENGE or AUTH reply sent (address, UDP port, reply),
the management port's discard counter (R253), and the datagrams of the message that the port sent last (address, UDP port, octets). -/
structure Control where
  sess    : Tab Session
  locks   : List Lock
  fails   : List (Nat × Cycle)
  lockout : List Nat
  opening : Option (Nat × Nat × Reply)
  discards : Nat
  out     : List (Nat × Nat × Octets)
  deriving DecidableEq, Repr

/-- An OTP key slot (R259). -/
structure KeySlot where
  key        : Octets
  priv       : Nat
  programmed : Bool
  revoked    : Bool
  busy       : Bool
  deriving DecidableEq, Repr

def KeySlot.blank : KeySlot := { key := [], priv := 0, programmed := false, revoked := false, busy := false }

/-- An OTP network record (R259): port mode, IPv4 address, prefix length, gateway. -/
structure NetRecord where
  mode    : Nat
  ip      : Nat
  prefix_ : Nat
  gateway : Nat
  deriving DecidableEq, Repr

/-- A command pair (R260) by its registers, and the hidden parity of the pass through the ring (R263). -/
structure CmdPair where
  sqBase  : Nat
  cqBase  : Nat
  entries : Nat
  vector  : Nat
  priv    : Nat
  dialect : Nat
  enable  : Bool
  state   : Nat
  openSt  : Nat
  session : Nat
  sqHead  : Nat
  sqTail  : Nat
  cqTail  : Nat
  cqHead  : Nat
  phase   : Bool
  unsent  : Bool
  fetched : List (Nat × Nat × Nat)
  deriving DecidableEq, Repr

def CmdPair.off : CmdPair :=
  { sqBase := 0, cqBase := 0, entries := 0, vector := 0, priv := 0, dialect := 0, enable := false, state := 0,
    openSt := 0, session := 0, sqHead := 0, sqTail := 0, cqTail := 0, cqHead := 0, phase := true, unsent := false,
    fetched := [] }

/-- An audio ring (R266 to R271) beside its members: the host's index, entries since the last interrupt, GAP and FIRST due, first
frame, playback frames fetched, held values and positions of the fades, and an interrupt that the entries of the present burst are due. -/
structure Ring where
  host     : Nat
  sinceIrq : Nat
  gap      : Bool
  first    : Bool
  from_    : Nat
  losing   : Bool
  fetched  : List (Nat × List Int)
  hold     : List Int
  fadeK    : Nat
  inK      : Nat
  irq      : Bool
  deriving DecidableEq, Repr

def Ring.idle : Ring :=
  { host := 0, sinceIrq := 0, gap := false, first := true, from_ := 0, losing := false, fetched := [], hold := [],
    fadeK := 64, inK := 64, irq := false }

/-- The PCIe host side: OTP block, pairs, rings, MSI-X, host memory as the engine sees it (log entry 13). -/
structure HostIf where
  keys    : Tab KeySlot
  netRecs : Tab (Option NetRecord)
  netUse  : Option NetRecord
  otpRegs : Tab Nat
  pairs   : Tab CmdPair
  rings   : Tab Ring
  msixTab : Tab Nat
  msixPend : List Nat
  msixSent : Tab Nat
  mem     : List Host.Cell
  deriving DecidableEq, Repr

/-- A commit in work (R207 to R215): the change set, the STATE of placements that it places again (R71), the bank and its FACTORY mark as they
stood at arrival, the landing sample of each domain, the domains still to end, and the budgets of the transition table that only the new table
has an entry for (R51). -/
structure Pending where
  set      : List (Obj × Val)
  marks    : List (Obj × Val)
  bank     : Tab Val
  since    : List Obj
  factory  : Bool
  kind     : Nat
  number   : Nat
  source   : Nat
  label    : Nat
  session  : Nat
  tag      : Nat
  op       : Nat
  req      : CommitReq
  arrived  : Cycle
  land     : Tab Nat
  open_    : List Nat
  budgets  : Tab Nat
  deriving DecidableEq, Repr

/-- A held version (R217, R218). -/
structure Version where
  number  : Nat
  parent  : Nat
  source  : Nat
  kind    : Nat
  mode    : Nat
  rate    : Nat
  frame   : Nat
  time    : Nat
  changes : Nat
  persisted : Nat
  label   : Nat
  session : Nat
  conf    : Tab Val
  deriving DecidableEq, Repr

/-- The 32-byte header of a journal record (R222). -/
structure JournalHeader where
  magic      : Nat
  kind       : Nat
  version    : Nat
  parent     : Nat
  sequence   : Nat
  length     : Nat
  payloadCrc : Nat
  headerCrc  : Nat
  deriving DecidableEq, Repr

/-- An image record of the journal: its header and its payload (R221, R222). -/
structure ImageRecord where
  head  : JournalHeader
  image : Octets
  deriving DecidableEq, Repr

/-- A version in the journal: its state record and its commit page, which lists the CRCs of the state record and of the images that the version
refers to (R221, R222). -/
structure Journalled where
  version : Version
  state   : JournalHeader
  page    : JournalHeader
  stateCrc : Nat
  imageCrcs : List Nat
  deriving DecidableEq, Repr

/-- Versions: the directory newest first, the journal's versions newest first and its image records, the next SEQUENCE, and the version that the
writer writes (R218 to R222). -/
structure Versions where
  dir      : List Version
  journal  : List Journalled
  images   : List ImageRecord
  sequence : Nat
  writing  : Option Version
  deriving DecidableEq, Repr

/-- A mode transition in work (R71 to R75): target, the mode and rate being left, the fade-out waiting for its CD0 tick, CD0 frame and
instant of the first tick in the new mode. Beside it the members that R72 suspends, now and once the commit at hand has landed. -/
structure ModeRun where
  target    : Nat
  rate      : Nat
  leaving   : Nat
  oldRate   : Nat
  armed     : Bool
  frame     : Nat
  time      : Nat
  suspended : List Obj
  pendSusp  : List Obj
  deriving DecidableEq, Repr

/-- One sample-clock domain (R277 to R289): ticking, the cycle of its last tick, a stop by a transition; the frequency that holdover takes
without a lock, the stretches of its time in LOCKED with their frequencies, newest first, and the start of the stretch at hand (R284). Phases are
in units of 10^-10 core cycles, positive while the domain's edges are late: what a SLEW has still to remove (R285), what an accepted step of the time
base brings (R287), and the delay of a STEP that is due (R286). `waiting` lists the outputs that are to be aligned, 0 FRAME_OUT, 1 and 2 the word
clocks, `outErr` their errors, `outK` counts the frames of FRAME_OUT since its alignment (R288, R289). -/
structure Domain where
  running  : Bool
  cycle    : Cycle
  resume   : Bool
  holdFreq : Int
  locks    : List (Nat × Int)
  lockAt   : Cycle
  slew     : Int
  phaseErr : Int
  pendStep : Int
  waiting  : List Nat
  outErr   : Tab Int
  outK     : Nat
  revert   : Bool
  wasSel   : Bool
  fresh    : Bool
  deriving DecidableEq, Repr

def Domain.idle : Domain :=
  { running := false, cycle := 0, resume := false, holdFreq := 0, locks := [], lockAt := 0, slew := 0, phaseErr := 0, pendStep := 0, waiting := [], outErr := [], outK := 0, revert := false, wasSel := true, fresh := true }

/-- One reference input (R279 to R281): clean gates, consecutive edges missed, a miss or glitch in the gate at hand, the first gate since
ABSENT, the rate reported last, and the RATE of the last gate without a miss or a glitch, which the phase detectors follow. -/
structure RefIn where
  gates   : Nat
  missed  : Nat
  dirty   : Bool
  rate    : Nat
  lastRate : Nat
  clean    : Nat
  deriving DecidableEq, Repr

def RefIn.idle : RefIn := { gates := 0, missed := 0, dirty := false, rate := 0, lastRate := 0, clean := 0 }

/-- One time base (R293 to R305): TIME at `cycle` in units of 2^-32 ns, the frequency in 0.001 ppb, the integral in 2^-32 ppb. Of its master:
the two-step Syncs that wait for their Follow_Up, the sequence numbers accepted from it, and the grandmaster followed last. Of its requests: the
ports asked with their send times, and the delay measurements, newest first, with how many were accepted since the start or the change of master.
`timed` says that a first exchange has set TIME. -/
structure TimeBase where
  timeNs   : Int
  cycle    : Cycle
  freq     : Int
  integ    : Int
  masters  : List (Nat × Announce × Nat × Cycle)
  best     : Option Announce
  port     : Nat
  syncs    : List (PtpMsg × Int)
  heardSeq : List Nat
  gmLast   : Option Nat
  timed    : Bool
  t1       : Int
  t2       : Int
  asked    : List (Nat × Int)
  reqSeq   : Nat
  delays   : List Int
  delayN   : Nat
  stepSeen : List Int
  withdraw : Nat
  inLock   : Nat
  outLock  : Nat
  wasLock  : Bool
  everLock : Bool
  rejected : Int
  deriving DecidableEq, Repr

def TimeBase.free : TimeBase :=
  { timeNs := 0, cycle := 0, freq := 0, integ := 0, masters := [], best := none, port := 15, syncs := [], heardSeq := [], gmLast := none,
    timed := false, t1 := 0, t2 := 0, asked := [], reqSeq := 0, delays := [], delayN := 0, stepSeen := [], withdraw := 0, inLock := 0, outLock := 0,
    wasLock := false, everLock := false, rejected := 0 }

/-- The life cycle of one unit beside its STATE member (R8 to R12): request waiting for its tick, frames of the drain left, a drain that
is over, a start queued by RESTART; while it drains, whether it was never unmuted and the frame whose tick stopped it. -/
structure Life where
  request : Option Bool
  drain   : Nat
  drained : Bool
  again   : Bool
  muted   : Bool
  stop    : Nat
  deriving DecidableEq, Repr

def Life.rest : Life := { request := none, drain := 0, drained := false, again := false, muted := false, stop := 0 }

/-- A packet in the jitter buffer (R334, R335): sequence number, timestamp, arrival, legs it came on, its words by sample time. -/
structure RxPacket where
  seq     : Nat
  stamp   : Nat
  arrival : Cycle
  legs    : Nat
  words   : List Nat
  deriving DecidableEq, Repr

/-- A stream context (R327 to R344): jitter buffer, media clock of the newest frames, source, legs, concealment (stage 0 none,
1 hold, 2 fade, 3 recovery), the packet in work, the signal numbers, sequence numbers discarded as late or early, and arrival and timestamp of
the packets of the last 10 s, newest first (R338). -/
structure Context where
  packets : List RxPacket
  bases   : List (Nat × Nat)
  ssrc    : Option Nat
  ssrcAt  : Cycle
  nextSeq : Option Nat
  legLost : List Nat
  stage   : Nat
  fadeK   : Nat
  xfade   : Nat
  hold    : List Int
  lastOut : List Int
  startK  : Nat
  missed  : Bool
  concealed : Nat
  margins : List (Cycle × Int)
  lastRate : Nat
  window  : Bool
  acc     : List Nat
  accStamp : Nat
  first   : Nat
  faultK  : Option Nat
  signals : List Nat
  discarded : List Nat
  arrivals : List (Cycle × Nat)
  deriving DecidableEq, Repr

def Context.closed : Context :=
  { packets := [], bases := [], ssrc := none, ssrcAt := 0, nextSeq := none, legLost := [], stage := 0, fadeK := 64,
    xfade := 64, hold := [], lastOut := [], startK := 0, missed := false, concealed := 0, margins := [], lastRate := 0,
    window := false, acc := [], accStamp := 0, first := 0, faultK := none, signals := [], discarded := [], arrivals := [] }

/-- A media packet as it leaves a port (R340, R348, R349): its context, tag and priority, addresses, DSCP, time to live, UDP ports, RTP packet. -/
structure MediaFrame where
  context    : Nat
  vlan       : Nat
  pcp        : Nat
  mac        : Nat
  source     : Nat
  dest       : Nat
  dscp       : Nat
  ttl        : Nat
  sourcePort : Nat
  destPort   : Nat
  rtp        : Octets
  deriving DecidableEq, Repr

/-- A control frame that a port sends: an ARP reply or request, an echo reply, a membership report with its IGMP version and its sources, none
for EXCLUDE {}, a leave, and a Delay_Req or Pdelay_Req, which goes to port 319 of 224.0.1.129 with DSCP 46 (R251, R294, R345, R349). -/
inductive NetFrame where
  | arpReply (dest addr mac : Nat)
  | arpRequest (target : Nat)
  | echoReply (dest : Nat) (payload : Octets)
  | report (version group : Nat) (sources : Option (List Nat))
  | leave (group : Nat)
  | delayReq (peer : Bool) (domain clock portNo seq : Nat)
  deriving DecidableEq, Repr

/-- One Ethernet network port (R345, R349): groups joined by contexts, ARP entries, the media packets that the last EGRESS of each domain sent,
the control frames that the last command made it send, with the VLAN tag and priority of these, and the end of the presence of an IGMPv1 and of an
IGMPv2 querier (log entry 193). -/
structure NetPort where
  groups : List (Nat × Nat)
  arp    : List (Nat × Nat)
  out    : List MediaFrame
  sent   : List NetFrame
  tag    : Nat × Nat
  old1   : Cycle
  old2   : Cycle
  deriving DecidableEq, Repr

def NetPort.idle : NetPort := { groups := [], arp := [], out := [], sent := [], tag := (0, 0), old1 := 0, old2 := 0 }

/-- IEC 61937 detection of one slot or channel pair (R323, R324): samples since the last preamble, position of its fade. -/
structure NaDet where
  since  : Nat
  fade   : Nat
  deriving DecidableEq, Repr

def NaDet.none : NaDet := { since := 16385, fade := 64 }

/-- A TDM port (R309 to R325): clocks running, input samples delivered since ON, words driven by slot since ON, position of the fade
of a fault, muting window. -/
structure TdmPort where
  clocking : Bool
  inK      : Nat
  outK     : Tab Nat
  faultK   : Option Nat
  window   : Bool
  deriving DecidableEq, Repr

def TdmPort.idle : TdmPort := { clocking := false, inK := 0, outK := [], faultK := none, window := false }

/-- An outlet's patch dip (R153): carried patch word, pending word, stage 0 steady, 1 fade-out, 2 fade-in, position. -/
structure OutletRt where
  carried : Nat
  pending : Nat
  stage   : Nat
  k       : Nat
  from_   : Int
  deriving DecidableEq, Repr

/-- Frames held of one signal, newest first, and its fade after a fault of its producer (R19, R23). -/
structure Sig where
  frames : List (Nat × List Int)
  fade   : Option (Nat × Int)
  deriving DecidableEq, Repr

/-- Look-back capture (R154 to R156). -/
structure Capture where
  line    : Tab (List (Nat × List Int))
  staged  : List (Nat × List (Nat × List Int))
  rbNext  : Nat
  rbLeft  : Nat
  rbAll   : Bool
  rbArmed : Bool
  deriving DecidableEq, Repr

/-- A domain-bridge channel (R67): source samples newest first and their number, the tick of the period in which the newest frame was taken,
destination samples converted since ON, the open part of the delay in units of 2^-32 source sample, position of the fade-in, and a ratio
estimate that has settled. -/
structure BridgeRt where
  hist  : List Int
  taken : Nat
  tickAt : Cycle
  count : Nat
  shift : Int
  fadeK : Nat
  ready : Bool
  deriving DecidableEq, Repr

def BridgeRt.rest : BridgeRt := { hist := [], taken := 0, tickAt := 0, count := 0, shift := 0, fadeK := 0, ready := false }

/-- The fade of every outlet of a domain (R73, R400, R418, R427, R443): 0 silent, 1 fading in, 2 open, 3 fading out. -/
structure OutFade where
  dir : Nat
  k   : Nat
  n   : Nat
  deriving DecidableEq, Repr

def OutFade.silent : OutFade := { dir := 0, k := 0, n := 0 }

/-- The audio side. -/
structure Audio where
  sig     : Tab Sig
  slots   : Tab Sig
  ramps   : Tab Ramp
  units   : Tab UnitRt
  outs    : Tab OutRt
  auto    : Tab AutoRt
  outlets : Tab OutletRt
  bridges : Tab BridgeRt
  cap     : Capture
  fades   : Tab OutFade
  deriving DecidableEq, Repr

/-- A result that a lane has not yet made visible (R108, R110): cycle it appears in, priority, register code, bits and flags. -/
structure Result where
  cycle : Nat
  prio  : Nat
  reg   : Nat
  bits  : Nat
  deriving DecidableEq, Repr

/-- An active hardware loop (R113). -/
structure LoopRt where
  counter : Nat
  start   : Nat
  stop    : Nat
  deriving DecidableEq, Repr

/-- A word that the cluster DMA is still to write for a gather (R89, R93): bank word, value, and whether a load has seen it there. -/
structure DmaWord where
  word  : Nat
  value : Nat
  seen  : Bool
  deriving DecidableEq, Repr

/-- A program image in a cluster's instruction RAM, by the spans of bundles that hold it (R77). -/
structure Resident where
  image : Octets
  spans : List (Nat × Nat)
  deriving DecidableEq, Repr

/-- A lane (R78, R79, R107 to R115): registers, results and stores under way, program, lane phase with the cycles spent in it, the programs
still to end, the gather issued last with its completion and the words it is still to write (R93), and a stop (R49). -/
structure Lane where
  d     : Tab Word
  a     : Tab Acc
  x     : Tab Half
  m     : Tab Half
  w     : Tab Half
  l     : Tab Nat
  maxv  : Word
  maxi  : Word
  st    : BitVec 16
  cycle : Nat
  pc    : Nat
  loops : List LoopRt
  wait  : List Result
  stores : List (Nat × Word)
  prog  : Option Obj
  phase : Option Phase
  spent : Nat
  begun : Nat
  todo  : List Obj
  gathered : Option Obj
  ready : Nat
  dma   : List DmaWord
  stopped : Bool
  deriving DecidableEq, Repr

def Lane.idle : Lane :=
  { d := [], a := [], x := [], m := [], w := [], l := [], maxv := 0x80000000, maxi := 0, st := 0, cycle := 0, pc := 0,
    loops := [], wait := [], stores := [], prog := none, phase := none, spent := 0, begun := 0, todo := [], gathered := none, ready := 0,
    dma := [], stopped := false }

/-- The counters of one budget entry (R42, R47, R51): beats left and used in the frame, a request held at 0; the budget of the running
table, of the table that lands, and of the transition table. -/
structure BudgetRt where
  count   : Nat
  used    : Nat
  hitZero : Bool
  running : Nat
  next    : Nat
  trans   : Nat
  deriving DecidableEq, Repr

def BudgetRt.zero : BudgetRt := { count := 0, used := 0, hitZero := false, running := 0, next := 0, trans := 0 }

/-- A crossbar request (R353 to R362): serial number, master, ID, domain of its budget, address of the next beat, beats left, data
still to write (256 stands for a byte not enabled), and beats left of the chunk granted or interrupted. -/
structure XReq where
  no     : Nat
  master : Nat
  id     : Nat
  dom    : Nat
  addr   : Nat
  beats  : Nat
  data   : Option Octets
  chunk  : Nat
  deriving DecidableEq, Repr

/-- The response to a request (R357, R358): domain of its budget, target, beats still to come, data read, an error among its beats, the beats of read
data that are in error by number (R381, R395), and the cycle before which it does not return. -/
structure XResp where
  no     : Nat
  master : Nat
  id     : Nat
  dom    : Nat
  tgt    : Nat
  left   : Nat
  data   : Octets
  err    : Bool
  bad    : List Nat
  read   : Bool
  due    : Cycle
  deriving DecidableEq, Repr

/-- The arbiter of one target (R359 to R362, R366): owner, waiting requests, last owner's code, beats granted since the start of the
window of LOAD. -/
structure Arbiter where
  current : Option XReq
  queue   : List XReq
  last    : Nat
  moved   : Nat
  since   : Cycle
  deriving DecidableEq, Repr

def Arbiter.idle : Arbiter := { current := none, queue := [], last := 0x2A, moved := 0, since := 0 }

/-- The crossbar: arbiters by target code, next serial number, responses in issue order, the response returned last. -/
structure Xbar where
  arbs  : Tab Arbiter
  next  : Nat
  resps : List XResp
  last  : Option XResp
  deriving DecidableEq, Repr

/-- A command in a channel's retry buffer (R382, R383): its serial number, the response it belongs to and the beat of it, the bytes it wrote
over, and the rows that were open when it was issued. -/
structure DramCmd where
  no   : Nat
  resp : Option Nat
  beat : Nat
  addr : Nat
  old  : Octets
  snap : Tab Nat
  deriving DecidableEq, Repr

/-- A DRAM channel (R369 to R388): refreshes postponed, retry buffer oldest first, accesses waiting while an alert stands, the alert, the
command under replay with its replays, open rows by bank (row + 1), write-backs queued (R381), uncorrectable words (8 bytes each), the row
under test with its save buffer and the beats that its test and a command-bus test have still to move (R383, R384), the set-point deferred to
the end of a training step, and what a parity alert makes training repeat (R388): the step (1 to be repeated, 2 under repetition), and the
procedure. -/
structure Dram where
  postponed : Nat
  buffer    : List DramCmd
  next      : Nat
  waiting   : List (Nat × Nat × Option Octets)
  alert     : Bool
  suspect   : Option (Nat × Nat)
  banks     : Tab Nat
  backs     : List Nat
  bad       : List Nat
  rowTest   : Option Nat
  rowSave   : List Host.Cell
  rowLeft   : Nat
  busLeft   : Nat
  deferred  : Option Nat
  again     : Nat
  repeated  : Bool
  deriving DecidableEq, Repr

def Dram.idle : Dram :=
  { postponed := 0, buffer := [], next := 0, waiting := [], alert := false, suspect := none, banks := [], backs := [], bad := [],
    rowTest := none, rowSave := [], rowLeft := 0, busLeft := 0, deferred := none, again := 0, repeated := false }

/-- A test of Sage that waits or runs (R395): its TEST code (R402), what it tests (region, lane 16 t + l, MAC, row, channel), source, LOCATION
and DETAIL of the first error, frame of the first error, errors merged. -/
structure Test where
  kind   : Nat
  key    : Nat
  source : Nat
  loc    : Nat
  detail : Nat
  frame  : Nat
  count  : Nat
  deriving DecidableEq, Repr

/-- A save buffer of Sage in use (R364): its number, the region under test that it stands for, and the region's contents by address. -/
structure SaveBuf where
  no     : Nat
  region : Nat
  cells  : List Host.Cell
  deriving DecidableEq, Repr

/-- Sage (R393 to R407): test queue, save buffers in use, position and start of the background pass, spare rows mapped (region,
row), failed regions with their owners, the halves (4 bytes each) of uncorrectable words not written since, lanes that move and units that fault at the next tick of their domain, MACs
retired and those that retire at the next CD0 tick, domains whose FATAL fade starts at their next tick, the control cores stopped by a lockstep mismatch (R400), and the log. -/
structure Sage where
  queue    : List Test
  saves    : List SaveBuf
  position : Nat
  started  : Cycle
  spares   : List (Nat × Nat)
  failed   : List (Nat × Obj)
  poison   : List Nat
  moves    : List Nat
  faults   : List Obj
  retired  : List Nat
  retiring : Nat
  fadeDue  : List Nat
  dead     : Bool
  log      : List Octets
  first    : Option Octets
  deriving DecidableEq, Repr

/-- A copy of the record in retention RAM (R439). Of a failed region, RAM holds its number, and the engine knows the unit that it serves. -/
structure RetainedCopy where
  magic      : Nat
  generation : Nat
  current    : Nat
  sequence   : Nat
  cause      : Nat
  resetFails : Nat
  warm       : Nat
  first      : Option Octets
  spares     : List (Nat × Nat)
  failed     : List (Nat × Obj)
  crc        : Nat
  deriving DecidableEq, Repr

def RetainedCopy.blank : RetainedCopy :=
  { magic := 0, generation := 0, current := 0, sequence := 0, cause := 0, resetFails := 0, warm := 0, first := Option.none, spares := [],
    failed := [], crc := 0 }

/-- Retained state (R439, R440): the record in use, `valid` once it has been written or found, and the two copies in retention RAM. -/
structure Retained where
  valid      : Bool
  generation : Nat
  current    : Nat
  cause      : Nat
  warm       : Nat
  first      : Option Octets
  sequence   : Nat
  spares     : List (Nat × Nat)
  failed     : List (Nat × Obj)
  resetFails : Nat
  copyA      : RetainedCopy
  copyB      : RetainedCopy
  deriving DecidableEq, Repr

def Retained.none : Retained :=
  { valid := false, generation := 0, current := 0, cause := 0, warm := 0, first := Option.none, sequence := 0,
    spares := [], failed := [], resetFails := 0, copyA := RetainedCopy.blank, copyB := RetainedCopy.blank }

/-- A firmware slot of the xSPI flash (R441, R445): its slot record, whether its image carries a good signature, and the image. -/
structure FwSlot where
  magic    : Nat
  sequence : Nat
  crc      : Nat
  good     : Bool
  image    : Tab Nat
  deriving DecidableEq, Repr

def FwSlot.blank : FwSlot := { magic := 0, sequence := 0, crc := 0, good := false, image := [] }

/-- Start-up (R438, R442, R443) and what the flash holds. `step`: 0 in reset, 1 released, 2 loading the candidate `pick` or waiting for
READY, 3 firmware running and DRAM in training, 4 start-up ended by FATAL, 5 restored and waiting for the domains, 6 unmuting, 7 done.
`cause` keeps the kind of the reset at hand, `since` the cycle of the release. -/
structure Boot where
  step     : Nat
  cause    : Nat
  slot     : Nat
  testmode : Nat
  side     : Nat
  pick     : Option Nat
  slots    : Tab FwSlot
  fwWrite  : Option (Nat × Octets)
  inReset  : Bool
  stopped  : Bool
  since    : Cycle
  deriving DecidableEq, Repr

/-- Rosemary (R413 to R432): the side's own X, the period whose export was acknowledged last, the period whose export arrived whole
last, partner, JOIN_WAIT running, consecutive ticks at which PEER_OWN_N read high, tick at which the token went, link frames that have been
resent, handover frame, whether its token has passed, contexts whose packets in work began before K:0, moves due at the next CD0 tick
(into STANDBY, into SERVICE), a token to give up once the outlets are silent, a link that enters ON at the next CD0 tick, and the release notices
sent. Of the export (R419, R421 to R424, R429): the configuration records formed and not acknowledged yet, the front-half items read by domain, the
items under way by domain, the items as the last acknowledged export left them, the nodes that wait in the ramp queue, the period of the last
export, and on the standby the frame of the export that arrives with the items taken of it in order. The lanes of the link out of service (R415), and
when FILLING ends (R419). -/
structure Pair where
  leaseX    : Nat
  ackPeriod : Option Nat
  gotPeriod : Option Nat
  partner   : Option LinkPeer
  joinWait  : Bool
  peerHigh  : Nat
  offAt     : Nat
  resent    : List Nat
  handover  : Nat
  passed    : Bool
  late      : List Nat
  toStandby : Bool
  toService : Bool
  giving    : Bool
  linkUp    : Option LinkPeer
  notices   : Nat
  records   : List ConfigRecord
  front     : Tab (List ExportData)
  items     : Tab (List ExportData)
  seen      : List ExportData
  queue     : List Obj
  exported  : Option Nat
  arriving  : Nat × Nat
  lanesOut  : List Nat
  fillEnd   : Cycle
  deriving DecidableEq, Repr

/-- One bit period of BCLK (R310 to R312): the level of FSYNC, whether BCLK is high first, and its two parts in half-periods of H. -/
structure BitPeriod where
  fsync  : Bool
  high   : Bool
  first  : Nat
  second : Nat
  deriving DecidableEq, Repr

/-- What a TDM port does with BCLK and FSYNC: released, held low, or running with one TDM frame after another (R309, R318). -/
inductive TdmClk where
  | hiZ
  | low
  | frame (bits : List BitPeriod)
  deriving DecidableEq, Repr

/-- Output pins and board signals that the rules name (R288, R309, R411, R447 to R452). `frameOut` holds the width of a pulse of FRAME_OUT that is
high, in sample periods, `wclkOut` the frequency of a word-clock output in units of 10^-10 Hz, 0 for one driven low. With `highZ`
every output ball but OUTOWN_N is at high impedance, whatever the fields for it hold: from a reset on until firmware runs (R410, R437, R442;
log entry 220). `sdo` holds the TDM frames that a port sends, and
`sdoAt` the frame counter of a tick and the sample periods after it at which the first of them leaves (R316). -/
structure Pins where
  frameOut  : Tab Nat
  wclkOut   : Tab Nat
  ownN      : Bool
  tdmClk    : Tab TdmClk
  sdo       : Tab (List (Nat × Nat))
  sdoAt     : Tab (Nat × Nat)
  bankMv    : Tab Nat
  bankFault : List Nat
  jtag      : Nat
  jtagIso   : Bool
  highZ     : Bool
  tempHigh  : Bool
  deriving DecidableEq, Repr

/-- The state of the block. `iram` holds what each cluster's instruction RAM holds; `trans` the beats left of transition-table budgets that
the old table has no entry for (R51), by 65536 activity + 256 target + domain. -/
structure State where
  pending : List Instr
  now     : Cycle
  free    : Nat
  boot    : Boot
  aon     : Retained
  dict    : Dict
  ctl     : Control
  commit  : Option Pending
  ver     : Versions
  mode    : ModeRun
  doms    : Tab Domain
  refs    : Tab RefIn
  tbs     : Tab TimeBase
  life    : Tab Life
  host    : HostIf
  net     : Tab NetPort
  ctxs    : Tab Context
  na      : Tab NaDet
  tdm     : Tab TdmPort
  audio   : Audio
  lanes   : Tab Lane
  iram    : Tab (List Resident)
  budget  : Tab BudgetRt
  trans   : Tab Nat
  xbar    : Xbar
  mem     : List Host.Cell
  dram    : Tab Dram
  sage    : Sage
  pair    : Pair
  pins    : Pins
  deriving DecidableEq, Repr

/-- The machine right after reset: RESET_N low, nothing loaded, every member at its default, every memory and table empty
(20, R438, R443; log entries 4, 5 and 6). -/
def State.reset : State :=
  { pending := [], now := 0, free := 0,
    boot := { step := 0, cause := 0, slot := 0, testmode := 0, side := 0, pick := none,
              slots := [(0, { FwSlot.blank with magic := 0x4B465753, sequence := 1, crc := 0x16671b39, good := true })], fwWrite := none,
              inReset := true, stopped := false, since := 0 },
    aon := Retained.none,
    dict := { force := [], bank := [], landing := [], copying := [], held := [], factory := false },
    ctl := { sess := [], locks := [], fails := [], lockout := [], opening := none, discards := 0, out := [] },
    commit := none,
    ver := { dir := [], journal := [], images := [], sequence := 0, writing := none },
    mode := { target := 0, rate := 0, leaving := 1, oldRate := 1, armed := false, frame := 0, time := 0, suspended := [],
              pendSusp := [] },
    doms := [], refs := [], tbs := [], life := [],
    host := { keys := [], netRecs := [], netUse := none, otpRegs := [], pairs := [], rings := [], msixTab := [], msixPend := [],
              msixSent := [], mem := [] },
    net := [], ctxs := [], na := [], tdm := [],
    audio := { sig := [], slots := [], ramps := [], units := [], outs := [], auto := [], outlets := [], bridges := [],
               cap := { line := [], staged := [], rbNext := 0, rbLeft := 0, rbAll := false, rbArmed := false },
               fades := [] },
    lanes := [], iram := [], budget := [], trans := [],
    xbar := { arbs := [], next := 0, resps := [], last := none },
    mem := [], dram := [],
    sage := { queue := [], saves := [], position := 0, started := 0, spares := [], failed := [], poison := [], moves := [],
              faults := [], retired := [], retiring := 0, fadeDue := [], dead := false, log := [], first := none },
    pair := { leaseX := 0, ackPeriod := none, gotPeriod := none, partner := none, joinWait := false, peerHigh := 0, offAt := 0,
              resent := [], handover := 0, passed := false, late := [], toStandby := false, toService := false, giving := false,
              linkUp := none, notices := 0, records := [], front := [], items := [], seen := [], queue := [], exported := none,
              arriving := (0, 0), lanesOut := [], fillEnd := 0 },
    pins := { frameOut := [], wclkOut := [], ownN := true, tdmClk := [], sdo := [], sdoAt := [], bankMv := [], bankFault := [], jtag := 0,
              jtagIso := false, highZ := true, tempHigh := false } }

end Sys2Proof.Machine
end

