-- ==== Sys2Proof/Machine/Ops.lean ====
section
/-!
DEFINITION. Machine/Ops.lean: the named operations over tables, memory, object numbers and octets.
-/
namespace Sys2Proof.Machine

/-! ### Sparse tables -/

/-- The entry of key `k`, or the default of that key. -/
def tget {α : Type} : Tab α → α → Nat → α
  | [], d, _ => d
  | (a, v) :: r, d, k => if a = k then v else tget r d k

/-- A table without key `k`. -/
def tdrop {α : Type} (t : Tab α) (k : Nat) : Tab α := t.filter (fun e => e.1 != k)

/-- A table with the entry of key `k` put in its place. -/
def tins {α : Type} : Tab α → Nat → α → Tab α
  | [], k, v => [(k, v)]
  | (a, w) :: r, k, v => if k < a then (k, v) :: (a, w) :: r else if a = k then (k, v) :: r else (a, w) :: tins r k v

/-- Writes key `k`; writing the key's default removes the entry, so that equal tables are equal data. -/
def tput {α : Type} [DecidableEq α] (t : Tab α) (d : α) (k : Nat) (v : α) : Tab α :=
  if v = d then tdrop t k else tins t k v

/-- The canonical form of a table whose key `k` reads `d k` while unlisted: keys rising, no entry at its default. -/
def tabWf {α : Type} [DecidableEq α] (d : Nat → α) : Tab α → Bool
  | [] => true
  | (a, v) :: r => decide (v ≠ d a) && r.all (fun e => decide (a < e.1)) && tabWf d r

/-- Applies a function to one entry. -/
def tmod {α : Type} [DecidableEq α] (t : Tab α) (d : α) (k : Nat) (f : α → α) : Tab α := tput t d k (f (tget t d k))

/-- The listed keys. -/
def tkeys {α : Type} (t : Tab α) : List Nat := t.map (·.1)

/-! ### Memory of the 40-bit address map (R353); an unlisted byte reads 0 (log entry 4) -/

/-- One byte of memory. -/
def memByte (m : List Host.Cell) (a : Nat) : Byte := tget m 0 a

/-- Writes one byte. -/
def memPut (m : List Host.Cell) (a : Nat) (b : Byte) : List Host.Cell := tput m 0 a b

/-- The canonical form of memory. -/
def memWf (m : List Host.Cell) : Bool := tabWf (fun _ => (0 : Byte)) m

/-- `n` bytes from an address upwards. -/
def memRead (m : List Host.Cell) (a n : Nat) : Octets := (List.range n).map (fun i => (memByte m (a + i)).toNat)

/-- Stores bytes from an address upwards. -/
def memWrite (m : List Host.Cell) (a : Nat) : Octets → List Host.Cell
  | [] => m
  | b :: bs => memWrite (memPut m a (BitVec.ofNat 8 b)) (a + 1) bs

/-! ### Octets -/

/-- The `n` bytes of a number, least significant first. -/
def leBytes : Nat → Nat → Octets
  | 0, _ => []
  | n + 1, v => v % 256 :: leBytes n (v / 256)

/-- The `n` bytes of a number, most significant first. -/
def beBytes (n v : Nat) : Octets := (leBytes n v).reverse

/-- The number whose bytes are given least significant first. -/
def ofLe : Octets → Nat
  | [] => 0
  | b :: bs => b + 256 * ofLe bs

/-- The number whose bytes are given most significant first. -/
def ofBe (b : Octets) : Nat := ofLe b.reverse

/-- Bytes of a number in the byte order of a transport: big-endian on ODP, little-endian on PCIe (R247). -/
def toBytes (big : Bool) (n v : Nat) : Octets := if big then beBytes n v else leBytes n v

/-- A number from bytes in the byte order of a transport. -/
def ofBytes (big : Bool) (b : Octets) : Nat := if big then ofBe b else ofLe b

/-- `n` bytes from position `i`, zero beyond the end. -/
def slice (b : Octets) (i n : Nat) : Octets := (List.range n).map (fun j => (b[i + j]?).getD 0)

/-- Bits `hi` to `lo` of a number. -/
def bits (v hi lo : Nat) : Nat := v / 2 ^ lo % 2 ^ (hi + 1 - lo)

/-- Bit `i` of a number as 0 or 1. -/
def bit (v i : Nat) : Nat := v / 2 ^ i % 2

/-! ### Object numbers (00, Object numbers) -/

/-- The object of an area, an instance and a member. -/
def ob (a i m : Nat) : Obj := a * 2 ^ 28 + i * 2 ^ 12 + m

/-- The area of an object. -/
def areaOf (o : Obj) : Nat := o / 2 ^ 28
/-- The instance of an object. -/
def instOf (o : Obj) : Nat := o / 2 ^ 12 % 2 ^ 16
/-- The member of an object. -/
def memOf (o : Obj) : Nat := o % 2 ^ 12
/-- The number of member 000 of an object's instance, which names the instance (R240). -/
def baseOf (o : Obj) : Obj := o / 2 ^ 12 * 2 ^ 12

/-- The number in a value; 0 for bytes. -/
def valNat : Val → Nat
  | .num n => n
  | .blob _ => 0

/-- The bytes in a value; none for a number. -/
def valOctets : Val → Octets
  | .num _ => []
  | .blob b => b

/-! ### Free values -/

/-- Draws one open value: the value and the state with the next draw ready (log entry 6). -/
def draw (s : State) : Nat × State := ((Config.freeValue s.free).toNat, { s with free := s.free + 1 })

/-- Draws an open value held within 0 to `hi`. -/
def drawUpTo (s : State) (hi : Nat) : Nat × State := ((draw s).1 % (hi + 1), (draw s).2)

/-! ### CRC-32 of IEEE 802.3 (R123, R222, R402, R439, R441) -/

/-- Eight bit steps of the reflected CRC register. -/
def crcBits : Nat → Nat → Nat
  | 0, c => c
  | n + 1, c => crcBits n (if c % 2 = 1 then (c / 2) ^^^ 0xEDB88320 else c / 2)

/-- CRC-32 of octets: initial value and final inversion all ones. -/
def crc32 (b : Octets) : Nat := (b.foldl (fun c x => crcBits 8 (c ^^^ x)) 0xFFFFFFFF) ^^^ 0xFFFFFFFF

/-! ### Retention RAM (R439, R440) -/

/-- Entries of 8 bytes, filled up to `n` of them with zeros. -/
def entryOctets (n : Nat) (l : List Nat) : Octets := (List.range n).flatMap (fun j => leBytes 8 ((l[j]?).getD 0))

/-- Bytes 0x000 to 0x7FB of a copy (R439). -/
def RetainedCopy.octets (c : RetainedCopy) : Octets :=
  leBytes 4 c.magic ++ leBytes 4 c.generation ++ leBytes 4 c.current ++ leBytes 4 c.sequence ++ leBytes 1 c.cause ++ leBytes 1 (c.resetFails % 4)
  ++ List.replicate 2 0 ++ leBytes 4 c.warm ++ List.replicate 8 0 ++ (c.first.getD (List.replicate 32 0))
  ++ entryOctets 96 (c.spares.map (fun e => e.1 + e.2 * 2 ^ 32 + 2 ^ 63)) ++ entryOctets 32 (c.failed.map (fun e => e.1 + 2 ^ 63))
  ++ List.replicate 956 0

/-- Whether MAGIC and CRC of a copy pass. -/
def RetainedCopy.good (c : RetainedCopy) : Bool := c.magic == 0x4B525452 && c.crc == crc32 c.octets

/-- The copy that holds the retained state, its CRC written last. -/
def copyOf (a : Retained) : RetainedCopy :=
  let c : RetainedCopy := { magic := 0x4B525452, generation := a.generation % 2 ^ 32, current := a.current, sequence := a.sequence, cause := a.cause,
                            resetFails := a.resetFails, warm := a.warm, first := a.first, spares := a.spares, failed := a.failed, crc := 0 }
  { c with crc := crc32 c.octets }

/-- A write of retention RAM: the retained state takes the next generation, and goes to the copy of the lower one, or to copy A (R440). -/
def retain (a : Retained) (f : Retained → Retained) : Retained :=
  let r := { f a with valid := true, generation := a.generation + 1 }
  if a.copyB.generation < a.copyA.generation then { r with copyA := a.copyA, copyB := copyOf r } else { r with copyA := copyOf r, copyB := a.copyB }

/-- The retained state that a reset takes from a copy. -/
def fromCopy (a : Retained) (c : RetainedCopy) : Retained :=
  { valid := true, generation := c.generation, current := c.current, cause := c.cause, warm := c.warm, first := c.first, sequence := c.sequence,
    spares := c.spares, failed := c.failed, resetFails := c.resetFails, copyA := a.copyA, copyB := a.copyB }

/-- What a reset finds in retention RAM: the copy of the higher generation whose MAGIC and CRC pass; none, where neither does (R440). -/
def takeCopy (a : Retained) : Retained :=
  let p := if a.copyA.generation < a.copyB.generation then (a.copyB, a.copyA) else (a.copyA, a.copyB)
  if p.1.good then fromCopy a p.1 else if p.2.good then fromCopy a p.2 else Retained.none

/-! ### The slot record of the flash (R441) -/

/-- CRC-32 of MAGIC and SEQUENCE of a slot record. -/
def slotCrc (x : FwSlot) : Nat := crc32 (leBytes 4 x.magic ++ leBytes 4 x.sequence)

/-- Whether a slot holds a slot record that passes its CRC. -/
def FwSlot.present (x : FwSlot) : Bool := x.magic == 0x4B465753 && x.crc == slotCrc x

/-- A slot with a record of a SEQUENCE. -/
def sealSlot (x : FwSlot) (n : Nat) : FwSlot :=
  let y := { x with magic := 0x4B465753, sequence := n }
  { y with crc := slotCrc y }

/-! ### Time -/

/-- The state at a core cycle that an operand names; time does not run back (log entry 2). -/
def atCycle (s : State) (c : Cycle) : State := { s with now := if s.now < c then c else s.now }

/-! ### Lists -/

/-- Removes every occurrence of a number. -/
def dropAll (l : List Nat) (x : Nat) : List Nat := l.filter (fun y => !(y == x))

/-- Adds a number once. -/
def addOnce (l : List Nat) (x : Nat) : List Nat := if l.contains x then l else x :: l

/-- Inserts into a rising list of numbers, once. -/
def insertUp (x : Nat) : List Nat → List Nat
  | [] => [x]
  | y :: r => if x < y then x :: y :: r else if x = y then y :: r else y :: insertUp x r

/-- Sorts and removes repeats. -/
def sortUp (l : List Nat) : List Nat := l.foldr insertUp []

end Sys2Proof.Machine
end

