-- ==== Sys2Proof/Machine/Crypto.lean ====
section
/-!
DEFINITION. Machine/Crypto.lean: HMAC-SHA-256 (R252, R255).
-/
namespace Sys2Proof.Machine

/-! ### SHA-256

R252 and R255 name the hash; its constants are roots of primes, and the model computes them from that definition. -/

/-- The largest number below `2 ^ n` above `x` whose power `e` is at most `v`, found bit by bit. -/
def rootBits (e v : Nat) : Nat → Nat → Nat
  | 0, x => x
  | n + 1, x => rootBits e v n (if (x + 2 ^ n) ^ e ≤ v then x + 2 ^ n else x)

/-- The first 32 bits of the fraction of the root of degree `e` of a number below 2 ^ 9. -/
def rootFraction (e p : Nat) : Nat := rootBits e (p * 2 ^ (32 * e)) 37 0 % 2 ^ 32

/-- The primes below 312, of which there are 64. -/
def hashPrimes : List Nat :=
  (List.range 312).filter (fun n => decide (1 < n) && [2, 3, 5, 7, 11, 13, 17].all (fun p => n == p || n % p != 0))

/-- The constant of each round: cube roots. -/
def roundKeys : List Nat := hashPrimes.map (rootFraction 3)

/-- The hash value before the first block: square roots of the first 8 primes, as its two quadruples. -/
def hashStart : List Nat × List Nat := (([2, 3, 5, 7].map (rootFraction 2)), ([11, 13, 17, 19].map (rootFraction 2)))

/-- A sum of words. -/
def sum32 (l : List Nat) : Nat := l.foldl (· + ·) 0 % 2 ^ 32

/-- A word turned right by `n`. -/
def turn (x n : Nat) : Nat := (x + x * 2 ^ 32) / 2 ^ n % 2 ^ 32

/-- The exclusive sum of a word's turns by the amounts listed. -/
def turns (x : Nat) (l : List Nat) : Nat := l.foldl (fun a n => a ^^^ turn x n) 0

/-- The message schedule of a block, newest word first: `n` words after the 16 of the block. -/
def expand : Nat → List Nat → List Nat
  | 0, w => w
  | n + 1, w =>
    let back := fun (k : Nat) => (w[k - 1]?).getD 0
    expand n (sum32 [back 16, back 7, turns (back 15) [7, 18] ^^^ back 15 / 8, turns (back 2) [17, 19] ^^^ back 2 / 1024] :: w)

/-- One round: the quadruples gain a word each at the front and lose their last. -/
def hashRound (v : List Nat × List Nat) (kw : Nat × Nat) : List Nat × List Nat :=
  match v with
  | ([a, b, c, d], [e, f, g, h]) =>
    let t := sum32 [h, turns e [6, 11, 25], g ^^^ (e &&& (f ^^^ g)), kw.1, kw.2]
    ([sum32 [t, turns a [2, 13, 22], (a &&& (b ||| c)) ||| (b &&& c)], a, b, c], [sum32 [d, t], e, f, g])
  | o => o

/-- The hash value after one more block. -/
def hashBlock (h : List Nat × List Nat) (b : Octets) : List Nat × List Nat :=
  let w := (expand 48 ((List.range 16).map (fun i => ofBe (slice b (60 - 4 * i) 4)))).reverse
  let r := (roundKeys.zip w).foldl hashRound h
  (List.zipWith (fun x y => sum32 [x, y]) h.1 r.1, List.zipWith (fun x y => sum32 [x, y]) h.2 r.2)

/-- A message filled up to whole blocks of 64 octets: one octet 0x80, zeros, and its length in bits. -/
def hashBlocks (b : Octets) : List Octets :=
  let m := b ++ 0x80 :: List.replicate ((55 + 63 * b.length) % 64) 0 ++ beBytes 8 (8 * b.length)
  (List.range ((b.length + 72) / 64)).map (fun i => slice m (64 * i) 64)

/-- SHA-256 of octets. -/
def sha256 (b : Octets) : Octets :=
  let h := (hashBlocks b).foldl hashBlock hashStart
  (h.1 ++ h.2).flatMap (beBytes 4)

/-- HMAC-SHA-256 with a key of at most 64 octets. -/
def hmac (key msg : Octets) : Octets :=
  let k := key ++ List.replicate (64 - key.length) 0
  sha256 (k.map (· ^^^ 0x5c) ++ sha256 (k.map (· ^^^ 0x36) ++ msg))

/-- Octets of a text of ASCII codes. -/
def ascii (s : String) : Octets := s.toList.map Char.toNat

end Sys2Proof.Machine
end

