-- ==== Sys2Proof/Machine/Operands.lean ====
section
/-!
DEFINITION. Machine/Operands.lean: number formats (R5), rounding and saturation (R84, R85), product alignment (R82), and real
functions evaluated in fixed point with 64 fraction bits (log entry 8).
-/
namespace Sys2Proof.Machine

/-! ### Integers of fixed width -/

/-- The signed value of the low `w` bits. -/
def signedOf (w n : Nat) : Int :=
  let m := n % 2 ^ w
  if m < 2 ^ (w - 1) then (m : Int) else (m : Int) - 2 ^ w

/-- The low `w` bits of an integer. -/
def wrapTo (w : Nat) (x : Int) : Nat := (x % 2 ^ w).toNat

/-- Saturation into a signed range of `w` bits (R83 to R85). -/
def satTo (w : Nat) (x : Int) : Int :=
  if x < -(2 : Int) ^ (w - 1) then -(2 : Int) ^ (w - 1)
  else if (2 : Int) ^ (w - 1) ≤ x then (2 : Int) ^ (w - 1) - 1
  else x

/-- Whether a value leaves the signed range of `w` bits. -/
def overflows (w : Nat) (x : Int) : Bool := decide (satTo w x ≠ x)

/-- The floor of `x / 2^k`: rounding toward minus infinity (RD of R84). -/
def shiftFloor (x : Int) (k : Nat) : Int := x / 2 ^ k

/-- `x / 2^k` rounded to nearest, ties to even (RN of R84). -/
def shiftNearest (x : Int) (k : Nat) : Int :=
  let q := x / 2 ^ k
  let r := x % 2 ^ k
  if k = 0 then x
  else if 2 * r < 2 ^ k then q
  else if 2 ^ k < 2 * r then q + 1
  else if q % 2 = 0 then q else q + 1

/-- The quotient `x / y` rounded to nearest, ties to even, for `y` above 0. -/
def divNearest (x y : Int) : Int :=
  let q := x / y
  let r := x % y
  if 2 * r < y then q
  else if y < 2 * r then q + 1
  else if q % 2 = 0 then q else q + 1

/-- A 32-bit stored word of a Q8.23 sample as its integer. -/
def sample (n : Nat) : Int := signedOf 32 n

/-- Saturates a sum into Q8.23. -/
def satSample (x : Int) : Int := satTo 32 x

/-- The product of two operands aligned to Q27.52 (R82). -/
def alignProduct (k : Kind) (p : Int) : Int :=
  match k with
  | .sc => p
  | .sg => p * 4
  | .ss => p * 64
  | .cc => shiftNearest p 6
  | .gg => shiftNearest p 2

/-- Fraction bits that EXT and ACC move by for each format (R119). -/
def fmtBase : Fmt → Nat
  | .q823 => 29
  | .q229 => 23
  | .q427 => 25

/-- An accumulator extracted to Q8.23 by RN with saturation (R84, R168). -/
def accToSample (a : Int) : Int := satSample (shiftNearest a 29)

/-! ### Real functions in fixed point: an integer `v` means `v / 2^64` -/

/-- One. -/
def fxOne : Int := 2 ^ 64
/-- Natural logarithm of 2. -/
def fxLn2 : Int := 12786308645202655660
/-- Natural logarithm of 10. -/
def fxLn10 : Int := 42475197918399869020
/-- The circle number. -/
def fxPi : Int := 57952155664616982739

/-- Product rounded to nearest. -/
def fxMul (a b : Int) : Int := shiftNearest (a * b) 64
/-- Quotient rounded to nearest; 0 for a divisor of 0. -/
def fxDiv (a b : Int) : Int :=
  if b = 0 then 0 else if b < 0 then divNearest (-a * fxOne) (-b) else divNearest (a * fxOne) b

/-- Terms of the exponential series from term `i` on. -/
def expTerms (x : Int) : Nat → Nat → Int → Int
  | 0, _, _ => 0
  | n + 1, i, t => t + expTerms x n (i + 1) (divNearest (shiftNearest (t * x) 64) ((i : Int) + 1))

/-- The exponential function. -/
def fxExp (x : Int) : Int :=
  let k := x / fxLn2
  let r := x % fxLn2
  let e := expTerms r 24 0 fxOne
  if k < 0 then shiftNearest e (-k).toNat else e * 2 ^ k.toNat

/-- Terms of the inverse hyperbolic tangent series. -/
def atanhTerms (y2 : Int) : Nat → Nat → Int → Int
  | 0, _, _ => 0
  | n + 1, i, t => divNearest t (2 * (i : Int) + 1) + atanhTerms y2 n (i + 1) (fxMul t y2)

/-- The natural logarithm of a positive number. -/
def fxLn (x : Int) : Int :=
  let n := x.toNat
  let e : Int := (Nat.log2 n : Int) - 64
  let m : Int := if 0 ≤ e then shiftNearest x e.toNat else x * 2 ^ (-e).toNat
  let y := fxDiv (m - fxOne) (m + fxOne)
  e * fxLn2 + 2 * atanhTerms (fxMul y y) 24 0 y

/-- Terms of the cosine series. -/
def cosTerms (x2 : Int) : Nat → Nat → Int → Int
  | 0, _, _ => 0
  | n + 1, i, t =>
    t - cosTerms x2 n (i + 1) (divNearest (fxMul t x2) ((2 * (i : Int) + 1) * (2 * (i : Int) + 2)))

/-- The cosine of an angle between 0 and the circle number. -/
def fxCos (x : Int) : Int := cosTerms (fxMul x x) 24 0 fxOne

/-- Newton steps of the integer square root. -/
def sqrtSteps (n : Nat) : Nat → Nat → Nat
  | 0, r => r
  | f + 1, r =>
    let r' := (r + n / r) / 2
    if r ≤ r' then r else sqrtSteps n f r'

/-- The floor of the square root. -/
def sqrtNat (n : Nat) : Nat := if n = 0 then 0 else sqrtSteps n 300 (2 ^ (Nat.log2 n / 2 + 1))

/-- The square root of a non-negative number. -/
def fxSqrt (x : Int) : Int := (sqrtNat (x.toNat * 2 ^ 64) : Int)

/-- `10^(d/20)` of a level in dB. -/
def fxOfDb (d : Int) : Int := fxExp (divNearest (fxMul d fxLn10) 20)
/-- `10^(d/10)` of a level in dB. -/
def fxPowOfDb (d : Int) : Int := fxExp (divNearest (fxMul d fxLn10) 10)
/-- `20 log10` of a positive number. -/
def fxToDb (x : Int) : Int := fxDiv (20 * fxLn x) fxLn10

/-- A GAIN_DB code as its value in dB (R230). -/
def gainDbFx (n : Nat) : Int := signedOf 32 n * 2 ^ 48
/-- A value in dB rounded to the GAIN_DB code. -/
def fxGainDb (d : Int) : Nat := wrapTo 32 (satTo 32 (shiftNearest d 48))
/-- A Q8.23 code as a number. -/
def q823Fx (n : Int) : Int := n * 2 ^ 41
/-- A number rounded and saturated into Q8.23. -/
def fxSample (x : Int) : Int := satSample (shiftNearest x 41)

/-- The GAIN_DB code of minus infinity. -/
def negInf : Nat := 0x80000000

/-- The Q4.27 gain of a GAIN_DB code (R161). -/
def gainOfDb (n : Nat) : Int :=
  if n = negInf then 0 else min (shiftNearest (fxOfDb (gainDbFx n)) 37) 0x7FFFFFFF

/-- The GAIN_DB code that a Q4.27 gain reads back as (R161). -/
def dbOfGain (g : Int) : Nat := if g ≤ 0 then negInf else fxGainDb (fxToDb (g * 2 ^ 37))

/-- The raised-cosine weight w(k) of a crossfade of length n (R141). -/
def fadeIn (k n : Nat) : Int :=
  if n ≤ k + 1 then fxOne
  else shiftNearest (fxOne - fxCos (divNearest (fxPi * ((k : Int) + 1)) n)) 1

/-- A crossfade sample: (1 - w) times the old plus w times the new sample (R141). -/
def mixAt (k n : Nat) (old new : Int) : Int :=
  let w := fadeIn k n
  satSample (shiftNearest ((fxOne - w) * old + w * new) 64)

/-- A sample times a weight. -/
def weigh (w x : Int) : Int := satSample (shiftNearest (w * x) 64)

/-- A sample times a Q4.27 gain, by RN with saturation (R84). -/
def applyGain (g x : Int) : Int := satSample (shiftNearest (g * x) 27)

/-- Converts microseconds to samples at a rate in hertz, rounded to nearest (R145, R188, R196). -/
def usToSamples (us rate : Nat) : Nat := (2 * us * rate + 1000000) / 2000000

/-- `exp(-1 / (t * fs))` for a time in microseconds (R150, R185, R190, R198). -/
def decayOf (us rate : Nat) : Int :=
  if us * rate = 0 then 0 else fxExp (-(divNearest (fxOne * 1000000) ((us * rate : Nat) : Int)))

end Sys2Proof.Machine
end

