-- ==== Sys2Proof/Machine/Flags.lean ====
section
/-!
DEFINITION. Machine/Flags.lean: the status word of a lane (R79, R86) and the values of the MAC-slot operations with their
overflow flag (R82 to R85, R119, R122).
-/
namespace Sys2Proof.Machine

/-- A MAC-slot result: the integer written and whether it overflowed before saturation (R86). -/
structure MacVal where
  val : Int
  ov  : Bool
  deriving DecidableEq, Repr

/-- Saturation of an exact result into `w` bits; V reports it (R83, R85, R86). -/
def satVal (w : Nat) (x : Int) : MacVal := { val := satTo w x, ov := overflows w x }

/-- A result that never saturates. -/
def plainVal (x : Int) : MacVal := { val := x, ov := false }

/-- Z, N and V packed as bits 0 to 2 (R79). -/
def znv (r : MacVal) : Nat :=
  (if r.val = 0 then 1 else 0) + (if r.val < 0 then 2 else 0) + (if r.ov then 4 else 0)

/-- The status word after a result: Z, N and V replaced, SAT sticky (R79, R86). -/
def setFlags (st : BitVec 16) (f : Nat) : BitVec 16 :=
  let keep := st &&& 0x0008#16
  let sat := if f / 4 % 2 = 1 then 0x0008#16 else 0#16
  keep ||| sat ||| BitVec.ofNat 16 (f % 8)

/-- The saturation flag of a status word. -/
def satFlag (st : BitVec 16) : Bool := st.getLsbD 3

/-- MAC: accumulate an aligned product (R119). -/
def macVal (k : Kind) (a x y : Int) : MacVal := satVal 80 (a + alignProduct k (x * y))
/-- MSU: subtract an aligned product (R119). -/
def msuVal (k : Kind) (a x y : Int) : MacVal := satVal 80 (a - alignProduct k (x * y))
/-- MPY: an aligned product (R119). -/
def mpyVal (k : Kind) (x y : Int) : MacVal := plainVal (alignProduct k (x * y))

/-- EXT: drops base - s fraction bits by RN or RD and saturates to 32 bits (R84, R119). -/
def extVal (f : Fmt) (r : Rnd) (s a : Int) : MacVal :=
  let n := ((fmtBase f : Int) - s).toNat
  match r with
  | .rn => satVal 32 (shiftNearest a n)
  | .rd => satVal 32 (shiftFloor a n)

/-- ACC: deposits a data word in an accumulator (R119). -/
def accVal (f : Fmt) (x : Int) : MacVal := plainVal (x * 2 ^ fmtBase f)

/-- SHA: shift of an accumulator by a signed amount (R119). -/
def shaVal (imm a : Int) : MacVal :=
  if 0 ≤ imm then satVal 80 (a * 2 ^ imm.toNat) else plainVal (shiftFloor a (-imm).toNat)

/-- ASR by 0 to 31 bits (R85, R119). -/
def asrVal (x : Int) (n : Nat) : MacVal := plainVal (shiftFloor x n)
/-- ASL by 0 to 31 bits, saturating (R85, R119). -/
def aslVal (x : Int) (n : Nat) : MacVal := satVal 32 (x * 2 ^ n)
/-- ABS, saturating (R119). -/
def absVal (x : Int) : MacVal := satVal 32 (if x < 0 then -x else x)

/-- One step of a MAX or MIN search: MAXV and MAXI after it (R122). -/
def searchStep (better : Bool) (maxi : Word) (da maxv : Word) : Word × Word :=
  let i := maxi.toNat
  let low := if better then i / 65536 else i % 65536
  let high := (i / 65536 + 1) % 65536
  (if better then da else maxv, BitVec.ofNat 32 (high * 65536 + low))

end Sys2Proof.Machine
end

