-- ==== Sys2Proof/Machine/Table.lean ====
section
/-!
DEFINITION. Machine/Table.lean: the member tables of the dictionary (R225), row by row from the chapters' tables, with type,
access, apply class, write privilege (R226), persistence, default and range; and which numbers name an object in a mode.
-/
namespace Sys2Proof.Machine

/-- Object types (R230). -/
inductive Ty where
  | bool | u8 | u16 | u32 | u64 | i32 | q823 | q229 | q427 | gainDb | time64 | frame64 | signal | enum | str | blob
  deriving DecidableEq, Repr

/-- Access types (R227). -/
inductive Access where
  | ro | rw | wo
  deriving DecidableEq, Repr

/-- Apply classes (R228). -/
inductive Apply where
  | live | staged | ramped
  deriving DecidableEq, Repr

/-- How a member table states a default. -/
inductive Default where
  | num (n : Nat)
  | plusInst (n : Nat)
  | timesInst (k n : Nat)
  | parity (even odd : Nat)
  | halfInst
  | lowInst (base : Nat)
  | firstOnly (inst : Nat)
  | bandFreq
  | bytes (b : List Nat)
  | zeros (n : Nat)
  | str (s : String)
  | budget (field : Nat)
  | capacity
  | tiles
  | dieId
  | fwVersion
  | mac
  deriving Repr

/-- How a member table states a range. -/
inductive Rng where
  | any
  | flag
  | isTrue
  | span (lo hi : Nat)
  | spanOr (lo hi other : Nat)
  | oneOf (cs : List Nat)
  | signed (lo hi : Int)
  | gain (negInf : Bool) (lo hi : Int)
  | multOf (k lo hi : Nat)
  | pow2 (lo hi : Nat)
  | nanos
  | signal
  | sigSpan (lo hi : Nat)
  | patch
  | blobLen (lo hi : Nat)
  | blobInit
  | blobList
  | blobImage
  | activity
  | target
  | entryWord
  | span64
  deriving Repr

/-- One row of a member table: first and last member, type, access, apply class, write privilege, RETAINED, default, range. -/
structure Row where
  lo  : Nat
  hi  : Nat
  ty  : Ty
  acc : Access
  app : Apply
  priv : Nat
  ret : Bool
  dfl : Default
  rng : Rng

/-- Type codes (R230). -/
def Ty.code : Ty → Nat
  | .bool => 1 | .u8 => 2 | .u16 => 3 | .u32 => 4 | .u64 => 5 | .i32 => 6 | .q823 => 7 | .q229 => 8 | .q427 => 9
  | .gainDb => 10 | .time64 => 11 | .frame64 => 12 | .signal => 13 | .enum => 14 | .str => 15 | .blob => 16

/-- Bytes of a scalar encoding (R230); 0 for STRING and BLOB, whose length is their own. -/
def Ty.bytes : Ty → Nat
  | .bool => 1 | .u8 => 1 | .u16 => 2 | .u32 => 4 | .u64 => 8 | .i32 => 4 | .q823 => 4 | .q229 => 4 | .q427 => 4
  | .gainDb => 4 | .time64 => 8 | .frame64 => 8 | .signal => 2 | .enum => 2 | .str => 0 | .blob => 0

/-- Members of the family that R42 gives. -/
def budgetRows : List Row :=
[
  /- ENABLE -/ ⟨0x0, 0x0, .bool, .rw, .staged, 2, true, .budget 0, .flag⟩,
  /- ACTIVITY -/ ⟨0x1, 0x1, .enum, .rw, .staged, 2, true, .budget 1, .activity⟩,
  /- TARGET -/ ⟨0x2, 0x2, .enum, .rw, .staged, 2, true, .budget 2, .target⟩,
  /- DOMAIN -/ ⟨0x3, 0x3, .enum, .rw, .staged, 2, true, .num 0, .span 0 3⟩,
  /- MODE -/ ⟨0x4, 0x4, .enum, .rw, .staged, 2, true, .num 0, .span 0 1⟩,
  /- BEATS -/ ⟨0x5, 0x5, .u32, .rw, .staged, 2, true, .num 0, .span 0 262143⟩,
  /- DEMAND -/ ⟨0x6, 0x6, .u32, .ro, .live, 1, false, .num 0, .any⟩,
  /- USED_LAST -/ ⟨0x7, 0x7, .u32, .ro, .live, 1, false, .num 0, .any⟩,
  /- USED_PEAK -/ ⟨0x8, 0x8, .u32, .ro, .live, 1, false, .num 0, .any⟩,
  /- EXHAUSTED_FRAMES -/ ⟨0x9, 0x9, .u64, .ro, .live, 1, false, .num 0, .any⟩,
  /- CUTOFF_FRAMES -/ ⟨0xa, 0xa, .u64, .ro, .live, 1, false, .num 0, .any⟩,
  /- CLEAR -/ ⟨0xb, 0xb, .bool, .wo, .live, 1, false, .num 0, .isTrue⟩,
  /- ENTRY -/ ⟨0xc, 0xc, .u64, .rw, .staged, 2, true, .num 0, .entryWord⟩]

/-- Members of the family that R68 gives. -/
def bridgeRows : List Row :=
[
  /- ENABLE -/ ⟨0x0, 0x0, .bool, .rw, .staged, 2, true, .num 0, .flag⟩,
  /- SOURCE -/ ⟨0x1, 0x1, .signal, .rw, .staged, 2, true, .num 0, .signal⟩,
  /- DEST -/ ⟨0x2, 0x2, .signal, .rw, .staged, 2, true, .num 6144, .sigSpan 0x1800 0x1FFF⟩,
  /- DEST_DOMAIN -/ ⟨0x3, 0x3, .enum, .rw, .staged, 2, true, .num 0, .span 0 3⟩,
  /- STATE -/ ⟨0x4, 0x4, .enum, .ro, .live, 1, false, .num 0, .any⟩,
  /- RATIO -/ ⟨0x5, 0x5, .q823, .ro, .live, 1, false, .num 0, .any⟩,
  /- UNITS -/ ⟨0x6, 0x6, .u8, .ro, .live, 1, false, .num 0, .any⟩]

/-- Members of the family that R69 gives. -/
def modeRows : List Row :=
[
  /- MODE -/ ⟨0x0, 0x0, .enum, .ro, .live, 1, true, .num 1, .any⟩,
  /- RATE -/ ⟨0x1, 0x1, .enum, .ro, .live, 1, true, .num 1, .any⟩,
  /- REQ_RATE -/ ⟨0x2, 0x2, .enum, .rw, .live, 1, true, .num 1, .span 0 5⟩,
  /- REQ_MODE -/ ⟨0x3, 0x3, .enum, .wo, .live, 2, false, .num 0, .any⟩,
  /- TRANSITION -/ ⟨0x4, 0x4, .enum, .ro, .live, 1, false, .num 0, .any⟩,
  /- LAST_STATUS -/ ⟨0x5, 0x5, .u8, .ro, .live, 1, false, .num 0, .any⟩,
  /- DORMANT -/ ⟨0x6, 0x6, .u32, .ro, .live, 1, false, .num 0, .any⟩,
  /- DROPPED -/ ⟨0x7, 0x7, .u32, .ro, .live, 1, false, .num 0, .any⟩,
  /- TRANSITIONS -/ ⟨0x8, 0x8, .u32, .ro, .live, 1, false, .num 0, .any⟩,
  /- SUSPENDED -/ ⟨0x9, 0x9, .u32, .ro, .live, 1, false, .num 0, .any⟩]

/-- Members of the family that R130 gives. -/
def imageRows : List Row :=
[
  /- IMAGE -/ ⟨0x0, 0x0, .blob, .rw, .staged, 2, true, .bytes [], .blobImage⟩,
  /- LOAD_STATUS -/ ⟨0x1, 0x1, .enum, .ro, .live, 2, false, .num 0, .any⟩,
  /- BOUND -/ ⟨0x2, 0x2, .u32, .ro, .live, 2, false, .num 0, .any⟩,
  /- BUNDLES -/ ⟨0x3, 0x3, .u16, .ro, .live, 2, false, .num 0, .any⟩,
  /- RATE_CLASSES -/ ⟨0x4, 0x4, .u8, .ro, .live, 2, false, .num 0, .any⟩,
  /- IMAGE_ID -/ ⟨0x5, 0x5, .u32, .ro, .live, 2, false, .num 0, .any⟩,
  /- USERS -/ ⟨0x6, 0x6, .u16, .ro, .live, 2, false, .num 0, .any⟩]

/-- Members of the family that R131 gives. -/
def placementRows : List Row :=
[
  /- ENABLE -/ ⟨0x0, 0x0, .bool, .rw, .staged, 2, true, .num 0, .flag⟩,
  /- IMAGE -/ ⟨0x1, 0x1, .u8, .rw, .staged, 2, true, .num 0, .span 0 255⟩,
  /- LANE -/ ⟨0x2, 0x2, .u8, .rw, .staged, 2, true, .num 0, .span 0 15⟩,
  /- PHASE -/ ⟨0x3, 0x3, .enum, .rw, .staged, 2, true, .num 1, .span 0 3⟩,
  /- ORDER -/ ⟨0x4, 0x4, .u8, .rw, .staged, 2, true, .num 0, .span 0 255⟩,
  /- CONTEXT -/ ⟨0x5, 0x5, .u16, .rw, .staged, 2, true, .num 16368, .multOf 16 0 0x3FF0⟩,
  /- CONTEXT_INIT -/ ⟨0x6, 0x6, .blob, .rw, .staged, 2, true, .zeros 48, .blobInit⟩,
  /- COEF -/ ⟨0x7, 0x7, .blob, .rw, .staged, 2, true, .bytes [], .blobLen 0 32768⟩,
  /- COEF_BASE -/ ⟨0x8, 0x8, .u16, .rw, .staged, 2, true, .num 16384, .span 0x4000 0x5FFF⟩,
  /- GATHER -/ ⟨0x9, 0x9, .blob, .rw, .staged, 2, true, .bytes [], .blobList⟩,
  /- SCATTER -/ ⟨0xa, 0xa, .blob, .rw, .staged, 2, true, .bytes [], .blobList⟩,
  /- STATE -/ ⟨0xb, 0xb, .enum, .ro, .live, 1, false, .num 0, .any⟩,
  /- BOUND -/ ⟨0xc, 0xc, .u32, .ro, .live, 1, false, .num 0, .any⟩,
  /- PHASE_BOUND -/ ⟨0xd, 0xd, .u32, .ro, .live, 1, false, .num 0, .any⟩,
  /- LAST_CYCLES -/ ⟨0xe, 0xe, .u32, .ro, .live, 1, false, .num 0, .any⟩,
  /- SAT_COUNT -/ ⟨0xf, 0xf, .u64, .ro, .live, 1, false, .num 0, .any⟩,
  /- ADDR_ERRORS -/ ⟨0x10, 0x10, .u64, .ro, .live, 1, false, .num 0, .any⟩,
  /- STOPPED -/ ⟨0x11, 0x11, .u64, .ro, .live, 1, false, .num 0, .any⟩,
  /- CLEAR -/ ⟨0x12, 0x12, .bool, .wo, .live, 2, false, .num 0, .isTrue⟩]

/-- Members of the family that R144 gives. -/
def stripRows : List Row :=
[
  /- INPUT -/ ⟨0x0, 0x0, .signal, .rw, .live, 1, true, .plusInst 0, .signal⟩,
  /- XFADE -/ ⟨0x1, 0x1, .u16, .rw, .live, 1, true, .num 64, .span 8 4096⟩,
  /- ORDER -/ ⟨0x2, 0x2, .enum, .rw, .live, 1, true, .num 0, .span 0 3⟩,
  /- GATE_UNIT -/ ⟨0x10, 0x10, .u16, .ro, .live, 1, true, .timesInst 2 0, .any⟩,
  /- COMP_UNIT -/ ⟨0x11, 0x11, .u16, .ro, .live, 1, true, .timesInst 2 1, .any⟩,
  /- TRIM -/ ⟨0x40, 0x40, .gainDb, .rw, .live, 1, true, .num 0, .gain false (-2621440) 1572864⟩,
  /- POLARITY -/ ⟨0x41, 0x41, .bool, .rw, .live, 1, true, .num 0, .flag⟩,
  /- GAIN_RAMP -/ ⟨0x42, 0x42, .u16, .rw, .live, 1, true, .num 256, .span 0 4096⟩,
  /- GAIN_LAW -/ ⟨0x43, 0x43, .enum, .rw, .live, 1, true, .num 0, .span 0 2⟩,
  /- DELAY_ON -/ ⟨0x50, 0x50, .bool, .rw, .staged, 2, true, .num 0, .flag⟩,
  /- DELAY -/ ⟨0x51, 0x51, .u32, .rw, .live, 1, true, .num 0, .span 0 500000⟩,
  /- DELAY_SAMPLES -/ ⟨0x52, 0x52, .u32, .ro, .live, 1, true, .num 0, .any⟩,
  /- TAP_MISSES -/ ⟨0x53, 0x53, .u64, .ro, .live, 1, false, .num 0, .any⟩,
  /- WRITE_MISSES -/ ⟨0x54, 0x54, .u64, .ro, .live, 1, false, .num 0, .any⟩,
  /- HPF_ON -/ ⟨0x60, 0x60, .bool, .rw, .live, 1, true, .num 0, .flag⟩,
  /- HPF_FREQ -/ ⟨0x61, 0x61, .u32, .rw, .live, 1, true, .num 80000, .span 10000 2000000⟩,
  /- HPF_SLOPE -/ ⟨0x62, 0x62, .enum, .rw, .live, 1, true, .num 1, .span 0 3⟩,
  /- LPF_ON -/ ⟨0x64, 0x64, .bool, .rw, .live, 1, true, .num 0, .flag⟩,
  /- LPF_FREQ -/ ⟨0x65, 0x65, .u32, .rw, .live, 1, true, .num 18000000, .span 1000000 80000000⟩,
  /- LPF_SLOPE -/ ⟨0x66, 0x66, .enum, .rw, .live, 1, true, .num 1, .span 0 3⟩,
  /- BAND_ON -/ ⟨0x100, 0x100, .bool, .rw, .live, 1, true, .num 0, .flag⟩,
  /- BAND_TYPE -/ ⟨0x101, 0x101, .enum, .rw, .live, 1, true, .num 0, .span 0 3⟩,
  /- BAND_FREQ -/ ⟨0x102, 0x102, .u32, .rw, .live, 1, true, .bandFreq, .span 20000 40000000⟩,
  /- BAND_GAIN -/ ⟨0x103, 0x103, .gainDb, .rw, .live, 1, true, .num 0, .gain false (-1179648) 1179648⟩] ++ [
  /- BAND_Q -/ ⟨0x104, 0x104, .q823, .rw, .live, 1, true, .num 5930746, .span 838861 134217728⟩,
  /- BAND_ON -/ ⟨0x110, 0x110, .bool, .rw, .live, 1, true, .num 0, .flag⟩,
  /- BAND_TYPE -/ ⟨0x111, 0x111, .enum, .rw, .live, 1, true, .num 0, .span 0 3⟩,
  /- BAND_FREQ -/ ⟨0x112, 0x112, .u32, .rw, .live, 1, true, .bandFreq, .span 20000 40000000⟩,
  /- BAND_GAIN -/ ⟨0x113, 0x113, .gainDb, .rw, .live, 1, true, .num 0, .gain false (-1179648) 1179648⟩,
  /- BAND_Q -/ ⟨0x114, 0x114, .q823, .rw, .live, 1, true, .num 5930746, .span 838861 134217728⟩,
  /- BAND_ON -/ ⟨0x120, 0x120, .bool, .rw, .live, 1, true, .num 0, .flag⟩,
  /- BAND_TYPE -/ ⟨0x121, 0x121, .enum, .rw, .live, 1, true, .num 0, .span 0 3⟩,
  /- BAND_FREQ -/ ⟨0x122, 0x122, .u32, .rw, .live, 1, true, .bandFreq, .span 20000 40000000⟩,
  /- BAND_GAIN -/ ⟨0x123, 0x123, .gainDb, .rw, .live, 1, true, .num 0, .gain false (-1179648) 1179648⟩,
  /- BAND_Q -/ ⟨0x124, 0x124, .q823, .rw, .live, 1, true, .num 5930746, .span 838861 134217728⟩,
  /- BAND_ON -/ ⟨0x130, 0x130, .bool, .rw, .live, 1, true, .num 0, .flag⟩,
  /- BAND_TYPE -/ ⟨0x131, 0x131, .enum, .rw, .live, 1, true, .num 0, .span 0 3⟩,
  /- BAND_FREQ -/ ⟨0x132, 0x132, .u32, .rw, .live, 1, true, .bandFreq, .span 20000 40000000⟩,
  /- BAND_GAIN -/ ⟨0x133, 0x133, .gainDb, .rw, .live, 1, true, .num 0, .gain false (-1179648) 1179648⟩,
  /- BAND_Q -/ ⟨0x134, 0x134, .q823, .rw, .live, 1, true, .num 5930746, .span 838861 134217728⟩,
  /- BAND_ON -/ ⟨0x140, 0x140, .bool, .rw, .live, 1, true, .num 0, .flag⟩,
  /- BAND_TYPE -/ ⟨0x141, 0x141, .enum, .rw, .live, 1, true, .num 0, .span 0 3⟩,
  /- BAND_FREQ -/ ⟨0x142, 0x142, .u32, .rw, .live, 1, true, .bandFreq, .span 20000 40000000⟩,
  /- BAND_GAIN -/ ⟨0x143, 0x143, .gainDb, .rw, .live, 1, true, .num 0, .gain false (-1179648) 1179648⟩,
  /- BAND_Q -/ ⟨0x144, 0x144, .q823, .rw, .live, 1, true, .num 5930746, .span 838861 134217728⟩,
  /- BAND_ON -/ ⟨0x150, 0x150, .bool, .rw, .live, 1, true, .num 0, .flag⟩,
  /- BAND_TYPE -/ ⟨0x151, 0x151, .enum, .rw, .live, 1, true, .num 0, .span 0 3⟩,
  /- BAND_FREQ -/ ⟨0x152, 0x152, .u32, .rw, .live, 1, true, .bandFreq, .span 20000 40000000⟩] ++ [
  /- BAND_GAIN -/ ⟨0x153, 0x153, .gainDb, .rw, .live, 1, true, .num 0, .gain false (-1179648) 1179648⟩,
  /- BAND_Q -/ ⟨0x154, 0x154, .q823, .rw, .live, 1, true, .num 5930746, .span 838861 134217728⟩,
  /- BAND_ON -/ ⟨0x160, 0x160, .bool, .rw, .live, 1, true, .num 0, .flag⟩,
  /- BAND_TYPE -/ ⟨0x161, 0x161, .enum, .rw, .live, 1, true, .num 0, .span 0 3⟩,
  /- BAND_FREQ -/ ⟨0x162, 0x162, .u32, .rw, .live, 1, true, .bandFreq, .span 20000 40000000⟩,
  /- BAND_GAIN -/ ⟨0x163, 0x163, .gainDb, .rw, .live, 1, true, .num 0, .gain false (-1179648) 1179648⟩,
  /- BAND_Q -/ ⟨0x164, 0x164, .q823, .rw, .live, 1, true, .num 5930746, .span 838861 134217728⟩,
  /- BAND_ON -/ ⟨0x170, 0x170, .bool, .rw, .live, 1, true, .num 0, .flag⟩,
  /- BAND_TYPE -/ ⟨0x171, 0x171, .enum, .rw, .live, 1, true, .num 0, .span 0 3⟩,
  /- BAND_FREQ -/ ⟨0x172, 0x172, .u32, .rw, .live, 1, true, .bandFreq, .span 20000 40000000⟩,
  /- BAND_GAIN -/ ⟨0x173, 0x173, .gainDb, .rw, .live, 1, true, .num 0, .gain false (-1179648) 1179648⟩,
  /- BAND_Q -/ ⟨0x174, 0x174, .q823, .rw, .live, 1, true, .num 5930746, .span 838861 134217728⟩,
  /- EQ_ON -/ ⟨0x180, 0x180, .bool, .rw, .live, 1, true, .num 0, .flag⟩,
  /- COEF_XFADE -/ ⟨0x181, 0x181, .u16, .rw, .live, 1, true, .num 128, .span 16 1024⟩,
  /- INSERT_ON -/ ⟨0x200, 0x200, .bool, .rw, .staged, 2, true, .num 0, .flag⟩,
  /- INSERT_SEND -/ ⟨0x201, 0x201, .signal, .rw, .staged, 2, true, .plusInst 0x1800, .sigSpan 0x1800 0x1FFF⟩,
  /- INSERT_RETURN -/ ⟨0x202, 0x202, .signal, .rw, .staged, 2, true, .plusInst 0x1800, .signal⟩,
  /- FADER -/ ⟨0x300, 0x300, .gainDb, .rw, .live, 1, true, .num 0, .gain true (-9437184) 655360⟩,
  /- MUTE -/ ⟨0x301, 0x301, .bool, .rw, .live, 1, true, .num 1, .flag⟩,
  /- MUTE_FADE -/ ⟨0x302, 0x302, .u16, .rw, .live, 1, true, .num 64, .span 8 4096⟩,
  /- DIRECT_ON -/ ⟨0x400, 0x400, .bool, .rw, .staged, 2, true, .num 0, .flag⟩,
  /- DIRECT_SIGNAL -/ ⟨0x401, 0x401, .signal, .rw, .staged, 2, true, .plusInst 0x1C00, .sigSpan 0x1800 0x1FFF⟩,
  /- DIRECT_TAP -/ ⟨0x402, 0x402, .enum, .rw, .live, 1, true, .num 1, .span 0 2⟩,
  /- DIRECT_LEVEL -/ ⟨0x403, 0x403, .gainDb, .rw, .live, 1, true, .num 0, .gain true (-9437184) 655360⟩] ++ [
  /- AUTOMIX_GROUP -/ ⟨0x500, 0x500, .u8, .rw, .staged, 2, true, .num 0, .span 0 8⟩,
  /- AUTOMIX_WEIGHT -/ ⟨0x501, 0x501, .gainDb, .rw, .live, 1, true, .num 0, .gain false (-786432) 786432⟩,
  /- AUTOMIX_GAIN -/ ⟨0x502, 0x502, .gainDb, .ro, .live, 1, true, .num 0, .any⟩,
  /- SAT_COUNT -/ ⟨0x600, 0x600, .u64, .ro, .live, 1, false, .num 0, .any⟩,
  /- CLEAR -/ ⟨0x6ff, 0x6ff, .bool, .wo, .live, 1, false, .num 0, .isTrue⟩]

/-- Members of the family that R149 gives. -/
def automixRows : List Row :=
[
  /- ENABLE -/ ⟨0x0, 0x0, .bool, .rw, .staged, 2, true, .num 0, .flag⟩,
  /- THRESHOLD -/ ⟨0x1, 0x1, .gainDb, .rw, .live, 1, true, .num 4291035136, .gain false (-5898240) 0⟩,
  /- OFF_ATTEN -/ ⟨0x2, 0x2, .gainDb, .rw, .live, 1, true, .num 4293984256, .gain false (-3932160) 0⟩,
  /- TIME -/ ⟨0x3, 0x3, .u16, .rw, .live, 1, true, .num 10, .span 1 100⟩,
  /- WINNER -/ ⟨0x4, 0x4, .u16, .ro, .live, 1, false, .num 0, .any⟩,
  /- MEMBERS -/ ⟨0x5, 0x5, .u16, .ro, .live, 1, false, .num 0, .any⟩]

/-- Members of the family that R155 gives. -/
def captureRows : List Row :=
[
  /- ENABLE -/ ⟨0x0, 0x0, .bool, .rw, .staged, 2, true, .num 0, .flag⟩,
  /- STATE -/ ⟨0x1, 0x1, .enum, .ro, .live, 1, false, .num 0, .any⟩,
  /- FREEZE -/ ⟨0x2, 0x2, .bool, .rw, .live, 1, true, .num 0, .flag⟩,
  /- NEWEST -/ ⟨0x3, 0x3, .frame64, .ro, .live, 1, false, .num 0, .any⟩,
  /- OLDEST -/ ⟨0x4, 0x4, .frame64, .ro, .live, 1, false, .num 0, .any⟩,
  /- DROPS -/ ⟨0x5, 0x5, .u64, .ro, .live, 1, false, .num 0, .any⟩,
  /- RB_ENABLE -/ ⟨0x10, 0x10, .bool, .rw, .staged, 2, true, .num 0, .flag⟩,
  /- RB_FIRST_STRIP -/ ⟨0x11, 0x11, .u16, .rw, .staged, 2, true, .num 0, .span 0 1023⟩,
  /- RB_COUNT -/ ⟨0x12, 0x12, .u16, .rw, .staged, 2, true, .num 0, .span 0 1024⟩,
  /- RB_FIRST_RECORD -/ ⟨0x13, 0x13, .u16, .rw, .staged, 2, true, .num 0, .span 0 1023⟩,
  /- RB_FROM -/ ⟨0x14, 0x14, .frame64, .rw, .live, 1, true, .num 0, .span64⟩,
  /- RB_FRAMES -/ ⟨0x15, 0x15, .u32, .rw, .live, 1, true, .num 0, .any⟩,
  /- RB_GO -/ ⟨0x16, 0x16, .bool, .wo, .live, 1, false, .num 0, .isTrue⟩,
  /- RB_STATE -/ ⟨0x17, 0x17, .enum, .ro, .live, 1, false, .num 0, .any⟩]

/-- Members of the family that R171 gives. -/
def busRows : List Row :=
[
  /- XFADE -/ ⟨0x1, 0x1, .u16, .rw, .live, 1, true, .num 64, .span 8 4096⟩,
  /- DYN_UNIT -/ ⟨0x20, 0x20, .u16, .rw, .staged, 2, true, .num 65535, .spanOr 0 0x7FF 0xFFFF⟩,
  /- GAIN_RAMP -/ ⟨0x42, 0x42, .u16, .rw, .live, 1, true, .num 256, .span 0 4096⟩,
  /- GAIN_LAW -/ ⟨0x43, 0x43, .enum, .rw, .live, 1, true, .num 0, .span 0 2⟩,
  /- BAND_ON -/ ⟨0x100, 0x100, .bool, .rw, .live, 1, true, .num 0, .flag⟩,
  /- BAND_TYPE -/ ⟨0x101, 0x101, .enum, .rw, .live, 1, true, .num 0, .span 0 3⟩,
  /- BAND_FREQ -/ ⟨0x102, 0x102, .u32, .rw, .live, 1, true, .bandFreq, .span 20000 40000000⟩,
  /- BAND_GAIN -/ ⟨0x103, 0x103, .gainDb, .rw, .live, 1, true, .num 0, .gain false (-1179648) 1179648⟩,
  /- BAND_Q -/ ⟨0x104, 0x104, .q823, .rw, .live, 1, true, .num 5930746, .span 838861 134217728⟩,
  /- BAND_ON -/ ⟨0x110, 0x110, .bool, .rw, .live, 1, true, .num 0, .flag⟩,
  /- BAND_TYPE -/ ⟨0x111, 0x111, .enum, .rw, .live, 1, true, .num 0, .span 0 3⟩,
  /- BAND_FREQ -/ ⟨0x112, 0x112, .u32, .rw, .live, 1, true, .bandFreq, .span 20000 40000000⟩,
  /- BAND_GAIN -/ ⟨0x113, 0x113, .gainDb, .rw, .live, 1, true, .num 0, .gain false (-1179648) 1179648⟩,
  /- BAND_Q -/ ⟨0x114, 0x114, .q823, .rw, .live, 1, true, .num 5930746, .span 838861 134217728⟩,
  /- BAND_ON -/ ⟨0x120, 0x120, .bool, .rw, .live, 1, true, .num 0, .flag⟩,
  /- BAND_TYPE -/ ⟨0x121, 0x121, .enum, .rw, .live, 1, true, .num 0, .span 0 3⟩,
  /- BAND_FREQ -/ ⟨0x122, 0x122, .u32, .rw, .live, 1, true, .bandFreq, .span 20000 40000000⟩,
  /- BAND_GAIN -/ ⟨0x123, 0x123, .gainDb, .rw, .live, 1, true, .num 0, .gain false (-1179648) 1179648⟩,
  /- BAND_Q -/ ⟨0x124, 0x124, .q823, .rw, .live, 1, true, .num 5930746, .span 838861 134217728⟩,
  /- BAND_ON -/ ⟨0x130, 0x130, .bool, .rw, .live, 1, true, .num 0, .flag⟩,
  /- BAND_TYPE -/ ⟨0x131, 0x131, .enum, .rw, .live, 1, true, .num 0, .span 0 3⟩,
  /- BAND_FREQ -/ ⟨0x132, 0x132, .u32, .rw, .live, 1, true, .bandFreq, .span 20000 40000000⟩,
  /- BAND_GAIN -/ ⟨0x133, 0x133, .gainDb, .rw, .live, 1, true, .num 0, .gain false (-1179648) 1179648⟩,
  /- BAND_Q -/ ⟨0x134, 0x134, .q823, .rw, .live, 1, true, .num 5930746, .span 838861 134217728⟩] ++ [
  /- BAND_ON -/ ⟨0x140, 0x140, .bool, .rw, .live, 1, true, .num 0, .flag⟩,
  /- BAND_TYPE -/ ⟨0x141, 0x141, .enum, .rw, .live, 1, true, .num 0, .span 0 3⟩,
  /- BAND_FREQ -/ ⟨0x142, 0x142, .u32, .rw, .live, 1, true, .bandFreq, .span 20000 40000000⟩,
  /- BAND_GAIN -/ ⟨0x143, 0x143, .gainDb, .rw, .live, 1, true, .num 0, .gain false (-1179648) 1179648⟩,
  /- BAND_Q -/ ⟨0x144, 0x144, .q823, .rw, .live, 1, true, .num 5930746, .span 838861 134217728⟩,
  /- BAND_ON -/ ⟨0x150, 0x150, .bool, .rw, .live, 1, true, .num 0, .flag⟩,
  /- BAND_TYPE -/ ⟨0x151, 0x151, .enum, .rw, .live, 1, true, .num 0, .span 0 3⟩,
  /- BAND_FREQ -/ ⟨0x152, 0x152, .u32, .rw, .live, 1, true, .bandFreq, .span 20000 40000000⟩,
  /- BAND_GAIN -/ ⟨0x153, 0x153, .gainDb, .rw, .live, 1, true, .num 0, .gain false (-1179648) 1179648⟩,
  /- BAND_Q -/ ⟨0x154, 0x154, .q823, .rw, .live, 1, true, .num 5930746, .span 838861 134217728⟩,
  /- BAND_ON -/ ⟨0x160, 0x160, .bool, .rw, .live, 1, true, .num 0, .flag⟩,
  /- BAND_TYPE -/ ⟨0x161, 0x161, .enum, .rw, .live, 1, true, .num 0, .span 0 3⟩,
  /- BAND_FREQ -/ ⟨0x162, 0x162, .u32, .rw, .live, 1, true, .bandFreq, .span 20000 40000000⟩,
  /- BAND_GAIN -/ ⟨0x163, 0x163, .gainDb, .rw, .live, 1, true, .num 0, .gain false (-1179648) 1179648⟩,
  /- BAND_Q -/ ⟨0x164, 0x164, .q823, .rw, .live, 1, true, .num 5930746, .span 838861 134217728⟩,
  /- BAND_ON -/ ⟨0x170, 0x170, .bool, .rw, .live, 1, true, .num 0, .flag⟩,
  /- BAND_TYPE -/ ⟨0x171, 0x171, .enum, .rw, .live, 1, true, .num 0, .span 0 3⟩,
  /- BAND_FREQ -/ ⟨0x172, 0x172, .u32, .rw, .live, 1, true, .bandFreq, .span 20000 40000000⟩,
  /- BAND_GAIN -/ ⟨0x173, 0x173, .gainDb, .rw, .live, 1, true, .num 0, .gain false (-1179648) 1179648⟩,
  /- BAND_Q -/ ⟨0x174, 0x174, .q823, .rw, .live, 1, true, .num 5930746, .span 838861 134217728⟩,
  /- EQ_ON -/ ⟨0x180, 0x180, .bool, .rw, .live, 1, true, .num 0, .flag⟩,
  /- COEF_XFADE -/ ⟨0x181, 0x181, .u16, .rw, .live, 1, true, .num 128, .span 16 1024⟩,
  /- FADER -/ ⟨0x300, 0x300, .gainDb, .rw, .live, 1, true, .num 0, .gain true (-9437184) 655360⟩,
  /- MUTE -/ ⟨0x301, 0x301, .bool, .rw, .live, 1, true, .num 0, .flag⟩] ++ [
  /- MUTE_FADE -/ ⟨0x302, 0x302, .u16, .rw, .live, 1, true, .num 64, .span 8 4096⟩,
  /- SUM_SAT -/ ⟨0x600, 0x600, .u64, .ro, .live, 1, false, .num 0, .any⟩,
  /- XP_REPEATS -/ ⟨0x601, 0x601, .u64, .ro, .live, 1, false, .num 0, .any⟩,
  /- SAT_COUNT -/ ⟨0x602, 0x602, .u64, .ro, .live, 1, false, .num 0, .any⟩,
  /- LANE -/ ⟨0x610, 0x610, .u8, .ro, .live, 1, true, .num 0, .any⟩,
  /- BOUND -/ ⟨0x611, 0x611, .u32, .ro, .live, 1, true, .num 0, .any⟩,
  /- CLEAR -/ ⟨0x6ff, 0x6ff, .bool, .wo, .live, 1, false, .num 0, .isTrue⟩]

/-- Members of the family that R178 gives. -/
def outputRows : List Row :=
[
  /- DELAY_ON -/ ⟨0x0, 0x0, .bool, .rw, .staged, 2, true, .num 0, .flag⟩,
  /- DELAY -/ ⟨0x1, 0x1, .u32, .rw, .live, 1, true, .num 0, .span 0 2500000⟩,
  /- DELAY_SAMPLES -/ ⟨0x2, 0x2, .u32, .ro, .live, 1, true, .num 0, .any⟩,
  /- TAP_MISSES -/ ⟨0x3, 0x3, .u64, .ro, .live, 1, false, .num 0, .any⟩,
  /- WRITE_MISSES -/ ⟨0x4, 0x4, .u64, .ro, .live, 1, false, .num 0, .any⟩,
  /- FIR_ON -/ ⟨0x10, 0x10, .bool, .rw, .staged, 2, true, .num 0, .flag⟩,
  /- FIR_TAPS -/ ⟨0x11, 0x11, .u16, .rw, .staged, 2, true, .num 1, .span 1 4096⟩,
  /- FIR_COEF -/ ⟨0x12, 0x12, .blob, .rw, .staged, 2, true, .bytes [0, 0, 0, 0x20], .blobLen 4 16384⟩,
  /- FIR_LANE -/ ⟨0x13, 0x13, .u8, .rw, .staged, 2, true, .num 255, .spanOr 0 15 0xFF⟩,
  /- XFADE -/ ⟨0x14, 0x14, .u16, .rw, .live, 1, true, .num 64, .span 8 4096⟩,
  /- COEF_XFADE -/ ⟨0x15, 0x15, .u16, .rw, .live, 1, true, .num 128, .span 16 1024⟩,
  /- FIR_MODE -/ ⟨0x16, 0x16, .enum, .ro, .live, 1, true, .num 0, .any⟩,
  /- LANE -/ ⟨0x17, 0x17, .u8, .ro, .live, 1, true, .num 0, .any⟩,
  /- LEVEL -/ ⟨0x20, 0x20, .gainDb, .rw, .live, 1, true, .num 0, .gain true (-9437184) 655360⟩,
  /- MUTE -/ ⟨0x21, 0x21, .bool, .rw, .live, 1, true, .num 1, .flag⟩,
  /- MUTE_FADE -/ ⟨0x22, 0x22, .u16, .rw, .live, 1, true, .num 64, .span 8 4096⟩,
  /- GAIN_RAMP -/ ⟨0x23, 0x23, .u16, .rw, .live, 1, true, .num 256, .span 0 4096⟩,
  /- GAIN_LAW -/ ⟨0x24, 0x24, .enum, .rw, .live, 1, true, .num 0, .span 0 2⟩,
  /- LIM_ON -/ ⟨0x40, 0x40, .bool, .rw, .live, 1, true, .num 1, .flag⟩,
  /- CEILING -/ ⟨0x41, 0x41, .gainDb, .rw, .live, 1, true, .num 4294901760, .gain false (-1310720) 0⟩,
  /- LOOKAHEAD -/ ⟨0x42, 0x42, .u32, .rw, .staged, 2, true, .num 1000, .span 0 2000⟩,
  /- RELEASE -/ ⟨0x43, 0x43, .u32, .rw, .live, 1, true, .num 50000, .span 1000 2000000⟩,
  /- DETECT -/ ⟨0x44, 0x44, .enum, .ro, .live, 1, true, .num 0, .any⟩,
  /- LOOKAHEAD_SAMPLES -/ ⟨0x45, 0x45, .u16, .ro, .live, 1, true, .num 0, .any⟩] ++ [
  /- GR -/ ⟨0x46, 0x46, .gainDb, .ro, .live, 1, true, .num 0, .any⟩,
  /- GR_MAX -/ ⟨0x47, 0x47, .gainDb, .ro, .live, 1, true, .num 0, .any⟩,
  /- LIMITED -/ ⟨0x48, 0x48, .u64, .ro, .live, 1, false, .num 0, .any⟩,
  /- CLEAR -/ ⟨0x4f, 0x4f, .bool, .wo, .live, 1, false, .num 0, .isTrue⟩,
  /- OUT_CLIPS -/ ⟨0x600, 0x600, .u64, .ro, .live, 1, false, .num 0, .any⟩,
  /- SAT_COUNT -/ ⟨0x601, 0x601, .u64, .ro, .live, 1, false, .num 0, .any⟩,
  /- BOUND -/ ⟨0x610, 0x610, .u32, .ro, .live, 1, true, .num 0, .any⟩,
  /- CLEAR -/ ⟨0x6ff, 0x6ff, .bool, .wo, .live, 1, false, .num 0, .isTrue⟩]

/-- Members of the family that R192 gives. -/
def dynRows : List Row :=
[
  /- ON -/ ⟨0x0, 0x0, .bool, .rw, .live, 1, true, .num 0, .flag⟩,
  /- TYPE -/ ⟨0x1, 0x1, .enum, .rw, .live, 1, true, .parity 0 2, .span 0 3⟩,
  /- DETECTOR -/ ⟨0x2, 0x2, .enum, .rw, .live, 1, true, .parity 0 1, .span 0 1⟩,
  /- RMS_TIME -/ ⟨0x3, 0x3, .u32, .rw, .live, 1, true, .num 10000, .span 1000 100000⟩,
  /- THRESHOLD -/ ⟨0x10, 0x10, .gainDb, .rw, .live, 1, true, .parity 4291690496 4293656576, .gain false (-5898240) 1572864⟩,
  /- RATIO -/ ⟨0x11, 0x11, .q823, .rw, .live, 1, true, .parity 16777216 33554432, .span 8388608 838860800⟩,
  /- KNEE -/ ⟨0x12, 0x12, .gainDb, .rw, .live, 1, true, .parity 0 393216, .gain false 0 1572864⟩,
  /- RANGE -/ ⟨0x13, 0x13, .gainDb, .rw, .live, 1, true, .num 5242880, .gain false 0 5898240⟩,
  /- HYSTERESIS -/ ⟨0x14, 0x14, .gainDb, .rw, .live, 1, true, .num 262144, .gain false 0 1310720⟩,
  /- HOLD -/ ⟨0x15, 0x15, .u32, .rw, .live, 1, true, .num 20000, .span 0 2000000⟩,
  /- ATTACK -/ ⟨0x20, 0x20, .u32, .rw, .live, 1, true, .parity 500 10000, .span 20 500000⟩,
  /- RELEASE -/ ⟨0x21, 0x21, .u32, .rw, .live, 1, true, .parity 100000 150000, .span 1000 5000000⟩,
  /- MAKEUP -/ ⟨0x30, 0x30, .gainDb, .rw, .live, 1, true, .num 0, .gain false 0 1572864⟩,
  /- KEY_SOURCE -/ ⟨0x40, 0x40, .enum, .rw, .staged, 2, true, .num 0, .span 0 1⟩,
  /- KEY_SIGNAL -/ ⟨0x41, 0x41, .signal, .rw, .staged, 2, true, .num 0, .signal⟩,
  /- SC_HPF_ON -/ ⟨0x42, 0x42, .bool, .rw, .live, 1, true, .num 0, .flag⟩,
  /- SC_HPF_FREQ -/ ⟨0x43, 0x43, .u32, .rw, .live, 1, true, .num 100000, .span 20000 2000000⟩,
  /- SC_LPF_ON -/ ⟨0x44, 0x44, .bool, .rw, .live, 1, true, .num 0, .flag⟩,
  /- SC_LPF_FREQ -/ ⟨0x45, 0x45, .u32, .rw, .live, 1, true, .num 10000000, .span 1000000 20000000⟩,
  /- SC_BAND_ON -/ ⟨0x46, 0x46, .bool, .rw, .live, 1, true, .num 0, .flag⟩,
  /- SC_BAND_FREQ -/ ⟨0x47, 0x47, .u32, .rw, .live, 1, true, .num 6000000, .span 20000 20000000⟩,
  /- SC_BAND_GAIN -/ ⟨0x48, 0x48, .gainDb, .rw, .live, 1, true, .num 0, .gain false (-1179648) 1179648⟩,
  /- SC_BAND_Q -/ ⟨0x49, 0x49, .q823, .rw, .live, 1, true, .num 16777216, .span 838861 134217728⟩,
  /- LINK -/ ⟨0x50, 0x50, .u8, .rw, .staged, 2, true, .num 0, .span 0 255⟩] ++ [
  /- SERVES -/ ⟨0x60, 0x60, .enum, .ro, .live, 1, true, .parity 0 1, .any⟩,
  /- SERVED -/ ⟨0x61, 0x61, .u16, .ro, .live, 1, true, .halfInst, .any⟩,
  /- GR -/ ⟨0x62, 0x62, .gainDb, .ro, .live, 1, true, .num 0, .any⟩,
  /- GATE_OPEN -/ ⟨0x63, 0x63, .bool, .ro, .live, 1, true, .num 1, .flag⟩,
  /- KEY_LEVEL -/ ⟨0x64, 0x64, .gainDb, .ro, .live, 1, true, .num 4285892526, .any⟩,
  /- KEY_MISSES -/ ⟨0x65, 0x65, .u64, .ro, .live, 1, false, .num 0, .any⟩,
  /- CLEAR -/ ⟨0x6ff, 0x6ff, .bool, .wo, .live, 1, false, .num 0, .isTrue⟩]

/-- Members of the family that R206 gives. -/
def commitRows : List Row :=
[
  /- STATE -/ ⟨0x0, 0x0, .enum, .ro, .live, 1, false, .num 0, .any⟩,
  /- CURRENT -/ ⟨0x1, 0x1, .u32, .ro, .live, 1, false, .num 0, .any⟩,
  /- STAGED_CHANGES -/ ⟨0x2, 0x2, .u32, .ro, .live, 1, false, .num 0, .any⟩,
  /- LAST_STATUS -/ ⟨0x3, 0x3, .u8, .ro, .live, 1, false, .num 0, .any⟩,
  /- FAIL_OBJECT -/ ⟨0x4, 0x4, .u32, .ro, .live, 1, false, .num 0, .any⟩,
  /- FAIL_STEP -/ ⟨0x5, 0x5, .u8, .ro, .live, 1, false, .num 0, .any⟩,
  /- PENDING -/ ⟨0x6, 0x6, .u32, .ro, .live, 1, false, .num 0, .any⟩,
  /- LANDING_CD0–3 -/ ⟨0x8, 0xb, .u64, .ro, .live, 1, false, .num 0, .any⟩,
  /- SESSION_STAGING -/ ⟨0x10, 0x10, .bool, .rw, .live, 1, false, .num 0, .flag⟩,
  /- DISCARD -/ ⟨0x11, 0x11, .bool, .wo, .live, 2, false, .num 0, .isTrue⟩,
  /- CANCEL -/ ⟨0x12, 0x12, .bool, .wo, .live, 1, false, .num 0, .isTrue⟩,
  /- RENUMBER -/ ⟨0x13, 0x13, .bool, .wo, .live, 3, false, .num 0, .isTrue⟩,
  /- COMMITS -/ ⟨0x14, 0x14, .u64, .ro, .live, 1, false, .num 0, .any⟩,
  /- LATE -/ ⟨0x15, 0x15, .u64, .ro, .live, 1, false, .num 0, .any⟩]

/-- Members of the family that R218 gives. -/
def directoryRows : List Row :=
[
  /- NUMBER -/ ⟨0x0, 0x0, .u32, .ro, .live, 1, false, .num 0, .any⟩,
  /- PARENT -/ ⟨0x1, 0x1, .u32, .ro, .live, 1, false, .num 0, .any⟩,
  /- SOURCE -/ ⟨0x2, 0x2, .u32, .ro, .live, 1, false, .num 0, .any⟩,
  /- KIND -/ ⟨0x3, 0x3, .enum, .ro, .live, 1, false, .num 0, .any⟩,
  /- MODE -/ ⟨0x4, 0x4, .enum, .ro, .live, 1, false, .num 0, .any⟩,
  /- RATE -/ ⟨0x5, 0x5, .enum, .ro, .live, 1, false, .num 0, .any⟩,
  /- LANDED_FRAME -/ ⟨0x6, 0x6, .u64, .ro, .live, 1, false, .num 0, .any⟩,
  /- LANDED_TIME -/ ⟨0x7, 0x7, .time64, .ro, .live, 1, false, .num 0, .any⟩,
  /- CHANGES -/ ⟨0x8, 0x8, .u32, .ro, .live, 1, false, .num 0, .any⟩,
  /- SIZE -/ ⟨0x9, 0x9, .u32, .ro, .live, 1, false, .num 0, .any⟩,
  /- PERSISTED -/ ⟨0xa, 0xa, .enum, .ro, .live, 1, false, .num 0, .any⟩,
  /- LABEL -/ ⟨0xb, 0xb, .u32, .ro, .live, 1, false, .num 0, .any⟩,
  /- SESSION -/ ⟨0xc, 0xc, .u8, .ro, .live, 1, false, .num 0, .any⟩,
  /- CRC -/ ⟨0xd, 0xd, .u32, .ro, .live, 1, false, .num 0, .any⟩]

/-- Members of the family that R234 gives. -/
def identityRows : List Row :=
[
  /- VENDOR -/ ⟨0x0, 0x0, .str, .ro, .live, 1, false, .str "Limah", .any⟩,
  /- PART -/ ⟨0x1, 0x1, .str, .ro, .live, 1, false, .str "KV9600", .any⟩,
  /- STEP -/ ⟨0x2, 0x2, .str, .ro, .live, 1, false, .str "B0", .any⟩,
  /- ORDERING_CODE -/ ⟨0x3, 0x3, .str, .ro, .live, 1, false, .str "KV9600-B0-FC1936-I", .any⟩,
  /- DIE_ID -/ ⟨0x4, 0x4, .u64, .ro, .live, 1, false, .dieId, .any⟩,
  /- TILES -/ ⟨0x5, 0x5, .u8, .ro, .live, 1, false, .num 16, .any⟩,
  /- FW_SLOT -/ ⟨0x6, 0x6, .u8, .ro, .live, 1, false, .num 0, .any⟩,
  /- FW_VERSION -/ ⟨0x7, 0x7, .u32, .ro, .live, 1, false, .fwVersion, .any⟩,
  /- DICT_VERSION -/ ⟨0x8, 0x8, .u32, .ro, .live, 1, false, .num 65536, .any⟩,
  /- LEGACY_VERSION -/ ⟨0x9, 0x9, .u32, .ro, .live, 1, false, .num 196610, .any⟩,
  /- RESET_CAUSE -/ ⟨0x10, 0x10, .enum, .ro, .live, 1, false, .num 0, .any⟩,
  /- START_MS -/ ⟨0x11, 0x11, .u32, .ro, .live, 1, false, .num 0, .any⟩,
  /- RESTORE_STEP -/ ⟨0x12, 0x12, .u8, .ro, .live, 1, false, .num 0, .any⟩,
  /- RESTORED -/ ⟨0x13, 0x13, .u32, .ro, .live, 1, false, .num 0, .any⟩,
  /- SKIPPED -/ ⟨0x14, 0x14, .u8, .ro, .live, 1, false, .num 0, .any⟩,
  /- WARM_RESETS -/ ⟨0x15, 0x15, .u32, .ro, .live, 1, false, .num 0, .any⟩,
  /- SLOT_SEQUENCE -/ ⟨0x16, 0x16, .u64, .ro, .live, 1, false, .num 0, .any⟩,
  /- FW_OFFSET -/ ⟨0x20, 0x20, .u32, .rw, .live, 3, true, .num 0, .multOf 4096 0 0xFFF000⟩,
  /- FW_DATA -/ ⟨0x21, 0x21, .blob, .wo, .live, 3, false, .num 0, .blobLen 1 1048576⟩,
  /- FW_VERIFY -/ ⟨0x22, 0x22, .bool, .wo, .live, 3, false, .num 0, .isTrue⟩,
  /- FW_STATUS -/ ⟨0x23, 0x23, .enum, .ro, .live, 1, false, .num 0, .any⟩,
  /- DIE_TEMP -/ ⟨0x30, 0x30, .i32, .ro, .live, 1, false, .num 0, .any⟩,
  /- DIE_TEMP_PEAK -/ ⟨0x31, 0x31, .i32, .ro, .live, 1, false, .num 0, .any⟩,
  /- TEMP_CLEAR -/ ⟨0x32, 0x32, .bool, .wo, .live, 1, false, .num 0, .isTrue⟩]

/-- Members of the family that R235 gives. -/
def serviceRows : List Row :=
[
  /- LOCK_WAIT -/ ⟨0x0, 0x0, .u32, .rw, .live, 2, true, .num 2000, .span 100 100000⟩,
  /- TXN_TIMEOUT -/ ⟨0x1, 0x1, .u32, .rw, .live, 2, true, .num 1000, .span 10 10000⟩,
  /- SESSIONS_OPEN -/ ⟨0x2, 0x2, .u8, .ro, .live, 1, false, .num 0, .any⟩,
  /- SESSIONS_PEAK -/ ⟨0x3, 0x3, .u8, .ro, .live, 1, false, .num 0, .any⟩,
  /- LOCK_TIMEOUTS -/ ⟨0x4, 0x4, .u64, .ro, .live, 1, false, .num 0, .any⟩,
  /- NOTIFY_LOST -/ ⟨0x5, 0x5, .u64, .ro, .live, 1, false, .num 0, .any⟩,
  /- FACTORY -/ ⟨0x6, 0x6, .bool, .wo, .live, 2, false, .num 0, .isTrue⟩,
  /- CLEAR -/ ⟨0x7, 0x7, .bool, .wo, .live, 1, false, .num 0, .isTrue⟩]

/-- Members of the family that R236 gives. -/
def sessionRows : List Row :=
[
  /- STATE -/ ⟨0x0, 0x0, .enum, .ro, .live, 1, false, .num 0, .any⟩,
  /- TRANSPORT -/ ⟨0x1, 0x1, .enum, .ro, .live, 1, false, .num 0, .any⟩,
  /- PRIVILEGE -/ ⟨0x2, 0x2, .enum, .ro, .live, 1, false, .num 0, .any⟩,
  /- DIALECT -/ ⟨0x3, 0x3, .enum, .ro, .live, 1, false, .num 0, .any⟩,
  /- TXN -/ ⟨0x4, 0x4, .enum, .ro, .live, 1, false, .num 0, .any⟩,
  /- TXN_WRITES -/ ⟨0x5, 0x5, .u16, .ro, .live, 1, false, .num 0, .any⟩,
  /- SUBSCRIPTIONS -/ ⟨0x6, 0x6, .u8, .ro, .live, 1, false, .num 0, .any⟩,
  /- QUEUED -/ ⟨0x7, 0x7, .u16, .ro, .live, 1, false, .num 0, .any⟩,
  /- LOST -/ ⟨0x8, 0x8, .u64, .ro, .live, 1, false, .num 0, .any⟩,
  /- COMMANDS -/ ⟨0x9, 0x9, .u64, .ro, .live, 1, false, .num 0, .any⟩,
  /- CLOSE -/ ⟨0xa, 0xa, .bool, .wo, .live, 0, false, .num 0, .isTrue⟩]

/-- Members of the family that R237 gives. -/
def tileRows : List Row :=
[
  /- ENABLE -/ ⟨0x0, 0x0, .bool, .rw, .staged, 2, true, .num 1, .flag⟩,
  /- STATE -/ ⟨0x1, 0x1, .enum, .ro, .live, 1, false, .num 0, .any⟩,
  /- DOMAIN -/ ⟨0x2, 0x2, .enum, .rw, .staged, 2, true, .num 0, .span 0 3⟩,
  /- STRIP_SLOTS -/ ⟨0x3, 0x3, .u8, .ro, .live, 1, false, .num 64, .any⟩,
  /- BOUND_MAX -/ ⟨0x10, 0x13, .u32, .ro, .live, 1, false, .num 0, .any⟩,
  /- DMA_COLLISIONS -/ ⟨0x14, 0x14, .u64, .ro, .live, 1, false, .num 0, .any⟩,
  /- LANE_STOPS -/ ⟨0x15, 0x15, .u64, .ro, .live, 1, false, .num 0, .any⟩,
  /- CLEAR -/ ⟨0x1f, 0x1f, .bool, .wo, .live, 1, false, .num 0, .isTrue⟩,
  /- ENGINE_LOW -/ ⟨0x20, 0x2f, .u16, .ro, .live, 1, false, .num 16384, .any⟩,
  /- ENGINE_COEF_LOW -/ ⟨0x30, 0x3f, .u16, .ro, .live, 1, false, .num 24576, .any⟩]

/-- Members of the family that R266 gives. -/
def ringRows : List Row :=
[
  /- ENABLE -/ ⟨0x0, 0x0, .bool, .rw, .staged, 2, true, .num 0, .flag⟩,
  /- STATE -/ ⟨0x1, 0x1, .enum, .ro, .live, 1, false, .num 0, .any⟩,
  /- DOMAIN -/ ⟨0x2, 0x2, .enum, .rw, .staged, 2, true, .num 0, .span 0 3⟩,
  /- FIRST_CHANNEL -/ ⟨0x3, 0x3, .u16, .rw, .staged, 2, true, .num 0, .span 0 1023⟩,
  /- CHANNELS -/ ⟨0x4, 0x4, .u16, .rw, .staged, 2, true, .num 0, .span 0 1024⟩,
  /- PACKING -/ ⟨0x5, 0x5, .enum, .rw, .staged, 2, true, .num 0, .span 0 1⟩,
  /- BASE_ADDR -/ ⟨0x6, 0x6, .u64, .rw, .staged, 2, true, .num 0, .multOf 4096 0 0xFFFFFFFFFFFFFFFF⟩,
  /- ENTRIES -/ ⟨0x7, 0x7, .u16, .rw, .staged, 2, true, .num 64, .pow2 16 4096⟩,
  /- STATUS_ADDR -/ ⟨0x8, 0x8, .u64, .rw, .staged, 2, true, .num 0, .multOf 32 0 0xFFFFFFFFFFFFFFFF⟩,
  /- VECTOR -/ ⟨0x9, 0x9, .u8, .rw, .staged, 2, true, .lowInst 0x300, .span 0 63⟩,
  /- IRQ_EVERY -/ ⟨0xa, 0xa, .u16, .rw, .live, 1, true, .num 1, .span 0 4096⟩,
  /- START_FRAME -/ ⟨0xb, 0xb, .frame64, .rw, .staged, 2, true, .num 0, .any⟩,
  /- ENTRY_BYTES -/ ⟨0xc, 0xc, .u32, .ro, .live, 1, false, .num 0, .any⟩,
  /- INDEX -/ ⟨0xd, 0xd, .u16, .ro, .live, 1, false, .num 0, .any⟩,
  /- RESTART -/ ⟨0xe, 0xe, .bool, .wo, .live, 1, false, .num 0, .isTrue⟩,
  /- FRAMES -/ ⟨0x10, 0x10, .u64, .ro, .live, 1, false, .num 0, .any⟩,
  /- MISSES -/ ⟨0x11, 0x11, .u64, .ro, .live, 1, false, .num 0, .any⟩,
  /- LATE -/ ⟨0x12, 0x12, .u64, .ro, .live, 1, false, .num 0, .any⟩,
  /- GAPS -/ ⟨0x13, 0x13, .u64, .ro, .live, 1, false, .num 0, .any⟩,
  /- DOORBELL_ERRORS -/ ⟨0x14, 0x14, .u64, .ro, .live, 1, false, .num 0, .any⟩,
  /- CLEAR -/ ⟨0x1f, 0x1f, .bool, .wo, .live, 1, false, .num 0, .isTrue⟩]

/-- Members of the family that R290 gives. -/
def domainRows : List Row :=
[
  /- ENABLE -/ ⟨0x0, 0x0, .bool, .rw, .staged, 2, true, .firstOnly 0, .flag⟩,
  /- STATE -/ ⟨0x1, 0x1, .enum, .ro, .live, 1, false, .num 0, .any⟩,
  /- RATE -/ ⟨0x2, 0x2, .enum, .rw, .staged, 2, true, .num 1, .span 0 5⟩,
  /- SELECT -/ ⟨0x3, 0x3, .enum, .rw, .live, 1, true, .num 7, .span 0 7⟩,
  /- FALLBACK1–4 -/ ⟨0x4, 0x7, .enum, .rw, .live, 1, true, .num 15, .spanOr 0 7 15⟩,
  /- SWITCH_STYLE -/ ⟨0x8, 0x8, .enum, .rw, .live, 1, true, .num 0, .span 0 1⟩,
  /- SLEW_PPM -/ ⟨0x9, 0x9, .u16, .rw, .live, 1, true, .num 50, .span 1 1000⟩,
  /- BANDWIDTH -/ ⟨0xa, 0xa, .enum, .rw, .live, 1, true, .num 1, .span 0 2⟩,
  /- REVERT -/ ⟨0xb, 0xb, .bool, .wo, .live, 1, false, .num 0, .isTrue⟩,
  /- ACTIVE -/ ⟨0x10, 0x10, .enum, .ro, .live, 1, false, .num 7, .any⟩,
  /- DPLL_STATE -/ ⟨0x11, 0x11, .enum, .ro, .live, 1, false, .num 0, .any⟩,
  /- FREQ_OFFSET -/ ⟨0x12, 0x12, .i32, .ro, .live, 1, false, .num 0, .any⟩,
  /- PHASE_ERROR -/ ⟨0x13, 0x13, .i32, .ro, .live, 1, false, .num 0, .any⟩,
  /- FRAME -/ ⟨0x14, 0x14, .frame64, .ro, .live, 1, false, .num 0, .any⟩,
  /- USABLE -/ ⟨0x15, 0x15, .u8, .ro, .live, 1, false, .num 0, .any⟩,
  /- SWITCHES -/ ⟨0x16, 0x16, .u64, .ro, .live, 1, false, .num 0, .any⟩,
  /- HOLDOVERS -/ ⟨0x17, 0x17, .u64, .ro, .live, 1, false, .num 0, .any⟩,
  /- CLEAR -/ ⟨0x1f, 0x1f, .bool, .wo, .live, 1, false, .num 0, .isTrue⟩,
  /- FRAME_OUT_ON -/ ⟨0x20, 0x20, .bool, .rw, .live, 1, true, .num 0, .flag⟩,
  /- FRAME_DIVIDE -/ ⟨0x21, 0x21, .u16, .rw, .live, 1, true, .num 1, .span 1 65535⟩,
  /- FRAME_PHASE -/ ⟨0x22, 0x22, .u16, .rw, .live, 1, true, .num 0, .any⟩,
  /- FRAME_WIDTH -/ ⟨0x23, 0x23, .u8, .rw, .live, 1, true, .num 1, .span 1 4⟩,
  /- WCLK_OUT -/ ⟨0x24, 0x24, .u8, .rw, .live, 1, true, .num 0, .span 0 3⟩,
  /- REALIGN -/ ⟨0x25, 0x25, .bool, .wo, .live, 1, false, .num 0, .isTrue⟩] ++ [
  /- OUT_ERROR -/ ⟨0x26, 0x26, .i32, .ro, .live, 1, false, .num 0, .any⟩]

/-- Members of the family that R291 gives. -/
def refRows : List Row :=
[
  /- STATE -/ ⟨0x0, 0x0, .enum, .ro, .live, 1, false, .num 0, .any⟩,
  /- RATE -/ ⟨0x1, 0x1, .u32, .ro, .live, 1, false, .num 0, .any⟩,
  /- EDGE -/ ⟨0x2, 0x2, .enum, .rw, .live, 1, true, .num 0, .span 0 1⟩,
  /- STOPS -/ ⟨0x3, 0x3, .u64, .ro, .live, 1, false, .num 0, .any⟩,
  /- GLITCHES -/ ⟨0x4, 0x4, .u64, .ro, .live, 1, false, .num 0, .any⟩,
  /- RATE_EVENTS -/ ⟨0x5, 0x5, .u64, .ro, .live, 1, false, .num 0, .any⟩,
  /- CLEAR -/ ⟨0xf, 0xf, .bool, .wo, .live, 1, false, .num 0, .isTrue⟩]

/-- Members of the family that R306 gives. -/
def timeBaseRows : List Row :=
[
  /- ENABLE -/ ⟨0x0, 0x0, .bool, .rw, .staged, 2, true, .num 0, .flag⟩,
  /- STATE -/ ⟨0x1, 0x1, .enum, .ro, .live, 1, false, .num 0, .any⟩,
  /- PAIR -/ ⟨0x2, 0x2, .enum, .rw, .staged, 2, true, .num 0, .span 0 1⟩,
  /- PTP_DOMAIN -/ ⟨0x3, 0x3, .u8, .rw, .staged, 2, true, .num 0, .span 0 127⟩,
  /- DELAY_MECH -/ ⟨0x4, 0x4, .enum, .rw, .staged, 2, true, .num 0, .span 0 1⟩,
  /- STEP_THRESHOLD -/ ⟨0x5, 0x5, .u32, .rw, .live, 1, true, .num 1000, .span 100 1000000⟩,
  /- STEP_CONFIRM -/ ⟨0x6, 0x6, .u8, .rw, .live, 1, true, .num 4, .span 1 16⟩,
  /- STEP_ACTION -/ ⟨0x7, 0x7, .enum, .wo, .live, 2, false, .num 0, .span 1 2⟩,
  /- HOLD_LIMIT -/ ⟨0x8, 0x8, .u32, .rw, .live, 1, true, .num 600, .span 0 86400⟩,
  /- KP -/ ⟨0x9, 0x9, .q823, .rw, .live, 1, true, .num 2936013, .span 0 33554432⟩,
  /- KI -/ ⟨0xa, 0xa, .q823, .rw, .live, 1, true, .num 167772, .span 0 8388608⟩,
  /- LOCK_WINDOW -/ ⟨0xb, 0xb, .u32, .rw, .live, 1, true, .num 200, .span 20 10000⟩,
  /- LOCK_COUNT -/ ⟨0xc, 0xc, .u8, .rw, .live, 1, true, .num 16, .span 4 128⟩,
  /- DELAY_FILTER -/ ⟨0xd, 0xd, .u8, .rw, .live, 1, true, .num 16, .span 1 128⟩,
  /- ASYMMETRY -/ ⟨0xe, 0xe, .i32, .rw, .live, 1, true, .num 0, .signed (-1000000) 1000000⟩,
  /- SERVO -/ ⟨0x10, 0x10, .enum, .ro, .live, 1, false, .num 0, .any⟩,
  /- TIME -/ ⟨0x11, 0x11, .time64, .ro, .live, 1, false, .num 0, .any⟩,
  /- OFFSET -/ ⟨0x12, 0x12, .i32, .ro, .live, 1, false, .num 0, .any⟩,
  /- PATH_DELAY -/ ⟨0x13, 0x13, .u32, .ro, .live, 1, false, .num 0, .any⟩,
  /- FREQ -/ ⟨0x14, 0x14, .i32, .ro, .live, 1, false, .num 0, .any⟩,
  /- GM_IDENTITY -/ ⟨0x15, 0x15, .u64, .ro, .live, 1, false, .num 0, .any⟩,
  /- PORT -/ ⟨0x16, 0x16, .enum, .ro, .live, 1, false, .num 15, .any⟩,
  /- STEP_OFFSET -/ ⟨0x17, 0x17, .i32, .ro, .live, 1, false, .num 0, .any⟩,
  /- STEPS_REFUSED -/ ⟨0x18, 0x18, .u64, .ro, .live, 1, false, .num 0, .any⟩] ++ [
  /- OUTLIERS -/ ⟨0x19, 0x19, .u64, .ro, .live, 1, false, .num 0, .any⟩,
  /- GM_CHANGES -/ ⟨0x1a, 0x1a, .u64, .ro, .live, 1, false, .num 0, .any⟩,
  /- MASTER_LOSSES -/ ⟨0x1b, 0x1b, .u64, .ro, .live, 1, false, .num 0, .any⟩,
  /- CLEAR -/ ⟨0x1f, 0x1f, .bool, .wo, .live, 1, false, .num 0, .isTrue⟩]

/-- Members of the family that R319 gives. -/
def portRows : List Row :=
[
  /- ENABLE -/ ⟨0x0, 0x0, .bool, .rw, .staged, 2, true, .num 0, .flag⟩,
  /- STATE -/ ⟨0x1, 0x1, .enum, .ro, .live, 1, false, .num 0, .any⟩,
  /- DOMAIN -/ ⟨0x2, 0x2, .enum, .rw, .staged, 2, true, .num 0, .span 0 3⟩,
  /- BITS -/ ⟨0x3, 0x3, .u16, .rw, .staged, 2, true, .num 256, .span 32 1024⟩,
  /- SLOTS -/ ⟨0x4, 0x4, .u8, .rw, .staged, 2, true, .num 8, .span 1 32⟩,
  /- WIDTH -/ ⟨0x5, 0x5, .u8, .rw, .staged, 2, true, .num 32, .oneOf [16, 24, 32]⟩,
  /- OFFSET -/ ⟨0x6, 0x6, .u8, .rw, .staged, 2, true, .num 0, .span 0 31⟩,
  /- FSYNC_MODE -/ ⟨0x7, 0x7, .enum, .rw, .staged, 2, true, .num 0, .span 0 1⟩,
  /- FSYNC_POL -/ ⟨0x8, 0x8, .enum, .rw, .staged, 2, true, .num 0, .span 0 1⟩,
  /- FSYNC_DELAY -/ ⟨0x9, 0x9, .u8, .rw, .staged, 2, true, .num 0, .span 0 1⟩,
  /- BCLK_INV -/ ⟨0xa, 0xa, .bool, .rw, .staged, 2, true, .num 0, .flag⟩,
  /- SDI_LATE -/ ⟨0xb, 0xb, .bool, .rw, .staged, 2, true, .num 0, .flag⟩,
  /- DRIVE -/ ⟨0xc, 0xc, .enum, .rw, .staged, 2, true, .num 1, .span 0 2⟩,
  /- NA_POLICY -/ ⟨0xd, 0xd, .enum, .rw, .live, 1, true, .num 0, .span 0 1⟩,
  /- TX_MASK -/ ⟨0x10, 0x10, .u32, .rw, .live, 1, true, .num 4294967295, .any⟩,
  /- DIVIDER -/ ⟨0x11, 0x11, .u32, .ro, .live, 1, false, .num 268435456, .any⟩,
  /- BCLK_HZ -/ ⟨0x12, 0x12, .u32, .ro, .live, 1, false, .num 12288000, .any⟩,
  /- BANK_LEVEL -/ ⟨0x13, 0x13, .enum, .ro, .live, 1, false, .num 0, .any⟩,
  /- NONAUDIO -/ ⟨0x14, 0x14, .u16, .ro, .live, 1, false, .num 0, .any⟩,
  /- NA_MUTED -/ ⟨0x15, 0x15, .u16, .ro, .live, 1, false, .num 0, .any⟩,
  /- NA_EVENTS -/ ⟨0x16, 0x16, .u64, .ro, .live, 1, false, .num 0, .any⟩,
  /- CLEAR -/ ⟨0x1f, 0x1f, .bool, .wo, .live, 1, false, .num 0, .isTrue⟩,
  /- PATCH -/ ⟨0x100, 0x11f, .u16, .rw, .live, 1, true, .num 0, .patch⟩]

/-- Members of the family that R346 gives. -/
def streamRows : List Row :=
[
  /- ENABLE -/ ⟨0x0, 0x0, .bool, .rw, .staged, 2, true, .num 0, .flag⟩,
  /- STATE -/ ⟨0x1, 0x1, .enum, .ro, .live, 1, false, .num 0, .any⟩,
  /- DOMAIN -/ ⟨0x2, 0x2, .enum, .rw, .staged, 2, true, .num 0, .span 0 3⟩,
  /- PAIR -/ ⟨0x3, 0x3, .enum, .rw, .staged, 2, true, .num 0, .span 0 1⟩,
  /- LEGS -/ ⟨0x4, 0x4, .enum, .rw, .staged, 2, true, .num 1, .span 1 3⟩,
  /- CHANNELS -/ ⟨0x5, 0x5, .u8, .rw, .staged, 2, true, .num 8, .span 1 64⟩,
  /- ENCODING -/ ⟨0x6, 0x6, .enum, .rw, .staged, 2, true, .num 1, .span 0 1⟩,
  /- PTIME -/ ⟨0x7, 0x7, .enum, .rw, .staged, 2, true, .num 3, .span 0 3⟩,
  /- TIME_BASE -/ ⟨0x8, 0x8, .enum, .rw, .staged, 2, true, .num 0, .span 0 3⟩,
  /- RTP_OFFSET -/ ⟨0x9, 0x9, .u32, .rw, .staged, 2, true, .num 0, .any⟩,
  /- PAYLOAD_TYPE -/ ⟨0xa, 0xa, .u8, .rw, .staged, 2, true, .num 97, .span 96 127⟩,
  /- DEST_A -/ ⟨0xb, 0xb, .u32, .rw, .staged, 2, true, .num 0, .any⟩,
  /- DEST_B -/ ⟨0xc, 0xc, .u32, .rw, .staged, 2, true, .num 0, .any⟩,
  /- UDP_PORT -/ ⟨0xd, 0xd, .u16, .rw, .staged, 2, true, .num 5004, .span 1024 65535⟩,
  /- PACKETS -/ ⟨0x30, 0x30, .u64, .ro, .live, 1, false, .num 0, .any⟩,
  /- SLIPS -/ ⟨0x31, 0x31, .u64, .ro, .live, 1, false, .num 0, .any⟩,
  /- CLEAR -/ ⟨0x3f, 0x3f, .bool, .wo, .live, 1, false, .num 0, .isTrue⟩]

/-- Members of the family that R347 gives. -/
def rxRows : List Row :=
[
  /- SOURCE_A -/ ⟨0x10, 0x10, .u32, .rw, .staged, 2, true, .num 0, .any⟩,
  /- SOURCE_B -/ ⟨0x11, 0x11, .u32, .rw, .staged, 2, true, .num 0, .any⟩,
  /- LINK_OFFSET -/ ⟨0x12, 0x12, .u32, .rw, .staged, 2, true, .num 1000, .span 125 4000⟩,
  /- GROUP -/ ⟨0x13, 0x13, .u8, .rw, .staged, 2, true, .num 0, .span 0 64⟩,
  /- NA_POLICY -/ ⟨0x14, 0x14, .enum, .rw, .live, 1, true, .num 0, .span 0 1⟩,
  /- SIGNALS -/ ⟨0x20, 0x20, .blob, .ro, .live, 1, false, .bytes [], .any⟩,
  /- SSRC -/ ⟨0x21, 0x21, .u32, .ro, .live, 1, false, .num 0, .any⟩,
  /- RATE -/ ⟨0x22, 0x22, .u32, .ro, .live, 1, false, .num 0, .any⟩,
  /- OFF_RATE -/ ⟨0x23, 0x23, .bool, .ro, .live, 1, false, .num 0, .flag⟩,
  /- ARRIVAL_MARGIN -/ ⟨0x24, 0x24, .i32, .ro, .live, 1, false, .num 0, .any⟩,
  /- NONAUDIO -/ ⟨0x25, 0x25, .u32, .ro, .live, 1, false, .num 0, .any⟩,
  /- NA_MUTED -/ ⟨0x26, 0x26, .u32, .ro, .live, 1, false, .num 0, .any⟩,
  /- LATE -/ ⟨0x32, 0x32, .u64, .ro, .live, 1, false, .num 0, .any⟩,
  /- EARLY -/ ⟨0x33, 0x33, .u64, .ro, .live, 1, false, .num 0, .any⟩,
  /- LOST -/ ⟨0x34, 0x34, .u64, .ro, .live, 1, false, .num 0, .any⟩,
  /- UNDERRUN_FRAMES -/ ⟨0x35, 0x35, .u64, .ro, .live, 1, false, .num 0, .any⟩,
  /- LEG_A_MISSING -/ ⟨0x36, 0x36, .u64, .ro, .live, 1, false, .num 0, .any⟩,
  /- LEG_B_MISSING -/ ⟨0x37, 0x37, .u64, .ro, .live, 1, false, .num 0, .any⟩,
  /- FOREIGN -/ ⟨0x38, 0x38, .u64, .ro, .live, 1, false, .num 0, .any⟩]

/-- Members of the family that R348 gives. -/
def txRows : List Row :=
[
  /- SSRC -/ ⟨0x10, 0x10, .u32, .rw, .staged, 2, true, .num 0, .any⟩,
  /- DSCP -/ ⟨0x11, 0x11, .u8, .rw, .staged, 2, true, .num 34, .span 0 63⟩,
  /- TTL -/ ⟨0x12, 0x12, .u8, .rw, .staged, 2, true, .num 16, .span 1 255⟩,
  /- SOURCE_PORT -/ ⟨0x13, 0x13, .u16, .rw, .staged, 2, true, .num 5004, .span 1024 65535⟩,
  /- SEQ -/ ⟨0x20, 0x20, .u16, .ro, .live, 1, false, .num 0, .any⟩,
  /- PATCH -/ ⟨0x100, 0x13f, .u16, .rw, .live, 1, true, .num 0, .patch⟩]

/-- Members of the family that R349 gives. -/
def netPortRows : List Row :=
[
  /- LINK -/ ⟨0x0, 0x0, .bool, .ro, .live, 1, false, .num 0, .flag⟩,
  /- IPV4 -/ ⟨0x1, 0x1, .u32, .rw, .staged, 2, true, .num 0, .any⟩,
  /- PREFIX -/ ⟨0x2, 0x2, .u8, .rw, .staged, 2, true, .num 24, .span 8 30⟩,
  /- GATEWAY -/ ⟨0x3, 0x3, .u32, .rw, .staged, 2, true, .num 0, .any⟩,
  /- VLAN -/ ⟨0x4, 0x4, .u16, .rw, .staged, 2, true, .num 0, .span 0 4094⟩,
  /- PCP -/ ⟨0x5, 0x5, .u8, .rw, .staged, 2, true, .num 5, .span 0 7⟩,
  /- MAC -/ ⟨0x6, 0x6, .u64, .ro, .live, 1, false, .mac, .any⟩,
  /- RX_FRAMES -/ ⟨0x10, 0x10, .u64, .ro, .live, 1, false, .num 0, .any⟩,
  /- RX_DISCARDS -/ ⟨0x11, 0x11, .u64, .ro, .live, 1, false, .num 0, .any⟩,
  /- TX_FRAMES -/ ⟨0x12, 0x12, .u64, .ro, .live, 1, false, .num 0, .any⟩,
  /- FCS_ERRORS -/ ⟨0x13, 0x13, .u64, .ro, .live, 1, false, .num 0, .any⟩,
  /- CLEAR -/ ⟨0x1f, 0x1f, .bool, .wo, .live, 1, false, .num 0, .isTrue⟩,
  /- RX_OPEN -/ ⟨0x80, 0x80, .u8, .wo, .staged, 2, false, .num 0, .span 1 64⟩,
  /- TX_OPEN -/ ⟨0x81, 0x81, .u8, .wo, .staged, 2, false, .num 0, .span 1 64⟩,
  /- OPENED -/ ⟨0x82, 0x82, .u16, .ro, .live, 1, false, .num 65535, .any⟩]

/-- Members of the family that R366 gives. -/
def arbiterRows : List Row :=
[
  /- BURST_LIMIT -/ ⟨0x0, 0x0, .u8, .rw, .staged, 2, true, .num 16, .span 1 64⟩,
  /- CAPACITY -/ ⟨0x1, 0x1, .u32, .ro, .live, 1, false, .capacity, .any⟩,
  /- LOAD -/ ⟨0x2, 0x2, .u16, .ro, .live, 1, false, .num 0, .any⟩,
  /- EMERGENCY_BEATS -/ ⟨0x3, 0x3, .u64, .ro, .live, 1, false, .num 0, .any⟩,
  /- PREEMPTIONS -/ ⟨0x4, 0x4, .u64, .ro, .live, 1, false, .num 0, .any⟩,
  /- REDIRECTS -/ ⟨0x5, 0x5, .u64, .ro, .live, 1, false, .num 0, .any⟩,
  /- ERROR_RESPONSES -/ ⟨0x6, 0x6, .u64, .ro, .live, 1, false, .num 0, .any⟩,
  /- CLEAR -/ ⟨0xf, 0xf, .bool, .wo, .live, 1, false, .num 0, .isTrue⟩]

/-- Members of the family that R367 gives. -/
def xbarRows : List Row :=
[
  /- ARB_MODE -/ ⟨0x0, 0x0, .enum, .rw, .staged, 2, true, .num 0, .span 0 1⟩,
  /- DEBUG_ENABLE -/ ⟨0x1, 0x1, .bool, .rw, .live, 3, false, .num 0, .flag⟩,
  /- REGIONS_UNDER_TEST -/ ⟨0x2, 0x2, .u8, .ro, .live, 1, false, .num 0, .any⟩,
  /- PRIORITY -/ ⟨0x100, 0x12a, .u8, .rw, .staged, 2, true, .num 0, .span 0 7⟩]

/-- Members of the family that R389 gives. -/
def dramRows : List Row :=
[
  /- STATUS -/ ⟨0x0, 0x0, .enum, .ro, .live, 1, false, .num 0, .any⟩,
  /- CAPACITY -/ ⟨0x1, 0x1, .u64, .ro, .live, 1, false, .num 0, .any⟩,
  /- GEOMETRY -/ ⟨0x2, 0x2, .u32, .ro, .live, 1, false, .num 0, .any⟩,
  /- SETPOINT -/ ⟨0x3, 0x3, .enum, .rw, .live, 3, false, .num 0, .span 0 1⟩,
  /- SP1_RATE -/ ⟨0x4, 0x4, .enum, .rw, .live, 3, false, .num 0, .span 0 2⟩,
  /- TRAINED -/ ⟨0x5, 0x5, .u8, .ro, .live, 1, false, .num 0, .any⟩,
  /- TRAIN -/ ⟨0x6, 0x6, .bool, .wo, .live, 3, false, .num 0, .isTrue⟩,
  /- TRAIN_STEP -/ ⟨0x7, 0x7, .u8, .ro, .live, 1, false, .num 0, .any⟩,
  /- MAP_ORDER -/ ⟨0x10, 0x10, .enum, .rw, .staged, 2, true, .num 1, .span 0 3⟩,
  /- MAP_ORDER_ACTIVE -/ ⟨0x11, 0x11, .enum, .ro, .live, 1, false, .num 1, .any⟩,
  /- TILES -/ ⟨0x12, 0x12, .u16, .rw, .staged, 2, true, .tiles, .any⟩,
  /- CORRECTED -/ ⟨0x20, 0x20, .u64, .ro, .live, 1, false, .num 0, .any⟩,
  /- UNCORRECTABLE -/ ⟨0x21, 0x21, .u64, .ro, .live, 1, false, .num 0, .any⟩,
  /- PARITY_ALERTS -/ ⟨0x22, 0x22, .u64, .ro, .live, 1, false, .num 0, .any⟩,
  /- REPLAYS -/ ⟨0x23, 0x23, .u64, .ro, .live, 1, false, .num 0, .any⟩,
  /- REPLAY_FAILURES -/ ⟨0x24, 0x24, .u64, .ro, .live, 1, false, .num 0, .any⟩,
  /- SCRUB_POSITION -/ ⟨0x25, 0x25, .u64, .ro, .live, 1, false, .num 0, .any⟩,
  /- SCRUB_PASSES -/ ⟨0x26, 0x26, .u64, .ro, .live, 1, false, .num 0, .any⟩,
  /- ROW_TESTS -/ ⟨0x27, 0x27, .u64, .ro, .live, 1, false, .num 0, .any⟩,
  /- CLEAR -/ ⟨0x2f, 0x2f, .bool, .wo, .live, 1, false, .num 0, .isTrue⟩]

/-- Members of the family that R403 gives. -/
def logRows : List Row :=
[
  /- ENTRY -/ ⟨0x0, 0x0, .blob, .ro, .live, 1, false, .bytes [], .any⟩,
  /- SEQUENCE -/ ⟨0x1, 0x1, .u32, .ro, .live, 1, false, .num 0, .any⟩,
  /- CLASS -/ ⟨0x2, 0x2, .enum, .ro, .live, 1, false, .num 0, .any⟩,
  /- SOURCE -/ ⟨0x3, 0x3, .u8, .ro, .live, 1, false, .num 0, .any⟩,
  /- FRAME -/ ⟨0x4, 0x4, .frame64, .ro, .live, 1, false, .num 0, .any⟩,
  /- UNIT -/ ⟨0x5, 0x5, .u32, .ro, .live, 1, false, .num 0, .any⟩]

/-- Members of the family that R405 gives. -/
def faultRows : List Row :=
[
  /- FATAL -/ ⟨0x0, 0x0, .bool, .ro, .live, 1, false, .num 0, .flag⟩,
  /- FATAL_SOURCE -/ ⟨0x1, 0x1, .u8, .ro, .live, 1, false, .num 0, .any⟩,
  /- RECOVER -/ ⟨0x2, 0x2, .bool, .wo, .live, 2, false, .num 0, .isTrue⟩,
  /- ENTRIES -/ ⟨0x3, 0x3, .u32, .ro, .live, 1, false, .num 0, .any⟩,
  /- CORRECTED -/ ⟨0x4, 0x4, .u64, .ro, .live, 1, false, .num 0, .any⟩,
  /- TRANSIENT -/ ⟨0x5, 0x5, .u64, .ro, .live, 1, false, .num 0, .any⟩,
  /- LASTING -/ ⟨0x6, 0x6, .u64, .ro, .live, 1, false, .num 0, .any⟩,
  /- TESTS_PENDING -/ ⟨0x7, 0x7, .u8, .ro, .live, 1, false, .num 0, .any⟩,
  /- UNTESTED -/ ⟨0x8, 0x8, .u64, .ro, .live, 1, false, .num 0, .any⟩,
  /- PASSES -/ ⟨0x9, 0x9, .u64, .ro, .live, 1, false, .num 0, .any⟩,
  /- PASS_TIME -/ ⟨0xa, 0xa, .u32, .ro, .live, 1, false, .num 0, .any⟩,
  /- REGIONS_FAILED -/ ⟨0xb, 0xb, .u16, .ro, .live, 1, false, .num 0, .any⟩,
  /- XP_MACS -/ ⟨0xc, 0xc, .u8, .ro, .live, 1, false, .num 64, .any⟩,
  /- LOG_CLEAR -/ ⟨0x10, 0x10, .bool, .wo, .live, 3, false, .num 0, .isTrue⟩,
  /- FULL_TEST -/ ⟨0x11, 0x11, .bool, .wo, .live, 3, false, .num 0, .isTrue⟩,
  /- FULL_TEST_STATE -/ ⟨0x12, 0x12, .enum, .ro, .live, 1, false, .num 0, .any⟩]

/-- Members of the family that R406 gives. -/
def tileRepairRows : List Row :=
[
  /- SPARE_STATE -/ ⟨0x0, 0x3, .enum, .ro, .live, 1, false, .num 0, .any⟩,
  /- LANE_MOVED -/ ⟨0x4, 0x7, .u8, .ro, .live, 1, false, .num 255, .any⟩,
  /- SPARE_ROWS_USED -/ ⟨0x10, 0x10, .u16, .ro, .live, 1, false, .num 0, .any⟩,
  /- MACROS_EXHAUSTED -/ ⟨0x11, 0x11, .u16, .ro, .live, 1, false, .num 0, .any⟩,
  /- REGIONS_FAILED -/ ⟨0x12, 0x12, .u16, .ro, .live, 1, false, .num 0, .any⟩]

/-- Members of the family that R433 gives. -/
def pairRows : List Row :=
[
  /- ENABLE -/ ⟨0x0, 0x0, .bool, .rw, .staged, 2, true, .num 0, .flag⟩,
  /- STATE -/ ⟨0x1, 0x1, .enum, .ro, .live, 1, false, .num 0, .any⟩,
  /- SIDE -/ ⟨0x2, 0x2, .enum, .ro, .live, 1, false, .num 0, .any⟩,
  /- ROLE -/ ⟨0x3, 0x3, .enum, .ro, .live, 1, false, .num 3, .any⟩,
  /- SYNC -/ ⟨0x4, 0x4, .enum, .ro, .live, 1, false, .num 0, .any⟩,
  /- LEASE -/ ⟨0x5, 0x5, .u8, .rw, .staged, 2, true, .num 4, .span 3 64⟩,
  /- JOIN_WAIT -/ ⟨0x6, 0x6, .u16, .rw, .staged, 2, true, .num 2000, .span 100 60000⟩,
  /- HANDOVER -/ ⟨0x7, 0x7, .bool, .wo, .live, 2, false, .num 0, .isTrue⟩,
  /- HANDOVER_STATE -/ ⟨0x8, 0x8, .enum, .ro, .live, 1, false, .num 0, .any⟩,
  /- LEASE_LEFT -/ ⟨0x9, 0x9, .u8, .ro, .live, 1, false, .num 0, .any⟩,
  /- PEER_OWN -/ ⟨0xa, 0xa, .bool, .ro, .live, 1, false, .num 0, .flag⟩,
  /- PARTNER_ID -/ ⟨0xb, 0xb, .u64, .ro, .live, 1, false, .num 0, .any⟩,
  /- LANES -/ ⟨0xc, 0xc, .u8, .ro, .live, 1, false, .num 4, .any⟩,
  /- FILL_LEFT -/ ⟨0xd, 0xd, .u32, .ro, .live, 1, false, .num 0, .any⟩,
  /- EXPORTS -/ ⟨0x10, 0x10, .u64, .ro, .live, 1, false, .num 0, .any⟩,
  /- LOST_EXPORTS -/ ⟨0x11, 0x11, .u64, .ro, .live, 1, false, .num 0, .any⟩,
  /- EXPORT_BEATS -/ ⟨0x12, 0x12, .u32, .ro, .live, 1, false, .num 0, .any⟩,
  /- EXPORT_PEAK -/ ⟨0x13, 0x13, .u32, .ro, .live, 1, false, .num 0, .any⟩,
  /- DIVERGENCES -/ ⟨0x14, 0x14, .u64, .ro, .live, 1, false, .num 0, .any⟩,
  /- TAKEOVERS -/ ⟨0x15, 0x15, .u64, .ro, .live, 1, false, .num 0, .any⟩,
  /- LAST_GAP -/ ⟨0x16, 0x16, .u16, .ro, .live, 1, false, .num 0, .any⟩,
  /- HANDOVERS -/ ⟨0x17, 0x17, .u64, .ro, .live, 1, false, .num 0, .any⟩,
  /- LAST_HANDOVER -/ ⟨0x18, 0x18, .time64, .ro, .live, 1, false, .num 0, .any⟩,
  /- CLEAR -/ ⟨0x1f, 0x1f, .bool, .wo, .live, 1, false, .num 0, .isTrue⟩]

/-- Members of a stage-one row with the mode's strips, or a stage-two row with its buses (R162). -/
def nodeRows (sources : Nat) : List Row :=
[
  /- NODE -/ ⟨0, sources - 1, .gainDb, .rw, .ramped, 2, true, .num 0x80000000, .gain true (-9437184) 1578106⟩,
  /- RAMP_LAW -/ ⟨0x400, 0x400, .enum, .rw, .live, 1, true, .num 0, .span 0 2⟩,
  /- RAMP_LEN -/ ⟨0x401, 0x401, .u16, .rw, .live, 1, true, .num 256, .span 0 4096⟩,
  /- ACTIVE_NODES -/ ⟨0x402, 0x402, .u16, .ro, .live, 1, false, .num 0, .any⟩,
  /- RAMPING -/ ⟨0x403, 0x403, .u16, .ro, .live, 1, false, .num 0, .any⟩,
  /- NODE_LIVE -/ ⟨0x800, 0x800 + sources - 1, .gainDb, .rw, .live, 1, false, .num 0x80000000, .gain true (-9437184) 1578106⟩,
  /- NODE_NOW -/ ⟨0xC00, 0xC00 + sources - 1, .gainDb, .ro, .live, 1, false, .num 0x80000000, .any⟩]

/-- Rollback, E:0001 (R219). -/
def rollbackRows : List Row :=
[ /- TARGET -/ ⟨0, 0, .u32, .rw, .live, 1, true, .num 0, .any⟩]

/-- Host record channels (R266). -/
def recordRows : List Row :=
[
  /- PATCH -/ ⟨0, 0, .u16, .rw, .live, 1, true, .num 0, .patch⟩,
  /- RING -/ ⟨1, 1, .u8, .ro, .live, 1, false, .num 0xFF, .any⟩]

/-- Host playback channels (R266). -/
def playbackRows : List Row :=
[ /- RING -/ ⟨1, 1, .u8, .ro, .live, 1, false, .num 0xFF, .any⟩]

/-- Shared memory repair, D:0020 (R406). -/
def sharedRepairRows : List Row :=
[ /- spare rows used -/ ⟨0, 6, .u16, .ro, .live, 1, false, .num 0, .any⟩]

/-- Field Return Record, D:0F00 (R408). -/
def returnRows : List Row :=
[ /- RECORD -/ ⟨0, 0, .blob, .ro, .live, 1, false, .bytes [], .any⟩]

/-- The command rings' three members (R266). -/
def commandRingRows : List Row := ringRows.filter (fun r => r.lo == 0x001 || r.lo == 0x00D || r.lo == 0x014)

end Sys2Proof.Machine
end

