-- ==== Sys2Proof/Machine/Dict.lean ====
section
/-!
DEFINITION. Machine/Dict.lean: the dictionary's numbers: what the mode populates (R58 to R60), the row of an object (R225,
R233), defaults, values in force, the staging bank (R202), and the domain and tile of a unit (R15, R17, R22, R157).
-/
namespace Sys2Proof.Machine

/-! ### Values in force -/

/-- The EUI of a port: octet 0x02 and DIE_ID bits 39 to 0 with the low three bits replaced (R251). -/
def macOf (port : Nat) : Nat := 0x02 * 2 ^ 40 + (Config.dieId.toNat * 8 % 2 ^ 40) + port

/-- The bytes of a text. -/
def textBytes (s : String) : Octets := s.toList.map Char.toNat

/-- The activity and target pairs of the factory budget table in the order of R41 and R45. -/
def clusterTargets : List Nat := (List.range 16).map (0x20 + ·)

/-- The targets of an activity, in ascending code (R41). -/
def activityTargets (a : Nat) : List Nat :=
  if a < 0x10 then [0x00, 0x01, 0x20 + a]
  else if a < 0x20 then [0x10 + (a - 0x10), 0x20 + (a - 0x10)]
  else match a with
    | 0x20 => [0x02] | 0x21 => [0x02] | 0x22 => [0x02] | 0x23 => [0x02, 0x04]
    | 0x24 => [0x00, 0x01, 0x02, 0x08] | 0x25 => [0x00, 0x01, 0x02, 0x07]
    | 0x26 => (List.range 8) ++ clusterTargets
    | 0x27 => [0x00, 0x01]
    | 0x28 => [0x02, 0x03, 0x06, 0x09] ++ clusterTargets
    | 0x29 => (List.range 9) ++ clusterTargets
    | 0x2A => [0x02]
    | _ => []

/-- The factory table: entry e holds the e-th pair (R45). -/
def factoryPairs : List (Nat × Nat) := (List.range 0x2B).flatMap (fun a => (activityTargets a).map (fun t => (a, t)))

/-- Whether a target code exists (R39). -/
def targetExists (g : Nat) : Bool := g < 0x0A || (0x10 ≤ g && g < 0x30)

/-- Capacity of a target in million beats per second (R39). -/
def targetCapacity (g : Nat) : Nat :=
  if g ≤ 1 then 640 else if g = 8 then 200 else if g = 9 then 350 else if 0x20 ≤ g then 5000 else 1250

/-- The default of a row for an instance and member (the Default column). -/
def defaultOf (d : Default) (i m : Nat) : Val :=
  match d with
  | .num n => .num n
  | .plusInst n => .num (n + i)
  | .timesInst k n => .num (k * i + n)
  | .parity e o => .num (if i % 2 = 0 then e else o)
  | .halfInst => .num (i / 2)
  | .lowInst b => .num (i - b)
  | .firstOnly k => .num (if i = k then 1 else 0)
  | .bandFreq => .num (62500 * 2 ^ (m / 16 % 16))
  | .bytes b => .blob b
  | .zeros n => .blob (List.replicate n 0)
  | .str s => .blob (textBytes s)
  | .budget 0 => .num (if i < 165 then 1 else 0)
  | .budget 1 => .num ((factoryPairs[i]?).getD (0, 0)).1
  | .budget _ => .num ((factoryPairs[i]?).getD (0, 0)).2
  | .capacity => .num (targetCapacity i)
  | .tiles => .num (if i = 0x100 then 0x5555 else 0xAAAA)
  | .dieId => .num (Config.dieId.toNat * 8)
  | .fwVersion => .num (Config.fwVersion 0).toNat
  | .mac => .num (macOf (i - 0x200 + 1))

/-! ### Families (R233) -/

/-- Resource counts of a mode and rate class (R58). -/
structure Limits where
  strips : Nat
  buses  : Nat
  mats   : Nat
  units  : Nat
  ports  : Nat
  chans  : Nat
  host   : Nat
  rx     : Nat
  deriving DecidableEq, Repr

/-- The resources of an audio mode; SERVICE keeps the ARENA counts (log entry 16). -/
def limitsOf (mode cls : Nat) : Limits :=
  match mode with
  | 2 => ⟨512, 192, 96, 1024, 24, 768, 512, 1024⟩
  | 3 => ⟨256, 96, 48, 512, 12, 384, 256, 512⟩
  | 4 => if cls = 1 then ⟨256, 64, 32, 512, 48, 1536, 1024, 2048⟩ else ⟨256, 64, 32, 512, 24, 768, 512, 1024⟩
  | _ => ⟨1024, 256, 128, 2048, 48, 1536, 1024, 2048⟩

/-- The rate class of a rate code (R57). -/
def rateClass (code : Nat) : Nat := if code ≤ 1 then 1 else if code ≤ 3 then 2 else 4

/-- The rate of a rate code in hertz (R57). -/
def rateHz (code : Nat) : Nat :=
  match code with
  | 0 => 44100 | 1 => 48000 | 2 => 88200 | 3 => 96000 | 4 => 176400 | _ => 192000

/-- The rows of the family that holds an instance (R233), and whether a unit of the mode stands there (R60). Reference inputs other
than codes 0 to 2 have only STATE and RATE, and EDGE exists for codes 0 and 1 (R291, log entry 44). -/
def familyRows (lim : Limits) (a i : Nat) : List Row :=
  match a with
  | 0 => if i = 0 then identityRows else []
  | 1 => if i = 0 then modeRows else if 0x100 ≤ i ∧ i < 0x120 then sessionRows else if i = 0x200 then serviceRows else []
  | 2 => if i < 4 then domainRows else if 0x10 ≤ i ∧ i < 0x14 then timeBaseRows
         else if 0x20 ≤ i ∧ i < 0x28 then refRows.filter (fun r => decide (r.lo ≤ 1) || decide (i < 0x22) || (decide (i = 0x22) && r.lo != 2)) else if 0x100 ≤ i ∧ i < 0x200 then bridgeRows else []
  | 3 => if i < 48 then portRows else []
  | 4 => if i < 0x100 then streamRows ++ rxRows else if i < 0x200 then streamRows ++ txRows
         else if i < 0x204 then netPortRows.filter (fun r => decide (i = 0x200) || decide (r.lo < 0x080))
         else if 0x300 ≤ i ∧ i < 0x320 then commandRingRows else if 0x320 ≤ i ∧ i < 0x340 then ringRows
         else if 0x400 ≤ i ∧ i < 0x400 + lim.host then recordRows
         else if 0x800 ≤ i ∧ i < 0x800 + lim.host then playbackRows else []
  | 5 => if i < 0x400 then (if i < lim.strips then stripRows else [])
         else if i = 0x400 then captureRows else if 0x401 ≤ i ∧ i ≤ 0x408 then automixRows else []
  | 6 => if i < 0x100 then (if i < lim.buses then nodeRows lim.strips else [])
         else if i < 0x180 then (if i - 0x100 < lim.mats then nodeRows lim.buses else []) else []
  | 7 => if i < 0x100 then (if i < lim.buses then busRows else [])
         else if i < 0x180 then (if i - 0x100 < lim.mats then busRows else [])
         else if 0x200 ≤ i ∧ i < 0x300 then (if i - 0x200 < lim.buses then outputRows else [])
         else if 0x300 ≤ i ∧ i < 0x380 then (if i - 0x300 < lim.mats then outputRows else []) else []
  | 8 => if i < lim.units then dynRows else []
  | 9 => if i < 0x100 then imageRows else if 0x100 ≤ i ∧ i < 0x110 then tileRows
         else if 0x1000 ≤ i ∧ i < 0x2000 then placementRows else []
  | 10 => if i < 0x30 then (if targetExists i then arbiterRows else []) else if i = 0x40 then xbarRows
          else if i = 0x100 then dramRows
          else if i = 0x101 then dramRows.filter (fun r => !(r.lo == 0x010) && !(r.lo == 0x011)) else []
  | 11 => if i < 0x100 then budgetRows else []
  | 12 => if i = 0 then pairRows else []
  | 13 => if i = 0 then faultRows else if 0x10 ≤ i ∧ i < 0x20 then tileRepairRows else if i = 0x20 then sharedRepairRows
          else if 0x100 ≤ i ∧ i < 0x500 then logRows else if i = 0xF00 then returnRows else []
  | 14 => if i = 0 then commitRows else if i = 1 then rollbackRows
          else if 0x100 ≤ i ∧ i < 0x140 then directoryRows else []
  | _ => []

/-- The row of a member among the rows of its family. -/
def findRow (rows : List Row) (m : Nat) : Option Row := rows.find? (fun r => decide (r.lo ≤ m) && decide (m ≤ r.hi))

/-- Every instance counted, whatever the mode: the widest part (ARENA counts, R58). -/
def fullLimits : Limits := limitsOf 1 1

/-- The row of an object in the largest mode, for its default and type. -/
def rowOf (o : Obj) : Option Row := findRow (familyRows fullLimits (areaOf o) (instOf o)) (memOf o)

/-- The default of an object; 0 for a number that names none. -/
def dfl (o : Obj) : Val :=
  match rowOf o with
  | some r => defaultOf r.dfl (instOf o) (memOf o)
  | none => .num 0

/-- The value in force of an object. -/
def forceVal (s : State) (o : Obj) : Val := tget s.dict.force (dfl o) o

/-- The number in force of an object. -/
def numF (s : State) (o : Obj) : Nat := valNat (forceVal s o)

/-- Whether a BOOL in force is TRUE. -/
def isOn (s : State) (o : Obj) : Bool := numF s o == 1

/-- Puts a value in force. -/
def setF (s : State) (o : Obj) (v : Val) : State :=
  { s with dict := { s.dict with force := tput s.dict.force (dfl o) o v } }

/-- Puts a number in force. -/
def setN (s : State) (o : Obj) (n : Nat) : State := setF s o (.num n)

/-- Adds 1 to a counter. -/
def bump (s : State) (o : Obj) : State := setN s o (numF s o + 1)

/-- Adds to a counter. -/
def bumpBy (s : State) (o : Obj) (k : Nat) : State := setN s o (numF s o + k)

/-- A member that only the engine writes: read-only, in areas 2 to E. -/
def engineOwned (o : Obj) : Bool :=
  decide (2 ≤ areaOf o) && (match rowOf o with | some r => (match r.acc with | .ro => true | _ => false) | none => false)

/-- Members that FACTORY sets to their defaults: RETAINED, in areas 2 to C (R245); what the engine alone writes is not staged (log entry
210). -/
def isFactoryMember (o : Obj) : Bool :=
  decide (2 ≤ areaOf o) && decide (areaOf o ≤ 12) && (match rowOf o with | some r => r.ret | none => false) && !(engineOwned o)

/-- The factory value of a member: its default, and for the masks of TILES with DRAM channel 1 ABSENT the ones that put every tile on channel 0
(R244, R374, R389). -/
def factoryVal (s : State) (o : Obj) : Val :=
  if o = ob 10 0x100 0x012 then .num (if numF s (ob 10 0x101 0) = 0 then 0xFFFF else 0x5555)
  else if o = ob 10 0x101 0x012 then .num (if numF s (ob 10 0x101 0) = 0 then 0 else 0xAAAA)
  else dfl o

/-- The staging bank's value of an object, if the bank holds one (R202, R245). -/
def bankVal (s : State) (o : Obj) : Option Val :=
  match s.dict.bank.find? (fun e => e.1 == o) with
  | some e => some e.2
  | none => if s.dict.factory && isFactoryMember o then some (factoryVal s o) else none

/-- Whether the bank holds nothing. -/
def bankEmpty (s : State) : Bool := s.dict.bank.isEmpty && !s.dict.factory

/-- The bank with nothing in it. -/
def emptyBank (s : State) : State := { s with dict := { s.dict with bank := [], factory := false } }

/-- Inserts or replaces one entry of a rising list of members. -/
def putEntry (o : Obj) (v : Val) : List (Obj × Val) → List (Obj × Val)
  | [] => [(o, v)]
  | (a, w) :: r => if o < a then (o, v) :: (a, w) :: r else if a = o then (o, v) :: r else (a, w) :: putEntry o v r

/-- Writes the staging bank; a commit in work learns which members have been written since it arrived (R208). -/
def setBank (s : State) (o : Obj) (v : Val) : State :=
  { s with dict := { s.dict with bank := putEntry o v s.dict.bank },
           commit := s.commit.map (fun p => { p with since := if p.since.contains o then p.since else o :: p.since }) }

/-- Members that FACTORY put in the bank with a factory value that differs from their value in force. -/
def factorySet (s : State) : List Obj :=
  if s.dict.factory then
    (s.dict.force.map (·.1) ++ [ob 10 0x100 0x012, ob 10 0x101 0x012]).filter (fun o =>
      isFactoryMember o && !(s.dict.bank.any (fun e => e.1 == o)) && decide (factoryVal s o ≠ forceVal s o))
  else []

/-- The change set: members whose bank value differs from their value in force (R202). -/
def changeSet (s : State) : List (Obj × Val) :=
  (factorySet s).foldl (fun l o => putEntry o (factoryVal s o) l) (s.dict.bank.filter (fun e => decide (e.2 ≠ forceVal s e.1)))

/-- The value of an object in the configuration that a commit would make: bank first, then force. -/
def stagedVal (s : State) (o : Obj) : Val := (bankVal s o).getD (forceVal s o)

/-! ### Mode, rates, domains and tiles -/

/-- The current mode code (R57); a side in STANDBY runs its partner's mode for its resources (R64). -/
def modeNow (s : State) : Nat := numF s (ob 1 0 0)

/-- The mode whose resources are populated. -/
def resourceMode (s : State) : Nat :=
  if modeNow s = 5 then (match s.pair.partner with | some p => p.mode | none => 1) else modeNow s

/-- The CD0 rate code. -/
def rate0 (s : State) : Nat := numF s (ob 1 0 1)

/-- The rate code of a domain; CD0 follows the mode (R14, R290). -/
def domRate (s : State) (d : Nat) : Nat := if d = 0 then rate0 s else numF s (ob 2 d 2)

/-- The rate of a domain in hertz. -/
def domHz (s : State) (d : Nat) : Nat := rateHz (domRate s d)

/-- The resources of the current mode (R58). -/
def lim (s : State) : Limits := limitsOf (resourceMode s) (rateClass (rate0 s))

/-- Samples per frame (R57). -/
def frameLen (s : State) : Nat := if resourceMode s = 4 then 1 else 8

/-- The state record of a domain. -/
def dom (s : State) (d : Nat) : Domain := tget s.doms Domain.idle d

/-- Changes the state record of a domain. -/
def setDom (s : State) (d : Nat) (x : Domain) : State := { s with doms := tput s.doms Domain.idle d x }

/-- The frame counter of a domain (R6, R290). -/
def frameOf (s : State) (d : Nat) : Nat := numF s (ob 2 d 0x14)

/-- Whether a domain is ON and ticking. -/
def domOn (s : State) (d : Nat) : Bool := numF s (ob 2 d 1) == 2 && (dom s d).running

/-- The tile of a strip (R17). -/
def stripTile (s : State) (i : Nat) : Nat := i / ((lim s).strips / 16)
/-- The tile of a bus (R157). -/
def busTile (s : State) (b : Nat) : Nat := b / ((lim s).buses / 16)
/-- The tile of a matrix (R157). -/
def matTile (s : State) (m : Nat) : Nat := m / ((lim s).mats / 16)
/-- The domain of a tile in force (R15). -/
def tileDom (s : State) (t : Nat) : Nat := numF s (ob 9 (0x100 + t) 2)
/-- The tile of a bus (instance below 0x100), matrix or output processor instance of area 7. -/
def tile7 (s : State) (i : Nat) : Nat :=
  let j := i % 0x200
  if j < 0x100 then busTile s j else matTile s (j - 0x100)

/-- The audio ring that carries a record (base ring 32) or playback (base ring 48) channel, if one is enabled (R266). -/
def ringOfChannel (s : State) (base ch : Nat) : Option Nat :=
  ((List.range 16).map (base + ·)).find? (fun r =>
    let o := ob 4 (0x300 + r) 0
    isOn s o && decide (numF s (o + 3) ≤ ch) && decide (ch < numF s (o + 3) + numF s (o + 4)))

/-- The domain that owns an object, for LIVE writes and commits (R22, R27, R228); units of no domain of their own follow
CD0 (log entry 16). -/
def ownerDom (s : State) (o : Obj) : Nat :=
  let i := instOf o
  match areaOf o with
  | 2 => if i < 4 then i else if 0x100 ≤ i then numF s (ob 2 i 3) else 0
  | 3 => numF s (ob 3 i 2)
  | 4 => if i < 0x200 then numF s (ob 4 i 2)
         else if 0x320 ≤ i ∧ i < 0x340 then numF s (ob 4 i 2)
         else if 0x400 ≤ i ∧ i < 0x800 then (match ringOfChannel s 32 (i - 0x400) with | some r => numF s (ob 4 (0x300 + r) 2) | none => 0)
         else if 0x800 ≤ i then (match ringOfChannel s 48 (i - 0x800) with | some r => numF s (ob 4 (0x300 + r) 2) | none => 0)
         else 0
  | 5 => if i < 0x400 then tileDom s (stripTile s i)
         else if 0x401 ≤ i then
           (match (List.range (lim s).strips).find? (fun k => numF s (ob 5 k 0x500) == i - 0x400) with
            | some k => tileDom s (stripTile s k) | none => 0)
         else 0
  | 6 => tileDom s (tile7 s i)
  | 7 => tileDom s (tile7 s i)
  | 8 => tileDom s (stripTile s (i / 2))
  | 9 => if 0x100 ≤ i ∧ i < 0x110 then tileDom s (i - 0x100)
         else if 0x1000 ≤ i then tileDom s ((i - 0x1000) / 0x100) else 0
  | 11 => if numF s (ob 11 i 1) < 0x20 then tileDom s (numF s (ob 11 i 1) % 16) else numF s (ob 11 i 3)
  | _ => 0

/-! ### Signals (R18 to R22) -/

/-- Whether a signal number is populated in the current mode (R19, R59). -/
def signalPresent (s : State) (x : Nat) : Bool :=
  let l := lim s
  if x < 0x600 then decide (x < 32 * l.ports)
  else if x < 0xE00 then decide (x - 0x600 < l.rx)
  else if x < 0x1200 then decide (x - 0xE00 < l.strips)
  else if x < 0x1300 then decide (x - 0x1200 < l.buses)
  else if x < 0x1380 then decide (x - 0x1300 < l.mats)
  else if x < 0x1400 then true
  else if x < 0x1800 then decide (x - 0x1400 < l.host)
  else decide (x < 0x2000)

/-! ### Existence, ranges and types -/

/-- The row of an object that exists in the current mode (R60, R225). Transmit patches end at CHANNELS (R348). -/
def lookup (s : State) (o : Obj) : Option Row :=
  if 2 ^ 32 ≤ o then none
  else if areaOf o = 4 ∧ 0x100 ≤ instOf o ∧ instOf o < 0x200 ∧ 0x100 ≤ memOf o
      ∧ 0x100 + numF s (ob 4 (instOf o) 5) ≤ memOf o then none
  else findRow (familyRows (lim s) (areaOf o) (instOf o)) (memOf o)

/-- Whether the type code and the length of a value fit a row (R231). -/
def typeFits (r : Row) (v : TVal) : Bool :=
  v.code == r.ty.code &&
  (match r.ty, v.val with
   | .str, .blob b => v.size == 1 + b.length
   | .blob, .blob b => v.size == 4 + b.length
   | .str, .num _ => false
   | .blob, .num _ => false
   | t, .num n => v.size == t.bytes && decide (n < 2 ^ (8 * t.bytes))
   | _, .blob _ => false)

/-- The whole little-endian 32-bit words of a BLOB (log entry 169). -/
def leWords (b : Octets) : List Nat := (List.range (b.length / 4)).map (fun i => ofLe (slice b (4 * i) 4))

/-- A power of two. -/
def isPow2 (n : Nat) : Bool := n != 0 && 2 ^ Nat.log2 n == n

/-- Whether a gather or scatter list is well formed (R132); `free` placements scatter to effect returns and user signals. -/
def listFits (s : State) (scatter free : Bool) (b : Octets) : Bool :=
  b.length % 4 == 0 && decide (b.length ≤ 64) &&
  (leWords b).all (fun w =>
    bits w 15 13 == 0 && bits w 31 30 == 0 && decide (bits w 29 16 ≤ 0x3FF8)
    && (frameLen s == 1 || bits w 29 16 % 8 == 0)
    && signalPresent s (bits w 12 0)
    && (!(scatter && free) || (0x1380 ≤ bits w 12 0 && bits w 12 0 < 0x1400) || 0x1800 ≤ bits w 12 0))

/-- Whether a value lies in its encoding and its range (R230, step 7 of R232). -/
def rangeFits (s : State) (o : Obj) (r : Row) (v : Val) : Bool :=
  let n := valNat v
  let b := valOctets v
  match r.rng with
  | .any => true
  | .flag => decide (n ≤ 1)
  | .isTrue => n == 1
  | .span lo hi => decide (lo ≤ n) && decide (n ≤ hi)
  | .spanOr lo hi x => (decide (lo ≤ n) && decide (n ≤ hi)) || n == x
  | .oneOf cs => cs.contains n
  | .signed lo hi => decide (lo ≤ signedOf 32 n) && decide (signedOf 32 n ≤ hi)
  | .gain inf lo hi => if n = negInf then inf else decide (lo ≤ signedOf 32 n) && decide (signedOf 32 n ≤ hi)
  | .multOf k lo hi => n % k == 0 && decide (lo ≤ n) && decide (n ≤ hi)
  | .pow2 lo hi => isPow2 n && decide (lo ≤ n) && decide (n ≤ hi)
  | .nanos => decide (n % 2 ^ 30 < 1000000000)
  | .signal => decide (n < 0x2000) && signalPresent s n
  | .sigSpan lo hi => decide (lo ≤ n) && decide (n ≤ hi) && signalPresent s n
  | .patch => bits n 14 13 == 0 && (bit n 15 == 0 || signalPresent s (bits n 12 0))
  | .blobLen lo hi => decide (lo ≤ b.length) && decide (b.length ≤ hi)
  | .blobInit => b.length == 48 || (b.length == 96 && decide (instOf o % 0x100 < 0x40))
  | .blobList => listFits s (memOf o == 0x00A) (decide (0x40 ≤ instOf o % 0x100)) b
  | .blobImage => b.length == 0 || (decide (40 ≤ b.length) && decide (b.length ≤ 131104))
  | .activity => decide (n < 0x2B)
  | .target => targetExists n
  | .entryWord => bits n 45 18 == 0 && decide (bits n 53 46 < 0x2B) && targetExists (bits n 59 54)
  | .span64 => decide (numF s (ob 5 0x400 4) ≤ n) && decide (n ≤ numF s (ob 5 0x400 3))

/-! ### Sessions -/

/-- A session slot. -/
def sess (s : State) (n : Sess) : Session := tget s.ctl.sess Session.free n

/-- Changes a session slot. -/
def setSess (s : State) (n : Sess) (x : Session) : State :=
  { s with ctl := { s.ctl with sess := tput s.ctl.sess Session.free n x } }

/-- The object of a session member (R236). -/
def sob (n : Sess) (m : Nat) : Obj := ob 1 (0x100 + n) m

/-- Whether a session is open. -/
def sessOpen (s : State) (n : Sess) : Bool := decide (n < 32) && numF s (sob n 0) == 1

/-- Whether a mode transition runs (TRANSITION, R69). -/
def inTransition (s : State) : Bool := numF s (ob 1 0 4) != 0

end Sys2Proof.Machine
end

