-- ==== Sys2Proof/Machine/Notify.lean ====
section
/-!
DEFINITION. Machine/Notify.lean: notifications and events (R241 to R243), the shared status codes (R13), and the life cycle of
units (R8 to R12).
-/
namespace Sys2Proof.Machine

/-! ### Status codes (R13) -/
def stOk : Nat := 0x00
def stNoObject : Nat := 0x01
def stDenied : Nat := 0x02
def stType : Nat := 0x03
def stRange : Nat := 0x04
def stBusy : Nat := 0x05
def stNoResource : Nat := 0x06
def stConflict : Nat := 0x07
def stMode : Nat := 0x08
def stBudget : Nat := 0x09
def stVersions : Nat := 0x0A
def stLock : Nat := 0x0B
def stPast : Nat := 0x0C
def stSessions : Nat := 0x0D

/-! ### Time of day -/

/-- A count of nanoseconds as a TIME64 (R230). -/
def time64 (ns : Int) : Nat :=
  let n := ns.toNat
  (n / 1000000000 % 2 ^ 34) * 2 ^ 30 + n % 1000000000

/-- The nanoseconds of a TIME64. -/
def ofTime64 (v : Nat) : Int := ((v / 2 ^ 30 * 1000000000 + v % 2 ^ 30 : Nat) : Int)

/-- A time base. -/
def tb (s : State) (k : Nat) : TimeBase := tget s.tbs TimeBase.free k

/-- Changes a time base. -/
def setTb (s : State) (k : Nat) (x : TimeBase) : State := { s with tbs := tput s.tbs TimeBase.free k x }

/-- TIME of a time base at a core cycle in units of 2^-32 ns: 0.8 ns a cycle, corrected by its frequency (R297). -/
def tbFine (s : State) (k : Nat) (c : Cycle) : Int :=
  let t := tb s k
  t.timeNs + ((c : Int) - t.cycle) * 2 ^ 32 * 4 * (1000000000000 + t.freq) / 5000000000000

/-- Nanoseconds of a time base at a core cycle. -/
def tbNs (s : State) (k : Nat) (c : Cycle) : Int := tbFine s k c / 2 ^ 32

/-- The TIME64 of TB0 at the present cycle; 0 if TB0 is not ON. -/
def stampNow (s : State) : Nat := if numF s (ob 2 0x10 1) = 2 then time64 (tbNs s 0 s.now) else 0

/-! ### Notifications -/

/-- Whether an object belongs to no domain (R228). -/
def noDomain (o : Obj) : Bool :=
  let a := areaOf o
  a == 0 || (a == 1 && instOf o != 0) || a == 11 || a == 14

/-- Puts a notification in a session's queue; a full queue loses it (R242). -/
def pushNotif (s : State) (n : Sess) (x : Notif) : State :=
  let k := sess s n
  let same : Notif → Bool := fun y =>
    match x, y with
    | .value _ o _ _, .value _ p _ _ => o == p
    | _, _ => false
  if k.queue.any same then
    setSess s n { k with queue := k.queue.map (fun y => if same y then x else y) }
  else if 1024 ≤ k.queue.length then
    bump (bump (setSess s n { k with lostNow := k.lostNow + 1 }) (sob n 8)) (ob 1 0x200 5)
  else setN (setSess s n { k with queue := k.queue ++ [x] }) (sob n 7) (k.queue.length + 1)

/-- Whether a session holds an event subscription that names a code. -/
def wantsEvent (s : State) (n : Sess) (code : Nat) : Bool :=
  (sess s n).subs.any (fun e =>
    match e.2 with
    | some b => (match b.req with | .event cs => cs.contains code | .value .. => false)
    | none => false)

/-- The event notification of an object: the frame of its domain, or a TIME64 for an object of no domain (R243, R250). -/
def eventOf (s : State) (code : Nat) (o : Obj) (arg : Nat) : Notif :=
  if noDomain o then .event code o none (stampNow s) arg
  else .event code o (some (ownerDom s o)) (frameOf s (ownerDom s o)) arg

/-- Raises an event to every session that subscribes to its code, but for the sessions left out (R243). -/
def raiseBut (s : State) (but : List Nat) (code : Nat) (o : Obj) (arg : Nat) : State :=
  (List.range 32).foldl (fun t n =>
    if sessOpen t n && wantsEvent t n code && !(but.contains n) then pushNotif t n (eventOf t code o arg) else t) s

/-- Raises an event to every session that subscribes to its code (R243). -/
def raise (s : State) (code : Nat) (o : Obj) (arg : Nat) : State := raiseBut s [] code o arg

/-! ### Life cycle -/

/-- The STATE member of a unit, by the family of its member 000. -/
def stateObj (u : Obj) : Obj :=
  if areaOf u = 2 ∧ 0x100 ≤ instOf u then u + 4 else u + 1

/-- The life-cycle state of a unit (R8). -/
def unitState (s : State) (u : Obj) : Nat := numF s (stateObj u)

/-- The hidden part of a unit's life cycle. -/
def life (s : State) (u : Obj) : Life := tget s.life Life.rest u

/-- Changes the hidden part of a unit's life cycle. -/
def setLife (s : State) (u : Obj) (x : Life) : State := { s with life := tput s.life Life.rest u x }

/-- Moves a unit to a life-cycle state and raises the event of its area (R243). -/
def moveUnit (s : State) (u : Obj) (st : Nat) : State :=
  if unitState s u = st then s
  else raise (setN s (stateObj u) st) (areaOf u * 0x1000) u st

/-- Samples per packet of a packet-time code for a rate class (R327). -/
def packetSamples (ptime cls : Nat) : Nat := cls * (match ptime with | 0 => 6 | 1 => 12 | 2 => 16 | _ => 48)

/-- The drain bound of a unit in frames of its domain (R10 and the chapter that owns the unit). -/
def drainBound (s : State) (u : Obj) : Nat :=
  let i := instOf u
  match areaOf u with
  | 4 => if i < 0x100 then
      let f := domHz s (ownerDom s u) * numF s (u + 0x12)
      (f + 1000000 * frameLen s - 1) / (1000000 * frameLen s)
    else if i < 0x200 then
      let k := packetSamples (numF s (u + 7)) (rateClass (domRate s (ownerDom s u)))
      (k + frameLen s - 1) / frameLen s + 1
    else 2
  | 5 => 2
  | _ => 1

/-- Whether a unit delivers frame `f`: it is ON, or it drains and the frame began before the tick that stopped it; a unit stopped in
STARTING stays muted (R9, R10, R19; log entry 142). -/
def delivers (s : State) (u : Obj) (f : Nat) : Bool :=
  let st := unitState s u
  let l := life s u
  st == 2 || ((st == 3 || st == 4) && !l.muted && decide (f < l.stop))

/-- What a unit holds as it enters STOPPING: its drain, whether it was unmuted, and the frame of the tick. -/
def stopLife (s : State) (u : Obj) (muted : Bool) : Life :=
  { Life.rest with drain := drainBound s u, muted := muted, stop := frameOf s (ownerDom s u) }

/-- Serves an enable or disable request by R9; the state it meets decides, and a move waits for the next tick. A request contrary to one
that still waits takes it back (log entry 160). -/
def request (s : State) (u : Obj) (enable byCommit : Bool) : State :=
  let st := unitState s u
  let l := life s u
  if enable then
    match st with
    | 0 => setLife s u { l with request := some true }
    | 3 => setLife (moveUnit s u 4) u { l with request := none }
    | 5 => if byCommit then raise s (areaOf u * 0x1000) u (0x100 + 5) else s
    | _ => setLife s u { l with request := none }
  else
    match st with
    | 1 => setLife s u { l with request := some false }
    | 2 => setLife s u { l with request := some false }
    | 4 => setLife (moveUnit s u 3) u { l with request := none }
    | 5 => setLife s u { l with request := some false }
    | _ => setLife s u { l with request := none }

/-- A fault that stops a unit (R11): FAULTED from any state but OFF; a queued start is discarded. The frame at which a draining unit stopped stays
known. -/
def faultUnit (s : State) (u : Obj) : State :=
  let st := unitState s u
  if st = 0 then s
  else
    let l := life s u
    let slow := st == 3 || st == 4 || st == 5
    setLife (moveUnit s u 5) u { Life.rest with muted := st == 1 || (slow && l.muted), stop := if slow then l.stop else 0 }

/-- A fault that stops a unit at the next tick of its domain (R27). -/
def faultDue (s : State) (u : Obj) : State := { s with sage := { s.sage with faults := addOnce s.sage.faults u } }

/-- What a tick of the unit's domain does to its life cycle: the request waiting, then the drain (R9, R10, R12). -/
def tickUnit (s : State) (u : Obj) : State :=
  let l := life s u
  match unitState s u with
  | 0 => if l.request = some true then setLife (moveUnit s u 1) u Life.rest else s
  | 1 => if l.request = some false then setLife (moveUnit s u 3) u (stopLife s u true) else s
  | 2 => if l.request = some false then setLife (moveUnit s u 3) u (stopLife s u false) else s
  | 3 => if l.drained || l.drain ≤ 1 then setLife (moveUnit s u 0) u Life.rest
         else setLife s u { l with drain := l.drain - 1 }
  | 4 => if l.drained || l.drain ≤ 1 then setLife (moveUnit s u 1) u Life.rest
         else setLife s u { l with drain := l.drain - 1 }
  | 5 => if l.request = some false ∨ !(isOn s u) then
      setLife (moveUnit s u 0) u { Life.rest with request := if l.again then some true else none } else s
  | _ => s

/-- The units with a life cycle whose moves a tick of domain `d` makes. -/
def lifeUnits : List Obj :=
  (List.range 16).map (fun t => ob 9 (0x100 + t) 0)
  ++ (List.range 48).map (fun p => ob 3 p 0)
  ++ (List.range 0x200).map (fun c => ob 4 c 0)
  ++ (List.range 32).map (fun r => ob 4 (0x320 + r) 0)
  ++ (List.range 256).map (fun c => ob 2 (0x100 + c) 0)
  ++ [ob 5 0x400 0]

end Sys2Proof.Machine
end

