-- ==== Sys2Proof/Machine/Lanes.lean ====
section
/-!
DEFINITION. Machine/Lanes.lean: a lane's registers, results on their way (R108 to R110), address space (R87 to R91) and slots
(R111 to R122). A slot command acts in the lane's present bundle; the control command of the bundle closes it. Lane number
16 t + l is lane l of tile t (log entry 20).
-/
namespace Sys2Proof.Machine

/-! ### Lane memories -/

/-- The crossbar address of a lane word (R87, R354); none for an unmapped word. -/
def laneAddr (lane w : Nat) : Option Nat :=
  let base := 0x04000000 + 0x80000 * (lane / 4)
  let j := lane % 4
  if w < 0x4000 then some (base + 0x10000 * j + 4 * w)
  else if w < 0x6000 then some (base + 0x40000 + 0x8000 * j + 4 * (w - 0x4000))
  else none

/-- Whether the region that holds an address failed its test and reads 0 (R396 to R398): regions are 256 bytes. -/
def regionFailed (s : State) (a : Nat) : Bool := s.sage.failed.any (fun e => e.1 == a / 256)

/-- The save buffer that stands for the region of an address under test (R364). -/
def saveOf (s : State) (a : Nat) : Option SaveBuf := s.sage.saves.find? (fun b => b.region == a / 256)

/-- Bytes of on-chip memory, within one region, as every requester reads them: 0 in a failed region (R398), those of the save buffer in a
region under test (R364, R365). -/
def chipRead (s : State) (a n : Nat) : Octets :=
  if regionFailed s a then List.replicate n 0
  else match saveOf s a with
    | some b => memRead b.cells a n
    | none => memRead s.mem a n

/-- The cells that hold a region of on-chip memory for every requester, changed: the save buffer's of a region under test; a failed region
takes no write (R364, R365, R398). -/
def chipEdit (s : State) (a : Nat) (f : List Host.Cell → List Host.Cell) : State :=
  if regionFailed s a then s
  else match saveOf s a with
    | some _ => { s with sage := { s.sage with saves := s.sage.saves.map (fun x => if x.region = a / 256 then { x with cells := f x.cells } else x) } }
    | none => { s with mem := f s.mem }

/-- Takes the uncorrectable mark off the half words that a write covers (R365; log entry 206). -/
def clearPoison (s : State) (full : Nat → Bool) : State :=
  if s.sage.poison.any full then { s with sage := { s.sage with poison := s.sage.poison.filter (fun w => !(full w)) } } else s

/-- A word of on-chip memory. -/
def wordAt (s : State) (a : Nat) : Nat := ofLe (chipRead s a 4)

/-- Stores bytes in on-chip memory, within one region. -/
def putBytes (s : State) (a : Nat) (b : Octets) : State :=
  chipEdit (clearPoison s (fun w => decide (a ≤ 4 * w) && decide (4 * w + 4 ≤ a + b.length))) a (fun m => memWrite m a b)

/-- A lane word; 0 when unmapped (R88). -/
def laneWord (s : State) (lane w : Nat) : Nat :=
  match laneAddr lane w with
  | some a => wordAt s a
  | none => 0

/-- Writes a lane word of bank A or bank B; other words take no store (R87, R88). -/
def putLaneWord (s : State) (lane w v : Nat) : State :=
  if w < 0x4000 then
    (match laneAddr lane w with | some a => putBytes s a (leBytes 4 v) | none => s)
  else s

/-! ### Registers and results on their way -/

/-- A lane. -/
def lane (s : State) (n : Nat) : Lane := tget s.lanes Lane.idle n

/-- Changes a lane. -/
def setLane (s : State) (n : Nat) (x : Lane) : State := { s with lanes := tput s.lanes Lane.idle n x }

/-- Register codes of results: 0 to 15 D, 16 to 19 A, 20 to 27 X, 28 to 35 M, 36 to 43 W, 44 and 45 L, 46 MAXV, 47 MAXI,
48 the flags. -/
def putReg (x : Lane) (r v : Nat) : Lane :=
  if r < 16 then { x with d := tput x.d 0 r (BitVec.ofNat 32 v) }
  else if r < 20 then { x with a := tput x.a 0 (r - 16) (BitVec.ofNat 80 v) }
  else if r < 28 then { x with x := tput x.x 0 (r - 20) (BitVec.ofNat 16 v) }
  else if r < 36 then { x with m := tput x.m 0 (r - 28) (BitVec.ofNat 16 v) }
  else if r < 44 then { x with w := tput x.w 0 (r - 36) (BitVec.ofNat 16 v) }
  else if r < 46 then { x with l := tput x.l 0 (r - 44) v }
  else if r = 46 then { x with maxv := BitVec.ofNat 32 v }
  else if r = 47 then { x with maxi := BitVec.ofNat 32 v }
  else { x with st := setFlags x.st v }

/-- Puts a result among those on their way, in the order in which they take effect (R110). -/
def insertResult (r : Result) : List Result → List Result
  | [] => [r]
  | y :: t =>
    if r.cycle < y.cycle || (r.cycle == y.cycle && decide (r.prio < y.prio)) then r :: y :: t else y :: insertResult r t

/-- Schedules a result of the present bundle: latency, slot priority (3 MAC, 2 LS1, 1 LD0), register, bits. -/
def later (x : Lane) (lat slot reg v : Nat) : Lane :=
  { x with wait := insertResult { cycle := x.cycle + lat, prio := 4 * x.cycle + slot, reg := reg, bits := v } x.wait }

/-- Makes visible every result due by the lane's present cycle, in order (R108 to R110). -/
def settleList (c : Nat) : List Result → Lane → Lane
  | [], x => { x with wait := [] }
  | r :: t, x => if r.cycle ≤ c then settleList c t (putReg x r.reg r.bits) else { x with wait := r :: t }

/-! A gather under way writes its words at cycles that no rule fixes, each at most once (R89, R93). -/

/-- The word that a load reads: of a word of a gather under way, what was there before or what the gather writes, which it has written by the end
of its time (R93; log entry 53). -/
def loadWord (s : State) (n w : Nat) : Nat × State :=
  match (lane s n).dma.find? (fun e => e.word == w) with
  | none => (laneWord s n w, s)
  | some e =>
    if e.seen ∨ (lane s n).ready ≤ (lane s n).spent then (e.value, s)
    else
      let q := drawUpTo s 1
      if q.1 = 0 then (laneWord s n w, q.2)
      else (e.value, setLane q.2 n { lane q.2 n with dma := (lane q.2 n).dma.map (fun y => if y.word = w then { y with seen := true } else y) })

/-- The DMA collision counter of a lane's tile. -/
def collisions (n : Nat) : Obj := ob 9 (0x100 + n / 16) 0x014

/-- A store that reaches a bank word. Of a word of a gather under way, the DMA write comes before it, after it, or in the same cycle: then
the store prevails and the tile counts a collision (R89). -/
def storeWord (s : State) (n w v : Nat) : State :=
  match (lane s n).dma.find? (fun e => e.word == w) with
  | none => putLaneWord s n w v
  | some e =>
    let q := if e.seen ∨ (lane s n).ready ≤ (lane s n).spent then (0, s) else drawUpTo s 2
    let s1 := putLaneWord q.2 n w v
    let gone := setLane s1 n { lane s1 n with dma := (lane s1 n).dma.filter (fun y => y.word != w) }
    if q.1 = 0 then gone else if q.1 = 1 then bump gone (collisions n) else s1

/-- Makes due results visible. -/
def settle (x : Lane) : Lane := settleList x.cycle x.wait x

/-- Ends a bundle: stores reach memory, the cycle advances, due results become visible. -/
def closeBundle (s : State) (n : Nat) (extra : Nat) : State :=
  let x := lane s n
  let s1 := x.stores.foldl (fun t e => storeWord t n e.1 e.2.toNat) s
  setLane s1 n (settle { lane s1 n with stores := [], cycle := x.cycle + 1 + extra, spent := x.spent + 1 + extra })

/-- The data register Dn as a signed integer. -/
def dInt (x : Lane) (n : Nat) : Int := (tget x.d 0 n).toInt
/-- The accumulator An as a signed integer. -/
def aInt (x : Lane) (n : Nat) : Int := (tget x.a 0 n).toInt

/-- Writes a MAC-slot result to a data register with its flags. -/
def macToD (x : Lane) (lat dd : Nat) (r : MacVal) : Lane :=
  later (later x lat 3 dd (wrapTo 32 r.val)) lat 3 48 (znv r)
/-- Writes a MAC-slot result to an accumulator with its flags. -/
def macToA (x : Lane) (an : Nat) (r : MacVal) : Lane :=
  later (later x 1 3 (16 + an) (wrapTo 80 r.val)) 1 3 48 (znv r)

/-- A lane command on a lane that exists. -/
def onLane (n : Nat) (s : State) (f : Lane → Lane) : Host.Outcome State Fault Refusal :=
  if n < 256 then .next (setLane s n (f (lane s n))) else .fault .noSuchLane

/-! ### MAC slot (R116 to R119) -/

def execMac (n : Nat) (k : Kind) (an da db : Nat) (s : State) : Host.Outcome State Fault Refusal :=
  onLane n s (fun x => macToA x an (macVal k (aInt x an) (dInt x da) (dInt x db)))
def execMsu (n : Nat) (k : Kind) (an da db : Nat) (s : State) : Host.Outcome State Fault Refusal :=
  onLane n s (fun x => macToA x an (msuVal k (aInt x an) (dInt x da) (dInt x db)))
def execMpy (n : Nat) (k : Kind) (an da db : Nat) (s : State) : Host.Outcome State Fault Refusal :=
  onLane n s (fun x => macToA x an (mpyVal k (dInt x da) (dInt x db)))
def execExt (n dd an : Nat) (f : Fmt) (r : Rnd) (sh : Int) (s : State) : Host.Outcome State Fault Refusal :=
  onLane n s (fun x => macToD x 2 dd (extVal f r sh (aInt x an)))
def execAcc (n an da : Nat) (f : Fmt) (s : State) : Host.Outcome State Fault Refusal :=
  onLane n s (fun x => macToA x an (accVal f (dInt x da)))
def execAdda (n an am : Nat) (s : State) : Host.Outcome State Fault Refusal :=
  onLane n s (fun x => macToA x an (satVal 80 (aInt x an + aInt x am)))
def execSuba (n an am : Nat) (s : State) : Host.Outcome State Fault Refusal :=
  onLane n s (fun x => macToA x an (satVal 80 (aInt x an - aInt x am)))
def execSha (n an : Nat) (imm : Int) (s : State) : Host.Outcome State Fault Refusal :=
  onLane n s (fun x => macToA x an (shaVal imm (aInt x an)))
def execClr (n an : Nat) (s : State) : Host.Outcome State Fault Refusal :=
  onLane n s (fun x => macToA x an (plainVal 0))
def execAdd (n dd da db : Nat) (s : State) : Host.Outcome State Fault Refusal :=
  onLane n s (fun x => macToD x 1 dd (satVal 32 (dInt x da + dInt x db)))
def execSub (n dd da db : Nat) (s : State) : Host.Outcome State Fault Refusal :=
  onLane n s (fun x => macToD x 1 dd (satVal 32 (dInt x da - dInt x db)))
def execAsr (n dd da imm : Nat) (s : State) : Host.Outcome State Fault Refusal :=
  onLane n s (fun x => macToD x 1 dd (asrVal (dInt x da) imm))
def execAsl (n dd da imm : Nat) (s : State) : Host.Outcome State Fault Refusal :=
  onLane n s (fun x => macToD x 1 dd (aslVal (dInt x da) imm))
def execAbs (n dd da : Nat) (s : State) : Host.Outcome State Fault Refusal :=
  onLane n s (fun x => macToD x 1 dd (absVal (dInt x da)))
def execNeg (n dd da : Nat) (s : State) : Host.Outcome State Fault Refusal :=
  onLane n s (fun x => macToD x 1 dd (satVal 32 (-dInt x da)))
def execMov (n dd da : Nat) (s : State) : Host.Outcome State Fault Refusal :=
  onLane n s (fun x => macToD x 1 dd (plainVal (dInt x da)))
def execMvi (n dd : Nat) (imm : Int) (s : State) : Host.Outcome State Fault Refusal :=
  onLane n s (fun x => macToD x 1 dd (plainVal imm))
def execAnd (n dd da db : Nat) (s : State) : Host.Outcome State Fault Refusal :=
  onLane n s (fun x => macToD x 1 dd (plainVal (tget x.d 0 da &&& tget x.d 0 db).toInt))
def execOr (n dd da db : Nat) (s : State) : Host.Outcome State Fault Refusal :=
  onLane n s (fun x => macToD x 1 dd (plainVal (tget x.d 0 da ||| tget x.d 0 db).toInt))
def execXor (n dd da db : Nat) (s : State) : Host.Outcome State Fault Refusal :=
  onLane n s (fun x => macToD x 1 dd (plainVal (tget x.d 0 da ^^^ tget x.d 0 db).toInt))

/-- MVS to a special register (R118, R119): the low 16 bits for X, M and W, the word for MAXV and MAXI; the flags describe the
value as MVR would read it back. -/
def moveToSpecial (sc da : Nat) (x : Lane) : Lane :=
  let v := (tget x.d 0 da).toNat
  if sc < 8 then later (later x 1 3 (20 + sc) (v % 65536)) 1 3 48 (znv (plainVal ((v % 65536 : Nat) : Int)))
  else if sc < 16 then later (later x 1 3 (28 + (sc - 8)) (v % 65536)) 1 3 48 (znv (plainVal (signedOf 16 v)))
  else if sc < 24 then later (later x 1 3 (36 + (sc - 16)) (v % 65536)) 1 3 48 (znv (plainVal ((v % 65536 : Nat) : Int)))
  else if sc = 26 then later (later x 1 3 46 v) 1 3 48 (znv (plainVal (signedOf 32 v)))
  else if sc = 27 then later (later x 1 3 47 v) 1 3 48 (znv (plainVal (signedOf 32 v)))
  else x

/-- The value that MVR reads from a special register (R118). -/
def specialVal (sc : Nat) (x : Lane) : Int :=
  if sc < 8 then ((tget x.x 0 sc).toNat : Int)
  else if sc < 16 then (tget x.m 0 (sc - 8)).toInt
  else if sc < 24 then ((tget x.w 0 (sc - 16)).toNat : Int)
  else if sc < 26 then ((tget x.l 0 (sc - 24) : Nat) : Int)
  else if sc = 26 then x.maxv.toInt
  else if sc = 27 then x.maxi.toInt
  else if sc = 28 then (x.st.toNat : Int)
  else 0

def execMvs (n sc da : Nat) (s : State) : Host.Outcome State Fault Refusal := onLane n s (moveToSpecial sc da)
def execMvr (n dd sc : Nat) (s : State) : Host.Outcome State Fault Refusal :=
  onLane n s (fun x => macToD x 1 dd (plainVal (specialVal sc x)))

/-- A search result: MAXV and MAXI with the flags of MAXV (R119, R122). -/
def searchTo (x : Lane) (v i : Word) : Lane :=
  later (later (later x 1 3 46 v.toNat) 1 3 47 i.toNat) 1 3 48 (znv (plainVal v.toInt))

def execMax (n da : Nat) (s : State) : Host.Outcome State Fault Refusal :=
  onLane n s (fun x =>
    let r := searchStep (decide (x.maxv.toInt < dInt x da)) x.maxi (tget x.d 0 da) x.maxv
    searchTo x r.1 r.2)
def execMin (n da : Nat) (s : State) : Host.Outcome State Fault Refusal :=
  onLane n s (fun x =>
    let r := searchStep (decide (dInt x da < x.maxv.toInt)) x.maxi (tget x.d 0 da) x.maxv
    searchTo x r.1 r.2)
def execMxclr (n dir : Nat) (s : State) : Host.Outcome State Fault Refusal :=
  onLane n s (fun x => searchTo x (if dir = 0 then 0x80000000#32 else 0x7FFFFFFF#32) 0)

/-! ### Memory slots (R88, R90, R91, R120, R121) -/

/-- The smallest k with 2^k at least a length (R91). -/
def ceilLog2 (l : Nat) : Nat := if l ≤ 1 then 0 else Nat.log2 (l - 1) + 1

/-- The pointer after one modification, linear or circular (R91). -/
def postModify (xn wn : Nat) (m : Int) : Nat :=
  if wn = 0 then (((xn : Int) + m) % 65536).toNat
  else
    let l := if 16384 < wn then 16384 else wn
    let b := xn / 2 ^ ceilLog2 l * 2 ^ ceilLog2 l
    b + (((xn : Int) - b + m) % l).toNat

/-- The modification that a post-modify code names (R90). -/
def modAmount (x : Lane) (xn : Nat) : PMod → Int
  | .none => 0
  | .inc => 1
  | .dec => -1
  | .plusM => (tget x.m 0 xn).toInt

/-- The slot priority of a memory slot. -/
def slotPrio : MSlot → Nat
  | .ld0 => 1
  | .ls1 => 2

/-- Schedules the post-modification of Xn; no modification writes nothing (R90, R110). -/
def modifyX (x : Lane) (p : Nat) (xn : Nat) (m : PMod) : Lane :=
  if m = .none then x
  else later x 1 p (20 + xn) (postModify (tget x.x 0 xn).toNat (tget x.w 0 xn).toNat (modAmount x xn m))

/-- Counts an access outside the permitted memories at the running placement and raises the program event (R88). -/
def addressError (s : State) (n w : Nat) : State :=
  match (lane s n).prog with
  | some p => if areaOf p = 9 then raise (bump s (p + 0x10)) 0x9001 p w else s
  | none => s

/-- LD: the word at Xn into Dd after 2 cycles, and the post-modification (R108, R121). -/
def execLd (n : Nat) (slot : MSlot) (dd xn : Nat) (m : PMod) (s : State) : Host.Outcome State Fault Refusal :=
  if n < 256 then
    let w := (tget (lane s n).x 0 xn).toNat
    let q := loadWord s n w
    let s1 := if 0x6000 ≤ w then addressError q.2 n w else q.2
    .next (setLane s1 n (modifyX (later (lane q.2 n) 2 (slotPrio slot) dd q.1) (slotPrio slot) xn m))
  else .fault .noSuchLane

/-- ST: Da to the word at Xn, read by loads of later cycles, and the post-modification (R108, R121). -/
def execSt (n da xn : Nat) (m : PMod) (s : State) : Host.Outcome State Fault Refusal :=
  if n < 256 then
    let x := lane s n
    let w := (tget x.x 0 xn).toNat
    let s1 := if 0x4000 ≤ w then addressError s n w else s
    .next (setLane s1 n (modifyX { x with stores := x.stores ++ [(w, tget x.d 0 da)] } 2 xn m))
  else .fault .noSuchLane

/-- XMOD: the post-modification alone (R121). -/
def execXmod (n : Nat) (slot : MSlot) (xn : Nat) (m : PMod) (s : State) : Host.Outcome State Fault Refusal :=
  onLane n s (fun x => modifyX x (slotPrio slot) xn m)

/-! ### Control slot (R111 to R115) -/

/-- Ends loop bodies whose last bundle is at `pc`, innermost first: the next bundle and the loops still active (R113). -/
def endLoops (pc : Nat) : List LoopRt → Tab Nat → Nat × List LoopRt × Tab Nat
  | [], l => (pc + 1, [], l)
  | b :: r, l =>
    if b.stop = pc then
      let k := tget l 0 b.counter - 1
      if k = 0 then endLoops pc r (tput l 0 b.counter 0)
      else (b.start, b :: r, tput l 0 b.counter k)
    else (pc + 1, b :: r, l)

/-- Moves a lane past a bundle that does not branch. -/
def advance (x : Lane) : Lane :=
  let e := endLoops x.pc x.loops x.l
  { x with pc := e.1, loops := e.2.1, l := e.2.2 }

/-- Closes the present bundle of a lane after its control operation. -/
def closeWith (n : Nat) (extra : Nat) (s : State) (f : Lane → Lane) : Host.Outcome State Fault Refusal :=
  if n < 256 then .next (closeBundle (setLane s n (f (lane s n))) n extra) else .fault .noSuchLane

/-- A bundle whose control slot is a NOP: it does nothing but pass (R106). -/
def execNopBundle (n : Nat) (s : State) : Host.Outcome State Fault Refusal := closeWith n 0 s advance

/-- LSET: the counter takes the count after 1 cycle (R108, R111). -/
def execLset (n l count : Nat) (s : State) : Host.Outcome State Fault Refusal :=
  closeWith n 0 s (fun x => advance (later x 1 3 (44 + l) count))

/-- LOOP: a body over the next len bundles, skipped when the counter is 0 (R113). -/
def execLoop (n l len : Nat) (s : State) : Host.Outcome State Fault Refusal :=
  closeWith n 0 s (fun x =>
    if tget x.l 0 l = 0 then { x with pc := x.pc + 1 + len }
    else { x with pc := x.pc + 1, loops := { counter := l, start := x.pc + 1, stop := x.pc + len } :: x.loops })

/-- BLD: decrement, and branch back with 2 added cycles while the counter was above 1 (R114). -/
def execBld (n l disp : Nat) (s : State) : Host.Outcome State Fault Refusal :=
  if 1 < tget (lane s n).l 0 l then
    closeWith n 2 s (fun x => { x with l := tput x.l 0 l (tget x.l 0 l - 1), pc := x.pc - disp })
  else closeWith n 0 s (fun x => advance { x with l := tput x.l 0 l 0 })

end Sys2Proof.Machine
end

