-- ==== Sys2Proof/Machine/Bundle.lean ====
section
/-!
DEFINITION. Machine/Bundle.lean: the encodings of a bundle (R105, R106, R111, R116, R117, R120), a program image and its checks
(R123 to R125), and the bounds of placements (R126).
-/
namespace Sys2Proof.Machine

/-! ### Slots; `none` is a reserved encoding, `some none` a NOP -/

/-- The control slot (R111). -/
def decodeCtl (n c : Nat) : Option (Option Instr) :=
  let l := bit c 9
  let v := c % 512 + 1
  match c / 256 with
  | 0 => if c % 256 = 0 then some none else none
  | 1 => if c % 256 = 0 then some (some (.halt n)) else none
  | 4 => some (some (.lset n l v)) | 5 => some (some (.lset n l v))
  | 6 => some (some (.lset n l v)) | 7 => some (some (.lset n l v))
  | 8 => some (some (.loop n l v)) | 9 => some (some (.loop n l v))
  | 10 => some (some (.loop n l v)) | 11 => some (some (.loop n l v))
  | 12 => some (some (.bld n l v)) | 13 => some (some (.bld n l v))
  | 14 => some (some (.bld n l v)) | 15 => some (some (.bld n l v))
  | _ => none

/-- Product kinds by code (R117). -/
def kindOf : Nat → Option Kind
  | 0 => some .sc | 1 => some .sg | 2 => some .ss | 3 => some .cc | 4 => some .gg | _ => none

/-- Formats by code (R117). -/
def fmtOf : Nat → Option Fmt
  | 0 => some .q823 | 1 => some .q229 | 2 => some .q427 | _ => none

/-- An instruction whose unused low bits must be 0. -/
def ifZero (low : Nat) (i : Instr) : Option (Option Instr) := if low = 0 then some (some i) else none

/-- The MAC slot (R116, R117, R118). -/
def decodeMac (n m : Nat) : Option (Option Instr) :=
  let d := bits m 14 11
  let a := bits m 10 7
  let b := bits m 6 3
  let un := m % 2 ^ 7
  match m / 2 ^ 15 with
  | 0x00 => if m = 0 then some none else none
  | 0x01 => (kindOf (bits m 14 12)).bind (fun k => ifZero (m % 4) (.mac n k (bits m 11 10) (bits m 9 6) (bits m 5 2)))
  | 0x02 => (kindOf (bits m 14 12)).bind (fun k => ifZero (m % 4) (.msu n k (bits m 11 10) (bits m 9 6) (bits m 5 2)))
  | 0x03 => (kindOf (bits m 14 12)).bind (fun k => ifZero (m % 4) (.mpy n k (bits m 11 10) (bits m 9 6) (bits m 5 2)))
  | 0x04 => (fmtOf (bits m 8 7)).bind (fun f =>
      ifZero (m % 4) (.ext n d (bits m 10 9) f (if bit m 6 = 0 then .rn else .rd) (signedOf 4 (bits m 5 2))))
  | 0x05 => (fmtOf (bits m 8 7)).bind (fun f => ifZero un (.acc n (bits m 14 13) (bits m 12 9) f))
  | 0x06 => ifZero (m % 2 ^ 11) (.adda n (bits m 14 13) (bits m 12 11))
  | 0x07 => ifZero (m % 2 ^ 11) (.suba n (bits m 14 13) (bits m 12 11))
  | 0x08 => ifZero un (.sha n (bits m 14 13) (signedOf 6 (bits m 12 7)))
  | 0x09 => ifZero (m % 2 ^ 13) (.clr n (bits m 14 13))
  | 0x0A => ifZero (m % 8) (.add n d a b)
  | 0x0B => ifZero (m % 8) (.sub n d a b)
  | 0x0C => ifZero (m % 4) (.asr n d a (bits m 6 2))
  | 0x0D => ifZero (m % 4) (.asl n d a (bits m 6 2))
  | 0x0E => ifZero un (.abs n d a)
  | 0x0F => ifZero un (.neg n d a)
  | 0x10 => ifZero un (.mov n d a)
  | 0x11 => some (some (.mvi n d (signedOf 11 (m % 2 ^ 11))))
  | 0x12 =>
    let s := bits m 14 10
    if s = 24 ∨ s = 25 ∨ 28 ≤ s then none else ifZero (m % 2 ^ 6) (.mvs n s (bits m 9 6))
  | 0x13 =>
    let s := bits m 10 6
    if 29 ≤ s then none else ifZero (m % 2 ^ 6) (.mvr n d s)
  | 0x14 => ifZero (m % 2 ^ 11) (.max n d)
  | 0x15 => ifZero (m % 2 ^ 11) (.min n d)
  | 0x16 => ifZero (m % 2 ^ 14) (.mxclr n (bit m 14))
  | 0x17 => ifZero (m % 8) (.and n d a b)
  | 0x18 => ifZero (m % 8) (.or n d a b)
  | 0x19 => ifZero (m % 8) (.xor n d a b)
  | _ => none

/-- Post-modify codes (R120). -/
def pmodOf : Nat → PMod
  | 0 => .none | 1 => .inc | 2 => .dec | _ => .plusM

/-- The memory slots (R120). -/
def decodeMem (n : Nat) (slot : MSlot) (w : Nat) : Option (Option Instr) :=
  let d := bits w 13 10
  let x := bits w 9 7
  let p := pmodOf (bits w 6 5)
  let xm : Option (Option Instr) := if d = 0 then ifZero (w % 32) (.xmod n slot x p) else none
  match slot, w / 2 ^ 14 with
  | _, 0 => if w = 0 then some none else none
  | _, 1 => ifZero (w % 32) (.ld n slot d x p)
  | .ld0, 2 => xm
  | .ls1, 2 => ifZero (w % 32) (.st n d x p)
  | .ls1, _ => xm
  | .ld0, _ => none

/-- A decoded bundle: its control operation (none for a NOP) and its other slots. -/
structure BundleOps where
  ctl : Option Instr
  ops : List Instr
  deriving DecidableEq, Repr

/-- A whole bundle for lane `n`; none when a slot is reserved (R105, R106). -/
def decodeBundle (n w : Nat) : Option BundleOps :=
  match decodeCtl n (w / 2 ^ 52 % 2 ^ 12), decodeMac n (w / 2 ^ 32 % 2 ^ 20), decodeMem n .ld0 (w / 2 ^ 16 % 2 ^ 16),
        decodeMem n .ls1 (w % 2 ^ 16) with
  | some c, some m, some a, some b => some { ctl := c, ops := m.toList ++ a.toList ++ b.toList }
  | _, _, _, _ => none

/-! ### Images (R123) -/

/-- The header fields of an image that the engine reports or uses. -/
structure Image where
  bundles : Nat
  classes : Nat
  frames  : Nat
  bound   : Nat
  gather  : Nat
  scatter : Nat
  id      : Nat
  deriving DecidableEq, Repr

/-- Header word `i`. -/
def hword (b : Octets) (i : Nat) : Nat := ofLe (slice b (4 * i) 4)

/-- The fields of an image's header. -/
def imageOf (b : Octets) : Image :=
  { bundles := hword b 1 % 2 ^ 15, classes := bits (hword b 1) 18 16, frames := bits (hword b 1) 21 20,
    bound := hword b 2, gather := bits (hword b 3) 4 0, scatter := bits (hword b 3) 12 8, id := hword b 4 }

/-- Bundle `i` of an image. -/
def bundleAt (b : Octets) (i : Nat) : Nat := ofLe (slice b (32 + 8 * i) 8)

/-- Code 1 of R124: the header rules hold. -/
def headerOk (b : Octets) : Bool :=
  let w1 := hword b 1
  let w3 := hword b 3
  let h := imageOf b
  decide (32 ≤ b.length) && hword b 0 == 0x00080001 && decide (1 ≤ h.bundles) && decide (h.bundles ≤ 16384)
  && bits w1 31 22 == 0 && bit w1 19 == 0 && bit w1 15 == 0 && bits w3 31 13 == 0 && bits w3 7 5 == 0 && hword b 6 == 0
  && decide (h.gather ≤ 16) && decide (h.scatter ≤ 16) && b.length == 32 + 8 * h.bundles
  && crc32 (b.take 28 ++ b.drop 32) == hword b 7

/-- The control operations of an image by bundle; none where a slot is reserved. -/
def imageOps (b : Octets) : List (Option BundleOps) :=
  (List.range (imageOf b).bundles).map (fun i => decodeBundle 0 (bundleAt b i))

/-- The control operation of bundle `i`. -/
def ctlAt (ops : List (Option BundleOps)) (i : Nat) : Option Instr :=
  match ops[i]? with
  | some (some o) => o.ctl
  | _ => none

/-- The loops of an image: counter, LOOP bundle, last bundle of the body. -/
def loopsOf (ops : List (Option BundleOps)) : List (Nat × Nat × Nat) :=
  (List.range ops.length).filterMap (fun i =>
    match ctlAt ops i with
    | some (.loop _ l len) => some (l, i, i + len)
    | _ => none)

/-- Whether bundle `i` lies in the body of a loop. -/
def inBody (i : Nat) (b : Nat × Nat × Nat) : Bool := decide (b.2.1 < i) && decide (i ≤ b.2.2)

/-- Code 3 of R124: exactly one HALT, in the last bundle, outside every loop body. -/
def haltOk (ops : List (Option BundleOps)) : Bool :=
  let n := ops.length
  (List.range n).all (fun i =>
    match ctlAt ops i with
    | some (.halt _) => i + 1 == n && !(loopsOf ops).any (inBody i)
    | _ => i + 1 != n)

/-- Code 4 of R124: loop bodies end in the image, nest, use different counters, at most two deep. A loop is active by
the bundle's place inside its body (log entry 184). -/
def loopOk (ops : List (Option BundleOps)) : Bool :=
  let ls := loopsOf ops
  ls.all (fun a => decide (a.2.2 < ops.length)
    && (match ctlAt ops a.2.2 with | some (.loop ..) => false | some (.bld ..) => false | _ => true)
    && ls.all (fun b => !(inBody b.2.1 a) || (decide (b.2.2 ≤ a.2.2) && b.1 != a.1))
    && (List.range ops.length).all (fun i =>
        !(inBody i a) || (match ctlAt ops i with | some (.lset _ l _) => l != a.1 | _ => true)))
  && (List.range ops.length).all (fun i => decide ((ls.filter (inBody i)).length ≤ 2))

/-- Code 5 of R124: branches stay in the image and in their body, and name no active counter. -/
def branchOk (ops : List (Option BundleOps)) : Bool :=
  let ls := loopsOf ops
  (List.range ops.length).all (fun i =>
    match ctlAt ops i with
    | some (.bld _ l d) =>
      decide (d ≤ i) && ls.all (fun b => inBody i b == inBody (i - d) b && (!(inBody i b) || b.1 != l))
    | _ => true)

/-- The control state of the sequence of R124. -/
structure Seq where
  pc    : Nat
  l     : Tab Nat
  loops : List LoopRt
  count : Nat
  taken : Nat
  deriving DecidableEq, Repr

/-- One bundle of the sequence. -/
def seqStep (c : Option Instr) (q : Seq) : Seq :=
  let next := fun (l : Tab Nat) =>
    let e := endLoops q.pc q.loops l
    { q with pc := e.1, loops := e.2.1, l := e.2.2, count := q.count + 1 }
  match c with
  | some (.lset _ l n) => next (tput q.l 0 l n)
  | some (.loop _ l len) =>
    if tget q.l 0 l = 0 then { q with pc := q.pc + 1 + len, count := q.count + 1 }
    else { q with pc := q.pc + 1, loops := { counter := l, start := q.pc + 1, stop := q.pc + len } :: q.loops,
                  count := q.count + 1 }
  | some (.bld _ l d) =>
    if 1 < tget q.l 0 l then { q with pc := q.pc - d, l := tput q.l 0 l (tget q.l 0 l - 1), count := q.count + 1,
                                      taken := q.taken + 1 }
    else next (tput q.l 0 l 0)
  | _ => next q.l

/-- Runs the control sequence to its HALT; none beyond the fuel (R124, R125). -/
def seqRun (ops : List (Option BundleOps)) : Nat → Seq → Option Seq
  | 0, _ => none
  | f + 1, q =>
    match ctlAt ops q.pc with
    | some (.halt _) => some { q with count := q.count + 1 }
    | c => seqRun ops f (seqStep c q)

/-- The program bound P = 6 + E + 2 T + 2 that the engine computes (R125); none when the sequence exceeds 1,048,576 bundles. -/
def boundOf (ops : List (Option BundleOps)) : Option Nat :=
  (seqRun ops 1048576 { pc := 0, l := [], loops := [], count := 0, taken := 0 }).map (fun q => 6 + q.count + 2 * q.taken + 2)

/-- LOAD_STATUS of a written image: the lowest code whose rule it breaks, 0 when all hold (R124). -/
def loadStatus (b : Octets) : Nat :=
  if b.length = 0 then 0
  else if !headerOk b then 1
  else
    let ops := imageOps b
    if ops.any (fun o => o.isNone) then 2
    else if !haltOk ops then 3
    else if !loopOk ops then 4
    else if !branchOk ops then 5
    else if boundOf ops != some (imageOf b).bound then 6
    else if (imageOf b).classes = 0 ∨ (imageOf b).frames = 0 then 7
    else 0

/-! ### Bounds (R126) -/

/-- A gather or scatter of n entries: 48 + 16 n cycles, 0 for none (R93, R126). -/
def dmaCycles (n : Nat) : Nat := if n = 0 then 0 else 48 + 16 * n

/-- The placement bounds of one lane phase, in order: each program is (P, gather count, scatter count) (R126). -/
def placementBounds (ps : List (Nat × Nat × Nat)) : List Nat :=
  let n := ps.length
  let star := (ps.map (fun p => dmaCycles p.2.2)).foldl Nat.max 0
  (List.range n).map (fun i =>
    let p := (ps[i]?).getD (0, 0, 0)
    let q := (ps[i + 1]?).getD (0, 0, 0)
    let g := dmaCycles p.2.1
    if n = 1 then g + p.1 + star
    else if i = 0 then g + Nat.max p.1 (dmaCycles q.2.1)
    else if i + 1 = n then p.1 + star
    else Nat.max p.1 (dmaCycles q.2.1))

end Sys2Proof.Machine
end

