-- ==== Sys2Proof/Machine/Signals.lean ====
section
/-!
DEFINITION. Machine/Signals.lean: the signal pool (R18 to R23), the frame that a phase serves (R33, R34), crossfade weights
over a signal's fade (R19), and the outlet word (R177).
-/
namespace Sys2Proof.Machine

/-- The place of a phase in the order of a frame (R23). -/
def phaseOrder : Phase → Nat
  | .ingest => 0 | .strip => 1 | .cross => 2 | .bus => 3 | .matrix2 => 4 | .matrixP => 5 | .output => 6 | .egress => 7
  | .background => 8

/-- Whether a phase belongs to the back half (R33). -/
def backHalf : Phase → Bool
  | .output => true | .egress => true | _ => false

/-- The frame that a phase serves in period P (R33, R34); none before the first frame has been sampled. -/
def servedFrame (ph : Phase) (p : Nat) : Option Nat :=
  let k := if backHalf ph then 2 else 1
  if k ≤ p then some (p - k) else none

/-- The window of a phase in percent of the allowance (R34, R35). -/
def window (tight : Bool) (ph : Phase) : Nat × Nat :=
  match ph, tight with
  | .ingest, false => (0, 8) | .output, false => (0, 20) | .egress, false => (20, 40) | .strip, false => (20, 50)
  | .cross, false => (50, 70) | .bus, false => (70, 80) | .matrix2, false => (80, 84) | .matrixP, false => (84, 92)
  | .background, false => (92, 100)
  | .ingest, true => (0, 12) | .output, true => (0, 20) | .egress, true => (20, 45) | .strip, true => (20, 52)
  | .cross, true => (52, 60) | .bus, true => (60, 72) | .matrix2, true => (72, 75) | .matrixP, true => (75, 90)
  | .background, true => (90, 100)

/-- The frame allowance of a rate class and frame length in cycles (R2). -/
def allowance (tight : Bool) (cls : Nat) : Nat := (if tight then 25000 else 200000) / cls

/-- The allowance of a domain in force. -/
def domAllowance (s : State) (d : Nat) : Nat := allowance (frameLen s == 1) (rateClass (domRate s d))

/-- The lane budget of a phase (R37): the length of its window. -/
def laneBudget (tight : Bool) (cls : Nat) (ph : Phase) : Nat :=
  allowance tight cls * ((window tight ph).2 - (window tight ph).1) / 100

/-- The phase in which the producer of a signal runs (R18, R24); a user signal or effect return is written in the phase of its
writer, which the caller names. -/
def producerPhase (x : Nat) (writer : Phase) : Phase :=
  if x < 0xE00 then .ingest
  else if x < 0x1200 then .strip
  else if x < 0x1380 then .output
  else if 0x1400 ≤ x ∧ x < 0x1800 then .ingest
  else writer

/-- Whether a signal is an effect return or a user signal, whose writer the configuration names (R18, R21). -/
def written (x : Nat) : Bool := (decide (0x1380 ≤ x) && decide (x < 0x1400)) || decide (0x1800 ≤ x)

/-- A signal's frames. -/
def sigOf (s : State) (x : Nat) : Sig := tget s.audio.sig ⟨[], none⟩ x

/-- Puts the samples of frame `f` of a signal into the pool; the newest 4 frames stay (R23). -/
def putSig (s : State) (x f : Nat) (v : List Int) : State :=
  let g := sigOf s x
  let h : Sig := { g with frames := ((f, v) :: g.frames.filter (fun e => e.1 != f)).take 4 }
  { s with audio := { s.audio with sig := tput s.audio.sig ⟨[], none⟩ x h } }

/-- The silence of one frame. -/
def silence (n : Nat) : List Int := List.replicate n 0

/-- The samples of frame `f` of a signal: its fade after a fault of its producer, its written frame, or silence (R19). -/
def sigFrame (s : State) (x f : Nat) : List Int :=
  let n := frameLen s
  let g := sigOf s x
  match g.fade with
  | some (f0, last) =>
    if f < f0 then (match g.frames.find? (fun e => e.1 == f) with | some e => e.2 | none => silence n)
    else (List.range n).map (fun i =>
      let k := (f - f0) * n + i
      if k < 64 then weigh (fxOne - fadeIn k 64) last else 0)
  | none => match g.frames.find? (fun e => e.1 == f) with | some e => e.2 | none => silence n

/-- What a consumer in phase `ph` of frame `f` receives of a signal whose writer runs in `w`: frame `f` when the producer runs
earlier, else the frame before (R23). -/
def readSig (s : State) (x f : Nat) (ph w : Phase) : List Int :=
  if phaseOrder (producerPhase x w) < phaseOrder ph then sigFrame s x f
  else if f = 0 then silence (frameLen s) else sigFrame s x (f - 1)

/-- Starts the fade of a signal whose producer entered FAULTED, from the frame `f` on (R19). -/
def fadeSig (s : State) (x f : Nat) : State :=
  let g := sigOf s x
  let last := match g.frames with | e :: _ => (e.2.getLast?).getD 0 | [] => 0
  let h : Sig := { g with fade := some (f, last) }
  { s with audio := { s.audio with sig := tput s.audio.sig ⟨[], none⟩ x h } }

/-- Ends the fade of a signal and drops its frames: its producer starts again or is OFF. -/
def clearSig (s : State) (x : Nat) : State :=
  { s with audio := { s.audio with sig := tput s.audio.sig ⟨[], none⟩ x ⟨[], none⟩ } }

/-- An internal slot of the exchange memory (R159): 0 to 255 bus sums, 256 bus taps, 512 matrix sums, 640 matrix taps,
768 limiter inputs. -/
def slotFrame (s : State) (k f : Nat) : List Int :=
  match (tget s.audio.slots ⟨[], none⟩ k).frames.find? (fun e => e.1 == f) with
  | some e => e.2
  | none => silence (frameLen s)

/-- Writes an internal slot. -/
def putSlot (s : State) (k f : Nat) (v : List Int) : State :=
  let g : Sig := tget s.audio.slots ⟨[], none⟩ k
  let h : Sig := { g with frames := ((f, v) :: g.frames.filter (fun e => e.1 != f)).take 4 }
  { s with audio := { s.audio with slots := tput s.audio.slots ⟨[], none⟩ k h } }

/-- Sample `i` of a frame. -/
def smp (v : List Int) (i : Nat) : Int := (v[i]?).getD 0

/-- The 24-bit outlet value of a Q8.23 sample (R177). -/
def out24 (x : Int) : Int := satTo 24 x
/-- The 16-bit outlet value of a Q8.23 sample: rounded to 2^-15 by RN, then saturated (R177). -/
def out16 (x : Int) : Int := satTo 16 (shiftNearest x 8)

/-- The tile of the unit that writes a strip, bus or matrix output. -/
def sigTile (s : State) (x : Nat) : Option Nat :=
  if 0xE00 ≤ x ∧ x < 0x1200 then some (stripTile s (x - 0xE00))
  else if 0x1200 ≤ x ∧ x < 0x1300 then some (busTile s (x - 0x1200))
  else if 0x1300 ≤ x ∧ x < 0x1380 then some (matTile s (x - 0x1300))
  else none

/-- The signals that a tile's strips, buses and matrices produce. -/
def tileSignals (s : State) (t : Nat) : List Nat :=
  let l := lim s
  (List.range (l.strips / 16)).map (fun j => 0xE00 + t * (l.strips / 16) + j)
  ++ (List.range (l.buses / 16)).map (fun j => 0x1200 + t * (l.buses / 16) + j)
  ++ (List.range (l.mats / 16)).map (fun j => 0x1300 + t * (l.mats / 16) + j)

end Sys2Proof.Machine
end

