-- ==== Sys2Proof/Machine/Programs.lean ====
section
/-!
DEFINITION. Machine/Programs.lean: placements (R126, R131), the sequencing of programs on a lane (R93), prologue, bundles and
epilogue (R81, R107, R115), gather and scatter (R92), and the stop of R49 and R128.
-/
namespace Sys2Proof.Machine

/-! ### Placements in force -/

/-- Whether an instance of area 9 is a placement. -/
def isPlacement (p : Obj) : Bool := areaOf p == 9 && decide (0x1000 ≤ instOf p) && decide (instOf p < 0x2000)

/-- The tile of a placement (R131). -/
def placeTile (p : Obj) : Nat := (instOf p - 0x1000) / 0x100
/-- The number of a placement in its tile; 0x00 to 0x3F are the strip slots (R131). -/
def placeNo (p : Obj) : Nat := (instOf p - 0x1000) % 0x100
/-- Whether a placement is a strip-slot placement. -/
def isSlotPlace (p : Obj) : Bool := decide (placeNo p < 0x40)

/-- The lane, 16 t + l, of a placement; slot j runs on lane j mod 16 (R137). -/
def placeLane (s : State) (p : Obj) : Nat :=
  16 * placeTile p + (if isSlotPlace p then placeNo p % 16 else numF s (p + 2))

/-- The lane phase of a code of PHASE (R131). -/
def phaseOfCode : Nat → Phase
  | 0 => .output | 1 => .strip | 2 => .bus | _ => .matrixP

/-- The lane phase of a placement. -/
def placePhase (s : State) (p : Obj) : Phase := if isSlotPlace p then .strip else phaseOfCode (numF s (p + 3))

/-- ORDER of a placement; the engine orders strip slots by slot (R137). -/
def placeOrder (s : State) (p : Obj) : Nat := if isSlotPlace p then placeNo p / 16 else numF s (p + 4)

/-- The bytes of an image instance: instances 0xF0 to 0xFF hold the strip library (R130, log entry 96). -/
def imageBytes (s : State) (i : Nat) : Octets :=
  if i < 0xF0 then valOctets (forceVal s (ob 9 i 0)) else (Config.libraryImage i).map BitVec.toNat

/-- The image bytes that an enabled placement names. -/
def placeImage (s : State) (p : Obj) : Octets := imageBytes s (numF s (p + 1))

/-- Whether an enabled placement is placed: not DROPPED by an adaptation (R71), with no suspended entry (R72). -/
def isPlaced (s : State) (p : Obj) : Bool :=
  isOn s p && numF s (p + 0x00B) != 2 && !(s.mode.suspended.contains (p + 9)) && !(s.mode.suspended.contains (p + 0x00A))

/-- The placed placements in force, in ascending instance number. -/
def enabledPlaces (s : State) : List Obj :=
  ((s.dict.force.filter (fun e => isPlacement e.1 && memOf e.1 == 0 && e.2 == .num 1)).map (·.1)).filter (isPlaced s)

/-- Puts a placement after those of its order and below (R126). -/
def insertPlace (s : State) (p : Obj) : List Obj → List Obj
  | [] => [p]
  | q :: r => if placeOrder s p < placeOrder s q then p :: q :: r else q :: insertPlace s p r

/-- Members in force that differ from their defaults and meet a test. -/
def listed (c : State) (p : Obj → Bool) : List Obj := (c.dict.force.map (·.1)).filter p

/-- Whether ENABLE of a tile is TRUE. -/
def tileEnabled (c : State) (t : Nat) : Bool := isOn c (ob 9 (0x100 + t) 0)

/-- The free placements in force of one tile and lane phase, in ascending instance number. -/
def placesOf (s : State) (t : Nat) (ph : Phase) : List Obj :=
  (enabledPlaces s).filter (fun p => !(isSlotPlace p) && placeTile p == t && decide (placePhase s p = ph))

/-- Bank word and signal of each entry of a gather or scatter list (R132). -/
def listEntries (b : Octets) : List (Nat × Nat) := (leWords b).map (fun w => (bits w 29 16, bits w 12 0))

/-- Whether a strip sends its insert or direct out to a user signal, or a bridge channel is enabled: the switch of the writer and the
member that names the signal (R21, R68, R148). -/
def writerSwitch (o : Obj) : Option Obj :=
  if areaOf o = 5 ∧ instOf o < 0x400 ∧ (memOf o = 0x200 ∨ memOf o = 0x400) then some (o + 1)
  else if areaOf o = 2 ∧ 0x100 ≤ instOf o ∧ memOf o = 0 then some (o + 2)
  else none

/-- The switches that are TRUE in force, with the signal that each writes. -/
def fixedWriters (s : State) : List (Obj × Nat) :=
  s.dict.force.filterMap (fun e =>
    if e.2 == .num 1 then
      (match writerSwitch e.1 with
       | some o => some (e.1, numF s o)
       | none => none)
    else none)

/-- Whether the tile of a writing strip or placement is enabled: a unit of a disabled tile writes no signal (R466). -/
def writerOn (s : State) (o : Obj) : Bool :=
  match areaOf o with
  | 5 => decide (instOf o < (lim s).strips) && tileEnabled s (stripTile s (instOf o))
  | 9 => tileEnabled s (placeTile o)
  | _ => true

/-- The phase in which a user signal or effect return is written: its placement's, STRIP for a strip, INGEST for a bridge channel; none when
nothing writes it (R21, R466). -/
def writerOf (s : State) (x : Nat) : Option Phase :=
  match (enabledPlaces s).find? (fun p =>
      !(isSlotPlace p) && writerOn s p && (listEntries (valOctets (forceVal s (p + 0x00A)))).any (fun e => e.2 == x)) with
  | some p => some (placePhase s p)
  | none =>
    match (fixedWriters s).find? (fun e => e.2 == x && writerOn s e.1) with
    | some e => some (if areaOf e.1 = 5 then .strip else .ingest)
    | none => none

/-- What a unit of phase `ph` serving frame `f` receives of signal `x` (R23). Every writer of a user signal or effect return has run before the
back half of its frame, whatever the tables in force say by then; in the front half such a signal without a writer is silence, or the fade of one
that has faulted (R19). -/
def receive (s : State) (x f : Nat) (ph : Phase) : List Int :=
  if !(written x) then readSig s x f ph .background
  else if backHalf ph then sigFrame s x f
  else match writerOf s x with
    | some w => readSig s x f ph w
    | none => if (sigOf s x).fade.isSome then sigFrame s x f else silence (frameLen s)

/-! ### The programs of a lane in a lane phase (R126, R137, R151, R158) -/

/-- The lane of the k-th output processor of a tile (R158, R178). -/
def procLane (c : State) (o : Obj) (k : Nat) : Nat :=
  if numF c (o + 0x013) = 0xFF then k % 16 else numF c (o + 0x013)

/-- The output processors of a tile in order, buses first. -/
def tileProcs (c : State) (t : Nat) : List Obj :=
  let nb := (lim c).buses / 16
  let nm := (lim c).mats / 16
  (List.range nb).map (fun j => ob 7 (0x200 + nb * t + j) 0) ++ (List.range nm).map (fun j => ob 7 (0x300 + nm * t + j) 0)

/-- The output processors on a lane. -/
def laneProcs (c : State) (t l : Nat) : List Obj :=
  let ps := tileProcs c t
  ((List.range ps.length).filter (fun k => procLane c ((ps[k]?).getD 0) k == l)).map (fun k => (ps[k]?).getD 0)

/-- The units of a tile on a lane, of `n` units of the tile from instance `base` on: unit j runs on lane j mod 16. -/
def laneUnits (a base n t l : Nat) : List Obj :=
  ((List.range n).filter (fun j => j % 16 == l)).map (fun j => ob a (base + n * t + j) 0)

/-- The system placements of a lane in a phase, in ascending number (R158). -/
def systemProgs (c : State) (t l : Nat) (ph : Phase) : List Obj :=
  match ph with
  | .output => laneProcs c t l
  | .bus => laneUnits 7 0 ((lim c).buses / 16) t l
  | .matrixP => laneUnits 7 0x100 ((lim c).mats / 16) t l
  | _ => []

/-- The strip-slot placements of a lane: slot j runs on lane j mod 16 (R137). -/
def slotPlaces (c : State) (t l : Nat) : List Obj :=
  ((List.range ((lim c).strips / 16)).filter (fun j => j % 16 == l)).map (fun j => ob 9 (0x1000 + 0x100 * t + j) 0)

/-- Members of an automix group on enabled tiles, in ascending strip (log entry 216). -/
def automixMembers (c : State) (g : Nat) : List Nat :=
  ((listed c (fun o => areaOf o == 5 && memOf o == 0x500 && numF c o == g)).filter (writerOn c)).map instOf

/-- Tiles that an enabled automix group uses in BUS, and the tile that decides (R151). -/
def automixTiles (c : State) : List Nat × List Nat :=
  let gs := (List.range 8).filter (fun g => isOn c (ob 5 (0x401 + g) 0) && !(automixMembers c (g + 1)).isEmpty)
  (sortUp (gs.flatMap (fun g => (automixMembers c (g + 1)).map (stripTile c))),
   sortUp (gs.map (fun g => stripTile c ((automixMembers c (g + 1)).headD 0))))

/-- The placements of a tile that automix groups use in a phase, on lane 15. -/
def automixPlaces (c : State) (t : Nat) (ph : Phase) : List Obj :=
  match ph with
  | .bus => if (automixTiles c).1.contains t then [ob 9 (0x1000 + 0x100 * t + 0xFF) 0] else []
  | .matrixP => if (automixTiles c).2.contains t then [ob 9 (0x1000 + 0x100 * t + 0xFE) 0] else []
  | _ => []

/-- Whether a placement is one that an automix group uses. -/
def isAutomix (c : State) (p : Obj) : Bool :=
  isPlacement p && ((automixPlaces c (placeTile p) .bus).contains p || (automixPlaces c (placeTile p) .matrixP).contains p)

/-- The programs of a lane in a lane phase in the order in which they run: the system placements, then those of area 9 by ORDER and
instance number (R126, R158); none on a disabled tile (R466). -/
def laneSequence (s : State) (n : Nat) (ph : Phase) : List Obj :=
  let t := n / 16
  let l := n % 16
  if !(tileEnabled s t) then []
  else systemProgs s t l ph
    ++ ((if ph = .strip then slotPlaces s t l else []) ++ (placesOf s t ph).filter (fun p => placeLane s p == n)
        ++ (if l = 15 then automixPlaces s t ph else [])).foldl (fun r p => insertPlace s p r) []

/-- Whether a program runs bundles of instruction RAM under an area-9 placement of its own. -/
def isFree (s : State) (p : Obj) : Bool := isPlacement p && !(isSlotPlace p) && !(isAutomix s p)

/-- Whether a customer image runs in a strip slot in force: ENABLE, an image of 0x00 to 0xEF that holds one (R131). -/
def slotImageOn (s : State) (p : Obj) : Bool :=
  isOn s p && numF s (p + 0x00B) != 2 && decide (numF s (p + 1) < 0xF0) && !(placeImage s p).isEmpty

/-- The rate class of the domain of a unit. -/
def unitClass (c : State) (o : Obj) : Nat := rateClass (domRate c (ownerDom c o))

/-- T and k of R176. -/
def firSize (c : State) (o : Obj) : Nat × Nat :=
  let t := if isOn c (o + 0x010) then numF c (o + 0x011) else 0
  (t, if t ≤ 2048 / unitClass c o then 2 else 1)

/-- The gather and scatter entries of a program (R92, R137, R158, R176; log entry 11 for the automixer's). -/
def listCounts (c : State) (p : Obj) : Nat × Nat :=
  if areaOf p = 7 then (1, 1)
  else if isSlotPlace p then
    let u := ob 5 ((lim c).strips / 16 * placeTile p + placeNo p) 0
    let ins := if isOn c (u + 0x200) then 1 else 0
    (2 + ins, 1 + ins + (if isOn c (u + 0x400) then 1 else 0))
  else if isAutomix c p then
    let k := if placeNo p = 0xFF then 0 else 1
    ((Config.automixGather k).toNat, (Config.automixScatter k).toNat)
  else ((listEntries (valOctets (forceVal c (p + 9)))).length, (listEntries (valOctets (forceVal c (p + 0x00A)))).length)

/-- The program bound P of a program (R125, R138, R151, R170, R176). -/
def progBound (c : State) (p : Obj) : Nat :=
  let S := frameLen c
  if areaOf p = 7 then
    (if instOf p < 0x200 then (if S = 1 then 200 else 1120)
     else 32 + S * ((firSize c p).2 * (firSize c p).1 + 6))
  else if isSlotPlace p then
    (if slotImageOn c p then 2 * (imageOf (placeImage c p)).bound + (if S = 1 then 100 else 560)
     else if S = 1 then 330 else 1840)
  else if isAutomix c p then (Config.automixBound (if placeNo p = 0xFF then 0 else 1)).toNat
  else (imageOf (placeImage c p)).bound

/-! ### Instruction RAM (R76, R77, R354) -/

/-- The crossbar address of a cluster's instruction RAM. -/
def iramBase (k : Nat) : Nat := 0x04060000 + 0x80000 * k

/-- The images that a cluster's instruction RAM holds. -/
def residents (s : State) (k : Nat) : List Resident := tget s.iram [] k

/-- Changes what a cluster's instruction RAM holds. -/
def setResidents (s : State) (k : Nat) (l : List Resident) : State := { s with iram := tput s.iram [] k l }

/-- Inserts a span by its start. -/
def insertSpan (x : Nat × Nat) : List (Nat × Nat) → List (Nat × Nat)
  | [] => [x]
  | y :: r => if x.1 < y.1 then x :: y :: r else y :: insertSpan x r

/-- The spans of the 16,384 bundles that rising spans leave free, from bundle `a` on. -/
def gapsFrom (a : Nat) : List (Nat × Nat) → List (Nat × Nat)
  | [] => if a < 16384 then [(a, 16384 - a)] else []
  | x :: r => (if a < x.1 then [(a, x.1 - a)] else []) ++ gapsFrom (x.1 + x.2) r

/-- The first `n` bundles of some spans. -/
def takeSpans (n : Nat) : List (Nat × Nat) → List (Nat × Nat)
  | [] => []
  | x :: r => if n = 0 then [] else if n ≤ x.2 then [(x.1, n)] else x :: takeSpans (n - x.2) r

/-- The bundle of instruction RAM that holds bundle `i` of an image. -/
def spanAt : List (Nat × Nat) → Nat → Option Nat
  | [], _ => none
  | x :: r, i => if i < x.2 then some (x.1 + i) else spanAt r (i - x.2)

/-- Writes the bundles of an image into the spans that hold it. -/
def putBundles (s : State) (k : Nat) (b : Octets) (spans : List (Nat × Nat)) : State :=
  (List.range (imageOf b).bundles).foldl (fun t i =>
    match spanAt spans i with
    | some a => putBytes t (iramBase k + 8 * a) (slice b (32 + 8 * i) 8)
    | none => t) s

/-- Loads an image into a cluster unless it is resident, into the lowest bundles that no image holds (R77, log entry 167). -/
def loadImage (s : State) (k : Nat) (b : Octets) : State :=
  if b.isEmpty || (residents s k).any (fun r => r.image == b) then s
  else
    let used := ((residents s k).flatMap (·.spans)).foldr insertSpan []
    let spans := takeSpans (imageOf b).bundles (gapsFrom 0 used)
    setResidents (putBundles s k b spans) k (residents s k ++ [{ image := b, spans := spans }])

/-- Frees the images of a cluster that are needed no longer. -/
def freeImages (s : State) (k : Nat) (need : List Octets) : State :=
  setResidents s k ((residents s k).filter (fun r => need.contains r.image))

/-- The bundle that a lane fetches at its pc while it runs an image. -/
def fetchBundle (s : State) (n : Nat) (b : Octets) : Nat :=
  match (residents s (n / 4)).find? (fun r => r.image == b) with
  | some r =>
    (match spanAt r.spans (lane s n).pc with
     | some a => wordAt s (iramBase (n / 4) + 8 * a) + 2 ^ 32 * wordAt s (iramBase (n / 4) + 8 * a + 4)
     | none => 0)
  | none => 0

/-! ### Gather and scatter (R92, R93) -/

/-- Writes words into a lane bank from an address upwards. -/
def putLaneWords (s : State) (n w : Nat) : List Nat → State
  | [] => s
  | v :: r => putLaneWords (putLaneWord s n w v) n (w + 1) r

/-- The frame that a lane phase of a tile serves in the present period. -/
def tileFrame (s : State) (t : Nat) (ph : Phase) : Option Nat := servedFrame ph (frameOf s (tileDom s t))

/-- The bank words that the gather of a free placement writes: one frame of each signal. -/
def gatherWords (s : State) (p : Obj) : List (Nat × Nat) :=
  match tileFrame s (placeTile p) (placePhase s p) with
  | some f => (listEntries (valOctets (forceVal s (p + 9)))).flatMap (fun e =>
      let v := receive s e.2 f (placePhase s p)
      (List.range v.length).map (fun i => (e.1 + i, wrapTo 32 (smp v i))))
  | none => []

/-- The gather under way on a lane has completed: the words that it had still to write are in the bank. -/
def arriveDma (s : State) (n : Nat) : State :=
  let x := lane s n
  let s1 := x.dma.foldl (fun t e => putLaneWord t n e.word e.value) s
  setLane s1 n { lane s1 n with dma := [], gathered := none }

/-- The gather of a program is issued: it completes within 48 + 16 n cycles, and no rule says when it writes each word (log entry 53). -/
def issueGather (s : State) (n : Nat) (p : Obj) : State :=
  let g := (listCounts s p).1
  let q := if g = 0 then (0, s) else drawUpTo s (48 + 16 * g)
  let ws := if isFree s p then gatherWords s p else []
  let x := lane q.2 n
  setLane q.2 n { x with gathered := some p, ready := x.spent + q.1, dma := ws.map (fun e => { word := e.1, value := e.2, seen := false }) }

/-- The words of a gather under way whose time is over are in the bank (R93). -/
def landDma (s : State) (n : Nat) : State :=
  let x := lane s n
  if x.ready ≤ x.spent then
    (let s1 := x.dma.foldl (fun t e => putLaneWord t n e.word e.value) s
     setLane s1 n { lane s1 n with dma := [] })
  else s

/-- The scatter of a placement for frame `f`: bank words into the signal pool, all in the cycle of its issue (log entry 53). -/
def scatter (s : State) (p : Obj) (f : Nat) : State :=
  (listEntries (valOctets (forceVal s (p + 0x00A)))).foldl
    (fun t e => putSig t e.2 f ((List.range (frameLen t)).map (fun i => sample (laneWord t (placeLane t p) (e.1 + i))))) s

/-! ### Prologue, bundles, epilogue -/

/-- A register of the context block: word `k + n / 2`, low half for even `n` (R80). -/
def ctxHalf (s : State) (n c k r : Nat) : Half :=
  BitVec.ofNat 16 (laneWord s n (c + k + r / 2) / (if r % 2 = 0 then 1 else 65536))

/-- The eight registers of one kind from the context block. -/
def ctxRegs (s : State) (n c k : Nat) : Tab Half :=
  (List.range 8).foldl (fun t r => tput t 0 r (ctxHalf s n c k r)) []

/-- The prologue: every register at its reset value, X, M and W from the context block at `c`, 6 cycles (R78, R81); the gather under way on the lane
goes on. A program of the
engine has no published block and starts with them at 0 (log entry 166). -/
def prologue (s : State) (n : Nat) (p : Obj) (c : Option Nat) : State :=
  let x := lane s n
  let y : Lane := match c with
    | some w => { Lane.idle with x := ctxRegs s n w 0, m := ctxRegs s n w 4, w := ctxRegs s n w 8 }
    | none => Lane.idle
  setLane s n { y with prog := some p, phase := x.phase, cycle := x.cycle + 6, spent := x.spent + 6, begun := x.cycle, todo := x.todo,
                       gathered := x.gathered, ready := x.ready, dma := x.dma }

/-- The state that a lane command answers; the state itself where it stops. -/
def outState (s : State) : Host.Outcome State Fault Refusal → State
  | .next t => t
  | _ => s

/-- The effect of one slot's operation, other than HALT. -/
def slotEffect (i : Instr) (s : State) : State :=
  outState s (match i with
  | .mac n k an da db => execMac n k an da db s
  | .msu n k an da db => execMsu n k an da db s
  | .mpy n k an da db => execMpy n k an da db s
  | .ext n dd an f r sh => execExt n dd an f r sh s
  | .acc n an da f => execAcc n an da f s
  | .adda n an am => execAdda n an am s
  | .suba n an am => execSuba n an am s
  | .sha n an imm => execSha n an imm s
  | .clr n an => execClr n an s
  | .add n dd da db => execAdd n dd da db s
  | .sub n dd da db => execSub n dd da db s
  | .asr n dd da imm => execAsr n dd da imm s
  | .asl n dd da imm => execAsl n dd da imm s
  | .abs n dd da => execAbs n dd da s
  | .neg n dd da => execNeg n dd da s
  | .mov n dd da => execMov n dd da s
  | .mvi n dd imm => execMvi n dd imm s
  | .mvs n sc da => execMvs n sc da s
  | .mvr n dd sc => execMvr n dd sc s
  | .max n da => execMax n da s
  | .min n da => execMin n da s
  | .mxclr n dir => execMxclr n dir s
  | .and n dd da db => execAnd n dd da db s
  | .or n dd da db => execOr n dd da db s
  | .xor n dd da db => execXor n dd da db s
  | .ld n sl dd xn m => execLd n sl dd xn m s
  | .st n da xn m => execSt n da xn m s
  | .xmod n sl xn m => execXmod n sl xn m s
  | .lset n l c => execLset n l c s
  | .loop n l len => execLoop n l len s
  | .bld n l d => execBld n l d s
  | _ => .next s)

/-- The saturation counter of a program's placement object, strip, unit or output processor (R79). -/
def satCounter (p : Obj) : Option Obj :=
  if isPlacement p then some (p + 0x00F)
  else if areaOf p = 5 ∧ instOf p < 0x400 then some (p + 0x600)
  else if areaOf p = 7 then (if instOf p < 0x200 then some (p + 0x602) else some (p + 0x601))
  else none

/-- The context block's word of a program that has one. -/
def ctxOf (s : State) (p : Obj) : Option Nat := if isPlacement p then some (numF s (p + 5)) else none

/-- Stores X0 to X7 into words 0 to 3 of the context block at `c` (R81). -/
def storeX (s : State) (n c : Nat) : State :=
  let x := lane s n
  putLaneWords s n c ((List.range 4).map (fun k =>
    (tget x.x 0 (2 * k)).toNat + 65536 * (tget x.x 0 (2 * k + 1)).toNat))

/-- The 2 cycles after HALT: pending results become visible, X0 to X7 go back to the context block at `c` (R81, R115). -/
def epilogue (s : State) (n : Nat) (c : Option Nat) : State :=
  let x := lane s n
  let s1 := setLane s n (settle { x with cycle := x.cycle + 2, spent := x.spent + 2 })
  match c with
  | some w => storeX s1 n w
  | none => s1

/-- Adds 1 to the saturation counter if SAT is set, records the cycles, and issues the scatter (R79, R93). -/
def finishProgram (s : State) (n : Nat) (p : Obj) : State :=
  let x := lane s n
  let s1 := if satFlag x.st then (match satCounter p with | some o => bump s o | none => s) else s
  let s2 := if isPlacement p then setN s1 (p + 0x00E) (x.cycle - x.begun) else s1
  let s3 := setLane s2 n { lane s2 n with prog := none, todo := x.todo.filter (fun q => q != p) }
  if isFree s p then
    (match tileFrame s3 (n / 16) (placePhase s3 p) with
     | some f => scatter (landDma s3 n) p f
     | none => s3)
  else s3

/-- HALT: the bundle closes, the epilogue runs, and the program's scatter is issued (R93, R115). -/
def execHalt (n : Nat) (s : State) : Host.Outcome State Fault Refusal :=
  if n < 256 then
    let s1 := closeBundle s n 0
    match (lane s1 n).prog with
    | some p => .next (finishProgram (epilogue s1 n (ctxOf s1 p)) n p)
    | none => .next (epilogue s1 n none)
  else .fault .noSuchLane

/-- The programs of a lane phase that follow a program. -/
def nextProgram (x : Lane) (p : Obj) : Option Obj := ((x.todo.dropWhile (fun q => q != p)).drop 1).head?

/-- A program is about to start: its gather has completed, at once where none was issued before (R93). -/
def awaitGather (s : State) (n : Nat) (p : Obj) : State :=
  let x := lane s n
  if x.gathered = some p then arriveDma (setLane s n { x with spent := Nat.max x.spent x.ready }) n
  else
    let s1 := arriveDma s n
    if isFree s p then (gatherWords s1 p).foldl (fun t e => putLaneWord t n e.1 e.2) s1 else s1

/-- PROGRAM_START: the program's own gather is complete; the gather of the next program is issued, and registers take their reset values and the
context block (R80, R81, R93). On a lane that R49 has stopped no program starts before the next window. -/
def startProgram (s : State) (n : Nat) (p : Obj) : State :=
  if (lane s n).stopped then s
  else
    let s1 := awaitGather s n p
    let s2 := match nextProgram (lane s1 n) p with
      | some q => issueGather s1 n q
      | none => s1
    prologue s2 n p (ctxOf s2 p)

def execProgramStart (n : Nat) (p : Obj) (s : State) : Host.Outcome State Fault Refusal :=
  if n < 256 then .next (startProgram s n p) else .fault .noSuchLane

/-! ### Whole programs, as a phase window runs them -/

/-- Runs the operations of one bundle other than its HALT. -/
def runOps (s : State) (ops : List Instr) : State := ops.foldl (fun t i => slotEffect i t) s

/-- Runs bundles of an image from the lane's pc until HALT, or until the lane has spent `stop` cycles; in the HALT bundle the other slots
have run. The answer says whether HALT was reached. -/
def runBundles (b : Octets) (n stop : Nat) : Nat → State → State × Bool
  | 0, s => (s, false)
  | fuel + 1, s =>
    if stop ≤ (lane s n).spent then (s, false)
    else
      match decodeBundle n (fetchBundle s n b) with
      | some q =>
        let s1 := runOps s q.ops
        (match q.ctl with
         | some (.halt _) => (s1, true)
         | some c => runBundles b n stop fuel (slotEffect c s1)
         | none => runBundles b n stop fuel (outState s1 (execNopBundle n s1)))
      | none => (s, false)

/-- A lane whose program has not ended when its count reaches the budget (R49). -/
def overrun (s : State) (n budget : Nat) : State := setLane s n { lane s n with spent := Nat.max (lane s n).spent budget }

/-- Runs one free placement from its gather to its scatter. One that the lane's budget ends leaves the lane in it (R49, R93). -/
def runPlacement (s : State) (p : Obj) (budget : Nat) (late : Bool) : State :=
  let n := placeLane s p
  let r := runBundles (placeImage s p) n budget budget (startProgram s n p)
  if r.2 && !late then outState r.1 (execHalt n r.1) else overrun r.1 n budget

/-- Opens a lane phase on a lane: its cycle counter starts at 0, its programs are to run, and the gather of the first is issued (R49, R93). -/
def openLane (s : State) (n : Nat) (ph : Phase) : State :=
  let seq := laneSequence s n ph
  let s1 := setLane s n { lane s n with phase := some ph, spent := 0, prog := none, todo := seq, gathered := none, ready := 0, dma := [],
                                        stopped := false }
  match seq with
  | p :: _ => issueGather s1 n p
  | [] => s1

/-- Runs one of the engine's own programs, whose work stands elsewhere: it takes P cycles. One that the lane's budget ends leaves the lane
in it. -/
def passProgram (s : State) (n : Nat) (p : Obj) (budget : Nat) (late : Bool) : State :=
  let s1 := startProgram s n p
  let x := lane s1 n
  let k := progBound s1 p - 6
  if x.stopped then s1
  else if late || decide (budget < x.spent + k) then overrun s1 n budget
  else
    let s2 := setLane s1 n { x with cycle := x.cycle + k, spent := x.spent + k, prog := none, todo := x.todo.filter (fun q => q != p) }
    if isPlacement p then setN s2 (p + 0x00E) (progBound s1 p) else s2

/-- Runs an image in a strip slot once, on the context block at `c`; the answer says whether it ended and whether SAT is set (R467). -/
def runSlotPath (s : State) (p : Obj) (b : Octets) (c budget : Nat) (late : Bool) : State × Bool × Bool :=
  let n := placeLane s p
  let r := runBundles b n budget budget (prologue s n p (some c))
  if r.2 && !late then
    let s2 := epilogue (closeBundle r.1 n 0) n (some c)
    (setLane s2 n { lane s2 n with prog := none }, true, satFlag (lane s2 n).st)
  else (overrun r.1 n budget, false, false)

/-! ### The stop of R49 -/

/-- Signals that a placement writes. -/
def scatterSignals (s : State) (p : Obj) : List Nat := (listEntries (valOctets (forceVal s (p + 0x00A)))).map (·.2)

/-- The frame before stands in for frame `f` of a signal (R55). -/
def repeatFrame (s : State) (f x : Nat) : State :=
  putSig s x f (if f = 0 then silence (frameLen s) else sigFrame s x (f - 1))

end Sys2Proof.Machine
end

