-- ==== Sys2Proof/Machine/Ramps.lean ====
section
/-!
DEFINITION. Machine/Ramps.lean: gains and their ramps (R140, R160, R161, R165 to R167), the time at which a value lands (R52, R139,
R164, R212, R215, R228), and crossfades and dips that all units share (R141, R142, R146).
-/
namespace Sys2Proof.Machine

/-! ### Gains -/

/-- Unity in Q4.27. -/
def unity : Int := 2 ^ 27

/-- Whether an object is the MUTE of a strip, bus, matrix or output processor. -/
def isMute (o : Obj) : Bool :=
  (areaOf o == 5 && memOf o == 0x301) || (areaOf o == 7 && decide (instOf o < 0x200) && memOf o == 0x301)
  || (areaOf o == 7 && decide (0x200 ≤ instOf o) && memOf o == 0x021)

/-- Whether an object is a POLARITY. -/
def isPolarity (o : Obj) : Bool := areaOf o == 5 && memOf o == 0x041

/-- The Q4.27 gain that a value of a gain member stands for (R139, R161). -/
def gainOfVal (o : Obj) (n : Nat) : Int :=
  if isMute o then (if n = 1 then 0 else unity)
  else if isPolarity o then (if n = 1 then -unity else unity)
  else gainOfDb n

/-- A suspended reference (R72). -/
def suspended (s : State) (o : Obj) : Bool := s.mode.suspended.contains o

/-- The gain that a gain member in force stands for; a suspended node acts as minus infinity (R72). -/
def gainTarget (s : State) (o : Obj) : Int := if suspended s o then 0 else gainOfVal o (numF s o)

/-- The magnitude of an end of a dB-linear ramp in units of 2^-64: an end that is 0 stands at 10^(-144/20) (R165). -/
def rampEnd (g : Int) : Int := if g = 0 then 1163910865505 else (if g < 0 then -g else g) * 2 ^ 37

/-- The equation of R165 at ramp sample k, for k below N - 1, in units of 2^-64: 0 dB-linear, 1 amplitude-linear, 2 S-curve. A dB-linear ramp
between gains of opposite sign runs amplitude-linear (log entry 21). -/
def rampLaw (law : Nat) (g0 g1 : Int) (k n : Nat) : Int :=
  if law = 0 ∧ 0 ≤ g0 * g1 then
    let la := fxLn (rampEnd g0)
    let lb := fxLn (rampEnd g1)
    let g := fxExp (la + divNearest ((lb - la) * ((k : Int) + 1)) n)
    if g0 + g1 < 0 then -g else g
  else if law = 2 then g0 * 2 ^ 37 + shiftNearest ((g1 - g0) * fadeIn k n) 27
  else g0 * 2 ^ 37 + divNearest ((g1 - g0) * 2 ^ 37 * ((k : Int) + 1)) n

/-- The largest error of a computed gain, in units of 2^-64 (R166): 2^-27 or 0.05 percent. -/
def rampMargin (g : Int) : Int :=
  let a := if g < 0 then -g else g
  if a / 2000 < 2 ^ 37 then 2 ^ 37 else a / 2000

/-- A value held within plus and minus `m`. -/
def within (m : Int) (w : BitVec 64) : Int := (w.toNat : Int) % (2 * m + 1) - m

/-- The gain of ramp sample k: the last is the target exactly; the others are any gain within R166 of the equation (log entry 22). -/
def rampGain (r : Ramp) (k : Nat) : Int :=
  if r.len ≤ k + 1 then r.target
  else
    let g := rampLaw r.law r.start r.target k r.len
    let least := -((rampMargin g - g) / 2 ^ 37)
    let most := (g + rampMargin g) / 2 ^ 37
    satTo 32 (least + ((Config.rampError r.start r.target r.len r.law k).toNat : Int) % (most - least + 1))

/-- No ramp. -/
def Ramp.none : Ramp := { start := 0, target := 0, pos := 0, len := 0, law := 0, active := false }

/-- The ramp of a gain member. -/
def rampOf (s : State) (o : Obj) : Ramp := tget s.audio.ramps Ramp.none o

/-- Puts the ramp of a gain member. -/
def putRamp (s : State) (o : Obj) (r : Ramp) : State :=
  { s with audio := { s.audio with ramps := tput s.audio.ramps Ramp.none o r } }

/-- A ramp whose last sample has passed is active no longer. -/
def endRamp (r : Ramp) : Ramp := if r.active && decide (r.len ≤ r.pos) then { r with active := false } else r

/-- The gain of the last sample that a gain member has computed. -/
def gainNow (s : State) (o : Obj) : Int :=
  let r := rampOf s o
  if r.active then (if r.pos = 0 then r.start else rampGain r (r.pos - 1)) else gainTarget s o

/-- Starts a ramp of length `n` from `g0` to the gain now in force (R165, R167). -/
def startRamp (s : State) (o : Obj) (g0 : Int) (n law : Nat) : State :=
  let g1 := gainTarget s o
  if n = 0 ∨ g0 = g1 then putRamp s o { rampOf s o with target := g1, active := false }
  else putRamp s o { start := g0, target := g1, pos := 0, len := n, law := law, active := true }

/-- The gain of the next sample and the state after it. -/
def stepRamp (s : State) (o : Obj) : Int × State :=
  let r := endRamp (rampOf s o)
  if r.active then (rampGain r r.pos, putRamp s o { r with pos := r.pos + 1 })
  else (gainTarget s o, if (rampOf s o).active then putRamp s o r else s)

/-! ### Crossfades between choices (R142) -/

/-- Starts a crossfade, or holds the new choice while one runs. -/
def selChange (x : Option SelX) (old new n : Nat) : Option SelX :=
  match x with
  | some c => if c.k = 0 then some { c with new := new, n := n } else some { c with held := some new }
  | none => if old = new then none else some { k := 0, n := n, old := old, new := new, held := none }

/-- Ends a crossfade that has run all its samples; a held choice starts the next one. -/
def selEnd (x : Option SelX) (n : Nat) : Option SelX :=
  match x with
  | some c =>
    if c.k < c.n then some c
    else (match c.held with
      | some h => if h = c.new then none else some { k := 0, n := n, old := c.new, new := h, held := none }
      | none => none)
  | none => none

/-- The weight of the new choice at the present sample. -/
def selMix (c : SelX) (old new : Int) : Int := mixAt c.k c.n old new

/-- Moves a crossfade on by one sample. -/
def selStep (x : Option SelX) : Option SelX :=
  match x with
  | some c => some { c with k := c.k + 1 }
  | none => none

/-! ### Dips (R146) -/

/-- A change that makes a dip to `v`. -/
def dipChange (x : Option Dip) (v : Nat) : Option Dip :=
  match x with
  | none => some { stage := 0, k := 0, next := v, held := none }
  | some d => if d.stage < 2 then some { d with next := v } else some { d with held := some v }

/-- Ends a fade that has run its 32 samples: the fade-out takes the pending value, the fade-in ends or starts the held dip. The
answer holds the value that now applies, if one does. -/
def dipEnd (x : Option Dip) : Option Dip × Option Nat :=
  match x with
  | some d =>
    if d.stage = 1 ∧ 32 ≤ d.k then (some { d with stage := 2, k := 0 }, some d.next)
    else if d.stage = 2 ∧ 32 ≤ d.k then
      ((match d.held with
        | some h => some { stage := 0, k := 0, next := h, held := none }
        | none => none), none)
    else (some d, none)
  | none => (none, none)

/-- The fade-out starts on sample 0 of a frame, so that it ends on the last sample of one. -/
def dipOpen (x : Option Dip) (i : Nat) : Option Dip :=
  match x with
  | some d => if d.stage = 0 ∧ i = 0 then some { d with stage := 1, k := 0 } else some d
  | none => none

/-- The weight of a dip at the present sample. -/
def dipWeight (x : Option Dip) : Int :=
  match x with
  | some d => if d.stage = 1 then fxOne - fadeIn d.k 32 else if d.stage = 2 then fadeIn d.k 32 else fxOne
  | none => fxOne

/-- A sample under a dip. -/
def dipped (x : Option Dip) (v : Int) : Int :=
  match x with
  | some _ => weigh (dipWeight x) v
  | none => v

/-- Moves a running fade on by one sample. -/
def dipStep (x : Option Dip) : Option Dip :=
  match x with
  | some d => if d.stage = 0 then some d else some { d with k := d.k + 1 }
  | none => none

/-- Members whose references come back as they are written: a LIVE write ends their suspension at its landing (R72). -/
def unsuspend (s : State) (os : List Obj) : State :=
  if s.mode.suspended.isEmpty then s
  else { s with mode := { s.mode with suspended := s.mode.suspended.filter (fun o => !(os.contains o)), pendSusp := s.mode.pendSusp.filter (fun o => !(os.contains o)) } }

/-! ### Members that clear others -/

/-- Whether a row can be written at all. -/
def isRo (r : Row) : Bool := match r.acc with | .ro => true | _ => false
/-- Members that a CLEAR member returns to their defaults; none for another member. -/
def clears (o : Obj) : List Nat :=
  let i := instOf o
  let m := memOf o
  match areaOf o with
  | 1 => if i = 0x200 ∧ m = 7 then [3, 4, 5] else []
  | 2 => if i < 4 then (if m = 0x01F then [0x016, 0x017] else [])
         else if i < 0x14 then (if m = 0x01F then [0x018, 0x019, 0x01A, 0x01B] else [])
         else if i < 0x28 then (if m = 0x00F then [3, 4, 5] else []) else []
  | 3 => if m = 0x01F then [0x016] else []
  | 4 => if i < 0x200 then
           (if m = 0x03F then
              (((familyRows fullLimits 4 i).filter (fun r => isRo r && decide (r.ty = .u64))).flatMap (fun r =>
                (List.range (r.hi + 1 - r.lo)).map (r.lo + ·))) else [])
         else if i < 0x204 then (if m = 0x01F then [0x010, 0x011, 0x012, 0x013] else [])
         else if 0x320 ≤ i ∧ i < 0x340 then (if m = 0x01F then [0x011, 0x012, 0x013, 0x014] else []) else []
  | 5 => if m = 0x6FF then [0x053, 0x054, 0x600] else []
  | 7 => if i < 0x200 then (if m = 0x6FF then [0x600, 0x601, 0x602] else [])
         else if m = 0x6FF then [0x003, 0x004, 0x600, 0x601] else if m = 0x04F then [0x047, 0x048] else []
  | 8 => if m = 0x6FF then [0x065] else []
  | 9 => if 0x100 ≤ i ∧ i < 0x110 then (if m = 0x01F then [0x014, 0x015] else [])
         else if 0x1000 ≤ i then (if m = 0x012 then [0x00F, 0x010, 0x011] else []) else []
  | 10 => if i < 0x30 then (if m = 0x00F then [3, 4, 5, 6] else [])
          else if 0x100 ≤ i then (if m = 0x02F then [0x020, 0x021, 0x022, 0x023, 0x024, 0x027] else []) else []
  | 11 => if m = 0x00B then [8, 9, 0x00A] else []
  | 12 => if m = 0x01F then [0x011, 0x013, 0x014] else []
  | _ => []

/-- The effect of a CLEAR. -/
def clearMembers (s : State) (o : Obj) : State := (clears o).foldl (fun t m => setF t (baseOf o + m) (dfl (baseOf o + m))) s

/-- LOG_CLEAR empties the log, its first entry included. -/
def clearLog (s : State) : State :=
  { s with sage := { s.sage with log := [], first := none }, aon := retain s.aon (fun a => { a with first := none }) }

/-- Whether a write-only member clears others. -/
def isClear (o : Obj) : Bool := !(clears o).isEmpty || o == ob 13 0 0x010

/-- A landed value enters force; a CLEAR member or LOG_CLEAR acts (R228). -/
def putLanded (s : State) (o : Obj) (v : Val) : State :=
  if o = ob 13 0 0x010 then clearLog s else if isClear o then clearMembers s o else setF s o v

/-! ### Landing (R52, R139, R164, R202, R212, R215, R228) -/

/-- Whether an object is a LIVE member of a double-buffered table: PATCH and TX_MASK (R212). -/
def isTableMember (o : Obj) : Bool :=
  let i := instOf o
  let m := memOf o
  match areaOf o with
  | 3 => decide (0x100 ≤ m) || m == 0x010
  | 4 => (decide (0x100 ≤ i) && decide (i < 0x200) && decide (0x100 ≤ m)) || (decide (0x400 ≤ i) && decide (i < 0x800) && m == 0)
  | _ => false

/-- Whether a value lands at a sample of the audio path, applied by the phase that serves the frame. The members of a placement land at
the tick at which its phase first uses them (R215). -/
def isAudioObj (o : Obj) : Bool :=
  let a := areaOf o
  (a == 5 && instOf o != 0x400) || a == 6 || a == 7 || a == 8 || (a == 9 && decide (instOf o < 0x100))

/-- The domain in which a value lands: that of its unit, or CD0 for a domain object and for a unit whose domain is not ON (R212,
log entry 23). -/
def landDomain (s : State) (o : Obj) : Nat :=
  let d := ownerDom s o
  if domOn s d then d else 0

/-- The frame from which on a LIVE write acts: frame P for the audio path, tick P + 1 for the rest; a table write made while a
commit lands in the domain waits for its tick F* + 2 (R139, R215, R228). -/
def liveFrame (s : State) (d : Nat) (o : Obj) : Nat :=
  let p := frameOf s d
  if isAudioObj o then p
  else if isTableMember o then
    (match s.commit with
     | some c =>
       let l := tget c.land 0 d
       let f := if l % 8 = 0 then l / 8 else l / 8 + 1
       if tget c.land 0 d ≠ 0 ∧ f ≤ p ∧ p < f + 2 then f + 2 else p + 1
     | none => p + 1)
  else p + 1

/-- Adds a landing; a later value for the same object and instant replaces the one there. -/
def addLanding (s : State) (x : Landing) : State :=
  let same : Landing → Bool := fun y =>
    y.obj == x.obj && y.dom == x.dom && y.frame == x.frame && y.sample == x.sample && y.commit == x.commit
  { s with dict := { s.dict with landing := s.dict.landing.filter (fun y => !(same y)) ++ [x] } }

/-- A LIVE write of an object that belongs to a domain. A table write during the copy of R53 is held. -/
def landLive (s : State) (o : Obj) (v : Val) : State :=
  let d := landDomain s o
  let x : Landing := { dom := d, frame := liveFrame s d o, sample := 0, obj := o, val := v, commit := false }
  if isTableMember o && s.dict.copying.contains d then { s with dict := { s.dict with held := s.dict.held ++ [(d, x)] } }
  else addLanding s x

/-- The value written last to a LIVE member and not yet in force, if one is on its way (R228). -/
def onItsWay (s : State) (o : Obj) : Option Val :=
  match ((s.dict.landing.filter (fun y => y.obj == o && !y.commit)) ++
         ((s.dict.held.map (·.2)).filter (fun y => y.obj == o))).getLast? with
  | some y => some y.val
  | none => none

/-- Whether a landing is due at sample `i` of frame `f` of domain `d`. -/
def isDue (d f i : Nat) (y : Landing) : Bool :=
  y.dom == d && (decide (y.frame < f) || (y.frame == f && decide (y.sample ≤ i)))

/-- Whether a landing does not come after another: by instant, a LIVE write before a commit's values at one instant. -/
def Landing.notAfter (x y : Landing) : Bool :=
  decide (x.frame < y.frame) || (x.frame == y.frame && (decide (x.sample < y.sample) || (x.sample == y.sample && (!x.commit || y.commit))))

/-- Puts a landing before the first one that it does not come after. -/
def putLanding (x : Landing) : List Landing → List Landing
  | [] => [x]
  | y :: r => if x.notAfter y then x :: y :: r else y :: putLanding x r

/-- The values due, among objects of a class, in the order of their instants; a commit's value prevails over a LIVE write of the same object at the
same sample, and a LIVE write of a later sample over the commit's (R213). -/
def dueValues (s : State) (d f i : Nat) (p : Obj → Bool) : List (Obj × Val) :=
  let due := s.dict.landing.filter (fun y => isDue d f i y && p y.obj)
  let com := due.filter (fun y => y.commit)
  ((due.filter (fun y => y.commit || !(com.any (fun z => z.obj == y.obj && z.frame == y.frame && z.sample == y.sample)))).foldr
    putLanding []).map (fun y => (y.obj, y.val))

/-- Takes the due values out of the list. -/
def dropDue (s : State) (d f i : Nat) (p : Obj → Bool) : State :=
  { s with dict := { s.dict with landing := s.dict.landing.filter (fun y => !(isDue d f i y && p y.obj)) } }

end Sys2Proof.Machine
end

