-- ==== Sys2Proof/Machine/Dynamics.lean ====
section
/-!
DEFINITION. Machine/Dynamics.lean: the Lovage units (R180 to R191): detector, gain computer, ballistics, links and applied gain.
Values in dB and levels are fractions in units of 2^-64. A path reads its members through an overlay of old values (R143).
-/
namespace Sys2Proof.Machine

/-- The member 000 of a dynamics unit. -/
def unitObj (u : Nat) : Obj := ob 8 u 0

/-- Values of members as a path reads them: the overlay first, then the value in force. -/
abbrev Overlay := List (Obj × Val)

/-- A member's number as a path reads it. -/
def seen (l : Overlay) (s : State) (o : Obj) : Nat :=
  match l.find? (fun e => e.1 == o) with
  | some e => valNat e.2
  | none => numF s o

/-- The floor level of the detector, -138.47 dB (R185). -/
def floorLevel : Int := fxToDb (2 ^ 41)

/-- The state that a unit starts with and that a new path of a lent or returned unit starts with (R182, R192). -/
def Lov.fresh : Lov :=
  { p := 0, level := floorLevel, hpf := [], lpf := [], band := [], gs := 0, isOpen := true, hold := 0, key := [] }

/-- A path with nothing in it. -/
def Path.fresh : Path := { hpf := [], lpf := [], eq := [], gate := Lov.fresh, comp := Lov.fresh }

/-- Whether an object is the DYN_UNIT of a bus or matrix that the mode populates (R60, R171). -/
def isDynUnit (s : State) (o : Obj) : Bool :=
  areaOf o == 7 && memOf o == 0x020
  && (decide (instOf o < (lim s).buses) || (decide (0x100 ≤ instOf o) && decide (instOf o < 0x100 + (lim s).mats)))

/-- The bus or matrix to which a unit is lent, as its DYN_UNIT object, if a populated one names it (R172); a suspended DYN_UNIT lends
nothing (R72). -/
def lentTo (l : Overlay) (s : State) (u : Nat) : Option Obj :=
  let cand := (tkeys s.dict.force ++ l.map (·.1)).filter (fun o => isDynUnit s o && !(suspended s o))
  cand.find? (fun o => seen l s o == u)

/-- The unit lent to a bus or matrix `b` (its member 000), if any. -/
def lentUnit (l : Overlay) (s : State) (b : Obj) : Option Nat :=
  if suspended s (b + 0x020) then none
  else
    let u := seen l s (b + 0x020)
    if u < (lim s).units then some u else none

/-- A frequency in millihertz as the filters apply it: at most 0.45 times the domain rate (R144, R184). -/
def appliedFreq (hz f : Nat) : Nat := min f (450 * hz)

/-- The response of a second-order Butterworth filter over the frequency in units of its corner: coefficients of s^2, s and 1 of the numerator and
of the denominator in units of 2^-64, high-pass or low-pass (R184). -/
def butterworth (high : Bool) : List Int :=
  (if high then [fxOne, 0, 0] else [0, 0, fxOne]) ++ [fxOne, fxSqrt (2 * fxOne), fxOne]

/-- One sidechain filter: its response over its corner or centre, the rate and that frequency fix it; a filter whose ON is FALSE passes (R184;
log entry 7). -/
def scFilter (on hz freq : Nat) (response : List Int) (h : List Int) (x : Int) : Int × List Int :=
  if on = 0 then (x, h) else Config.sidechainStep [hz, appliedFreq hz freq] response h x

/-- The three sidechain filters in their order, with their new histories (R184). -/
def scFilters (l : Overlay) (s : State) (o : Obj) (hz : Nat) (v : Lov) (y : Int) : Int × Lov :=
  let m := fun (k : Nat) => seen l s (o + k)
  let a := scFilter (m 0x042) hz (m 0x043) (butterworth true) v.hpf y
  let b := scFilter (m 0x044) hz (m 0x045) (butterworth false) v.lpf a.1
  let c := scFilter (m 0x046) hz (m 0x047) [fxOfDb (gainDbFx (m 0x048)), q823Fx (sample (m 0x049))] v.band b.1
  (c.1, { v with hpf := a.2, lpf := b.2, band := c.2 })

/-- The level of a sidechain sample (R185): the new mean square, and L. The mean square follows the signal while DETECTOR is PEAK too (log entry
211). -/
def detect (l : Overlay) (s : State) (o : Obj) (hz : Nat) (p x : Int) : Int × Int :=
  let v := q823Fx x
  let a := if v < 0 then -v else v
  let p' := p + fxMul (fxMul v v - p) (fxOne - decayOf (seen l s (o + 3)) hz)
  let e := if seen l s (o + 2) = 0 then a else fxSqrt p'
  (p', fxToDb (if e < 2 ^ 41 then 2 ^ 41 else e))

/-- The static gain of a compressor or limiter (R186): `inv` is 1/R. -/
def compGain (t inv w lev : Int) : Int :=
  let d := lev - t
  if 2 * d < -w then 0
  else if 2 * d ≤ w ∧ 0 < w then fxDiv (fxMul (inv - fxOne) (fxMul (d + w / 2) (d + w / 2))) (2 * w)
  else fxMul (inv - fxOne) d

/-- The static gain of an expander (R187). -/
def expGain (t r w lev : Int) : Int :=
  let d := lev - t
  if w < 2 * d then 0
  else if -w ≤ 2 * d ∧ 0 < w then -(fxDiv (fxMul (r - fxOne) (fxMul (d - w / 2) (d - w / 2))) (2 * w))
  else fxMul (r - fxOne) d

/-- The gate at one sample (R188): open state and hold counter. -/
def gateStep (isOpen : Bool) (hold : Nat) (lev t hyst : Int) (holdLen : Nat) : Bool × Nat :=
  if !isOpen then (if t ≤ lev then (true, holdLen) else (false, hold))
  else if t - hyst ≤ lev then (true, holdLen)
  else if hold = 0 then (false, 0)
  else (true, hold - 1)

/-- The gate members of a unit as a path reads them: T, HYSTERESIS and the hold in samples (R188). -/
def gateOf (l : Overlay) (s : State) (o : Obj) (hz : Nat) : Int × Int × Nat :=
  (gainDbFx (seen l s (o + 0x010)), gainDbFx (seen l s (o + 0x014)), usToSamples (seen l s (o + 0x015)) hz)

/-- One sample of a unit up to its smoothed gain (R183 to R190): `y` is the sidechain sample with the key samples used so far. The open state and
the hold of a gate stand while TYPE is another, and a gate resumes with what it finds (log entry 56). -/
def lovStep (l : Overlay) (s : State) (u : Nat) (hz : Nat) (v : Lov) (y : Int × List Int) : Lov :=
  let o := unitObj u
  let f := scFilters l s o hz v y.1
  let d := detect l s o hz v.p f.1
  let ty := seen l s (o + 1)
  let q := gateOf l s o hz
  let t := q.1
  let w := gainDbFx (seen l s (o + 0x012))
  let r := q823Fx (sample (seen l s (o + 0x011)))
  let rng := gainDbFx (seen l s (o + 0x013))
  let g := gateStep v.isOpen v.hold d.2 t q.2.1 q.2.2
  let raw :=
    if ty = 0 then (if g.1 then 0 else -rng)
    else if ty = 1 then expGain t r w d.2
    else if ty = 2 then compGain t (fxDiv fxOne r) w d.2
    else compGain t 0 w d.2
  let G := if raw < -rng then -rng else raw
  let attack := if ty ≤ 1 then decide (v.gs < G) else decide (G < v.gs)
  let a := decayOf (seen l s (o + (if attack then 0x020 else 0x021))) hz
  { f.2 with p := d.1, level := d.2, gs := fxMul a v.gs + fxMul (fxOne - a) G,
             isOpen := if ty = 0 then g.1 else if ty = 1 then decide (t ≤ d.2) else v.isOpen,
             hold := if ty = 0 then g.2 else v.hold, key := y.2 }

/-- The largest error of an applied gain: 0.01 dB (R190). -/
def gainMargin : Int := 184467440737095516

/-- The main sample with the applied gain, in dB, and the makeup gain (R190). The makeup gain is a Q4.27 gain, so its dB value
is added as a product. -/
def applyDyn (ga : Int) (makeup : Int) (y : Int) : Int :=
  let e := within gainMargin (Config.gainError ga)
  satSample (shiftNearest (fxOfDb (ga + e) * makeup * y) 91)

/-- The sidechain sample `i` of a unit in a frame, with the key samples used: its main signal, or its key (R183). A key read that is late
reuses the key samples of the frame before (R193). -/
def sidechain (l : Overlay) (s : State) (u i : Nat) (late : List Obj) (key : Nat → Int) (v : Lov) (y : Int) : Int × List Int :=
  if seen l s (unitObj u + 0x040) = 0 then (y, [])
  else
    let x := if late.contains (unitObj u) then smp v.key i
             else if suspended s (unitObj u + 0x041) then 0 else key (seen l s (unitObj u + 0x041))
    (x, (List.range (frameLen s)).map (fun j => if j = i then x else smp v.key j))

/-- Whether a unit's gain is applied: ON. -/
def unitOn (l : Overlay) (s : State) (u : Nat) : Bool := seen l s (unitObj u) == 1

/-- A contribution to a link group: group and smoothed gain (R191). -/
abbrev Links := List (Nat × Int)

/-- The lowest of some gains, or a gain where there is none. -/
def lowestGain (own : Int) : List Int → Int
  | [] => own
  | g :: r => r.foldl (fun a e => if e < a then e else a) g

/-- The lowest smoothed gain of the enabled units of a group; the unit's own where it is not linked, or the group has no enabled unit (R190,
R191). -/
def linked (ls : Links) (grp : Nat) (own : Int) : Int :=
  if grp = 0 then own else lowestGain own ((ls.filter (fun e => e.1 == grp)).map (·.2))

/-- The link group of a unit; a suspended member runs unlinked (R72). -/
def linkOf (l : Overlay) (s : State) (u : Nat) : Nat :=
  if suspended s (unitObj u + 0x050) then 0 else seen l s (unitObj u + 0x050)

/-- What a unit contributes to its group: nothing while OFF, else the lowest gain of the paths that run it, the running one first (R191). A path
comes with what it reads. -/
def contribution (s : State) (u : Nat) : List (Overlay × Int) → Links
  | [] => []
  | e :: r => if unitOn e.1 s u && linkOf e.1 s u != 0 then [(linkOf e.1 s u, lowestGain e.2 ((e :: r).map (·.2)))] else []

/-- Reports of a unit at the end of a frame: GR, GATE_OPEN and KEY_LEVEL (R190, R192). -/
def reportUnit (s : State) (u : Nat) (ga : Int) (v : Lov) : State :=
  let o := unitObj u
  setN (setN (setN s (o + 0x062) (fxGainDb ga)) (o + 0x063) (if v.isOpen then 1 else 0)) (o + 0x064) (fxGainDb v.level)

/-- Whether a dynamics member starts a core crossfade (R195). -/
def dynCore (m : Nat) : Bool := m ≤ 2 || m == 0x040 || m == 0x041 || m == 0x050

end Sys2Proof.Machine
end

