-- ==== Sys2Proof/Machine/Paths.lean ====
section
/-!
DEFINITION. Machine/Paths.lean: the parts that strips, buses and matrices share: core paths and their crossfades (R135, R143,
R171, R172, R182, R195), delay blocks (R145, R146, R174) and the customer image of a strip slot (R216, R467).
-/
namespace Sys2Proof.Machine

/-- A delay block at rest. -/
def DelayRt.fresh : DelayRt :=
  { short := [], ring := [], inbuf := [], prev := 0, odd := false, stage := [], stageAt := 0, tap := [], now := 0, dip := none,
    miss := false, lost := false }

/-- A strip, bus or matrix at rest. -/
def UnitRt.fresh : UnitRt :=
  { path := Path.fresh, core := none, input := none, tapx := none, delay := DelayRt.fresh, sat := false, fin := [],
    fout := none, run := 0, half0 := 0, half1 := 0, coef0 := 0, coef1 := 0, due := false }

/-- The runtime of a strip, bus or matrix, by its member 000. -/
def unitRt (s : State) (o : Obj) : UnitRt := tget s.audio.units UnitRt.fresh o

/-- Puts the runtime of a strip, bus or matrix. -/
def putUnit (s : State) (o : Obj) (r : UnitRt) : State :=
  { s with audio := { s.audio with units := tput s.audio.units UnitRt.fresh o r } }

/-! ### Delay blocks -/

/-- The delay of a block in samples: 0 while DELAY_ON is FALSE (R145). `on` and `us` are its two members. -/
def delayOf (s : State) (on us : Obj) (hz : Nat) : Nat := if isOn s on then usToSamples (numF s us) hz else 0

/-- Ends the fades of a delay block that have run; the new delay is in force from the fade-in on (R146). -/
def delayEnd (d : DelayRt) : DelayRt :=
  let e := dipEnd d.dip
  { d with dip := e.1, now := e.2.getD d.now }

/-- The samples of a delay line's ring: the longest delay and 64 more, in whole beats of 8 samples (R95). -/
def ringLength (cap : Nat) : Nat := (cap + 64 + 7) / 8 * 8

/-- The write of the input buffer, with the inputs of the frame before, to a ring of `len` samples (R96). A discarded write leaves the
older contents in its positions (R97). In TIGHT two frames share a word of 8 bytes: the first write of a word clears its other half, which
is the oldest position of the ring, and the second writes both halves (R378). -/
def writeRing (d : DelayRt) (len : Nat) : DelayRt :=
  let n := d.inbuf.length
  let kept := (List.range n).map (fun j => smp d.ring (len - n + j))
  let x := smp d.inbuf 0
  let ring :=
    if d.lost then kept ++ d.ring
    else if n = 1 then (if d.odd then x :: d.prev :: d.ring.drop 1 else (x :: d.ring).take (len - 1))
    else d.inbuf ++ d.ring
  { d with ring := ring.take len, inbuf := [], prev := if n = 0 then d.prev else x, odd := if n = 1 then !d.odd else d.odd, lost := false }

/-- The delay in force in the next frame of `n` samples: the pending one if the fade-out ends with this frame (R146). -/
def nextDelay (d : DelayRt) (n : Nat) : Nat :=
  match d.dip with
  | some q => if q.stage = 1 ∧ 32 ≤ q.k + n then q.next else d.now
  | none => d.now

/-- What the delay engine does around the start of a window (R96, R97): the write of the frame before, the copy of the staging slot into the
tap buffer unless its prefetch missed, and the prefetch of the next frame's tap. A slot read at another delay than the one in force is
read again. -/
def openLine (d : DelayRt) (len n : Nat) : DelayRt :=
  let w := writeRing d len
  let tap := if d.miss then d.tap
             else if d.stageAt = d.now then d.stage
             else (List.range n).map (fun j => smp w.ring (d.now - 1 - j))
  let next := nextDelay d n
  { w with tap := tap, stage := (List.range n).map (fun j => smp w.ring (next - n - 1 - j)), stageAt := next, miss := false }

/-- The delay engine around a window in which the program of a line has not run (R49, R96): the input buffer keeps the samples it holds. -/
def idleLine (d : DelayRt) (cap n : Nat) : DelayRt := { openLine d (ringLength cap) n with inbuf := d.inbuf }

/-- One sample through a delay block: below 64 samples from the bank, else from the tap buffer of the DRAM line (R95, R145). -/
def delayStep (d : DelayRt) (keep : Bool) (cap i n : Nat) (x : Int) : Int × DelayRt :=
  let d0 := delayEnd d
  let d1 := { d0 with dip := dipOpen d0.dip i }
  let d2 := if i = 0 then openLine d1 (ringLength cap) n else d1
  let y := if d2.now < 64 then smp (x :: d2.short) d2.now else smp d2.tap i
  (dipped d2.dip y,
   if keep || d2.now != 0 || d2.dip.isSome then
     { d2 with short := (x :: d2.short).take 63, inbuf := x :: d2.inbuf, dip := dipStep d2.dip }
   else DelayRt.fresh)

/-! ### Core crossfades -/

/-- Whether a member of the strip, bus or matrix itself touches a coefficient (R143). -/
def coefMember (m : Nat) : Bool := (decide (0x060 ≤ m) && decide (m ≤ 0x066)) || (decide (0x100 ≤ m) && decide (m ≤ 0x181))

/-- Whether the change of an object touches a coefficient of the unit whose core crosses (R143, log entry 24 for ENABLE and
IMAGE of a slot). -/
def touchesCoef (o : Obj) : Bool :=
  if areaOf o = 8 then false else if areaOf o = 9 then true else coefMember (memOf o)

/-- The length of a core crossfade (R143). -/
def coreLength (s : State) (u : Obj) (coef : Bool) : Nat :=
  let n := numF s (u + 1)
  let c := numF s (u + 0x181)
  if coef && decide (n < c) then c else n

/-- Adds an entry unless the object has one. -/
def addFirst (o : Obj) (v : Val) (l : Overlay) : Overlay := if l.any (fun e => e.1 == o) then l else l ++ [(o, v)]

/-- What the new path of a crossfade reads: the values in use for held changes. -/
def newView (r : UnitRt) : Overlay := match r.core with | some c => c.held | none => []

/-- What the old path reads. -/
def oldView (r : UnitRt) : Overlay := match r.core with | some c => c.vals ++ c.held | none => []

/-- The placement of a strip slot. -/
def slotPlace (s : State) (i : Nat) : Obj :=
  let per := (lim s).strips / 16
  ob 9 (0x1000 + 0x100 * (i / per) + i % per) 0

/-! ### The customer image of a slot (R216, R467) -/

/-- The image bytes that the placement of a slot names as a path reads it. -/
def slotImage (l : Overlay) (s : State) (p : Obj) : Octets := imageBytes s (seen l s (p + 1))

/-- Whether a customer image runs in a slot as a path reads its placement: ENABLE, an image of 0x00 to 0xEF that holds one. -/
def customerOn (l : Overlay) (s : State) (p : Obj) : Bool :=
  seen l s p == 1 && seen l s (p + 0x00B) != 2 && decide (seen l s (p + 1) < 0xF0) && !(slotImage l s p).isEmpty

/-- Whether a strip member is one of those from which the library program's coefficients come, 060 to 181, and every path of the strip runs a
customer image: they are then without effect (R136). -/
def noEffect (s : State) (r : UnitRt) (o : Obj) : Bool :=
  let p := slotPlace s (instOf o)
  areaOf o == 5 && decide (0x060 ≤ memOf o) && decide (memOf o ≤ 0x181) && customerOn (newView r) s p
  && (r.core.isNone || customerOn (oldView r) s p)

/-- Whether a change carries a new COEF set for the placement of a slot, or moves it (R216; log entry 168). -/
def carriesCoef (vals : Overlay) : Bool := vals.any (fun e => areaOf e.1 == 9 && (memOf e.1 == 7 || memOf e.1 == 8))

/-- Words of the COEF set of a placement. -/
def coefLength (s : State) (p : Obj) : Nat := (valOctets (forceVal s (p + 7))).length / 4

/-- The half of the COEF reservation that the new path of a strip's crossfade uses: the other half for a change that carries a set, which is
then still to be written, and the half of the old path otherwise (R216, R467). The new path's number is `run`. -/
def newHalf (s : State) (u : Obj) (r : UnitRt) (vals : Overlay) : UnitRt :=
  let fresh := areaOf u == 5 && carriesCoef vals
  let p := slotPlace s (instOf u)
  let h := if r.run = 0 then r.half1 else r.half0
  let c := if r.run = 0 then r.coef1 else r.coef0
  let h' := if fresh then 1 - h else h
  let c' := if fresh then numF s (p + 8) + h' * coefLength s p else c
  { r with half0 := if r.run = 0 then h' else r.half0, half1 := if r.run = 0 then r.half1 else h',
           coef0 := if r.run = 0 then c' else r.coef0, coef1 := if r.run = 0 then r.coef1 else c', due := r.due || fresh }

/-- Whether a change of DYN_UNIT members brings unit `k` back from a bus or matrix (R172). -/
def comesBack (vals : Overlay) (s : State) (k : Nat) : Bool := (lentTo vals s k).isSome && (lentTo [] s k).isNone

/-- The new path of a crossfade: a unit newly lent or returned starts anew on it (R182). -/
def freshUnits (s : State) (u : Obj) (vals : Overlay) (p : Path) : Path :=
  if areaOf u = 5 then
    { p with gate := if comesBack vals s (2 * instOf u) then Lov.fresh else p.gate,
             comp := if comesBack vals s (2 * instOf u + 1) then Lov.fresh else p.comp }
  else if vals.any (fun e => e.1 == u + 0x020) then { p with comp := Lov.fresh }
  else p

/-- Starts a core crossfade from the values `vals` that the old path keeps; the new path starts with a copy of the old path's
states and, in a strip slot, with the other context block (R143, R467). -/
def startCore (s : State) (u : Obj) (r : UnitRt) (vals : Overlay) : UnitRt :=
  let n := coreLength s u (vals.any (fun e => touchesCoef e.1))
  newHalf s u { r with core := some { k := 0, n := n, old := r.path, vals := vals, held := [] }, run := 1 - r.run,
                       path := freshUnits s u vals r.path } vals

/-- A change of a core member from the value `old`: it starts a crossfade, joins one that starts at this sample, or is held
(R143). -/
def coreChange (s : State) (u : Obj) (o : Obj) (old : Val) : State :=
  let r := unitRt s u
  match r.core with
  | none => putUnit s u (startCore s u r [(o, old)])
  | some c =>
    if c.k = 0 then
      let vals := addFirst o old c.vals
      let n := coreLength s u (vals.any (fun e => touchesCoef e.1))
      putUnit s u (newHalf s u { r with core := some { c with vals := vals, n := if c.n < n then n else c.n },
                                        path := freshUnits s u [(o, old)] r.path } vals)
    else putUnit s u { r with core := some { c with held := addFirst o old c.held } }

/-- Ends a core crossfade that has run all its samples; held changes start one crossfade together (R143). -/
def coreEnd (s : State) (u : Obj) (r : UnitRt) : UnitRt :=
  match r.core with
  | some c =>
    if c.k < c.n then r
    else
      let vals := c.held.filter (fun e => decide (e.2 ≠ forceVal s e.1) && !(noEffect s { r with core := none } e.1))
      if vals.isEmpty then { r with core := none } else startCore s u { r with core := none } vals
  | none => r

/-- Moves a core crossfade on by one sample. -/
def coreStep (r : UnitRt) : UnitRt :=
  match r.core with
  | some c => { r with core := some { c with k := c.k + 1 } }
  | none => r

/-- The two paths' signals mixed (R141). -/
def coreMix (r : UnitRt) (old new : Int) : Int :=
  match r.core with
  | some c => mixAt c.k c.n old new
  | none => new

/-- Changes the old path of a running crossfade. -/
def setOld (r : UnitRt) (p : Path) : UnitRt :=
  match r.core with
  | some c => { r with core := some { c with old := p } }
  | none => r

/-- The old path, or the running one when no crossfade runs. -/
def oldPath (r : UnitRt) : Path := match r.core with | some c => c.old | none => r.path

/-! ### Filters and EQ (R134, R135, R144, R170) -/

/-- One filter of a strip: kind 0 high-pass, 1 low-pass; it passes while it is off. -/
def oneFilter (l : Overlay) (s : State) (on : Obj) (kind hz : Nat) (h : List Int) (x : Int) : Int × List Int :=
  if seen l s on = 0 then (x, h)
  else
    let e := Config.filterStep [kind, hz, appliedFreq hz (seen l s (on + 1)), seen l s (on + 2)] h x
    (satSample e.1, e.2)

/-- The filters block of a strip: the high-pass before the low-pass (R135). -/
def filterBlock (l : Overlay) (s : State) (u : Obj) (hz : Nat) (p : Path) (x : Int) : Int × Path :=
  let a := oneFilter l s (u + 0x060) 0 hz p.hpf x
  let b := oneFilter l s (u + 0x064) 1 hz p.lpf a.1
  (b.1, { p with hpf := a.2, lpf := b.2 })

/-- One band of the EQ; it passes while it is out. -/
def eqBand (l : Overlay) (s : State) (u : Obj) (hz : Nat) (q : Int × Path) (k : Nat) : Int × Path :=
  let o := u + 0x100 + 0x10 * k
  if seen l s o = 0 then q
  else
    let e := Config.filterStep [2, hz, seen l s (o + 1), appliedFreq hz (seen l s (o + 2)), seen l s (o + 3), seen l s (o + 4)]
      (tget q.2.eq [] k) q.1
    (satSample e.1, { q.2 with eq := tput q.2.eq [] k e.2 })

/-- The eight-band EQ, band by band; it passes while EQ_ON is FALSE. -/
def eqBlock (l : Overlay) (s : State) (u : Obj) (hz : Nat) (p : Path) (x : Int) : Int × Path :=
  if seen l s (u + 0x180) = 0 then (x, p) else (List.range 8).foldl (eqBand l s u hz) (x, p)

/-- Words of a lane's coefficient segment from a word upwards. -/
def putCoefWords (s : State) (n w : Nat) : List Nat → State
  | [] => s
  | v :: r =>
    let t := if 0x4000 ≤ w ∧ w < 0x6000 then (match laneAddr n w with | some a => putBytes s a (leBytes 4 v) | none => s) else s
    putCoefWords t n (w + 1) r

/-- Writes the COEF set of a placement from a word upwards. -/
def loadCoefAt (s : State) (p : Obj) (w : Nat) : State := putCoefWords s (placeLane s p) w (leWords (valOctets (forceVal s (p + 7))))

/-- Writes the COEF set of a placement; `half` counts set lengths from COEF_BASE (R216). -/
def loadCoef (s : State) (p : Obj) (half : Nat) : State := loadCoefAt s p (numF s (p + 8) + half * coefLength s p)

/-- The first coefficient word of a path. -/
def pathCoef (r : UnitRt) (k : Nat) : Nat := if k = 0 then r.coef0 else r.coef1

/-- Writes a COEF set that a crossfade has begun to use and that is not written yet (R216). -/
def loadDue (s : State) (u : Obj) (r : UnitRt) : State × UnitRt :=
  if r.due then (loadCoefAt s (slotPlace s (instOf u)) (pathCoef r r.run), { r with due := false }) else (s, r)

/-- Writes CONTEXT_INIT: 12 words, and for a strip slot the 12 words of path 1, which repeat those of path 0 where the member
holds 48 bytes (R131, R467). -/
def loadContext (s : State) (p : Obj) : State :=
  let ws := leWords (valOctets (forceVal s (p + 6)))
  let n := placeLane s p
  let c := numF s (p + 5)
  let s1 := putLaneWords s n c (ws.take 12)
  if isSlotPlace p then putLaneWords s1 n (c + 16) (if ws.length = 24 then ws.drop 12 else ws.take 12) else s1

/-- The strip of a slot placement. -/
def slotStrip (s : State) (p : Obj) : Obj := ob 5 ((lim s).strips / 16 * placeTile p + placeNo p) 0

/-- A placement that is in force: its COEF set and context block are written, and for a strip slot both halves and both blocks (R131, R216), at
each start of the placement or its tile (log entry 185). -/
def startPlace (s : State) (p : Obj) : State :=
  if !(isPlaced s p) then s
  else
    let s1 := setN (loadContext (loadCoef s p 0) p) (p + 0x00B) 1
    if isSlotPlace p then
      (let u := slotStrip s1 p
       let c := numF s1 (p + 8)
       putUnit (loadCoef s1 p 1) u { unitRt s1 u with half0 := 0, half1 := 0, coef0 := c, coef1 := c, due := false })
    else s1

/-- The image that path `k` of a slot runs: its own, or the other path's where its own reads none. -/
def pathImage (s : State) (p : Obj) (r : UnitRt) (k : Nat) : Octets :=
  let own := if k = r.run then newView r else oldView r
  let other := if k = r.run then oldView r else newView r
  if customerOn own s p then slotImage own s p else slotImage other s p

/-- Runs the image of a slot for path `k`: X7 of its context block takes the first coefficient word (R467). The answer says whether the run
ended and whether SAT is set. -/
def runPath (s : State) (p : Obj) (r : UnitRt) (k budget : Nat) (late : Bool) : State × Bool × Bool :=
  let n := placeLane s p
  let c := numF s (p + 5)
  let w := c + 16 * k + 3
  runSlotPath (putLaneWord s n w (laneWord s n w % 65536 + 65536 * (pathCoef r k % 65536))) p (pathImage s p r k) (c + 16 * k) budget late

/-- The output words of a path of a slot. -/
def pathOut (s : State) (p : Obj) (k : Nat) : List Int :=
  (List.range (frameLen s)).map (fun i => sample (laneWord s (placeLane s p) (numF s (p + 5) + 40 + 8 * k + i)))

/-- The program of a slot with a customer image: both paths on the recorded block inputs `r.fin`, the running path
first, within the program's bound; its unit then holds the outputs (R138, R467). A run that the lane's budget ends leaves the lane in it. -/
def runCustomer (s : State) (p u : Obj) (r : UnitRt) (budget : Nat) (late : Bool) : State :=
  let n := placeLane s p
  let s1 := startProgram s n p
  if (lane s n).stopped then s1
  else
    let top := (lane s1 n).spent - 6 + progBound s1 p
    let s2 := putLaneWords s1 n (numF s1 (p + 5) + 32) (r.fin.map (wrapTo 32))
    let first := if r.core.isSome then 1 - r.run else r.run
    let a := runPath s2 p r first budget late
    if !a.2.1 then a.1
    else
      let b := runPath a.1 p r (1 - first) budget false
      if !b.2.1 then b.1
      else
        let x := lane b.1 n
        let t := setLane b.1 n { x with spent := Nat.max x.spent top, prog := none, todo := x.todo.filter (fun q => q != p) }
        let v := unitRt t u
        setN (putUnit t u { v with fout := some (pathOut t p 0, pathOut t p 1), sat := v.sat || a.2.2 || b.2.2 }) (p + 0x00E) (progBound t p)

/-! ### Signals that a sample of work produces -/

/-- Appends a sample to a signal's frame in work. -/
def addSample (t : Tab (List Int)) (x : Nat) (v : Int) : Tab (List Int) := tput t [] x (tget t [] x ++ [v])

/-- A saturating product of a gain that reports saturation (R84, R86). -/
def gainStep (g x : Int) : Int × Bool := (applyGain g x, overflows 32 (shiftNearest (g * x) 27))

end Sys2Proof.Machine
end

