-- ==== Sys2Proof/Machine/Strips.lean ====
section
/-!
DEFINITION. Machine/Strips.lean: one frame of the strips (R134, R135, R142 to R147), the automixer (R149 to R151), and the buses
and matrices (R170, R172), sample by sample, with values landing at their samples (R139, R212).
-/
namespace Sys2Proof.Machine

/-! ### Core blocks -/

/-- Blocks of a core path that are no dynamics block. -/
inductive Blk where
  | filters | eq | insert
  deriving DecidableEq, Repr

/-- The blocks before the gate, between gate and compressor, and after the compressor, by core order (R135). -/
def coreOrder : Nat → List Blk × List Blk × List Blk
  | 0 => ([.filters, .eq], [], [.insert])
  | 1 => ([], [.filters, .eq], [.insert])
  | 2 => ([.filters], [], [.eq, .insert])
  | _ => ([.filters, .eq, .insert], [], [])

/-- A path in work at one sample: the signal, the insert send, the inputs of the filters block, the path's states. -/
structure Run where
  x    : Int
  send : Int
  fin  : Option Int
  path : Path
  deriving DecidableEq, Repr

/-- What a strip's blocks read at one sample: strip member 000, rate, sample, frame, whether a customer image runs, its output. -/
structure Env where
  u    : Obj
  hz   : Nat
  i    : Nat
  f    : Nat
  cust : Bool
  fout : Int
  deriving DecidableEq, Repr

/-- One block of a path. A customer image stands in the place of the filters, and the EQ then passes (R467, log entry 25). -/
def runBlk (l : Overlay) (s : State) (e : Env) (b : Blk) (r : Run) : Run :=
  match b with
  | .filters =>
    if e.cust then { r with x := e.fout, fin := some r.x }
    else
      let q := filterBlock l s e.u e.hz r.path r.x
      { r with x := q.1, path := q.2 }
  | .eq =>
    if e.cust then r
    else
      let q := eqBlock l s e.u e.hz r.path r.x
      { r with x := q.1, path := q.2 }
  | .insert =>
    if seen l s (e.u + 0x200) = 1 then
      let sig := seen l s (e.u + 0x202)
      let y := if suspended s (e.u + 0x202) then 0 else smp (receive s sig e.f .strip) e.i
      { r with x := y, send := r.x }
    else { r with send := r.x }

/-- Several blocks of a path. -/
def runBlks (l : Overlay) (s : State) (e : Env) (bs : List Blk) (r : Run) : Run := bs.foldl (fun q b => runBlk l s e b q) r

/-- A strip in work at one sample: its runtime, post-trim signal, environments and runs of the old and the new path; whether its gate has
been applied and its compressor block's unit detected, and the gains in dB applied by both. -/
structure Work where
  u    : Obj
  rt   : UnitRt
  t0   : Int
  eo   : Env
  en   : Env
  old  : Run
  new  : Run
  gDone : Bool
  cDone : Bool
  gGain : Int
  cGain : Int
  deriving DecidableEq, Repr

/-- The instance number of a unit's member 000. -/
def stripNo (u : Obj) : Nat := instOf u

/-- Stages 1 to 3 of a strip and its core up to the gate's input (R134, R142, R145). -/
def stripFront (s0 : State) (hz f i : Nat) (rec_ : Bool) (u : Obj) : State × Work :=
  let r0 := unitRt s0 u
  let ld := loadDue s0 u (coreEnd s0 u { r0 with input := selEnd r0.input (numF s0 (u + 1)), tapx := selEnd r0.tapx (numF s0 (u + 1)) })
  let s := ld.1
  let r1 := ld.2
  let read := fun (x : Nat) => if suspended s u then 0 else smp (receive s x f .strip) i
  let x := match r1.input with
    | some c => selMix c (read c.old) (read c.new)
    | none => read (numF s u)
  let g1 := stepRamp s (u + 0x040)
  let a := gainStep g1.1 x
  let g2 := stepRamp g1.2 (u + 0x041)
  let b := gainStep g2.1 a.1
  let d := delayStep r1.delay (isOn s (u + 0x050)) (usToSamples 500000 hz) i (frameLen s) b.1
  let s1 := g2.2
  let p := slotPlace s1 (stripNo u)
  let co := customerOn (oldView r1) s1 p
  let cn := customerOn (newView r1) s1 p
  let outs := r1.fout.getD ([], [])
  let out := fun (k : Nat) => if rec_ then d.1 else smp (if k = 0 then outs.1 else outs.2) i
  let eo : Env := { u := u, hz := hz, i := i, f := f, cust := co, fout := out (if r1.core.isSome then 1 - r1.run else r1.run) }
  let en : Env := { u := u, hz := hz, i := i, f := f, cust := cn, fout := out r1.run }
  let start := fun (q : Path) => ({ x := d.1, send := 0, fin := none, path := q } : Run)
  let new := runBlks (newView r1) s1 en (coreOrder (seen (newView r1) s1 (u + 2))).1 (start r1.path)
  let old := if r1.core.isSome then runBlks (oldView r1) s1 eo (coreOrder (seen (oldView r1) s1 (u + 2))).1 (start (oldPath r1)) else new
  (s1, { u := u, rt := { r1 with delay := d.2, sat := r1.sat || a.2 || b.2 }, t0 := b.1, eo := eo, en := en, old := old, new := new,
         gDone := false, cDone := false, gGain := 0, cGain := 0 })

/-- One path's dynamics unit up to its smoothed gain; a lent unit is not evaluated on its strip (R172, R181). -/
def detectOn (l : Overlay) (s : State) (late : List Obj) (ph : Phase) (e : Env) (k : Nat) (v : Lov) (y : Int) : Lov :=
  if (lentTo l s k).isSome then v
  else lovStep l s k e.hz v (sidechain l s k e.i late (fun x => smp (receive s x e.f ph) e.i) v y)

/-- The unit of a strip's gate block, or of its compressor block. -/
def blockUnit (comp : Bool) (w : Work) : Nat := 2 * stripNo w.u + (if comp then 1 else 0)

/-- Detects on both paths of a strip: `comp` selects the block. -/
def stripDetect (s : State) (late : List Obj) (comp : Bool) (w : Work) : Work :=
  let k := blockUnit comp w
  let one := fun (l : Overlay) (e : Env) (r : Run) =>
    if comp then { r with path := { r.path with comp := detectOn l s late .strip e k r.path.comp r.x } }
    else { r with path := { r.path with gate := detectOn l s late .strip e k r.path.gate r.x } }
  { w with new := one (newView w.rt) w.en w.new, old := one (oldView w.rt) w.eo w.old, cDone := w.cDone || comp }

/-- What a strip's unit contributes to its link group. -/
def stripLinks (s : State) (comp : Bool) (w : Work) : Links :=
  let k := blockUnit comp w
  let gs := fun (r : Run) => (if comp then r.path.comp else r.path.gate).gs
  contribution s k (([(newView w.rt, gs w.new)] ++ (if w.rt.core.isSome then [(oldView w.rt, gs w.old)] else [])).filter
    (fun e => (lentTo e.1 s k).isNone))

/-- What both blocks of all strips contribute. -/
def allLinks (s : State) (ws : List Work) : Links := ws.flatMap (stripLinks s false) ++ ws.flatMap (stripLinks s true)

/-- Applies a strip's unit on both paths and runs the blocks that follow (R135, R190). -/
def stripApply (s : State) (ls : Links) (comp : Bool) (mk : Int) (w : Work) : Work :=
  let k := blockUnit comp w
  let gain := fun (l : Overlay) (r : Run) => linked ls (linkOf l s k) (if comp then r.path.comp else r.path.gate).gs
  let one := fun (l : Overlay) (e : Env) (r : Run) =>
    let y := if unitOn l s k && (lentTo l s k).isNone then applyDyn (gain l r) mk r.x else r.x
    let o := coreOrder (seen l s (w.u + 2))
    runBlks l s e (if comp then o.2.2 else o.2.1) { r with x := y }
  let new := one (newView w.rt) w.en w.new
  let g := gain (newView w.rt) w.new
  { w with new := new, old := if w.rt.core.isSome then one (oldView w.rt) w.eo w.old else new, gDone := true,
           gGain := if comp then w.gGain else g, cGain := if comp then g else w.cGain }

/-- The automix state of a strip: gain 1 and level 0 at rest. -/
def AutoRt.rest : AutoRt := { p := 0, from_ := fxOne, to_ := fxOne }

/-- The automix group of a strip that is enabled and holds it, if any (R149); a suspended member applies gain 1 outside it
(R72). -/
def autoGroup (s : State) (u : Obj) : Option Nat :=
  let g := numF s (u + 0x500)
  if g = 0 ∨ suspended s (u + 0x500) then none else if isOn s (ob 5 (0x400 + g) 0) then some g else none

/-- Stages 4 to 6 of a strip after its compressor: mix of the paths, automix gain, fader, mute, direct out (R134, R147, R150). The recorded input of
the filters block is that of the new path, where it runs the customer image, and of the old one else (R467; log entry 25). -/
def stripBack (s : State) (i : Nat) (rec_ : Bool) (w : Work) (outs : Tab (List Int)) : State × Tab (List Int) :=
  let u := w.u
  let x := coreMix w.rt w.old.x w.new.x
  let send := coreMix w.rt w.old.send w.new.send
  let n := frameLen s
  let au := tget s.audio.auto AutoRt.rest u
  let grp := autoGroup s u
  let tau := match grp with | some g => 1000 * numF s (ob 5 (0x400 + g) 3) | none => 0
  let v := q823Fx x
  let p' := au.p + fxMul (fxMul v v - au.p) (fxOne - decayOf tau w.en.hz)
  let ag := au.from_ + divNearest ((au.to_ - au.from_) * ((i : Int) + 1)) n
  let t1 := match grp with | some _ => weigh ag x | none => x
  let s1 := match grp with
    | some _ => { s with audio := { s.audio with auto := tput s.audio.auto AutoRt.rest u { au with p := p' } } }
    | none => s
  let g1 := stepRamp s1 (u + 0x300)
  let a := gainStep g1.1 t1
  let g2 := stepRamp g1.2 (u + 0x301)
  let b := gainStep g2.1 a.1
  let tap := fun (c : Nat) => if c = 0 then w.t0 else if c = 1 then t1 else b.1
  let g3 := stepRamp g2.2 (u + 0x403)
  let dir := match w.rt.tapx with
    | some c => selMix c (tap c.old) (tap c.new)
    | none => tap (numF s (u + 0x402))
  let dg := gainStep g3.1 dir
  let r := coreStep { w.rt with path := w.new.path, input := selStep w.rt.input, tapx := selStep w.rt.tapx,
                                sat := w.rt.sat || a.2 || b.2 || (isOn s (u + 0x400) && dg.2),
                                fin := if rec_ then w.rt.fin ++ [((w.new.fin.orElse (fun _ => w.old.fin)).getD 0)] else w.rt.fin }
  let s2 := putUnit g3.2 u (setOld r w.old.path)
  let o1 := addSample outs (0xE00 + stripNo u) b.1
  let o2 := if isOn s (u + 0x200) then addSample o1 (numF s (u + 0x201)) send else o1
  (s2, if isOn s (u + 0x400) then addSample o2 (numF s (u + 0x401)) dg.1 else o2)

/-- The gain of the sample `i` samples on from the present one, with nothing moved on. -/
def rampAhead (s : State) (o : Obj) (i : Nat) : Int :=
  let r := endRamp (rampOf s o)
  if r.active then rampGain r (r.pos + i) else gainTarget s o

/-- The gain of the sample `j` samples before the present one, while its ramp runs. -/
def rampBehind (s : State) (o : Obj) (j : Nat) : Int :=
  let r := rampOf s o
  if r.active && decide (j ≤ r.pos) then rampGain r (r.pos - j) else gainNow s o

/-- The makeup gain of a strip's unit at sample `i` (R190, R195): its ramp moves on where the unit serves the strip; while the unit is lent,
the old path of a crossfade reads it. -/
def makeupOf (s : State) (k i : Nat) : Int × State :=
  let o := unitObj k + 0x030
  if (lentTo [] s k).isSome then (rampAhead s o i, s) else stepRamp s o

/-- Runs the front of every strip. -/
def frontAll (hz f i : Nat) (rec_ : Bool) : List Obj → State → State × List Work
  | [], s => (s, [])
  | u :: r, s =>
    let a := stripFront s hz f i rec_ u
    let b := frontAll hz f i rec_ r a.1
    (b.1, a.2 :: b.2)

/-- Whether the compressor block's unit is keyed on both paths, so that its gain does not wait for the strip's gate (R183). -/
def keyedComp (s : State) (w : Work) : Bool :=
  let o := unitObj (blockUnit true w) + 0x040
  seen (newView w.rt) s o == 1 && seen (oldView w.rt) s o == 1

/-- The strips for which a strip's gate waits: those whose compressor block's unit belongs to its group and has not formed its gain of this sample
(R191). -/
def gateWaits (s : State) (ws : List Work) (w : Work) : List Obj :=
  let k := blockUnit false w
  let groups := ([newView w.rt, oldView w.rt].filter (fun l => unitOn l s k && (lentTo l s k).isNone)).map (fun l => linkOf l s k)
  (ws.filter (fun v => !v.cDone && (stripLinks s true v).any (fun e => groups.contains e.1))).map (fun v => v.u)

/-- The strips that are waited for through any number of steps, from a list on. -/
def waitChain (wait : Obj → List Obj) : Nat → List Obj → List Obj
  | 0, os => os
  | n + 1, os => waitChain wait n (os ++ os.flatMap wait).eraseDups

/-- The strips whose gates stand in a ring that waits for none but itself: what each waits for waits for it. -/
def ringOf (s : State) (ws : List Work) : List Obj :=
  let all := (ws.filter (fun w => !w.gDone)).map (fun w => (w.u, gateWaits s ws w))
  let wait := fun (u : Obj) => ((all.find? (fun e => e.1 == u)).map (·.2)).getD []
  let chain := fun (u : Obj) => waitChain wait all.length (wait u)
  (all.map (·.1)).filter (fun u => (chain u).all (fun v => (chain v).contains u))

/-- Applies the gate of every strip that does not wait, runs the blocks up to its compressor and forms the compressor's gain. -/
def gateRound (late : List Obj) (i : Nat) (ls : Links) (waits : Work → Bool) : List Work → State → State × List Work
  | [], s => (s, [])
  | w :: r, s =>
    if w.gDone || waits w then
      (let b := gateRound late i ls waits r s
       (b.1, w :: b.2))
    else
      let m := makeupOf s (blockUnit false w) i
      let w1 := stripApply m.2 ls false m.1 w
      let w2 := if w1.cDone then w1 else stripDetect m.2 late true w1
      let b := gateRound late i ls waits r m.2
      (b.1, w2 :: b.2)

/-- The gates of all strips. Every unit of a link group has formed its gain of this sample before one of them applies it (R191). Only where
gates and the compressors behind them wait for each other in a ring can that not be: those gates go on, with the gains of the sample before of
the compressors of their ring (log entry 26). -/
def gateRounds (late : List Obj) (i : Nat) : Nat → List Work → State → State × List Work
  | 0, ws, s => (s, ws)
  | n + 1, ws, s =>
    if ws.all (fun w => w.gDone) then (s, ws)
    else
      let stuck := ws.all (fun w => w.gDone || !(gateWaits s ws w).isEmpty)
      let ring := if stuck then ringOf s ws else []
      let q := gateRound late i (allLinks s ws) (fun w => if stuck then !(ring.contains w.u) else !(gateWaits s ws w).isEmpty) ws s
      gateRounds late i n q.2 q.1

/-- Applies the compressor block of every strip with its makeup gain. -/
def compAll (i : Nat) (ls : Links) : List Work → State → State × List Work
  | [], s => (s, [])
  | w :: r, s =>
    let m := makeupOf s (blockUnit true w) i
    let w' := stripApply m.2 ls true m.1 w
    let b := compAll i ls r m.2
    (b.1, w' :: b.2)

/-- Runs the back of every strip. -/
def backAll (i : Nat) (rec_ : Bool) : List Work → State → Tab (List Int) → State × Tab (List Int)
  | [], s, o => (s, o)
  | w :: r, s, o =>
    let a := stripBack s i rec_ w o
    backAll i rec_ r a.1 a.2

/-- What the applied gains of a sample report: unit, applied gain, state. -/
abbrev Reports := List (Nat × Int × Lov)

/-- Reports of a strip's two units that serve their blocks on its running path. -/
def stripReports (s : State) (w : Work) : Reports :=
  let k := blockUnit false w
  let serves := fun (j : Nat) => (lentTo (newView w.rt) s j).isNone
  (if serves k then [(k, w.gGain, w.new.path.gate)] else []) ++ (if serves (k + 1) then [(k + 1, w.cGain, w.new.path.comp)] else [])

/-- One sample of all strips of a domain. -/
def stripSample (hz f i : Nat) (late : List Obj) (rec_ : Bool) (us : List Obj) (s : State) (outs : Tab (List Int)) :
    State × Tab (List Int) × Reports :=
  let a := frontAll hz f i rec_ us s
  let w1 := a.2.map (stripDetect a.1 late false)
  let w2 := w1.map (fun w => if keyedComp a.1 w then stripDetect a.1 late true w else w)
  let b := gateRounds late i (w2.length + 1) w2 a.1
  let c := compAll i (allLinks b.1 b.2) b.2 b.1
  let d := backAll i rec_ c.2 c.1 outs
  (d.1, d.2, c.2.flatMap (stripReports c.1))

/-! ### The automixer (R150) -/

/-- The members of an automix group, with their weighted levels. -/
def autoLevels (s : State) (g : Nat) (us : List Obj) : List (Obj × Int) :=
  (us.filter (fun u => autoGroup s u == some g)).map (fun u =>
    (u, fxMul (fxPowOfDb (gainDbFx (numF s (u + 0x501)))) (tget s.audio.auto AutoRt.rest u).p))

/-- Sets the target gains of a group at the end of a frame (R150). -/
def autoTargets (s : State) (g : Nat) (us : List Obj) : State :=
  let o := ob 5 (0x400 + g) 0
  let q := autoLevels s g us
  let sum := q.foldl (fun a e => a + e.2) 0
  let best := q.foldl (fun (b : Option (Obj × Int)) e =>
    match b with | some m => if m.2 < e.2 then some e else b | none => some e) none
  let floor := fxOfDb (gainDbFx (numF s (o + 2)))
  match best with
  | none => s
  | some m =>
    let open_ := decide (fxPowOfDb (gainDbFx (numF s (o + 1))) ≤ m.2)
    let s1 := if open_ then setN s (o + 4) (stripNo m.1) else s
    let win := numF s1 (o + 4)
    q.foldl (fun t e =>
      let gain := if open_ then
          (let r := fxSqrt (fxDiv e.2 sum)
           if r < floor then floor else r)
        else if stripNo e.1 = win then fxOne else floor
      let au := tget t.audio.auto AutoRt.rest e.1
      let t1 := setN t (e.1 + 0x502) (fxGainDb (fxToDb au.to_))
      { t1 with audio := { t1.audio with auto := tput t1.audio.auto AutoRt.rest e.1 { au with from_ := au.to_, to_ := gain } } }) s1

/-- A strip that belongs to no enabled group applies gain 1 and keeps no level. -/
def leaveAuto (s : State) (u : Obj) : State :=
  if (autoGroup s u).isSome then s
  else setN { s with audio := { s.audio with auto := tput s.audio.auto AutoRt.rest u AutoRt.rest } } (u + 0x502) 0

/-! ### Buses and matrices (R170) -/

/-- One bus or matrix in work. -/
structure BusWork where
  u   : Obj
  rt  : UnitRt
  old : Run
  new : Run
  deriving DecidableEq, Repr

/-- EQ of a bus or matrix on both paths. -/
def busFront (s : State) (hz : Nat) (u : Obj) (x : Int) : BusWork :=
  let r := coreEnd s u (unitRt s u)
  let one := fun (l : Overlay) (p : Path) =>
    let q := eqBlock l s u hz p x
    ({ x := q.1, send := 0, fin := none, path := q.2 } : Run)
  let new := one (newView r) r.path
  { u := u, rt := r, old := if r.core.isSome then one (oldView r) (oldPath r) else new, new := new }

/-- Detects the lent unit on both paths. -/
def busDetect (s : State) (late : List Obj) (hz f i : Nat) (ph : Phase) (w : BusWork) : BusWork :=
  let one := fun (l : Overlay) (r : Run) =>
    match lentUnit l s w.u with
    | some k =>
      let v := lovStep l s k hz r.path.comp (sidechain l s k i late (fun x => smp (receive s x f ph) i) r.path.comp r.x)
      { r with path := { r.path with comp := v } }
    | none => r
  { w with new := one (newView w.rt) w.new, old := one (oldView w.rt) w.old }

/-- Applies the lent unit on both paths, each with the makeup gain of its unit. -/
def busApply (s : State) (ls : Links) (mk : Nat → Int) (w : BusWork) : BusWork :=
  let one := fun (l : Overlay) (r : Run) =>
    match lentUnit l s w.u with
    | some k => if unitOn l s k then { r with x := applyDyn (linked ls (linkOf l s k) r.path.comp.gs) (mk k) r.x } else r
    | none => r
  { w with new := one (newView w.rt) w.new, old := one (oldView w.rt) w.old }

/-- Fader and mute of a bus or matrix; the result is its pre-output tap. -/
def busBack (s : State) (w : BusWork) : State × Int :=
  let x := coreMix w.rt w.old.x w.new.x
  let g1 := stepRamp s (w.u + 0x300)
  let a := gainStep g1.1 x
  let g2 := stepRamp g1.2 (w.u + 0x301)
  let b := gainStep g2.1 a.1
  let r := coreStep { w.rt with path := w.new.path, sat := w.rt.sat || a.2 || b.2 }
  (putUnit g2.2 w.u (setOld r w.old.path), b.1)

/-- Where the makeup ramp of a unit moves on in a frame: 0 on its strip, 1 on a bus, 2 on a matrix. -/
def makeupStage (s : State) (k : Nat) : Nat :=
  match lentTo [] s k with
  | none => 0
  | some b => if instOf b < 0x100 then 1 else 2

/-- The makeup gain of a unit at sample `i` as a bus or matrix `u` reads it on the old path of a crossfade, when another place moves its ramp: that
place has passed the whole frame, has passed this sample, is still before it, or is still before the frame. -/
def makeupAway (s : State) (u : Obj) (k i : Nat) : Int :=
  let o := unitObj k + 0x030
  let here := if instOf u < 0x100 then 1 else 2
  let there := makeupStage s k
  if there < here then rampBehind s o (frameLen s - i)
  else if here < there then rampAhead s o i
  else if (match lentTo [] s k with | some b => decide (instOf b < instOf u) | none => true) then gainNow s o
  else rampAhead s o 0

/-- The makeup gain of each unit that a path of a bus or matrix uses at sample `i`: the ramp of the unit now lent moves on. -/
def busMakeup (s : State) (u : Obj) (i : Nat) : (Nat → Int) × State :=
  let back := fun (t : State) (k : Nat) => makeupAway t u k i
  match lentUnit [] s u with
  | some k =>
    let m := stepRamp s (unitObj k + 0x030)
    (fun j => if j = k then m.1 else back m.2 j, m.2)
  | none => (back s, s)

/-- What the units lent to buses or matrices contribute to their groups. -/
def busLinks (s : State) (w : BusWork) : Links :=
  let runs := [(newView w.rt, w.new.path.comp.gs)] ++ (if w.rt.core.isSome then [(oldView w.rt, w.old.path.comp.gs)] else [])
  let units := (runs.filterMap (fun e => lentUnit e.1 s w.u)).eraseDups
  units.flatMap (fun k => contribution s k (runs.filter (fun e => lentUnit e.1 s w.u == some k)))

/-- One sample of all buses or all matrices of a domain: the taps, by unit. -/
def busSample (hz f i : Nat) (ph : Phase) (late : List Obj) (ins : List (Obj × List Int)) (s : State)
    (outs : Tab (List Int)) : State × Tab (List Int) × Reports :=
  let w1 := ins.map (fun e => busDetect s late hz f i ph (busFront s hz e.1 (smp e.2 i)))
  let ls := w1.flatMap (busLinks s)
  let fin := w1.foldl (fun (q : State × Tab (List Int)) w =>
    let m := busMakeup q.1 w.u i
    let b := busBack m.2 (busApply m.2 ls m.1 w)
    (b.1, addSample q.2 (instOf w.u) b.2)) (s, outs)
  (fin.1, fin.2, w1.flatMap (fun w => match lentUnit (newView w.rt) s w.u with
    | some k => [(k, linked ls (linkOf (newView w.rt) s k) w.new.path.comp.gs, w.new.path.comp)] | none => []))

/-! ### Whole frames -/

/-- Counts a frame that ended with saturation, for a strip at its slot's placement too, and clears what belongs to one frame (R79). -/
def closeUnit (s : State) (u : Obj) (counter : Nat) : State :=
  let r := unitRt s u
  let s1 := if r.sat then
      (let t := bump s (u + counter)
       if areaOf u = 5 then bump t (slotPlace t (stripNo u) + 0x00F) else t)
    else s
  putUnit s1 u { r with sat := false, fin := [], fout := none }

end Sys2Proof.Machine
end

