-- ==== Sys2Proof/Machine/Outputs.lean ====
section
/-!
DEFINITION. Machine/Outputs.lean: crosspoint sums (R162, R168, R169), output processors (R173 to R178) and their true-peak limiters
(R196 to R201).
-/
namespace Sys2Proof.Machine

/-! ### Crosspoint -/

/-- The NODE members of a row that are not at minus infinity or ramp, as members below 0x400. -/
def liveNodes (s : State) (row : Obj) : List Nat :=
  let pick := fun (o : Nat) => decide (row ≤ o) && decide (o < row + 0x400)
  sortUp ((((tkeys s.dict.force).filter pick) ++ ((tkeys s.audio.ramps).filter pick)).map (· - row))

/-- The signal or tap that member `m` of a row reads in frame `f`: strip outputs in stage one, bus pre-output taps in stage two
(R23, R25, R159). -/
def nodeSource (s : State) (stage2 : Bool) (f m : Nat) : List Int :=
  if stage2 then slotFrame s (256 + m) f else readSig s (0xE00 + m) f .cross .background

/-- One sample of a row's sum in Q27.52, with its ramps moved on (R168). -/
def rowSum (stage2 : Bool) (row f i : Nat) : List Nat → Int → State → Int × State
  | [], a, s => (a, s)
  | m :: r, a, s =>
    let g := stepRamp s (row + m)
    rowSum stage2 row f i r (macVal .sg a (smp (nodeSource g.2 stage2 f m) i) g.1).val g.2

/-- Whether a sum saturates in its conversion to Q8.23 (R168). -/
def sumSaturates (a : Int) : Bool := overflows 32 (shiftNearest a 29)

/-- One sample of several rows: row, and the unit whose SUM_SAT counts. -/
def rowsSample (stage2 : Bool) (f i : Nat) (rows : List Obj) (s : State) (outs : Tab (List Int)) : State × Tab (List Int) :=
  rows.foldl (fun q row =>
    let a := rowSum stage2 row f i (liveNodes q.1 row) 0 q.1
    let s1 := if sumSaturates a.1 then bump a.2 (ob 7 (instOf row) 0x600) else a.2
    (s1, addSample q.2 (instOf row) (accToSample a.1))) (s, outs)

/-! ### FIR (R175) -/

/-- The Q2.29 coefficients of FIR_COEF. -/
def firWords (s : State) (o : Obj) : List Int := (leWords (valOctets (forceVal s (o + 0x012)))).map sample

/-- The FIR sum over the inputs, newest first: SC products, RN extraction; and whether a product or the extraction saturates (R79, R86). -/
def firSum (h xs : List Int) : Int × Bool :=
  let a := (List.zip h xs).foldl (fun (a : Int × Bool) e => let m := macVal .sc a.1 e.2 e.1; (m.val, a.2 || m.ov)) (0, false)
  (accToSample a.1, a.2 || sumSaturates a.1)

/-! ### The limiter -/

/-- Phases 1 to 3 of the interpolator of ITU-R BS.1770-4, Annex 2, in units of 2^-20 (log entry 9). -/
def interp : Nat → List Int
  | 1 => [-30592, 30720, -54272, 93440, -174592, 487680, 817664, -210048, 106496, -61056, 34688, -19840]
  | 2 => [-19840, 34688, -61056, 106496, -210048, 817664, 487680, -174592, 93440, -54272, 30720, -30592]
  | _ => [-8704, 15616, -27904, 49920, -107264, 1019392, 144000, -62336, 34816, -20608, 11520, 1792]

/-- The interpolated value of one phase over twelve inputs, newest first, as a fraction in units of 2^-64. -/
def interpolate (k : Nat) (xs : List Int) : Int :=
  ((List.zip (interp k) xs).foldl (fun a e => a + e.1 * e.2) 0) * 2 ^ 21

/-- The magnitude. -/
def mag (x : Int) : Int := if x < 0 then -x else x

/-- P of an input position: sample peak, or the largest of the sample and three interpolated points, six inputs back (R197). -/
def peakOf (d : Nat) (xs : List Int) : Int :=
  if d < 6 then mag (q823Fx (smp xs 0))
  else
    let w := (List.range 12).map (fun j => smp xs j)
    [interpolate 1 w, interpolate 2 w, interpolate 3 w].foldl (fun m v => if m < mag v then mag v else m) (mag (q823Fx (smp xs 6)))

/-- C: the ceiling held below the conversion limit (R197). -/
def ceilingOf (s : State) (o : Obj) : Int :=
  let c := fxOfDb (gainDbFx (numF s (o + 0x041)))
  let top := fxOne - 2 ^ 42
  if top < c then top else c

/-- The required gain. -/
def needGain (c p : Int) : Int := if p ≤ c then fxOne else fxDiv c p

/-- The least of a window whose missing entries are 1. -/
def leastOf (l : List Int) : Int := l.foldl (fun a e => if e < a then e else a) fxOne

/-- A limiter at rest. -/
def LimRt.fresh : LimRt := { xs := [], cs := [], rs := [], hs := [], g := fxOne, d := 0, onx := none, dip := none }

/-- D of a LOOKAHEAD at a rate (R196); 0 in TIGHT (R61). -/
def lookahead (s : State) (us hz : Nat) : Nat := if frameLen s = 1 then 0 else usToSamples us hz

/-- K of R198. -/
def windowK (d : Nat) : Nat := if 6 ≤ d then d - 6 else d

/-- The gain of one output time from its input (R198): the new state, whose g is the gain; with D = 0 it is r of the sample itself. -/
def limGain (c a_r x : Int) (l : LimRt) : LimRt :=
  let xs := (x :: l.xs).take 400
  let cs := (c :: l.cs).take 8
  let cc := if 6 ≤ l.d then (cs[6]?).getD c else c
  let rs := (needGain cc (peakOf l.d xs) :: l.rs).take 400
  let k := windowK l.d
  let hs := (leastOf (rs.take (k + 1)) :: l.hs).take 400
  let w := hs.take (k + 1)
  let sum := w.foldl (fun a e => a + e) 0 + fxOne * (((k + 1 : Nat) : Int) - w.length)
  let a := sum / ((k + 1 : Nat) : Int)
  let g := if l.d = 0 ∨ a ≤ l.g then a else fxMul a_r l.g + fxMul (fxOne - a_r) a
  { l with xs := xs, cs := cs, rs := rs, hs := hs, g := g }

/-- One output sample of a limiter: delayed and limited signal crossed by LIM_ON, then the look-ahead dip (R196, R200, R201). -/
def limStep (s : State) (o : Obj) (hz i : Nat) (x : Int) (l : LimRt) : State × Int × LimRt :=
  let e := dipEnd l.dip
  let l0 := match e.2 with
    | some d => { l with dip := e.1, d := d, rs := [], hs := [] }
    | none => { l with dip := e.1 }
  let dip := dipOpen l0.dip i
  let l1 := limGain (ceilingOf s o) (decayOf (numF s (o + 0x043)) hz) x { l0 with dip := dip, onx := selEnd l0.onx 64 }
  let dry := smp l1.xs l1.d
  let wet := weigh l1.g dry
  let on := isOn s (o + 0x040)
  let pick := fun (c : Nat) => if c = 1 then wet else dry
  let y := match l1.onx with
    | some c => selMix c (pick c.old) (pick c.new)
    | none => pick (if on then 1 else 0)
  let acts := on || l1.onx.isSome
  let db := fxGainDb (fxToDb (if l1.g ≤ 0 then 1 else l1.g))
  let s1 := setN s (o + 0x046) db
  let s2 := if acts && decide (signedOf 32 db < signedOf 32 (numF s1 (o + 0x047))) then setN s1 (o + 0x047) db else s1
  let s3 := if acts && decide (l1.g < fxOne) then bump s2 (o + 0x048) else s2
  (s3, dipped dip y, { l1 with dip := dipStep dip, onx := selStep l1.onx })

/-! ### Output processors -/

/-- A processor at rest. -/
def OutRt.fresh : OutRt :=
  { delay := DelayRt.fresh, hist := [], taps := [0x20000000], firOn := false, firx := none, onx := none, fdip := none,
    lim := LimRt.fresh, sat := false }

/-- The runtime of a processor. -/
def outRt (s : State) (o : Obj) : OutRt := tget s.audio.outs OutRt.fresh o

/-- Puts the runtime of a processor. -/
def putOut (s : State) (o : Obj) (r : OutRt) : State :=
  { s with audio := { s.audio with outs := tput s.audio.outs OutRt.fresh o r } }

/-- A new coefficient set: at once while the FIR is out, by parallel crossfade when both sets are short enough, else by a dip;
during a crossfade or dip the newest is held (R175). -/
def firChange (s : State) (o : Obj) (r : OutRt) (h : List Int) : OutRt :=
  let short := 2048 / unitClass s o
  let dipOf := fun (x : Option (Dip × List Int)) =>
    match x with
    | some (d, _) => if d.stage < 2 then some (d, h) else some ({ d with held := some 0 }, h)
    | none => some ({ stage := 0, k := 0, next := 0, held := none }, h)
  if !(isOn s (o + 0x010)) && r.onx.isNone then { r with taps := h }
  else if r.fdip.isSome then { r with fdip := dipOf r.fdip }
  else match r.firx with
    | some (c, old, _) => if c.k = 0 then { r with taps := h } else { r with firx := some (c, old, some h) }
    | none =>
      if r.taps = h then r
      else if r.taps.length ≤ short ∧ h.length ≤ short then
        { r with firx := some ({ k := 0, n := numF s (o + 0x015), old := 0, new := 0, held := none }, r.taps, none), taps := h }
      else { r with fdip := dipOf none }

/-- Ends a parallel coefficient crossfade that has run; a held set starts its own change. -/
def firEnd (s : State) (o : Obj) (r : OutRt) : OutRt :=
  match r.firx with
  | some (c, _, held) =>
    if c.k < c.n then r
    else (match held with
      | some h => firChange s o { r with firx := none } h
      | none => { r with firx := none })
  | none => r

/-- Ends the stages of a FIR dip: the new set applies from the fade-in; a set held during the fade-in makes a new dip. -/
def firDipEnd (r : OutRt) : OutRt :=
  match r.fdip with
  | some (d, h) =>
    let e := dipEnd (some d)
    let taps := if e.2.isSome then h else r.taps
    { r with taps := taps, fdip := match e.1 with | some d' => some (d', h) | none => none }
  | none => r

/-- One sample of a processor up to its limiter input (R173). -/
def outFront (s : State) (o : Obj) (hz i n : Nat) (x : Int) : State × Int × OutRt :=
  let r0 := firDipEnd (firEnd s o (outRt s o))
  let r1 := { r0 with onx := selEnd r0.onx (numF s (o + 0x014)) }
  let d := delayStep r1.delay (isOn s o) (usToSamples 2500000 hz) i n x
  let hist := (d.1 :: r1.hist).take 4096
  let new := firSum r1.taps hist
  let mixed := match r1.firx with
    | some (c, old, _) => selMix c (firSum old hist).1 new.1
    | none => new.1
  let firSat := match r1.firx with
    | some (_, old, _) => (firSum old hist).2 || new.2
    | none => new.2
  let fdip := match r1.fdip with
    | some (q, h) => (match dipOpen (some q) i with | some q' => some (q', h) | none => none)
    | none => none
  let fir := dipped (match fdip with | some (q, _) => some q | none => none) mixed
  let pick := fun (c : Nat) => if c = 1 then fir else d.1
  let y := match r1.onx with
    | some c => selMix c (pick c.old) (pick c.new)
    | none => pick (numF s (o + 0x010))
  let g1 := stepRamp s (o + 0x020)
  let a := gainStep g1.1 y
  let g2 := stepRamp g1.2 (o + 0x021)
  let b := gainStep g2.1 a.1
  let firx := match r1.firx with | some (c, old, h) => some ({ c with k := c.k + 1 }, old, h) | none => none
  let fdip' := match fdip with
    | some (q, h) => (match dipStep (some q) with | some q' => some (q', h) | none => none)
    | none => none
  let runs := isOn s (o + 0x010) || r1.onx.isSome
  let r2 := { r1 with delay := d.2, hist := hist, firx := firx, onx := selStep r1.onx, fdip := fdip',
                      sat := r1.sat || a.2 || b.2 || (runs && firSat) }
  (g2.2, b.1, r2)

/-- One sample of a processor: its output, with OUT_CLIPS counted (R177). -/
def outStep (s : State) (o : Obj) (hz i n : Nat) (x : Int) : State × Int × Int :=
  let a := outFront s o hz i n x
  let b := limStep a.1 o hz i a.2.1 a.2.2.lim
  let s1 := putOut b.1 o { a.2.2 with lim := b.2.2 }
  (if out24 b.2.1 = b.2.1 then s1 else bump s1 (o + 0x600), a.2.1, b.2.1)

/-- The output signal of a processor (R25). -/
def outSignal (k : Nat) : Nat := 0x1200 + k

/-- The tap slot that a processor reads: bus taps, then matrix taps (R159). -/
def outTap (k : Nat) : Nat := if k < 256 then 256 + k else 640 + (k - 256)

/-- Counts a processor's frame that ended with saturation (R79). -/
def closeOut (s : State) (o : Obj) : State :=
  let r := outRt s o
  if r.sat then putOut (bump s (o + 0x601)) o { r with sat := false } else s

end Sys2Proof.Machine
end

