-- ==== Sys2Proof/Machine/React.lean ====
section
/-!
DEFINITION. Machine/React.lean: what a value that lands in the audio path starts: ramps, fades, crossfades and dips (R139 to R146,
R164 to R167, R171, R172, R175, R195, R200, R201, R216), and the end of each when its last sample has passed.
-/
namespace Sys2Proof.Machine

/-- A landed value with what stood before: object, value before, gain before. -/
structure Landed where
  obj  : Obj
  old  : Val
  gain : Int
  deriving DecidableEq, Repr

/-- Whether a member of a strip belongs to its core (R139). -/
def stripCore (m : Nat) : Bool :=
  m == 0x002 || m == 0x200 || m == 0x202 || (decide (0x060 ≤ m) && decide (m ≤ 0x066))
  || (decide (0x100 ≤ m) && decide (m ≤ 0x181))

/-- The strip, bus or matrix that a dynamics unit serves. -/
def servedBy (s : State) (u : Nat) : Obj :=
  match lentTo [] s u with
  | some o => baseOf o
  | none => ob 5 (u / 2) 0

/-- Delay members of strips and output processors: on, time, delay in force, longest delay in microseconds. -/
def delayMembers (o : Obj) : Obj × Obj × Obj :=
  let u := baseOf o
  if areaOf o = 5 then (u + 0x050, u + 0x051, u + 0x052) else (u, u + 1, u + 2)

/-- A change of DELAY_ON or, while the delay is on, of DELAY makes a dip (R145). -/
def delayChange (s : State) (o : Obj) (d : DelayRt) : DelayRt :=
  let m := delayMembers o
  let new := delayOf s m.1 m.2.1 (domHz s (ownerDom s o))
  if o = m.2.1 ∧ !(isOn s m.1) then d else { d with dip := dipChange d.dip new }

/-- SERVES and SERVED of a unit report its present use (R172). -/
def serveUnit (s : State) (k : Nat) : State :=
  let o := unitObj k
  match lentTo [] s k with
  | some b => setN (setN s (o + 0x060) (if instOf b < 0x100 then 2 else 3)) (o + 0x061) (instOf b % 0x100)
  | none => setN (setN s (o + 0x060) (k % 2)) (o + 0x061) (k / 2)

/-- The effect of a DYN_UNIT change: the bus or matrix and the strips of the units concerned start a core crossfade at the same sample, and
SERVES and SERVED follow (R172). -/
def lendUnit (s : State) (b : Obj) (old : Nat) : State :=
  let one := fun (t : State) (k : Nat) =>
    if k < 0x800 then coreChange (serveUnit t k) (ob 5 (k / 2) 0) (b + 0x020) (.num old) else t
  one (one (coreChange s b (b + 0x020) (.num old)) old) (numF s (b + 0x020))

/-- The reaction of the unit whose member has landed. -/
def reactAudio (s : State) (x : Landed) : State :=
  let o := x.obj
  let u := baseOf o
  let m := memOf o
  let i := instOf o
  let ramp := fun (len law : Nat) => startRamp s o x.gain len law
  match areaOf o with
  | 5 =>
    if 0x400 ≤ i then s
    else
      let r := unitRt s u
      if m = 0 then putUnit s u { r with input := selChange r.input (valNat x.old) (numF s o) (numF s (u + 1)) }
      else if m = 0x040 ∨ m = 0x300 ∨ m = 0x403 then ramp (numF s (u + 0x042)) (numF s (u + 0x043))
      else if m = 0x041 then ramp (numF s (u + 1)) 2
      else if m = 0x301 then ramp (numF s (u + 0x302)) 2
      else if m = 0x402 then putUnit s u { r with tapx := selChange r.tapx (valNat x.old) (numF s o) (numF s (u + 1)) }
      else if m = 0x050 ∨ m = 0x051 then putUnit s u { r with delay := delayChange s o r.delay }
      else if stripCore m && !(noEffect s r o) then coreChange s u o x.old
      else s
  | 6 => if m < 0x400 then ramp (numF s (u + 0x401)) (numF s (u + 0x400)) else s
  | 7 =>
    if i < 0x200 then
      (if m = 0x300 then ramp (numF s (u + 0x042)) (numF s (u + 0x043))
       else if m = 0x301 then ramp (numF s (u + 0x302)) 2
       else if m = 0x020 then lendUnit s u (valNat x.old)
       else if 0x100 ≤ m ∧ m ≤ 0x181 then coreChange s u o x.old
       else s)
    else
      (let r := outRt s u
       if m ≤ 1 then putOut s u { r with delay := delayChange s o r.delay }
       else if m = 0x010 then
         putOut s u { r with onx := selChange r.onx (valNat x.old) (numF s o) (numF s (u + 0x014)), firOn := isOn s o }
       else if m = 0x011 ∨ m = 0x012 then
         (let r' := firChange s u r (firWords s u)
          setN (putOut s u r') (u + 0x016) (if numF s (u + 0x011) ≤ 2048 / unitClass s u then 0 else 1))
       else if m = 0x020 then ramp (numF s (u + 0x023)) (numF s (u + 0x024))
       else if m = 0x021 then ramp (numF s (u + 0x022)) 2
       else if m = 0x040 then
         putOut s u { r with lim := { r.lim with onx := selChange r.lim.onx (valNat x.old) (numF s o) 64 } }
       else if m = 0x042 then
         putOut s u { r with lim := { r.lim with dip := dipChange r.lim.dip (lookahead s (numF s o) (domHz s (ownerDom s o))) } }
       else s)
  | 8 =>
    if m = 0x030 then ramp 256 0
    else if dynCore m then coreChange s (servedBy s i) o x.old
    else s
  | _ => s

/-- What stood before at a member: a suspended signal reference read as silence, which the number 0x2000 stands for (R72). -/
def landedOld (s : State) (o : Obj) : Val :=
  if suspended s o && (areaOf o == 5 || areaOf o == 6) then .num 0x2000 else forceVal s o

/-- Puts landed values in force together, then starts what each of them starts, so that a new length or law governs the changes
that land with it (R213). A member written with its own value starts nothing, but for a node whose ramp still runs: it starts a new one
from the gain reached (R164, R167). -/
def applyAudio (s : State) (vs : List (Obj × Val)) : State :=
  let olds := (vs.filter (fun e => !(isClear e.1) && (decide (forceVal s e.1 ≠ e.2) || suspended s e.1
      || (areaOf e.1 == 6 && decide (memOf e.1 < 0x400) && (rampOf s e.1).active)))).map
    (fun e => ({ obj := e.1, old := landedOld s e.1, gain := gainNow s e.1 } : Landed))
  let s1 := vs.foldl (fun t e => putLanded t e.1 e.2) (unsuspend s (vs.map (·.1)))
  olds.foldl reactAudio s1

/-- Applies the audio values of a class that are due at sample `i` of frame `f` of domain `d`. -/
def landAudio (s : State) (d f i : Nat) (p : Obj → Bool) : State :=
  let q := fun (o : Obj) => isAudioObj o && p o
  applyAudio (dropDue s d f i q) (dueValues s d f i q)

/-- The phase that applies a value of the audio path. A DYN_UNIT lands before the strips of its frame, so that the strip and the bus or
matrix cross from the same sample on (R172). -/
def phaseOfObj (s : State) (o : Obj) : Phase :=
  match areaOf o with
  | 5 => .strip
  | 6 => if instOf o < 0x100 then .cross else .matrix2
  | 7 => if isDynUnit s o then .strip
         else if instOf o < 0x100 then .bus else if instOf o < 0x200 then .matrixP else .output
  | 8 => (let k := servedBy s (instOf o)
          if areaOf k = 5 then .strip else if instOf k < 0x100 then .bus else .matrixP)
  | _ => .strip

/-! ### Ends of crossfades, dips and ramps -/

/-- Ends what has run to its last sample in a strip, bus or matrix. -/
def endCore (s : State) (u : Obj) : State := putUnit s u (coreEnd s u (unitRt s u))

/-- The core crossfade of a strip, bus or matrix ends; held changes start one (R143). -/
def execCoreCrossfadeEnd (u : Obj) (s : State) : Host.Outcome State Fault Refusal := .next (endCore s u)

/-- The input crossfade of a strip ends; a held input starts one (R142). -/
def execInputCrossfadeEnd (k : Nat) (s : State) : Host.Outcome State Fault Refusal :=
  let u := ob 5 k 0
  let r := unitRt s u
  .next (putUnit s u { r with input := selEnd r.input (numF s (u + 1)) })

/-- A fade of a strip's or output processor's dips ends (R146, R175, R201). -/
def execDelayDipFadeEnd (u : Obj) (s : State) : Host.Outcome State Fault Refusal :=
  if areaOf u = 5 then
    (let r := unitRt s u
     let d := delayEnd r.delay
     .next (setN (putUnit s u { r with delay := d }) (u + 0x052) d.now))
  else
    (let r := firDipEnd (outRt s u)
     let d := delayEnd r.delay
     let e := dipEnd r.lim.dip
     let l := match e.2 with
       | some n => { r.lim with dip := e.1, d := n, rs := [], hs := [] }
       | none => { r.lim with dip := e.1 }
     .next (setN (putOut s u { r with delay := d, lim := l }) (u + 2) d.now))

/-- A node's ramp ends: ACTIVE returns to 0 (R165). -/
def execNodeRampEnd (row source : Nat) (s : State) : Host.Outcome State Fault Refusal :=
  let o := ob 6 row source
  .next (putRamp s o (endRamp (rampOf s o)))

/-- A FIR crossfade of a processor ends; a held change starts its own (R175). -/
def execFirCrossfadeEnd (k : Nat) (s : State) : Host.Outcome State Fault Refusal :=
  let u := ob 7 (0x200 + k) 0
  let r := firEnd s u (outRt s u)
  .next (putOut s u { r with onx := selEnd r.onx (numF s (u + 0x014)) })

/-- A LIM_ON crossfade ends; a held change starts one (R200). -/
def execLimOnCrossfadeEnd (k : Nat) (s : State) : Host.Outcome State Fault Refusal :=
  let u := ob 7 (0x200 + k) 0
  let r := outRt s u
  .next (putOut s u { r with lim := { r.lim with onx := selEnd r.lim.onx 64 } })

/-- The hold of an open gate has run out. The samples close it, each by its own level: the gate stays open at a sample that finds the counter at 0
and L at T - HYSTERESIS or above, and closes at one below (gateStep). GATE_OPEN reports the state that they have left on the running path
(R188). -/
def execGateHoldExpired (k : Nat) (s : State) : Host.Outcome State Fault Refusal :=
  let u := servedBy s k
  let p := (unitRt s u).path
  let v := if areaOf u == 5 && k % 2 == 0 then p.gate else p.comp
  .next (if seen [] s (unitObj k + 1) = 0 then setN s (unitObj k + 0x063) (if v.isOpen then 1 else 0) else s)

end Sys2Proof.Machine
end

