-- ==== Sys2Proof/Machine/Clocks.lean ====
section
/-!
DEFINITION. Machine/Clocks.lean: domains, their references and DPLLs (R277 to R293).
-/
namespace Sys2Proof.Machine

/-! ### Usable references (R281) -/

/-- Whether a time base counts as locked (R300). -/
def tbLocked (s : State) (k : Nat) : Bool :=
  let v := numF s (ob 2 (0x10 + k) 0x10)
  numF s (ob 2 (0x10 + k) 1) != 0 && (v == 2 || ((v == 4 || v == 5) && (tb s k).wasLock))

/-- Whether a rate in millihertz lies within `ppm` of a nominal. -/
def nearRate (nominal rate ppm : Nat) : Bool :=
  decide (rate * 1000000 ≤ nominal * (1000000 + ppm)) && decide (nominal * (1000000 - ppm) ≤ rate * 1000000)

/-- The nominal rate, in millihertz, of a reference for a domain. -/
def refNominal (s : State) (d code : Nat) : Nat := if code = 2 then 10000000 else domHz s d * 1000

/-- Whether domain `d` can use a reference. -/
def usable (s : State) (d code : Nat) : Bool :=
  let o := ob 2 (0x20 + code) 0
  if code ≤ 2 then numF s o == 2 && nearRate (refNominal s d code) (numF s (o + 1)) 100
  else if code ≤ 6 then tbLocked s (code - 3)
  else code == 7

/-- The list of a domain: SELECT, then the fallbacks up to the first 15 (R283). -/
def refList (s : State) (d : Nat) : List Nat :=
  numF s (ob 2 d 3) :: ((List.range 4).map (fun j => numF s (ob 2 d (4 + j)))).takeWhile (fun c => c != 15)

/-- The USABLE bits (R290). -/
def usableBits (s : State) (d : Nat) : Nat :=
  ((List.zip [0, 1, 2, 3, 4] (refList s d)).filter (fun e => usable s d e.2)).foldl (fun a e => a + 2 ^ e.1) 0

/-- The frequency of a reference against nominal, in 0.1 ppb: that of its last gate without a miss or a glitch, since the phase detectors ignore
those edges (R280). -/
def refOffset (s : State) (d code : Nat) : Int :=
  if code ≤ 2 then
    (let n : Int := refNominal s d code
     divNearest ((((tget s.refs RefIn.idle code).clean : Int) - n) * 10000000000) n)
  else if code ≤ 6 then divNearest (tb s (code - 3)).freq 100
  else 0

/-- A frequency held within plus and minus 100 ppm of nominal (R276). -/
def heldFreq (f : Int) : Int := if 1000000 < f then 1000000 else if f < -1000000 then -1000000 else f

/-- The offset in FREQ_OFFSET. -/
def freqOf (s : State) (d : Nat) : Int := signedOf 32 (numF s (ob 2 d 0x12))

/-- Whether the master clock of a domain drives outputs: the domain is ON, and where a transition has stopped its ticks, it is not the one being
retuned (R73, R288). -/
def clocksOut (s : State) (d : Nat) : Bool := numF s (ob 2 d 1) == 2 && ((dom s d).running || ((dom s d).resume && d != 0))

/-- The frequency of word-clock output `j`: 1 fs of the domain that drives it, as its master clock stands (R288). -/
def wclkFreq (s : State) (j : Nat) : Nat :=
  match (List.range 4).find? (fun e => bit (numF s (ob 2 e 0x24)) j == 1) with
  | some e => if clocksOut s e then ((domHz s e : Int) * (10000000000 + freqOf s e)).toNat else 0
  | none => 0

/-- The word-clock outputs follow the master clocks. -/
def driveWclk (s : State) : State :=
  { s with pins := { s.pins with wclkOut := tput (tput s.pins.wclkOut 0 0 (wclkFreq s 0)) 0 1 (wclkFreq s 1) } }

/-- FRAME_OUT of a domain without ticks is driven low (R288; log entry 196). -/
def lowOutputs (s : State) (d : Nat) : State :=
  driveWclk { s with pins := { s.pins with frameOut := tput s.pins.frameOut 0 d 0 } }

/-- Sets FREQ_OFFSET (R276). -/
def setFreq (s : State) (d : Nat) (f : Int) : State := driveWclk (setN s (ob 2 d 0x12) (wrapTo 32 (heldFreq f)))

/-! ### The mean of the lock (R284) -/

/-- The newest stretches that make up a length of time. -/
def takeTime : Nat → List (Nat × Int) → List (Nat × Int)
  | _, [] => []
  | left, e :: r => if e.1 < left then e :: takeTime (left - e.1) r else [(left, e.2)]

/-- The last second of a domain in LOCKED, with its present stretch. -/
def lockRun (s : State) (d : Nat) : List (Nat × Int) :=
  let x := dom s d
  takeTime 1250000000 (if numF s (ob 2 d 0x11) = 2 then (s.now - x.lockAt, freqOf s d) :: x.locks else x.locks)

/-- The mean frequency over stretches of time; `f` stands for no time at all. -/
def meanFreq (f : Int) (l : List (Nat × Int)) : Int :=
  let n : Nat := l.foldl (fun a e => a + e.1) 0
  if n = 0 then f else divNearest (l.foldl (fun (a : Int) e => a + e.1 * e.2) 0) n

/-- Closes the present stretch in LOCKED. -/
def noteLock (s : State) (d : Nat) : State := setDom s d { dom s d with locks := lockRun s d, lockAt := s.now }

/-! ### Switching -/

/-- A second in units of 10^-10 core cycles. -/
def secondPhase : Int := 12500000000000000000

/-- The rate of a domain as a divisor. -/
def hzOf (s : State) (d : Nat) : Int := max 1 (domHz s d)

/-- A phase difference as the nearest one modulo a sample, at most half a sample (R285). -/
def nearestPhase (s : State) (d : Nat) (x : Int) : Int :=
  let y := x * hzOf s d % secondPhase
  divNearest (if y * 2 ≤ secondPhase then y else y - secondPhase) (hzOf s d)

/-- A phase difference modulo a sample as a delay (R286). -/
def delayPhase (s : State) (d : Nat) (x : Int) : Int := divNearest (x * hzOf s d % secondPhase) (hzOf s d)

/-- A time in units of 2^-32 ns as a phase. -/
def finePhase (x : Int) : Int := divNearest (x * 100000000000) 34359738368

/-- PHASE_ERROR of a phase. -/
def phaseNs (x : Int) : Int := divNearest (x * 8) 100000000000

/-- Sets PHASE_ERROR, which is 0 for the references without a phase (R290). -/
def setPhase (s : State) (d : Nat) (x : Int) : State :=
  let code := numF s (ob 2 d 0x10)
  setN s (ob 2 d 0x13) (if code = 2 ∨ code = 7 then 0 else wrapTo 32 (phaseNs x))

/-- The phase of a domain's sample edges against a reference at its tick: against the sample instants of a time base it follows from TIME (R278);
against a word clock it stays what it was while the reference does, and is else open (R285, R286; log entry 6). -/
def refPhase (s : State) (d code : Nat) (keep : Bool) : Int × State :=
  let x := dom s d
  if code = 2 then (0, s)
  else if 3 ≤ code then (nearestPhase s d (finePhase (tbFine s (code - 3) x.cycle)), s)
  else if keep then (x.slew - x.pendStep, s)
  else
    let q := drawUpTo s (secondPhase / hzOf s d).toNat
    (nearestPhase s d q.1, q.2)

/-- A SLEW begins to remove a phase difference (R285). -/
def startSlew (s : State) (d : Nat) (x : Int) : State :=
  setDom (setPhase (setN s (ob 2 d 0x11) 4) d x) d { dom s d with pendStep := 0, slew := x }

/-- A STEP is due to delay the domain by a phase difference at its next tick (R286). -/
def startStep (s : State) (d : Nat) (x : Int) : State :=
  setDom (setPhase (setN s (ob 2 d 0x11) 1) d x) d { dom s d with pendStep := delayPhase s d (-x), slew := 0 }

/-- Starts a switch to a reference in the domain's style (R283, R285, R286). A switch to the reference that the domain runs on keeps the phase
reached (R287). -/
def switchTo (s : State) (d code : Nat) : State :=
  let o := ob 2 d 0
  let old := numF s (o + 0x10)
  let keep := old == code && [1, 2, 4].contains (numF s (o + 0x11))
  let s1 := raise (bump (setN (noteLock s d) (o + 0x10) code) (o + 0x16)) 0x2005 o (code + 256 * old)
  let x := dom s1 d
  if code = 7 then
    setDom (setPhase (setN (setFreq s1 d 0) (o + 0x11) 0) d 0) d { x with wasSel := true, pendStep := 0, slew := 0, phaseErr := 0 }
  else
    let q := refPhase s1 d code keep
    let s2 := setDom q.2 d { x with wasSel := true, phaseErr := 0 }
    if numF s1 (o + 8) = 1 then startStep (setFreq s2 d (refOffset s2 d code)) d q.1 else startSlew s2 d (nearestPhase s2 d q.1)

/-- Enters holdover in the core cycle of the loss, at the mean frequency of the last second in LOCKED (R283, R284, R287). -/
def enterHoldover (s : State) (d : Nat) : State :=
  let o := ob 2 d 0
  let s0 := noteLock s d
  let f := heldFreq (meanFreq (dom s d).holdFreq (dom s0 d).locks)
  let s1 := setDom s0 d { dom s0 d with pendStep := 0, slew := 0, phaseErr := 0 }
  raise (bump (setN (setN (setFreq s1 d f) (o + 0x10) 15) (o + 0x11) 3) (o + 0x17)) 0x2006 o (wrapTo 32 f)

/-- Whether the domains follow the active side through the Rosemary link, their own reference lists not in use (R420). -/
def followsPeer (s : State) : Bool := numF s (ob 12 0 3) == 2 && numF s (ob 12 0 1) == 2

/-- The domains that run on a reference and can use it no longer. -/
def losers (s : State) (code : Nat) : List Nat :=
  (List.range 4).filter (fun d => !(followsPeer s) && [1, 2, 3, 4].contains (numF s (ob 2 d 1))
    && numF s (ob 2 d 0x10) == code && !(usable s d code))

/-- Whether a domain looks for a reference: in holdover, or in free-run because no entry was usable (R283). -/
def seeks (s : State) (d : Nat) : Bool := numF s (ob 2 d 0x10) == 15 || !((dom s d).wasSel)

/-! ### Life of a domain (R277) -/

/-- A domain enters ON: its ticks begin and its outputs wait for alignment (R289). -/
def domainOn (s : State) (d : Nat) : State :=
  let s1 := moveUnit s (ob 2 d 0) 2
  setDom s1 d { dom s1 d with running := true, waiting := [0, 1, 2] }

/-- The first usable entry of a domain's list (R283). -/
def firstUsable (s : State) (d : Nat) : Option Nat := (refList s d).find? (fun c => usable s d c)

/-- The DPLL of an enabled domain starts on the first usable entry, else it waits (R277). Only SELECT brings a free-running domain ON at
once; an internal oscillator reached as a fallback waits for the end of the 1 s (log entry 161). In a standby it locks to the active side's clock
through the link (R419, R420). -/
def startDpll (s : State) (d : Nat) : State :=
  let o := ob 2 d 0
  if followsPeer s then
    setDom (setN (setN (setN (setFreq s d 0) (o + 0x13) 0) (o + 0x10) 15) (o + 0x11) 1) d
      { dom s d with holdFreq := 0, locks := [], slew := 0, pendStep := 0, phaseErr := 0, wasSel := true }
  else
  let x : Domain := { dom s d with holdFreq := 0, locks := [], slew := 0, pendStep := 0, phaseErr := 0, wasSel := (firstUsable s d).isSome }
  let s0 := setN s (o + 0x13) 0
  match firstUsable s d with
  | some c =>
    if c = 7 then
      (let s1 := setDom (setN (setN (setFreq s0 d 0) (o + 0x10) 7) (o + 0x11) 0) d x
       if numF s (o + 3) = 7 then domainOn s1 d else s1)
    else setDom (setN (setN (setFreq s0 d (refOffset s d c)) (o + 0x10) c) (o + 0x11) 1) d x
  | none => setDom (setN (setN (setFreq s0 d 0) (o + 0x10) 15) (o + 0x11) 0) d x

/-- Whether a domain in STARTING runs on no reference with edges: the internal oscillator as a fallback, or none. -/
def awaitsRef (s : State) (d : Nat) : Bool :=
  !(followsPeer s) && numF s (ob 2 d 1) == 1 && (numF s (ob 2 d 0x10) == 15 || numF s (ob 2 d 0x10) == 7)

/-- A domain in STARTING that waits for a reference takes one that has become usable. -/
def retryStarts (s : State) : State :=
  (List.range 4).foldl (fun t d =>
    if awaitsRef t d && (match firstUsable t d with | some c => c != numF t (ob 2 d 0x10) || numF t (ob 2 d 3) == 7 | none => false)
    then startDpll t d else t) s

/-- A reference that has become unusable is lost to each domain that uses it (R281, R283, R293); one in STARTING takes the next usable
entry at once. One that no domain runs on raises nothing (log entry 180). -/
def loseRef (s : State) (code why : Nat) : State :=
  let ds := losers s code
  if ds.isEmpty then s
  else
    let s1 := if why = 2 then ds.foldl (fun t d => raise t 0x2003 (ob 2 (0x20 + code) 0) (2 + 256 * d)) s
              else raise s 0x2003 (ob 2 (0x20 + code) 0) why
    retryStarts (ds.foldl enterHoldover s1)

/-- The domain's DPLL locks (R277, R285): its phase error lies within 100 ns. The frequency of the active side's clock is open within the locking
range (R276, R420). -/
def execDpllLocked (d : Nat) (s : State) : Host.Outcome State Fault Refusal :=
  let o := ob 2 d 0
  if d < 4 ∧ numF s (o + 0x11) = 1 then
    let code := numF s (o + 0x10)
    let p := if followsPeer s then drawUpTo s 2000000 else (0, s)
    let f := if followsPeer s then (p.1 : Int) - 1000000 else refOffset s d code
    let q := drawUpTo p.2 200
    let s1 := setN (setFreq q.2 d f) (o + 0x11) 2
    let s2 := setN s1 (o + 0x13) (if code = 2 ∨ code = 7 then 0 else wrapTo 32 ((q.1 : Int) - 100))
    let s3 := setDom s2 d { dom s2 d with holdFreq := heldFreq f, lockAt := s.now, slew := 0 }
    .next (if numF s3 (o + 1) = 1 then domainOn s3 d else s3)
  else .next s

/-- The core cycles of a frame of a domain. -/
def frameCycles (s : State) (d : Nat) : Nat := frameLen s * 1250000000 / (if domHz s d = 0 then 1 else domHz s d)

/-- Whether a SLEW has removed the phase, to within the step of its last frame, and stands at the reference's frequency (R285). -/
def slewMatched (s : State) (d : Nat) : Bool :=
  freqOf s d == heldFreq (refOffset s d (numF s (ob 2 d 0x10))) && decide ((dom s d).slew.natAbs ≤ frameCycles s d)

/-- A SLEW has removed the phase and is back at the reference's frequency: ACQUIRING (R285). One that has not goes on. -/
def execDpllSlewDone (d : Nat) (s : State) : Host.Outcome State Fault Refusal :=
  let o := ob 2 d 0
  if d < 4 ∧ numF s (o + 0x11) = 4 ∧ slewMatched s d then
    let s1 := setN (setN s (o + 0x11) 1) (o + 0x13) 0
    .next (setDom s1 d { dom s1 d with slew := 0 })
  else .next s

/-- The frequency above that of the reference, in the direction that removes a phase `p`, for the next frame of a SLEW (R285; log entry 197): the
largest that is at most `most` from the present one, lies within the band where that can be, and lets the frequency return to zero offset, by
`most` a frame, no later than the phase is gone; the last frame removes the rest. -/
def slewNext (u p dt most band : Int) : Int :=
  let q := divNearest p dt
  let up := max (min (u + most) band) (u - most)
  let fits := fun (c : Int) => decide (c ≤ 0) || decide (dt * c * (c + most) ≤ 2 * most * p)
  if q ≤ most ∧ q ≤ band ∧ u - most ≤ q ∧ q ≤ u + most then q
  else if fits up then up
  else if u ≤ band ∧ fits u then u
  else u - most

/-- One frame of a SLEW (R285): the frequency moves by at most 1 ppm per ms; the phase follows the difference of the frequencies. REF10M_IN has no
phase to remove. -/
def slewTick (s : State) (d : Nat) : State :=
  let o := ob 2 d 0
  if numF s (o + 0x11) = 4 then
    let code := numF s (o + 0x10)
    let r := heldFreq (refOffset s d code)
    let dt : Int := max 1 (frameCycles s d)
    let x := dom s d
    let late := decide (0 ≤ x.slew)
    let u := if late then freqOf s d - r else r - freqOf s d
    let v := slewNext u (mag x.slew) dt (max 1 (dt * 8 / 1000)) (numF s (o + 9) * 1000 : Nat)
    let g := heldFreq (if late then r + v else r - v)
    let ph := if code = 2 then 0 else x.slew - (g - r) * dt
    setDom (setPhase (setFreq s d g) d ph) d { x with slew := ph }
  else s

/-- One frame of a locked domain: its master clock follows the reference by the loop that BANDWIDTH chooses, whose law is open (R276, R290; log
entry 198). -/
def lockTick (s : State) (d : Nat) : State :=
  let o := ob 2 d 0
  if numF s (o + 0x11) = 2 ∧ !(followsPeer s) then
    let f := freqOf s d
    let g := f + shiftNearest ((heldFreq (refOffset s d (numF s (o + 0x10))) - f) * (Config.loopGain (numF s (o + 0x00A))).toNat) 16
    if g = f then s else setFreq (noteLock s d) d g
  else s

/-- 1 s without any usable listed reference: the domain runs free and enters ON (R277). -/
def execDomainFreeRunTimeout (d : Nat) (s : State) : Host.Outcome State Fault Refusal :=
  let o := ob 2 d 0
  if d < 4 ∧ awaitsRef s d then
    let s1 := setN (setN (setN (setFreq s d 0) (o + 0x10) 7) (o + 0x11) 0) (o + 0x13) 0
    .next (domainOn (setDom s1 d { dom s1 d with wasSel := numF s (o + 0x10) == 7 }) d)
  else .next s

/-! ### Reference inputs (R279, R280, R282) -/

/-- A measured input. -/
def refIn (s : State) (k : Nat) : RefIn := tget s.refs RefIn.idle k

/-- Changes a measured input. -/
def setRef (s : State) (k : Nat) (x : RefIn) : State := { s with refs := tput s.refs RefIn.idle k x }

/-- No edge by 1.25 T: the first miss is ignored by the phase detectors, the second in a row makes the input ABSENT (R280). -/
def execReferenceEdgeMissing (m : MissedEdge) (s : State) : Host.Outcome State Fault Refusal :=
  let k := m.input
  let o := ob 2 (0x20 + k) 0
  if k ≤ 2 ∧ numF s o ≠ 0 then
    let x := refIn s k
    if x.missed = 0 ∨ !m.again then .next (setRef s k { x with missed := 1, dirty := true })
    else
      let s1 := bump (setN (setRef s k { x with missed := 0, gates := 0, dirty := true }) o 0) (o + 3)
      .next (loseRef s1 k 0)
  else .next s

/-- A glitch from any state with edges: GLITCH_HOLD for 250 ms (R280). -/
def execReferenceGlitch (k : Nat) (s : State) : Host.Outcome State Fault Refusal :=
  let o := ob 2 (0x20 + k) 0
  if k ≤ 2 ∧ numF s o ≠ 0 then
    let x := refIn s k
    let s1 := bump (setN (setRef s k { x with missed := 0, gates := 0, dirty := true }) o 3) (o + 4)
    .next (loseRef s1 k 1)
  else .next s

/-- 250 ms without a further glitch: QUALIFIED (R280). -/
def execGlitchHoldEnd (k : Nat) (s : State) : Host.Outcome State Fault Refusal :=
  let o := ob 2 (0x20 + k) 0
  if k ≤ 2 ∧ numF s o = 3 then .next (retryStarts (raise (setN s o 2) 0x2004 o (numF s (o + 1))))
  else .next s

/-- The first edge of an absent input: QUALIFYING (R280). -/
def execReferenceFirstEdge (k : Nat) (s : State) : Host.Outcome State Fault Refusal :=
  let o := ob 2 (0x20 + k) 0
  if k ≤ 2 ∧ numF s o = 0 then
    .next (setN (setRef s k { refIn s k with gates := 0, missed := 0, dirty := false, rate := 1 }) o 1)
  else .next s

/-- A 100 ms gate ends: RATE, the report of R282, qualification after 5 clean gates, and loss of an off-rate input. -/
def execRateGateEnd (k rate : Nat) (s : State) : Host.Outcome State Fault Refusal :=
  let o := ob 2 (0x20 + k) 0
  if k ≤ 2 then
    let x := refIn s k
    let first := x.rate == 1 && numF s o != 0
    let s1 := setN s (o + 1) rate
    let report := first || !(nearRate x.lastRate rate 50)
    let s2 := if report then bump (raise s1 0x2001 o rate) (o + 5) else s1
    let gates := if numF s o = 1 ∧ !x.dirty then x.gates + 1 else 0
    let s3 := setRef s2 k { x with gates := gates, dirty := false, rate := if first then 0 else x.rate,
                                   lastRate := if report then rate else x.lastRate, clean := if x.dirty then x.clean else rate }
    let s4 := if 5 ≤ gates then raise (setN s3 o 2) 0x2004 o rate else s3
    .next (retryStarts (loseRef s4 k 2))
  else .next s

/-! ### What a domain does at its tick -/

/-- Selection at a tick: the first usable entry for a domain that seeks one, or SELECT after a REVERT or a write of SELECT; one that has
become unusable since is refused with the event of a refused request (R283, R287; log entry 162). -/
def selectAtTick (s : State) (d : Nat) : State :=
  let o := ob 2 d 0
  let x := dom s d
  let want := numF s (o + 3)
  let s0 := setDom s d { x with revert := false }
  if followsPeer s then s
  else if x.revert && usable s d want then
    (if numF s (o + 0x10) = want ∧ numF s (o + 0x11) = 2 then s0 else switchTo s0 d want)
  else
    let s0 := if x.revert then raise s0 0x2000 o (0x100 + numF s (o + 1)) else s0
    if seeks s d then
    (match (refList s d).find? (fun c => usable s d c) with
     | some c => switchTo s0 d c
     | none => s0)
  else s0

/-- The outputs that a domain drives: 0 FRAME_OUT, 1 and 2 the word clocks. -/
def drivenOutputs (s : State) (d : Nat) : List Nat :=
  let w := numF s (ob 2 d 0x24)
  (if isOn s (ob 2 d 0x20) then [0] else []) ++ (if bit w 0 = 1 then [1] else []) ++ (if bit w 1 = 1 then [2] else [])

/-- OUT_ERROR: the error of the outputs that the domain drives; where they differ, the largest (R289, R290; log entry 196). -/
def reportOutError (s : State) (d : Nat) : State :=
  let e := (drivenOutputs s d).foldl (fun (a : Int) j => if mag a < mag (tget (dom s d).outErr 0 j) then tget (dom s d).outErr 0 j else a) 0
  setN s (ob 2 d 0x26) (wrapTo 32 (phaseNs e))

/-- The phase difference of a STEP that started at the tick before lengthens the period that ends at this tick; the outputs do not move, so
OUT_ERROR reports it (R286, R289). -/
def applyStep (s : State) (d : Nat) : State :=
  let x := dom s d
  if x.pendStep ≠ 0 then
    setPhase (setDom s d { x with pendStep := 0, outErr := [0, 1, 2].foldl (fun t j => tput t 0 j (tget t 0 j - x.pendStep)) x.outErr }) d 0
  else s

/-- An accepted step of the time base is a new phase difference, served by the style from this tick on; a SLEW removes it with what it had still to
remove (R287, R304). -/
def servePhase (s : State) (d : Nat) : State :=
  let y := dom s d
  if y.phaseErr ≠ 0 then
    (let s1 := noteLock s d
     let s2 := setDom s1 d { dom s1 d with phaseErr := 0 }
     if numF s2 (ob 2 d 8) = 1 then startStep s2 d (nearestPhase s2 d y.phaseErr)
     else startSlew s2 d (nearestPhase s2 d (y.slew + y.phaseErr)))
  else s

/-- Outputs at a tick: those that wait are aligned at the first tick whose frame counter meets FRAME_PHASE; FRAME_OUT then counts its own frames,
with a pulse of FRAME_WIDTH sample periods every FRAME_DIVIDE of them (R288, R289). -/
def driveOutputs (s : State) (d : Nat) : State :=
  let o := ob 2 d 0
  let on := domOn s d
  let n := max 1 (numF s (o + 0x21))
  let x := dom s d
  let meets := on && frameOf s d % n == numF s (o + 0x22) % n
  let y : Domain :=
    if meets then { x with outErr := x.waiting.foldl (fun t j => tput t 0 j 0) x.outErr, outK := if x.waiting.contains 0 then 0 else x.outK + 1,
                           waiting := [] }
    else { x with outK := x.outK + 1 }
  let pulse := if on && isOn s (o + 0x20) && !(y.waiting.contains 0) && y.outK % n == 0 then numF s (o + 0x23) else 0
  let s1 := reportOutError (setDom s d y) d
  driveWclk { s1 with pins := { s1.pins with frameOut := tput s1.pins.frameOut 0 d pulse } }

/-- Outputs of a domain are to be aligned (R289). -/
def realignOutputs (s : State) (d : Nat) (l : List Nat) : State :=
  setDom s d { dom s d with waiting := l.foldl addOnce (dom s d).waiting }

/-- A clock member that has landed; `old` is its value before. SELECT starts a switch at this tick; the outputs align again after a change of their
enable, FRAME_DIVIDE or FRAME_PHASE; a switch style written during a switch starts a new one from where it stands (R287, R289). -/
def reactClock (s : State) (o : Obj) (old : Nat) : State :=
  let d := instOf o
  let m := memOf o
  let x := dom s d
  let new := numF s o
  if d < 4 then
    (if m = 3 then
       (if unitState s (ob 2 d 0) = 1 then (if usable s d (numF s o) then startDpll s d else retryStarts s)
        else setDom s d { x with revert := true })
     else if 4 ≤ m ∧ m < 8 then retryStarts s
     else if m = 8 ∧ domOn s d ∧ (numF s (ob 2 d 0x11) = 4 ∨ (numF s (ob 2 d 0x11) = 1 ∧ numF s (ob 2 d 0x10) < 7)) then
       switchTo s d (numF s (ob 2 d 0x10))
     else if (m = 0x20 ∨ m = 0x21 ∨ m = 0x22) ∧ new ≠ old then realignOutputs s d [0]
     else if m = 0x24 then realignOutputs s d ([0, 1].filterMap (fun j => if bit new j = bit old j then none else some (j + 1)))
     else s)
  else s

end Sys2Proof.Machine
end

