-- ==== Sys2Proof/Machine/Tdm.lean ====
section
/-!
DEFINITION. Machine/Tdm.lean: outlets and their patch dips (R152, R153), the fade of all outlets of a domain, non-audio detection
(R323, R324), and the TDM ports (R309 to R325).
-/
namespace Sys2Proof.Machine

/-! ### The fade of every outlet of a domain -/

/-- The outlet fade of a domain. -/
def outFade (s : State) (d : Nat) : OutFade := tget s.audio.fades OutFade.silent d

/-- Changes the outlet fade of a domain. -/
def setOutFade (s : State) (d : Nat) (x : OutFade) : State :=
  { s with audio := { s.audio with fades := tput s.audio.fades OutFade.silent d x } }

/-- The weight of the outlets at sample `i` of a frame. -/
def outWeight (x : OutFade) (i : Nat) : Int :=
  let k := x.k + i
  match x.dir with
  | 0 => 0
  | 1 => if x.n ≤ k then fxOne else fadeIn k x.n
  | 2 => fxOne
  | _ => if x.n ≤ k then 0 else fxOne - fadeIn k x.n

/-- Moves the outlet fade on by `n` samples. -/
def stepFade (x : OutFade) (n : Nat) : OutFade :=
  if x.dir = 1 then (if x.n ≤ x.k + n then { dir := 2, k := 0, n := 0 } else { x with k := x.k + n })
  else if x.dir = 3 then (if x.n ≤ x.k + n then OutFade.silent else { x with k := x.k + n })
  else x

/-- Starts a fade of every outlet of every domain: in over `n` samples, or out. -/
def fadeOutlets (s : State) (inward : Bool) (n : Nat → Nat) : State :=
  (List.range 4).foldl (fun t d =>
    let x := outFade t d
    if inward then (if x.dir = 2 then t else setOutFade t d { dir := 1, k := 0, n := n d })
    else (if x.dir = 0 then t else setOutFade t d { dir := 3, k := 0, n := n d })) s

/-! ### Outlets (R152, R153) -/

/-- The samples of 50 ms in a domain (R73, R443). -/
def fiftyMs (s : State) (d : Nat) : Nat := domHz s d / 20

/-- An outlet with nothing connected. -/
def OutletRt.idle : OutletRt := { carried := 0, pending := 0, stage := 0, k := 0, from_ := fxOne }

/-- The outlet of a PATCH member. -/
def outletOf (s : State) (o : Obj) : OutletRt := tget s.audio.outlets OutletRt.idle o

/-- Changes an outlet. -/
def setOutlet (s : State) (o : Obj) (r : OutletRt) : State :=
  { s with audio := { s.audio with outlets := tput s.audio.outlets OutletRt.idle o r } }

/-- A patch word without what a disconnected outlet ignores (R152). -/
def patchWord (w : Nat) : Nat := if bit w 15 = 1 then 0x8000 + w % 0x2000 else 0

/-- The patch that an outlet follows; a suspended one is disconnected (R72). -/
def patchOf (s : State) (o : Obj) : Nat := if suspended s o then 0 else patchWord (numF s o)

/-- The weight of an outlet at its present sample. -/
def outletWeight (r : OutletRt) (k : Nat) : Int :=
  match r.stage with
  | 0 => fxOne
  | 1 => shiftNearest (r.from_ * (fxOne - fadeIn k 32)) 64
  | _ => fadeIn k 32

/-- A patch that takes effect at a tick (R153). -/
def patchChange (r : OutletRt) (w : Nat) : OutletRt :=
  if r.stage = 1 then { r with pending := w }
  else if r.carried = w then r
  else if r.carried = 0 then { r with carried := w, stage := 2, k := 0, from_ := fxOne }
  else { r with pending := w, stage := 1, k := 0,
                from_ := if r.stage = 2 then (if r.k = 0 then 0 else fadeIn (r.k - 1) 32) else fxOne }

/-- Ends a fade of 32 samples: the pending signal takes over, or the fade-in is complete. -/
def outletEnd (r : OutletRt) : OutletRt :=
  if r.stage = 1 ∧ 32 ≤ r.k then
    (if r.pending = 0 then OutletRt.idle else { carried := r.pending, pending := 0, stage := 2, k := 0, from_ := fxOne })
  else if r.stage = 2 ∧ 32 ≤ r.k then { r with stage := 0, k := 0 }
  else r

/-- A patch dip's fade ends (R153). -/
def execPatchDipFadeEnd (o : Obj) (s : State) : Host.Outcome State Fault Refusal :=
  .next (setOutlet s o (outletEnd (outletOf s o)))

/-- The signal samples that a carried patch word stands for in frame `f` of EGRESS. -/
def carriedFrame (s : State) (w f : Nat) : List Int :=
  if w = 0 then silence (frameLen s) else receive s (w % 0x2000) f .egress

/-- One frame of an outlet and its state after it; `src` gives the samples of a carried word. -/
def outletFrame (s : State) (o : Obj) (src : Nat → List Int) : List Int × State :=
  let r := outletEnd (outletOf s o)
  let v := src r.carried
  let n := frameLen s
  let out := (List.range n).map (fun i => if r.stage = 0 then smp v i else weigh (outletWeight r (r.k + i)) (smp v i))
  (out, setOutlet s o (if r.stage = 0 then r else { r with k := r.k + n }))

/-- One frame of every outlet of a domain that carries or fades something, by PATCH member. -/
def outletsFrame (s : State) (d : Nat) (src : Nat → List Int) : State × Tab (List Int) :=
  ((tkeys s.audio.outlets).filter (fun o => ownerDom s o == d)).foldl
    (fun a o => let q := outletFrame a.1 o src
                (q.2, tput a.2 [] o q.1)) (s, [])

/-! ### Non-audio payloads (R323, R324, R339) -/

/-- Sets a bit of a number. -/
def setBit (n k : Nat) : Nat := if bit n k = 1 then n else n + 2 ^ k
/-- Clears a bit of a number. -/
def clearBit (n k : Nat) : Nat := if bit n k = 1 then n - 2 ^ k else n

/-- The members of a unit's detector: NONAUDIO, NA_MUTED, NA_POLICY, NA_EVENTS, and the event of a detection. -/
structure NaMembers where
  bits   : Obj
  muted  : Obj
  policy : Obj
  events : Option Obj
  code   : Nat

/-- The detector members of a TDM port or receive context. -/
def naMembers (u : Obj) : NaMembers :=
  if areaOf u = 3 then { bits := u + 0x014, muted := u + 0x015, policy := u + 0x00D, events := some (u + 0x016), code := 0x3001 }
  else { bits := u + 0x025, muted := u + 0x026, policy := u + 0x014, events := none, code := 0x4006 }

/-- The detector of pair `k` of a unit. -/
def naOf (s : State) (u : Obj) (k : Nat) : NaDet := tget s.na NaDet.none (u + k)

/-- Changes the detector of a pair. -/
def setNa (s : State) (u : Obj) (k : Nat) (x : NaDet) : State := { s with na := tput s.na NaDet.none (u + k) x }

/-- One sample of a pair: `a` and `b` are its 16-bit words. The second preamble within 16,384 samples sets NONAUDIO; a pair that is detected in
a muting window with NA_POLICY 0 starts to fade, and one detected outside is only reported. -/
def naSample (s : State) (u : Obj) (window : Bool) (k a b : Nat) : State :=
  let m := naMembers u
  let x := naOf s u k
  let pre := a == 0xF872 && b == 0x4E1F
  let hit := pre && decide (x.since < 16384) && bit (numF s m.bits) k == 0
  let s1 := setNa s u k { x with since := if pre then 0 else if x.since < 16385 then x.since + 1 else x.since }
  let s2 := if hit then
      (let t := raise (setN s1 m.bits (setBit (numF s1 m.bits) k)) m.code u k
       match m.events with | some e => bump t e | none => t)
    else s1
  if window && hit && bit (numF s2 m.muted) k == 0 && numF s2 m.policy == 0 then
    setNa (setN s2 m.muted (setBit (numF s2 m.muted) k)) u k { naOf s2 u k with fade := 0 }
  else s2

/-- The weight of a pair at its present sample. -/
def naWeight (s : State) (u : Obj) (k : Nat) : Int :=
  let x := naOf s u k
  if bit (numF s (naMembers u).muted) k = 1 then (if x.fade < 64 then fxOne - fadeIn x.fade 64 else 0)
  else if x.fade < 64 then fadeIn x.fade 64 else fxOne

/-- Moves the fade of a pair on by one sample. -/
def naAdvance (s : State) (u : Obj) (k : Nat) : State :=
  let x := naOf s u k
  if x.fade < 64 then setNa s u k { x with fade := x.fade + 1 } else s

/-- A write of NA_POLICY 1: no pair stays muted, and those that were fade in again (R324). -/
def unmutePairs (s : State) (u : Obj) : State :=
  let m := naMembers u
  let ks := (List.range 32).filter (fun k => bit (numF s m.muted) k == 1)
  setN (ks.foldl (fun t k => setNa t u k { naOf t u k with fade := 0 }) s) m.muted 0

/-- 16,384 samples without a preamble: the bit clears, and a muted pair fades in again. -/
def execNonaudioCleared (u : Obj) (k : Nat) (s : State) : Host.Outcome State Fault Refusal :=
  let m := naMembers u
  let x := naOf s u k
  if bit (numF s m.bits) k = 1 ∧ 16384 ≤ x.since then
    let s1 := raise (setN s m.bits (clearBit (numF s m.bits) k)) (m.code + 1) u k
    .next (if bit (numF s1 m.muted) k = 1 then
        setNa (setN s1 m.muted (clearBit (numF s1 m.muted) k)) u k { x with fade := 0 }
      else s1)
  else .next s

/-! ### Ports -/

/-- The object of TDM port `p`. -/
def portObj (p : Nat) : Obj := ob 3 p 0

/-- The hidden part of a port. -/
def tdmPort (s : State) (p : Nat) : TdmPort := tget s.tdm TdmPort.idle p

/-- Changes the hidden part of a port. -/
def setPort (s : State) (p : Nat) (x : TdmPort) : State := { s with tdm := tput s.tdm TdmPort.idle p x }

/-- DIVIDER (R312): N in bits 31 to 24, F in bits 23 to 0. -/
def divider (bits cls : Nat) : Nat :=
  let m := 2 * (2048 / cls)
  if bits = 0 then 0 else (m / bits) * 2 ^ 24 + (divNearest ((m % bits * 2 ^ 24 : Nat) : Int) bits).toNat

/-- The Q8.23 value of an input word (R314). -/
def inputValue (width w : Nat) : Int :=
  if width = 16 then signedOf 16 w * 256 else if width = 24 then signedOf 24 w else shiftNearest (signedOf 32 w) 8

/-- The word that an output slot carries (R315). -/
def outputWord (width : Nat) (x : Int) : Nat :=
  if width = 16 then wrapTo 16 (out16 x) else if width = 24 then wrapTo 24 (out24 x) else wrapTo 24 (out24 x) * 256

/-- Where the MSB of slot `j` lies in a TDM frame (R310). -/
def slotBit (s : State) (u : Obj) (j : Nat) : Nat := numF s (u + 9) + numF s (u + 6) + j * numF s (u + 5)

/-- The word of slot `j` in the bits of a TDM frame, the first bit period the most significant of BITS (R310). -/
def slotWord (s : State) (u : Obj) (bits j : Nat) : Nat :=
  bits / 2 ^ (numF s (u + 3) - slotBit s u j - numF s (u + 5)) % 2 ^ numF s (u + 5)

/-- Half-periods of H of every bit period of a TDM frame from the accumulator `a` on, `left` half-periods being left; the last bit
period takes what is left (R312). -/
def bitLengths (n f : Nat) : Nat → Nat → Nat → List Nat
  | 0, _, _ => []
  | 1, _, left => [left]
  | k + 2, a, left =>
    let p := if 2 ^ 24 ≤ a + f then n + 1 else n
    p :: bitLengths n f (k + 1) ((a + f) % 2 ^ 24) (left - p)

/-- The level of FSYNC in bit period `i` (R311). -/
def fsyncLevel (s : State) (u : Obj) (i : Nat) : Bool :=
  let on := if numF s (u + 7) = 1 then decide (i < numF s (u + 3) / 2) else i == 0
  if numF s (u + 8) = 1 then !on else on

/-- One TDM frame of a port's clocks (R310 to R312). -/
def clockFrame (s : State) (u : Obj) : List BitPeriod :=
  let m := 2 * (2048 / rateClass (domRate s (numF s (u + 2))))
  let v := divider (numF s (u + 3)) (rateClass (domRate s (numF s (u + 2))))
  let ps := bitLengths (v / 2 ^ 24) (v % 2 ^ 24) (numF s (u + 3)) 0 m
  (List.zip (List.range ps.length) ps).map (fun e =>
    { fsync := fsyncLevel s u e.1, high := isOn s (u + 0x00A), first := (e.2 + 1) / 2, second := e.2 / 2 })

/-- Sets what a port does with BCLK and FSYNC. -/
def setClk (s : State) (p : Nat) (x : TdmClk) : State :=
  { s with pins := { s.pins with tdmClk := tput s.pins.tdmClk .low p x } }

/-- Whether the engine drives outputs at all: it holds OUTOWN_N low, and it is in an audio mode or in SERVICE (R315, R413). -/
def drivesOut (s : State) : Bool := !s.pins.ownN && modeNow s != 5

/-- Whether the muting window of a port is open (R324). -/
def portWindow (s : State) (p : Nat) : Bool := (tdmPort s p).window || modeNow s == 6

/-- The bits that a port samples in a TDM frame of `n` bit periods, bit period 0 the most significant: `v` holds the level of SDI twice a bit
period, at the edge within the bit and at the edge that ends it, which SDI_LATE chooses (R310). -/
def sdiBits (late : Bool) (v : Nat) : Nat → Nat
  | 0 => 0
  | n + 1 => (if late then v % 2 else v / 2 % 2) + 2 * sdiBits late (v / 4) n

/-- The values of a port's slots at sample `i` of a frame; `ws` holds SDI over its TDM frames, one number of two levels a bit period a
sample. -/
def portSample (s : State) (p i : Nat) (ws : List Nat) : State × List Int :=
  let u := portObj p
  let n := numF s (u + 4)
  let wd := numF s (u + 5)
  let v := sdiBits (isOn s (u + 0x00B)) ((ws[i]?).getD 0) (numF s (u + 3))
  let w := fun j => slotWord s u v j
  let s1 := (List.range (n / 2)).foldl (fun t k =>
    naSample t u (portWindow t p) k (w (2 * k) / 2 ^ (wd - 16)) (w (2 * k + 1) / 2 ^ (wd - 16))) s
  let k := (tdmPort s1 p).inK + i
  let v := (List.range n).map (fun j =>
    let x := inputValue wd (w j)
    let y := if j < 2 * (n / 2) then weigh (naWeight s1 u (j / 2)) x else x
    if k < 32 then weigh (fadeIn k 32) y else y)
  ((List.range (n / 2)).foldl (fun t k => naAdvance t u k) s1, v)

/-- INGEST of frame `f` at a port that delivers it: its slots become its signals (R310, R314, R318). -/
def ingestPort (s : State) (p f : Nat) (ws : List Nat) : State :=
  let u := portObj p
  if delivers s u f then
    let q := (List.range (frameLen s)).foldl (fun (a : State × List (List Int)) i =>
      let r := portSample a.1 p i ws
      (r.1, a.2 ++ [r.2])) (s, [])
    let x := tdmPort q.1 p
    let s1 := setPort q.1 p { x with inK := min 32 (x.inK + frameLen s) }
    (List.range (numF s (u + 4))).foldl (fun t j => putSig t (32 * p + j) f (q.2.map (fun v => smp v j))) s1
  else s

/-- INGEST of a clocking port in SERVICE: every sample is examined, and no signal is fed (R63, R323). -/
def examinePort (s : State) (p f : Nat) (ws : List Nat) : State :=
  if delivers s (portObj p) f then (List.range (frameLen s)).foldl (fun t i => (portSample t p i ws).1) s else s

/-- Whether a port sends words: ON, STOPPING once unmuted, or in the fade of a fault, with its balls not released (R9, R309, R315). -/
def portSends (s : State) (p : Nat) : Bool :=
  let st := numF s (portObj p + 1)
  drivesOut s && tget s.pins.tdmClk .low p != .hiZ && (st == 2 || ((st == 3 || st == 4 || (tdmPort s p).faultK.isSome) && !(life s (portObj p)).muted))

/-- The bits of SDO in a TDM frame whose slots carry `word`, and which of them the port drives, bit period 0 the most significant: a slot
outside TX_MASK is high impedance, a bit of no slot is driven 0 (R310, R315). -/
def sdoFrame (s : State) (u : Obj) (word : Nat → Nat) : Nat × Nat :=
  let bits := numF s (u + 3)
  let wd := numF s (u + 5)
  (List.range (numF s (u + 4))).foldl (fun a j =>
    let p := 2 ^ (bits - slotBit s u j - wd)
    if bit (numF s (u + 0x010)) j = 1 then (a.1 + word j % 2 ^ wd * p, a.2) else (a.1, a.2 - (2 ^ wd - 1) * p)) (0, 2 ^ bits - 1)

/-- Sample periods after tick F + 2 at which sample F:0 leaves (R316). -/
def outOffset (s : State) : Nat := if frameLen s = 1 then 3 else 6

/-- What a port sends in the frame that EGRESS serves, from the sample period on at which its first sample leaves (R316). -/
def setSdo (s : State) (p : Nat) (ws : List (Nat × Nat)) : State :=
  { s with pins := { s.pins with sdo := tput s.pins.sdo [] p ws,
                                 sdoAt := tput s.pins.sdoAt (0, 0) p
                                   (if ws.isEmpty then (0, 0) else (frameOf s (numF s (portObj p + 2)), outOffset s)) } }

/-- The fade of a faulted port moves on by a frame; after it the port holds its clocks low (R318). -/
def fadeOnPort (s : State) (p : Nat) : State :=
  let x := tdmPort s p
  match x.faultK with
  | some q => if 64 ≤ q + frameLen s then setClk (setPort s p TdmPort.idle) p .low else setPort s p { x with faultK := some (q + frameLen s) }
  | none => s

/-- EGRESS at a port: its TDM frames on SDO, sample by sample, from the outlets' samples (R315 to R318). -/
def egressPort (s : State) (p d : Nat) (outs : Tab (List Int)) : State :=
  let u := portObj p
  let x := tdmPort s p
  let n := numF s (u + 4)
  if portSends s p then
    let mask := numF s (u + 0x010)
    let fade := outFade s d
    let word := fun i j =>
      if modeNow s = 6 then 0
      else
        let k := tget x.outK 0 j + i
        let v := weigh (outWeight fade i) (smp (tget outs [] (u + 0x100 + j)) i)
        let v := if k < 32 then weigh (fadeIn k 32) v else v
        let v := match x.faultK with
          | some q => weigh (if q + i < 64 then fxOne - fadeIn (q + i) 64 else 0) v
          | none => v
        outputWord (numF s (u + 5)) v
    let ws := (List.range (frameLen s)).map (fun i => sdoFrame s u (word i))
    let ok := (List.range n).foldl (fun t j => if bit mask j = 1 then tput t 0 j (min 32 (tget t 0 j + frameLen s)) else t) x.outK
    fadeOnPort (setSdo (setPort s p { x with outK := ok }) p ws) p
  else fadeOnPort (setSdo s p []) p

/-- The SDO balls of a domain's ports carry nothing: a side without the token, in STANDBY (R64, R315). -/
def idleSdo (s : State) (d : Nat) : State :=
  ((List.range 48).filter (fun p => numF s (portObj p + 2) == d)).foldl (fun t p => setSdo t p []) s

/-- Fades a signal whose producer has faulted, from the frame after its newest (R19). -/
def fadeFrom (s : State) (x : Nat) : State :=
  match (sigOf s x).frames with
  | e :: _ => fadeSig s x (e.1 + 1)
  | [] => s

/-- The input signals of a port fade after a fault. -/
def fadePort (s : State) (p : Nat) : State := (List.range 32).foldl (fun t j => fadeFrom t (32 * p + j)) s

/-- A port that has entered a life-cycle state (R318): a queued start starts its clocks anew; balls that R309 has released stay so. -/
def portEntered (s : State) (p st : Nat) : State :=
  match st with
  | 0 => let s1 := (List.range 32).foldl (fun t j => clearSig t (32 * p + j)) (setClk (setPort s p TdmPort.idle) p .low)
         setSdo s1 p []
  | 1 => setPort s p TdmPort.idle
  | 5 => fadePort (setPort s p (if tget s.pins.tdmClk .low p = .hiZ then TdmPort.idle else { tdmPort s p with faultK := some 0 })) p
  | _ => s

/-- The clocks of a port start again at its first tick in a new mode, in its own format (R63, R73). -/
def restartPort (s : State) (p : Nat) : State :=
  setClk (setPort s p { TdmPort.idle with clocking := true, window := true }) p (.frame (clockFrame s (portObj p)))

/-- BCLK and FSYNC of a port are held low (R73). -/
def haltPort (s : State) (p : Nat) : State :=
  setSdo (setClk (setPort s p { tdmPort s p with clocking := false }) p .low) p []

/-- A port of a stopped domain that keeps clocking drives 0 (R73). -/
def zeroPort (s : State) (p : Nat) : State :=
  setSdo s p (if portSends s p then List.replicate (frameLen s) (sdoFrame s (portObj p) (fun _ => 0)) else [])

/-- What a tick does to a port in STARTING: its clocks start once its domain is ON and its bank level is valid, and it enters ON at
the tick after. -/
def tickPort (s : State) (p : Nat) : State :=
  let u := portObj p
  let x := tdmPort s p
  if numF s (u + 1) = 1 then
    (if x.clocking then setPort (moveUnit s u 2) p { x with window := true, inK := 0, outK := [] }
     else if domOn s (numF s (u + 2)) && numF s (u + 0x013) != 0 then setClk (setPort s p { x with clocking := true }) p (.frame (clockFrame s u))
     else s)
  else s

/-- The supply of a bank leaves its range (R309): its enabled ports release their balls at once, and are FAULTED from the next tick of their
domain on (R27). -/
def execBankSupplyFault (b : Nat) (s : State) : Host.Outcome State Fault Refusal :=
  let ports := (List.range 12).map (12 * b + ·)
  let s0 := ports.foldl (fun t p => setN t (portObj p + 0x013) 0) { s with pins := { s.pins with bankFault := addOnce s.pins.bankFault b } }
  let en := ports.filter (fun p => numF s (portObj p + 1) != 0)
  let s1 := en.foldl (fun t p => setSdo (setClk (faultDue t (portObj p)) p .hiZ) p []) s0
  .next (if en.isEmpty then s1 else raise s1 0x3003 (portObj (12 * b)) b)

/-- The muting window of a port or receive context ends (R324). -/
def execMutingWindowEnd (u : Obj) (s : State) : Host.Outcome State Fault Refusal :=
  .next (if areaOf u = 3 then setPort s (instOf u) { tdmPort s (instOf u) with window := false }
    else { s with ctxs := tmod s.ctxs Context.closed (instOf u) (fun c => { c with window := false }) })

end Sys2Proof.Machine
end

