-- ==== Sys2Proof/Machine/Sage.lean ====
section
/-!
DEFINITION. Machine/Sage.lean: the fault manager: fault log (R402 to R404), test queue (R395), background pass (R396), SRAM repair
(R397, R398), lane repair (R100 to R104, R128), crosspoint repair (R399), FATAL (R400), boundary scan (R411), die temperature (R461).
-/
namespace Sys2Proof.Machine

/-! ### The fault log -/

/-- The fault manager object. -/
def faultObj : Obj := ob 13 0 0

/-- Whether FATAL is set. -/
def isFatal (s : State) : Bool := isOn s faultObj

/-- Word 1 of a log entry. -/
def logWord (t : Test) (cls action : Nat) (untested : Bool) : Nat :=
  cls + (if untested then 8 else 0) + 2 ^ 4 * t.source + 2 ^ 12 * (if untested then 0 else t.kind) + 2 ^ 16 * action + 2 ^ 24 * t.count

/-- A log entry of 32 bytes. -/
def logEntry (seq word : Nat) (t : Test) (unit : Obj) : Octets :=
  let b := leBytes 4 seq ++ leBytes 4 word ++ leBytes 8 t.frame ++ leBytes 4 t.loc ++ leBytes 4 t.detail ++ leBytes 4 unit
  b ++ leBytes 4 (crc32 b)

/-- Writes a log entry: the ring moves up, the first entry of a class above CORRECTED is kept, the counter of the class and the
retained copies follow, and the events of R407 are raised. -/
def writeLog (s : State) (t : Test) (cls action : Nat) (unit : Obj) (untested : Bool) : State :=
  let seq := (numF s (faultObj + 3) + 1) % 2 ^ 32
  let w := logWord t cls action untested
  let e := logEntry seq w t unit
  let first := if s.sage.first.isNone ∧ cls ≠ 0 then some e else s.sage.first
  let s1 : State := { s with sage := { s.sage with log := (e :: s.sage.log).take 1023, first := first },
                             aon := retain s.aon (fun a => { a with first := first, sequence := seq }) }
  let s2 := setN s1 (faultObj + 3) seq
  let s3 := if cls ≤ 2 then bump s2 (faultObj + 4 + cls) else s2
  let s4 := if untested then bump s3 (faultObj + 8) else s3
  let s5 := raise s4 0xD001 (ob 13 0x101 0) w
  let s6 := if action = 1 ∨ action = 2 ∨ action = 6 then raise s5 0xD002 unit action else s5
  if action = 4 ∨ action = 5 then raise s6 0xD003 (if unit = 0 then faultObj else unit) t.loc else s6

/-- A new test or entry of the present CD0 frame. -/
def newTest (s : State) (kind key source loc detail : Nat) : Test :=
  { kind := kind, key := key, source := source, loc := loc, detail := detail, frame := frameOf s 0, count := 1 }

/-! ### Roles and token (R413, R416) -/

/-- The pair object. -/
def pairObj : Obj := ob 12 0 0
/-- The role. -/
def role (s : State) : Nat := numF s (pairObj + 3)
/-- A side takes a role. -/
def setRole (s : State) (r : Nat) : State :=
  if role s = r then s else raise (setN s (pairObj + 3) r) 0xC001 pairObj (r + 16 * role s)
/-- Whether the side holds the output token: OUTOWN_N is low. -/
def holdsToken (s : State) : Bool := !s.pins.ownN
/-- The side takes the token. -/
def takeToken (s : State) : State := { s with pins := { s.pins with ownN := false } }
/-- The side gives the token up. -/
def dropToken (s : State) : State :=
  { s with pins := { s.pins with ownN := true, sdo := [], sdoAt := [] }, pair := { s.pair with peerHigh := 0, offAt := frameOf s 0 } }

/-! ### FATAL (R400) -/

/-- A FATAL error: its entry, which names no unit (R402); FATAL and its source; each domain's outlets fade from its next tick. A standby sends
its release notice and enters SERVICE (R431). -/
def fatal (s : State) (t : Test) : State :=
  let s1 := writeLog s t 3 7 0 false
  if isFatal s then s1
  else
    let s2 : State := { s1 with sage := { s1.sage with fadeDue := [0, 1, 2, 3] },
                                pair := { s1.pair with toService := s1.pair.toService || role s == 2,
                                                       notices := s1.pair.notices + (if role s = 2 then 1 else 0) } }
    raise (setN (setN s2 faultObj 1) (faultObj + 1) t.source) 0xD004 faultObj t.source

/-- The fade of 64 samples starts at a tick of its domain. -/
def fatalTick (s : State) (d : Nat) : State :=
  if s.sage.fadeDue.contains d then
    (let s1 : State := { s with sage := { s.sage with fadeDue := dropAll s.sage.fadeDue d } }
     if (outFade s1 d).dir = 0 then s1 else setOutFade s1 d { dir := 3, k := 0, n := 64 })
  else s

/-- OUTOWN_N goes high when the fades of FATAL have ended. -/
def fatalRelease (s : State) : State :=
  if isFatal s && holdsToken s && (List.range 4).all (fun d => !(domOn s d) || (outFade s d).dir == 0) then setRole (dropToken s) 3 else s

/-! ### The test queue (R395) -/

/-- The test that runs or waits of one kind and key. -/
def findTest (s : State) (kind key : Nat) : Option Test := s.sage.queue.find? (fun t => t.kind == kind && t.key == key)

/-- Takes a test out of the queue. -/
def endTest (s : State) (kind key : Nat) : State :=
  { s with sage := { s.sage with queue := s.sage.queue.filter (fun t => !(t.kind == kind && t.key == key)) } }

/-- The class of an entry whose test passed, or that no test follows. -/
def passClass (source : Nat) : Nat := if source = 1 ∨ source = 3 then 0 else 1

/-- A reported error: merged into the test of the same thing, queued, or logged at once when 64 tests wait. -/
def reportError (s : State) (x : Test) : State :=
  if (findTest s x.kind x.key).isSome then
    { s with sage := { s.sage with queue := s.sage.queue.map (fun t =>
      if t.kind = x.kind ∧ t.key = x.key then { t with count := min 255 (t.count + 1) } else t) } }
  else if 64 ≤ s.sage.queue.length then writeLog s x (passClass x.source) 0 0 true
  else if isFatal s then writeLog s x (passClass x.source) 0 0 true
  else { s with sage := { s.sage with queue := s.sage.queue ++ [x] } }

/-! ### Regions (R353, R394 to R398); numbers are address bits 39 to 8, or 0xF000_0000 + n for memory without an address: tap staging
buffers by cluster, then save buffers (log entry 40) -/

/-- The tile whose memory holds a region. -/
def regionTile (r : Nat) : Option Nat :=
  if 0x40000 ≤ r ∧ r < 0x60000 then some ((r - 0x40000) / 8192)
  else if 0xF0000000 ≤ r ∧ r < 0xF0000800 then some ((r - 0xF0000000) / 128)
  else none

/-- The member of the shared memory repair object for a region (R406). -/
def sharedMember (r : Nat) : Nat :=
  if r < 0x4000 then 0 else if r < 0x8000 then 1 else if r < 0x10000 then 2 else if r < 0x11000 then 3 else if r < 0x12800 then 4
  else if r < 0x21000 then 5 else 6

/-- The macro of a region: 32 KB, and each save buffer by itself (log entry 41). -/
def macroOf (r : Nat) : Nat := if 0xF0000800 ≤ r then r else r / 128

/-- Spare rows in use in the macro of a region. -/
def sparesUsed (s : State) (r : Nat) : Nat := (s.sage.spares.filter (fun e => macroOf e.1 == macroOf r)).length

/-- The regions in SAVE, TEST or RESTORE. -/
def underTest (s : State) : List Nat := s.sage.saves.map (·.region)

/-- The lowest save buffer that can stand for a region: it stands for no other and is not itself under test (R396). -/
def freeBuffer (s : State) (r : Nat) : Option Nat :=
  (List.range 16).find? (fun n => !(s.sage.saves.any (fun b => b.no == n)) && !((r :: underTest s).contains (0xF0000800 + n)))

/-- Whether a region may enter its test: a save buffer is free, and no region of the same macro is under test (R364). -/
def canSave (s : State) (r : Nat) : Bool := (freeBuffer s r).isSome && !((underTest s).any (fun q => macroOf q == macroOf r))

/-- SAVE: the region's beats are copied into a free save buffer, which from then on serves every access to it (R364; log entry 205). -/
def saveRegion (s : State) (r : Nat) : State :=
  let b : SaveBuf := { no := (freeBuffer s r).getD 16, region := r, cells := s.mem.filter (fun c => c.1 / 256 == r) }
  { s with sage := { s.sage with saves := s.sage.saves ++ [b] } }

/-- RESTORE: the save buffer's contents, with every write made during the test, are the region's again (R364, R365). -/
def restoreRegion (s : State) (r : Nat) : State :=
  match s.sage.saves.find? (fun b => b.region == r) with
  | some b => { s with mem := b.cells.foldl (fun m c => memPut m c.1 c.2) (s.mem.filter (fun c => c.1 / 256 != r)),
                       sage := { s.sage with saves := s.sage.saves.filter (fun x => x.region != r) } }
  | none => s

/-- Targeted tests take free save buffers in queue order: at most 16 regions, one in a macro (R364, R395). -/
def startTargeted (s : State) : State :=
  (s.sage.queue.filter (fun t => t.kind == 1)).foldl (fun a t => if canSave a t.key then saveRegion a t.key else a) s

/-- Regions per frame of the pass (R396). -/
def regionsPerFrame (s : State) : Nat :=
  match resourceMode s with
  | 1 => 16 | 2 => 8 | 3 => 4 | 4 => if rateClass (rate0 s) = 1 then 2 else 1 | _ => 0

/-- The region at index `i` of on-chip SRAM: the memories of R353 in address order, the tap staging buffers, the save buffers. -/
def regionAt (i : Nat) : Nat :=
  if i < 0x12800 then i else if i < 0x13800 then 0x20000 + (i - 0x12800) else if i < 0x33800 then 0x40000 + (i - 0x13800)
  else 0xF0000000 + (i - 0x33800)

/-- The region at a position of the background pass, which takes successive regions from macros far apart, so that the regions of a frame lie at
different targets (R46, R364; log entry 188). -/
def passRegion (p : Nat) : Nat := regionAt (if p < 212992 then 128 * (633 * p % 1664) + p / 1664 else p)

/-- The pass goes on by one region; at its end PASSES and PASS_TIME follow (R396, R405). -/
def passOn (s : State) : State :=
  let p := s.sage.position + 1
  if 213008 ≤ p then
    bump (setN { s with sage := { s.sage with position := 0 } } (faultObj + 0x00A) ((s.now - s.sage.started) / 1250000)) (faultObj + 9)
  else { s with sage := { s.sage with position := p } }

/-- The next `n` regions of the pass enter their tests; one whose macro is under test is waited for. -/
def passTake : Nat → State → State
  | 0, s => s
  | n + 1, s =>
    let r := passRegion s.sage.position
    let s1 : State := if s.sage.position = 0 then { s with sage := { s.sage with started := s.now } } else s
    if canSave s r then passTake n (passOn (saveRegion s1 r)) else s

/-- Sage in a BACKGROUND window of CD0: targeted tests, then the pass, each targeted test in place of one of its regions; nothing new while
FATAL (R396, R401). -/
def sageWindow (s : State) : State :=
  if isFatal s then s
  else
    let s1 := startTargeted s
    passTake (regionsPerFrame s1 - (s1.sage.saves.length - s.sage.saves.length)) s1

/-- The regions of the pass whose tests have found nothing leave them at the end of the window, the next tick of CD0 (log entry 188). -/
def endPass (s : State) : State :=
  ((underTest s).filter (fun r => (findTest s 1 r).isNone)).foldl restoreRegion s

/-- The region under test that a save buffer stands for. -/
def standsFor (s : State) (r : Nat) : Option Nat := (s.sage.saves.find? (fun b => 0xF0000800 + b.no == r)).map (·.region)

/-- Marks word `w` of a region uncorrectable until it is written; a failed region reads 0 (R365, R398). -/
def poisonWord (s : State) (r w : Nat) : State :=
  if s.sage.failed.any (fun e => e.1 == r) then s
  else
    let h := 64 * r + 2 * w
    { s with sage := { s.sage with poison := addOnce (addOnce s.sage.poison h) (h + 1) } }

/-- A SECDED error: an uncorrectable word stays so until it is written. In a save buffer in use, a single-bit error is corrected, and an
uncorrectable word is one of the region that the buffer stands for, logged TRANSIENT (R365, R395, R401). -/
def execSramEccError (r detail : Nat) (double : Bool) (s : State) : Host.Outcome State Fault Refusal :=
  .next (match standsFor s r with
    | some q => if double then writeLog (poisonWord s q (bits detail 20 16)) (newTest s 0 r 2 r detail) 1 0 0 false else s
    | none => reportError (if double then poisonWord s r (bits detail 20 16) else s) (newTest s 1 r (if double then 2 else 1) r detail))

/-- The unit that owns a region: the tile of its cluster, or the unit that the region's contents serve (R398). -/
def regionOwner (r : Nat) (owner : Obj) : Obj :=
  match regionTile r with
  | some t => if owner = 0 then 0 else ob 9 (0x100 + t) 0
  | none => owner

/-- Maps a spare row in and counts it (R397, R406). -/
def addSpare (s : State) (m : Nat × Nat) : State :=
  let r := m.1
  let s1 : State := { s with sage := { s.sage with spares := s.sage.spares ++ [m] } }
  match regionTile r with
  | some t => let o := ob 13 (0x10 + t) 0
              if sparesUsed s1 r = 4 then bump (bump s1 (o + 0x010)) (o + 0x011) else bump s1 (o + 0x010)
  | none => bump s1 (ob 13 0x20 (sharedMember r))

/-- Maps a spare row in place of a region; retention RAM keeps up to 96 (R397, R404). -/
def mapSpare (s : State) (r : Nat) : State :=
  let m := (r, sparesUsed s r)
  addSpare { s with aon := retain s.aon (fun a => { a with spares := if a.spares.length < 96 then a.spares ++ [m] else a.spares }) } m

/-- Marks a region failed with its owner and counts it; its words then read 0 without an error (R398). -/
def addFailed (s : State) (r : Nat) (unit : Obj) : State :=
  let s1 : State := { s with sage := { s.sage with failed := s.sage.failed ++ [(r, unit)], poison := s.sage.poison.filter (fun h => h / 64 != r) } }
  let s2 := bump s1 (faultObj + 0x00B)
  if areaOf unit = 9 ∧ 0x100 ≤ instOf unit ∧ instOf unit < 0x110 then bump s2 (ob 13 (0x10 + instOf unit - 0x100) 0x012) else s2

/-- Marks a region failed; retention RAM keeps up to 32 (R398, R404). -/
def failRegion (s : State) (r : Nat) (unit : Obj) : State :=
  addFailed { s with aon := retain s.aon (fun a => { a with failed := if a.failed.length < 32 then a.failed ++ [(r, unit)] else a.failed }) } r unit

/-- A region's test ends with RESTORE: passed, repaired by a spare row, or failed with the action of R398. `fail` gives the failing word's DETAIL, and
`owner` the unit that the region's contents serve, 0 for none (log entry 42). -/
def sramTestDone (s : State) (t : Test) (fail : Option Nat) (owner : Obj) : State :=
  let r := t.key
  let s0 := endTest (restoreRegion s r) 1 r
  match fail with
  | none => writeLog s0 t (passClass t.source) 0 0 false
  | some _ =>
    let unit := regionOwner r owner
    if sparesUsed s0 r < 4 then writeLog (mapSpare s0 r) t 2 1 unit false
    else if sharedMember r = 5 && (regionTile r).isNone || unit == faultObj then raise (fatal (failRegion s0 r unit) t) 0xD003 faultObj t.loc
    else
      let s1 := failRegion s0 r unit
      if unit = 0 ∨ unitState s unit = 0 then writeLog s1 t 2 5 0 false
      else writeLog { s1 with sage := { s1.sage with faults := addOnce s1.sage.faults unit } } t 2 4 unit false

/-- A March C- run of a region under test ends. A region of the background pass that fails stays in its save buffer for a second run at once
(R394); one whose test cannot be queued is restored. -/
def execSramTestEnd (r : Nat) (fail : Option Nat) (owner : Obj) (s : State) : Host.Outcome State Fault Refusal :=
  .next (if (underTest s).contains r then
      (match findTest s 1 r, fail with
       | some t, _ => sramTestDone s t fail owner
       | none, none => restoreRegion s r
       | none, some d =>
         let s1 := reportError s (newTest s 1 r 0x0A r d)
         if (findTest s1 1 r).isSome then s1 else restoreRegion s1 r)
    else s)

/-! ### Lanes (R100 to R104, R128) -/

/-- The repair object of a tile. -/
def repairObj (t : Nat) : Obj := ob 13 (0x10 + t) 0

/-- The code of a lane phase in LOCATION. -/
def phaseCode : Phase → Nat
  | .strip => 1 | .bus => 2 | .matrixP => 3 | _ => 0

/-- LOCATION of a lane error in a program (R402). -/
def laneLocOf (s : State) (t l : Nat) (prog : Option Obj) : Nat :=
  let x := lane s (16 * t + l)
  let pipe := if numF s (repairObj t + 4 + l / 4) = l then 4 else l % 4
  let k := match prog with | some p => if isPlacement p then placeNo p else 0xFF | none => 0xFF
  t + 16 * l + 2 ^ 8 * pipe + 2 ^ 12 * (match x.phase with | some ph => phaseCode ph | none => 0) + 2 ^ 16 * k

/-- LOCATION of an error in the program that a lane runs, or that it was to run next. -/
def laneLoc (s : State) (t l : Nat) : Nat :=
  let x := lane s (16 * t + l)
  laneLocOf s t l (if x.prog.isSome then x.prog else x.todo.head?)

/-- A lane error at a cycle: its known-answer test waits for the BACKGROUND window of the period. -/
def laneError (s : State) (t l source loc cycle : Nat) : State := reportError s (newTest s 3 (16 * t + l) source loc cycle)

/-- The residue modulo 7 of a two's-complement integer (R99). -/
def residue7 (x : Int) : Int := x % 7

/-- The left shift of a product kind (R82); none for the kinds whose accumulation is not checked (R99). -/
def checkedShift : Kind → Option Nat
  | .sc => some 0 | .sg => some 2 | .ss => some 6 | .cc => none | .gg => none

/-- Whether the residues of an operation break a relation of R99. MPY adds its product to an accumulator of 0 (log entry 186). -/
def residueMismatch (e : ResidueCheck) : Bool :=
  decide (residue7 e.product ≠ residue7 (residue7 e.a * residue7 e.b))
  || (match checkedShift e.kind with
      | some k =>
        let p := residue7 e.product * 2 ^ k
        let sum := match e.op with
          | .mac => residue7 e.before + p
          | .msu => residue7 e.before - p
          | .mpy => p
        !e.saturated && decide (residue7 e.after ≠ residue7 sum)
      | none => false)

/-- The residues of an operation reach the checker: a mismatch is a lane error with its program and cycle, and the result stands as
computed (R99, R100). -/
def execLaneResidueError (t : Nat) (e : ResidueCheck) (s : State) : Host.Outcome State Fault Refusal :=
  if t < 16 ∧ e.lane < 16 then
    .next (if residueMismatch e then laneError s t e.lane 6 (laneLocOf s t e.lane e.program) e.cycle else s)
  else .fault .noSuchLane

/-- The frame before stands in for frame `f` of an internal slot (R55). -/
def repeatSlot (s : State) (f k : Nat) : State :=
  putSlot s k f (if f = 0 then silence (frameLen s) else slotFrame s k (f - 1))

/-- What the engine's own programs of a lane write in a phase: signals, and internal slots (R137, R158). -/
def laneWrites (s : State) (t l : Nat) (ph : Phase) : List Nat × List Nat :=
  let pick := fun (n : Nat) => ((List.range n).filter (fun j => j % 16 == l)).map (fun j => t * n + j)
  match ph with
  | .strip => ((pick ((lim s).strips / 16)).flatMap (fun k =>
      let u := ob 5 k 0
      [0xE00 + k] ++ (if isOn s (u + 0x200) then [numF s (u + 0x201)] else []) ++ (if isOn s (u + 0x400) then [numF s (u + 0x401)] else [])), [])
  | .bus => ([], (pick ((lim s).buses / 16)).map (256 + ·))
  | .matrixP => ([], (pick ((lim s).mats / 16)).map (640 + ·))
  | .output => ((laneProcs s t l).map (fun o => outSignal (instOf o - 0x200)), [])
  | _ => ([], [])

/-- The lane phase's budget runs out before the last HALT (R49, R128): the programs still to end do not run in the frame, pending results
and gathers are dropped, nothing is stored or scattered, no further program starts, readers of the lane's signals get the frame before (R55),
and the stop is a lane error at the count of the budget. A lane whose programs have all executed HALT is not stopped. -/
def execLaneBudgetStop (t l : Nat) (ph : Phase) (s : State) : Host.Outcome State Fault Refusal :=
  let n := 16 * t + l
  if t < 16 ∧ l < 16 ∧ (lane s n).phase = some ph ∧ (lane s n).prog = none ∧ (lane s n).todo = [] then .next s
  else if t < 16 ∧ l < 16 then
    let budget := laneBudget (frameLen s == 1) (rateClass (domRate s (tileDom s t))) ph
    let f := (servedFrame ph (frameOf s (tileDom s t))).getD 0
    let ps := (placesOf s t ph).filter (fun p => placeLane s p == n)
    let s0 := laneError s t l 7 (laneLoc s t l) budget
    let s1 := ((lane s n).todo.filter isPlacement).foldl (fun u p => bump u (p + 0x011)) s0
    let own := laneWrites s t l ph
    let s2 := (ps.flatMap (scatterSignals s) ++ own.1).foldl (fun u x => repeatFrame u f x) s1
    let s3 := own.2.foldl (fun u k => repeatSlot u f k) s2
    let x := lane s3 n
    .next (bump (setLane s3 n { x with wait := [], stores := [], loops := [], prog := none, todo := [], gathered := none, dma := [],
                                       spent := budget, stopped := true }) (ob 9 (0x100 + t) 0x015))
  else .fault .noSuchLane

/-- A tile that a fault puts in FAULTED at its next tick. -/
def tileFaultDue (s : State) (t : Nat) : State :=
  { s with sage := { s.sage with faults := addOnce s.sage.faults (ob 9 (0x100 + t) 0) } }

/-- The known-answer program of a lane ends. A lasting fault moves the lane to the cluster's spare at the next tick; of two in one period
the lower lane takes it, and a fault without a spare puts the tile in FAULTED (R102, R103, R401). SPARE_STATE reads IN_USE from here on
(log entry 183). -/
def execKnownAnswerTestEnd (t l : Nat) (pass : Bool) (s : State) : Host.Outcome State Fault Refusal :=
  let n := 16 * t + l
  if t < 16 ∧ l < 16 then
    match findTest s 3 n with
    | none => .next s
    | some x =>
      let s0 := endTest s 3 n
      let c := l / 4
      let o := repairObj t + c
      let tile := ob 9 (0x100 + t) 0
      let mate := s0.sage.moves.find? (fun m => m / 4 == n / 4)
      .next (if pass then writeLog s0 x 1 0 0 false
        else if numF s0 o = 0 then
          writeLog (setN { s0 with sage := { s0.sage with moves := s0.sage.moves ++ [n] } } o 1) x 2 2 tile false
        else
          let s1 := match mate with
            | some m => if n < m then { s0 with sage := { s0.sage with moves := dropAll s0.sage.moves m ++ [n] } } else s0
            | none => s0
          writeLog (tileFaultDue s1 t) x 2 0 tile false)
  else .fault .noSuchLane

/-- The periodic test of a cluster's idle spare pipeline (R104); LOCATION names the cluster's first lane and phase 0 (log entry 183). -/
def execSparePipelineTest (t c : Nat) (pass : Bool) (s : State) : Host.Outcome State Fault Refusal :=
  let o := repairObj t + c
  .next (if t < 16 ∧ c < 4 ∧ numF s o = 0 ∧ !pass then
      writeLog (setN s o 2) (newTest s 3 0 9 (t + 16 * (4 * c) + 2 ^ 8 * 4 + 2 ^ 16 * 0xFF) 0) 2 3 0 false
    else s)

/-- Lanes that move to their spare pipelines at a tick of domain `d` (R102). -/
def moveLanes (s : State) (d : Nat) : State :=
  (s.sage.moves.filter (fun n => tileDom s (n / 16) == d)).foldl (fun u n =>
    setN { u with sage := { u.sage with moves := dropAll u.sage.moves n } } (repairObj (n / 16) + 4 + n % 16 / 4) (n % 16)) s

/-! ### Crosspoint MACs (R169, R399) -/

/-- A residue mismatch of a crosspoint MAC: the sum stands as computed. -/
def execCrosspointResidueError (mac row : Nat) (s : State) : Host.Outcome State Fault Refusal :=
  .next (reportError s (newTest s 5 mac 8 mac row))

/-- The crosspoint known-answer program ends: the failing MAC retires from the next CD0 tick; the twelfth retirement is FATAL. -/
def execCrosspointTestEnd (mac : Nat) (pass : Bool) (s : State) : Host.Outcome State Fault Refusal :=
  match findTest s 5 mac with
  | none => .next s
  | some x =>
    let s0 := endTest s 5 mac
    if pass then .next (writeLog s0 x 1 0 0 false)
    else
      let s1 : State := { s0 with sage := { s0.sage with retired := addOnce s0.sage.retired mac,
                                                         retiring := s0.sage.retiring + (if s0.sage.retired.contains mac then 0 else 1) } }
      .next (if 12 ≤ s1.sage.retired.length then fatal s1 x else writeLog s1 x 2 6 0 false)

/-- MACs leave service at a CD0 tick. -/
def retireMacs (s : State) : State :=
  if s.sage.retiring = 0 then s
  else setN { s with sage := { s.sage with retiring := 0 } } (faultObj + 0x00C) (numF s (faultObj + 0x00C) - s.sage.retiring)

/-! ### Control core, full test, boundary scan, temperature -/

/-- A lockstep mismatch of the control cores: FATAL, after which Parsley serves no command, also where another FATAL error came before (R394,
R400). -/
def execLockstepMismatch (pc : Nat) (s : State) : Host.Outcome State Fault Refusal :=
  let t := fatal s (newTest s 0 0 0x0C 0 pc)
  .next { t with sage := { t.sage with dead := true } }

/-- Whether Parsley has stopped serving after a lockstep mismatch (R400). -/
def parsleyDead (s : State) : Bool := s.sage.dead

/-- The full memory test ends (R63, R405). -/
def execFullTestDone (pass : Bool) (s : State) : Host.Outcome State Fault Refusal :=
  .next (if numF s (faultObj + 0x012) = 1 then setN s (faultObj + 0x012) (if pass then 2 else 3) else s)

/-- The word that boundary scan captures for IDCODE (R465). -/
def idcode : Nat := 0x1960074F

/-- A JTAG instruction: 0 BYPASS, 1 IDCODE, 2 SAMPLE/PRELOAD, 3 EXTEST, 4 CLAMP, 5 HIGHZ (log entry 43). The last three take the balls from
the engine; with RESET_N high that is FATAL (R411). -/
def execJtagInstructionLoad (op : Nat) (s : State) : Host.Outcome State Fault Refusal :=
  let takes := decide (3 ≤ op) && decide (op ≤ 5)
  let s1 : State := { s with pins := { s.pins with jtag := op, jtagIso := takes } }
  .next (if takes && !s.boot.inReset then fatal s1 (newTest s 0 0 0x0F 0 0) else s1)

/-- DIE_TEMP is updated in tenths of a degree; its peak and the two crossings follow (R461). -/
def execDieTempUpdate (tenths : Int) (s : State) : Host.Outcome State Fault Refusal :=
  let o := ob 0 0 0x030
  let s1 := setN s o (wrapTo 32 tenths)
  let s2 := if signedOf 32 (numF s1 (o + 1)) < tenths then setN s1 (o + 1) (wrapTo 32 tenths) else s1
  .next (if 1050 < tenths ∧ !s.pins.tempHigh then raise { s2 with pins := { s2.pins with tempHigh := true } } 0x0004 (ob 0 0 0) (wrapTo 32 tenths)
    else if tenths < 1000 ∧ s.pins.tempHigh then raise { s2 with pins := { s2.pins with tempHigh := false } } 0x0005 (ob 0 0 0) (wrapTo 32 tenths)
    else s2)

end Sys2Proof.Machine
end

