-- ==== Sys2Proof/Machine/Dram.lean ====
section
/-!
DEFINITION. Machine/Dram.lean: budget counters (R42, R47, R48) and the DRAM controller (R369 to R392).
-/
namespace Sys2Proof.Machine

/-! ### Arbiters -/

/-- The arbiter of a target. -/
def arb (s : State) (t : Nat) : Arbiter := tget s.xbar.arbs Arbiter.idle t
/-- Changes the arbiter of a target. -/
def setArb (s : State) (t : Nat) (x : Arbiter) : State := { s with xbar := { s.xbar with arbs := tput s.xbar.arbs Arbiter.idle t x } }
/-- The object of an arbiter. -/
def arbObj (t : Nat) : Obj := ob 10 t 0
/-- An error response at a target. -/
def errorAt (s : State) (t : Nat) : State := bump s (arbObj t + 6)

/-! ### Budget counters -/

/-- The object of budget entry `e`. -/
def entryObj (e : Nat) : Obj := ob 11 e 0
/-- The counters of a budget entry. -/
def budgetRt (s : State) (e : Nat) : BudgetRt := tget s.budget BudgetRt.zero e
/-- Changes the counters of a budget entry. -/
def setBudget (s : State) (e : Nat) (x : BudgetRt) : State := { s with budget := tput s.budget BudgetRt.zero e x }

/-- Whether start-up has restored a configuration: until then every field of the hardware's budget table is 0 (R43). -/
def tableRestored (s : State) : Bool := decide (5 ≤ s.boot.step)

/-- The enabled entry of an activity at a target in a domain; of several, the lowest-numbered (log entry 164). -/
def entryFor (s : State) (a t d : Nat) : Option Nat :=
  if tableRestored s then
    (List.range 256).find? (fun e => isOn s (entryObj e) && numF s (entryObj e + 1) == a && numF s (entryObj e + 2) == t
      && ownerDom s (entryObj e) == d)
  else none

/-- The number of an activity, target and domain. -/
def budgetKey (a t d : Nat) : Nat := 65536 * a + 256 * t + d

/-- Beats that an entry's activity may still be granted in this frame; without an entry, what the transition table leaves (R48, R51). -/
def beatsLeft (s : State) (a t d : Nat) : Nat :=
  match entryFor s a t d with | some e => (budgetRt s e).count | none => tget s.trans 0 (budgetKey a t d)

/-- Counts granted beats at an entry, or in what the transition table leaves, and in LOAD of the target (R47, R51, R366). -/
def spendBeats (s : State) (a t d n : Nat) : State :=
  let s1 := setArb s t { arb s t with moved := (arb s t).moved + n }
  match entryFor s1 a t d with
  | some e => let x := budgetRt s1 e
              setBudget s1 e { x with count := x.count - n, used := x.used + n }
  | none => { s1 with trans := tmod s1.trans 0 (budgetKey a t d) (fun k => k - n) }

/-- Takes granted beats back that have not moved (R362). -/
def giveBeats (s : State) (a t d n : Nat) : State :=
  let s1 := setArb s t { arb s t with moved := (arb s t).moved - n }
  match entryFor s1 a t d with
  | some e => let x := budgetRt s1 e
              setBudget s1 e { x with count := x.count + n, used := x.used - n }
  | none => { s1 with trans := tmod s1.trans 0 (budgetKey a t d) (· + n) }

/-- A request was held at a counter of 0: the frame counts once (R42). -/
def heldAtZero (s : State) (e : Nat) : State :=
  let x := budgetRt s e
  if x.hitZero then s else bump (setBudget s e { x with hitZero := true }) (entryObj e + 9)

/-- The beats of an entry are used up while a request is held (R48). -/
def execBudgetCounterExhausted (e : Nat) (s : State) : Host.Outcome State Fault Refusal :=
  let x := budgetRt s e
  .next (if e < 256 ∧ tableRestored s ∧ isOn s (entryObj e) then heldAtZero (setBudget s e { x with used := x.used + x.count, count := 0 }) e else s)

/-! ### Channels and addresses (R369, R371, R372) -/

/-- The object of a DRAM channel. -/
def dramObj (ch : Nat) : Obj := ob 10 (0x100 + ch) 0
/-- The hidden part of a channel. -/
def dramRt (s : State) (ch : Nat) : Dram := tget s.dram Dram.idle ch
/-- Changes the hidden part of a channel. -/
def setDram (s : State) (ch : Nat) (x : Dram) : State := { s with dram := tput s.dram Dram.idle ch x }

/-- The first crossbar address of the DRAM window. -/
def dramBase : Nat := 0x1000000000

/-- Bank-group bits and row bits of a geometry. -/
def bgBits (g : Nat) : Nat := if bit g 0 = 0 then 2 else 1
def rowBits (g : Nat) : Nat := 15 + bits g 2 1

/-- Bytes of a channel of a geometry. -/
def geometryBytes (g : Nat) : Nat := 2 ^ (15 + bgBits g + rowBits g + bit g 3)

/-- The address-map order in force. -/
def mapOrder (s : State) : Nat := numF s (dramObj 0 + 0x011)

/-- Channel and channel offset of a window offset. -/
def channelOf (s : State) (w : Nat) : Nat × Nat :=
  if mapOrder s = 3 then (bit w 12, w / 2 ^ 13 * 2 ^ 12 + w % 2 ^ 12) else (w / 2 ^ 33, w % 2 ^ 33)

/-- The window offset of a channel offset. -/
def windowOf (s : State) (ch off : Nat) : Nat :=
  if mapOrder s = 3 then off / 2 ^ 12 * 2 ^ 13 + ch * 2 ^ 12 + off % 2 ^ 12 else ch * 2 ^ 33 + off

/-- The device fields of a channel offset (R372). -/
structure DramPlace where
  rank : Nat
  row  : Nat
  bg   : Nat
  ba   : Nat
  col  : Nat
  deriving DecidableEq, Repr

/-- The device fields of a channel offset in the address-map order in force: order 0 keeps a row whole, order 1 puts bank and bank group
below the upper column bits, order 2 hashes them with the row, and order 3 maps by order 1 (R371, R372). -/
def dramPlace (s : State) (ch off : Nat) : DramPlace :=
  let g := numF s (dramObj ch + 2)
  let b := bgBits g
  let w := off / 8
  let row := off / 2 ^ (15 + b) % 2 ^ rowBits g
  let rank := off / 2 ^ (15 + b + rowBits g)
  if mapOrder s = 0 then { rank := rank, row := row, bg := off / 2 ^ 15 % 2 ^ b, ba := off / 2 ^ 13 % 4, col := w % 1024 }
  else
    let bg := off / 2 ^ 10 % 2 ^ b
    let ba := off / 2 ^ 8 % 4
    let col := off / 2 ^ (10 + b) % 32 * 32 + w % 32
    if mapOrder s = 2 then { rank := rank, row := row, bg := bg ^^^ row % 2 ^ b, ba := ba ^^^ row / 2 ^ b % 4, col := col }
    else { rank := rank, row := row, bg := bg, ba := ba, col := col }

/-- The number of a bank of a channel. -/
def bankKey (s : State) (ch : Nat) (p : DramPlace) : Nat := (p.rank * 2 ^ bgBits (numF s (dramObj ch + 2)) + p.bg) * 4 + p.ba

/-- The number of the row that holds a channel offset. -/
def rowKey (s : State) (ch off : Nat) : Nat :=
  let p := dramPlace s ch off
  let g := numF s (dramObj ch + 2)
  ((p.rank * 2 ^ rowBits g + p.row) * 2 ^ bgBits g + p.bg) * 4 + p.ba

/-- [39:8] of the crossbar address of the burst at a channel offset. -/
def burstLoc (s : State) (ch off : Nat) : Nat := (dramBase + windowOf s ch (off / 64 * 64)) / 256

/-! ### Accesses -/

/-- Whether byte enables cover whole 8-byte words (R378). -/
def wholeWords (d : Octets) : Bool :=
  (List.range 4).all (fun j => let w := slice d (8 * j) 8
                               w.all (fun b => decide (b < 256)) || w.all (fun b => decide (256 ≤ b)))

/-- Stores the enabled bytes of a beat. -/
def putEnabled (m : List Host.Cell) (a : Nat) : Octets → List Host.Cell
  | [] => m
  | b :: r => putEnabled (if b < 256 then memPut m a (BitVec.ofNat 8 b) else m) (a + 1) r

/-- The beat that a response has come to, by the data read. -/
def beatNo (r : XResp) : Nat := r.data.length / 32

/-- One beat's part of a response that returns `lat` cycles later at the earliest. -/
def respBeat (s : State) (no lat : Nat) (b : Octets) (err : Bool) : State :=
  { s with xbar := { s.xbar with resps := s.xbar.resps.map (fun r =>
    if r.no = no then { r with left := r.left - 1, data := r.data ++ b, err := r.err || err,
                               bad := if err then r.bad ++ [beatNo r] else r.bad, due := max r.due (s.now + lat) } else r) } }

/-- Open rows after an access to a channel offset, or after a refresh, which closes every row. -/
def opened (s : State) (ch : Nat) (off : Option Nat) (m : Tab Nat) : Tab Nat :=
  match off with
  | some a => let p := dramPlace s ch a
              tput m 0 (bankKey s ch p) (p.row + 1)
  | none => []

/-- Puts a command in the retry buffer of 64 with the rows that it finds open (R382): an access to a channel offset, or a refresh. -/
def pushCmd (s : State) (ch : Nat) (resp : Option Nat) (a : Nat) (off : Option Nat) (old : Octets) : State :=
  let x := dramRt s ch
  let beat := match s.xbar.resps.find? (fun r => resp == some r.no) with | some r => beatNo r | none => 0
  let c : DramCmd := { no := x.next, resp := resp, beat := beat, addr := a, old := old, snap := x.banks }
  setDram s ch { x with next := x.next + 1, buffer := (x.buffer ++ [c]).drop (x.buffer.length + 1 - 64),
                        banks := opened s ch off x.banks }

/-- The crossbar address of a channel offset. -/
def dramAddr (s : State) (ch off : Nat) : Nat := dramBase + windowOf s ch off

/-- Whether a beat at a channel offset lies in the row under test. -/
def rowBusy (s : State) (ch off : Nat) : Bool := (dramRt s ch).rowTest == some (rowKey s ch off)

/-- A beat at the array, or at the row save buffer, which serves a row under test without a command to the devices (R384). -/
def arrayCells (s : State) (ch : Nat) (busy : Bool) (resp : Option Nat) (a off : Nat) (f : List Host.Cell → List Host.Cell) : State :=
  let x := dramRt s ch
  if busy then setDram (bump s (arbObj ch + 5)) ch { x with rowSave := f x.rowSave }
  else pushCmd { s with mem := f s.mem } ch resp a (some off) (memRead s.mem a 32)

/-- One beat at a channel: a read of an uncorrectable word and a write of partial words answer with an error (R378, R381). -/
def arrayBeat (s : State) (a : Nat) (data : Option Octets) (resp : Option Nat) : State × Octets × Bool :=
  let c := channelOf s (a - dramBase)
  let x := dramRt s c.1
  let busy := rowBusy s c.1 c.2
  match data with
  | none =>
    let err := x.bad.any (fun w => decide (c.2 / 8 ≤ w) && decide (w < c.2 / 8 + 4))
    let s1 := arrayCells s c.1 busy resp a c.2 id
    (if err then errorAt s1 c.1 else s1, memRead (if busy then x.rowSave else s.mem) a 32, err)
  | some d =>
    if !(wholeWords d) then (errorAt s c.1, [], true)
    else
      let full := fun (w : Nat) => decide (c.2 / 8 ≤ w) && decide (w < c.2 / 8 + 4) && decide ((d[8 * (w - c.2 / 8)]?).getD 256 < 256)
      let s1 := setDram s c.1 { x with bad := x.bad.filter (fun w => !(full w)) }
      (arrayCells s1 c.1 busy resp a c.2 (fun m => putEnabled m a d), [], false)

/-- Whether a channel issues no command: an alert stands, or training runs (R382, R386). -/
def channelStopped (s : State) (ch : Nat) : Bool := (dramRt s ch).alert || numF s (dramObj ch) == 1

/-- One granted beat of a channel: it waits while the channel is stopped (R376, R382, R386). -/
def dramBeat (s : State) (a : Nat) (data : Option Octets) (no : Nat) : State :=
  let ch := (channelOf s (a - dramBase)).1
  let x := dramRt s ch
  if channelStopped s ch then setDram s ch { x with waiting := x.waiting ++ [(no, a, data)] }
  else
    let q := arrayBeat s a data (some no)
    respBeat q.1 no 0 q.2.1 q.2.2

/-! ### Refresh -/

/-- Refreshes that a channel issues now: each takes the target as an emergency requester (R361, R370); the beats it takes are open. -/
def issueRefresh (s : State) (ch : Nat) : Nat → State
  | 0 => s
  | n + 1 =>
    let q := drawUpTo s 2000
    let s1 := pushCmd (bumpBy q.2 (ob 10 ch 3) q.1) ch none 0 none []
    issueRefresh (if (tget s1.xbar.arbs Arbiter.idle ch).current.isSome then bump s1 (ob 10 ch 4) else s1) ch n

/-- A refresh falls due: issued, or postponed while an alert stands, at most 8 (R382). -/
def execDramRefresh (ch : Nat) (s : State) : Host.Outcome State Fault Refusal :=
  let x := dramRt s ch
  .next (if numF s (dramObj ch) ≠ 2 then s
    else if x.alert then setDram s ch { x with postponed := min 8 (x.postponed + 1) }
    else issueRefresh s ch 1)

/-! ### Errors (R381) -/

/-- A corrected single-bit error: reported, and the burst queued for a write-back unless its row is under test or 64 wait. -/
def execDramSingleBitError (ch off detail : Nat) (s : State) : Host.Outcome State Fault Refusal :=
  let x := dramRt s ch
  let row := rowKey s ch off
  let s1 := bump s (dramObj ch + 0x020)
  let s2 := if x.rowTest = some row ∨ 64 ≤ x.backs.length then s1 else setDram s1 ch { x with backs := x.backs ++ [off / 64] }
  .next (reportError s2 (newTest s2 2 (2 * row + ch) 3 (burstLoc s ch off) detail))

/-- A double-bit error: the word answers with an error until a write covers it, and a row test is scheduled. -/
def execDramUncorrectable (ch off detail : Nat) (s : State) : Host.Outcome State Fault Refusal :=
  let x := dramRt s ch
  let s1 := bump (setDram s ch { x with bad := addOnce x.bad (off / 8) }) (dramObj ch + 0x021)
  let s2 := raise s1 0xA102 (dramObj ch) (off / 64)
  .next (reportError s2 (newTest s2 2 (2 * rowKey s ch off + ch) 4 (burstLoc s ch off) detail))

/-- Commands of Bay's own at channel offsets, which leave the data as it is: they enter the retry buffer (R382). -/
def ownCmds (s : State) (ch : Nat) (offs : List Nat) : State :=
  offs.foldl (fun t o => pushCmd t ch none (dramAddr t ch o) (some o) (memRead t.mem (dramAddr t ch o) 32)) s

/-- The domain whose patrol scrub has a write-back's 4 beats left at a channel (R48, R381). -/
def scrubDomain (s : State) (ch : Nat) : Option Nat := [0, 1, 2, 3].find? (fun d => decide (4 ≤ beatsLeft s 0x27 ch d))

/-- The oldest write-back is done: the burst's two beats are read and written, 4 beats of patrol scrub. It waits while the channel is stopped or
the scrub's budget does not hold them (R48, R382). -/
def execDramWriteBack (ch : Nat) (s : State) : Host.Outcome State Fault Refusal :=
  let x := dramRt s ch
  .next (match x.backs, scrubDomain s ch with
    | b :: r, some d =>
      if channelStopped s ch then s
      else spendBeats (ownCmds (setDram s ch { x with backs := r }) ch [64 * b, 64 * b + 32, 64 * b, 64 * b + 32]) 0x27 ch d 4
    | _, _ => s)

/-! ### Parity alerts (R382, R383) -/

/-- Takes back the writes of commands that never reached the array, newest first. -/
def undoCmds (m : List Host.Cell) : List DramCmd → List Host.Cell
  | [] => m
  | c :: r => memWrite (undoCmds m r) c.addr c.old

/-- Commands from position `p` on are not replayed: their accesses answer with errors. -/
def failReplay (s : State) (ch p : Nat) : State :=
  let x := dramRt s ch
  let lost := x.buffer.drop p
  let beats := fun (no : Nat) => (lost.filter (fun c => c.resp == some no)).map (·.beat)
  let n := ((lost.filterMap (fun c => c.resp)).eraseDups).length
  let s1 := setDram { s with mem := undoCmds s.mem lost } ch { x with buffer := x.buffer.take p, suspect := none, banks := [] }
  let s2 : State := { s1 with xbar := { s1.xbar with resps := s1.xbar.resps.map (fun r =>
    if (beats r.no).isEmpty then r else { r with err := true, bad := (r.bad ++ beats r.no).eraseDups }) } }
  raise (bump (bumpBy s2 (arbObj ch + 6) n) (dramObj ch + 0x024)) 0xA104 (dramObj ch) n

/-- Runs the beats that waited for the end of an alert. -/
def drainWaiting (s : State) : List (Nat × Nat × Option Octets) → State
  | [] => s
  | (no, a, d) :: r => drainWaiting (dramBeat s a d no) r

/-- The queue resumes: postponed refreshes, then the beats that waited, a debugger's among them (R382, R391). -/
def resumeDram (s : State) (ch : Nat) : State :=
  let x := dramRt s ch
  let s1 := issueRefresh (setDram s ch { x with alert := false, postponed := 0, waiting := [] }) ch x.postponed
  drainWaiting s1 x.waiting

/-- The 256 MPR reads of a command-bus test have moved, and the test ends (R383). -/
def execCommandBusTestEnd (ch : Nat) (pass : Bool) (s : State) : Host.Outcome State Fault Refusal :=
  .next (match findTest s 4 ch with
    | some t => if (dramRt s ch).busLeft = 0 then writeLog (endTest s 4 ch) t (if pass then 1 else 2) 0 0 false else s
    | none => s)

/-! ### Row tests (R384) and scrub (R380) -/

/-- Whether an address lies in a row of a channel. -/
def inRow (s : State) (ch row a : Nat) : Bool :=
  decide (dramBase ≤ a) && decide (a < 0x1400000000)
  && (let c := channelOf s (a - dramBase)
      c.1 == ch && rowKey s ch c.2 == row)

/-- SAVE of a row: its contents, with the marks of its uncorrectable words, stand in the row save buffer from here on, and the test has 1,536 beats
to move (R384; log entry 205). -/
def saveRow (s : State) (ch row : Nat) : State :=
  setDram s ch { dramRt s ch with rowTest := some row, rowSave := s.mem.filter (fun c => inRow s ch row c.1), rowLeft := 1536 }

/-- RESTORE of a row: the save buffer's contents, with every write made during the test, are the row's again. -/
def restoreRow (s : State) (ch row : Nat) : State :=
  let x := dramRt s ch
  setDram { s with mem := x.rowSave.foldl (fun m c => memPut m c.1 c.2) (s.mem.filter (fun c => !(inRow s ch row c.1))) } ch
    { x with rowTest := none, rowSave := [] }

/-- Row tests that start in a BACKGROUND window: one row per channel that is READY and issues commands. -/
def startRowTests (s : State) : State :=
  (List.range 2).foldl (fun t ch =>
    if (dramRt t ch).rowTest.isSome || isFatal t || numF t (dramObj ch) != 2 || (dramRt t ch).alert then t
    else match t.sage.queue.find? (fun q => q.kind == 2 && q.key % 2 == ch) with
      | some q => saveRow t ch (q.key / 2)
      | none => t) s

/-- The beats of Sage's tests at the channels in one CD0 frame, within its budget: command-bus tests, then row tests, whose commands enter the
retry buffer (R382 to R384, R391). -/
def sageBeats (s : State) : State :=
  (List.range 2).foldl (fun t ch =>
    let x := dramRt t ch
    if channelStopped t ch then t
    else
      let n := min x.busLeft (beatsLeft t 0x26 ch 0)
      let m := min x.rowLeft (beatsLeft t 0x26 ch 0 - n)
      let t1 := setDram t ch { x with busLeft := x.busLeft - n, rowLeft := x.rowLeft - m }
      let off := match t1.sage.queue.find? (fun q => q.kind == 2 && x.rowTest == some (q.key / 2) && q.key % 2 == ch) with
        | some q => (channelOf t1 (256 * q.loc - dramBase)).2
        | none => 0
      if n + m = 0 then t else spendBeats (ownCmds t1 ch ((List.range (min m 64)).map (fun j => off + 32 * (j % 8)))) 0x26 ch 0 (n + m)) s

/-- A row test whose beats have moved ends: the merged contents are back, and a lasting fault is reported without repair. -/
def execDramRowTestEnd (ch : Nat) (pass : Bool) (s : State) : Host.Outcome State Fault Refusal :=
  let x := dramRt s ch
  .next (match x.rowTest with
    | some row =>
      if x.rowLeft ≠ 0 then s
      else
        let s1 := bump (restoreRow s ch row) (dramObj ch + 0x027)
        (match findTest s1 2 (2 * row + ch) with
         | some t => writeLog (endTest s1 2 (2 * row + ch)) t (if pass then passClass t.source else 2) 0 0 false
         | none => s1)
    | none => s)

/-- Scrub position and passes after `n` reads from `p`, and the last 64 offsets read, newest first: beats of a row under test are passed over. -/
def scrubOn (s : State) (ch cap : Nat) : Nat → Nat → Nat → Nat → List Nat → Nat × Nat × List Nat
  | 0, _, p, k, l => (p, k, l)
  | fuel + 1, n, p, k, l =>
    if n = 0 ∨ cap = 0 then (p, k, l)
    else
      let skip := rowBusy s ch p
      let p' := if cap ≤ p + 32 then 0 else p + 32
      scrubOn s ch cap fuel (if skip then n else n - 1) p' (if cap ≤ p + 32 then k + 1 else k) (if skip then l else (p :: l).take 64)

/-- Patrol scrub in one frame of the domain of its entry: the beats of its demand on each channel that is READY and issues commands (R380,
R382). -/
def scrubFrame (s : State) (d : Nat) : State :=
  (List.range 2).foldl (fun t ch =>
    let o := dramObj ch
    match entryFor t 0x27 ch d with
    | some e =>
      if numF t o = 2 ∧ !(dramRt t ch).alert then
        (let n := min (numF t (entryObj e + 6)) (budgetRt t e).count
         let q := scrubOn t ch (numF t (o + 1)) (n + 256) n (numF t (o + 0x025)) (numF t (o + 0x026)) []
         spendBeats (ownCmds (setN (setN t (o + 0x025) q.1) (o + 0x026) q.2.1) ch q.2.2.reverse) 0x27 ch d n)
      else t
    | none => t) s

/-! ### Training and set-points (R385 to R388) -/

/-- Whether training runs. -/
def training (s : State) : Bool := (List.range 2).any (fun ch => numF s (dramObj ch) == 1)

/-- DRAM contents are lost: what the window holds then is what unlisted memory reads as (log entry 4). Granted accesses wait (R386). -/
def loseDram (s : State) : State :=
  (List.range 2).foldl (fun t ch => setDram t ch { Dram.idle with waiting := (dramRt t ch).waiting })
    { s with mem := s.mem.filter (fun c => decide (c.1 < dramBase)) }

/-- Training starts at a set-point on each channel that is fitted; before the first training of a start, no channel is known to be fitted
(R385). -/
def startTraining (s : State) (sp : Nat) : State :=
  let known := (List.range 2).any (fun ch => numF s (dramObj ch) != 0)
  (List.range 2).foldl (fun t ch =>
    let t1 := setN t (dramObj ch + 3) sp
    if known ∧ numF s (dramObj ch) = 0 then t1 else setN (setN t1 (dramObj ch) 1) (dramObj ch + 7) 1) (loseDram s)

/-- A channel at the end of a training step: a step that met an alert is repeated (R388), else the next procedure runs where the step was the
last of its procedure. -/
def stepChannel (done : Bool) (t : State) (ch : Nat) : State :=
  if numF t (dramObj ch) ≠ 1 then t
  else if (dramRt t ch).again = 1 then setDram t ch { dramRt t ch with again := 2 }
  else
    let last := done && decide (numF t (dramObj ch + 7) < 8)
    let t1 := setDram t ch { dramRt t ch with again := 0, repeated := (dramRt t ch).repeated && !last }
    if last then bump t1 (dramObj ch + 7) else t1

/-- A step of training ends: a deferred set-point changes the frequency and training starts again, or the next step runs. -/
def stepTraining (s : State) (done : Bool) : State :=
  match (dramRt s 0).deferred with
  | some sp => startTraining (setDram s 0 { dramRt s 0 with deferred := none }) sp
  | none => (List.range 2).foldl (stepChannel done) s

/-- The end of a training step of both channels (R385, R387). -/
def execDramTrainingStepEnd (done : Bool) (s : State) : Host.Outcome State Fault Refusal :=
  .next (if training s then stepTraining s done else s)

/-- The result of training of one channel: none not fitted, none within for no passing eye, else its geometry. -/
def trainedChannel (s : State) (ch : Nat) (r : Option (Option Nat)) : State :=
  let o := dramObj ch
  let sp := numF s (o + 3)
  let s0 := setN s (o + 7) 0
  match r with
  | none => setN (setN (setN s0 o 0) (o + 1) 0) (o + 2) 0
  | some none => raise (setN s0 o 3) 0xA103 o (sp + 256)
  | some (some g) =>
    let t := numF s0 (o + 5)
    let s1 := setN (setN (setN s0 o 2) (o + 1) (geometryBytes g)) (o + 2) g
    raise (setN s1 (o + 5) (if bit t sp = 1 then t else t + 2 ^ sp)) 0xA103 o sp

/-- A parity alert during training: the current step is repeated once, then its procedure once, and then the channel has FAILED (R388). -/
def alertInTraining (s : State) (ch : Nat) : State :=
  let x := dramRt s ch
  if x.again = 0 then setDram s ch { x with again := 1 }
  else if !x.repeated then setDram s ch { x with again := 0, repeated := true }
  else trainedChannel s ch (some none)

/-- ALERT_n sampled low: it is counted, and no further command is issued until it is released; in training it makes a step fail. A channel
that is not fitted has no such alert (R382, R388). -/
def execDramParityAlert (ch : Nat) (s : State) : Host.Outcome State Fault Refusal :=
  let s1 := bump s (dramObj ch + 0x022)
  .next (if numF s (dramObj ch) = 2 then setDram s1 ch { dramRt s1 ch with alert := true }
    else if numF s (dramObj ch) = 1 then alertInTraining s1 ch
    else s)

/-- A set-point with values held is applied without training, and its channels are READY; else training runs (R386). -/
def changeSetpoint (s : State) (sp : Nat) : State :=
  let fitted := (List.range 2).filter (fun ch => numF s (dramObj ch) != 0)
  if fitted.all (fun ch => bit (numF s (dramObj ch + 5)) sp == 1) then
    fitted.foldl (fun t ch => setN t (dramObj ch) 2) ((List.range 2).foldl (fun t ch => setN t (dramObj ch + 3) sp) (loseDram s))
  else startTraining s sp

end Sys2Proof.Machine
end

