-- ==== Sys2Proof/Machine/Crossbar.lean ====
section
/-!
DEFINITION. Machine/Crossbar.lean: the crossbar (R353 to R368): connectivity, chunks, round-robin and priorities, emergency requesters,
transaction IDs, the aliases of shared flag memory, redirection to save buffers.
-/
namespace Sys2Proof.Machine

/-! ### Masters and targets -/

/-- The master code of the debug port; masters 0x00 to 0x2A are the activities. -/
def debugPort : Nat := 0x2C

/-- The target that an address and a master name (R353); none where there is no memory. Addresses from 2^40 on stand for the stream
targets: a host address, or a link frame of Rosemary. -/
def targetOf (s : State) (m a : Nat) : Option Nat :=
  if a < 0x400000 then some (if 0x10 ≤ m ∧ m < 0x20 then m else 0x02)
  else if a < 0x800000 then some 0x03
  else if a < 0x1000000 then some 0x04
  else if a < 0x1100000 then some 0x06
  else if a < 0x1280000 then some 0x07
  else if (0x2000000 ≤ a ∧ a < 0x2100000) ∨ (0x2400000 ≤ a ∧ a < 0x2500000) ∨ (0x2800000 ≤ a ∧ a < 0x2900000) then some 0x05
  else if 0x4000000 ≤ a ∧ a < 0x6000000 then some (0x20 + (a - 0x4000000) / 0x200000)
  else if dramBase ≤ a ∧ a < 0x1400000000 then
    (let c := channelOf s (a - dramBase)
     if c.2 < numF s (dramObj c.1 + 1) then some c.1 else none)
  else if 2 ^ 40 ≤ a then some (if m = 0x28 then 0x09 else 0x08)
  else none

/-- Whether a master has a path to a target (R355). -/
def hasPath (s : State) (m t : Nat) : Bool :=
  if m = debugPort then isOn s (ob 10 0x40 1) && (decide (t < 8) || (decide (0x10 ≤ t) && decide (t < 0x30)))
  else (activityTargets m).contains t

/-- The plain address of an alias (R363). -/
def plainAddr (a : Nat) : Nat :=
  if 0x2400000 ≤ a ∧ a < 0x2500000 then a - 0x400000 else if 0x2800000 ≤ a ∧ a < 0x2900000 then a - 0x800000 else a

/-! ### Beats -/

/-- Whether a beat meets an uncorrectable word of on-chip memory (R395). -/
def poisoned (s : State) (a : Nat) : Bool := (List.range 8).any (fun j => s.sage.poison.contains (a / 4 + j))

/-- An access served from a save buffer counts (R364, R366). -/
def countRedirect (s : State) (t a : Nat) : State := if (saveOf s a).isSome then bump s (arbObj t + 5) else s

/-- The words of a beat after an alias write, and whether its enables are whole: old and written words of 4 bytes. -/
def aliasBytes (set : Bool) (old d : Octets) : Octets × Bool :=
  let word := fun (j : Nat) =>
    let w := slice d (4 * j) 4
    let o := slice old (4 * j) 4
    if w.all (fun b => decide (256 ≤ b)) then (w, true)
    else if w.all (fun b => decide (b < 256)) then
      ((List.zip o w).map (fun e => if set then e.1 ||| e.2 else e.1 &&& (255 - e.2)), true)
    else (List.replicate 4 256, false)
  ((List.range 8).flatMap (fun j => (word j).1), (List.range 8).all (fun j => (word j).2))

/-- One beat at on-chip memory: state, data returned, error. A plain write of all its bytes takes the mark off an uncorrectable word (R365). -/
def chipBeat (s : State) (t a : Nat) (data : Option Octets) : State × Octets × Bool :=
  let p := plainAddr a
  let s0 := countRedirect s t p
  let old := chipRead s p 32
  match data with
  | none => if poisoned s p then (errorAt s0 t, old, true) else (s0, old, false)
  | some d =>
    let q := if p = a then (d, true) else aliasBytes (decide (a < 0x2800000)) old d
    let full := fun (w : Nat) => decide (p / 4 ≤ w) && decide (w < p / 4 + 8) && (slice d (4 * (w - p / 4)) 4).all (fun b => decide (b < 256))
    let s2 := chipEdit (if p = a then clearPoison s0 full else s0) p (fun m => putEnabled m p q.1)
    let back := if p = a then [] else (List.zip (List.range 32) old).map (fun e => if (d[e.1]?).getD 256 < 256 then e.2 else 256)
    (if q.2 then s2 else errorAt s2 t, back, !q.2)

/-- One beat of a request at its target. On-chip targets answer a read 6 and a write 4 cycles after the beat (R358). -/
def moveBeat (s : State) (t : Nat) (r : XReq) : State :=
  let d := r.data.map (fun b => (b.take 32))
  if t ≤ 1 then dramBeat s (r.addr / 32 * 32) d r.no
  else if t = 8 then
    (match d with
     | some b => respBeat { s with host := { s.host with mem := putEnabled s.host.mem (r.addr - 2 ^ 40) b } } r.no 0 [] false
     | none => respBeat s r.no 0 (memRead s.host.mem (r.addr - 2 ^ 40) 32) false)
  else if t = 9 then respBeat s r.no 0 [] false
  else
    let q := chipBeat s t (r.addr / 32 * 32) d
    respBeat q.1 r.no (if d.isNone then 6 else 4) q.2.1 q.2.2

/-- A request after one beat. -/
def nextBeat (r : XReq) : XReq :=
  { r with addr := r.addr + 32, beats := r.beats - 1, chunk := r.chunk - 1, data := r.data.map (fun b => b.drop 32) }

/-- Moves `n` beats of a request. -/
def moveBeats (t : Nat) : Nat → XReq → State → XReq × State
  | 0, r, s => (r, s)
  | n + 1, r, s => moveBeats t n (nextBeat r) (moveBeat s t r)

/-- Beats of the current owner, counted at the grant before. -/
def runOwner (s : State) (t n : Nat) : Option XReq × State :=
  match (arb s t).current with
  | some r =>
    let q := moveBeats t (min n r.chunk) r s
    (some q.1, q.2)
  | none => (none, s)

/-! ### Arbitration (R359 to R362) -/

/-- The beats of the chunk that a grant gives a request: the rest of an interrupted chunk, or BURST_LIMIT, within the counter (R48, R359). -/
def chunkOf (s : State) (t : Nat) (r : XReq) : Nat :=
  min (beatsLeft s r.master t r.dom) (if 0 < r.chunk then r.chunk else min (numF s (arbObj t)) r.beats)

/-- Whether a waiting request may be granted now. A DRAM channel takes a chunk only when its queue has room for the whole of it, and none in
training (R376, R386). -/
def grantable (s : State) (t : Nat) (r : XReq) : Bool :=
  decide (0 < beatsLeft s r.master t r.dom)
  && (decide (2 ≤ t) || (numF s (dramObj t) != 1 && decide ((dramRt s t).waiting.length + chunkOf s t r ≤ 256)))

/-- Distance of a code after the last owner's in ascending order, wrapping. -/
def turnOf (last m : Nat) : Nat := (m + 42 - last) % 43

/-- PRIORITY of a master in KV4100 mode; 0 in native mode. -/
def prioOf (s : State) (m : Nat) : Nat := if numF s (ob 10 0x40 0) = 1 then numF s (ob 10 0x40 (0x100 + m)) else 0

/-- Whether the first request goes before the second. -/
def before (s : State) (last : Nat) (x y : XReq) : Bool :=
  if prioOf s x.master != prioOf s y.master then decide (prioOf s y.master < prioOf s x.master)
  else if x.master != y.master then decide (turnOf last x.master < turnOf last y.master)
  else decide (x.no < y.no)

/-- The request that is granted next. -/
def pickNext (s : State) (t : Nat) : Option XReq :=
  ((arb s t).queue.filter (grantable s t)).foldl (fun (b : Option XReq) r =>
    match b with
    | some q => if before s (arb s t).last r q then some r else b
    | none => some r) none

/-- Requests held at a counter of 0 make their frame count (R42). -/
def markHeld (s : State) (t : Nat) : State :=
  (arb s t).queue.foldl (fun u r =>
    match entryFor u r.master t r.dom with
    | some e => if (budgetRt u e).count = 0 then heldAtZero u e else u
    | none => u) s

/-- Grants the next chunk of a target without an owner. -/
def grantNext (s : State) (t : Nat) : State :=
  let s0 := markHeld s t
  match pickNext s0 t with
  | some r =>
    let n := chunkOf s0 t r
    let x := arb s0 t
    spendBeats (setArb s0 t { x with current := some { r with chunk := n }, queue := x.queue.filter (fun q => q.no != r.no), last := r.master })
      r.master t r.dom n
  | none => s0

/-- A channel issues commands again: what was held there is served, and an idle arbiter grants what the queue has room for (R360, R376, R382,
R386). -/
def wakeChannel (s : State) (ch : Nat) : State :=
  let s1 := resumeDram s ch
  if (arb s1 ch).current.isNone then grantNext s1 ch else s1

/-- ALERT_n is high again and MPR page 1 names the failing command by its position in the retry buffer, 0 the oldest; none when it has left
the buffer. A replay opens the rows of the command's snapshot and issues it and the commands after it again, which leaves array and open rows
as these commands leave them; at most three replays of one command. Without a replay every bank stays closed. -/
def execDramAlertRelease (ch : Nat) (failing : Option Nat) (s : State) : Host.Outcome State Fault Refusal :=
  let x := dramRt s ch
  if x.alert then
    let pos := failing.filter (fun p => decide (p < x.buffer.length))
    let arg := pos.getD 0xFF
    let s0 := if (findTest s 4 ch).isSome then s else setDram s ch { x with busLeft := 256 }
    let s1 := raise (reportError s0 (newTest s 4 ch 5 ch arg)) 0xA101 (dramObj ch) arg
    let s2 := match pos.bind (fun p => (x.buffer[p]?).map (fun c => (p, c))) with
      | some (p, c) =>
        let n := match x.suspect with | some (k, n) => if k = c.no then n else 0 | none => 0
        if 3 ≤ n then failReplay s1 ch p
        else bump (setDram s1 ch { dramRt s1 ch with suspect := some (c.no, n + 1) }) (dramObj ch + 0x023)
      | none => failReplay s1 ch 0
    .next (wakeChannel s2 ch)
  else .next s

/-- The last beat of a chunk: its beats have moved, what is left of the request waits again, and the next owner is decided. -/
def execChunkEndGrant (t : Nat) (s : State) : Host.Outcome State Fault Refusal :=
  let q := runOwner s t 64
  let x := arb q.2 t
  let queue := match q.1 with
    | some r => if r.beats = 0 then x.queue else x.queue ++ [{ r with chunk := 0 }]
    | none => x.queue
  .next (grantNext (setArb q.2 t { x with current := none, queue := queue }) t)

/-! ### Requests -/

/-- An error response, 2 cycles after it, to a request without memory or path (R355). -/
def refuseRequest (s : State) (m id a : Nat) (read : Bool) (t : Option Nat) : State :=
  let r : XResp := { no := s.xbar.next, master := m, id := id, dom := 0, tgt := t.getD 0x30, left := 0, data := [], err := true, bad := [],
                     read := read,
                     due := s.now + 2 }
  let s1 : State := { s with xbar := { s.xbar with next := s.xbar.next + 1, resps := s.xbar.resps ++ [r] } }
  raise (match t with | some k => errorAt s1 k | none => s1) 0xA001 (match t with | some k => arbObj k | none => ob 10 0x40 0) (a / 256 % 2 ^ 32)

/-- Whether a master has a request outstanding on all 16 IDs (R357). -/
def idsFull (s : State) (m : Nat) : Bool := (List.range 16).all (fun i => s.xbar.resps.any (fun r => r.master == m && r.id == i))

/-- A request that a master has a path for joins its target's queue with a response to come, and is granted at once by an idle target. -/
def enqueue (s : State) (k m id a beats d : Nat) (data : Option Octets) : State :=
  let r : XReq := { no := s.xbar.next, master := m, id := id, dom := d, addr := a, beats := beats, data := data, chunk := 0 }
  let w : XResp := { no := s.xbar.next, master := m, id := id, dom := d, tgt := k, left := beats, data := [], err := false, bad := [],
                     read := data.isNone, due := s.now }
  let s1 : State := { s with xbar := { s.xbar with next := s.xbar.next + 1, resps := s.xbar.resps ++ [w] } }
  let x := arb s1 k
  let s2 := setArb s1 k { x with queue := x.queue ++ [r] }
  if x.current.isNone then grantNext s2 k else s2

/-- The parts of a request in the 4 KB blocks that order 3 puts on alternate channels (R371): address, beats, beats before it. -/
def blockParts (a beats : Nat) : List (Nat × Nat × Nat) :=
  let first := (4096 - a % 4096) / 32
  (List.range (beats / 128 + 2)).filterMap (fun j =>
    let at_ := if j = 0 then 0 else first + 128 * (j - 1)
    let n := min (if j = 0 then first else 128) (beats - at_)
    if n = 0 then none else some (a + 32 * at_, n, at_))

/-- Whether each part of a request that crosses blocks has a memory and a path. -/
def partsReach (s : State) (m a beats : Nat) : Bool :=
  mapOrder s == 3 && decide (dramBase ≤ a) && (blockParts a beats).all (fun p =>
    match targetOf s m p.1, targetOf s m (p.1 + 32 * (p.2.1 - 1)) with
    | some k, some l => k == l && decide (k ≤ 1) && hasPath s m k
    | _, _ => false)

/-- A master's request for beats. One that finds its target idle is granted in the next cycle (R360). -/
def execCrossbarRequest (m id a beats d : Nat) (data : Option Octets) (s : State) : Host.Outcome State Fault Refusal :=
  let t := targetOf s m a
  let end_ := targetOf s m (a + 32 * (beats - 1))
  if beats = 0 ∨ 16 ≤ id ∨ idsFull s m then .next s
  else
    match t with
    | none => .next (refuseRequest s m id a data.isNone none)
    | some k =>
      if !(hasPath s m k) then .next (refuseRequest s m id a data.isNone (some k))
      else if end_ = t then .next (enqueue s k m id a beats d data)
      else if partsReach s m a beats then
        .next ((blockParts a beats).foldl (fun u p =>
          enqueue u ((targetOf s m p.1).getD k) m id p.1 p.2.1 d (data.map (fun b => slice b (32 * p.2.2) (32 * p.2.1)))) s)
      else .next (refuseRequest s m id a data.isNone none)

/-- Whether the beats of a debug request lie at a target: a tile's port to the Sample Exchange Memory is reached by the memory's own
addresses (R353, R355). -/
def namesTarget (s : State) (t a beats : Nat) : Bool :=
  [a, a + 32 * (beats - 1)].all (fun x => targetOf s debugPort x == some (if 0x10 ≤ t ∧ t < 0x20 then 2 else t))

/-- An emergency requester takes a target at the beat boundary after `done` beats of the owner's chunk; the owner keeps its place and goes
on after it. The debug port's beats are accesses, and it reaches the crossbar only while DEBUG_ENABLE is TRUE; refresh moves no data
(R361, R367). -/
def execEmergencyRequest (t req a beats done : Nat) (data : Option Octets) (s : State) : Host.Outcome State Fault Refusal :=
  if (req = debugPort ∧ hasPath s req t ∧ namesTarget s t a beats) ∨ (req = 0x2B ∧ t ≤ 1) then
    let owned := (arb s t).current.isSome
    let q := runOwner s t done
    let s1 := setArb q.2 t { arb q.2 t with current := q.1 }
    let s2 := bumpBy (if owned then bump s1 (arbObj t + 4) else s1) (arbObj t + 3) beats
    if req = debugPort then
      let r : XReq := { no := s2.xbar.next, master := req, id := 0, dom := 0, addr := a, beats := beats, data := data, chunk := beats }
      let w : XResp := { no := s2.xbar.next, master := req, id := 0, dom := 0, tgt := t, left := beats, data := [], err := false, bad := [],
                         read := data.isNone, due := s2.now }
      let s3 : State := { s2 with xbar := { s2.xbar with next := s2.xbar.next + 1, resps := s2.xbar.resps ++ [w] } }
      .next (moveBeats t beats r s3).2
    else .next s2
  else if req = debugPort ∧ isOn s (ob 10 0x40 1) then
    .next (refuseRequest s req 0 a data.isNone (if hasPath s req t then none else some t))
  else .next s

/-- In KV4100 mode a waiting master of higher priority takes the target after `done` beats; the owner's chunk ends later where it would have
ended (R362). -/
def execPriorityPreemption (t m done : Nat) (s : State) : Host.Outcome State Fault Refusal :=
  match (arb s t).current, (arb s t).queue.find? (fun r => r.master == m && grantable s t r) with
  | some o, some _ =>
    if numF s (ob 10 0x40 0) = 1 ∧ prioOf s o.master < prioOf s m then
      let q := runOwner s t done
      let s1 := bump q.2 (arbObj t + 4)
      let x := arb s1 t
      let left := match q.1 with | some r => if r.beats = 0 then [] else [r] | none => []
      let s2 := setArb s1 t { x with current := none, queue := x.queue ++ left }
      .next (grantNext (left.foldl (fun u r => giveBeats u r.master t r.dom r.chunk) s2) t)
    else .next s
  | _, _ => .next s

/-- The oldest response of a master's ID returns once all its beats have moved, not before its latency has passed (R357, R358). -/
def execReadDataReturn (m id : Nat) (s : State) : Host.Outcome State Fault Refusal :=
  match s.xbar.resps.find? (fun r => r.master == m && r.id == id) with
  | some r =>
    .next (if r.left = 0 then
      { s with now := max s.now r.due, xbar := { s.xbar with resps := s.xbar.resps.filter (fun q => q.no != r.no), last := some r } } else s)
  | none => .next s

/-- A response that is complete: it returns at once, or behind those that its master still awaits on the same ID (R357). -/
def answerNow (s : State) (r : XResp) : State :=
  let wait := s.xbar.resps.any (fun q => q.master == r.master && q.id == r.id)
  { s with xbar := { s.xbar with next := s.xbar.next + 1, resps := if wait then s.xbar.resps ++ [r] else s.xbar.resps,
                                 last := if wait then s.xbar.last else some r } }

/-- A bit-set or bit-clear write of one beat at an offset of shared flag memory, on ID 0: read, modification and write in one access (R363). Its
masters, Sage and Parsley, count in CD0 (R41, R46); the debug port has no budget and takes the target at once (R361). A write that finds the
target owned, or its counter at 0, waits at the arbiter as any other request (R48, R360); a master with a request on each of its 16 IDs issues
none (R357). -/
def execFlagAliasWrite (m : Nat) (set : Bool) (a : Nat) (data : Octets) (s : State) : Host.Outcome State Fault Refusal :=
  let p := (if set then 0x2400000 else 0x2800000) + a % 0x100000 / 32 * 32
  let d := slice (data ++ List.replicate 32 256) 0 32
  if idsFull s m then .next s
  else if hasPath s m 5 then
    if m = debugPort ∨ ((arb s 5).current.isNone ∧ 0 < beatsLeft s m 5 0) then
      let q := chipBeat s 5 p (some d)
      let r : XResp := { no := q.1.xbar.next, master := m, id := 0, dom := 0, tgt := 5, left := 0, data := q.2.1, err := q.2.2, bad := [],
                         read := false,
                         due := s.now + 4 }
      let s1 := answerNow q.1 r
      .next (if m = debugPort then bump (if (arb s1 5).current.isSome then bump s1 (arbObj 5 + 4) else s1) (arbObj 5 + 3)
        else spendBeats (setArb s1 5 { arb s1 5 with last := m }) m 5 0 1)
    else execCrossbarRequest m 0 p 1 0 (some d) s
  else if m = debugPort then .next s
  else .next (refuseRequest s m 0 p false (some 5))

/-- A phase ends: the reads of its masters, by master and domain, that have not returned are cancelled and their IDs released; a target
left without an owner grants its next request (R36, R357). -/
def cancelReads (s : State) (mine : Nat → Nat → Bool) : State :=
  let cut := fun (r : XReq) => mine r.master r.dom && r.data.isNone
  let arbs := s.xbar.arbs.map (fun e =>
    (e.1, { e.2 with queue := e.2.queue.filter (fun r => !(cut r)),
                     current := match e.2.current with | some r => if cut r then none else some r | none => none }))
  let free := (s.xbar.arbs.filter (fun e => match e.2.current with | some r => cut r | none => false)).map (·.1)
  let s1 : State := { s with xbar := { s.xbar with arbs := arbs.filter (fun e => decide (e.2 ≠ Arbiter.idle)),
                                                   resps := s.xbar.resps.filter (fun r => !(mine r.master r.dom && r.read)) } }
  free.foldl grantNext s1

/-- LOAD of every arbiter: the beats of the last 100 ms, in per mille of CAPACITY (R366). -/
def reportLoads (s : State) : State :=
  s.xbar.arbs.foldl (fun u e =>
    let x := arb u e.1
    if x.since + 125000000 ≤ u.now then
      setN (setArb u e.1 { x with moved := 0, since := u.now }) (arbObj e.1 + 2) (x.moved / (100 * numF u (arbObj e.1 + 1)))
    else u) s

end Sys2Proof.Machine
end

