-- ==== Sys2Proof/Machine/Wire.lean ====
section
/-!
DEFINITION. Machine/Wire.lean: messages as octets (R247 to R250), in the byte order of a transport.
-/
namespace Sys2Proof.Machine

/-- Bytes of a scalar type code (R230); none for STRING, BLOB and undefined codes. -/
def scalarBytes : Nat → Option Nat
  | 1 => some 1 | 2 => some 1 | 3 => some 2 | 4 => some 4 | 5 => some 8 | 6 => some 4 | 7 => some 4 | 8 => some 4
  | 9 => some 4 | 10 => some 4 | 11 => some 8 | 12 => some 8 | 13 => some 2 | 14 => some 2 | _ => none

/-- A typed value as octets. -/
def typedOctets (big : Bool) (v : TVal) : Octets :=
  v.code :: (match v.val with
    | .num n => toBytes big v.size n
    | .blob b => (if v.code = 15 then [b.length] else toBytes big 4 b.length) ++ b)

/-- A typed value from the front of octets; an undefined type code takes all that is left. -/
def readTyped (big : Bool) (b : Octets) : Option (TVal × Octets) :=
  match b with
  | [] => none
  | c :: r =>
    match scalarBytes c with
    | some n => if r.length < n then none else some ({ code := c, size := n, val := .num (ofBytes big (r.take n)) }, r.drop n)
    | none =>
      if c = 15 then
        (match r with
         | [] => none
         | n :: t => if t.length < n then none else some ({ code := c, size := 1 + n, val := .blob (t.take n) }, t.drop n))
      else if c = 16 then
        (let n := ofBytes big (r.take 4)
         let t := r.drop 4
         if r.length < 4 ∨ t.length < n then none
         else some ({ code := c, size := 4 + n, val := .blob (t.take n) }, t.drop n))
      else some ({ code := c, size := r.length, val := .num 0 }, [])

/-- `n` typed values that fill octets exactly. -/
def readTypedList (big : Bool) : Nat → Octets → Option (List TVal)
  | 0, b => if b.isEmpty then some [] else none
  | n + 1, b =>
    match readTyped big b with
    | some (v, r) => (readTypedList big n r).map (fun l => v :: l)
    | none => none

/-- Count and stride of a block (R248); none when a reserved bit is set or the count is outside 1 to 4,096. -/
def blockAux (aux : Nat) : Option (Nat × Bool) :=
  let n := bits aux 12 0
  if aux = n + 65536 * bit aux 16 ∧ 1 ≤ n ∧ n ≤ 4096 then some (n, bit aux 16 == 1) else none

/-- The 16 bytes of COMMIT and ROLLBACK. -/
def commitBody (big : Bool) (b : Octets) : Option CommitReq :=
  if b.length = 16 ∧ slice b 2 2 = [0, 0] then
    some { when := (b[0]?).getD 0, base := (b[1]?).getD 0, instant := ofBytes big (slice b 4 8), label := ofBytes big (slice b 12 4) }
  else none

/-- The body of SUBSCRIBE. -/
def subBody (big : Bool) (obj aux : Nat) (b : Octets) : Option SubReq :=
  match (b[0]?).getD 2 with
  | 0 => if b.length = 4 ∧ (b[1]?).getD 1 = 0 then
      (blockAux aux).map (fun e => .value obj e.1 e.2 (ofBytes big (slice b 2 2))) else none
  | 1 =>
    let n := (b[1]?).getD 0
    if aux = 0 ∧ obj = 0 ∧ 1 ≤ n ∧ n ≤ 32 ∧ b.length = 4 + 2 * n ∧ slice b 2 2 = [0, 0] then
      some (.event ((List.range n).map (fun j => ofBytes big (slice b (4 + 2 * j) 2))))
    else none
  | _ => none

/-- A request that R249 refuses, with the object if its opcode names one (R247, R248). -/
def badReq (op obj : Nat) (b : Octets) : Req :=
  .bad op (if (1 ≤ op ∧ op ≤ 4) ∨ (op = 9 ∧ b[0]? = some 0) then obj else 0)

/-- A request from its header fields and body; `bad` where R249 refuses it. -/
def reqOf (big : Bool) (op status obj aux : Nat) (b : Octets) : Req :=
  let bad := badReq op obj b
  let plain := fun (r : Req) => if status = 0 ∧ obj = 0 ∧ aux = 0 ∧ b.isEmpty then r else bad
  let some' := fun (r : Option Req) => if status = 0 then r.getD bad else bad
  match op with
  | 0x01 => if status = 0 ∧ aux = 0 ∧ b.isEmpty then .read obj else bad
  | 0x02 => some' (if aux = 0 then (match readTyped big b with
      | some (v, []) => some (.write obj v) | _ => none) else none)
  | 0x03 => some' (if b.isEmpty then (blockAux aux).map (fun e => .readBlock obj e.1 e.2) else none)
  | 0x04 => some' ((blockAux aux).bind (fun e => (readTypedList big e.1 b).map (fun l => .writeBlock obj e.2 l)))
  | 0x05 => plain .txnBegin
  | 0x06 => plain .txnEnd
  | 0x07 => some' (if aux = 0 ∧ obj = 0 then (commitBody big b).map .commit else none)
  | 0x08 => some' (if aux = 0 ∧ obj = 0 then (commitBody big b).map .rollback else none)
  | 0x09 => some' ((subBody big obj aux b).map .subscribe)
  | 0x0A => if status = 0 ∧ obj = 0 ∧ aux < 64 ∧ b.isEmpty then .unsubscribe aux else bad
  | 0x0B => plain .close
  | 0x0C => plain .nop
  | _ => bad

/-- The opcode of a request. -/
def opOf : Req → Nat
  | .read _ => 0x01 | .write _ _ => 0x02 | .readBlock .. => 0x03 | .writeBlock .. => 0x04 | .txnBegin => 0x05
  | .txnEnd => 0x06 | .commit _ => 0x07 | .rollback _ => 0x08 | .subscribe _ => 0x09 | .unsubscribe _ => 0x0A
  | .close => 0x0B | .nop => 0x0C | .bad op _ => op

/-- The object that a request names. -/
def reqObj : Req → Obj
  | .read o => o | .write o _ => o | .readBlock o _ _ => o | .writeBlock o _ _ => o
  | .subscribe (.value o _ _ _) => o | .bad _ o => o | _ => 0

/-- A reply body as octets. -/
def bodyOctets (big : Bool) : Body → Octets
  | .none => []
  | .typed v => typedOctets big v
  | .block xs => xs.flatMap (fun e => e.1 :: (match e.2 with | some v => typedOctets big v | none => []))
  | .landed v n => toBytes big 4 v ++ toBytes big 8 n
  | .sub n => [n]
  | .challenge n ne => [n, 0, 0, 0] ++ ne

/-- A message header (R247). -/
def headerOctets (big : Bool) (op status tag obj len aux : Nat) : Octets :=
  [op, status] ++ toBytes big 2 tag ++ toBytes big 4 obj ++ toBytes big 4 len ++ toBytes big 4 aux

/-- The typed value of an object. -/
def typedOf (o : Obj) (v : Val) : TVal :=
  match rowOf o with
  | some r => { code := r.ty.code, val := v,
                size := (match r.ty with | .str => 1 + (valOctets v).length | .blob => 4 + (valOctets v).length | t => t.bytes) }
  | none => { code := 4, size := 4, val := v }

/-- The object and body of a notification (R250). -/
def notifBody (big : Bool) : Notif → Nat × Octets
  | .value n o f v => (o, [0, n, 0, 0] ++ toBytes big 8 f ++ typedOctets big (typedOf o v))
  | .event code o d t arg => (o, [1, if d.isSome then 0 else 1] ++ toBytes big 2 code ++ toBytes big 8 t ++ toBytes big 4 (arg % 2 ^ 32))

end Sys2Proof.Machine
end

