-- ==== Sys2Proof/Machine/Sessions.lean ====
section
/-!
DEFINITION. Machine/Sessions.lean: control sessions (R236, R253 to R256, R261) and the completion rings that answer them (R262 to R265).
-/
namespace Sys2Proof.Machine

/-! ### The KV4100 dialect (R246) -/

/-- Whether a session speaks the KV4100 dialect. -/
def isLegacy (s : State) (n : Sess) : Bool := numF s (sob n 3) == 1

/-- The native number of a legacy number, within the legacy limits. -/
def ofLegacy (x : Nat) : Option Obj :=
  let i := bits x 27 16
  let m := bits x 15 0
  if x < 2 ^ 32 ∧ m ≤ 0xFFF then some (ob (x / 2 ^ 28) i m) else none

/-- The legacy number of an object; instances above 0x0FFF have none, and keep their low 12 bits (log entry 48). -/
def legacyNo (o : Obj) : Nat := areaOf o * 2 ^ 28 + instOf o % 0x1000 * 2 ^ 16 + memOf o

/-- Whether the legacy subset holds an object. -/
def inSubset (o : Obj) : Bool :=
  let i := instOf o
  let m := memOf o
  let within := fun (lo hi : Nat) => decide (lo ≤ m) && decide (m ≤ hi)
  match areaOf o with
  | 0 => i == 0 && within 0 8
  | 1 => i == 0 && within 0 5
  | 5 => decide (i ≤ 0xFF) && (within 0 2 || within 0x040 0x043 || within 0x060 0x066
      || (within 0x100 0x134) || within 0x180 0x181 || within 0x300 0x302)
  | 6 => (decide (i ≤ 0x3F) && (within 0 0xFF || within 0x400 0x401))
      || (decide (0x100 ≤ i) && decide (i ≤ 0x11F) && (within 0 0x3F || within 0x400 0x401))
  | 7 => (decide (i ≤ 0x3F) || (decide (0x100 ≤ i) && decide (i ≤ 0x11F))) && (m == 1 || within 0x042 0x043 || within 0x300 0x302)
  | 8 => decide (i ≤ 0x1FF) && within 0 0x030
  | 14 => decide (i ≤ 1) && within 0 6
  | _ => false

/-- Whether an object is a GAIN_DB member. -/
def isGain (o : Obj) : Bool := match rowOf o with | some r => decide (r.ty = .gainDb) | none => false

/-- A value of an object as a session reads it: gains as Q4_27 in the KV4100 dialect. -/
def typedFor (s : State) (n : Sess) (o : Obj) (v : Val) : TVal :=
  if isLegacy s n && isGain o then { code := 9, size := 4, val := .num (wrapTo 32 (gainOfDb (valNat v))) } else typedOf o v

/-- The number of an object in a session's dialect. -/
def numberFor (s : State) (n : Sess) (o : Obj) : Nat := if isLegacy s n then legacyNo o else o

/-- The object and body of a notification in a session's dialect and its transport's byte order (R246, R250). -/
def notifFor (s : State) (n : Sess) (big : Bool) (x : Notif) : Nat × Octets :=
  match x with
  | .value k o f v => (numberFor s n o, [0, k, 0, 0] ++ toBytes big 8 f ++ typedOctets big (typedFor s n o v))
  | .event .. => (numberFor s n (notifBody big x).1, (notifBody big x).2)

/-! ### Session slots -/

/-- The lowest session slot that is neither open nor pending. -/
def freeSlot (s : State) : Option Nat :=
  (List.range 32).find? (fun n => numF s (sob n 0) == 0 && !((sess s n).authWait))

/-- Opens a session slot: its members, and what it holds beside them. -/
def openSession (s : State) (n : Sess) (transport priv dialect : Nat) (x : Session) : State :=
  let s1 := [(0, 1), (1, transport), (2, priv), (3, dialect), (4, 0), (5, 0), (6, 0), (7, 0), (8, 0), (9, 0)].foldl
    (fun t e => setN t (sob n e.1) e.2) (setSess s n x)
  let k := numF s (ob 1 0x200 2) + 1
  let s2 := setN s1 (ob 1 0x200 2) k
  if numF s (ob 1 0x200 3) < k then setN s2 (ob 1 0x200 3) k else s2

/-- Closes a session: transaction and subscriptions go, staged writes stay, SESSION_STAGING returns to FALSE; every other
subscriber hears of it (R236, R243, R275). A commit in validation goes on without a reply. -/
def closeSession (s : State) (n : Sess) (why : Nat) : State :=
  if sessOpen s n then
    let s1 := (List.range 10).foldl (fun t m => setN t (sob n m) 0) (setSess s n Session.free)
    let s2 := match s1.commit with
      | some p => if p.session = n ∧ numF s1 (ob 14 0 0) = 1 then { s1 with commit := some { p with op := 0 } } else s1
      | none => s1
    raiseBut (setN s2 (ob 1 0x200 2) (numF s (ob 1 0x200 2) - 1)) [n] 0x1005 (sob n 0) why
  else setSess s n Session.free

/-! ### MSI-X (R265) -/

/-- Whether a vector's mask bit is set; the mask bits read 1 until the host clears them (log entry 30). -/
def msixMasked (s : State) (v : Nat) : Bool := tget s.host.msixTab 1 (4 * v + 3) % 2 == 1

/-- One MSI-X message on a vector; a masked vector sets its pending bit. -/
def sendMsix (s : State) (v : Nat) : State :=
  if msixMasked s v then { s with host := { s.host with msixPend := insertUp v s.host.msixPend } }
  else { s with host := { s.host with msixSent := tput s.host.msixSent 0 v (tget s.host.msixSent 0 v + 1) } }

/-- Writes host memory. -/
def hostWrite (s : State) (a : Nat) (b : Octets) : State := { s with host := { s.host with mem := memWrite s.host.mem a b } }

/-- Reads host memory. -/
def hostRead (s : State) (a n : Nat) : Octets := memRead s.host.mem a n

/-- Puts bytes that the host has stored into its memory. -/
def hostStores (s : State) (cs : List Host.Cell) : State :=
  { s with host := { s.host with mem := cs.foldl (fun m c => memPut m c.1 c.2) s.host.mem } }

/-! ### Command pairs (R260 to R263) -/

/-- Command pair `i`. -/
def cmdPair (s : State) (i : Nat) : CmdPair := tget s.host.pairs CmdPair.off i
/-- Changes a command pair. -/
def setPair (s : State) (i : Nat) (x : CmdPair) : State := { s with host := { s.host with pairs := tput s.host.pairs CmdPair.off i x } }

/-- The pair that carries a session over PCIe. -/
def pairOf (s : State) (n : Sess) : Option Nat :=
  (List.range 16).find? (fun i => (cmdPair s i).state != 0 && (cmdPair s i).openSt == 0 && (cmdPair s i).session == n)

/-- Free completion entries of a pair. -/
def cqFree (x : CmdPair) : Nat := if x.entries = 0 then 0 else (x.cqHead + x.entries - 1 - x.cqTail) % x.entries

/-- Writes a completion entry: header, body in line or at the buffer address, SQ_HEAD and PHASE (R263). -/
def postEntry (s : State) (i : Nat) (head body : Octets) (sqHead : Nat) : State :=
  let x := cmdPair s i
  let inl := if body.length ≤ 44 then body else []
  let e := head ++ inl ++ List.replicate (44 - inl.length) 0 ++ leBytes 2 sqHead ++ [if x.phase then 1 else 0, 0]
  let t := x.cqTail + 1
  let wrap := decide (x.entries ≤ t)
  hostWrite (setPair s i { x with cqTail := if wrap then 0 else t, phase := if wrap then !x.phase else x.phase, unsent := true })
    (x.cqBase + 64 * x.cqTail) e

/-- The completion of a request; a long body goes to its buffer, and one that the buffer cannot take becomes RANGE with the length
needed. -/
def postReply (s : State) (i : Nat) (r : Reply) : State :=
  let x := cmdPair s i
  let b := bodyOctets false r.body
  let buf := (x.fetched.find? (fun e => e.1 == r.tag)).getD (r.tag, 0, 0)
  let s1 := setPair s i { x with fetched := x.fetched.eraseP (fun e => e.1 == r.tag) }
  if b.length ≤ 44 then postEntry s1 i (headerOctets false r.op r.status r.tag r.obj b.length r.aux) b x.sqHead
  else if buf.2.2 < b.length then postEntry s1 i (headerOctets false r.op stRange r.tag r.obj 0 b.length) [] x.sqHead
  else postEntry (hostWrite s1 buf.2.1 b) i (headerOctets false r.op r.status r.tag r.obj b.length r.aux) b x.sqHead

/-- After completions and with no further submission to serve, one message goes out on the pair's vector (R265). -/
def flushPair (s : State) (i : Nat) : State :=
  let x := cmdPair s i
  let none_ := (x.sqHead == x.sqTail || !x.enable) && (sess s x.session).inbox.isEmpty
  if x.unsent && (none_ || cqFree x == 0) then sendMsix (setPair s i { x with unsent := false }) x.vector else s

/-! ### Datagrams that the port sends (R252, R254) -/

/-- A message cut into segments of 1,440 octets. -/
def segmentsOf (b : Octets) : List Octets := (List.range ((b.length + 1439) / 1440)).map (fun k => (b.drop (1440 * k)).take 1440)

/-- The prefix of a datagram. -/
def prefixOctets (session seq tag segment segments : Nat) : Octets :=
  [0x4F, 0x44, 1, session] ++ beBytes 4 seq ++ beBytes 2 tag ++ beBytes 2 segment ++ beBytes 2 segments ++ [0, 0]

/-- The datagrams of a message, the first with counter `seq`; without a key their MAC is all zero. -/
def datagramsOf (session seq tag : Nat) (ks : Option Octets) (b : Octets) : List Octets :=
  let gs := segmentsOf b
  (List.range gs.length).map (fun k =>
    let d := prefixOctets session (seq + k) tag k gs.length ++ (gs[k]?).getD []
    d ++ (match ks with | some key => (hmac key d).take 16 | none => List.replicate 16 0))

/-- A reply as octets of ODP. -/
def replyOctets (r : Reply) : Octets :=
  let b := bodyOctets true r.body
  headerOctets true r.op r.status r.tag r.obj b.length r.aux ++ b

/-- The port sends datagrams to an address. -/
def portSend (s : State) (addr port : Nat) (ds : List Octets) : State :=
  { s with ctl := { s.ctl with out := ds.map (fun d => (addr, port, d)) } }

/-- Sends a message of an open session to its client: SEQ counts its datagrams. -/
def sendOdp (s : State) (n : Sess) (tag : Nat) (b : Octets) : State :=
  let x := sess s n
  portSend (setSess s n { x with seqOut := x.seqOut + (segmentsOf b).length }) x.addr x.port (datagramsOf n (x.seqOut + 1) tag (some x.ks) b)

/-! ### Replies -/

/-- Answers an open session: over PCIe by a completion entry; over ODP the reply is sent and kept for its tag (R254). -/
def answer (s : State) (n : Sess) (r : Reply) : State :=
  if !(sessOpen s n) then s
  else match pairOf s n with
  | some i => flushPair (postReply s i r) i
  | none =>
    let x := sess s n
    sendOdp (setSess s n { x with kept := (x.kept ++ [r]).drop ((x.kept.length + 1) - 8) }) n r.tag (replyOctets r)

/-- A reply of status and body. -/
def reply (s : State) (n : Sess) (op tag : Nat) (obj : Obj) (status aux : Nat) (body : Body) : State :=
  answer s n { op := op + 0x80, status := status, tag := tag, obj := obj, aux := aux, body := body }

/-! ### Opening over ODP (R255, R256) -/

/-- A key slot. -/
def keySlot (s : State) (k : Nat) : KeySlot := tget s.host.keys KeySlot.blank k

/-- The next engine nonce (log entry 10). -/
def drawNonce (s : State) : Octets × State :=
  ((Config.nonce s.free).toList.map (fun b => b.toNat), { s with free := s.free + 1 })

/-- READY bit 0 (R258, R443): the firmware serves the dictionary. -/
def ready0 (s : State) : Bool := decide (3 ≤ s.boot.step)

/-- Sends a message of the opening to an address, in one datagram with counter `seq`. -/
def sendOpening (s : State) (addr port session seq : Nat) (ks : Option Octets) (r : Reply) : State :=
  let s1 : State := { s with ctl := { s.ctl with opening := some (addr, port, r) } }
  portSend s1 addr port (datagramsOf session seq r.tag ks (replyOctets r))

/-- A reply of the opening. -/
def openReply (op status tag : Nat) (b : Body) : Reply := { op := op, status := status, tag := tag, obj := 0, aux := 0, body := b }

/-- A HELLO: a pending slot and a challenge, or SESSION_LIMIT under session 0xFF; an address under lockout is ignored (R256). -/
def takeHello (s : State) (addr port privilege dialect slot : Nat) (nc : Octets) (tag : Nat) : State :=
  if s.ctl.lockout.contains addr || !(ready0 s) then s
  else
    match freeSlot s with
    | none => sendOpening s addr port 0xFF 1 none (openReply 0xC0 stSessions tag .none)
    | some n =>
      let q := drawNonce s
      let x : Session := { Session.free with authWait := true, addr := addr, port := port, wantPriv := privilege, wantDial := dialect, slot := slot, nc := nc, ne := q.1, seqOut := 1, seqHigh := 1, seqSeen := [1] }
      sendOpening (setSess q.2 n x) addr port n 1 none (openReply 0xC0 stOk tag (.challenge n q.1))

/-- HELLO, with TAG 0. -/
def execHello (addr port privilege dialect slot : Nat) (nc : Octets) (s : State) : Host.Outcome State Fault Refusal :=
  .next (takeHello s addr port privilege dialect slot nc 0)

/-- The proof that AUTH must carry. -/
def authProof (x : Session) (k : Octets) (n : Nat) : Octets :=
  hmac k (ascii "ODP1" ++ x.nc ++ x.ne ++ [n, x.wantPriv, x.wantDial, x.slot])

/-- A failed AUTH of an address: three within 10 s start a lockout of 10 s (R256). -/
def authFail (s : State) (addr : Nat) : State :=
  let recent := (s.ctl.fails.filter (fun e => e.1 == addr && decide (s.now < e.2 + 12500000000))) ++ [(addr, s.now)]
  let others := s.ctl.fails.filter (fun e => e.1 != addr)
  let s1 : State := { s with ctl := { s.ctl with
    fails := if 3 ≤ recent.length then others else others ++ recent,
    lockout := if 3 ≤ recent.length then addOnce s.ctl.lockout addr else s.ctl.lockout } }
  raise s1 0x1004 (ob 1 0x200 0) addr

/-- AUTH: the session opens, or the slot is freed (R255, R256). -/
def execAuth (n : Sess) (addr port tag : Nat) (proof : Octets) (s : State) : Host.Outcome State Fault Refusal :=
  let x := sess s n
  if n < 32 ∧ x.authWait ∧ x.addr = addr ∧ x.port = port then
    let k := keySlot s x.slot
    let ks := hmac k.key (ascii "ODPS" ++ x.nc ++ x.ne)
    if k.programmed && !k.revoked && decide (x.wantPriv ≤ k.priv) && proof == authProof x k.key n then
      let r := openReply 0xC1 stOk tag .none
      let y : Session := { Session.free with addr := addr, port := port, slot := x.slot, seqHigh := x.seqHigh, seqSeen := x.seqSeen, ks := ks, seqOut := x.seqOut + 1, kept := [r] }
      .next (sendOpening (openSession s n 1 x.wantPriv x.wantDial y) addr port n (x.seqOut + 1) (some ks) r)
    else .next (sendOpening (authFail (setSess s n Session.free) addr) addr port n (x.seqOut + 1) (some ks) (openReply 0xC1 stDenied tag .none))
  else .next s

/-- AUTH has not arrived within 1 s. -/
def execAuthPendingTimeout (n : Sess) (s : State) : Host.Outcome State Fault Refusal :=
  .next (if n < 32 ∧ (sess s n).authWait then setSess s n Session.free else s)

/-- The lockout of an address ends. -/
def execAuthLockoutEnd (addr : Nat) (s : State) : Host.Outcome State Fault Refusal :=
  .next { s with ctl := { s.ctl with lockout := dropAll s.ctl.lockout addr } }

/-- 10 s without an accepted datagram close an ODP session (R253). -/
def execOdpSessionIdleTimeout (n : Sess) (s : State) : Host.Outcome State Fault Refusal :=
  .next (if sessOpen s n ∧ numF s (sob n 1) = 1 then closeSession s n 1 else s)

/-- A partial message is discarded 1 s after its first segment (R254). -/
def execOdpReassemblyTimeout (n : Sess) (tag : Nat) (s : State) : Host.Outcome State Fault Refusal :=
  let x := sess s n
  .next (if sessOpen s n then setSess s n { x with reasm := x.reasm.filter (fun r => r.tag != tag) } else s)

/-! ### Notifications leave the queue (R242, R250) -/

/-- The notification that a session sends next. The room that it leaves goes to the report of lost ones, if any were lost since the last
report (R242). -/
def nextNotif (s : State) (n : Sess) (x : Session) : Option (Notif × Session) :=
  match x.queue with
  | [] => none
  | y :: r =>
    if x.lostNow = 0 then some (y, { x with queue := r })
    else some (y, { x with queue := r ++ [.event 0x1002 (sob n 0) none (stampNow s) x.lostNow], lostNow := 0 })

/-- A notification as octets of ODP. -/
def notifyOctets (s : State) (n : Sess) (no : Nat) (y : Notif) : Octets :=
  let q := notifFor s n true y
  headerOctets true 0x60 0 no q.1 q.2.length 0 ++ q.2

/-- A session sends its oldest notification: a NOTIFY entry while its completion ring has a free entry, or a datagram. A notification
of more than 44 bytes is not sent over PCIe (R263) but takes its number (log entry 218). -/
def execNotifySend (n : Sess) (s : State) : Host.Outcome State Fault Refusal :=
  if sessOpen s n then
    match nextNotif s n (sess s n) with
    | none => .next s
    | some (y, x) =>
      let done := fun (t : State) => setN (setSess t n { x with notifNo := (x.notifNo + 1) % 65536, sent := some y }) (sob n 7) x.queue.length
      (match pairOf s n with
       | some i =>
         let p := cmdPair s i
         if cqFree p ≤ p.fetched.length then .next s
         else
           let b := notifFor s n false y
           let s1 := done s
           if 44 < b.2.length then .next s1
           else .next (flushPair (postEntry s1 i (headerOctets false 0x60 0 x.notifNo b.1 b.2.length 0) b.2 0) i)
       | none => .next (sendOdp (done s) n x.notifNo (notifyOctets s n x.notifNo y)))
  else .next s

end Sys2Proof.Machine
end

