-- ==== Sys2Proof/Machine/Schedule.lean ====
section
/-!
DEFINITION. Machine/Schedule.lean: the instants of samples and where the values of a commit land (R210, R212, R214, R215).
-/
namespace Sys2Proof.Machine

/-- Commit control, E:0000. -/
def commitObj : Obj := ob 14 0 0

/-- STATE of commit control (R209). -/
def commitState (s : State) : Nat := numF s commitObj

/-- The domains that are ON. -/
def onDomains (s : State) : List Nat := (List.range 4).filter (domOn s)

/-! ### Instants, in units of 1/28,224,000 core cycle, which every sample period of R57 divides -/

/-- A sample period of a domain at its nominal rate. -/
def samplePeriod (s : State) (d : Nat) : Int := ((1250000000 * (28224000 / domHz s d) : Nat) : Int)

/-- The instant `n` samples after sample 0 of the period of a domain now running. -/
def instantOf (s : State) (d : Nat) (n : Int) : Int := ((dom s d).cycle * 28224000 : Nat) + n * samplePeriod s d

/-- The instant at which a time base reads a TIME64. -/
def instantOfTime (s : State) (k v : Nat) : Int :=
  let t := tb s k
  let f := 2 ^ 32 * 4 * (1000000000000 + t.freq)
  (t.cycle * 28224000 : Nat) + ((ofTime64 v * 2 ^ 32 - t.timeNs) * 28224000 * 5000000000000 + f - 1) / f

/-- The first sample of a domain at or after an instant: 8 times the frame plus the sample. -/
def sampleAt (s : State) (d : Nat) (i : Int) : Nat :=
  let p := samplePeriod s d
  let n := ((i - instantOf s d 0 + p - 1) / p).toNat
  8 * (frameOf s d + n / frameLen s) + n % frameLen s

/-- The landing tick F* of a landing sample (R210). -/
def landTick (l : Nat) : Nat := if l % 8 = 0 then l / 8 else l / 8 + 1

/-- The landing tick of a domain in the commit at hand. -/
def fstar (p : Pending) (d : Nat) : Nat := landTick (tget p.land 0 d)

/-- The commit instant of a request whose earliest instant is `e` (R210). -/
def commitInstant (s : State) (r : CommitReq) (e : Int) : Int :=
  match r.when with
  | 1 => instantOfTime s r.base r.instant
  | 2 => instantOf s r.base (((r.instant / 8 : Nat) - (frameOf s r.base : Int)) * frameLen s + (r.instant % 8 : Nat))
  | _ => e

/-! ### Landings (R212) -/

/-- The domain in which a member of a commit lands: CD0 for a domain object. -/
def commitDom (s : State) (o : Obj) : Nat := if areaOf o = 2 ∧ instOf o < 4 then 0 else landDomain s o

/-- Ticks after F* at which a member of a placement lands: 2 for an OUTPUT placement of the new version, 1 for the others (R215; log entry
170 for a change of PHASE between the halves). -/
def placeLag (s : State) (set : List (Obj × Val)) (p : Obj) : Nat :=
  let code := match set.find? (fun e => e.1 == p + 3) with | some e => valNat e.2 | none => numF s (p + 3)
  if !(isSlotPlace p) && code == 0 then 2 else 1

/-- Whether a member is STAGED. -/
def isStaged (o : Obj) : Bool :=
  match rowOf o with
  | some r => (match r.app with | .staged => true | _ => false)
  | none => false

/-- Where a member of a change set lands: F*:0 for a STAGED member, its own sample for a RAMPED or staged LIVE member (R212). The
double-buffered tables and the budget table reach the back half at tick F* + 2, and a placement lands at the tick at which its phase first
uses the new tables (R215). -/
def landingOf (s : State) (set : List (Obj × Val)) (land : Tab Nat) (e : Obj × Val) : Landing :=
  let d := commitDom s e.1
  let l := tget land 0 d
  let at_ := fun (f i : Nat) => ({ dom := d, frame := f, sample := i, obj := e.1, val := e.2, commit := true } : Landing)
  if isTableMember e.1 || (areaOf e.1 == 11 && isStaged e.1) then at_ (landTick l + 2) 0
  else if isPlacement e.1 then at_ (landTick l + placeLag s set (baseOf e.1)) 0
  else if isStaged e.1 then at_ (landTick l) 0
  else at_ (l / 8) (l % 8)

/-- Puts the landings of a commit in place of those it had. -/
def scheduleAt (s : State) (p : Pending) (land : Tab Nat) : State :=
  let keep := s.dict.landing.filter (fun y => !y.commit)
  let s1 := { s with dict := { s.dict with landing := keep ++ (p.set ++ p.marks).map (landingOf s p.set land) },
                     commit := some { p with land := land, open_ := onDomains s } }
  (List.range 4).foldl (fun t d => setN t (commitObj + 8 + d) (tget land 0 d)) s1

/-- An accepted step of a time base moves the instant of a TIME commit that is scheduled on it. An instant that now lies behind becomes
tick 2 of every ON domain, and the commit counts as late (R214). -/
def stepCommit (s : State) (k : Nat) : State :=
  match s.commit with
  | some p =>
    if commitState s = 2 ∧ p.req.when = 1 ∧ p.req.base = k then
      let i := instantOfTime s k p.req.instant
      if i < (s.now * 28224000 : Nat) then
        let land := (onDomains s).foldl (fun t d => tput t 0 d (8 * (frameOf s d + 2))) []
        raise (bump (scheduleAt s p land) (commitObj + 0x015)) 0xE001 commitObj p.number
      else scheduleAt s p ((onDomains s).foldl (fun t d => tput t 0 d (sampleAt s d i)) [])
    else s
  | none => s

end Sys2Proof.Machine
end

