-- ==== Sys2Proof/Machine/Ptp.lean ====
section
/-!
DEFINITION. Machine/Ptp.lean: network time bases (R294 to R308). Times are in units of 2^-32 ns.
-/
namespace Sys2Proof.Machine

/-- The object of network port `n`. -/
def netObj (n : Nat) : Obj := ob 4 (0x200 + n) 0

/-- The hidden part of a network port. -/
def netPort (s : State) (port : Nat) : NetPort := tget s.net NetPort.idle port
/-- Changes the hidden part of a network port. -/
def setNet (s : State) (port : Nat) (x : NetPort) : State := { s with net := tput s.net NetPort.idle port x }

/-- The control frames that a command makes a port send, in order; a network port without link sends none, and TX_FRAMES counts those of one
with link. -/
def sendFrames (s : State) (port : Nat) (fs : List NetFrame) : State :=
  if port < 4 ∧ !(isOn s (netObj port)) then s
  else
    let tag := if port < 4 then (numF s (netObj port + 4), numF s (netObj port + 5)) else (0, 0)
    let s1 := setNet s port { netPort s port with sent := (netPort s port).sent ++ fs, tag := tag }
    if port < 4 then bumpBy s1 (netObj port + 0x012) fs.length else s1

/-- A command that may make ports send begins: the control frames of the one before are gone. -/
def quietPorts (s : State) : State := (List.range 5).foldl (fun t p => setNet t p { netPort t p with sent := [] }) s

/-- Counts a frame received on a network port. -/
def heard (s : State) (port : Nat) : State := if port < 4 then bump s (netObj port + 0x010) else s

/-- A frame that matches nothing. -/
def unmatched (s : State) (port : Nat) : State := if port < 4 then bump s (netObj port + 0x011) else s

/-- The member 000 of a time base. -/
def tbObj (k : Nat) : Obj := ob 2 (0x10 + k) 0

/-- Nanoseconds in units of 2^-32 ns. -/
def fine (ns : Int) : Int := ns * 2 ^ 32

/-- A time in nanoseconds, rounded, saturated to I32, as a code. -/
def satNs (x : Int) : Nat := wrapTo 32 (satTo 32 (shiftNearest x 32))

/-- The mean of a list. -/
def meanOf (l : List Int) : Int := if l.isEmpty then 0 else divNearest (l.foldl (fun a e => a + e) 0) l.length

/-- TIME is set back by a step; the local instants that are held move with it (R298, R302, R303). -/
def shiftTime (s : State) (k : Nat) (size : Int) : State :=
  let t := tb s k
  setTb s k { t with timeNs := t.timeNs - size, t2 := t.t2 - size, asked := t.asked.map (fun e => (e.1, e.2 - size)),
                     syncs := t.syncs.map (fun e => (e.1, e.2 - size)) }

/-- Takes the present TIME as the base of further counting. -/
def rebase (s : State) (k : Nat) : State := setTb s k { tb s k with timeNs := tbFine s k s.now, cycle := s.now }

/-- Sets SERVO. -/
def setServo (s : State) (k v : Nat) : State := setN s (tbObj k + 0x10) v
/-- SERVO. -/
def servo (s : State) (k : Nat) : Nat := numF s (tbObj k + 0x10)

/-- The time base stops counting as locked: its domains lose it, and TIME_BASE_UNLOCKED is raised if it was locked (R300, R308). -/
def unlocked (s : State) (k why : Nat) (was : Bool) : State :=
  let s1 := if was then raise s 0x2008 (tbObj k) why else s
  loseRef s1 (3 + k) 0

/-- SERVO enters LOCKED; the first lock after the enable takes the time base to ON (R300). -/
def enterLocked (s : State) (k : Nat) : State :=
  let s1 := raise (setServo s k 2) 0x2007 (tbObj k) (numF s (tbObj k + 0x12))
  let s2 := setTb s1 k { tb s1 k with everLock := true, wasLock := true, inLock := 0, outLock := 0, stepSeen := [], withdraw := 0 }
  retryStarts (if numF s2 (tbObj k + 1) = 1 then moveUnit s2 (tbObj k) 2 else s2)

/-- SERVO enters LOCKED as a held step is withdrawn or accepted; a time base that did not count as locked is raised as locked (R303, log
entry 64). -/
def backInLock (s : State) (k : Nat) (was : Bool) : State :=
  let s1 := setServo (setTb s k { tb s k with wasLock := true, inLock := 0, outLock := 0, stepSeen := [], withdraw := 0 }) k 2
  if was then s1 else retryStarts (raise s1 0x2007 (tbObj k) (numF s1 (tbObj k + 0x12)))

/-- The integral after an offset, clamped to plus and minus 200,000 ppb (R297). -/
def servoI (ki : Int) (i o : Int) : Int :=
  let v := i + shiftNearest (ki * o) 23
  let top := fine 200000
  if top < v then top else if v < -top then -top else v

/-- The frequency in 0.001 ppb, clamped to plus and minus 200,000 ppb (R297). -/
def servoF (kp : Int) (i o : Int) : Int :=
  let v := shiftNearest (-(shiftNearest (kp * o) 23 + i) * 1000) 32
  if 200000000 < v then 200000000 else if v < -200000000 then -200000000 else v

/-- An offset moves the servo (R297). -/
def steerServo (s : State) (k : Nat) (o : Int) : State :=
  let b := tbObj k
  let s1 := rebase s k
  let t := tb s1 k
  let i := servoI (sample (numF s (b + 0x00A))) t.integ o
  let f := servoF (sample (numF s (b + 0x009))) i o
  setN (setTb s1 k { t with integ := i, freq := f }) (b + 0x14) (wrapTo 32 f)

/-- LOCK_COUNT consecutive offsets outside the window take a locked time base to ACQUIRING (R300). -/
def leaveLock (s : State) (k : Nat) : State :=
  let t := tb s k
  if servo s k = 2 ∧ numF s (tbObj k + 0x00C) ≤ t.outLock then
    unlocked (setTb (setServo s k 1) k { t with outLock := 0, inLock := 0, wasLock := false }) k 2 true
  else s

/-- An offset fed to the servo, with the lock count (R297, R300). -/
def feedServo (s : State) (k : Nat) (o : Int) : State :=
  let b := tbObj k
  let near := decide (mag o ≤ fine (numF s (b + 0x00B)))
  let s1 := steerServo s k o
  let t := tb s1 k
  let inL := if near then t.inLock + 1 else 0
  let outL := if near then 0 else t.outLock + 1
  let s2 := setTb s1 k { t with inLock := inL, outLock := outL }
  let n := numF s (b + 0x00C)
  if servo s2 k = 2 then leaveLock s2 k
  else if n ≤ inL then enterLocked s2 k
  else setServo s2 k 1

/-- Refuses a confirmed step (R303). -/
def refuseStep (s : State) (k : Nat) (size : Int) : State :=
  let b := tbObj k
  let lock := tbLocked s k
  let s1 := bump (setN (setServo s k 4) (b + 0x17) (satNs size)) (b + 0x18)
  let t := tb s1 k
  raise (setTb s1 k { t with wasLock := lock, withdraw := 0, rejected := size }) 0x2002 b (satNs size)

/-- An offset while a step is pending or held: measurement, withdrawal, new refusal (R303). One beyond the threshold counts as an outlier
(R299), and STEP_PENDING entered from HOLDING counts as locked (R300; log entry 191). -/
def heldOffset (s : State) (k : Nat) (o : Int) : State :=
  let b := tbObj k
  let t := tb s k
  let n := numF s (b + 6)
  let seen := (o :: t.stepSeen).take n
  let mean := meanOf seen
  let wd := if mag o ≤ fine (numF s (b + 5)) then t.withdraw + 1 else 0
  let s0 := if wd = 0 then bump s (b + 0x19) else s
  let s1 := setN (setTb s0 k { t with stepSeen := seen, withdraw := wd }) (b + 0x17) (satNs mean)
  let was := tbLocked s1 k
  if n ≤ wd then backInLock ((seen.reverse).foldl (fun u x => steerServo u k x) s1) k was
  else if servo s1 k = 5 ∧ n ≤ seen.length ∧ fine (numF s (b + 5)) < mag (mean - t.rejected) then
    (let s2 := bump (setServo s1 k 4) (b + 0x18)
     let s3 := raise (setTb s2 k { tb s2 k with rejected := mean, withdraw := 0, wasLock := true }) 0x2002 b (satNs mean)
     if was then s3 else retryStarts (raise s3 0x2007 b (numF s3 (b + 0x12))))
  else s1

/-- An offset of the master (R299, R302): the first sets TIME; one within the threshold feeds the servo; STEP_CONFIRM beyond it
with one sign are a step. One beyond the threshold is no servo offset, and lies outside the lock window where that is no wider. -/
def takeOffset (s : State) (k : Nat) (o : Int) : State :=
  let b := tbObj k
  let s0 := setN s (b + 0x12) (satNs o)
  let v := servo s0 k
  let t := tb s0 k
  if v = 4 ∨ v = 5 then heldOffset s0 k o
  else if !t.timed then
    (let s1 := shiftTime (rebase s0 k) k o
     setServo (setTb s1 k { tb s1 k with timed := true, inLock := 0, outLock := 0, stepSeen := [] }) k 1)
  else if mag o ≤ fine (numF s0 (b + 5)) then feedServo (setTb s0 k { t with stepSeen := [] }) k o
  else
    let same := match t.stepSeen with
      | x :: _ => decide (0 < x) == decide (0 < o)
      | [] => true
    let seen := if same then (o :: t.stepSeen).take (numF s0 (b + 6)) else [o]
    let s1 := bump (setTb s0 k { t with stepSeen := seen, outLock := if fine (numF s0 (b + 0x00B)) < mag o then t.outLock + 1 else 0 }) (b + 0x19)
    if numF s0 (b + 6) ≤ seen.length then
      (let size := meanOf seen
       if t.everLock then refuseStep s1 k size
       else
         (let s2 := shiftTime (rebase s1 k) k size
          setServo (setTb s2 k { tb s2 k with stepSeen := [], inLock := 0, outLock := 0 }) k 1))
    else leaveLock s1 k

/-! ### Messages (R294 to R298) -/

/-- Whether a time base runs and listens on a port: one of its pair that has link (R295). -/
def listens (s : State) (k port domain : Nat) : Bool :=
  let st := numF s (tbObj k + 1)
  (st == 1 || st == 2) && numF s (tbObj k + 2) == port / 2 && numF s (tbObj k + 3) == domain && numF s (netObj port) == 1

/-- clockIdentity: the EUI-64 formed from the MAC address of the lower port of the pair, FF FE in its middle (R294, log entry 181). -/
def clockIdentity (s : State) (k : Nat) : Nat :=
  let mac := macOf (2 * numF s (tbObj k + 2) + 1)
  mac / 2 ^ 24 * 2 ^ 40 + 0xFFFE * 2 ^ 24 + mac % 2 ^ 24

/-- portNumber: 1 on the lower port of the pair, 2 on the upper one (R294). -/
def ptpPortNo (port : Nat) : Nat := port % 2 + 1

/-- Whether a response answers a request of the time base that is outstanding on the port (R294). -/
def answersMe (s : State) (k port : Nat) (m : PtpMsg) : Bool :=
  (tb s k).reqSeq == m.seq && (tb s k).asked.any (fun e => e.1 == port) && m.reqClock == clockIdentity s k && m.reqPort == ptpPortNo port

/-- The time at which the outstanding request left the port. -/
def sentAt (s : State) (k port : Nat) : Int := (((tb s k).asked.find? (fun e => e.1 == port)).map (·.2)).getD 0

/-- ASYMMETRY, added to the correction of a Sync (R296). -/
def asym (s : State) (k : Nat) : Int := fine (signedOf 32 (numF s (tbObj k + 0x00E)))

/-- Whether a message comes from the master that the time base follows on a port. -/
def fromMaster (s : State) (k port : Nat) (m : PtpMsg) : Bool :=
  listens s k port m.domain && (tb s k).port == port &&
  (match (tb s k).best with
   | some a => a.sender == m.sender && a.portNo == m.portNo
   | none => false)

/-- The path delay d: the mean of the last DELAY_FILTER measurements, of which up to 128 are kept (R298). -/
def pathDelay (s : State) (k : Nat) : Int := meanOf ((tb s k).delays.take (numF s (tbObj k + 0x00D)))

/-- A PTP message received on a port: one that no time base listens for there matches no service (R294, R349). -/
def ptpHeard (s : State) (port domain : Nat) : State :=
  let s1 := heard s port
  if (List.range 4).any (fun k => listens s1 k port domain) then s1 else unmatched s1 port

/-- A complete exchange: local receive time, master send time with corrections (R297). -/
def syncDone (s : State) (k : Nat) (t2 t1c : Int) : State :=
  let s1 := setTb s k { tb s k with t1 := t1c, t2 := t2 }
  takeOffset s1 k (t2 - t1c - pathDelay s1 k)

/-- The sequence numbers of a master's Syncs with a new one: those that lie less than half the range behind it (R294). -/
def keepSeq (l : List Nat) (n : Nat) : List Nat := n :: l.filter (fun m => m != n && decide ((n + 65536 - m) % 65536 < 32768))

/-- A Sync message of the master, of an interval that is accepted; one that arrives a second time is discarded, and a two-step Sync waits for its
Follow_Up (R294, R297). -/
def execPtpSyncReceived (port : Nat) (m : PtpMsg) (cycle : Cycle) (s : State) : Host.Outcome State Fault Refusal :=
  let s0 := ptpHeard (atCycle s cycle) port m.domain
  .next ((List.range 4).foldl (fun t k =>
    if fromMaster t k port m then
      (let x := tb t k
       if x.heardSeq.contains m.seq || decide (m.interval < -4) || decide (1 < m.interval) then t
       else
         let t2 := tbFine t k cycle
         let y := { x with heardSeq := keepSeq x.heardSeq m.seq }
         if m.twoStep then setTb t k { y with syncs := (m, t2) :: y.syncs }
         else syncDone (setTb t k y) k t2 (fine m.stamp + fine m.correction + asym t k))
    else t) s0)

/-- The Follow_Up that belongs to a Sync waiting (R294). -/
def execPtpFollowUpReceived (port : Nat) (m : PtpMsg) (s : State) : Host.Outcome State Fault Refusal :=
  .next ((List.range 4).foldl (fun t k =>
    if fromMaster t k port m then
      (match (tb t k).syncs.find? (fun e => e.1.seq == m.seq) with
       | some (y, t2) =>
         syncDone (setTb t k { tb t k with syncs := (tb t k).syncs.filter (fun e => e.1.seq != m.seq) }) k t2
           (fine m.stamp + fine (y.correction + m.correction) + asym t k)
       | none => t)
    else t) (ptpHeard s port m.domain))

/-- The ports on which a time base sends its requests: Delay_Req on that of its master, Pdelay_Req on each port of its pair that has link (R294,
R295). -/
def askPorts (s : State) (k : Nat) : List Nat :=
  if numF s (tbObj k + 4) = 1 then [0, 1].map (fun j => 2 * numF s (tbObj k + 2) + j) |>.filter (fun p => numF s (netObj p) == 1)
  else if (tb s k).best.isSome then [(tb s k).port] else []

/-- A time base sends its Delay_Req or Pdelay_Req and keeps the send time (R294, R296). -/
def execDelayReqSend (k : Nat) (cycle : Cycle) (s : State) : Host.Outcome State Fault Refusal :=
  let s0 := quietPorts (atCycle s cycle)
  let x := tb s0 k
  if k < 4 ∧ (numF s0 (tbObj k + 1) = 1 ∨ numF s0 (tbObj k + 1) = 2) ∧ !(askPorts s0 k).isEmpty then
    let q := (x.reqSeq + 1) % 65536
    let m := fun (p : Nat) => NetFrame.delayReq (numF s0 (tbObj k + 4) == 1) (numF s0 (tbObj k + 3)) (clockIdentity s0 k) (ptpPortNo p) q
    let s1 := setTb s0 k { x with asked := (askPorts s0 k).map (fun p => (p, tbFine s0 k cycle)), reqSeq := q }
    .next ((askPorts s0 k).foldl (fun t p => sendFrames t p [m p]) s1)
  else .next s0

/-- A path delay measurement is accepted while fewer than DELAY_FILTER have been since the start or the change of master, and within STEP_THRESHOLD
of the present mean (R298). -/
def takeDelay (s : State) (k : Nat) (x : Int) : State :=
  let b := tbObj k
  let t := tb s k
  let n := numF s (b + 0x00D)
  let d := pathDelay s k
  if n ≤ t.delayN ∧ fine (numF s (b + 5)) < mag (x - d) then bump s (b + 0x19)
  else
    let s1 := setTb s k { t with delays := (x :: t.delays).take 128, delayN := t.delayN + 1 }
    setN s1 (b + 0x13) (wrapTo 32 (shiftNearest (pathDelay s1 k) 32))

/-- The port whose path a Pdelay response measures: that of the master; without one, the lowest of the pair that has link (log entry 200). -/
def delayPort (s : State) (k : Nat) : Nat := if (tb s k).best.isSome then (tb s k).port else (askPorts s k).headD 15

/-- A Delay_Resp of the master, or a Pdelay response of the peer, to the request outstanding on the port; a Pdelay response is timestamped at its
arrival (R294, R296, R298, log entry 27 for Pdelay). -/
def execPtpDelayRespReceived (port : Nat) (m : PtpMsg) (s : State) : Host.Outcome State Fault Refusal :=
  .next ((List.range 4).foldl (fun t k =>
    let x := tb t k
    let p2p := numF t (tbObj k + 4) == 1
    let source := if p2p then listens t k port m.domain else fromMaster t k port m
    if source && answersMe t k port m then
      (let d := if p2p then (tbFine t k m.arrival - sentAt t k port - fine m.correction) / 2
                else ((x.t2 - x.t1) + (fine m.stamp - sentAt t k port - fine m.correction + asym t k)) / 2
       let u := setTb t k { x with asked := x.asked.filter (fun e => e.1 != port) }
       if p2p && port != delayPort t k then u else takeDelay u k d)
    else t) (ptpHeard (atCycle s m.arrival) port m.domain))

/-! ### Best master (R295, R301) -/

/-- The comparison key of an Announce and the port it came on: priority1, class, accuracy, variance, priority2, grandmaster, steps, sender, and
the port, so that a master heard on both ports is taken from the lower (R295). -/
def rankOf (e : Nat × Announce) : List Nat :=
  let a := e.2
  [a.prio1, a.cclass, a.accuracy, a.variance, a.prio2, a.gm, a.steps, a.sender, e.1, a.portNo]

/-- Lexicographic order. -/
def rankLess : List Nat → List Nat → Bool
  | x :: r, y :: t => if x < y then true else if y < x then false else rankLess r t
  | _, _ => false

/-- Four announce intervals, in core cycles. -/
def announceWindow (a : Announce) : Nat := 4 * 1250000000 * 2 ^ a.interval

/-- Qualified masters: at least two Announce messages heard, the newest within four announce intervals, fewer than 255 steps
(R295, log entry 187). -/
def qualified (now : Cycle) (l : List (Nat × Announce × Nat × Cycle)) : List (Nat × Announce) :=
  (l.filter (fun e => decide (2 ≤ e.2.2.1) && decide (e.2.1.steps < 255) && decide (now ≤ e.2.2.2 + announceWindow e.2.1))).map
    (fun e => (e.1, e.2.1))

/-- The best of the qualified masters. -/
def bestOf (l : List (Nat × Announce)) : Option (Nat × Announce) :=
  l.foldl (fun b e =>
    match b with
    | none => some e
    | some c => if rankLess (rankOf e) (rankOf c) then some e else b) none

/-- The masters that a time base can follow: qualified ones, on ports with link or on the port in use (R295, R301). -/
def candidates (s : State) (k : Nat) (l : List (Nat × Announce × Nat × Cycle)) : List (Nat × Announce) :=
  (qualified s.now l).filter (fun e => numF s (netObj e.1) == 1 || (tb s k).port == e.1)

/-- Follows the best master now known; another grandmaster than the last one followed is counted and raised (R295, R305, R308). The delays
measured stay until new ones replace them (R298). -/
def followBest (s : State) (k : Nat) : State :=
  let b := tbObj k
  let t := tb s k
  match bestOf (candidates s k t.masters) with
  | none => s
  | some (p, a) =>
    let changed := match t.gmLast with | some g => g != a.gm | none => false
    let other := match t.best with | some o => o.sender != a.sender || o.portNo != a.portNo | none => true
    let moved := other || t.port != p
    let s1 := setTb s k { t with best := some a, port := p, gmLast := some a.gm, delayN := if other then 0 else t.delayN,
                                 syncs := if moved then [] else t.syncs, heardSeq := if moved then [] else t.heardSeq,
                                 asked := if moved && numF s (b + 4) == 0 then [] else t.asked }
    let s2 := setN (setN s1 (b + 0x15) a.gm) (b + 0x16) p
    if changed then raise (bump s2 (b + 0x1A)) 0x2009 b (a.gm % 2 ^ 32) else s2

/-- An Announce message: foreign-master qualification within four announce intervals, then the best master clock algorithm. -/
def execPtpAnnounceReceived (port : Nat) (a : Announce) (cycle : Cycle) (s : State) : Host.Outcome State Fault Refusal :=
  let s0 := ptpHeard (atCycle s cycle) port a.domain
  .next ((List.range 4).foldl (fun t k =>
    if listens t k port a.domain && decide (a.interval ≤ 4) then
      (let x := tb t k
       let mine := fun (e : Nat × Announce × Nat × Cycle) => e.1 == port && e.2.1.sender == a.sender && e.2.1.portNo == a.portNo
       let n := match x.masters.find? mine with
         | some e => if cycle ≤ e.2.2.2 + announceWindow a then e.2.2.1 + 1 else 1
         | none => 1
       followBest (setTb t k { x with masters := x.masters.filter (fun e => !(mine e)) ++ [(port, a, n, cycle)] }) k)
    else t) s0)

/-- The master is lost on the port in use: another qualified master, or HOLDOVER, which counts where it is entered; a pending or held step stays for
its action (R301, R305, R306, log entry 28). -/
def loseMaster (s : State) (k : Nat) : State :=
  let b := tbObj k
  let t := tb s k
  match t.best with
  | none => s
  | some a =>
    let rest := t.masters.filter (fun e => !(e.1 == t.port && e.2.1.sender == a.sender && e.2.1.portNo == a.portNo))
    let s1 := setTb s k { t with masters := rest }
    if (bestOf (candidates s1 k rest)).isSome then followBest s1 k
    else
      let s2 := setN (setTb s1 k { tb s1 k with best := none, port := 15, syncs := [], heardSeq := [], asked := [] }) (b + 0x16) 15
      let v := servo s2 k
      if 3 ≤ v then s2
      else
        let was := tbLocked s2 k
        let s3 := bump (setServo s2 k 3) (b + 0x1B)
        unlocked (setTb s3 k { tb s3 k with wasLock := false, stepSeen := [], inLock := 0, outLock := 0 }) k 0 was

def execPtpMasterLost (k : Nat) (s : State) : Host.Outcome State Fault Refusal :=
  if k < 4 then .next (loseMaster s k) else .next s

/-- The newest offsets that lie beyond the threshold with one sign. -/
def stepRun (top : Int) : List Int → List Int
  | [] => []
  | x :: r => x :: r.takeWhile (fun y => decide (top < mag y) && (decide (0 < y) == decide (0 < x)))

/-- HOLD_LIMIT has run out: the step is discarded and SERVO enters HOLDOVER (R303). The offsets beyond the threshold that were measured meanwhile go
on counting, so that a step confirmed on the same Sync then gives STEP_PENDING from HOLDOVER (R305; log entry 201). -/
def execHoldLimitExpired (k : Nat) (s : State) : Host.Outcome State Fault Refusal :=
  if k < 4 ∧ (servo s k = 4 ∨ servo s k = 5) ∧ numF s (tbObj k + 8) ≠ 0 then
    let top := fine (numF s (tbObj k + 5))
    let run := match (tb s k).stepSeen with | x :: r => if top < mag x then stepRun top (x :: r) else [] | [] => []
    let s1 := setTb (setServo s k 3) k { tb s k with wasLock := false, stepSeen := run, withdraw := 0, inLock := 0, outLock := 0 }
    .next (loseRef (raise s1 0x2008 (tbObj k) 1) (3 + k) 0)
  else .next s

/-! ### STEP_ACTION (R303) -/

/-- The status of a STEP_ACTION in the present state. -/
def stepStatus (s : State) (k action : Nat) : Nat :=
  let v := servo s k
  if action = 1 then (if v = 4 ∨ v = 5 then stOk else stBusy) else if v = 4 then stOk else stBusy

/-- An accepted step is a new phase difference of a domain: TIME goes back by the step, and the domain's edges are early by it, modulo one sample
(R304). Under STEP only the newest applies (R287). -/
def meetStep (s : State) (d : Nat) (size : Int) : State :=
  let x := dom s d
  let p := nearestPhase s d (finePhase (-size))
  setDom s d { x with phaseErr := if numF s (ob 2 d 8) = 1 then p else x.phaseErr + p }

/-- ACCEPT: the mean offset leaves TIME, SERVO enters LOCKED with its frequency, and each domain on the time base meets a new phase
difference; a TIME commit scheduled on it moves (R214, R303, R304). -/
def acceptStep (s : State) (k : Nat) : State :=
  let was := tbLocked s k
  let t := tb s k
  let size := if t.stepSeen.isEmpty then t.rejected else meanOf t.stepSeen
  let s2 := raise (shiftTime (rebase s k) k size) 0x200A (tbObj k) (satNs size)
  stepCommit ((List.range 4).foldl (fun u d => if numF u (ob 2 d 0x10) = 3 + k then meetStep u d size else u) (backInLock s2 k was)) k

/-- REJECT: SERVO enters HOLDING (R303). -/
def rejectStep (s : State) (k : Nat) : State :=
  let s1 := setServo s k 5
  let t := tb s1 k
  raise (setTb s1 k { t with rejected := if t.stepSeen.isEmpty then t.rejected else meanOf t.stepSeen }) 0x200B (tbObj k)
    (numF s1 (tbObj k + 0x17))

/-- An enabled time base starts: FREE, TIME at nominal frequency, nothing measured (R300, R302). -/
def startTb (s : State) (k : Nat) : State :=
  let s1 := rebase s k
  let t := tb s1 k
  let s2 := setServo (setTb s1 k { TimeBase.free with timeNs := t.timeNs, cycle := t.cycle, reqSeq := t.reqSeq }) k 0
  [0x12, 0x13, 0x14, 0x15, 0x17].foldl (fun u m => setN u (tbObj k + m) 0) s2

/-- A disable stops the servo at once: a pending step is discarded and the time base is locked no longer (R300). -/
def stopTb (s : State) (k : Nat) : State :=
  let was := tbLocked s k
  let s1 := setN (setN (setServo s k 0) (tbObj k + 0x16) 15) (tbObj k + 0x15) 0
  unlocked (setTb s1 k { tb s1 k with wasLock := false, stepSeen := [], everLock := false, best := none, port := 15, masters := [], syncs := [], asked := [] }) k 3 was

end Sys2Proof.Machine
end

