-- ==== Sys2Proof/Machine/Streams.lean ====
section
/-!
DEFINITION. Machine/Streams.lean: network stream contexts (R326 to R352) and the frames that the network ports answer (R251, R345,
R349).
-/
namespace Sys2Proof.Machine

/-! ### Contexts -/

/-- The object of context `c`: 0 to 255 receive, 256 to 511 transmit. -/
def ctxObj (c : Nat) : Obj := ob 4 c 0
/-- The hidden part of a context. -/
def ctxRt (s : State) (c : Nat) : Context := tget s.ctxs Context.closed c
/-- Changes the hidden part of a context. -/
def setCtx (s : State) (c : Nat) (x : Context) : State := { s with ctxs := tput s.ctxs Context.closed c x }
/-- The domain of a context. -/
def ctxDom (s : State) (c : Nat) : Nat := numF s (ctxObj c + 2)
/-- Channels of a context. -/
def chansOf (s : State) (c : Nat) : Nat := numF s (ctxObj c + 5)
/-- Bytes of a sample on the wire (R328). -/
def wireBytes (s : State) (c : Nat) : Nat := if numF s (ctxObj c + 6) = 0 then 2 else 3
/-- Samples per packet of a context (R327). -/
def perPacket (s : State) (c : Nat) : Nat := packetSamples (numF s (ctxObj c + 7)) (rateClass (domRate s (ctxDom s c)))

/-! ### Media clock (R329 to R332) -/

/-- M at the instant of the domain's last tick: the time base's time in samples, rounded, modulo 2^32. -/
def mediaClock (s : State) (c : Nat) : Nat :=
  let d := ctxDom s c
  let t := tbFine s (numF s (ctxObj c + 8)) (dom s d).cycle
  ((divNearest (t * domHz s d) (1000000000 * 2 ^ 32)) % 2 ^ 32).toNat

/-- M(I(f:0)) of a frame, counted on from the newest frame known. -/
def mediaAt (s : State) (c f : Nat) : Nat :=
  match (ctxRt s c).bases.find? (fun e => e.1 == f) with
  | some e => e.2
  | none =>
    let e := ((ctxRt s c).bases.head?).getD (frameOf s (ctxDom s c), mediaClock s c)
    (((e.2 : Int) + ((f : Int) - e.1) * frameLen s) % 2 ^ 32).toNat

/-- The link offset in force in microseconds: the largest of the group's enabled members (R336). -/
def linkUs (s : State) (c : Nat) : Nat :=
  let g := numF s (ctxObj c + 0x013)
  let own := numF s (ctxObj c + 0x012)
  if g = 0 then own
  else ((List.range 256).filter (fun k => numF s (ctxObj k + 0x013) == g && isOn s (ctxObj k))).foldl
    (fun m k => max m (numF s (ctxObj k + 0x012))) own

/-- The link offset in samples. -/
def linkSamples (s : State) (c : Nat) : Nat := usToSamples (linkUs s c) (domHz s (ctxDom s c))

/-- Signed distance on a 32-bit circle. -/
def circle (a b : Nat) : Int := signedOf 32 (((a : Int) - b) % 2 ^ 32).toNat

/-- The RTP timestamp presented at sample `i` of frame `f` (R330). -/
def stampAt (s : State) (c f i : Nat) : Nat :=
  (((mediaAt s c f : Int) + i - linkSamples s c + numF s (ctxObj c + 9)) % 2 ^ 32).toNat

/-- The samples by which a timestamp is presented after sample 0 of the present period's frame. -/
def aheadOf (s : State) (c stamp : Nat) : Int := circle stamp (stampAt s c (frameOf s (ctxDom s c)) 0)

/-- The comparison of R332 at a tick: a slip of one sample is counted; the clock taken is m. On its own locked time base, whose sample edges
are aligned, the difference is 0 unless an accepted step has moved m (R304). -/
def tickMedia (s : State) (c : Nat) : State :=
  let d := ctxDom s c
  let p := frameOf s d
  let x := ctxRt s c
  let m := mediaClock s c
  match x.bases with
  | (p0, m0) :: _ =>
    let e := (m0 + (p - p0) * frameLen s) % 2 ^ 32
    let locked := numF s (ob 2 d 0x10) == 3 + numF s (ctxObj c + 8) && numF s (ob 2 d 0x11) == 2
    let m' := if locked ∧ mag (circle m e) ≤ 1 then e else m
    let s1 := setCtx s c { x with bases := ((p, m') :: x.bases).take 3 }
    let q := circle m' e
    if q = 1 ∨ q = -1 then bump s1 (ctxObj c + 0x031) else s1
  | [] => setCtx s c { x with bases := [(p, m)] }

/-! ### Receiving (R333 to R335) -/

/-- The leg of an enabled receive context that a packet's port, destination and UDP port name. -/
def rxLeg (s : State) (port dest udp c : Nat) : Bool :=
  let o := ctxObj c
  let leg := port % 2
  numF s (o + 1) != 0 && numF s (o + 1) != 5 && numF s (o + 3) == port / 2 && bit (numF s (o + 4)) leg == 1
  && numF s (o + 0x00B + leg) == dest && numF s (o + 0x00D) == udp

/-- The checks of R333 that follow. -/
def packetValid (s : State) (c leg : Nat) (p : RtpPacket) : Bool :=
  let o := ctxObj c
  let src := numF s (o + 0x010 + leg)
  (src == 0 || src == p.source) && p.version == 2 && p.ptype == numF s (o + 0x00A)
  && p.payload.length == perPacket s c * chansOf s c * wireBytes s c

/-- The sample words of a payload, most significant octet first. -/
def payloadWords (b : Nat) (p : Octets) : List Nat := (List.range (p.length / b)).map (fun i => ofBe (slice p (i * b) b))

/-- Inserts a packet by timestamp. -/
def insertPacket (x : RxPacket) : List RxPacket → List RxPacket
  | [] => [x]
  | y :: r => if circle x.stamp y.stamp < 0 then x :: y :: r else y :: insertPacket x r

/-- The core cycles, times the rate, from the last tick to the point of R334 of the frame that presents a sample `q` ahead. -/
def pointOf (s : State) (q : Int) : Int := (q / frameLen s + 1) * frameLen s * 1250000000

/-- A valid packet with the current SSRC: merged by sequence number, late, early, or used (R334, R335). -/
def usePacket (s : State) (c leg : Nat) (p : RtpPacket) (cycle : Cycle) : State :=
  let o := ctxObj c
  let x := ctxRt s c
  let d := ctxDom s c
  let hz : Int := domHz s d
  let q := aheadOf s c p.stamp
  let last := q + perPacket s c - 1
  let since : Int := (cycle : Int) - (dom s d).cycle
  match x.packets.find? (fun y => y.seq == p.seq) with
  | some y =>
    if y.stamp ≠ p.stamp then bump s (o + 0x038)
    else setCtx s c { x with packets := x.packets.map (fun z =>
      if z.seq = p.seq then { z with legs := if bit z.legs leg = 1 then z.legs else z.legs + 2 ^ leg } else z) }
  | none =>
    let gone := setCtx s c { x with discarded := if x.discarded.contains p.seq then x.discarded else p.seq :: x.discarded }
    if pointOf s last < (since + 2500) * hz then bump gone (o + 0x032)
    else if ((linkUs s c : Int) + 1000) * 1250 * hz < last * 1250000000 - since * hz then bump gone (o + 0x033)
    else
      let m := (pointOf s q - (since + 2500) * hz) / (1250 * hz)
      let y : RxPacket := { seq := p.seq, stamp := p.stamp, arrival := cycle, legs := 2 ^ leg,
                            words := payloadWords (wireBytes s c) p.payload }
      let ms := x.margins.filter (fun e => decide (e.2 < m) && decide (cycle < e.1 + 1250000000)) ++ [(cycle, m)]
      bump (setCtx s c { x with packets := insertPacket y x.packets, margins := ms }) (o + 0x030)

/-- Keeps the arrival and the timestamp of a packet, with those of the last 10 s (R338). -/
def keepArrival (x : Context) (cycle : Cycle) (stamp : Nat) : Context :=
  { x with arrivals := (cycle, stamp) :: x.arrivals.filter (fun e => decide (cycle < e.1 + 12500000000)) }

/-- A packet that reaches a receive context. -/
def receivePacket (s : State) (c leg : Nat) (p : RtpPacket) (cycle : Cycle) : State :=
  let o := ctxObj c
  if numF s (o + 1) = 3 ∨ numF s (o + 1) = 4 then s
  else if !(packetValid s c leg p) then bump s (o + 0x038)
  else
    let x := ctxRt s c
    let other := match x.ssrc with | some q => q != p.ssrc | none => false
    if other && decide (cycle < x.ssrcAt + 125000000) then bump s (o + 0x038)
    else
      let x0 := if other then { x with packets := [], discarded := [], nextSeq := none, arrivals := [] } else x
      let x1 := keepArrival x0 cycle p.stamp
      let s1 := setN (setCtx s c { x1 with ssrc := some p.ssrc, ssrcAt := cycle, legLost := dropAll x1.legLost leg }) (o + 0x021) p.ssrc
      let s2 := if x.legLost.contains leg then raise s1 0x4004 o leg else s1
      usePacket s2 c leg p cycle

/-- A received RTP packet (R333): every context whose port, destination and UDP port it meets takes it by itself. -/
def execRtpPacketReceived (port : Nat) (p : RtpPacket) (cycle : Cycle) (s : State) : Host.Outcome State Fault Refusal :=
  let s0 := bump (atCycle s cycle) (netObj port + 0x010)
  let cs := (List.range 256).filter (rxLeg s0 port p.dest p.udpPort)
  .next (if cs.isEmpty then bump s0 (netObj port + 0x011) else cs.foldl (fun t c => receivePacket t c (port % 2) p cycle) s0)

/-- A leg has delivered no valid packet for 10 packet durations (R335). -/
def execLegLost (c leg : Nat) (s : State) : Host.Outcome State Fault Refusal :=
  let o := ctxObj c
  let x := ctxRt s c
  if c < 256 ∧ (numF s (o + 1) = 1 ∨ numF s (o + 1) = 2) ∧ numF s (o + 4) = 3 ∧ !(x.legLost.contains leg) then
    .next (raise (setCtx s c { x with legLost := leg :: x.legLost }) 0x4003 o leg)
  else .next s

/-- The slope of timestamp against arrival by least squares, in mHz, over points newest first; none without two arrivals apart (R338). -/
def fitSlope (l : List (Cycle × Nat)) : Option Nat :=
  match l with
  | [] => none
  | (c0, t0) :: _ =>
    let n : Int := l.length
    let xs := l.map (fun e => (e.1 : Int) - c0)
    let ys := l.map (fun e => circle e.2 t0)
    let sum := fun (v : List Int) => v.foldl (· + ·) 0
    let sx := sum xs
    let den := n * sum (xs.map (fun x => x * x)) - sx * sx
    if den = 0 then none
    else some (divNearest ((n * sum ((List.zip xs ys).map (fun e => e.1 * e.2)) - sx * sum ys) * 1250000000000) den).toNat

/-- The rate that the fit of R338 gives over the packets of the last 10 s; `rate` where they leave it open (log entry 194). -/
def fitRate (s : State) (c rate : Nat) : Nat :=
  (fitSlope ((ctxRt s c).arrivals.filter (fun e => decide (s.now < e.1 + 12500000000)))).getD rate

/-- The fit of R338 is made again. -/
def execRateFitUpdate (c open_ : Nat) (s : State) : Host.Outcome State Fault Refusal :=
  let o := ctxObj c
  let rate := fitRate s c open_
  if c < 256 ∧ numF s (o + 1) ≠ 0 then
    let x := ctxRt s c
    let s1 := setN s (o + 0x022) rate
    let s2 := if nearRate x.lastRate rate 50 && x.lastRate != 0 then s1
      else raise (setCtx s1 c { x with lastRate := rate }) 0x2001 o rate
    let off := !(nearRate (domHz s (ctxDom s c) * 1000) rate 100)
    .next (if off && !(isOn s (o + 0x023)) then raise (setN s2 (o + 0x023) 1) 0x4005 o rate
      else setN s2 (o + 0x023) (if off then 1 else 0))
  else .next s

/-! ### Presentation and concealment (R334, R337, R338) -/

/-- The words of sample `i` of frame `f`, if the buffer holds them; `inTime` asks for an arrival 2 µs before the last tick. -/
def heldSample (s : State) (c f i : Nat) (inTime : Bool) : Option (List Nat) :=
  let r := stampAt s c f i
  let k := perPacket s c
  let n := chansOf s c
  match (ctxRt s c).packets.find? (fun y => decide (0 ≤ circle r y.stamp) && decide (circle r y.stamp < k)
      && (!inTime || decide (y.arrival + 2500 ≤ (dom s (ctxDom s c)).cycle))) with
  | some y => some ((y.words.drop ((circle r y.stamp).toNat * n)).take n)
  | none => none

/-- The Q8.23 value of a word on the wire. -/
def wireValue (b w : Nat) : Int := if b = 2 then signedOf 16 w * 256 else signedOf 24 w

/-- The concealment output of a context: its held values under the fade. -/
def concealed (x : Context) : List Int :=
  x.hold.map (fun v => if x.fadeK < 64 then weigh (fxOne - fadeIn x.fadeK 64) v else 0)

/-- One sample of the concealment of R337: the state after it, the values, and whether a recovery starts. -/
def concealStep (x : Context) (v : Option (List Int)) : Context × List Int × Bool :=
  match v, x.stage with
  | some y, 0 =>
    let z := if x.startK < 64 then y.map (weigh (fadeIn x.startK 64)) else y
    ({ x with lastOut := z, startK := min 64 (x.startK + 1) }, z, false)
  | none, 0 => ({ x with stage := 1, hold := x.lastOut, startK := 64 }, x.lastOut, false)
  | _, 1 => (x, x.hold, false)
  | none, 2 => ({ x with fadeK := min 64 (x.fadeK + 1), lastOut := concealed x }, concealed x, false)
  | some y, 2 =>
    let z := (List.zip (concealed x ++ List.replicate (y.length - x.hold.length) 0) y).map (fun e => mixAt 0 64 e.1 e.2)
    ({ x with stage := 3, xfade := 1, fadeK := min 64 (x.fadeK + 1), lastOut := z }, z, true)
  | some y, _ =>
    let z := (List.zip (concealed x ++ List.replicate (y.length - x.hold.length) 0) y).map (fun e => mixAt x.xfade 64 e.1 e.2)
    ({ x with stage := if 64 ≤ x.xfade + 1 then 0 else 3, xfade := x.xfade + 1, fadeK := min 64 (x.fadeK + 1), lastOut := z },
     z, false)
  | none, _ => ({ x with stage := 1, hold := x.lastOut }, x.lastOut, false)

/-- Sample `i` of frame `f`: the context's values after concealment and muting, and whether the sample was missing. -/
def rxSample (s : State) (c f i : Nat) : State × List Int × Bool :=
  let o := ctxObj c
  let b := wireBytes s c
  let held := heldSample s c f i true
  let v := if isOn s (o + 0x023) then none else held.map (fun ws => ws.map (wireValue b))
  let q := concealStep (ctxRt s c) v
  let s1 := setCtx s c q.1
  let s2 := if q.2.2 then setCtx (raise s1 0x4002 o q.1.concealed) c { q.1 with concealed := 0 } else s1
  let top := fun j => ((held.getD [])[j]?).getD 0 / (if b = 2 then 1 else 256)
  let win := (ctxRt s2 c).window || modeNow s2 == 6
  let pairs := List.range (chansOf s c / 2)
  let s3 := pairs.foldl (fun t k => naSample t o win k (top (2 * k)) (top (2 * k + 1))) s2
  let out := (List.zip (List.range q.2.1.length) q.2.1).map (fun e =>
    if e.1 < 2 * (chansOf s c / 2) then weigh (naWeight s3 o (e.1 / 2)) e.2 else e.2)
  (pairs.foldl (fun t k => naAdvance t o k) s3, out, held.isNone)

/-- INGEST of frame `f` in a receive context that delivers it (R33, R337). -/
def ingestCtx (s : State) (c f : Nat) : State :=
  let o := ctxObj c
  if delivers s o f ∧ (ctxRt s c).first ≤ f then
    let q := (List.range (frameLen s)).foldl (fun (a : State × List (List Int) × Bool) i =>
      let r := rxSample a.1 c f i
      (r.1, a.2.1 ++ [r.2.1], a.2.2 || r.2.2)) (s, [], false)
    let x := ctxRt q.1 c
    let miss := q.2.2
    let s1 := if miss then bump q.1 (o + 0x035) else q.1
    let s2 := if miss && !x.missed then raise s1 0x4001 o (numF s1 (o + 0x035)) else s1
    let s3 := setCtx s2 c { x with missed := miss, stage := if x.stage = 1 then 2 else x.stage,
                                   fadeK := if x.stage = 1 then 0 else x.fadeK,
                                   concealed := if x.stage = 1 ∨ x.stage = 2 then x.concealed + 1 else x.concealed }
    (List.zip (List.range x.signals.length) x.signals).foldl (fun t e => putSig t e.2 f (q.2.1.map (fun v => smp v e.1))) s3
  else s

/-- Takes one packet whose samples have all been presented out of the buffer: sequence numbers that came on no leg, those discarded late or
early not among them, and legs that did not bring it (R335, R347). -/
def retirePacket (s : State) (c : Nat) (y : RxPacket) : State :=
  let o := ctxObj c
  let x := ctxRt s c
  let gap := match x.nextSeq with
    | some n => (y.seq + 65536 - n) % 65536
    | none => 0
  let came := (x.discarded.filter (fun q => decide ((q + gap + 65536 - y.seq) % 65536 < gap))).length
  let s1 := if 0 < gap ∧ gap < 32768 then bumpBy s (o + 0x034) (gap - came) else s
  let s2 := setCtx s1 c { x with nextSeq := some ((y.seq + 1) % 65536),
                                 discarded := x.discarded.filter (fun q => decide ((q + 65536 - y.seq - 1) % 65536 < 32768)) }
  if numF s (o + 4) = 3 then (if y.legs = 1 then bump s2 (o + 0x037) else if y.legs = 2 then bump s2 (o + 0x036) else s2) else s2

/-- Retires the packets that INGEST of the present period needs no longer: those presented before its frame, by that frame's own media clock. -/
def retirePackets (s : State) (c : Nat) : State :=
  let x := ctxRt s c
  let k := perPacket s c
  let p := frameOf s (ctxDom s c)
  let past := fun (y : RxPacket) => p != 0 && decide (circle y.stamp (stampAt s c (p - 1) 0) + k ≤ 0)
  (x.packets.filter past).foldl (fun t y => retirePacket t c y)
    (setCtx s c { x with packets := x.packets.filter (fun y => !(past y)) })

/-! ### Transmitting (R331, R340, R344) -/

/-- Whether an address is multicast. -/
def isMulticast (a : Nat) : Bool := a / 2 ^ 28 == 0xE

/-- The IPv4 address of a network port, or of the management port as port 4 (R251, R349). -/
def portAddr (s : State) (port : Nat) : Nat :=
  let own := if port < 4 then numF s (netObj port + 1) else (match s.host.netUse with | some r => r.ip | none => 0)
  if own = 0 then 0xA9FE0000 + (Config.linkLocal port).toNat else own

/-- The next hop of a unicast destination (R349). -/
def nextHop (s : State) (port dest : Nat) : Nat :=
  let n := 2 ^ (32 - numF s (netObj port + 2))
  let g := numF s (netObj port + 3)
  if dest / n = portAddr s port / n ∨ g = 0 then dest else g

/-- The MAC address to which a packet for an address goes: that of the group, 01-00-5E with 23 bits of the address, or the ARP entry of the
next hop (log entry 181). -/
def destMac (s : State) (port dest : Nat) : Option Nat :=
  if isMulticast dest then some (0x01005E * 2 ^ 24 + dest % 2 ^ 23)
  else ((netPort s port).arp.find? (fun e => e.1 == nextHop s port dest)).map (·.2)

/-- A media packet of a context on a port (R340, R348, R349). -/
def mediaFrame (s : State) (port c dest mac : Nat) (b : Octets) : MediaFrame :=
  let o := ctxObj c
  let p := netObj port
  { context := c, vlan := numF s (p + 4), pcp := numF s (p + 5), mac := mac, source := portAddr s port, dest := dest,
    dscp := numF s (o + 0x011), ttl := numF s (o + 0x012), sourcePort := numF s (o + 0x013), destPort := numF s (o + 0x00D), rtp := b }

/-- Sends a media packet of context `c` on a port that has link. A unicast next hop without an ARP entry makes the port ask for it
instead (R349). -/
def sendMedia (s : State) (port c dest : Nat) (b : Octets) : State :=
  if !(isOn s (netObj port)) then s
  else match destMac s port dest with
    | some m =>
      let x := netPort s port
      bump (setNet s port { x with out := x.out ++ [mediaFrame s port c dest m b] }) (netObj port + 0x012)
    | none => sendFrames s port [.arpRequest (nextHop s port dest)]

/-- EGRESS of a domain begins: the media packets that its contexts sent in the period before have left. -/
def clearMedia (s : State) (d : Nat) : State :=
  (List.range 4).foldl (fun t p => setNet t p { netPort t p with out := (netPort t p).out.filter (fun e => ctxDom t e.context != d) }) s

/-- The SSRC that a transmit context sends (R348). -/
def ssrcOf (s : State) (c : Nat) : Nat :=
  let n := numF s (ctxObj c + 0x010)
  if n = 0 then (Config.dieId.toNat * 8 / 256 % 2 ^ 24) * 256 + c % 256 else n

/-- The RTP packet of a context. -/
def rtpOctets (s : State) (c seq stamp : Nat) (words : List Nat) : Octets :=
  [0x80, numF s (ctxObj c + 0x00A)] ++ beBytes 2 seq ++ beBytes 4 stamp ++ beBytes 4 (ssrcOf s c)
  ++ words.flatMap (beBytes (wireBytes s c))

/-- Sends the packet in work on the legs of the context; without the token only its number passes (R413, R427). A packet in work when a
handover passed the token is sent by the old side (R429). -/
def sendPacket (s : State) (c : Nat) : State :=
  let o := ctxObj c
  let x := ctxRt s c
  let seq := numF s (o + 0x020)
  let b := rtpOctets s c seq x.accStamp x.acc
  let late := s.pair.late.contains c
  let s0 : State := { s with pair := { s.pair with late := dropAll s.pair.late c } }
  let s1 := setN (setCtx s0 c { x with acc := [] }) (o + 0x020) ((seq + 1) % 65536)
  if drivesOut s != late then
    (let port := 2 * numF s (o + 3)
     let s2 := if bit (numF s (o + 4)) 0 = 1 then sendMedia s1 port c (numF s (o + 0x00B)) b else s1
     bump (if bit (numF s (o + 4)) 1 = 1 then sendMedia s2 (port + 1) c (numF s (o + 0x00C)) b else s2) (o + 0x030))
  else s1

/-- The latency from a sample's entry to its leaving (R38, R331). -/
def latency (s : State) : Nat := 2 * frameLen s + outOffset s

/-- The zeros that complete the packet a closing context has begun, sample by sample, in a frame from its stop on; the last EGRESS of the drain
completes it whole (R340, R344; log entry 195). -/
def closeCtx (s : State) (c : Nat) : State :=
  let x := ctxRt s c
  let full := perPacket s c * chansOf s c
  let last := (life s (ctxObj c)).drain ≤ 1 ∨ (life s (ctxObj c)).drained
  let n := if last then full - x.acc.length else min (frameLen s * chansOf s c) (full - x.acc.length)
  if x.acc.isEmpty then s
  else
    let s1 := setCtx s c { x with acc := x.acc ++ List.replicate n 0 }
    if full ≤ x.acc.length + n then sendPacket s1 c else s1

/-- EGRESS of frame `f` in a transmit context: k consecutive samples fill a packet; a closing context sends what its frames before the stop hold,
completes the packet begun with zeros and sends nothing more; one that has faulted fades its channels over 64 samples and ends with the packet in
work (R8, R340, R344). -/
def egressCtx (s : State) (c f d : Nat) (outs : Tab (List Int)) : State :=
  let o := ctxObj c
  let st := numF s (o + 1)
  let full := perPacket s c * chansOf s c
  let x0 := ctxRt s c
  let end_ := fun (t : State) =>
    if (st = 3 ∨ st = 4) ∧ ((life t o).drain ≤ 1 ∨ (life t o).drained) then closeCtx t c else t
  let fade := fun (i : Nat) (v : Int) => match x0.faultK with
    | some q => weigh (if q + i < 64 then fxOne - fadeIn (q + i) 64 else 0) v
    | none => v
  if (st = 1 ∨ delivers s o f ∨ x0.faultK.isSome) ∧ x0.first ≤ f then
    let s1 := (List.range (frameLen s)).foldl (fun t i =>
      let x := ctxRt t c
      let stamp := (mediaAt t c f + i + latency t + numF t (o + 9)) % 2 ^ 32
      let ws := (List.range (chansOf t c)).map (fun j =>
        let v := fade i (weigh (outWeight (outFade t d) i) (smp (tget outs [] (o + 0x100 + j)) i))
        if wireBytes t c = 2 then wrapTo 16 (out16 v) else wrapTo 24 (out24 v))
      let t1 := setCtx t c { x with acc := x.acc ++ ws, accStamp := if x.acc.isEmpty then stamp else x.accStamp }
      if full ≤ (ctxRt t1 c).acc.length then sendPacket t1 c else t1) s
    let y := ctxRt s1 c
    match y.faultK with
    | some q => setCtx s1 c { y with faultK := if 64 ≤ q + frameLen s ∧ y.acc.isEmpty then none else some (q + frameLen s) }
    | none => end_ s1
  else if st = 3 ∨ st = 4 then closeCtx s c
  else s

/-- A frame of zeros in a transmit context of a stopped domain (R73): the timestamps go on from the packet before. -/
def zeroCtx (s : State) (c : Nat) : State :=
  if numF s (ctxObj c + 1) = 2 then
    (List.range (frameLen s)).foldl (fun t _ =>
      let x := ctxRt t c
      let k := perPacket t c
      let t1 := setCtx t c { x with acc := x.acc ++ List.replicate (chansOf t c) 0,
                                    accStamp := if x.acc.isEmpty then (x.accStamp + k) % 2 ^ 32 else x.accStamp }
      if k * chansOf t c ≤ (ctxRt t1 c).acc.length then sendPacket t1 c else t1) s
  else s

/-! ### Membership (R345) and life -/

/-- The ports, destinations and sources of a receive context's multicast legs. -/
def rxGroups (s : State) (c : Nat) : List (Nat × Nat × Nat) :=
  let o := ctxObj c
  ([0, 1].filter (fun l => bit (numF s (o + 4)) l == 1 && isMulticast (numF s (o + 0x00B + l)))).map
    (fun l => (2 * numF s (o + 3) + l, numF s (o + 0x00B + l), numF s (o + 0x010 + l)))

/-- The sources of a group on a port, over the contexts that share its membership: none stands for EXCLUDE {} (R345). -/
def groupSources (s : State) (port g : Nat) : Option (List Nat) :=
  let src := ((netPort s port).groups.filter (fun y => y.1 == g)).map (fun y => numF s (ctxObj y.2 + 0x010 + port % 2))
  if src.contains 0 then none else some (sortUp src)

/-- The IGMP version that a port speaks: that of the oldest querier present on it, else 3 (R345). -/
def igmpVersion (s : State) (port : Nat) : Nat :=
  let x := netPort s port
  if s.now < x.old1 then 1 else if s.now < x.old2 then 2 else 3

/-- A context that enters STARTING joins its groups: INCLUDE of its source, or EXCLUDE of none. -/
def joinGroups (s : State) (c : Nat) : State :=
  (rxGroups s c).foldl (fun t e =>
    let x := netPort t e.1
    let t1 := setNet t e.1 { x with groups := x.groups ++ [(e.2.1, c)] }
    sendFrames t1 e.1 [.report (igmpVersion t1 e.1) e.2.1 (groupSources t1 e.1 e.2.1)]) s

/-- A context that enters STOPPING, or OFF from FAULTED, leaves the groups that it holds; a group that another context holds on the port
stays, and IGMPv1 has no leave. -/
def leaveGroups (s : State) (c : Nat) : State :=
  ((rxGroups s c).filter (fun e => (netPort s e.1).groups.contains (e.2.1, c))).foldl (fun t e =>
    let x := netPort t e.1
    let g := x.groups.filter (fun y => !(y.1 == e.2.1 && y.2 == c))
    let t1 := setNet t e.1 { x with groups := g }
    if g.any (fun y => y.1 == e.2.1) ∨ igmpVersion t1 e.1 = 1 then t1 else sendFrames t1 e.1 [.leave e.2.1]) s

/-- Whether a receive context keeps its numbers where it is OFF: ENABLE is TRUE in force, as in a transition and in SERVICE (R63, R73, R351), or the
commit at hand enables it (R342). -/
def keepsSignals (s : State) (c : Nat) : Bool :=
  isOn s (ctxObj c) ||
  match s.commit with
  | some p => commitState s != 0 && commitState s != 1 && p.set.any (fun e => e.1 == ctxObj c && e.2 == .num 1)
  | none => false

/-- A context that has entered a life-cycle state (R343, R344). A queued start keeps the packets that are buffered (R10), and a context
that the commit at hand enables again keeps its numbers (R342). A transmit context that faults while it is silent stays silent (R8). -/
def ctxEntered (s : State) (c st : Nat) : State :=
  let o := ctxObj c
  let x := ctxRt s c
  match st with
  | 1 =>
    let y := { Context.closed with signals := x.signals, packets := x.packets, first := frameOf s (ctxDom s c) }
    let s1 := setN (setCtx s c y) (o + 0x023) 0
    if c < 256 then joinGroups (setN (setN s1 (o + 0x021) 0) (o + 0x022) 0) c else s1
  | 3 => if c < 256 then leaveGroups s c else s
  | 5 => if c < 256 then x.signals.foldl fadeFrom s
         else
           let l := life s o
           let still := l.muted || (l.stop != 0 && decide (l.stop + 2 ≤ frameOf s (ctxDom s c)) && x.acc.isEmpty)
           setCtx s c (if still then { x with acc := [] } else { x with faultK := some 0 })
  | 0 => let s1 := x.signals.foldl clearSig (if c < 256 then leaveGroups s c else s)
         setCtx s1 c { Context.closed with signals := if keepsSignals s c then x.signals else [] }
  | _ => s

/-- What a tick does to a context: the media clock, retired packets, and the move to ON (R332, R343, R344). -/
def tickCtx (s : State) (c : Nat) : State :=
  let o := ctxObj c
  let st := numF s (o + 1)
  if st = 0 ∨ st = 5 then s
  else
    let s1 := tickMedia s c
    let p := frameOf s (ctxDom s c)
    if 256 ≤ c then
      (if st = 1 ∧ (ctxRt s1 c).first < p then moveUnit s1 o 2 else s1)
    else
      let s2 := retirePackets s1 c
      if st = 1 ∧ domOn s2 (ctxDom s2 c) ∧ (List.range (frameLen s2)).all (fun i => (heldSample s2 c p i false).isSome) then
        setCtx (moveUnit s2 o 2) c { ctxRt s2 c with first := p, startK := 0, window := true }
      else s2

/-! ### Control frames -/

/-- Ports 0 to 3 are the network ports, port 4 the management port. -/
def execArpRequest (port sender target : Nat) (s : State) : Host.Outcome State Fault Refusal :=
  let s1 := heard (quietPorts s) port
  .next (if target = portAddr s port then
      sendFrames s1 port [.arpReply sender target (if port < 4 then numF s (netObj port + 6) else macOf 0)]
    else unmatched s1 port)

/-- An ICMP echo request is answered with its own payload. -/
def execIcmpEchoRequest (port source dest : Nat) (payload : Octets) (s : State) : Host.Outcome State Fault Refusal :=
  let s1 := heard (quietPorts s) port
  .next (if dest = portAddr s port then sendFrames s1 port [.echoReply source payload] else unmatched s1 port)

/-- An ARP reply resolves a unicast destination. -/
def execArpReplyReceived (port sender mac : Nat) (s : State) : Host.Outcome State Fault Refusal :=
  let s1 := heard s port
  let x := netPort s1 port
  .next (setNet s1 port { x with arp := x.arp.filter (fun e => e.1 != sender) ++ [(sender, mac)] })

/-- A querier of IGMPv1 or IGMPv2 is present for 260 s from its query on (RFC 3376; log entry 193). -/
def hearQuerier (s : State) (port version : Nat) : State :=
  let x := netPort s port
  if version = 1 then setNet s port { x with old1 := s.now + 325000000000 }
  else if version = 2 then setNet s port { x with old2 := s.now + 325000000000 }
  else s

/-- A membership query: general for group 0, else of one group; the report takes the version of the oldest querier present (R345). -/
def execIgmpQueryReceived (port version group : Nat) (s : State) : Host.Outcome State Fault Refusal :=
  let s1 := hearQuerier (heard (quietPorts s) port) port version
  let gs := sortUp (((netPort s port).groups.map (·.1)).filter (fun g => group == 0 || g == group))
  .next (sendFrames s1 port (gs.map (fun g => .report (igmpVersion s1 port) g (groupSources s port g))))

/-- A frame with a bad check sequence, or one that matches no context, time base or service (R349). -/
def execFrameDiscarded (port : Nat) (badFcs : Bool) (s : State) : Host.Outcome State Fault Refusal :=
  .next (if port < 4 then bump (bump s (netObj port + 0x010)) (netObj port + (if badFcs then 0x013 else 0x011)) else s)

/-- The link of a network port comes up or goes down. A time base runs no PTP port on one without link and forgets the masters heard there, but for
the one it follows, which is lost as R301 gives (R295, R349). -/
def execNetworkLinkChange (port : Nat) (up : Bool) (s : State) : Host.Outcome State Fault Refusal :=
  let o := netObj port
  let v := if up then 1 else 0
  if port < 4 ∧ numF s o ≠ v then
    let s1 := raise (setN s o v) 0x4008 o v
    .next (if up then s1 else (List.range 4).foldl (fun t k =>
      if numF t (tbObj k + 2) = port / 2 then
        (let x := tb t k
         let mine := fun (e : Nat × Announce × Nat × Cycle) =>
           x.port == port && (match x.best with | some a => e.2.1.sender == a.sender && e.2.1.portNo == a.portNo | none => false)
         setTb t k { x with masters := x.masters.filter (fun e => e.1 != port || mine e) })
      else t) s1)
  else .next s

/-! ### Opening (R341) -/

/-- The lowest free context of a direction: OFF in the running version with ENABLE FALSE in the staging bank. -/
def freeContext (s : State) (base : Nat) : Option Nat :=
  ((List.range 256).map (base + ·)).find? (fun c =>
    numF s (ctxObj c + 1) == 0 && !(isOn s (ctxObj c)) && (stagedVal s (ctxObj c) == .num 0))

/-- Stages a context: ENABLE TRUE, CHANNELS n, every other STAGED member at its default. -/
def stageContext (s : State) (c n : Nat) : State :=
  let o := ctxObj c
  let rows := (familyRows fullLimits 4 c).filter (fun r => (match r.app with | .staged => true | _ => false)
    && (match r.acc with | .rw => true | _ => false))
  (rows.flatMap (fun r => (List.range (r.hi + 1 - r.lo)).map (r.lo + ·))).foldl (fun t m =>
    setBank t (o + m) (if m = 0 then .num 1 else if m = 5 then .num n else dfl (o + m))) s

/-- An RX_OPEN or TX_OPEN of `n` channels by a session: the status and the state (R341). -/
def openContext (s : State) (sn : Sess) (base n : Nat) : Nat × State :=
  match freeContext s base with
  | some c => (stOk, setSess (stageContext s c n) sn { sess s sn with opened := c - base })
  | none => (stNoResource, setSess s sn { sess s sn with opened := 0xFFFF })

end Sys2Proof.Machine
end

