-- ==== Sys2Proof/Machine/Rings.lean ====
section
/-!
DEFINITION. Machine/Rings.lean: the audio rings of the host (R264 to R271), BAR0 and the OTP block (R258 to R261), and what a reset of
the PCIe function does (R261, R271).
-/
namespace Sys2Proof.Machine

/-! ### Audio rings -/

/-- The object of host ring `n`. -/
def ringObj (n : Nat) : Obj := ob 4 (0x300 + n) 0
/-- The hidden part of a ring. -/
def ringRt (s : State) (n : Nat) : Ring := tget s.host.rings Ring.idle n
/-- Changes the hidden part of a ring. -/
def setRing (s : State) (n : Nat) (x : Ring) : State := { s with host := { s.host with rings := tput s.host.rings Ring.idle n x } }

/-- Bytes of a sample in a ring (R266). -/
def ringBytes (s : State) (n : Nat) : Nat := if numF s (ringObj n + 5) = 0 then 3 else 4

/-- The entry stride of R267. -/
def entryBytes (s : State) (n : Nat) : Nat :=
  (16 + frameLen s * numF s (ringObj n + 4) * ringBytes s n + 63) / 64 * 64

/-- The address of the entry at INDEX. -/
def entryAddr (s : State) (n : Nat) : Nat := numF s (ringObj n + 6) + numF s (ringObj n + 0x00D) * entryBytes s n

/-- After an entry: INDEX, FRAMES, the status block, and an MSI-X message due every IRQ_EVERY entries (R268, R269). -/
def entryDone (s : State) (n f : Nat) : State :=
  let o := ringObj n
  let e := numF s (o + 7)
  let s1 := bump (setN s (o + 0x00D) ((numF s (o + 0x00D) + 1) % (if e = 0 then 1 else e))) (o + 0x010)
  let b := leBytes 2 (numF s1 (o + 0x00D)) ++ [0, 0] ++ leBytes 8 f ++ leBytes 8 (numF s1 (o + 0x011)) ++ List.replicate 12 0
  let s2 := hostWrite s1 (numF s1 (o + 8)) b
  let x := ringRt s2 n
  let k := numF s2 (o + 0x00A)
  if k ≠ 0 ∧ k ≤ x.sinceIrq + 1 then setRing s2 n { x with sinceIrq := 0, irq := true }
  else setRing s2 n { x with sinceIrq := x.sinceIrq + 1 }

/-- The messages of the ring entries of one burst: one for each vector (R265). -/
def sendBurst (s : State) : State :=
  let rs := ((List.range 32).map (32 + ·)).filter (fun n => (ringRt s n).irq)
  let s1 := rs.foldl (fun t n => setRing t n { ringRt t n with irq := false }) s
  (sortUp (rs.map (fun n => numF s (ringObj n + 9)))).foldl sendMsix s1

/-- The bytes of a sample in a record entry (R267). -/
def sampleBytes (b : Nat) (x : Int) : Octets :=
  if b = 3 then leBytes 3 (wrapTo 24 (out24 x)) else 0 :: leBytes 3 (wrapTo 24 (out24 x))

/-- EGRESS of frame `f` at a record ring that delivers it: entry `f`, or a frame lost to a full ring; a ring whose fault waits for its tick
writes nothing more (R9, R269, R271). -/
def egressRing (s : State) (n f d : Nat) (outs : Tab (List Int)) : State :=
  let o := ringObj n
  let x := ringRt s n
  let c := numF s (o + 4)
  let first := numF s (o + 3)
  let e := numF s (o + 7)
  if delivers s o f ∧ !(s.sage.faults.contains o) ∧ drivesOut s ∧ numF s (o + 0x00B) ≤ f ∧ x.from_ ≤ f then
    if (numF s (o + 0x00D) + 1) % (if e = 0 then 1 else e) = x.host then
      let s1 := bump (setRing s n { x with gap := true, losing := true }) (o + 0x011)
      if x.losing then s1 else raise s1 0x4301 o (numF s1 (o + 0x011))
    else
      let patch := fun j => ob 4 (0x400 + first + j) 0
      let back := (List.range c).any (fun j => decide (0x10000 ≤ (outletOf s (patch j)).carried))
      let flags := (if x.gap then 1 else 0) + (if back then 2 else 0) + (if x.first then 4 else 0)
      let head := leBytes 8 f ++ leBytes 2 c ++ [numF s (o + 5), flags, 0, 0, 0, 0]
      let body := (List.range (frameLen s)).flatMap (fun i => (List.range c).flatMap (fun j =>
        sampleBytes (ringBytes s n) (weigh (outWeight (outFade s d) i) (smp (tget outs [] (patch j)) i))))
      entryDone (setRing (hostWrite s (entryAddr s n) (head ++ body)) n { x with gap := false, first := false, losing := false }) n f
  else s

/-- The samples of a playback entry, sample by sample (R267). -/
def entrySamples (s : State) (n : Nat) : List Int :=
  let b := ringBytes s n
  let a := entryAddr s n + 16
  (List.range (frameLen s * numF s (ringObj n + 4))).map (fun j =>
    signedOf 24 (ofLe (hostRead s (a + j * b + (b - 3)) 3)))

/-- The headers that the engine reads for frame `f`: stale entries are discarded, the entry of the frame is fetched (R270). -/
def fetchEntry (s : State) (n f : Nat) : Nat → State
  | 0 => s
  | fuel + 1 =>
    let o := ringObj n
    let e := numF s (o + 7)
    let i := numF s (o + 0x00D)
    if (ringRt s n).host = i then s
    else
      let g := ofLe (hostRead s (entryAddr s n) 8)
      if g < f then fetchEntry (bump (setN s (o + 0x00D) ((i + 1) % (if e = 0 then 1 else e))) (o + 0x012)) n f fuel
      else if g = f then
        let x := ringRt s n
        entryDone (setRing s n { x with fetched := (x.fetched ++ [(f, entrySamples s n)]).drop (x.fetched.length - 2) }) n f
      else s

/-- What a tick of its domain does to an audio ring: STARTING ends, and a playback ring fetches the entry of the new frame. -/
def tickRing (s : State) (n : Nat) : State :=
  let o := ringObj n
  let p := frameOf s (numF s (o + 2))
  let s1 := if numF s (o + 1) = 1 ∧ (ringRt s n).from_ < p then setRing (moveUnit s o 2) n { ringRt s n with from_ := p } else s
  if 48 ≤ n ∧ numF s1 (o + 1) = 2 ∧ numF s1 (o + 0x00B) ≤ p then fetchEntry s1 n p 4 else s1

/-- The held values of a ring under the fade of an underrun. -/
def ringHold (x : Ring) (n i : Nat) : List Int :=
  x.hold.map (fun v => if x.fadeK + i < 64 then weigh (fxOne - fadeIn (x.fadeK + i) 64) v else 0) ++ List.replicate (n - x.hold.length) 0

/-- INGEST of frame `f` at a playback ring that delivers it; `late` says that its fetch is not complete (R270). -/
def ingestRing (s : State) (n f : Nat) (late : Bool) : State :=
  let o := ringObj n
  let x := ringRt s n
  let c := numF s (o + 4)
  let put := fun (t : State) (v : Nat → List Int) =>
    (List.range c).foldl (fun u j => putSig u (0x1400 + numF s (o + 3) + j) f
      ((List.range (frameLen s)).map (fun i => smp (v i) j))) t
  if delivers s o f ∧ numF s (o + 0x00B) ≤ f ∧ x.from_ ≤ f then
    match (if late then none else x.fetched.find? (fun e => e.1 == f)) with
    | some e =>
      let k := if x.losing then 0 else x.inK
      let v := fun i => ((e.2.drop (i * c)).take c).map (fun y => if k + i < 64 then weigh (fadeIn (k + i) 64) y else y)
      put (setRing s n { x with losing := false, inK := min 64 (k + frameLen s), hold := v (frameLen s - 1), fadeK := 0 }) v
    | none =>
      let s1 := bump (setRing s n { x with losing := true, fadeK := min 64 (x.fadeK + frameLen s) }) (o + 0x011)
      put (if x.losing then s1 else raise s1 0x4302 o (numF s1 (o + 0x011))) (ringHold x c)
  else s

/-- A ring that has entered a life-cycle state. -/
def ringEntered (s : State) (n st : Nat) : State :=
  let o := ringObj n
  let sigs := if 48 ≤ n then (List.range (numF s (o + 4))).map (0x1400 + numF s (o + 3) + ·) else []
  match st with
  | 0 => setN (setRing (sigs.foldl clearSig s) n Ring.idle) (o + 0x00D) 0
  | 1 => setRing s n { ringRt s n with from_ := frameOf s (numF s (o + 2)), first := true, gap := false, losing := false }
  | 5 => sigs.foldl fadeFrom s
  | _ => s

/-- Every audio ring that runs enters FAULTED at the next tick of its domain, from which its signals fade (R19, R27, R271). -/
def faultRings (s : State) : State :=
  ((List.range 32).map (32 + ·)).foldl (fun t n =>
    if numF t (ringObj n + 1) = 0 ∨ numF t (ringObj n + 1) = 5 then t else faultDue t (ringObj n)) s

/-- A DMA error on a ring's transfer (R271). -/
def execRingDmaError (_ : Nat) (s : State) : Host.Outcome State Fault Refusal := .next (faultRings s)

/-! ### Doorbells (R264) -/

/-- A doorbell that is ignored and counted. -/
def badDoorbell (s : State) (n word : Nat) : State := raise (bump s (ringObj n + 0x014)) 0x4303 (ringObj n) word

/-- The doorbell of ring `n`. -/
def doorbell (s : State) (n word : Nat) : State :=
  let e := if n < 16 then (cmdPair s n).entries else if n < 32 then (cmdPair s (n - 16)).entries else numF s (ringObj n + 7)
  if e ≤ word then badDoorbell s n word
  else if n < 16 then setPair s n { cmdPair s n with sqTail := word }
  else if n < 32 then setPair s (n - 16) { cmdPair s (n - 16) with cqHead := word }
  else setRing s n { ringRt s n with host := word }

def execSubmissionDoorbell (ring word : Nat) (stores : List Host.Cell) (s : State) : Host.Outcome State Fault Refusal :=
  .next (doorbell (hostStores s stores) ring word)

def execCompletionDoorbell (ring word : Nat) (s : State) : Host.Outcome State Fault Refusal := .next (doorbell s ring word)

def execRecordDoorbell (ring word : Nat) (s : State) : Host.Outcome State Fault Refusal := .next (doorbell s ring word)

def execPlaybackDoorbell (ring word : Nat) (stores : List Host.Cell) (s : State) : Host.Outcome State Fault Refusal :=
  .next (doorbell (hostStores s stores) ring word)

/-! ### Command pairs (R260, R261) -/

/-- An enable request of a pair (R9, R261). -/
def enablePair (s : State) (i : Nat) : State :=
  let x := cmdPair s i
  setPair s i { x with enable := true, state := if x.state = 3 then 4 else x.state }

/-- A disable request of a pair: fetching stops, and with it the wait for a further submission. -/
def disablePair (s : State) (i : Nat) : State :=
  let x := cmdPair s i
  flushPair (setPair s i { x with enable := false, state := if x.state = 4 then 3 else x.state }) i

def execCommandPairEnable (i : Nat) (s : State) : Host.Outcome State Fault Refusal := .next (if i < 16 then enablePair s i else s)

def execCommandPairDisable (i : Nat) (s : State) : Host.Outcome State Fault Refusal := .next (if i < 16 then disablePair s i else s)

/-- The life-cycle event of the two rings of a pair (R8, R243). -/
def raisePair (s : State) (i st : Nat) : State := raise (raise s 0x4000 (ringObj i) st) 0x4000 (ringObj (16 + i)) st

/-- What a pair holds in OFF. -/
def CmdPair.stopped (x : CmdPair) : CmdPair :=
  { x with state := 0, enable := false, fetched := [], session := 0, unsent := false }

/-- A pair enters OFF at once and its session closes. -/
def pairOff (s : State) (i why : Nat) : State :=
  let x := cmdPair s i
  let s1 := setPair s i x.stopped
  if x.state = 0 then s1 else raisePair (closeSession s1 x.session why) i 0

/-- An enabled pair takes the lowest free session slot and is ON; without one it stays or goes OFF (R261). -/
def startPair (s : State) (i : Nat) : State :=
  let x := cmdPair s i
  match freeSlot s with
  | some n =>
    let y := { x with state := 2, openSt := stOk, session := n, sqHead := 0, cqTail := 0, cqHead := 0, phase := true, unsent := false, fetched := [] }
    raisePair (openSession (setPair s i y) n 2 x.priv x.dialect { Session.free with pair := i }) i 2
  | none =>
    let s1 := setPair s i { x.stopped with openSt := stSessions }
    if x.state = 0 then s1 else raisePair s1 i 0

/-- A tick of a pair that drains: once every fetched command has posted its completion it is OFF, or starts again in the same tick where an
enable waits (R10, R261; log entry 192). -/
def drainPair (s : State) (i : Nat) : State :=
  let x := cmdPair s i
  if !(x.fetched.isEmpty) then s
  else if x.state = 4 then startPair (closeSession s x.session 2) i
  else pairOff s i 2

/-- What a CD0 tick does to a pair: an enabled pair is ON; a disabled one drains and is OFF (R261). -/
def tickPair (s : State) (i : Nat) : State :=
  let x := cmdPair s i
  match x.state with
  | 0 => if x.enable then startPair s i else s
  | 2 => if x.enable then s else raisePair (setPair s i { x with state := 3 }) i 3
  | 3 => drainPair s i
  | 4 => drainPair s i
  | _ => s

/-- Every pair enters OFF at once, its fetched commands discarded, and every audio ring enters FAULTED (R261, R271). -/
def dropHost (s : State) : State :=
  faultRings ((List.range 16).foldl (fun t i => pairOff t i 3) s)

def execPcieFunctionReset (s : State) : Host.Outcome State Fault Refusal := .next (dropHost s)
def execPcieLinkDown (s : State) : Host.Outcome State Fault Refusal := .next (dropHost s)
def execBusMasterDisable (s : State) : Host.Outcome State Fault Refusal := .next (dropHost s)

/-! ### The OTP block (R259); the offsets of its registers are log entry 31 -/

/-- A register of the OTP block. -/
def otpReg (s : State) (k : Nat) : Nat := tget s.host.otpRegs 0 k

/-- Whether a fuse can be programmed now: READY bit 0, and no ODP session open. -/
def otpReady (s : State) : Bool :=
  ready0 s && !((List.range 32).any (fun n => numF s (sob n 0) == 1 && numF s (sob n 1) == 1))

/-- PROGRAM: the key words and the privilege written go into a slot that is not programmed. -/
def programKey (s : State) (k : Nat) : State :=
  let x := keySlot s k
  if k < 16 ∧ otpReady s ∧ !x.programmed ∧ !x.busy then
    let key := (List.range 8).flatMap (fun j => leBytes 4 (otpReg s (4 * j)))
    { s with host := { s.host with keys := tput s.host.keys KeySlot.blank k { x with key := key, priv := otpReg s 0x020 % 4, busy := true } } }
  else s

def execOtpKeyProgram (k : Nat) (s : State) : Host.Outcome State Fault Refusal := .next (programKey s k)

/-- The fuses of a slot are programmed. -/
def execOtpProgramDone (k : Nat) (s : State) : Host.Outcome State Fault Refusal :=
  let x := keySlot s k
  .next (if x.busy then { s with host := { s.host with keys := tput s.host.keys KeySlot.blank k { x with busy := false, programmed := true } } }
    else s)

/-- REVOKE: the slot refuses every AUTH. -/
def revokeKey (s : State) (k : Nat) : State :=
  if k < 16 then { s with host := { s.host with keys := tput s.host.keys KeySlot.blank k { keySlot s k with revoked := true } } } else s

def execOtpKeyRevoke (k : Nat) (s : State) : Host.Outcome State Fault Refusal := .next (revokeKey s k)

/-- Programs a network record. -/
def programNet (s : State) (k : Nat) : State :=
  if k < 4 ∧ otpReady s ∧ (tget s.host.netRecs none k).isNone then
    let r : NetRecord := { mode := otpReg s 0x02C, ip := otpReg s 0x030, prefix_ := otpReg s 0x034, gateway := otpReg s 0x038 }
    { s with host := { s.host with netRecs := tput s.host.netRecs none k (some r) } }
  else s

/-! ### BAR0 (R258, R260) -/

/-- The entries that a command ring can have (R260). -/
def ringSizes : List Nat := [16, 32, 64, 128, 256, 512, 1024, 2048, 4096]

/-- Replaces the low or high half of a 64-bit register. -/
def putHalf (old : Nat) (high : Bool) (v : Nat) : Nat :=
  if high then old % 2 ^ 32 + v * 2 ^ 32 else old / 2 ^ 32 * 2 ^ 32 + v

/-- A 32-bit write to the registers of a command pair. The bases are 4 KB aligned, and ENTRIES takes powers of 2 from 16 to 4,096 (log entry
177). -/
def pairWrite (s : State) (i r v : Nat) : State :=
  let x := cmdPair s i
  if r = 0x18 then (if bit v 0 = 1 then enablePair s i else disablePair s i)
  else if x.state ≠ 0 then s
  else match r with
    | 0x00 => setPair s i { x with sqBase := putHalf x.sqBase false (v / 4096 * 4096) }
    | 0x04 => setPair s i { x with sqBase := putHalf x.sqBase true v }
    | 0x08 => setPair s i { x with cqBase := putHalf x.cqBase false (v / 4096 * 4096) }
    | 0x0C => setPair s i { x with cqBase := putHalf x.cqBase true v }
    | 0x10 => setPair s i { x with entries := if ringSizes.contains (bits v 15 0) then bits v 15 0 else x.entries, vector := bits v 21 16, priv := bits v 25 24, dialect := bit v 28 }
    | _ => s

/-- A write of a word of the MSI-X table; a pending vector that it unmasks sends its message. -/
def msixWrite (s : State) (k v : Nat) : State :=
  let s1 : State := { s with host := { s.host with msixTab := if k % 4 = 3 then tput s.host.msixTab 1 k v else tput s.host.msixTab 0 k v } }
  let n := k / 4
  if s.host.msixPend.contains n && !(msixMasked s1 n) then
    sendMsix { s1 with host := { s1.host with msixPend := dropAll s1.host.msixPend n } } n
  else s1

/-- An aligned 32-bit write to BAR0; unlisted offsets ignore writes. -/
def barWord (s : State) (a v : Nat) : State :=
  if 0x1000 ≤ a ∧ a < 0x1100 then doorbell s ((a - 0x1000) / 4) v
  else if 0x2000 ≤ a ∧ a < 0x2400 then pairWrite s ((a - 0x2000) / 0x40) (a % 0x40) v
  else if 0x3000 ≤ a ∧ a < 0x4000 then
    (let k := a - 0x3000
     if k = 0x024 then programKey s v else if k = 0x028 then revokeKey s v else if k = 0x03C then programNet s v
     else { s with host := { s.host with otpRegs := tput s.host.otpRegs 0 k v } })
  else if 0x80000 ≤ a ∧ a < 0x80400 then msixWrite s ((a - 0x80000) / 4) v
  else s

/-- An aligned 32-bit or 64-bit write by the host; other accesses are ignored. -/
def execBar0RegisterWrite (a n v : Nat) (s : State) : Host.Outcome State Fault Refusal :=
  .next (if n = 4 ∧ a % 4 = 0 then barWord s a (v % 2 ^ 32)
    else if n = 8 ∧ a % 8 = 0 then barWord (barWord s a (v % 2 ^ 32)) (a + 4) (v / 2 ^ 32 % 2 ^ 32)
    else s)

/-! ### What the host reads (R257 to R260) -/

/-- READY (R258): [0] the dictionary is served; [1] audio runs, from the unmute on, on a side that holds the token (R443). -/
def readyReg (s : State) : Nat := (if ready0 s then 1 else 0) + (if 6 ≤ s.boot.step ∧ !s.pins.ownN then 2 else 0)

/-- The registers of a command pair (R260). -/
def pairRead (s : State) (i r : Nat) : Nat :=
  let x := cmdPair s i
  match r with
  | 0x00 => x.sqBase % 2 ^ 32
  | 0x04 => x.sqBase / 2 ^ 32
  | 0x08 => x.cqBase % 2 ^ 32
  | 0x0C => x.cqBase / 2 ^ 32
  | 0x10 => x.entries + x.vector * 2 ^ 16 + x.priv * 2 ^ 24 + x.dialect * 2 ^ 28
  | 0x18 => (if x.enable then 1 else 0) + x.state * 2 ^ 8 + x.openSt * 2 ^ 16 + (if x.state = 2 then x.session * 2 ^ 24 else 0)
  | 0x1C => x.sqHead + x.cqTail * 2 ^ 16
  | _ => 0

/-- The mode in which the management port runs: 0 1000BASE-X, 1 SGMII; SGMII without a network record (R251). -/
def manageMode (s : State) : Nat := match s.host.netUse with | some r => r.mode % 2 | none => 1

/-- The registers of the OTP block. No read returns a key, and PROGRAM and REVOKE read 0 (R256, R259; offsets of log entry 31). -/
def otpRead (s : State) (r : Nat) : Nat :=
  if r = 0x020 ∨ r = 0x02C ∨ r = 0x030 ∨ r = 0x034 ∨ r = 0x038 then otpReg s r
  else if 0x040 ≤ r ∧ r < 0x080 ∧ r % 4 = 0 then (if (keySlot s ((r - 0x040) / 4)).programmed then 1 else 0)
  else if r = 0x080 then macOf 0 % 2 ^ 32
  else if r = 0x084 then macOf 0 / 2 ^ 32
  else if r = 0x088 then manageMode s
  else 0

/-- The vectors with a pending message, as bits. -/
def pendingBits (s : State) : Nat := s.host.msixPend.foldl (fun a v => a + 2 ^ v) 0

/-- An aligned 32-bit word of BAR0; unlisted offsets read 0, and so do the doorbells, which the host writes. -/
def barRead (s : State) (a : Nat) : Nat :=
  if a = 0 then 0x960000B0
  else if a = 4 then readyReg s
  else if 0x2000 ≤ a ∧ a < 0x2400 then pairRead s ((a - 0x2000) / 0x40) (a % 0x40)
  else if 0x3000 ≤ a ∧ a < 0x4000 then otpRead s (a - 0x3000)
  else if 0x80000 ≤ a ∧ a < 0x80400 then
    (let k := (a - 0x80000) / 4
     tget s.host.msixTab (if k % 4 = 3 then 1 else 0) k)
  else if a = 0x81000 then pendingBits s % 2 ^ 32
  else if a = 0x81004 then pendingBits s / 2 ^ 32
  else 0

/-- The identification of the PCIe function: Device ID, Revision ID, class code; bytes of BAR n, 0 for one not implemented, and its address bits;
payload sizes, read request, lanes and generations (R257). -/
structure PcieFunction where
  device   : Nat
  revision : Nat
  class_   : Nat
  vectors  : Nat
  barBytes : List Nat
  addrBits : Nat
  payloads : List Nat
  readRequest : Nat
  lanes    : List Nat
  gens     : List Nat
  reset    : Bool
  deriving DecidableEq, Repr

/-- The function of R257. BAR0 and BAR1 are one 64-bit window of 1 MB. -/
def pcieFunction : PcieFunction :=
  { device := 0x9600, revision := 0xB0, class_ := 0x040100, vectors := 64, barBytes := [0x100000, 0, 0, 0, 0, 0], addrBits := 64,
    payloads := [128, 256], readRequest := 512, lanes := [4, 2, 1], gens := [4, 3, 2, 1], reset := true }

/-- A word of the configuration header that R257 fixes (log entry 177), BAR0 with the attributes of a 64-bit non-prefetchable window; the address
that the host gives the window is the host's. -/
def configRead (w : Nat) : Nat :=
  match w with
  | 0 => pcieFunction.device * 2 ^ 16 + Config.vendorId.toNat
  | 2 => pcieFunction.class_ * 2 ^ 8 + pcieFunction.revision
  | 4 => if pcieFunction.addrBits = 64 then 4 else 0
  | _ => 0

end Sys2Proof.Machine
end

