-- ==== Sys2Proof/Machine/Pair.lean ====
section
/-!
DEFINITION. Machine/Pair.lean: the redundant pair: link, roles, export, lease, handover (R412 to R434).
-/
namespace Sys2Proof.Machine

/-! ### Link, roles and stages -/

/-- RSM_SIDE: 0 A, 1 B. -/
def sideOf (s : State) : Nat := numF s (pairObj + 2)
/-- Whether the link is ON. -/
def linkOn (s : State) : Bool := unitState s pairObj == 2
/-- L (R424). -/
def leaseLen (s : State) : Nat := numF s (pairObj + 5)

/-- Core cycles in which a delay line of `us` microseconds in a domain receives appends over its whole length (R95, R419). -/
def lineCycles (s : State) (us d : Nat) : Nat :=
  let hz := max 1 (domHz s d)
  ringLength (usToSamples us hz) * 1250000000 / hz

/-- Core cycles that FILLING takes: the longest of the enabled delay lines and FIR histories (R419). -/
def fillCycles (s : State) : Nat :=
  let strips := ((List.range (lim s).strips).map (fun k => ob 5 k 0)).filter (fun o => isOn s (o + 0x050))
  let procs := (List.range 16).flatMap (tileProcs s)
  let fir := fun (o : Obj) => if isOn s (o + 0x010) then numF s (o + 0x011) * 1250000000 / max 1 (domHz s (ownerDom s o)) else 0
  Nat.max ((strips.map (fun o => lineCycles s 500000 (ownerDom s o))).foldl Nat.max 0)
    ((procs.map (fun o => Nat.max (if isOn s o then lineCycles s 2500000 (ownerDom s o) else 0) (fir o))).foldl Nat.max 0)

/-- FILL_LEFT: the milliseconds until FILLING ends. -/
def countFill (s : State) : State :=
  if numF s (pairObj + 4) = 2 then setN s (pairObj + 0x00D) ((s.pair.fillEnd - s.now + 1249999) / 1250000) else s

/-- SYNC takes a stage (R419). -/
def setSync (s : State) (v : Nat) : State :=
  if numF s (pairObj + 4) = v then s
  else
    let s1 := raise (setN (setN s (pairObj + 0x00D) 0) (pairObj + 4) v) 0xC006 pairObj v
    if v = 2 then countFill { s1 with pair := { s1.pair with fillEnd := s1.now + fillCycles s1 } } else s1

/-- Changes the hidden part of the pair. -/
def setPairRt (s : State) (x : Pair) : State := { s with pair := x }

/-- A planned handover that has not passed the token ends, and the next export carries every item (R430). -/
def refuseHandover (s : State) : State :=
  let h := numF s (pairObj + 8)
  if (h = 1 ∨ h = 2) ∧ !s.pair.passed then
    (let s1 := setN { s with pair := { s.pair with seen := [] } } (pairObj + 8) 4
     if role s1 = 2 then setN s1 (ob 1 0 0) 5 else s1)
  else s

/-- A mean frequency of the last second of lock to the partner: open within the locking range (R281, R420). -/
def drawFreq (s : State) : Int × State :=
  let q := drawUpTo s 2000000
  ((q.1 : Int) - 1000000, q.2)

/-- Every domain of a standby that is ON enters holdover, and looks for a reference at its next tick (R420). -/
def holdDomains (s : State) : State :=
  (List.range 4).foldl (fun t d =>
    if numF t (ob 2 d 1) = 2 then
      (let q := drawFreq t
       enterHoldover (setDom (setN q.2 (ob 2 d 0x11) 1) d { dom q.2 d with holdFreq := q.1, locks := [] }) d)
    else t) s

/-- The link leaves ON: a handover ends, the standby's domains hold over, the stage is NONE. -/
def linkLost (s : State) : State :=
  let s1 := refuseHandover s
  setSync (if role s1 = 2 then holdDomains s1 else s1) 0

/-- The side sends its release notice (R64, R431). -/
def sendNotice (s : State) : State := { s with pair := { s.pair with notices := s.pair.notices + 1 } }

/-! ### Configuration records of the active side (R419, R421, R431) -/

/-- A configuration record of what the active side holds now: the version that runs, rates and frame counters, with values, staged members and
landing samples. -/
def recordOf (s : State) (what : ConfigKind) (values staged : List (Obj × Val)) (land : List (Nat × Nat)) : ConfigRecord :=
  let head : VersionHead := match s.ver.dir with
    | v :: _ => { parent := v.parent, source := v.source, kind := v.kind, frame := v.frame, time := v.time, changes := v.changes,
                  label := v.label, session := v.session }
    | [] => { parent := 0, source := 0, kind := 0, frame := 0, time := 0, changes := 0, label := 0, session := 0 }
  { what := what, version := numF s (ob 14 0 1), head := head, rates := (List.range 4).map (fun d => (d, domRate s d)),
    frames := (List.range 4).map (fun d => (d, frameOf s d)), values := values, staged := staged, land := land }

/-- The active side forms a configuration record, which travels with its exports until one is acknowledged. -/
def formRecord (s : State) (r : ConfigRecord) : State :=
  if role s = 1 ∧ linkOn s then { s with pair := { s.pair with records := s.pair.records ++ [r] } } else s

/-- The record of the writes of a command: LIVE values with the frames at which they land, and staged members (R419). -/
def recordWrites (s : State) (live staged : List (Obj × Val)) : State :=
  if live.isEmpty && staged.isEmpty then s
  else formRecord s (recordOf s .values live staged ((live.filter (fun e => !(noDomain e.1))).map (fun e =>
    (landDomain s e.1, 8 * liveFrame s (landDomain s e.1) e.1))).eraseDups)

/-- The members whose values a copy carries: RETAINED ones. -/
def copyValues (s : State) : List (Obj × Val) :=
  s.dict.force.filter (fun e => match lookup s e.1 with | some r => r.ret | none => false)

/-- Muting windows of the ports and receive contexts that run (R324). -/
def openWindows (s : State) : State :=
  let s1 := (List.range 48).foldl (fun t p => if numF t (portObj p + 1) = 2 then setPort t p { tdmPort t p with window := true } else t) s
  (List.range 256).foldl (fun t c => if numF t (ctxObj c + 1) = 2 then setCtx t c { ctxRt t c with window := true } else t) s1

/-- A side without the token takes it: every outlet fades in over 32 samples and the muting windows open (R427, R443). -/
def gainToken (s : State) : State :=
  openWindows ((List.range 4).foldl (fun t d => setOutFade t d { dir := 1, k := 0, n := 32 }) (takeToken s))

/-- A token taken after a gap: outlets fade in, muting windows open, LAST_GAP and TAKEOVERS count (R427). -/
def takeOver (s : State) (gap : Nat) : State :=
  let s2 := setN (bump (gainToken (setRole s 0)) (pairObj + 0x015)) (pairObj + 0x016) (gap % 65536)
  raise s2 0xC003 pairObj (gap % 65536)

/-! ### Joining (R414, R417, R418) -/

/-- A side that becomes STANDBY enters mode STANDBY at its next CD0 tick. -/
def becomeStandby (s : State) : State := setRole { s with pair := { s.pair with toStandby := true } } 2

/-- The sides join (R418). A FATAL side without the token takes none (R400). -/
def joinPair (s : State) (p : LinkPeer) : State :=
  let mine := holdsToken s
  let a := sideOf s == 0
  if isFatal s && !mine && !p.token && a then s
  else if (mine && (a || !p.token)) || (!mine && !p.token && a) then
    (let s1 := setRole (if mine then s else gainToken s) 1
     let s2 := formRecord s1 (recordOf s1 .copy (copyValues s1) s1.dict.bank [])
     setSync (if mine && p.token then raise s2 0xC007 pairObj 0 else s2) 1)
  else if mine then
    (let s1 := raise (fadeOutlets s false (fun _ => 32)) 0xC007 pairObj 0
     setSync { s1 with pair := { s1.pair with giving := true } } 1)
  else setSync (becomeStandby s) 1

/-- A side that gives its token up at a join does so when its outlets have faded (R418). -/
def joinRelease (s : State) : State :=
  if s.pair.giving && (List.range 4).all (fun d => !(domOn s d) || (outFade s d).dir == 0) then
    becomeStandby (dropToken { s with pair := { s.pair with giving := false } })
  else s

/-- The link enters ON and the sides join (R414, R418). -/
def enterLink (s : State) (p : LinkPeer) : State :=
  let s1 := setN (moveUnit s pairObj 2) (pairObj + 0x00B) p.dieId
  joinPair { s1 with pair := { s1.pair with partner := some p, joinWait := false, leaseX := 0, ackPeriod := none, gotPeriod := none, records := [],
                                            front := [], items := [], seen := [], queue := [], exported := none, arriving := (0, 0) } } p

/-- Lane lock and exchange are complete: the next CD0 tick takes the link to ON, or both sides read the same side (R27, R414). -/
def execRsmLinkUp (p : LinkPeer) (s : State) : Host.Outcome State Fault Refusal :=
  .next (if unitState s pairObj = 1 then
      (if p.side = sideOf s then raise s 0xC008 pairObj (sideOf s) else { s with pair := { s.pair with linkUp := some p } })
    else s)

/-- A link in STARTING whose exchange is complete enters ON at a CD0 tick. -/
def linkTick (s : State) : State :=
  match s.pair.linkUp with
  | some p =>
    let s1 : State := { s with pair := { s.pair with linkUp := none } }
    if unitState s pairObj = 1 then enterLink s1 p else s1
  | none => s

/-- JOIN_WAIT has run out: the engine takes the token by R426 (R417). -/
def execJoinWaitExpired (s : State) : Host.Outcome State Fault Refusal :=
  .next { s with pair := { s.pair with joinWait := false } }

/-- The link has entered a life-cycle state. A side whose link stops sends its release notice: a token holder goes on alone, a standby enters
SERVICE (R431). -/
def pairEntered (s : State) (st : Nat) : State :=
  match st with
  | 3 => let s1 := sendNotice (linkLost s)
         if holdsToken s1 then setRole s1 0 else if role s1 = 2 then { s1 with pair := { s1.pair with toService := true } } else s1
  | 5 => linkLost s
  | 0 => { s with pair := { s.pair with linkUp := none, partner := if modeNow s = 5 then s.pair.partner else none } }
  | _ => s

/-- The partner's release notice. -/
def execReleaseNoticeReceived (s : State) : Host.Outcome State Fault Refusal :=
  .next (if holdsToken s then setRole s 0
    else if role s = 2 then { s with pair := { s.pair with toService := true } } else s)

/-! ### Link errors (R415) -/

/-- A Rosemary link error: one link test for the link. -/
def linkError (s : State) : State := reportError s (newTest s 6 0 0x0B 0 0)

/-- Link frame `n` is bad or not acknowledged in time: it is resent once; the second failure is a link error. -/
def execRsmFrameError (n : Nat) (s : State) : Host.Outcome State Fault Refusal :=
  if s.pair.resent.contains n then .next (linkError { s with pair := { s.pair with resent := dropAll s.pair.resent n } })
  else .next { s with pair := { s.pair with resent := n :: s.pair.resent } }

/-- Lane lock is lost. -/
def execRsmLaneLockLoss (_ : Nat) (s : State) : Host.Outcome State Fault Refusal := .next (linkError s)

/-- The PRBS31 test ends with the lanes that had bit errors; with fewer than 2 lanes left, the link enters FAULTED at the next CD0 tick (R11, R27). -/
def execLinkTestEnd (bad : List Nat) (s : State) : Host.Outcome State Fault Refusal :=
  match findTest s 6 0 with
  | none => .next s
  | some t =>
    let s0 := endTest s 6 0
    if bad.isEmpty then .next (writeLog s0 t 1 0 0 false)
    else
      let lost := (sortUp bad).filter (fun l => !(s0.pair.lanesOut.contains l))
      let n := numF s0 (pairObj + 0x00C) - lost.length
      let s1 := setN (setN { s0 with pair := { s0.pair with lanesOut := s0.pair.lanesOut ++ lost } } (pairObj + 0x00C) n) (arbObj 9 + 1) (n * 875 / 10)
      let s2 := lost.foldl (fun u l => raise u 0xC009 pairObj l) s1
      let s3 := writeLog s2 t 2 0 (if n < 2 then pairObj else 0) false
      .next (if n < 2 ∧ unitState s3 pairObj ≠ 0 then faultDue s3 pairObj else s3)

/-! ### Export and lease (R421 to R425) -/

/-- An exported delay block with the standby's own DRAM line, whose samples come in an item of their own. -/
def ownLine (own x : DelayRt) : DelayRt :=
  { x with ring := own.ring, inbuf := own.inbuf, prev := own.prev, odd := own.odd, lost := own.lost }

/-- The standby's line gains the samples of a frame, as the active side's input buffer does. -/
def takeLine (s : State) (o : Obj) (d : DelayRt) (xs : List Int) : DelayRt :=
  let us := if areaOf o = 5 then 500000 else 2500000
  { writeRing d (ringLength (usToSamples us (domHz s (ownerDom s o)))) with inbuf := xs }

/-- The unit whose exported state carries a ramp: a dynamics unit's goes with the strip, bus or matrix that it serves. -/
def rampOwner (s : State) (o : Obj) : Obj := if areaOf o = 8 then servedBy s (instOf o) else baseOf o

/-- The ramps of a unit's members. -/
def unitRamps (s : State) (u : Obj) : Tab Ramp := s.audio.ramps.filter (fun e => areaOf e.1 != 6 && rampOwner s e.1 == u)

/-- Puts the ramps of a unit's members in place of those it had. -/
def putRamps (s : State) (u : Obj) (rs : Tab Ramp) : State :=
  rs.foldl (fun t e => putRamp t e.1 e.2) ((unitRamps s u).foldl (fun t e => putRamp t e.1 Ramp.none) s)

/-- An exported item takes the place of the standby's own; a node that differs from its bookkeeping counts (R421). -/
def applyExport (s : State) (f : Nat) (e : ExportData) : State :=
  match e with
  | .unit o r rs => putUnit (putRamps s o rs) o { r with delay := ownLine (unitRt s o).delay r.delay }
  | .auto o r => { s with audio := { s.audio with auto := tput s.audio.auto AutoRt.rest o r } }
  | .proc o r rs => putOut (putRamps s o rs) o { r with delay := ownLine (outRt s o).delay r.delay }
  | .ramp o r => if rampOf s o ≠ r then bump (putRamp s o r) (pairObj + 0x014) else s
  | .line o xs =>
    if areaOf o = 5 then putUnit s o { unitRt s o with delay := takeLine s o (unitRt s o).delay xs }
    else putOut s o { outRt s o with delay := takeLine s o (outRt s o).delay xs }
  | .stream c n st q p =>
    let x := ctxRt s c
    if 256 ≤ c then setCtx (setN s (ctxObj c + 0x020) n) c { x with accStamp := st }
    else
      let m := ((p + linkSamples s c : Nat) : Int) - numF s (ctxObj c + 9)
      setCtx s c { x with ssrc := if q = 0 then x.ssrc else some q, nextSeq := if n < 65536 then some n else none,
                          bases := [(f, (m % 2 ^ 32).toNat)] }

/-- The place of the item that continues the export of a frame on the standby. -/
def nextItem (s : State) (frame : Nat) : Nat := if s.pair.arriving.1 = frame then s.pair.arriving.2 else 0

/-- An export item reaches the standby, which writes it. The last one of an export that has arrived whole, before the tick after the export's period,
records X and, after COPYING, begins FILLING (R419, R423, R424). -/
def execExportItemReceived (e : ExportItem) (s : State) : Host.Outcome State Fault Refusal :=
  if role s = 2 ∧ linkOn s then
    let whole := e.no == nextItem s e.frame
    let s0 : State := { s with pair := { s.pair with arriving := (e.frame, if whole then e.no + 1 else nextItem s e.frame) } }
    let s1 := match e.data with | some d => applyExport s0 e.frame d | none => s0
    if e.last ∧ whole ∧ frameOf s1 0 ≤ e.frame + 2 then
      let k := e.handover.getD s1.pair.handover
      let s2 := { s1 with pair := { s1.pair with leaseX := e.expiry, gotPeriod := some (frameOf s1 0), handover := k } }
      let s3 := if e.handover.isSome ∧ numF s2 (pairObj + 8) ≠ 1 ∧ numF s2 (pairObj + 8) ≠ 2 then
          setN { s2 with pair := { s2.pair with passed := false } } (pairObj + 8) 1 else s2
      .next (if numF s3 (pairObj + 4) = 1 then setSync s3 2 else s3)
    else .next s1
  else .next s

/-- Beats of an item by the table of R421; those of a strip count the two dynamics units that serve it, those of a processor its limiter.
Streams and ramps are counted together. -/
def itemBeats (e : ExportData) : Nat :=
  match e with
  | .unit o .. => if areaOf o = 5 then 6 else 2
  | .auto .. => 0
  | .proc .. => 2
  | .line .. => 1
  | .ramp .. => 0
  | .stream .. => 0

/-- Whether an item is a stream's. -/
def isStreamItem (e : ExportData) : Bool := match e with | .stream .. => true | _ => false
/-- Whether an item is a node's ramp. -/
def isRampItem (e : ExportData) : Bool := match e with | .ramp .. => true | _ => false

/-- The items of the export under way. -/
def exportItems (s : State) : List ExportData := s.pair.items.flatMap (·.2)

/-- Beats of the export under way (R421, R422): its items, 3/8 beat for a node, 1/4 for a stream, and the configuration records that wait,
whose length is open. -/
def exportBeats (s : State) : Nat × State :=
  let l := exportItems s
  let q := drawUpTo s (if s.pair.records.isEmpty then 0 else 192 * frameLen s)
  (l.foldl (fun a e => a + itemBeats e) 0 + ((l.filter isStreamItem).length + 3) / 4 + (3 * (l.filter isRampItem).length + 7) / 8 + q.1, q.2)

/-- What an item tells of: its kind and its object; none for what a delay line gained, which is sent once. -/
def itemKey (e : ExportData) : Option (Nat × Nat) :=
  match e with
  | .unit o .. => some (0, o)
  | .auto o _ => some (1, o)
  | .proc o .. => some (2, o)
  | .ramp o _ => some (3, o)
  | .stream c .. => some (4, c)
  | .line .. => none

/-- The items that an acknowledged export has carried count as changed no longer (R423). -/
def seenItems (s : State) : List ExportData :=
  let new := (exportItems s).filter (fun e => (itemKey e).isSome)
  new ++ s.pair.seen.filter (fun e => !(new.any (fun x => itemKey x == itemKey e)))

/-- Whether an item has changed since the last acknowledged export (R421; log entry 204). -/
def changedItem (s : State) (e : ExportData) : Bool := !(s.pair.seen.contains e)

/-- The ramp queue without the nodes that an export has carried. -/
def restQueue (s : State) : List Obj :=
  s.pair.queue.filter (fun o => !((exportItems s).any (fun e => itemKey e == some (3, o))))

/-- The acknowledgement of the export of a period. In time, it renews the lease to P + L (R424). -/
def execExportAckReceived (p : Nat) (s : State) : Host.Outcome State Fault Refusal :=
  if role s = 1 ∧ linkOn s ∧ !(isFatal s) ∧ p = frameOf s 0 ∧ s.pair.ackPeriod ≠ some p then
    let q := exportBeats s
    let s1 := bump { q.2 with pair := { q.2.pair with ackPeriod := some p, leaseX := p + leaseLen s, records := [],
                                                      seen := seenItems s, queue := restQueue s } } (pairObj + 0x010)
    let s2 := setN s1 (pairObj + 0x012) q.1
    let s3 := if numF s2 (pairObj + 0x013) < q.1 then setN s2 (pairObj + 0x013) q.1 else s2
    .next (if numF s3 (pairObj + 4) = 1 then setSync s3 2 else s3)
  else .next s

/-- Every delay line and history is filled (R419). -/
def execFillingEnd (s : State) : Host.Outcome State Fault Refusal :=
  .next (if numF s (pairObj + 4) = 2 then setSync s 3 else s)

/-- Whether the lease is held uncounted: from FADE_OUT to the end of FADE_IN (R75, R431). -/
def leaseHeld (s : State) : Bool := decide (2 ≤ numF s (ob 1 0 4))

/-- The active side has no renewal by tick X - 1: it stops driving and becomes ORPHAN (R425), and PEER_OWN_N as it reads at this tick is the
first that counts for R426. -/
def execLeaseExpired (s : State) : Host.Outcome State Fault Refusal :=
  let x := s.pair.leaseX
  if role s = 1 ∧ holdsToken s ∧ x ≠ 0 ∧ x ≤ frameOf s 0 + 1 ∧ !(leaseHeld s) then
    let s1 := dropToken s
    let s2 : State := { s1 with pair := { s1.pair with peerHigh := if isOn s (pairObj + 0x00A) then 0 else 1 } }
    .next (setRole (raise s2 0xC002 pairObj (x % 2 ^ 32)) 3)
  else .next s

/-- The standby meets tick X + 1 without a later export (R425, R427). -/
def execStandbyTakeover (s : State) : Host.Outcome State Fault Refusal :=
  let x := s.pair.leaseX
  if role s = 2 ∧ x ≠ 0 ∧ x + 1 ≤ frameOf s 0 ∧ !(leaseHeld s) then
    (if isOn s (pairObj + 0x00A) then .next (raise s 0xC007 pairObj 1)
     else
       let m := match s.pair.partner with | some p => p.mode | none => 1
       let gap := frameOf s 0 + leaseLen s + 1 - x + (if frameLen s = 1 then 2 else 0)
       let s1 := holdDomains (refuseHandover s)
       .next (setSync (takeOver { setN s1 (ob 1 0 0) m with pair := { s1.pair with toStandby := false } } gap) 0))
  else .next s

/-- An ORPHAN takes the token once PEER_OWN_N has read high at 4 ticks on side A or 6 on side B (R426). -/
def execOrphanTakeToken (s : State) : Host.Outcome State Fault Refusal :=
  let need := if sideOf s = 0 then 4 else 6
  if role s = 3 ∧ modeNow s ≠ 6 ∧ need ≤ s.pair.peerHigh ∧ !s.pair.joinWait ∧ !(isFatal s) ∧ 7 ≤ s.boot.step then
    .next (takeOver s (frameOf s 0 - s.pair.offAt))
  else .next s

/-! ### Planned handover (R429) -/

/-- A HANDOVER write. -/
def requestHandover (s : State) : Nat × State :=
  let h := numF s (pairObj + 8)
  if role s ≠ 1 ∨ numF s (pairObj + 4) ≠ 3 ∨ h = 1 ∨ h = 2 ∨ inTransition s then (stBusy, s)
  else (stOk, setN { s with pair := { s.pair with handover := frameOf s 0 + 3, passed := false } } (pairObj + 8) 1)

/-- Tick K + 1: both sides compute from here on, the standby in the active side's mode. -/
def beginOverlap (s : State) : State :=
  if numF s (pairObj + 8) = 1 ∧ frameOf s 0 = s.pair.handover + 1 then
    (let s1 := setN s (pairObj + 8) 2
     if role s1 = 2 then setN s1 (ob 1 0 0) (match s1.pair.partner with | some p => p.mode | none => 1) else s1)
  else s

/-- EGRESS of frame K: the OUTOWN_N lines swap; packets begun before K:0 stay with the old side. -/
def passToken (s : State) (f : Nat) : State :=
  if numF s (pairObj + 8) = 2 ∧ !s.pair.passed ∧ f = s.pair.handover then
    (let late := ((List.range 256).map (256 + ·)).filter (fun c => !((ctxRt s c).acc.isEmpty))
     let t := if numF s (ob 2 0x10 1) = 2 then stampNow s else 0
     let s1 : State := { s with pair := { s.pair with passed := true, late := late } }
     let s2 := setN s1 (pairObj + 0x018) t
     if holdsToken s2 then dropToken s2
     else openWindows ((List.range 4).foldl (fun u d => setOutFade u d { dir := 2, k := 0, n := 0 }) (takeToken s2)))
  else s

/-- A domain leaves the active side's clock for the first usable entry of its own list, without holdover (R420). -/
def ownReference (s : State) (d : Nat) : State :=
  if domOn s d then (match firstUsable s d with | some c => switchTo s d c | none => enterHoldover s d) else s

/-- The tick after the last context has moved: the sides have changed roles. A new side whose link is gone goes on alone. -/
def endHandover (s : State) : State :=
  if numF s (pairObj + 8) = 2 ∧ s.pair.passed ∧ s.pair.late.isEmpty then
    (let k := s.pair.handover
     let s1 := raise (bump (setN s (pairObj + 8) 3) (pairObj + 0x017)) 0xC004 pairObj (k % 2 ^ 32)
     if holdsToken s1 then
       (let s2 := setRole { s1 with pair := { s1.pair with leaseX := 0, ackPeriod := none, seen := [] } } (if linkOn s1 then 1 else 0)
        (List.range 4).foldl ownReference s2)
     else setN (setRole { s1 with pair := { s1.pair with gotPeriod := some (frameOf s1 0), leaseX := 0 } } 2) (ob 1 0 0) 5)
  else s

/-! ### What a CD0 tick does to the pair -/

/-- PEER_OWN_N, sampled at the tick (R426). -/
def samplePeer (s : State) (low : Bool) : State :=
  setN { s with pair := { s.pair with peerHigh := if low then 0 else s.pair.peerHigh + 1 } } (pairObj + 0x00A) (if low then 1 else 0)

/-- The export whose transmission ended in the period before: lost if no acknowledgement came, or not received whole (R423). -/
def checkExport (s : State) : State :=
  let p := frameOf s 0 - 1
  if role s = 1 ∧ linkOn s ∧ s.pair.exported = some p ∧ !(leaseHeld s) ∧ !(isFatal s) then
    (if s.pair.ackPeriod = some p then s
     else
       let s1 := refuseHandover (raise (bump s (pairObj + 0x011)) 0xC005 pairObj (p % 2 ^ 32))
       if numF s1 (pairObj + 4) = 3 then setSync s1 2 else s1)
  else if role s = 2 ∧ linkOn s ∧ numF s (pairObj + 4) = 3 ∧ s.pair.gotPeriod ≠ some p ∧ !(leaseHeld s) then setSync (refuseHandover s) 2
  else s

/-- Frames to the current X; a held lease moves on with the tick. -/
def countLease (s : State) : State :=
  let x := if leaseHeld s ∧ s.pair.leaseX ≠ 0 then s.pair.leaseX + 1 else s.pair.leaseX
  setN { s with pair := { s.pair with leaseX := x } } (pairObj + 9) (min 64 (x - frameOf s 0))

/-- A side that became STANDBY enters the mode at its tick, its outlets silent (R418). -/
def enterStandby (s : State) : State :=
  if s.pair.toStandby then setN { s with pair := { s.pair with toStandby := false } } (ob 1 0 0) 5 else s

/-- Everything that a CD0 tick does to the pair. -/
def tickPairRt (s : State) (low : Bool) : State :=
  countFill (endHandover (beginOverlap (countLease (checkExport (enterStandby (samplePeer s low))))))

end Sys2Proof.Machine
end

