-- ==== Sys2Proof/Machine/Validate.lean ====
section
/-!
DEFINITION. Machine/Validate.lean: the configuration that a commit would make, and steps 1 to 4 of its validation (R208). A
configuration is a state whose dictionary holds the new values, so that the functions of Dict read it.
-/
namespace Sys2Proof.Machine

/-! ### Configurations -/

/-- Whether a member is RETAINED (R226). -/
def isRetained (o : Obj) : Bool := match rowOf o with | some r => r.ret | none => false

/-- Whether an object exists in a configuration's mode. -/
def present (c : State) (o : Obj) : Bool := (lookup c o).isSome

/-- A unit that an adaptation left dormant for its format: its ENABLE stands among the suspended members (R322, R351). -/
def isDormant (c : State) (u : Obj) : Bool := c.mode.suspended.contains u

/-- The tile of a unit of areas 5 to 9. -/
def unitTile (c : State) (o : Obj) : Nat :=
  let i := instOf o
  match areaOf o with
  | 5 => stripTile c i
  | 8 => stripTile c (i / 2)
  | 9 => if i < 0x110 then i - 0x100 else placeTile o
  | _ => tile7 c i

/-- Whether a unit takes part in the checks of a configuration (R466): its tile, and for placements, ports, contexts, rings and
bridge channels its own ENABLE, is TRUE. -/
def takesPart (c : State) (o : Obj) : Bool :=
  let u := baseOf o
  let i := instOf o
  match areaOf o with
  | 2 => if i < 0x100 then true else isOn c u
  | 3 => isOn c u && decide (i < (lim c).ports) && !isDormant c u
  | 4 => if i < 0x200 then isOn c u && !isDormant c u
         else if 0x320 ≤ i ∧ i < 0x340 then isOn c u && !isDormant c u
         else if 0x400 ≤ i ∧ i < 0x800 then (ringOfChannel c 32 (i - 0x400)).isSome
         else true
  | 5 => if i < 0x400 then decide (i < (lim c).strips) && tileEnabled c (unitTile c o) else isOn c u
  | 6 => present c o && tileEnabled c (unitTile c o)
  | 7 => present c o && tileEnabled c (unitTile c o)
  | 8 => present c o && tileEnabled c (unitTile c o)
  | 9 => if i < 0x100 then true else if i < 0x110 then isOn c u else isOn c u && tileEnabled c (unitTile c o)
  | _ => true

/-- The configuration in which `vs` have landed. A write ends the suspension of its member, the dormancy of its unit and the drop of
its placement (R71, R72, R322). -/
def configWith (s : State) (vs : List (Obj × Val)) : State :=
  let t := vs.foldl (fun t e => setF t e.1 e.2) s
  let t1 := { t with mode := { t.mode with suspended := s.mode.suspended.filter (fun o =>
    !(vs.any (fun e => e.1 == o || (memOf o == 0 && areaOf o != 5 && areaOf o != 6 && baseOf e.1 == o)))) } }
  (listed t1 (fun o => isPlacement o && memOf o == 0x00B && numF t1 o == 2)).foldl (fun u o =>
    if vs.any (fun e => baseOf e.1 == baseOf o) then setN u o 0 else u) t1

/-! ### Signals and their domains (R21, R22) -/

/-- The receive context that holds a signal number. -/
def contextOf (c : State) (x : Nat) : Option Nat :=
  (List.range 256).find? (fun k => isOn c (ctxObj k) && (ctxRt c k).signals.contains x)

/-- Writers of user signals and effect returns, one for each naming of a signal (log entry 163): signal, the member that names it or the
placement, domain. -/
def userWriters (c : State) : List (Nat × Obj × Nat) :=
  ((fixedWriters c).filter (fun e => takesPart c e.1)).map (fun e => (e.2, (writerSwitch e.1).getD e.1, ownerDom c e.1))
  ++ ((enabledPlaces c).filter (fun p => !isSlotPlace p && takesPart c p)).flatMap (fun p =>
       (scatterSignals c p).map (fun x => (x, p, ownerDom c p)))

/-- The domain of a signal; none without a producer. -/
def signalDomain (c : State) (x : Nat) : Option Nat :=
  if x < 0x600 then some (numF c (ob 3 (x / 32) 2))
  else if x < 0xE00 then (contextOf c x).map (fun k => ownerDom c (ctxObj k))
  else if x < 0x1200 then some (tileDom c (stripTile c (x - 0xE00)))
  else if x < 0x1300 then some (tileDom c (busTile c (x - 0x1200)))
  else if x < 0x1380 then some (tileDom c (matTile c (x - 0x1300)))
  else if 0x1400 ≤ x ∧ x < 0x1800 then (ringOfChannel c 48 (x - 0x1400)).map (fun r => numF c (ob 4 (0x300 + r) 2))
  else ((userWriters c).find? (fun e => e.1 == x)).map (fun e => e.2.2)

/-- Whether a consumer of domain `d` names a signal of another domain. -/
def crosses (c : State) (d x : Nat) : Bool :=
  match signalDomain c x with
  | some e => e != d
  | none => false

/-! ### References that break a domain rule (R22, R68, R149, R163, R172, R194) -/

/-- The phase and domain in which a dynamics unit runs. -/
def unitHome (c : State) (u : Nat) : Nat × Nat :=
  match lentTo [] c u with
  | some o => (ownerDom c (unitObj u), if instOf o < 0x100 then 1 else 2)
  | none => (ownerDom c (unitObj u), 0)

/-- Populated dynamics units of enabled tiles whose LINK names a group, in ascending number. -/
def linkGroup (c : State) (g : Nat) : List Nat :=
  ((listed c (fun o => areaOf o == 8 && memOf o == 0x050 && numF c o == g)).filter (takesPart c)).map instOf

/-- Link groups in use. -/
def linkGroups (c : State) : List Nat := sortUp ((listed c (fun o => areaOf o == 8 && memOf o == 0x050)).map (numF c))

/-- Elements that differ from the first in a key. -/
def oddOnes {α β : Type} [DecidableEq β] (l : List α) (key : α → β) : List α :=
  match l with
  | [] => []
  | a :: r => r.filter (fun b => decide (key b ≠ key a))

/-- Whether a node joins a source and a row of two domains with a gain (R163). -/
def badNode (c : State) (o : Obj) : Bool :=
  let i := instOf o
  let t := if i < 0x100 then stripTile c (memOf o) else busTile c (memOf o)
  numF c o != negInf && takesPart c o && tileEnabled c t && tileDom c t != ownerDom c o

/-- Whether a bridge channel's source and destination share a domain, or neither is CD0 (R68). -/
def badBridge (c : State) (u : Obj) : Bool :=
  match signalDomain c (numF c (u + 1)) with
  | some e => e == numF c (u + 3) || (e != 0 && numF c (u + 3) != 0)
  | none => false

/-- The members of enabled units whose reference breaks a domain rule. -/
def brokenRefs (c : State) : List Obj :=
  ((List.range (lim c).strips).flatMap (fun k =>
    let u := ob 5 k 0
    if takesPart c u then
      (if crosses c (ownerDom c u) (numF c u) then [u] else [])
      ++ (if isOn c (u + 0x200) && crosses c (ownerDom c u) (numF c (u + 0x202)) then [u + 0x202] else [])
    else []))
  ++ (((listed c (fun o => areaOf o == 8 && memOf o == 0x040 && numF c o == 1)).filter (takesPart c)).map (· + 1)).filter
       (fun o => crosses c (ownerDom c o) (numF c o))
  ++ (linkGroups c).flatMap (fun g => (oddOnes (linkGroup c g) (unitHome c)).map (fun u => unitObj u + 0x050))
  ++ ((listed c (fun o => isTableMember o && !(areaOf o == 3 && memOf o == 0x010) && bit (numF c o) 15 == 1)).filter
       (fun o => takesPart c o && present c o)).filter (fun o => crosses c (ownerDom c o) (bits (numF c o) 12 0))
  ++ (listed c (fun o => areaOf o == 6 && decide (memOf o < 0x400) && present c o)).filter (badNode c)
  ++ (listed c (fun o => areaOf o == 7 && decide (instOf o < 0x200) && memOf o == 0x020 && takesPart c o)).filter (fun o =>
       let u := numF c o
       u != 0xFFFF && (decide ((lim c).units ≤ u) || ownerDom c (unitObj u) != ownerDom c o))
  ++ (((listed c (fun o => isPlacement o && memOf o == 0 && numF c o == 1 && !isSlotPlace o)).filter
       (fun p => takesPart c p && numF c (p + 0x00B) != 2)).map (· + 9)).filter
       (fun o => (listEntries (valOctets (forceVal c o))).any (fun e => crosses c (ownerDom c o) e.2))
  ++ ((listed c (fun o => areaOf o == 2 && decide (0x100 ≤ instOf o) && memOf o == 0 && numF c o == 1)).filter (badBridge c)).map (· + 1)
  ++ (List.range 8).flatMap (fun g =>
       if isOn c (ob 5 (0x401 + g) 0) then
         (oddOnes (automixMembers c (g + 1)) (fun k => tileDom c (stripTile c k))).map (fun k => ob 5 k 0x500)
       else [])

/-! ### Step 1: rate class and mode limits -/

/-- Placements that take part in a configuration: enabled and placed, on enabled tiles, slots within the mode's (R466). -/
def usedPlaces (c : State) : List Obj :=
  (enabledPlaces c).filter (fun p => takesPart c p && (!(isSlotPlace p) || decide (placeNo p < (lim c).strips / 16)))

/-- Placements that run an image of area 9: free ones, and slots whose IMAGE names one of 0x00 to 0xEF (R131). -/
def imagePlaces (c : State) : List Obj :=
  (usedPlaces c).filter (fun p => !(isSlotPlace p) || decide (numF c (p + 1) < 0xF0))

/-- Whether the header of an image lists a rate class and the frame length of a configuration. -/
def headerFits (c : State) (b : Octets) (cls : Nat) : Bool :=
  let h := imageOf b
  bit h.classes (match cls with | 1 => 0 | 2 => 1 | _ => 2) == 1 && bit h.frames (if frameLen c = 1 then 1 else 0) == 1

/-- Whether an image's header lists the rate class and frame length of a placement's domain. -/
def imageFits (c : State) (p : Obj) : Bool := headerFits c (placeImage c p) (unitClass c p)

/-- Output processors of enabled tiles. -/
def liveProcs (c : State) : List Obj :=
  (((List.range (lim c).buses).map (fun b => ob 7 (0x200 + b) 0)) ++ ((List.range (lim c).mats).map (fun m => ob 7 (0x300 + m) 0))).filter
    (takesPart c)

/-- Enabled TDM ports that take part. -/
def livePorts (c : State) : List Nat := (List.range 48).filter (fun p => takesPart c (portObj p))
/-- Enabled stream contexts that take part. -/
def liveContexts (c : State) : List Nat := (List.range 512).filter (fun k => takesPart c (ctxObj k))
/-- Enabled audio rings that take part. -/
def liveRings (c : State) : List Nat := ((List.range 32).map (· + 32)).filter (fun r => takesPart c (ringObj r))

/-- The largest channel count of a context (R328). -/
def mostChannels (c : State) (k : Nat) : Nat := min 64 (1440 / (perPacket c k * wireBytes c k))

/-- Step 1 of R208: objects that fail with MODE_FORBIDS (R65, R133, R179, R320, R350). -/
def step1 (s c : State) : List Obj :=
  ([1, 2, 3].filter (fun d => decide (rateClass (rate0 c) < rateClass (domRate c d))
      && (isOn c (ob 2 d 0) || forceVal s (ob 2 d 2) != forceVal c (ob 2 d 2)))).map (fun d => ob 2 d 2)
  ++ (imagePlaces c).filter (fun p => (placeImage c p).length != 0 && !imageFits c p)
  ++ ((liveProcs c).filter (fun o => isOn c (o + 0x010) && decide (4096 / unitClass c o < numF c (o + 0x011)))).map (· + 0x011)
  ++ ((livePorts c).filter (fun p => decide (1024 / unitClass c (portObj p) < numF c (portObj p + 3)))).map (portObj · + 3)
  ++ ((liveContexts c).filter (fun k => decide (mostChannels c k < numF c (ctxObj k + 5)))).map (ctxObj · + 5)

/-! ### Step 2: ranges of several objects -/

/-- Words of a placement's COEF reservation, both halves for a strip slot (R216). -/
def coefWords (c : State) (p : Obj) : Nat :=
  (valOctets (forceVal c (p + 7))).length / 4 * (if isSlotPlace p then 2 else 1)

/-- Step 2: objects that fail with RANGE (R133, R155, R272, R320, R350). -/
def step2 (c : State) : List Obj :=
  let cap := ob 5 0x400 0
  (usedPlaces c).filter (fun p => decide (0x6000 < numF c (p + 8) + coefWords c p)
      || (isSlotPlace p && decide (numF c (p + 1) < 0xF0) && decide (0x3FC0 < numF c (p + 5))))
  ++ (if (lim c).strips < numF c (cap + 0x011) + numF c (cap + 0x012) ∨ (lim c).host < numF c (cap + 0x013) + numF c (cap + 0x012)
      then [cap] else [])
  ++ ((liveRings c).filter (fun r => numF c (ringObj r + 4) == 0
        || decide ((lim c).host < numF c (ringObj r + 3) + numF c (ringObj r + 4)))).map ringObj
  ++ ((livePorts c).filter (fun p =>
        let o := portObj p
        decide (numF c (o + 3) < numF c (o + 9) + numF c (o + 6) + numF c (o + 4) * numF c (o + 5))
        || (numF c (o + 3) % 2 == 1 && numF c (o + 7) == 1))).map portObj
  ++ ((liveContexts c).filter (fun k => decide (k < 256)
        && decide (numF c (ctxObj k + 0x012) * domHz c (ctxDom c k) < perPacket c k * 1000000))).map ctxObj

/-! ### The engine's own words on a lane (R176, R468) -/

/-- A buffer of the engine in a lane's bank pair: what it belongs to, its words, and the multiple its base stands on. -/
structure LaneBuf where
  key   : Obj × Nat
  words : Nat
  align : Nat
  deriving DecidableEq, Repr

/-- The context block and the DMA buffers of a program with one gather and one scatter entry (R80, R92), for an output processor the tap buffer and
the input buffer of its delay line and the words of a delay below 64 samples (R95, R96), and the program's other histories and working words,
those of its EQ among them, whose number is not published (R158, R468; log entry 212). -/
def smallBufs (c : State) (o : Obj) : List LaneBuf :=
  [⟨(o, 1), 12, 16⟩, ⟨(o, 2), frameLen c, 1⟩, ⟨(o, 3), frameLen c, 1⟩]
  ++ (if 0x200 ≤ instOf o then [⟨(o, 4), frameLen c, 1⟩, ⟨(o, 5), frameLen c, 1⟩, ⟨(o, 6), 64, 1⟩] else [])
  ++ [⟨(o, 7), (Config.systemWords (decide (0x200 ≤ instOf o)) (frameLen c)).toNat, 1⟩]

/-- The buffers of a strip slot: those of its lists, gather entries from 0 and scatter entries from 4 upwards, and its working words, which
are not published (R137, R468; log entry 96). -/
def slotBufs (c : State) (p : Obj) : List LaneBuf :=
  let n := listCounts c p
  (List.range n.1).map (fun e => ⟨(p, e), frameLen c, 1⟩) ++ (List.range n.2).map (fun e => ⟨(p, 4 + e), frameLen c, 1⟩)
  ++ [⟨(p, 8), (Config.slotWords (slotImageOn c p) (frameLen c)).toNat, 1⟩]

/-- The engine's buffers on a lane, in the order in which the model lays them out (log entry 171): a history of T + 8 words for each output
processor on a base that R91 aligns, then what the other system placements and the strip slots use. -/
def laneBufs (c : State) (t l : Nat) : List LaneBuf :=
  if !(tileEnabled c t) then []
  else
    (laneProcs c t l).flatMap (fun o =>
      let h := (firSize c o).1 + 8
      (⟨(o, 0), h, 2 ^ ceilLog2 h⟩ : LaneBuf) :: smallBufs c o)
    ++ (systemProgs c t l .bus ++ systemProgs c t l .matrixP).flatMap (smallBufs c)
    ++ (slotPlaces c t l).flatMap (slotBufs c)

/-- The base of a buffer below word `low`; one that would cross from bank B into bank A starts below word 0x2000 (R468). -/
def baseBelow (low : Nat) (b : LaneBuf) : Option Nat :=
  let down := fun (x : Nat) => if x < b.words then none else some ((x - b.words) / b.align * b.align)
  match down low with
  | some a => if a < 0x2000 ∧ 0x2000 < a + b.words then down 0x2000 else some a
  | none => if 0x2000 < low then down 0x2000 else none

/-- Lays buffers out downward: the bases, and none where one does not fit. -/
def layBufs : Nat → List LaneBuf → Option (List ((Obj × Nat) × Nat))
  | _, [] => some []
  | low, b :: r =>
    match baseBelow low b with
    | some a => (layBufs a r).map (fun l => (b.key, a) :: l)
    | none => none

/-- The engine's bases on a lane. -/
def laneLayout (c : State) (t l : Nat) : Option (List ((Obj × Nat) × Nat)) := layBufs 0x4000 (laneBufs c t l)

/-- The bank address of a buffer of the engine. -/
def bufferAt (c : State) (n : Nat) (key : Obj × Nat) : Nat :=
  match (laneLayout c (n / 16) (n % 16)).bind (fun l => l.find? (fun e => e.1 == key)) with
  | some e => e.2
  | none => 0

/-- Coefficient words of the system placements and the library program on a lane. -/
def engineCoefs (c : State) (t l : Nat) : Nat :=
  if !(tileEnabled c t) then 0
  else
    ((laneProcs c t l).map (fun o => (firSize c o).1 * (firSize c o).2)).foldl (· + ·) 0
    + (Config.libraryCoefs ((slotPlaces c t l).filter (fun p => !(slotImageOn c p))).length).toNat
    + (Config.nodeCoefs (systemProgs c t l .bus ++ systemProgs c t l .matrixP).length).toNat

/-- ENGINE_LOW and ENGINE_COEF_LOW of a lane: the lowest word that the engine uses. -/
def engineLow (c : State) (t l : Nat) : Nat :=
  match laneLayout c t l with
  | some b => b.foldl (fun m e => min m e.2) 0x4000
  | none => 0
def engineCoefLow (c : State) (t l : Nat) : Nat := 0x6000 - engineCoefs c t l

/-! ### Step 3: writers, domains and lists -/

/-- The context blocks of a placement: one of 12 words, and for a strip slot the second path's (R80, R467). -/
def contextBlocks (c : State) (p : Obj) : List (Nat × Nat) :=
  let w := numF c (p + 5)
  (w, 12) :: (if isSlotPlace p then [(w + 16, 12)] else [])

/-- The first word past the context block and, for a slot with a customer image, the exchange area (R133, R467). -/
def contextEnd (c : State) (p : Obj) : Nat :=
  numF c (p + 5) + (if isSlotPlace p then (if numF c (p + 1) < 0xF0 then 64 else 28) else 12)

/-- Whether two spans share a word. -/
def overlaps (a b : Nat × Nat) : Bool := decide (a.1 < b.1 + b.2) && decide (b.1 < a.1 + a.2)

/-- Placements whose image or lists break R133. -/
def badImages (c : State) : List Obj :=
  (imagePlaces c).filter (fun p =>
    let b := placeImage c p
    let h := imageOf b
    let n := fun (o : Obj) => if isSlotPlace p then 0 else (listEntries (valOctets (forceVal c o))).length
    b.length == 0 || n (p + 9) != h.gather || n (p + 0x00A) != h.scatter)

/-- Placements whose context block overlaps another's, or whose context, exchange area or coefficients reach an engine word (R133). -/
def badWords (c : State) : List Obj :=
  let ps := usedPlaces c
  ps.filter (fun p =>
    let l := placeLane c p
    ps.any (fun q => q != p && placeLane c q == l && (contextBlocks c p).any (fun a => (contextBlocks c q).any (overlaps a)))
    || decide (engineLow c (l / 16) (l % 16) < contextEnd c p)
    || (coefWords c p != 0 && decide (engineCoefLow c (l / 16) (l % 16) < numF c (p + 8) + coefWords c p)))

/-- Placements that an automix group needs and a program of the user holds. -/
def automixClash (c : State) : List Obj :=
  let ts := automixTiles c
  (ts.2.map (fun t => ob 9 (0x1000 + 0x100 * t + 0xFE) 0) ++ ts.1.map (fun t => ob 9 (0x1000 + 0x100 * t + 0xFF) 0)).filter (isOn c)

/-- The first of some members of a unit that changes. -/
def changes (s c : State) (u : Obj) (lo hi : Nat) : Option Obj :=
  ((List.range (hi + 1 - lo)).map (u + lo + ·)).find? (fun o => decide (forceVal s o ≠ forceVal c o))

/-- The network ports of a context's legs with their destinations. -/
def ctxLegs (c : State) (k : Nat) : List (Nat × Nat) :=
  let o := ctxObj k
  ([0, 1].filter (fun l => bit (numF c (o + 4)) l == 1)).map (fun l => (2 * numF c (o + 3) + l, numF c (o + 0x00B + l)))

/-- Receive contexts that share a port, destination and UDP port, or differ within a group (R350). -/
def badContexts (c : State) : List Nat :=
  let rx := (liveContexts c).filter (· < 256)
  rx.filter (fun k =>
    let o := ctxObj k
    rx.any (fun j =>
      let q := ctxObj j
      j != k && ((numF c (o + 0x00D) == numF c (q + 0x00D) && (ctxLegs c k).any (fun e => (ctxLegs c j).contains e))
        || (numF c (o + 0x013) != 0 && numF c (o + 0x013) == numF c (q + 0x013)
            && (numF c (o + 2) != numF c (q + 2) || numF c (o + 8) != numF c (q + 8))))))

/-- Whether two rings of one direction carry a common channel. -/
def ringsShare (c : State) (r q : Nat) : Bool :=
  r != q && decide (r < 48) == decide (q < 48)
  && overlaps (numF c (ringObj r + 3), numF c (ringObj r + 4)) (numF c (ringObj q + 3), numF c (ringObj q + 4))

/-- Whether a tile has an enabled delay line (R98, R145, R174). -/
def tileLines (c : State) (t : Nat) : Nat :=
  if tileEnabled c t then
    ((List.range ((lim c).strips / 16)).filter (fun j => isOn c (ob 5 ((lim c).strips / 16 * t + j) 0x050))).length
    + ((tileProcs c t).filter (isOn c)).length
  else 0

/-- Capture is enabled. -/
def captureOn (c : State) : Bool := isOn c (ob 5 0x400 0)

/-- The channels whose TILES mask names a tile. -/
def tileChannels (c : State) (t : Nat) : List Nat := [0, 1].filter (fun ch => bit (numF c (dramObj ch + 0x012)) t == 1)

/-- Tiles and channels that break R390. A channel is READY with STATUS 2; one that FAILED in SERVICE is refused at step 4 (R388). -/
def badMasks (s c : State) : List Obj :=
  ((List.range 16).filter (fun t =>
      (decide (0 < tileLines c t) || captureOn c)
      && (match tileChannels c t with
          | [ch] => numF s (dramObj ch) != 2 && !(modeNow s == 6 && numF s (dramObj ch) == 3)
          | _ => true)
    || ((decide (0 < tileLines s t) || decide (0 < tileLines c t) || captureOn s || captureOn c)
        && [0, 1].any (fun ch => bit (numF s (dramObj ch + 0x012)) t != bit (numF c (dramObj ch + 0x012)) t)))).map
    (fun t => ob 9 (0x100 + t) 0)
  ++ (if numF c (dramObj 0 + 0x010) = 3 ∧ numF s (dramObj 0 + 1) ≠ numF s (dramObj 1 + 1) then [dramObj 0] else [])

/-- Step 3: objects that fail with STAGED_CONFLICT. -/
def step3 (s c : State) : List Obj :=
  let ws := userWriters c
  let rings := liveRings c
  let cap := ob 5 0x400 0
  ([1, 2, 3].filter (fun d => !isOn c (ob 2 d 0) && (List.range 16).any (fun t => tileEnabled c t && tileDom c t == d))).map
    (fun d => ob 2 d 0)
  ++ ([0, 1, 2, 3].filter (fun d => forceVal s (ob 2 d 2) != forceVal c (ob 2 d 2) && d != 0 && numF s (ob 2 d 1) != 0)).map (fun d => ob 2 d 2)
  ++ (([0, 1, 2, 3].filter (fun d => [0, 1, 2, 3].any (fun e => e < d && (numF c (ob 2 e 0x24) &&& numF c (ob 2 d 0x24)) != 0))).map (fun d => ob 2 d 0x24))
  ++ ([0, 1, 2, 3].filter (fun k => (numF s (tbObj k + 1) != 0 && (changes s c (tbObj k) 2 4).isSome)
      || (isOn c (tbObj k) && [0, 1, 2, 3].any (fun j => j != k && isOn c (tbObj j)
          && numF c (tbObj j + 2) == numF c (tbObj k + 2) && numF c (tbObj j + 3) == numF c (tbObj k + 3))))).map tbObj
  ++ ((ws.filter (fun e => decide (1 < (ws.filter (fun f => f.1 == e.1)).length))).map (fun e => e.2.1))
  ++ ((brokenRefs c).filter (fun o => !suspended c o)).map (fun o => if isPlacement o then baseOf o else o)
  ++ badImages c ++ badWords c ++ automixClash c
  ++ (listed c (fun o => areaOf o == 7 && decide (instOf o < 0x200) && memOf o == 0x020 && takesPart c o && !suspended c o)).filter
       (fun o => numF c o != 0xFFFF && (listed c (fun q => q != o && areaOf q == 7 && decide (instOf q < 0x200) && memOf q == 0x020
         && takesPart c q && !suspended c q && numF c q == numF c o)) != [])
  ++ ((liveProcs c).filter (fun o => (valOctets (forceVal c (o + 0x012))).length != 4 * numF c (o + 0x011))).map (· + 0x012)
  ++ ((linkGroups c).filter (fun g => decide (16 < ((linkGroup c g).filter (fun u => !suspended c (unitObj u + 0x050))).length))).map
       (fun g => unitObj ((linkGroup c g).headD 0) + 0x050)
  ++ ((List.range 48).filter (fun p => numF s (portObj p + 1) != 0)).filterMap (fun p => changes s c (portObj p) 2 0x00C)
  ++ ((List.range 512).filter (fun k => numF s (ctxObj k + 1) != 0)).filterMap (fun k => changes s c (ctxObj k) 2 0x013)
  ++ (badContexts c).map ctxObj
  ++ ([0, 1, 2, 3].filter (fun n => (List.range 512).any (fun k =>
      numF s (ctxObj k + 1) != 0 && (ctxLegs s k).any (fun e => e.1 == n)))).filterMap (fun n => changes s c (netObj n) 1 5)
  ++ (rings.filter (fun r => rings.any (ringsShare c r))).map ringObj
  ++ (if isOn c (cap + 0x010) && (List.range (numF c (cap + 0x012))).any (fun k =>
        let x := numF c (ob 5 (numF c (cap + 0x011) + k) 0)
        x == 0x1400 + numF c (cap + 0x013) + k && (signalDomain c x).isSome) then [cap + 0x013] else [])
  ++ badMasks s c

/-! ### Step 4: pools -/

/-- Bridge units of a channel (R66). -/
def bridgeUnits (c : State) (u : Obj) : Nat :=
  let d := numF c (u + 3)
  Nat.max (rateClass (domRate c d)) (match signalDomain c (numF c (u + 1)) with | some e => rateClass (domRate c e) | none => 1)

/-- The enabled bridge channels. -/
def liveBridges (c : State) : List Obj := listed c (fun o => areaOf o == 2 && decide (0x100 ≤ instOf o) && memOf o == 0 && numF c o == 1)

/-- The element at which a running sum first exceeds a limit. -/
def overAt {α : Type} (cost : α → Nat) (limit : Nat) : Nat → List α → Option α
  | _, [] => none
  | acc, a :: r => if limit < acc + cost a then some a else overAt cost limit (acc + cost a) r

/-- The image of the strip library that a tile's slots run: the first of 0xF0 to 0xFF whose header lists the rate class and frame length of
its domain (log entry 96). -/
def slotLibrary (c : State) (t : Nat) : Octets :=
  (((List.range 16).map (fun k => imageBytes c (0xF0 + k))).find? (fun b => !b.isEmpty && headerFits c b (rateClass (domRate c (tileDom c t))))).getD []

/-- The distinct images that a cluster needs, by their bytes (R77, log entry 167): those of its placements, and the strip library's where a
slot of the cluster runs it. -/
def clusterImages (c : State) (t cl : Nat) : List Octets :=
  let own := ((imagePlaces c).filter (fun p => placeLane c p / 4 == 4 * t + cl)).map (placeImage c)
  let lib := (List.range 4).any (fun k => (slotPlaces c t (4 * cl + k)).any (fun p => !(slotImageOn c p)))
  ((own ++ (if tileEnabled c t && lib then [slotLibrary c t] else [])).filter (fun b => !b.isEmpty)).eraseDups

/-- Whether a cluster's old and new images together exceed instruction RAM. -/
def clusterShort (s c : State) (t cl : Nat) : Bool :=
  let imgs := (clusterImages s t cl ++ clusterImages c t cl).eraseDups
  decide (16384 < (imgs.map (fun b => (imageOf b).bundles)).foldl (· + ·) 0)

/-- Whether a lane's coefficient words or bank words do not fit (R179, R216, R468). -/
def laneShort (c : State) (t l : Nat) : Bool :=
  let ps := (usedPlaces c).filter (fun p => placeLane c p == 16 * t + l)
  decide (8192 < engineCoefs c t l + (ps.map (coefWords c)).foldl (· + ·) 0) || (laneLayout c t l).isNone

/-- Bytes of a length rounded up to a multiple. -/
def roundUp (n k : Nat) : Nat := (n + k - 1) / k * k

/-- Bytes of the delay rings and capture lines of a tile (R95, R174, R375). -/
def tileBytes (c : State) (t : Nat) : Nat :=
  if tileEnabled c t then
    let hz := domHz c (tileDom c t)
    let per := (lim c).strips / 16
    let ds := ((List.range per).filter (fun j => isOn c (ob 5 (per * t + j) 0x050))).length
    let os := ((tileProcs c t).filter (isOn c)).length
    ds * roundUp (4 * ((hz + 1) / 2 + 64)) 32 + os * roundUp (4 * ((5 * hz + 1) / 2 + 64)) 32
    + (if captureOn c then per * roundUp (120 * hz) 4096 else 0)
  else 0

/-- Channels that cannot hold their lines and reserve, and FAILED channels out of SERVICE (R375, R388). -/
def dramShort (s c : State) : List Obj :=
  let failed := if modeNow s = 6 then ([0, 1].filter (fun ch => numF s (dramObj ch) == 3)).map dramObj else []
  failed ++
  let all := (List.range 16).map (fun t => (t, tileBytes c t))
  if mapOrder s = 3 then
    (if numF s (dramObj 0 + 1) + numF s (dramObj 1 + 1) < 2 ^ 30 + (all.map (·.2)).foldl (· + ·) 0 then [dramObj 0] else [])
  else
    ([0, 1].filter (fun ch => decide (numF s (dramObj ch + 1)
      < (if ch = 0 then 2 ^ 30 else 0) + ((all.filter (fun e => (tileChannels c e.1).contains ch)).map (·.2)).foldl (· + ·) 0))).map dramObj

/-- Signal numbers for the receive contexts that a configuration enables (R20, R342), and the first context that none are left for.
A context that still holds its numbers keeps them. -/
def giveSignals (c : State) : State × Option Nat :=
  let need := ((liveContexts c).filter (fun k => decide (k < 256) && (ctxRt c k).signals.isEmpty))
  need.foldl (fun (e : State × Option Nat) k =>
    match e.2 with
    | some _ => e
    | none =>
      let taken := (List.range 256).flatMap (fun j => (ctxRt e.1 j).signals)
      let free := (((List.range (lim c).rx).map (0x600 + ·)).filter (fun x => !(taken.contains x))).take (numF c (ctxObj k + 5))
      if free.length < numF c (ctxObj k + 5) then (e.1, some k)
      else (setCtx e.1 k { ctxRt e.1 k with signals := free }, none)) (c, none)

/-- Step 4: objects that fail with NO_RESOURCE. `short` is the context that R342 refuses. A unit that is OFF, as every unit is at a restore, is enabled
by a configuration that holds it ON (R398). -/
def step4 (s c : State) (short : Option Nat) : List Obj :=
  (overAt (bridgeUnits c) 256 0 (liveBridges c)).toList
  ++ (match short with | some k => [ctxObj k] | none => [])
  ++ ((overAt (chansOf c) (lim c).rx 0 ((liveContexts c).filter (256 ≤ ·))).map ctxObj).toList
  ++ ((List.range 16).filter (fun t => (List.range 4).any (clusterShort s c t) || (List.range 16).any (laneShort c t))).map
       (fun t => ob 9 (0x100 + t) 0)
  ++ dramShort s c
  ++ (s.sage.failed.filter (fun e => isOn c (baseOf e.2) && (!(isOn s (baseOf e.2)) || unitState s (baseOf e.2) == 0))).map (fun e => baseOf e.2)

/-- The retained configuration of a state: RETAINED members with the values in force (R217). -/
def retainedConf (s : State) : Tab Val := s.dict.force.filter (fun e => isRetained e.1)

/-- Whether a member holds a program image. -/
def isImage (o : Obj) : Bool := areaOf o == 9 && decide (instOf o < 0x100) && memOf o == 0

/-- What a state record holds of a configuration: all but the images (R217). -/
def recordConf (conf : Tab Val) : Tab Val := conf.filter (fun e => !isImage e.1)

/-- SIZE of the state record of a configuration. -/
def recordBytes (conf : Tab Val) : Nat := (Config.recordSize (recordConf conf)).toNat

/-- The distinct images of a configuration. -/
def imagesOf (conf : Tab Val) : List Octets := ((conf.filter (fun e => isImage e.1)).map (fun e => valOctets e.2)).eraseDups

/-- Whether the state record of a configuration exceeds 8 MB (R217). -/
def recordTooLong (c : State) : Bool := decide (8388608 < recordBytes (retainedConf c))

/-- What step 4 publishes: ENGINE_LOW and ENGINE_COEF_LOW of every lane (R468). -/
def publishLanes (s c : State) : State :=
  (List.range 256).foldl (fun t n =>
    let o := ob 9 (0x100 + n / 16) 0
    setN (setN t (o + 0x020 + n % 16) (engineLow c (n / 16) (n % 16))) (o + 0x030 + n % 16) (engineCoefLow c (n / 16) (n % 16))) s

end Sys2Proof.Machine
end

