-- ==== Sys2Proof/Machine/Budget.lean ====
section
/-!
DEFINITION. Machine/Budget.lean: demands (R41, R46, R94, R98, R155, R168, R193, R273, R321, R351, R379, R421, R422), the budget
table (R44), lane-phase bounds (R126, R138, R158, R170, R176), and step 5 of validation (R50, R51).
-/
namespace Sys2Proof.Machine

/-! ### Demands -/

/-- A demand: activity, target, domain, beats per frame. -/
structure Demand where
  act   : Nat
  tgt   : Nat
  dom   : Nat
  beats : Nat
  deriving DecidableEq, Repr

/-- The fitted DRAM channels that hold a tile's lines (R374, R379). -/
def lineChannels (s c : State) (t : Nat) : List Nat :=
  ([0, 1].filter (fun ch => numF s (dramObj ch + 1) != 0)).filter (fun ch =>
    mapOrder s == 3 || bit (numF c (dramObj ch + 0x012)) t == 1)

/-- The lane phases in order (R50). -/
def lanePhases : List Phase := [.output, .strip, .bus, .matrixP]

/-- Entries of the gather and scatter lists of a tile's programs (R94, R137, R158, R170, R176). -/
def tileEntries (c : State) (t : Nat) : Nat :=
  let ps := (List.range 16).flatMap (fun l => lanePhases.flatMap (laneSequence c (16 * t + l)))
  (ps.map (fun p => (listCounts c p).1 + (listCounts c p).2)).foldl (· + ·) 0

/-- Demands of a tile: its delay engine, cluster DMA, strip reads, capture reads and exports. -/
def tileDemands (s c : State) (t : Nat) : List Demand :=
  if tileEnabled c t then
    let d := tileDom c t
    let per := (lim c).strips / 16
    let procs := (tileProcs c t).length
    let lines := tileLines c t
    let cap := if captureOn c then per else 0
    (lineChannels s c t).map (fun ch => ⟨t, ch, d, 3 * lines⟩)
    ++ [⟨t, 0x20 + t, d, 2 * lines⟩,
        ⟨0x10 + t, 0x10 + t, d, tileEntries c t⟩, ⟨0x10 + t, 0x20 + t, d, tileEntries c t⟩,
        ⟨0x20, 0x02, d, per⟩, ⟨0x25, 0x02, d, cap⟩]
    ++ (if isOn c pairObj then
          [⟨0x28, 0x20 + t, 0, 4 * per + 3 * procs + lines⟩, ⟨0x28, 0x06, 0, procs + 2 * per⟩]
        else [])
  else []

/-- Capture beats at the channels: the strips of a channel in one domain, rounded up (R155). -/
def captureDemands (s c : State) : List Demand :=
  let S := frameLen c
  [0, 1].flatMap (fun ch => [0, 1, 2, 3].map (fun d =>
    let ts := (List.range 16).filter (fun t => tileEnabled c t && tileDom c t == d && (lineChannels s c t).contains ch)
    ⟨0x25, ch, d, if captureOn c then (ts.length * ((lim c).strips / 16) * S + 7) / 8 else 0⟩))
  ++ (if isOn c (ob 5 0x400 0x010) then
        (List.range (numF c (ob 5 0x400 0x012))).flatMap (fun k =>
          let t := stripTile c (numF c (ob 5 0x400 0x011) + k)
          if tileEnabled c t then (lineChannels s c t).map (fun ch => ⟨0x24, ch, tileDom c t, 1⟩) else [])
      else [])

/-- Demands of ports, contexts, rings, time bases, bridge channels and keyed units. -/
def unitDemands (c : State) : List Demand :=
  let S := frameLen c
  ((livePorts c).map (fun p => ⟨0x22, 0x02, numF c (portObj p + 2), 2 * numF c (portObj p + 4)⟩))
  ++ (liveContexts c).flatMap (fun k =>
       [⟨0x23, 0x02, ctxDom c k, chansOf c k⟩, ⟨0x23, 0x04, ctxDom c k, 2 * chansOf c k * ((S + 7) / 8) + 4⟩])
  ++ (([0, 1, 2, 3].filter (fun k => isOn c (tbObj k))).map (fun _ => ⟨0x23, 0x04, 0, 64⟩))
  ++ (liveRings c).flatMap (fun r =>
       [⟨0x24, 0x02, numF c (ringObj r + 2), numF c (ringObj r + 4)⟩,
        ⟨0x24, 0x08, numF c (ringObj r + 2), if r < 48 then entryBytes c r / 32 + 1 else 1⟩])
  ++ ((listed c (fun o => areaOf o == 8 && memOf o == 0x040 && numF c o == 1 && takesPart c o)).map (fun o =>
       ⟨0x21, 0x02, ownerDom c o, 1⟩))
  ++ (liveBridges c).flatMap (fun u =>
       (match signalDomain c (numF c (u + 1)) with
        | some e => [⟨0x2A, 0x02, e, (Config.bridgeBeats 0).toNat⟩]
        | none => []) ++ [⟨0x2A, 0x02, numF c (u + 3), (Config.bridgeBeats 1).toNat⟩])

/-- The domains that count the patrol scrub of a channel: those of its enabled entries, CD0 where it has none (R41, R379). -/
def scrubDomains (c : State) (ch : Nat) : List Nat :=
  let ds := (((List.range 256).filter (fun e => isOn c (entryObj e) && numF c (entryObj e + 1) == 0x27 && numF c (entryObj e + 2) == ch)).map
    (fun e => ownerDom c (entryObj e))).eraseDups
  if ds.isEmpty then [0] else ds

/-- Demands of Sage, Parsley and the export's shares, in CD0, and of the patrol scrub (R46, R379, R421). -/
def engineDemands (s c : State) : List Demand :=
  let S := frameLen c
  let hz := domHz c 0
  let rf := (96000 * S + hz - 1) / hz
  let pairs := ((List.range 32).filter (fun i => (cmdPair s i).enable)).length
  let fitted := [0, 1].filter (fun ch => numF s (dramObj ch + 1) != 0)
  fitted.flatMap (fun ch =>
    [⟨0x26, ch, 0, 16 * S⟩, ⟨0x29, ch, 0, 8 * S⟩]
    ++ (scrubDomains c ch).map (fun d => ⟨0x27, ch, d, (numF s (dramObj ch + 1) * S + 2560 * domHz c d - 1) / (2560 * domHz c d)⟩))
  ++ ([2, 3, 4, 5, 6, 7] ++ clusterTargets).map (fun g => ⟨0x26, g, 0, 96 * ((rf + 7) / 8)⟩)
  ++ [2, 3, 4, 5, 6].map (fun g => ⟨0x29, g, 0, 4 * S⟩)
  ++ [⟨0x29, 7, 0, 16 * S⟩, ⟨0x29, 8, 0, 8 * S + 2 * S * pairs⟩]
  ++ clusterTargets.map (fun g => ⟨0x29, g, 0, 64 * S⟩)
  ++ (if isOn c pairObj then
        [⟨0x28, 0x02, 0, ((liveContexts c).length + 3) / 4 + 192 * S⟩, ⟨0x28, 0x03, 0, 192 * S⟩]
      else [])

/-- The demands of a configuration by activity, target and domain. The export's sum applies at the link (R422). -/
def demands (s c : State) : Tab Nat :=
  let all := (List.range 16).flatMap (tileDemands s c) ++ captureDemands s c ++ unitDemands c ++ engineDemands s c
  let link := ((all.filter (fun x => x.act == 0x28)).map (·.beats)).foldl (· + ·) 0
  (all ++ [(⟨0x28, 0x09, 0, link⟩ : Demand)]).foldl (fun (t : Tab Nat) (x : Demand) => tmod t 0 (budgetKey x.act x.tgt x.dom) (· + x.beats)) []

/-! ### The budget table -/

/-- The number of an entry's activity, target and domain. -/
def entryKey (c : State) (e : Nat) : Nat :=
  budgetKey (numF c (entryObj e + 1)) (numF c (entryObj e + 2)) (ownerDom c (entryObj e))

/-- The demand of an entry. -/
def entryDemand (c : State) (ds : Tab Nat) (e : Nat) : Nat := tget ds 0 (entryKey c e)

/-- The AUTO budget of a demand (R44). -/
def autoBudget (d : Nat) : Nat := (9 * d + 7) / 8

/-- The budget of an entry: 0 for a disabled one. -/
def entryBudget (c : State) (ds : Tab Nat) (e : Nat) : Nat :=
  if isOn c (entryObj e) then
    (if numF c (entryObj e + 4) = 1 then numF c (entryObj e + 5) else autoBudget (entryDemand c ds e))
  else 0

/-- The load of an entry in eighths of a beat per second: budget times the frame rate of its domain. -/
def entryLoad (c : State) (ds : Tab Nat) (e : Nat) : Nat := entryBudget c ds e * domHz c (ownerDom c (entryObj e)) * (8 / frameLen c)

/-- The enabled entry of a key; of several, the lowest-numbered (log entry 164). -/
def entryOfKey (c : State) (k : Nat) : Option Nat :=
  (List.range 256).find? (fun e => isOn c (entryObj e) && entryKey c e == k)

/-- Whether an enabled entry of a configuration applies at a target. -/
def entryAt (c : State) (g e : Nat) : Bool := isOn c (entryObj e) && numF c (entryObj e + 2) == g

/-- The load of an entry of the transition table at a target: the larger of both sides; an entry of the old table whose key the new table
does not hold counts with what it has (R51). -/
def transLoad (s c : State) (old new : Tab Nat) (g e : Nat) : Nat :=
  let mine :=
    if entryAt c g e then
      (match entryOfKey s (entryKey c e) with
       | some q => Nat.max (entryLoad s old q) (entryLoad c new e)
       | none => entryLoad c new e)
    else 0
  let gone :=
    if entryAt s g e && (entryOfKey c (entryKey s e)).isNone then entryLoad s old e else 0
  mine + gone

/-- The targets of the engine in ascending code (R39). -/
def targets : List Nat := (List.range 0x30).filter targetExists

/-- Whether a sum of budget times rate exceeds 90 percent of a target's capacity, in exact arithmetic (check 3 of R50). -/
def overCapacity (g sum : Nat) : Bool :=
  decide (9 * targetCapacity g * 80000000000 < sum * 10001 * 10)

/-- The entry at which the running sum of a target first exceeds its limit. -/
def firstOver (g : Nat) (load : Nat → Nat) : Nat → List Nat → Option Nat
  | _, [] => none
  | acc, e :: r => if overCapacity g (acc + load e) then some e else firstOver g load (acc + load e) r

/-- Check 3 or 5 over every target; `load` gives the load of an entry at a target. -/
def capacityCheck (load : Nat → Nat → Nat) : Option Obj :=
  targets.findSome? (fun g => (firstOver g (load g) 0 (List.range 256)).map entryObj)

/-! ### Lane-phase bounds -/

/-- The programs of a lane in a phase with their placement bounds (R126, R158). -/
def laneBounds (c : State) (t l : Nat) (ph : Phase) : List (Obj × Nat) :=
  let ps := laneSequence c (16 * t + l) ph
  List.zip ps (placementBounds (ps.map (fun p => (progBound c p, listCounts c p))))

/-- Check 4: the program at which a lane's bound first exceeds its budget. -/
def laneCheck (c : State) : Option Obj :=
  (List.range 16).findSome? (fun t =>
    if tileEnabled c t then
      (List.range 16).findSome? (fun l => lanePhases.findSome? (fun ph =>
        let budget := laneBudget (frameLen c == 1) (rateClass (domRate c (tileDom c t))) ph
        (overAt (fun (e : Obj × Nat) => e.2) budget 0 (laneBounds c t l ph)).map (·.1)))
    else none)

/-! ### Step 5 and what it publishes -/

/-- Check 1: the first demand without an enabled entry; it names the lowest disabled entry of that key, or 0. -/
def missingEntry (c : State) (ds : Tab Nat) : Option Obj :=
  (ds.find? (fun e => (entryOfKey c e.1).isNone)).map (fun e =>
    match (List.range 256).find? (fun q => !(isOn c (entryObj q)) && entryKey c q == e.1) with
    | some q => entryObj q
    | none => 0)

/-- Check 2: a FIXED entry below its demand. -/
def shortEntry (c : State) (ds : Tab Nat) : Option Obj :=
  ((List.range 256).find? (fun e => isOn c (entryObj e) && numF c (entryObj e + 4) == 1
    && decide (numF c (entryObj e + 5) < entryDemand c ds e))).map entryObj

/-- Step 5: the object that fails, by the checks of R50 in their order. -/
def step5 (s c : State) (old new : Tab Nat) : Option Obj :=
  match missingEntry c new with
  | some o => some o
  | none =>
  match shortEntry c new with
  | some o => some o
  | none =>
  match capacityCheck (fun g e => if entryAt c g e then entryLoad c new e else 0) with
  | some o => some o
  | none =>
  match laneCheck c with
  | some o => some o
  | none =>
    capacityCheck (transLoad s c old new)

/-- Whether a member reports a program's bound, or the bound of its lane and phase. -/
def isBound (o : Obj) : Bool :=
  (isPlacement o && (memOf o == 0x00C || memOf o == 0x00D))
  || (areaOf o == 7 && memOf o == (if instOf o < 0x200 then 0x611 else 0x610))

/-- DEMAND of every entry, and the bounds of placements, system programs and tiles (R50, R131, R171, R178, R237). A program that takes no part
in the configuration carries no bound (R466, log entry 172). -/
def publishBudgets (s c : State) (ds : Tab Nat) : State :=
  let s0 := (List.range 256).foldl (fun t e => setN t (entryObj e + 6) (entryDemand c ds e)) s
  let s1 := (listed s0 isBound).foldl (fun t o => setN t o 0) s0
  (List.range 16).foldl (fun t n =>
    lanePhases.foldl (fun u ph =>
      let sums := (List.range 16).map (fun l => (laneBounds c n l ph))
      let u1 := sums.foldl (fun v bs =>
        let sum := (bs.map (·.2)).foldl (· + ·) 0
        bs.foldl (fun w e =>
          if isPlacement e.1 then setN (setN w (e.1 + 0x00C) e.2) (e.1 + 0x00D) sum
          else if instOf e.1 < 0x200 then setN w (e.1 + 0x611) e.2
          else setN w (e.1 + 0x610) e.2) v) u
      let k := match ph with | .output => 0 | .strip => 1 | .bus => 2 | _ => 3
      setN u1 (ob 9 (0x100 + n) (0x010 + k)) ((sums.map (fun bs => (bs.map (·.2)).foldl (· + ·) 0)).foldl Nat.max 0)) t) s1

/-! ### Loads of a commit (R46) -/

/-- Whether a coefficient set is loaded: it changes, or its program is newly enabled, or that moves to another lane (R46). -/
def setLoads (s c : State) (o : Obj) (was : Bool) (lane : State → Nat) : Bool :=
  decide (forceVal s o ≠ forceVal c o) || !was || lane s != lane c

/-- Beats of 32 bytes that a commit loads at a tile: images that are not resident in their cluster, and coefficient sets; a newly enabled
strip slot takes both halves, a later change one (R46, R216), and a processor whose FIR_ON turns TRUE is newly enabled (log entry 97). -/
def loadBeats (s c : State) (t : Nat) : Nat :=
  let beats := fun (n : Nat) => (n + 31) / 32
  let imgs := (List.range 4).flatMap (fun cl =>
    ((clusterImages c t cl).filter (fun b => !((residents s (4 * t + cl)).any (fun r => r.image == b)))).map (fun b =>
      beats (8 * (imageOf b).bundles)))
  let old := usedPlaces s
  let sets := ((usedPlaces c).filter (fun p => placeTile p == t && setLoads s c (p + 7) (old.contains p) (fun x => placeLane x p))).map (fun p =>
    beats ((valOctets (forceVal c (p + 7))).length * (if isSlotPlace p && !(old.contains p) then 2 else 1)))
  let ps := tileProcs c t
  let firs := ((List.range ps.length).filter (fun k =>
      let o := (ps[k]?).getD 0
      tileEnabled c t
        && setLoads s c (o + 0x012) (tileEnabled s t && (isOn s (o + 0x010) || !(isOn c (o + 0x010)))) (fun x => procLane x o k))).map (fun k =>
    beats (valOctets (forceVal c (((ps[k]?).getD 0) + 0x012))).length)
  (imgs ++ sets ++ firs).foldl (· + ·) 0

/-- Periods that the loads of a commit need, at the Parsley budget in force of each tile; a budget of 0 counts as 1 beat (log entry 165). -/
def loadPeriods (s c : State) (old : Tab Nat) : Nat :=
  ((List.range 16).map (fun t =>
    let n := loadBeats s c t
    let b := match entryOfKey s (budgetKey 0x29 (0x20 + t) 0) with | some e => entryBudget s old e | none => 0
    if n = 0 then 0 else (n + Nat.max b 1 - 1) / Nat.max b 1)).foldl Nat.max 0

end Sys2Proof.Machine
end

