-- ==== Sys2Proof/Machine/Commit.lean ====
section
/-!
DEFINITION. Machine/Commit.lean: COMMIT and ROLLBACK, validation, scheduling, CANCEL and DISCARD, landing (R202 to R216), versions
(R217 to R220), and the flash journal (R221, R222).
-/
namespace Sys2Proof.Machine

/-! ### Commit control -/

/-- Result members of commit control (R206). -/
def setResult (s : State) (status : Nat) (o : Obj) (stp : Nat) : State :=
  setN (setN (setN s (commitObj + 3) status) (commitObj + 4) o) (commitObj + 5) stp

/-- STATE takes a value. -/
def setCommitState (s : State) (v : Nat) : State := setN s commitObj v

/-- CURRENT. -/
def currentVersion (s : State) : Nat := numF s (commitObj + 1)

/-- The largest version number. -/
def lastVersion : Nat := 0xFFFFFFF0

/-- PRIVILEGE of a session. -/
def privOf (s : State) (n : Sess) : Nat := numF s (sob n 2)

/-- The first checks of a COMMIT or ROLLBACK (R208, R239, R400), in their order. -/
def firstChecks (s : State) (n : Sess) (r : CommitReq) : Nat :=
  if modeNow s = 5 ∨ modeNow s = 6 ∨ isFatal s then stMode
  else if privOf s n < 1 then stDenied
  else if inTransition s || commitState s != 0 || (sess s n).txn.isSome then stBusy
  else if lastVersion ≤ currentVersion s then stVersions
  else if r.when = 1 ∧ numF s (ob 2 (0x10 + r.base) 1) ≠ 2 then stBusy
  else if r.when = 2 ∧ numF s (ob 2 r.base 1) ≠ 2 then stBusy
  else stOk

/-- The values of a version that a rollback changes: every RETAINED member whose value in force differs (R219), but those that the engine alone
writes (log entry 210). MODE and RATE are equal by the check of R219. -/
def rollbackSet (s : State) (conf : Tab Val) : List (Obj × Val) :=
  let os := sortUp ((retainedConf s).map (·.1) ++ conf.map (·.1))
  (os.filter (fun o => decide (tget conf (dfl o) o ≠ forceVal s o) && !(engineOwned o))).map (fun o => (o, tget conf (dfl o) o))

/-- The version that TARGET names: a directory entry, or for 0 the PARENT of the current version. -/
def rollbackTarget (s : State) : Option Version :=
  let t := numF s (ob 14 1 0)
  let k := if t ≠ 0 then t else (match s.ver.dir with | v :: _ => v.parent | [] => 0)
  s.ver.dir.find? (fun v => v.number == k)

/-- A commit in work on a change set. -/
def newPending (s : State) (n : Sess) (tag op kind source : Nat) (r : CommitReq) (set : List (Obj × Val)) : Pending :=
  { set := set, marks := [], bank := s.dict.bank, factory := s.dict.factory, kind := kind, number := currentVersion s + 1, source := source,
    label := r.label, session := n, tag := tag, op := op, req := r, arrived := s.now, since := [], land := [], open_ := [], budgets := [] }

/-- A commit starts its validation on a change set. What FACTORY has marked stands in the bank by member from now on, so that a FACTORY write
after the arrival belongs to the next change set (R208, R245). -/
def startCommit (s : State) (n : Sess) (tag op kind source : Nat) (r : CommitReq) (set : List (Obj × Val)) : State :=
  let bank := (factorySet s).foldl (fun b o => putEntry o (factoryVal s o) b) s.dict.bank
  let t : State := { s with dict := { s.dict with bank := bank, factory := false } }
  setCommitState { t with commit := some { newPending t n tag op kind source r set with factory := s.dict.factory } } 1

/-- COMMIT (R208): the first checks, then the change set is taken and validation starts. -/
def doCommit (s : State) (n : Sess) (tag : Nat) (r : CommitReq) : State :=
  match firstChecks s n r with
  | 0 => startCommit s n tag 0x07 1 0 r (changeSet s)
  | st => reply (setResult s st 0 0) n 0x07 tag 0 st 0 .none

/-- ROLLBACK (R219). -/
def doRollback (s : State) (n : Sess) (tag : Nat) (r : CommitReq) : State :=
  let no := fun (st : Nat) => reply (setResult s st 0 0) n 0x08 tag 0 st 0 .none
  match firstChecks s n r with
  | 0 =>
    (match rollbackTarget s with
     | none => no stRange
     | some v =>
       if !(changeSet s).isEmpty then no stConflict
       else if v.mode ≠ modeNow s ∨ v.rate ≠ rate0 s then no stMode
       else startCommit s n tag 0x08 2 v.number r (rollbackSet s v.conf))
  | st => no st

/-! ### Validation (R208 to R210) -/

/-- The lowest of some objects: the first that fails in ascending object number (R206, R208). -/
def lowest : List Obj → Obj
  | [] => 0
  | o :: r => r.foldl (fun m p => if p < m then p else m) o

/-- A dropped placement that fits again: its image lists the class and frame, and its lane's bounds fit (R71). -/
def fitsNow (c : State) (p : Obj) : Bool :=
  let l := placeLane c p
  let ph := placePhase c p
  (placeImage c p).length != 0 && imageFits c p && takesPart c p
  && (overAt (fun (e : Obj × Nat) => e.2) (laneBudget (frameLen c == 1) (rateClass (domRate c (tileDom c (l / 16)))) ph) 0
       (laneBounds c (l / 16) (l % 16) ph)).isNone

/-- Suspended references that no longer break a rule, and dropped placements that fit, come back (R71, R72). -/
def revive (c : State) : State :=
  let broken := brokenRefs c
  let c1 := { c with mode := { c.mode with suspended := c.mode.suspended.filter (fun o =>
    broken.contains o || (memOf o == 0 && (areaOf o == 3 || (areaOf o == 4 && decide (instOf o < 0x400))))) } }
  (listed c1 (fun o => isPlacement o && memOf o == 0x00B && numF c1 o == 2)).foldl (fun t o =>
    let t1 := setN t o 0
    if fitsNow t1 (baseOf o) then t1 else t) c1

/-- Steps 1 to 5 of R208: the state with what steps 4 and 5 publish, and the failure as status, object and step. -/
def validate (s c : State) (short : Option Nat) : State × Option (Nat × Obj × Nat) :=
  match step1 s c with
  | o :: r => (s, some (stMode, lowest (o :: r), 1))
  | [] =>
  match step2 c with
  | o :: r => (s, some (stRange, lowest (o :: r), 2))
  | [] =>
  match step3 s c with
  | o :: r => (s, some (stConflict, lowest (o :: r), 3))
  | [] =>
  let s1 := publishLanes s c
  match step4 s c short with
  | o :: r => (s1, some (stNoResource, lowest (o :: r), 4))
  | [] =>
  if recordTooLong c then (s1, some (stNoResource, 0, 4))
  else
  let new := demands s c
  let s2 := publishBudgets s1 c new
  match step5 s c (demands s s) new with
  | some o => (s2, some (stBudget, o, 5))
  | none => (s2, none)

/-- The earliest instant of a commit (R210): tick V + 2 of every ON domain, moved on by the periods that its loads need (R46) and, while
the standby has not acknowledged its record, by `ack` periods (R431). -/
def earliest (s c : State) (ack : Nat) : Int :=
  let n := loadPeriods s c (demands s s)
  ((onDomains s).map (fun d => instantOf s d (2 * frameLen s))).foldl (fun m i => if m < i then i else m)
    (instantOf s 0 (((2 + n) * frameLen s : Nat))) |>
    fun m => let a := instantOf s 0 (((1 + ack) * frameLen s : Nat)); if m < a then a else m

/-- The budgets of the table that lands: of each entry of the new table, and of each entry of the running table in the transition table, which
holds the larger budget of its key (R51, R215). -/
def stageBudgets (s c : State) : State :=
  let old := demands s s
  let new := demands s c
  (List.range 256).foldl (fun t e =>
    let mine := if isOn s (entryObj e) then entryBudget s old e else 0
    let other := match entryOfKey c (entryKey s e) with | some q => entryBudget c new q | none => 0
    setBudget t e { budgetRt t e with next := entryBudget c new e, trans := if isOn s (entryObj e) then Nat.max mine other else 0 }) s

/-- The budgets of the transition table for which the running table has no entry (R51). -/
def onlyNew (s c : State) : Tab Nat :=
  let new := demands s c
  (List.range 256).foldl (fun t e =>
    let k := entryKey c e
    if entryOfKey c k = some e ∧ (entryOfKey s k).isNone then tput t 0 k (entryBudget c new e) else t) []

/-- The bank after a commit has passed: what it held at the commit's arrival is gone, what was written since stays (R208). -/
def clearBank (s : State) (p : Pending) : State :=
  { s with dict := { s.dict with bank := s.dict.bank.filter (fun e => !(p.bank.contains e) || p.since.contains e.1) } }

/-- The reply to a COMMIT or ROLLBACK once its validation has ended; `op` 0 stands for a session that has closed since. -/
def commitReply (s : State) (p : Pending) (st : Nat) (b : Body) : State :=
  if p.op = 0 then s else reply s p.session p.op p.tag 0 st 0 b

/-- The end of a validation that fails: IDLE with the status; the change set stays in the bank. -/
def failCommit (s : State) (p : Pending) (f : Nat × Obj × Nat) : State :=
  let t : State := { s with commit := none, dict := { s.dict with factory := s.dict.factory || p.factory } }
  commitReply (setResult (setCommitState t 0) f.1 f.2.1 f.2.2) p f.1 .none

/-- A commit that changes nothing (R208): an empty change set, and no RETAINED member written since the current version. -/
def emptyCommit (s : State) (p : Pending) : Bool :=
  let written := fun (conf : Tab Val) => conf.filter (fun e => !(engineOwned e.1))
  p.set.isEmpty && decide (written (retainedConf s) = written (match s.ver.dir with | v :: _ => v.conf | [] => []))

/-- The images that the clusters of a configuration need come into instruction RAM beside those that the running tables use (R77). -/
def loadImages (s c : State) : State :=
  (List.range 64).foldl (fun t k => (clusterImages c (k / 4) (k % 4)).foldl (fun u b => loadImage u k b) t) s

/-- Instruction RAM keeps the images that the configuration in force needs (R77). -/
def keepImages (s : State) : State := (List.range 64).foldl (fun t k => freeImages t k (clusterImages s (k / 4) (k % 4))) s

/-- The STATE that DROPPED placements take at the landing of a configuration in which they are placed again (R71). -/
def placedMarks (s c : State) : List (Obj × Val) :=
  ((listed s (fun o => isPlacement o && memOf o == 0x00B && numF s o == 2)).filter (fun o => numF c o != 2)).map (fun o =>
    (o, .num (numF c (baseOf o))))

/-- A commit that passes: scheduled at its landing samples, with its reply (R210, R212). -/
def passCommit (s c : State) (p : Pending) (i : Int) : State :=
  let land := (onDomains s).foldl (fun t d => tput t 0 d (sampleAt s d i)) []
  let s1 := loadImages (clearBank (stageBudgets s c) p) c
  let s2 := { s1 with ctxs := c.ctxs, mode := { s1.mode with pendSusp := c.mode.suspended },
                      pair := s1.pair }
  let s3 := scheduleAt (formRecord s2 { recordOf s2 .commit p.set [] land with version := p.number }) { p with marks := placedMarks s c, budgets := onlyNew s c } land
  let s4 := setN (setResult (setCommitState s3 2) stOk 0 0) (commitObj + 6) p.number
  commitReply s4 p stOk (.landed p.number (tget land 0 0))

/-- Ends the validation of the commit at hand. -/
def endValidation (s : State) : State :=
  match s.commit with
  | some p =>
    if commitState s = 1 then
      (if emptyCommit s p then
         (let s1 := setResult (clearBank (setCommitState { s with commit := none } 0) p) stOk 0 0
          commitReply s1 p stOk (.landed (currentVersion s) 0))
       else
         let g := giveSignals (revive (configWith s p.set))
         match validate s g.1 g.2 with
         | (t, some f) => failCommit t p f
         | (t, none) =>
           let a := if role t = 1 ∧ !t.pair.records.isEmpty then drawUpTo t (numF t (pairObj + 5)) else (0, t)
           let e := earliest a.2 g.1 a.1
           let i := commitInstant a.2 p.req e
           if i < e then failCommit a.2 p (stPast, 0, 6) else passCommit a.2 g.1 p i)
    else s
  | none => s

/-! ### DISCARD and CANCEL -/

/-- DISCARD empties the change set (R204). -/
def doDiscard (s : State) : Nat × State :=
  if commitState s = 1 then (stBusy, s) else (stOk, formRecord (emptyBank s) (recordOf s .discard [] [] []))

/-- Signal numbers given to contexts that have not started go back (R342). -/
def takeSignals (s : State) : State :=
  (List.range 256).foldl (fun t k =>
    if numF t (ctxObj k + 1) = 0 ∧ !(isOn t (ctxObj k)) ∧ (ctxRt t k).signals ≠ [] then setCtx t k { ctxRt t k with signals := [] } else t) s

/-- The bank with a cancelled change set back in it: a value written since stays, and so does a default that FACTORY has put there since
(R211, R245). -/
def mergeBack (s : State) (set : List (Obj × Val)) : Tab Val :=
  set.foldl (fun b e => if b.any (fun x => x.1 == e.1) || (s.dict.factory && isFactoryMember e.1) then b else putEntry e.1 e.2 b) s.dict.bank

/-- CANCEL (R211): a SCHEDULED commit returns to the bank; the newest value of each member stays. Its budgets and images are dropped. -/
def doCancel (s : State) : Nat × State :=
  match s.commit with
  | some p =>
    if commitState s = 2 then
      let s1 := { s with commit := none, trans := [], mode := { s.mode with pendSusp := s.mode.suspended },
                         dict := { s.dict with bank := if p.kind = 1 then mergeBack s p.set else s.dict.bank,
                                               landing := s.dict.landing.filter (fun y => !y.commit) } }
      let s2 := (List.range 256).foldl (fun t e =>
        let x := budgetRt t e
        setBudget t e { x with next := x.running, trans := x.running }) s1
      (stOk, formRecord (keepImages (takeSignals (setN (setCommitState s2 0) (commitObj + 6) 0))) (recordOf s .cancel [] [] []))
    else (stBusy, s)
  | none => (stBusy, s)

/-! ### Versions (R217, R218, R220) -/

/-- Whether versions fit the 1 GB of the version store. -/
def storeFits (l : List Version) : Bool :=
  decide ((l.map (fun v => recordBytes v.conf)).foldl (· + ·) 0
    + (((l.flatMap (fun v => imagesOf v.conf)).eraseDups).map List.length).foldl (· + ·) 0 ≤ 2 ^ 30)

/-- The longest prefix of a directory that fits, and at least its newest 2. -/
def trimStore : Nat → List Version → List Version
  | 0, l => l
  | n + 1, l => if l.length ≤ 2 ∨ storeFits l then l else trimStore n l.dropLast

/-- The writer takes the newest version that has reached IDLE, once it is free (R221). -/
def startWriter (s : State) : State :=
  match s.ver.writing, s.ver.dir with
  | none, v :: r =>
    if v.persisted = 0 then
      (let w : Version := { v with persisted := 1 }
       { s with ver := { s.ver with dir := w :: r, writing := some w } })
    else s
  | _, _ => s

/-- Adds a version to the directory; CURRENT names it, retention RAM follows, and the journal writer takes it up. -/
def addVersion (s : State) (v : Version) : State :=
  let dir := trimStore 64 ((v :: s.ver.dir).take 64)
  let s1 := setN { s with ver := { s.ver with dir := dir }, aon := retain s.aon (fun a => { a with current := v.number }) } (commitObj + 1) v.number
  let s2 := if v.number = 0xFFFF0000 then raise s1 0xE002 commitObj v.number else s1
  startWriter s2

/-- Members that differ between two configurations. -/
def confChanges (a b : Tab Val) : Nat :=
  ((sortUp (a.map (·.1) ++ b.map (·.1))).filter (fun o => decide (tget a (dfl o) o ≠ tget b (dfl o) o))).length

/-- The state with what a commit lands in the frames now in work: at the end of LANDING the front half of frame F* + 1 and the back half of
frame F* still take values of their own samples. -/
def landed (s : State) : State := (s.dict.landing.filter (fun y => y.commit)).foldl (fun t y => setF t y.obj y.val) s

/-- A version record of the values in force, with all that the commit has landed (R217, R218). A standby records its partner's mode. -/
def makeVersion (s : State) (number source kind label session frame time : Nat) : Version :=
  let conf := retainedConf (landed s)
  let parent := match s.ver.dir with | v :: _ => v.conf | [] => []
  { number := number, parent := currentVersion s, source := source, kind := kind, mode := resourceMode s, rate := rate0 s, frame := frame,
    time := time, changes := confChanges conf parent, persisted := 0, label := label, session := session, conf := conf }

/-- The end of LANDING: CURRENT takes the number, the record is built (R209). -/
def finishCommit (s : State) (p : Pending) : State :=
  let l := tget p.land 0 0
  let tbOn := numF s (ob 2 0x10 1) = 2
  let n : Int := ((l / 8 : Nat) - (frameOf s 0 : Int)) * frameLen s + (l % 8 : Nat)
  let time := if tbOn then time64 (tbNs s 0 s.now + ((instantOf s 0 n - (s.now * 28224000 : Nat)) * 4) / (5 * 28224000)) else 0
  let v := makeVersion s p.number p.source p.kind p.label p.session (landTick l) time
  let s1 := (List.range 256).foldl (fun t e =>
    let x := budgetRt t e
    setBudget t e { x with running := x.next, trans := x.next }) { s with commit := none, trans := [] }
  let s2 := addVersion (bump (setN (setCommitState s1 0) (commitObj + 6) 0) (commitObj + 0x014)) v
  keepImages { s2 with mode := { s2.mode with suspended := s2.mode.pendSusp } }

/-! ### Landing ticks (R209, R215) -/

/-- Which budgets a domain's tick loads while a commit lands: 0 those of the running table, 1 those of the transition table at tick F* + 1, 2
those of the new table (R51, R215). A domain that was not ON follows CD0 (log entry 174). -/
def budgetStage (s : State) (d : Nat) : Nat :=
  match s.commit with
  | some p =>
    if commitState s ≠ 2 ∧ commitState s ≠ 3 then 0
    else
      let e := if p.land.any (fun x => x.1 == d) then d else 0
      if frameOf s e ≤ fstar p e then 0 else if frameOf s e = fstar p e + 1 then 1 else 2
  | none => 0

/-- The capture ring. -/
def capObj : Obj := ob 5 0x400 0

/-- The record channels of the readback with their strips. -/
def readbackChannels (s : State) : List (Obj × Nat) :=
  (List.range (numF s (capObj + 0x012))).map (fun j =>
    (ob 4 (0x400 + numF s (capObj + 0x013) + j) 0, numF s (capObj + 0x011) + j))

/-- A patch in force changes: the outlet makes its dip, unless a readback that runs replaces its signal (R153, R156). -/
def takePatch (s : State) (o : Obj) : State :=
  if numF s (capObj + 0x017) = 1 ∧ (readbackChannels s).any (fun e => e.1 == o) then s
  else setOutlet s o (patchChange (outletOf s o) (patchOf s o))

/-- A reference whose suspension ends, back as a LIVE write of its member (R72): a signal from silence, which the number 0x2000 stands for, a node
from gain 0, an outlet with the dip of its patch, a lent unit, a keyed unit or a linked one with a core crossfade. -/
def returnRef (s : State) (o : Obj) (gain : Int) : State :=
  if isTableMember o then takePatch s o
  else if isAudioObj o && memOf o != 0x500 then
    reactAudio s { obj := o, old := .num (if areaOf o = 8 then (if memOf o = 0x050 then 0 else 0x2000) else if areaOf o = 7 then 0xFFFF else 0x2000),
                   gain := gain }
  else if isPlacement o then startPlace s (baseOf o)
  else s

/-- Whether a suspended reference is first used by the back half of a frame. -/
def lateUse (s : State) (o : Obj) : Bool :=
  isTableMember o || areaOf o == 2 || (isPlacement o && decide (placePhase s (baseOf o) = .output))

/-- The references of a domain whose suspension ends at the landing of a commit (R72): those of the front half at tick F* + 1, those of the back
half at tick F* + 2. -/
def returnRefs (s : State) (d : Nat) (late : Bool) : State :=
  let back := s.mode.suspended.filter (fun o => !(s.mode.pendSusp.contains o) && commitDom s o == d && lateUse s o == late)
  let gains := back.map (fun o => (o, gainNow s o))
  let s1 := { s with mode := { s.mode with suspended := s.mode.suspended.filter (fun o => !(back.contains o)) } }
  gains.foldl (fun t x => returnRef t x.1 x.2) s1

/-- What a tick of domain `d` does to the commit at hand, after the tick has numbered its frame. -/
def commitTick (s : State) (d : Nat) : State :=
  match s.commit with
  | none => s
  | some p =>
    if commitState s ≠ 2 ∧ commitState s ≠ 3 then s
    else if !(p.open_.contains d) then
      (if commitState s = 3 ∧ !(p.open_.any (domOn s)) then finishCommit s p else s)
    else
      let f := fstar p d
      let k := frameOf s d
      let s1 := if commitState s = 2 ∧ f ≤ k + 1 then setCommitState s 3 else s
      let s2 := if k = f + 1 then returnRefs s1 d false else if f + 2 ≤ k then returnRefs s1 d true else s1
      if f + 2 ≤ k then
        (let rest := (dropAll p.open_ d).filter (fun e => domOn s2 e)
         if rest.isEmpty then finishCommit s2 p else { s2 with commit := some { p with open_ := rest } })
      else s2

/-! ### The journal (R221, R222) -/

/-- The words of a record's header before HEADER_CRC. -/
def headerWords (h : JournalHeader) : List Nat := [h.magic, h.kind, h.version, h.parent, h.sequence, h.length, h.payloadCrc]

/-- CRC-32 of words 0 to 6 of a header. -/
def headerCheck (h : JournalHeader) : Nat := crc32 ((headerWords h).flatMap (leBytes 4))

/-- The header of a record that the writer appends. -/
def writeHeader (kind version parent sequence length crc : Nat) : JournalHeader :=
  let h : JournalHeader := { magic := 0x4B4A5652, kind := kind, version := version, parent := parent, sequence := sequence, length := length,
                             payloadCrc := crc, headerCrc := 0 }
  { h with headerCrc := headerCheck h }

/-- Whether a header and a payload of this kind, length and CRC-32 pass the checks of a record. -/
def recordGood (h : JournalHeader) (kind length crc : Nat) : Bool :=
  h.magic == 0x4B4A5652 && h.kind == kind && h.headerCrc == headerCheck h && h.length == length && h.payloadCrc == crc

/-- Whether an image record passes its CRCs. -/
def imageGood (r : ImageRecord) : Bool := recordGood r.head 1 r.image.length (crc32 r.image)

/-- The CRC-32 of a version's state record (R217). -/
def stateCrcOf (v : Version) : Nat := (Config.recordCrc (recordConf v.conf)).toNat

/-- Whether a version in the journal is usable: its commit page and every record that the page lists pass their CRCs (R222). -/
def versionUsable (x : Versions) (e : Journalled) : Bool :=
  recordGood e.page 3 Config.pageLength.toNat (Config.pageCrc e.version.number (e.stateCrc :: e.imageCrcs)).toNat
  && recordGood e.state 2 (recordBytes e.version.conf) (stateCrcOf e.version) && e.state.payloadCrc == e.stateCrc
  && e.imageCrcs.all (fun c => x.images.any (fun r => r.head.payloadCrc == c && imageGood r))

/-- The versions to try at a restore, in the order of R223: the one that CURRENT in retention RAM names, then the others from the
newest on. -/
def restoreOrder (s : State) : List Journalled :=
  let k := s.aon.current
  let j := s.ver.journal
  if k = 0 then j
  else match j.find? (fun e => e.version.number == k) with
    | some e => e :: j.filter (fun x => x.version.number != k)
    | none => j

/-- The version directory after the contents of DRAM are lost: the versions that the journal holds usable, the one that CURRENT names first. One
that the journal does not hold is logged, and the next is current (R218, R223, R386). -/
def loseDirectory (s : State) : State :=
  if s.ver.dir.isEmpty then s
  else
    let vs := ((restoreOrder s).filter (versionUsable s.ver)).map (fun e => { e.version with persisted := 2 })
    let n := match vs with | v :: _ => v.number | [] => 0
    let lost := decide (currentVersion s ≠ 0) && !(s.ver.journal.any (fun e => e.version.number == currentVersion s))
    let s1 := if lost then writeLog s (newTest s 0 0 0x0E 0 (currentVersion s)) 0 0 0 false else s
    setN { s1 with ver := { s1.ver with dir := vs }, aon := retain s1.aon (fun a => { a with current := n }) } (commitObj + 1) n

/-- Appends a record of each content that the journal does not hold yet. -/
def addImages : List Octets → Versions → Versions
  | [], x => x
  | b :: r, x =>
    addImages r (if x.images.any (fun i => i.image == b && imageGood i) then x
      else { x with images := x.images ++ [{ head := writeHeader 1 0 0 x.sequence b.length (crc32 b), image := b }], sequence := x.sequence + 1 })

/-- Whether journalled versions fit the 96 MB region: images once, and for each version its record and its 4 KB page, with headers. -/
def journalFits (l : List Journalled) : Bool :=
  decide ((l.map (fun e => recordBytes e.version.conf + 4096 + 64)).foldl (· + ·) 0
    + (((l.flatMap (fun e => imagesOf e.version.conf)).eraseDups).map (fun b => b.length + 32)).foldl (· + ·) 0 ≤ 100663296)

/-- The longest prefix that fits, and at least the newest 2. -/
def trimJournal : Nat → List Journalled → List Journalled
  | 0, l => l
  | n + 1, l => if l.length ≤ 2 ∨ journalFits l then l else trimJournal n l.dropLast

/-- PERSISTED of a version takes a value. -/
def setPersisted (s : State) (number v : Nat) : State :=
  { s with ver := { s.ver with dir := s.ver.dir.map (fun x => if x.number = number then { x with persisted := v } else x) } }

/-- Appends a version to the journal: image records, state record, commit page. The oldest versions leave it, with the images that only they
refer to. -/
def appendVersion (x : Versions) (v : Version) : Versions :=
  let y := addImages (imagesOf v.conf) x
  let images := (imagesOf v.conf).map crc32
  let e : Journalled :=
    { version := v, stateCrc := stateCrcOf v, imageCrcs := images,
      state := writeHeader 2 v.number v.parent y.sequence (recordBytes v.conf) (stateCrcOf v),
      page := writeHeader 3 v.number v.parent (y.sequence + 1) Config.pageLength.toNat (Config.pageCrc v.number (stateCrcOf v :: images)).toNat }
  let j := trimJournal 8 ((e :: y.journal).take 8)
  { y with journal := j, sequence := y.sequence + 2,
           images := y.images.filter (fun r => j.any (fun q => (imagesOf q.version.conf).contains r.image)) }

/-- The commit page of the version in work is written and verified: it counts as persisted, whether or not the directory still holds it; older
ones may leave the journal, and the writer takes the newest version that is not persisted. -/
def journalDone (s : State) : State :=
  match s.ver.writing with
  | some v =>
    let x := appendVersion s.ver v
    let s1 := setPersisted { s with ver := { x with writing := none } } v.number 2
    let gone := s.ver.journal.filter (fun e => !(x.journal.any (fun q => q.version.number == e.version.number)))
    startWriter (gone.foldl (fun t e => setPersisted t e.version.number 3) s1)
  | none => s

/-- JOURNAL_WRITE_DONE. -/
def execJournalWriteDone (s : State) : Host.Outcome State Fault Refusal := .next (journalDone s)

/-! ### Renumbering (R220) -/

/-- A RENUMBER write in SERVICE. -/
def doRenumber (s : State) : Nat × State :=
  if modeNow s ≠ 6 then (stMode, s)
  else if commitState s ≠ 0 ∨ inTransition s then (stBusy, s)
  else (stOk, setCommitState s 4)

/-- The new number of a version: its place from the oldest, from 1 upwards; 0 for one no longer held. -/
def renumbered (dir : List Version) (k : Nat) : Nat :=
  match (dir.reverse.map Version.number).findIdx? (fun n => n == k) with
  | some i => i + 1
  | none => 0

/-- Renumbering ends: the directory, the journal, whose records are written anew, and retention RAM hold the new numbers. -/
def endRenumber (s : State) : State :=
  if commitState s ≠ 4 then s
  else
    let re := renumbered s.ver.dir
    let cur := currentVersion s
    let conv := fun (v : Version) =>
      { v with number := re v.number, parent := re v.parent, source := re v.source, kind := if v.number = cur then 4 else v.kind }
    let dir := s.ver.dir.map conv
    let held := (s.ver.journal.filter (fun e => s.ver.dir.any (fun v => v.number == e.version.number))).map (fun e => conv e.version)
    let ver := held.reverse.foldl appendVersion { s.ver with dir := dir, journal := [], images := [], writing := s.ver.writing.map conv }
    let s1 := { s with ver := ver, aon := retain s.aon (fun a => { a with current := re cur }) }
    setCommitState (setN s1 (commitObj + 1) (re cur)) 0

/-- RENUMBER_END. -/
def execRenumberEnd (s : State) : Host.Outcome State Fault Refusal := .next (endRenumber s)

end Sys2Proof.Machine
end

