-- ==== Sys2Proof/Machine/Apply.lean ====
section
/-!
DEFINITION. Machine/Apply.lean: what a tick does with the values that land at it outside the audio path, and with the life cycles of
its units (R8 to R12, R27, R52, R139, R212, R277, R300, R318); look-back capture and its readback (R154 to R156); domain bridges
(R67).
-/
namespace Sys2Proof.Machine

/-! ### Units as they start -/

/-- Whether an object of the audio path belongs to a tile. -/
def onTile (s : State) (t : Nat) (o : Obj) : Bool :=
  let a := areaOf o
  ((a == 5 && decide (instOf o < 0x400)) || a == 6 || a == 7 || a == 8) && unitTile s o == t

/-- The runtime of a strip that starts with the values in force. -/
def startStrip (s : State) (u : Obj) : State :=
  let n := delayOf s (u + 0x050) (u + 0x051) (domHz s (ownerDom s u))
  setN (putUnit s u { UnitRt.fresh with delay := { DelayRt.fresh with now := n } }) (u + 0x052) n

/-- The runtime of an output processor that starts with the values in force. -/
def startProc (s : State) (o : Obj) : State :=
  let hz := domHz s (ownerDom s o)
  let n := delayOf s o (o + 1) hz
  let l : LimRt := { LimRt.fresh with d := lookahead s (numF s (o + 0x042)) hz }
  let r : OutRt := { OutRt.fresh with delay := { DelayRt.fresh with now := n }, taps := firWords s o, firOn := isOn s (o + 0x010), lim := l }
  setN (setN (putOut s o r) (o + 2) n) (o + 0x016) (if numF s (o + 0x011) ≤ 2048 / unitClass s o then 0 else 1)

/-- The nodes of a tile's rows stand with START and TARGET at their stored gains (R224). -/
def restNodes (s : State) (t : Nat) : State :=
  (listed s (fun o => areaOf o == 6 && decide (memOf o < 0x400) && onTile s t o)).foldl (fun u o =>
    putRamp u o { Ramp.none with start := gainTarget u o, target := gainTarget u o }) s

/-- Audio state of a tile's units from its start: no ramp, no crossfade, histories at 0. -/
def startTile (s : State) (t : Nat) : State :=
  let drop := fun (o : Nat) => onTile s t o
  let a := s.audio
  let s1 : State := { s with audio := { a with units := a.units.filter (fun e => !(drop e.1)), outs := a.outs.filter (fun e => !(drop e.1)),
                                               auto := a.auto.filter (fun e => !(drop e.1)), ramps := a.ramps.filter (fun e => !(drop e.1)) } }
  let per := (lim s).strips / 16
  let s2 := ((List.range per).map (fun j => ob 5 (per * t + j) 0)).foldl startStrip (restNodes s1 t)
  let s3 := (tileProcs s t).foldl startProc s2
  ((enabledPlaces s3).filter (fun p => placeTile p == t)).foldl startPlace s3

/-- The user signals that a strip's insert send and direct output write (R137, R148). -/
def strip2Signals (s : State) (u : Obj) : List Nat :=
  (if isOn s (u + 0x200) then [numF s (u + 0x201)] else []) ++ (if isOn s (u + 0x400) then [numF s (u + 0x401)] else [])

/-- The signals that a tile's units and placements produce (R18, R19). -/
def allTileSignals (s : State) (t : Nat) : List Nat :=
  let per := (lim s).strips / 16
  tileSignals s t ++ ((List.range per).map (fun j => ob 5 (per * t + j) 0)).flatMap (strip2Signals s)
  ++ ((enabledPlaces s).filter (fun p => placeTile p == t && !isSlotPlace p)).flatMap (scatterSignals s)

/-- A tile that has entered a life-cycle state. -/
def tileEntered (s : State) (t st : Nat) : State :=
  match st with
  | 1 => startTile s t
  | 0 => (allTileSignals s t).foldl clearSig s
  | 5 => (allTileSignals s t).foldl fadeFrom s
  | _ => s

/-! ### Look-back capture (R154 to R156) -/

/-- Changes the hidden part of the capture ring. -/
def setCap (s : State) (x : Capture) : State := { s with audio := { s.audio with cap := x } }

/-- Frames of 30 s in a domain. -/
def captureFrames (s : State) (d : Nat) : Nat := 30 * domHz s d / frameLen s

/-- The word of an outlet that carries the readback of strip `k`. -/
def readbackWord (k : Nat) : Nat := 0x10000 + k

/-- The domain of the strips that are read back. -/
def readbackDom (s : State) : Nat := ownerDom s (ob 5 (numF s (capObj + 0x011)) 0)

/-- A readback ends: every record channel returns to its patch with a dip. -/
def endReadback (s : State) (st : Nat) : State :=
  (readbackChannels s).foldl (fun t e => setOutlet t e.1 (patchChange (outletOf t e.1) (patchOf t e.1))) (setN s (capObj + 0x017) st)

/-- A readback that runs is aborted; one that RB_GO has asked for waits for its tick. -/
def abortReadback (s : State) : State := if numF s (capObj + 0x017) = 1 then endReadback s 3 else s

/-- The capture ring has entered a life-cycle state. -/
def captureEntered (s : State) (st : Nat) : State :=
  match st with
  | 1 => setN (setN (setCap s { s.audio.cap with line := [], staged := [] }) (capObj + 3) 0) (capObj + 4) 0
  | 0 => setCap s { s.audio.cap with line := [], staged := [] }
  | 2 => s
  | _ => abortReadback s

/-- One frame of the capture writer in STRIP of domain `d`: the signals that the INPUT members name (R154). A frame that finds 4 frames of its
strips in the staging buffer is dropped. -/
def captureFrame (s : State) (d f : Nat) : State :=
  let st := unitState s capObj
  if (st = 2 ∨ st = 3 ∨ st = 4) ∧ !(isOn s (capObj + 2)) then
    let us := (List.range (lim s).strips).filter (fun k => tileDom s (stripTile s k) == d && tileEnabled s (stripTile s k))
    let row := us.map (fun k => (k, if suspended s (ob 5 k 0) then silence (frameLen s) else receive s (numF s (ob 5 k 0)) f .strip))
    let c := s.audio.cap
    let waiting := (c.staged.filter (fun e => e.2.any (fun x => (row.head?.map (·.1)) == some x.1))).length
    if row.isEmpty then s
    else if 4 ≤ waiting then bump s (capObj + 5)
    else setCap s { c with staged := c.staged ++ [(f, row)] }
  else s

/-- Puts one staged frame into the lines of its strips, each of 30 s at the rate of its strip's domain. -/
def drainOne (s : State) (x : Nat × List (Nat × List Int)) : State :=
  let line := x.2.foldl (fun l e =>
    let n := captureFrames s (tileDom s (stripTile s e.1))
    tput l [] e.1 (((x.1, e.2) :: tget l [] e.1).filter (fun y => decide (x.1 < y.1 + n)))) s.audio.cap.line
  setCap s { s.audio.cap with line := line }

/-- The line whose frames NEWEST and OLDEST name: that of the first strip of the readback, or of the lowest strip with one (log entry 175). -/
def namedLine (s : State) : List (Nat × List Int) :=
  let l := s.audio.cap.line
  let k := numF s (capObj + 0x011)
  if (tget l [] k).isEmpty then (match l with | e :: _ => e.2 | [] => []) else tget l [] k

/-- The drain of the staging buffer in BACKGROUND of CD0, with NEWEST and OLDEST (R55, R155). -/
def drainCapture (s : State) : State :=
  let c := s.audio.cap
  if c.staged.isEmpty then s
  else
    let s1 := (c.staged).foldl drainOne (setCap s { c with staged := [] })
    let l := namedLine s1
    setN (setN s1 (capObj + 3) ((l.head?.map (·.1)).getD 0)) (capObj + 4) ((l.getLast?.map (·.1)).getD 0)

/-- A frame of a strip's line; silence where the line holds none. -/
def capturedFrame (s : State) (k f : Nat) : List Int :=
  match (tget s.audio.cap.line [] k).find? (fun e => e.1 == f) with
  | some e => e.2
  | none => silence (frameLen s)

/-- RB_GO (R155): the readback starts at the next tick. -/
def doReadback (s : State) : Nat × State :=
  if s.audio.cap.rbArmed ∨ numF s (capObj + 0x017) = 1 ∨ !(isOn s (capObj + 0x010)) ∨ unitState s capObj ≠ 2 then (stBusy, s)
  else (stOk, setCap s { s.audio.cap with rbArmed := true })

/-- What a tick of the strips' domain does to the readback: it starts, or it has read its last frame, or the ring has left ON. -/
def tickReadback (s : State) (d : Nat) : State :=
  if readbackDom s ≠ d then s
  else
    let c := s.audio.cap
    let n := numF s (capObj + 0x015)
    if c.rbArmed && unitState s capObj != 2 then setN (setCap s { c with rbArmed := false }) (capObj + 0x017) 3
    else if c.rbArmed then
      let s1 := setCap s { c with rbArmed := false, rbNext := numF s (capObj + 0x014), rbLeft := n, rbAll := n == 0 }
      (readbackChannels s).foldl (fun t e => setOutlet t e.1 (patchChange (outletOf t e.1) (readbackWord e.2))) (setN s1 (capObj + 0x017) 1)
    else if numF s (capObj + 0x017) = 1 then
      (if unitState s capObj ≠ 2 then endReadback s 3
       else if (!c.rbAll && c.rbLeft == 0) || (decide (numF s (capObj + 3) < c.rbNext) && (c.rbAll || isOn s (capObj + 2))) then endReadback s 2
       else s)
    else s

/-- EGRESS of the strips' domain has delivered one captured frame. -/
def stepReadback (s : State) (d : Nat) : State :=
  let c := s.audio.cap
  if readbackDom s = d ∧ ((readbackChannels s).any (fun e => decide (0x10000 ≤ (outletOf s e.1).carried)) || numF s (capObj + 0x017) = 1) then
    setCap s { c with rbNext := c.rbNext + 1, rbLeft := c.rbLeft - 1 }
  else s

/-! ### Domain bridges (R67) -/

/-- The hidden part of a bridge channel. -/
def bridgeRt (s : State) (u : Obj) : BridgeRt := tget s.audio.bridges BridgeRt.rest u

/-- Changes the hidden part of a bridge channel. -/
def setBridge (s : State) (u : Obj) (x : BridgeRt) : State :=
  { s with audio := { s.audio with bridges := tput s.audio.bridges BridgeRt.rest u x } }

/-- A bridge channel that has entered a life-cycle state. -/
def bridgeEntered (s : State) (u : Obj) (st : Nat) : State :=
  match st with
  | 0 => setN (setBridge (clearSig s (numF s (u + 2))) u BridgeRt.rest) (u + 5) 0
  | 1 => setBridge s u BridgeRt.rest
  | 5 => fadeFrom s (numF s (u + 2))
  | _ => s

/-- The bridge channels that run. -/
def runningBridges (s : State) : List Obj :=
  ((List.range 256).map (fun c => ob 2 (0x100 + c) 0)).filter (fun u => unitState s u != 0 && unitState s u != 5)

/-- EGRESS of domain `d`: every running channel whose source lies there takes one frame of it. -/
def bridgeTake (s : State) (d f : Nat) : State :=
  (runningBridges s).foldl (fun t u =>
    let x := numF t (u + 1)
    if (signalDomain t x).getD 0 = d then
      (let v := if suspended t (u + 1) then silence (frameLen t) else receive t x f .egress
       let r := bridgeRt t u
       setBridge t u { r with hist := (v.reverse ++ r.hist).take 1024, taken := r.taken + v.length, tickAt := (dom t d).cycle })
    else t) s

/-- Source samples between two destination samples, in units of 2^-32 (RATIO, R68). -/
def bridgeStep (ratio : Nat) : Int := if ratio = 0 then 2 ^ 32 else 2 ^ 55 / (ratio : Int)

/-- The open part of a channel's delay: within one destination sample, which no rule fixes, and constant (R67). -/
def bridgeStart (s : State) (u : Obj) : State :=
  let step := (bridgeStep (numF s (u + 5))).toNat
  let q := drawUpTo s (2 * step)
  setBridge q.2 u { bridgeRt s u with shift := (q.1 : Int) - step }

/-- The place in the source, in units of 2^-32 source sample, of sample 0 of a destination period: 1.0 ms before the instant of its tick, counted
from the tick at which the newest source frame was taken, so that no drift of the two clocks moves it (R67). -/
def bridgePlace (s : State) (u : Obj) (d : Nat) : Int :=
  let r := bridgeRt s u
  let hz : Int := domHz s ((signalDomain s (numF s (u + 1))).getD 0)
  let since : Int := ((dom s d).cycle : Int) - r.tickAt
  ((r.taken : Int) - frameLen s) * 2 ^ 32 + (since - 1250000) * hz * 2 ^ 32 / 1250000000 + r.shift

/-- The sample at a place: the filter over the 64 source samples around it. -/
def bridgeAt (r : BridgeRt) (place : Int) : Int :=
  let k := place / 2 ^ 32
  let w := (List.range 64).map (fun (j : Nat) =>
    let b : Int := (r.taken : Int) - 1 - (k - 31 + (j : Int))
    if b < 0 then 0 else smp r.hist b.toNat)
  (Config.bridgeSample w (place % 2 ^ 32).toNat).toInt

/-- INGEST of domain `d`: every channel that delivers frame `f` there converts it, within the frame at the measured ratio (R67; the
converter's filter is open, log entry 7). -/
def bridgeGive (s : State) (d f : Nat) : State :=
  (runningBridges s).foldl (fun t u =>
    if numF t (u + 3) = d ∧ delivers t u f then
      (let t1 := if (bridgeRt t u).count = 0 then bridgeStart t u else t
       let r := bridgeRt t1 u
       let n := frameLen t1
       let step := bridgeStep (numF t1 (u + 5))
       let v := (List.range n).map (fun (i : Nat) =>
         let y := bridgeAt r (bridgePlace t1 u d + (i : Int) * step)
         if r.fadeK + i < 64 then weigh (fadeIn (r.fadeK + i) 64) y else y)
       putSig (setBridge t1 u { r with count := r.count + n, fadeK := min 64 (r.fadeK + n) }) (numF t1 (u + 2)) f v)
    else t) s

/-- A channel's ratio estimate has settled: the next tick of its destination domain takes it out of STARTING, and it fades in (R27, R67). -/
def execBridgeRatioSettled (c ratio : Nat) (s : State) : Host.Outcome State Fault Refusal :=
  let u := ob 2 (0x100 + c) 0
  .next (if c < 256 ∧ unitState s u = 1 then
      setN (setBridge s u { bridgeRt s u with count := 0, fadeK := 0, ready := true }) (u + 5) ratio
    else if c < 256 ∧ unitState s u = 2 then setN s (u + 5) ratio
    else s)

/-! ### Life cycles at a tick -/

/-- A unit that has entered a life-cycle state. -/
def unitEntered (s : State) (u : Obj) (st : Nat) : State :=
  let i := instOf u
  match areaOf u with
  | 2 => if 0x100 ≤ i then bridgeEntered s u st else s
  | 3 => portEntered s i st
  | 4 => if i < 0x200 then ctxEntered s i st else ringEntered s (i - 0x300) st
  | 5 => captureEntered s st
  | 9 => tileEntered s (i - 0x100) st
  | 12 => pairEntered s st
  | _ => s

/-- A tick of a unit's life cycle with what its new state starts. A tile and the capture ring take one tick in STARTING, a bridge channel
stays there until its ratio has settled (R67). -/
def moveOn (s : State) (u : Obj) : State :=
  let st := unitState s u
  let quick := areaOf u == 9 || areaOf u == 5 || (areaOf u == 2 && (bridgeRt s u).ready)
  let t := if quick && st == 1 && (life s u).request != some false then moveUnit s u 2 else tickUnit s u
  if unitState t u = st then t else unitEntered t u (unitState t u)

/-- Whether anything can move a unit at a tick. -/
def stirs (s : State) (u : Obj) : Bool := unitState s u != 0 || (life s u).request.isSome

/-- A fault that stops a unit at a tick, with what follows (R11, R398). -/
def stopFaulted (s : State) (u : Obj) : State := if unitState s u = 0 ∨ unitState s u = 5 then s else unitEntered (faultUnit s u) u 5

/-! ### Domains and time bases (R277, R300) -/

/-- A landing on its way in a domain that leaves ON lands in CD0 (R212). -/
def rehome (s : State) (d : Nat) (y : Landing) : Landing :=
  if y.dom ≠ d then y
  else
    let l := match s.commit with | some p => if y.commit then tget p.land 0 0 else 0 | none => 0
    { y with dom := 0, frame := if l = 0 then frameOf s 0 + 1 else landTick l, sample := 0 }

/-- A domain that has entered a life-cycle state. -/
def domainEntered (s : State) (d st : Nat) : State :=
  let o := ob 2 d 0
  match st with
  | 0 =>
    let s1 := setN (setN (setN (setN s (o + 0x10) (valNat (dfl (o + 0x10)))) (o + 0x11) (valNat (dfl (o + 0x11)))) (o + 0x12) 0) (o + 0x13) 0
    let s2 := lowOutputs (setDom s1 d { dom s1 d with running := false, pendStep := 0, slew := 0, phaseErr := 0 }) d
    { s2 with dict := { s2.dict with landing := s2.dict.landing.map (rehome s2 d) } }
  | 1 => startDpll (setDom s d { dom s d with running := false }) d
  | _ => s

/-- The life cycle of a domain at a tick; `own` says that the tick is its own. A domain without ticks moves at those of CD0. -/
def moveDomain (s : State) (d : Nat) (own : Bool) : State :=
  let u := ob 2 d 0
  let st := unitState s u
  if own == (dom s d).running then
    (let t := tickUnit s u
     if unitState t u = st then t else domainEntered t d (unitState t u))
  else s

/-- The life cycle of a time base at a CD0 tick. -/
def moveTb (s : State) (k : Nat) : State :=
  let u := tbObj k
  let st := unitState s u
  let t := tickUnit s u
  if unitState t u = st then t else if unitState t u = 1 then startTb t k else t

/-! ### Values that land at a tick -/

/-- Whether an object is the ENABLE of a unit with a life cycle. -/
def isEnable (o : Obj) : Bool :=
  let i := instOf o
  memOf o == 0 &&
  (match areaOf o with
   | 2 => decide (i < 0x14) || decide (0x100 ≤ i)
   | 3 => true
   | 4 => decide (i < 0x200) || (decide (0x320 ≤ i) && decide (i < 0x340))
   | 5 => i == 0x400
   | 9 => decide (0x100 ≤ i) && decide (i < 0x110)
   | 12 => true
   | _ => false)

/-- What a landed member of a placement starts (R131, R216, R467): a placement that is enabled takes its sets, CONTEXT_INIT goes into its blocks,
and the core of a slot's strip crosses to what ENABLE, IMAGE, COEF or COEF_BASE select. -/
def placeReact (s : State) (o : Obj) (old : Val) : State :=
  let p := baseOf o
  let core := fun (t : State) => if isSlotPlace p && decide (placeNo p < (lim t).strips / 16) then coreChange t (slotStrip t p) o old else t
  match memOf o with
  | 0 => core (if isOn s p then startPlace s p else setN s (p + 0x00B) 0)
  | 0x00B => if isPlaced s p then core (startPlace s p) else s
  | 1 => if isPlaced s p then core s else s
  | 6 => if isPlaced s p then loadContext s p else s
  | 7 => if isPlaced s p then core s else s
  | 8 => if isPlaced s p then core s else s
  | _ => s

/-- What a value that has landed outside the audio path starts; `before` is the value before. -/
def reactTick (s : State) (o : Obj) (before : Val) : State :=
  let old := valNat before
  let i := instOf o
  let m := memOf o
  if isEnable o ∧ areaOf o = 3 ∧ isOn s o ∧ unitState s o = 0 ∧ numF s (o + 0x013) = 0 then raise s 0x3000 o 0x100
  else if isEnable o then
    (let on := isOn s o
     let s1 := request s o on true
     let st := unitState s o
     if areaOf o = 2 ∧ 0x10 ≤ i ∧ i < 0x14 ∧ !on ∧ st ≠ 0 then stopTb s1 (i - 0x10) else s1)
  else if areaOf o = 3 ∧ m = 0x010 then
    (let x := tdmPort s i
     let new := numF s o
     setPort s i { x with outK := x.outK.filter (fun e => !(bit new e.1 == 1 && bit old e.1 == 0)) })
  else if (areaOf o = 3 ∧ m = 0x00D) ∨ (areaOf o = 4 ∧ i < 0x100 ∧ m = 0x014) then (if numF s o = 1 then unmutePairs s (baseOf o) else s)
  else if isTableMember o then takePatch s o
  else if isPlacement o then placeReact s o before
  else if areaOf o = 2 ∧ i < 4 then reactClock s o old
  else if o = capObj + 2 ∧ numF s o ≠ old then abortReadback s
  else s

/-- Whether a member of a placement lands with its ENABLE, which then starts the placement whole. -/
def startsWith (s : State) (vs : List (Obj × Val)) (o : Obj) : Bool :=
  isPlacement o && memOf o != 0 && !(isOn s (baseOf o)) && vs.any (fun e => e.1 == baseOf o)

/-- Puts values in force at a tick, then starts what each of them starts. -/
def applyTick (s : State) (vs : List (Obj × Val)) : State :=
  let olds := (vs.filter (fun e => !(startsWith s vs e.1) && !(isClear e.1))).map (fun e => (e.1, forceVal s e.1))
  let s1 := vs.foldl (fun t e => putLanded t e.1 e.2) (unsuspend s (vs.map (·.1)))
  olds.foldl (fun t e => reactTick t e.1 e.2) s1

/-- The values outside the audio path that have landed by sample `i` of the present period of domain `d`. -/
def landOthers (s : State) (d i : Nat) : State :=
  let p := fun (o : Obj) => !(isAudioObj o)
  let f := frameOf s d
  applyTick (dropDue s d f i p) (dueValues s d f i p)

/-- The values that land at the present tick of domain `d`. -/
def landTicks (s : State) (d : Nat) : State := landOthers s d 0

/-- The values of a commit that land within a frame outside the audio path (R212): they are in force from the first phase window of their domain
that begins at their sample or after it (log entry 213). -/
def landWithin (s : State) (d : Nat) (ph : Phase) : State :=
  landOthers s d (frameLen s * (window (frameLen s == 1) ph).1 / 100)

/-- Every unit of the tick's domain that can move; CD0 moves the time bases, the link, and the domains without ticks of their own. -/
def moveUnits (s : State) (d : Nat) : State :=
  let mine := lifeUnits.filter (fun u => ownerDom s u == d && stirs s u)
  let s1 := mine.foldl moveOn s
  let s2 := moveDomain s1 d true
  if d = 0 then
    (let s3 := [1, 2, 3].foldl (fun t e => moveDomain t e false) s2
     let s4 := (List.range 4).foldl moveTb s3
     linkTick (if stirs s4 pairObj then moveOn s4 pairObj else s4))
  else s2

end Sys2Proof.Machine
end

