-- ==== Sys2Proof/Machine/Modes.lean ====
section
/-!
DEFINITION. Machine/Modes.lean: operating modes (R57 to R75): the request, the adaptation of a version to a mode, the transition with its
fades, the entry into SERVICE, and the restore of a configuration (R224).
-/
namespace Sys2Proof.Machine

/-! ### Configurations -/

/-- The engine mode object. -/
def modeObj : Obj := ob 1 0 0

/-- TRANSITION takes a value. -/
def setTrans (s : State) (v : Nat) : State := setN s (modeObj + 4) v

/-- The state with the RETAINED members of a configuration in force. -/
def withConf (s : State) (conf : Tab Val) : State :=
  let rest := s.dict.force.filter (fun e => !isRetained e.1)
  conf.foldl (fun t e => setF t e.1 e.2) { s with dict := { s.dict with force := rest } }

/-- A state that runs in a mode at a CD0 rate; a standby keeps its MODE and follows its partner's (R64, R75). -/
def inMode (s : State) (mode rate : Nat) : State :=
  if modeNow s = 5 ∧ mode ≠ 6 then
    setN { s with pair := { s.pair with partner := s.pair.partner.map (fun p => { p with mode := mode, rate := rate }) } } (modeObj + 1) rate
  else setN (setN s modeObj mode) (modeObj + 1) rate

/-! ### Adaptation (R71, R72, R322, R351) -/

/-- Members counted in samples: of the units that both modes populate, and FRAME_WIDTH of the domains (R71, R288). -/
def sampleMembers (a b : Limits) : List Obj :=
  let per := fun (ar base n : Nat) (ms : List Nat) => (List.range n).flatMap (fun k => ms.map (fun m => ob ar (base + k) m))
  let core := [0x001, 0x042, 0x181, 0x302]
  let proc := [0x014, 0x015, 0x022, 0x023]
  let nb := min a.buses b.buses
  let nm := min a.mats b.mats
  per 5 0 (min a.strips b.strips) core ++ per 7 0 nb core ++ per 6 0 nb [0x401] ++ per 7 0x200 nb proc
  ++ per 7 0x100 nm core ++ per 6 0x100 nm [0x401] ++ per 7 0x300 nm proc ++ per 2 0 4 [0x023]

/-- A sample count at a new rate: scaled, rounded to the nearest sample, clamped to its range. -/
def scaleCount (o : Obj) (n old new : Nat) : Nat :=
  let v := (divNearest ((n * new : Nat) : Int) old).toNat
  match rowOf o with
  | some r => (match r.rng with
    | .span lo hi => if v < lo then lo else if hi < v then hi else v
    | _ => v)
  | none => v

/-- Sample counts of the units whose domain's rate differs between two configurations. -/
def scaleCounts (old new : State) : State :=
  (sampleMembers (lim old) (lim new)).foldl (fun t o =>
    let a := domHz old (ownerDom old o)
    let b := domHz new (ownerDom new o)
    if a = b then t else setN t o (scaleCount o (numF old o) a b)) new

/-- A port that the mode does not fit: beyond the usable range, or a frame longer than the limit of R313. -/
def portDormant (c : State) (p : Nat) : Bool :=
  decide ((lim c).ports ≤ p) || decide (1024 / unitClass c (portObj p) < numF c (portObj p + 3))

/-- An enabled context that the mode does not fit (R351); one that is not enabled has nothing to carry, as the count of R75's example shows. -/
def ctxDormant (c : State) (k : Nat) : Bool :=
  isOn c (ctxObj k)
  && (decide (mostChannels c k < chansOf c k) || (ctxRt c k).signals.any (fun x => decide (0x600 + (lim c).rx ≤ x)))

/-- A host ring whose channels the mode does not populate. -/
def ringDormant (c : State) (r : Nat) : Bool := decide ((lim c).host < numF c (ringObj r + 3) + numF c (ringObj r + 4))

/-- The ENABLE members of the units that a mode leaves dormant for their format. -/
def dormantUnits (c : State) : List Obj :=
  ((List.range 48).filter (portDormant c)).map portObj ++ ((List.range 512).filter (ctxDormant c)).map ctxObj
  ++ (((List.range 32).map (· + 32)).filter (ringDormant c)).map ringObj

/-- DORMANT (R71). -/
def dormantCount (c : State) : Nat :=
  let l := lim c
  (1024 - l.strips) + (256 - l.buses) + (128 - l.mats) + (384 - l.buses - l.mats) + (2048 - l.units) + 2 * (1024 - l.host)
  + (dormantUnits c).length

/-- Suspended references: broken ones, once lists and loans that break no longer count as writers and loans (R72). -/
def suspendRefs (c : State) : State :=
  let d := dormantUnits c
  let c1 : State := { c with mode := { c.mode with suspended := d } }
  let first := (brokenRefs c1).filter (fun o => areaOf o == 7 || isPlacement o)
  let c2 : State := { c with mode := { c.mode with suspended := d ++ first } }
  { c with mode := { c.mode with suspended := (d ++ brokenRefs c2).eraseDups } }

/-- Customer programs are placed anew in ascending order, each if it fits; the rest is DROPPED (R71). -/
def placeAgain (c : State) : State :=
  let ps := (listed c (fun o => isPlacement o && memOf o == 0 && numF c o == 1)).filter (fun p =>
    takesPart c p && (placeImage c p).length != 0 && decide (numF c (p + 1) < 0xF0)
    && (!isSlotPlace p || decide (placeNo p < (lim c).strips / 16)))
  revive (ps.foldl (fun t p => setN t (p + 0x00B) 2) c)

/-- DROPPED: placements not placed. -/
def droppedCount (c : State) : Nat := (listed c (fun o => isPlacement o && memOf o == 0x00B && numF c o == 2)).length

/-- The references that a suspended member stands for: a list counts its entries that break the rules. -/
def refCount (c : State) (o : Obj) : Nat :=
  if isPlacement o ∧ (memOf o = 9 ∨ memOf o = 0x00A) then
    ((listEntries (valOctets (forceVal c o))).filter (fun e => crosses c (ownerDom c o) e.2)).length
  else if memOf o = 0 ∧ (areaOf o = 3 ∨ (areaOf o = 4 ∧ instOf o < 0x400)) then 0
  else 1

/-- SUSPENDED: references suspended in the running version. -/
def suspendedCount (s : State) : Nat := (s.mode.suspended.map (refCount s)).foldl (· + ·) 0

/-- Look-ahead 0 of every processor that TIGHT populates (R61, R71). -/
def noLookahead (c : State) : State :=
  ((List.range 16).flatMap (tileProcs c)).foldl (fun t o => setN t (o + 0x042) 0) c

/-- The configuration in force adapted to a mode and rate; out of SERVICE, the current version is adapted (R71, R75). A context that is
enabled again takes its signal numbers; the result names one that finds none free. -/
def adapt (s : State) (mode rate : Nat) : State × Option Nat :=
  let old := match modeNow s, s.ver.dir.find? (fun v => v.number == currentVersion s) with
    | 6, some v => inMode (withConf s v.conf) v.mode v.rate
    | _, _ => s
  let c1 := scaleCounts old (inMode old mode rate)
  let c2 := if mode = 4 then noLookahead c1 else c1
  giveSignals (placeAgain (suspendRefs c2))

/-! ### The restore of a configuration (R224) -/

/-- SERVES and SERVED of every dynamics unit from the loans in force (R182). -/
def initServes (s : State) : State :=
  let s1 := (listed s (fun o => areaOf o == 8 && (memOf o == 0x060 || memOf o == 0x061))).foldl (fun t o => setF t o (dfl o)) s
  (listed s1 (isDynUnit s1)).foldl (fun t o =>
    match lentUnit [] t (baseOf o) with
    | some k => serveUnit t k
    | none => t) s1

/-- Outlets carry their patches at once. -/
def initOutlets (s : State) : State :=
  (listed s (fun o => isTableMember o && !(areaOf o == 3 && memOf o == 0x010) && (lookup s o).isSome)).foldl (fun t o =>
    let w := patchOf t o
    if w = 0 then t else setOutlet t o { OutletRt.idle with carried := w }) s

/-- The budgets of a configuration are in force; the counters take them at the next tick (R47). -/
def initBudgets (s : State) : State :=
  let ds := demands s s
  (List.range 256).foldl (fun t e =>
    let b := entryBudget s ds e
    setBudget t e { budgetRt t e with running := b, next := b, trans := b }) s

/-- The audio path in the state in which a configuration starts: nothing held, every value at its target, histories at 0. -/
def initAudio (s : State) : State :=
  let a : Audio := { s.audio with sig := [], slots := [], ramps := [], units := [], outs := [], auto := [], outlets := [], bridges := [], cap := { line := [], staged := [], rbNext := 0, rbLeft := 0, rbAll := false, rbArmed := false } }
  let s1 : State := { s with audio := a, lanes := [], trans := [], dict := { s.dict with landing := [], held := [], copying := [] } }
  let s2 := if numF s1 (capObj + 0x017) = 1 then setN s1 (capObj + 0x017) 3 else s1
  let s3 := keepImages s2
  initBudgets (initOutlets (initServes ((List.range 16).foldl startTile (loadImages s3 s3))))

/-- Whether a unit runs in a configuration: ENABLE TRUE, and not dormant. -/
def wanted (s : State) (u : Obj) : Bool :=
  isOn s u && !(isDormant s u) && (areaOf u != 3 || decide (instOf u < (lim s).ports))

/-- A unit goes OFF at once, with what its stop and its OFF state bring. -/
def forceOff (s : State) (u : Obj) : State :=
  if unitState s u = 0 then s else unitEntered (setLife (moveUnit (unitEntered s u 3) u 0) u Life.rest) u 0

/-- A unit as a configuration is restored: a request where it stands OFF; where it runs, its clocks, rings or ratio start again. -/
def resumeUnit (s : State) (u : Obj) : State :=
  let i := instOf u
  let st := unitState s u
  if !(wanted s u) then (if isOn s u then forceOff s u else s)
  else if st = 0 then request s u true false
  else if st = 5 then s
  else match areaOf u with
    | 3 => if st = 1 then s else restartPort s i
    | 4 => if i < 0x200 then s else setRing s (i - 0x300) { ringRt s (i - 0x300) with gap := true, sinceIrq := 0 }
    | 2 => if st = 2 then bridgeEntered (moveUnit s u 1) u 1 else s
    | 5 => captureEntered s 1
    | _ => s

/-- Enable requests of the units of a configuration (R224). -/
def resumeUnits (s : State) : State :=
  let s1 := [1, 2, 3].foldl (fun t d => if isOn t (ob 2 d 0) && unitState t (ob 2 d 0) == 0 then request t (ob 2 d 0) true false else t) s
  let s2 := (List.range 4).foldl (fun t k => if isOn t (tbObj k) && unitState t (tbObj k) == 0 then request t (tbObj k) true false else t) s1
  let s3 := lifeUnits.foldl resumeUnit s2
  if isOn s3 pairObj && unitState s3 pairObj == 0 then request s3 pairObj true false else s3

/-! ### Requests (R70) -/

/-- The rate codes of a mode (R57). -/
def modeRates (m : Nat) : List Nat :=
  match m with
  | 1 => [0, 1] | 2 => [2, 3] | 3 => [4, 5] | 4 => [0, 1, 2, 3] | 6 => [1] | _ => []

/-- REQ_RATE as written last. -/
def reqRate (s : State) : Nat := valNat ((onItsWay s (modeObj + 2)).getD (forceVal s (modeObj + 2)))

/-- A transition starts: VALIDATE. -/
def startTransition (s : State) (mode rate : Nat) : State :=
  let s1 := formRecord s (recordOf s (.notice mode rate) [] [] [])
  setTrans { s1 with mode := { s1.mode with target := mode, rate := rate, leaving := modeNow s, oldRate := rate0 s, armed := false } } 1

/-- A standby that leaves for SERVICE sends its release notice and becomes ORPHAN (R64, R431). -/
def leavePair (s : State) : State := if role s = 2 then setRole (sendNotice (linkLost s)) 3 else s

/-- A write of REQ_MODE by a session of a privilege, `txn` with a transaction open: the first refusal that applies, or the transition
(R70, R239, R387, R400). -/
def doReqMode (s : State) (priv m : Nat) (txn : Bool) : Nat × State :=
  let r := reqRate s
  let rate := if m = 6 then 1 else r
  if m = 0 ∨ 6 < m ∨ (m ≠ 5 ∧ !((modeRates m).contains r)) then (stRange, s)
  else if priv < 2 ∨ (m = 6 ∧ priv < 3) then (stDenied, s)
  else if m = 5 ∨ (modeNow s = 5 ∧ m ≠ 6) ∨ (isFatal s ∧ m ≠ 6) then (stMode, s)
  else if inTransition s ∨ commitState s ≠ 0 ∨ training s ∨ txn then (stBusy, s)
  else if !(bankEmpty s) then (stConflict, s)
  else if m ≠ 6 ∧ lastVersion ≤ currentVersion s then (stVersions, s)
  else if [1, 2, 3].any (fun d => unitState s (ob 2 d 0) != 0 && decide (rateClass rate < rateClass (domRate s d))) then (stMode, s)
  else if m = modeNow s ∧ rate = rate0 s then (stOk, s)
  else (stOk, startTransition (if m = 6 then leavePair s else s) m rate)

/-- The staging bank and the commit at hand are gone. -/
def dropStaged (s : State) : State :=
  let t : State := { emptyBank s with commit := none, trans := [] }
  setN (setCommitState { t with dict := { t.dict with landing := t.dict.landing.filter (fun y => !y.commit) } } 0) (commitObj + 6) 0

/-- A standby enters SERVICE by the release notice, a FATAL error or a disable of the link (R431). Its copies of the staging bank and of a
scheduled commit are dropped, so that the transition finds both empty (R205; log entry 176). -/
def serviceByRole (s : State) : State :=
  if s.pair.toService ∧ !(inTransition s) then
    (let s1 : State := { dropStaged s with pair := { s.pair with toService := false } }
     if modeNow s1 = 6 then s1 else startTransition (setRole (setSync s1 0) 3) 6 1)
  else s

/-! ### The transition (R73, R75) -/

/-- The end of a transition that fails in VALIDATE. -/
def failTransition (s : State) (st : Nat) : State := raise (setN (setTrans s 0) (modeObj + 5) st) 0x1001 (modeObj + 5) st

/-- FADE_OUT waits for its CD0 tick. -/
def startFadeOut (s : State) : State := setTrans { s with mode := { s.mode with armed := true } } 2

/-- Adaptation and validation end (R71). -/
def endModeValidation (s : State) : State :=
  if numF s (modeObj + 4) ≠ 1 then s
  else if s.mode.target = 6 then startFadeOut s
  else
    let c := adapt s s.mode.target s.mode.rate
    match validate s c.1 c.2 with
    | (t, some f) => failTransition t f.1
    | (t, none) => startFadeOut t

/-- MODE_VALIDATION_END. -/
def execModeValidationEnd (s : State) : Host.Outcome State Fault Refusal := .next (endModeValidation s)

/-- The first CD0 tick after validation starts the fade of every outlet. -/
def armFade (s : State) : State :=
  if s.mode.armed then fadeOutlets { s with mode := { s.mode with armed := false } } false (fiftyMs s) else s

/-- Whether a transition changes the rate of CD0, whose DPLL every transition retunes (R73). -/
def rateChanges (s : State) : Bool := s.mode.rate != s.mode.oldRate

/-- Every outlet is silent: RECONFIGURE. The ports of CD0 hold BCLK and FSYNC low, and its streams stop where its rate changes (R73). -/
def endFadeOut (s : State) : State :=
  if numF s (modeObj + 4) ≠ 2 then s
  else
    let s1 : State := setTrans { s with mode := { s.mode with armed := false }, audio := { s.audio with fades := [] } } 3
    let stop := fun (k : Nat) => rateChanges s && unitState s1 (ctxObj k) != 0 && unitState s1 (ctxObj k) != 5 && ctxDom s1 k == 0
    let s2 := ((List.range 512).filter stop).foldl (fun t k => forceOff t (ctxObj k)) s1
    ((List.range 48).filter (fun p => numF s2 (portObj p + 2) == 0)).foldl haltPort s2

/-- MODE_FADE_OUT_END. -/
def execModeFadeOutEnd (s : State) : Host.Outcome State Fault Refusal := .next (endFadeOut s)

/-- A domain stops at its tick in RECONFIGURE. -/
def stopDomain (s : State) (d : Nat) : State := lowOutputs (setDom s d { dom s d with running := false, resume := true }) d

/-- Domains that were ON run again in the new mode; their outputs align anew, and CD0, which was retuned, selects a reference without history (R287,
R289). -/
def restartDomains (s : State) : State :=
  (List.range 4).foldl (fun t d =>
    if unitState t (ob 2 d 0) = 2 ∨ unitState t (ob 2 d 0) = 3 ∨ unitState t (ob 2 d 0) = 4 then
      (let x : Domain := { dom t d with running := true, resume := true, waiting := [0, 1, 2] }
       if d = 0 then
         setDom (setN (setN (setN (setFreq t d 0) (ob 2 d 0x10) 15) (ob 2 d 0x11) 0) (ob 2 d 0x13) 0) d { x with pendStep := 0, phaseErr := 0, holdFreq := 0, locks := [], slew := 0, wasSel := false }
       else setDom t d x)
    else t) s

/-- MODE and RATE have their new values: IDLE, the status, the count and the event (R73). -/
def finishTransition (s : State) : State :=
  raise (bump (setN (setTrans s 0) (modeObj + 5) stOk) (modeObj + 8)) 0x1001 (modeObj + 5) stOk

/-- The units that are OFF throughout SERVICE (R63). -/
def serviceOff (s : State) : State :=
  let s1 := ((List.range 512).map ctxObj).foldl forceOff s
  let s2 := forceOff s1 capObj
  let s3 := [1, 2, 3].foldl (fun t d =>
    if unitState t (ob 2 d 0) = 0 then t else domainEntered (setLife (moveUnit t (ob 2 d 0) 0) (ob 2 d 0) Life.rest) d 0) s2
  if unitState s3 pairObj = 0 then s3
  else pairEntered (setLife (moveUnit (pairEntered s3 3) pairObj 0) pairObj Life.rest) 0

/-- Entry into SERVICE at the end of RECONFIGURE: CD0 at 48 kHz, its ports clocking, no RESTORE and no version (R63, R75). -/
def enterService (s : State) : State :=
  let s1 := serviceOff (initAudio (inMode s 6 1))
  let s2 := (List.range 48).foldl (fun t p =>
    if unitState t (portObj p) = 0 then t
    else if unitState t (portObj p) = 5 then t
    else if numF t (portObj p + 2) = 0 then (if unitState t (portObj p) = 1 then t else restartPort t p)
    else moveUnit (setPort (haltPort t p) p { TdmPort.idle with window := true }) (portObj p) 1) s1
  finishTransition (restartDomains s2)

/-- RESTORE: the adapted version is applied with every value at its target, and the domains run again. -/
def restoreMode (s : State) : State :=
  let c := (adapt s s.mode.target s.mode.rate).1
  let s1 : State := { c with mode := { c.mode with pendSusp := c.mode.suspended } }
  let s2 := setN (setN (setTrans s1 4) (modeObj + 6) (dormantCount c)) (modeObj + 7) (droppedCount c)
  restartDomains (resumeUnits (initAudio s2))

/-- Retuning and reconfiguration end; out of SERVICE, the DRAM channels return to SP0 (R386). -/
def endReconfigure (s : State) : State :=
  if numF s (modeObj + 4) ≠ 3 then s
  else
    let s1 := (List.range 4).foldl (fun t d => if (dom t d).running then stopDomain t d else t) s
    let s2 := if s.mode.leaving = 6 ∧ numF s1 (dramObj 0 + 3) = 1 then loseDirectory (changeSetpoint s1 0) else s1
    if s.mode.target = 6 then enterService s2 else restoreMode s2

/-- MODE_RECONFIGURE_END. -/
def execModeReconfigureEnd (s : State) : Host.Outcome State Fault Refusal := .next (endReconfigure s)

/-- Whether every enabled port that can run has run a full frame since RESTORE. -/
def portsRan (s : State) : Bool :=
  (List.range 48).all (fun p =>
    let st := unitState s (portObj p)
    let can := (st == 1 || st == 2) && domOn s (numF s (portObj p + 2)) && numF s (portObj p + 0x013) != 0
    !can || decide (0 < (tdmPort s p).inK))

/-- The fade-in starts; after a FATAL error the transition ends muted (R74). -/
def startFadeIn (s : State) : State :=
  if numF s (modeObj + 4) = 4 ∧ portsRan s then
    (let s1 := setTrans s 5
     if isFatal s1 then s1 else fadeOutlets s1 true (fiftyMs s1))
  else s

/-- MODE_FADE_IN_START. -/
def execModeFadeInStart (s : State) : Host.Outcome State Fault Refusal := .next (startFadeIn s)

/-- The fade-in ends: the transition is complete, and its version is recorded (R73, R218). -/
def endFadeIn (s : State) : State :=
  if numF s (modeObj + 4) ≠ 5 then s
  else
    let s1 := finishTransition s
    addVersion s1 (makeVersion s1 (currentVersion s1 + 1) 0 3 0 0 s1.mode.frame s1.mode.time)

/-- MODE_FADE_IN_END. -/
def execModeFadeInEnd (s : State) : Host.Outcome State Fault Refusal := .next (endFadeIn s)

/-! ### Configuration records (R419, R431) -/

/-- The DPLLs of the domains that run leave their references and lock to the active side's clocks (R419, R420; log entry 203). -/
def followLink (s : State) : State :=
  (List.range 4).foldl (fun t d =>
    if domOn t d then
      setDom (setPhase (setN t (ob 2 d 0x11) 1) d 0) d { dom t d with slew := 0, pendStep := 0, phaseErr := 0, revert := false }
    else t) s

/-- A LIVE write of the active side lands at the same sample as there, where the record names one (R419). -/
def landCopied (s : State) (land : List (Nat × Nat)) (o : Obj) (v : Val) : State :=
  let d := landDomain s o
  if noDomain o then setF s o v
  else match land.find? (fun e => e.1 == d) with
  | some e => addLanding s { dom := d, frame := e.2 / 8, sample := e.2 % 8, obj := o, val := v, commit := false }
  | none => landLive s o v

/-- A copy of the active side's configuration replaces the standby's own: values, staging bank, rates, frame counters and version. -/
def copyConfig (s : State) (r : ConfigRecord) : State :=
  let find := fun (o : Obj) (d : Nat) => match r.values.find? (fun e => e.1 == o) with | some e => valNat e.2 | none => d
  let p := s.pair.partner.map (fun p => { p with mode := find modeObj p.mode, rate := find (modeObj + 1) p.rate })
  let vs := r.values.filter (fun e => e.1 != modeObj)
  let s1 := setN (withConf { s with pair := { s.pair with partner := p } } vs) modeObj (modeNow s)
  let s2 := r.rates.foldl (fun t e => if e.1 = 0 then setN t (modeObj + 1) e.2 else setN t (ob 2 e.1 2) e.2) s1
  let s3 := followLink (r.frames.foldl (fun t e => setDom (setN t (ob 2 e.1 0x14) e.2) e.1 { dom t e.1 with fresh := false }) s2)
  let bank := r.staged.foldl (fun b e => putEntry e.1 e.2 b) []
  let t := dropStaged s3
  let s3' := (giveSignals (placeAgain (suspendRefs { t with dict := { t.dict with bank := bank } }))).1
  let s4 := resumeUnits (initAudio s3')
  let h := r.head
  let v := makeVersion s4 r.version h.source h.kind h.label h.session h.frame h.time
  addVersion { s4 with ver := { s4.ver with dir := s4.ver.dir.filter (fun x => x.number != r.version) } }
    { v with parent := h.parent, changes := h.changes }

/-- A commit that the active side has scheduled: the standby lands it at the same samples. -/
def copyCommit (s : State) (r : ConfigRecord) : State :=
  let h := r.head
  let c := (giveSignals (revive (configWith s r.values))).1
  let p : Pending := { set := r.values, marks := placedMarks s c, since := [], factory := false, kind := h.kind, number := r.version, source := h.source,
                       bank := s.dict.bank.filter (fun e => r.values.contains e || decide (e.2 = forceVal s e.1)),
                       label := h.label, session := h.session, tag := 0, op := 0, req := { when := 0, base := 0, instant := 0, label := 0 },
                       arrived := s.now, land := [], open_ := [], budgets := onlyNew s c }
  let land := r.land.foldl (fun t e => tput t 0 e.1 e.2) []
  let s1 := loadImages (clearBank (stageBudgets s c) p) c
  let s2 : State := { s1 with ctxs := c.ctxs, mode := { s1.mode with pendSusp := c.mode.suspended } }
  setN (setCommitState (scheduleAt s2 p land) 2) (commitObj + 6) r.version

/-- A configuration record reaches the standby: a copy, the notice of a mode transition, which the standby carries out as well (R75), a
scheduled commit, LIVE writes and bank entries, a DISCARD or a CANCEL (R205). -/
def takeRecord (s : State) (r : ConfigRecord) : State :=
  if role s ≠ 2 ∨ !(linkOn s) then s
  else
    let s1 := r.staged.foldl (fun t e => setBank t e.1 e.2) s
    match r.what with
    | .copy => setSync (copyConfig s r) 1
    | .notice m rate => if inTransition s then s else startTransition s m rate
    | .commit => copyCommit s1 r
    | .values => r.values.foldl (fun t e => landCopied t r.land e.1 e.2) s1
    | .discard => emptyBank s
    | .cancel => (doCancel s).2

/-- CONFIG_RECORD_RECEIVED. -/
def execConfigRecordReceived (r : ConfigRecord) (s : State) : Host.Outcome State Fault Refusal := .next (takeRecord s r)

end Sys2Proof.Machine
end

