-- ==== Sys2Proof/Machine/Views.lean ====
section
/-!
DEFINITION. Machine/Views.lean: what a READ of each member returns (R228, R202, R164), the members that the engine computes as they are
read, and the examination of value subscriptions (R241).
-/
namespace Sys2Proof.Machine

/-! ### Stored members -/

/-- A stored member: the staging bank's value of a STAGED or RAMPED member, the value written last of a LIVE RW member, else the value in
force. `bank` is FALSE for what is in force in any case. -/
def storedVal (s : State) (bank : Bool) (o : Obj) : Val :=
  match bank, lookup s o with
  | true, some r =>
    (match r.acc, r.app with
     | .rw, .live => (onItsWay s o).getD (forceVal s o)
     | .rw, _ => if areaOf o = 6 ∧ memOf o < 0x400 then (bankVal s o).getD ((onItsWay s o).getD (forceVal s o)) else stagedVal s o
     | _, _ => forceVal s o)
  | _, _ => forceVal s o

/-- The number of a stored member. -/
def storedNum (s : State) (bank : Bool) (o : Obj) : Nat := valNat (storedVal s bank o)

/-! ### Budget entries (R42, R44) -/

/-- DOMAIN of an entry as read: a tile's activities read the tile's domain. -/
def entryDomain (s : State) (bank : Bool) (e : Nat) : Nat :=
  let a := storedNum s bank (entryObj e + 1)
  if a < 0x20 then tileDom s (a % 16) else storedNum s bank (entryObj e + 3)

/-- BEATS of an entry as read: in AUTO, the budget of the demand last computed. -/
def entryBeats (s : State) (bank : Bool) (e : Nat) : Nat :=
  if storedNum s bank (entryObj e + 4) = 0 then autoBudget (numF s (entryObj e + 6)) else storedNum s bank (entryObj e + 5)

/-- ENTRY: members 000 to 005 packed; 0 until start-up has restored a configuration (R43). -/
def packEntry (s : State) (bank : Bool) (e : Nat) : Nat :=
  if !(tableRestored s) then 0 else
  let v := fun (m : Nat) => storedNum s bank (entryObj e + m)
  v 0 * 2 ^ 63 + v 4 * 2 ^ 62 + entryDomain s bank e * 2 ^ 60 + v 2 * 2 ^ 54 + v 1 * 2 ^ 46 + entryBeats s bank e

/-! ### Crosspoint rows (R162, R164) -/

/-- NODE of a row's source. -/
def nodeOf (row k : Nat) : Obj := ob 6 row k

/-- TARGET of a node as NODE_LIVE reads it: the gain of a value on its way, else that of the value in force, minus infinity while the node is
suspended (R72, R161, R164). -/
def nodeTarget (s : State) (bank : Bool) (o : Obj) : Nat :=
  let live := if bank then (s.dict.landing.filter (fun y => y.obj == o && !y.commit)).getLast? else none
  dbOfGain (match live with
    | some y => gainOfVal o (valNat y.val)
    | none => gainTarget s o)

/-- Listed nodes of a row. -/
def rowNodes (s : State) (row : Nat) : List Obj :=
  (tkeys s.dict.force).filter (fun o => areaOf o == 6 && instOf o == row && decide (memOf o < 0x400) && (lookup s o).isSome)

/-! ### The Field Return Record (R408) -/

/-- A section of the record whose packing is not published (log entry 45). -/
def packSection (k : Nat) (vs : List Nat) (n : Nat) : Octets :=
  (List.range n).map (fun i => (Config.recordByte k vs i).toNat)

/-- Log entry `i` in the order of the log's instances from the newest on; zeros for an empty one. -/
def logSlot (s : State) (i : Nat) : Octets := (s.sage.log[i]?).getD (List.replicate 32 0)

/-- The record as the engine assembles it. -/
def fieldRecord (s : State) : Octets :=
  let head := leBytes 4 0x4B465252 ++ leBytes 4 1 ++ leBytes 4 33568 ++ leBytes 8 (numF s (ob 0 0 4))
    ++ [numF s (ob 0 0 7), numF s (ob 0 0 6), modeNow s, numF s (commitObj + 1)].flatMap (leBytes 4) ++ leBytes 8 (frameOf s 0) ++ List.replicate 20 0
  let counts := ((List.range 10).flatMap (fun m =>
    leBytes 8 (if m + 3 = 7 then s.sage.queue.length else numF s (faultObj + 3 + m)))) ++ List.replicate 48 0
  let tiles := (List.range 16).flatMap (fun t => packSection 1
    ([0, 1, 2, 3, 4, 5, 6, 7, 0x010, 0x011, 0x012].map (fun m => numF s (repairObj t + m))) 32)
  let shared := packSection 2 ((List.range 7).map (fun m => numF s (ob 13 0x20 m))) 64
  let b := head ++ counts ++ tiles ++ shared ++ s.sage.first.getD (List.replicate 32 0) ++ (List.range 1023).flatMap (logSlot s)
  b ++ (Config.deviceHmac b).toList.map (fun x => x.toNat)

/-! ### Members that the engine computes -/

/-- Members of the mode object (R69); MODE and RATE take their new values when the transition is complete (R73). -/
def modeView (s : State) (m : Nat) : Option Val :=
  match m with
  | 0 => if inTransition s then some (.num s.mode.leaving) else none
  | 1 => if inTransition s then some (.num s.mode.oldRate) else none
  | 9 => some (.num (suspendedCount s))
  | _ => none

/-- Members of area 2. -/
def clockView (s : State) (i m : Nat) : Option Val :=
  if i < 4 then
    (if m = 0x015 then some (.num (usableBits s i))
     else if i = 0 ∧ m = 2 then some ((modeView s 1).getD (.num (rate0 s)))
     else none)
  else if 0x10 ≤ i ∧ i < 0x14 then
    (if m = 0x011 then some (.num (if unitState s (ob 2 i 0) = 0 then 0 else time64 (tbNs s (i - 0x10) s.now))) else none)
  else if 0x23 ≤ i ∧ i < 0x27 then
    (if m = 0 then some (.num (if tbLocked s (i - 0x23) then 2 else 0)) else none)
  else if i = 0x27 then (if m = 0 then some (.num 2) else none)
  else if 0x100 ≤ i ∧ m = 6 then some (.num (if isOn s (ob 2 i 0) then bridgeUnits s (ob 2 i 0) else 0))
  else none

/-- DIVIDER and BCLK_HZ of a port in the running version (R312, R319). -/
def portView (s : State) (i m : Nat) : Option Val :=
  let u := portObj i
  if m = 0x011 then some (.num (divider (numF s (u + 3)) (rateClass (domRate s (numF s (u + 2))))))
  else if m = 0x012 then some (.num (numF s (u + 3) * domHz s (numF s (u + 2))))
  else none

/-- The smallest arrival margin of the last second (R334). -/
def arrivalMargin (s : State) (c : Nat) : Nat :=
  match (ctxRt s c).margins.filter (fun e => decide (s.now < e.1 + 1250000000)) with
  | [] => 0
  | x :: r => wrapTo 32 (satTo 32 (r.foldl (fun m e => if e.2 < m then e.2 else m) x.2))

/-- Members of area 4 (R266, R341, R347). -/
def streamView (s : State) (n : Sess) (i m : Nat) : Option Val :=
  if i < 0x100 then
    (if m = 0x020 then some (.blob (if unitState s (ctxObj i) = 0 then [] else (ctxRt s i).signals.flatMap (leBytes 2)))
     else if m = 0x024 then some (.num (arrivalMargin s i))
     else none)
  else if 0x200 ≤ i ∧ i < 0x204 then (if m = 0x082 then some (.num (sess s n).opened) else none)
  else if 0x300 ≤ i ∧ i < 0x320 then
    (let x := cmdPair s ((i - 0x300) % 16)
     if m = 1 then some (.num x.state)
     else if m = 0x00D then some (.num (if i < 0x310 then x.sqHead else x.cqTail))
     else none)
  else if 0x320 ≤ i ∧ i < 0x340 then
    (if m = 0x00C then some (.num (if numF s (ringObj (i - 0x300) + 4) = 0 then 0 else entryBytes s (i - 0x300))) else none)
  else if 0x400 ≤ i ∧ m = 1 then
    some (.num (match (if i < 0x800 then ringOfChannel s 32 (i - 0x400) else ringOfChannel s 48 (i - 0x800)) with
      | some r => r | none => 0xFF))
  else none

/-- Rows of the crosspoint: NODE_LIVE, NODE_NOW and the two counts. -/
def nodeView (s : State) (bank : Bool) (i m : Nat) : Option Val :=
  if m = 0x402 then some (.num ((rowNodes s i).filter (fun o => gainTarget s o != 0)).length)
  else if m = 0x403 then some (.num ((tkeys s.audio.ramps).filter (fun o => areaOf o == 6 && instOf o == i && (rampOf s o).active)).length)
  else if 0xC00 ≤ m then some (.num (dbOfGain (gainNow s (nodeOf i (m - 0xC00)))))
  else if 0x800 ≤ m then some (.num (nodeTarget s bank (nodeOf i (m - 0x800))))
  else none

/-- The lane of a bus, matrix or output processor program (R158, R178). -/
def laneView (s : State) (i m : Nat) : Option Val :=
  if i < 0x100 then (if m = 0x610 then some (.num (i % ((lim s).buses / 16) % 16)) else none)
  else if i < 0x200 then (if m = 0x610 then some (.num ((i - 0x100) % ((lim s).mats / 16) % 16)) else none)
  else if m = 0x017 then
    (let o := ob 7 i 0
     let k := ((tileProcs s (tile7 s i)).findIdx? (fun p => p == o)).getD 0
     some (.num (procLane s o k)))
  else none

/-- A list that the engine sets for a strip slot, with the buffers that it has laid out on the lane (R137, R468). While an input crossfade runs,
the current input is the one that it goes to. -/
def slotList (s : State) (p : Obj) (scat : Bool) : Octets :=
  let u := slotStrip s p
  let on := fun (sw sg : Nat) => if isOn s (u + sw) then [numF s (u + sg)] else []
  let ins := match (unitRt s u).input with | some x => [x.new, x.old] | none => [numF s u, numF s u]
  let xs := if scat then [0xE00 + instOf u] ++ on 0x200 0x201 ++ on 0x400 0x401 else ins ++ on 0x200 0x202
  (List.zip (List.range xs.length) xs).flatMap (fun e =>
    leBytes 4 (bufferAt s (placeLane s p) (p, e.1 + if scat then 4 else 0) * 2 ^ 16 + e.2))

/-- Members of images, tiles and placements (R130, R237, R131). The program of a slot runs whatever ENABLE says; USERS counts the placements that
run (log entry 215). -/
def basilView (s : State) (i m : Nat) : Option Val :=
  if i < 0x100 then
    (let b := if i < 0xF0 then valOctets (storedVal s true (ob 9 i 0)) else imageBytes s i
     let h := imageOf b
     match m with
     | 0 => if i < 0xF0 then none else some (.blob b)
     | 2 => some (.num (if b.isEmpty then 0 else (boundOf (imageOps b)).getD 0))
     | 3 => some (.num (if b.isEmpty then 0 else h.bundles))
     | 4 => some (.num (if b.isEmpty then 0 else h.classes))
     | 5 => some (.num (if b.isEmpty then 0 else h.id))
     | 6 => some (.num ((enabledPlaces s).filter (fun p => numF s (p + 1) == i)).length)
     | _ => none)
  else if i < 0x110 then (if m = 3 then some (.num ((lim s).strips / 16)) else none)
  else
    (let p := ob 9 i 0
     if isSlotPlace p && decide (placeNo p < (lim s).strips / 16) then
       (match m with
        | 2 => some (.num (placeLane s p % 16))
        | 3 => some (.num 1)
        | 4 => some (.num (placeOrder s p))
        | 9 => some (.blob (slotList s p false))
        | 0x00A => some (.blob (slotList s p true))
        | 0x00B => some (.num (if numF s (p + 0x00B) = 2 then 2 else 1))
        | _ => none)
     else none)

/-- Members of the fault manager's objects (R403, R405, R408). -/
def sageView (s : State) (i m : Nat) : Option Val :=
  if i = 0 then (if m = 7 then some (.num s.sage.queue.length) else none)
  else if 0x100 ≤ i ∧ i < 0x500 then
    (let e := if i = 0x100 then s.sage.first.getD [] else (s.sage.log[i - 0x101]?).getD []
     let w1 := ofLe (slice e 4 4)
     match m with
     | 0 => some (.blob e)
     | 1 => some (.num (ofLe (slice e 0 4)))
     | 2 => some (.num (w1 % 8))
     | 3 => some (.num (bits w1 11 4))
     | 4 => some (.num (ofLe (slice e 8 8)))
     | 5 => some (.num (ofLe (slice e 24 4)))
     | _ => none)
  else if i = 0xF00 then some (.blob (fieldRecord s))
  else none

/-- An entry of the version directory (R218). -/
def versionView (v : Version) (m : Nat) : Nat :=
  match m with
  | 0 => v.number | 1 => v.parent | 2 => v.source | 3 => v.kind | 4 => v.mode | 5 => v.rate | 6 => v.frame | 7 => v.time
  | 8 => v.changes | 9 => recordBytes v.conf | 0x00A => v.persisted | 0x00B => v.label | 0x00C => v.session
  | _ => (Config.recordCrc (recordConf v.conf)).toNat

/-- Members of commit control and the directory. -/
def commitView (s : State) (n : Sess) (i m : Nat) : Option Val :=
  if i = 0 then
    (if m = 2 then some (.num (changeSet s).length)
     else if m = 0x010 then some (.num (if (sess s n).staging then 1 else 0))
     else none)
  else if 0x100 ≤ i then some (.num (match s.ver.dir[i - 0x100]? with | some v => versionView v m | none => 0))
  else none

/-- A member that the engine computes as it is read, if the object is one. -/
def computed (s : State) (n : Sess) (bank : Bool) (o : Obj) : Option Val :=
  let i := instOf o
  let m := memOf o
  match areaOf o with
  | 1 => if i = 0 then modeView s m else none
  | 2 => clockView s i m
  | 3 => portView s i m
  | 4 => streamView s n i m
  | 5 => if 0x401 ≤ i ∧ m = 5 then some (.num (automixMembers s (i - 0x400)).length) else none
  | 6 => nodeView s bank i m
  | 7 => laneView s i m
  | 9 => basilView s i m
  | 10 => if i = 0x40 ∧ m = 2 then some (.num s.sage.saves.length) else none
  | 11 => (match m with
    | 3 => some (.num (entryDomain s bank i)) | 5 => some (.num (entryBeats s bank i)) | 0x00C => some (.num (packEntry s bank i)) | _ => none)
  | 13 => sageView s i m
  | 14 => commitView s n i m
  | _ => none

/-- What a READ of an object returns to a session. -/
def readVal (s : State) (n : Sess) (o : Obj) : Val := (computed s n true o).getD (storedVal s true o)

/-- The value of an object in force, which a notification carries. -/
def viewVal (s : State) (n : Sess) (o : Obj) : Val := (computed s n false o).getD (forceVal s o)

/-! ### Value subscriptions (R241) -/

/-- The objects of a block, if no step carries into another field (R238). -/
def blockObjs (o count : Nat) (byInstance : Bool) : Option (List Obj) :=
  if byInstance then
    (if instOf o + count ≤ 0x10000 then some ((List.range count).map (fun k => o + k * 2 ^ 12)) else none)
  else if memOf o + count ≤ 0x1000 then some ((List.range count).map (fun k => o + k))
  else none

/-- Whether an object is examined at ticks: LIVE members and others of a domain; the rest as their commands complete (log entry 46). -/
def tickDom (s : State) (o : Obj) : Option Nat := if noDomain o then none else some (ownerDom s o)

/-- Replaces the entry of an object. -/
def putLast {α : Type} (l : List (Obj × α)) (o : Obj) (v : α) : List (Obj × α) := (l.filter (fun e => e.1 != o)) ++ [(o, v)]

/-- Examines one member of a subscription: a change becomes a notification, at once or when its interval ends. A member of no domain with the
interval 0 is reported once in a frame of CD0 (log entry 46). -/
def examineOne (s : State) (n k : Nat) (o : Obj) : State :=
  let x := sess s n
  match tget x.subs none k with
  | some b =>
    (match b.req, b.last.find? (fun e => e.1 == o) with
     | .value _ _ _ ms, some old =>
       let v := viewVal s n o
       let changed := decide (v ≠ old.2)
       let b1 : Sub := if changed then { b with last := putLast b.last o v } else b
       let put := fun (b2 : Sub) => setSess s n { x with subs := tput x.subs none k (some b2) }
       let inFrame := decide (ms = 0) && (tickDom s o).isNone
       let waits := fun (e : Obj × Cycle) => e.1 == o && (if inFrame then decide ((dom s 0).cycle ≤ e.2) else decide (s.now < e.2))
       if !changed && !(b.due.contains o) then s
       else if b.wait.any waits then put { b1 with due := addOnce b1.due o }
       else
         let until_ := s.now + ms * 1250000
         let b2 : Sub := { b1 with due := dropAll b1.due o, wait := if ms = 0 ∧ !inFrame then b1.wait else putLast b1.wait o until_ }
         let f := match tickDom s o with | some d => frameOf s d | none => 0
         pushNotif (put b2) n (.value k o f v)
     | _, _ => s)
  | none => s

/-- Examines the members of every subscription that pass a test. -/
def examine (s : State) (p : Obj → Bool) : State :=
  ((List.range 32).filter (sessOpen s)).foldl (fun t n =>
    (tkeys (sess t n).subs).foldl (fun u k =>
      match tget (sess u n).subs none k with
      | some b => ((b.last.map (·.1)).filter (fun o => p o && (lookup u o).isSome)).foldl (fun v o => examineOne v n k o) u
      | none => u) t) s

/-- The examination at a tick of domain `d`; CD0 ticks also examine the members of no domain. -/
def examineTick (s : State) (d : Nat) : State :=
  examine s (fun o => match tickDom s o with | some e => e == d | none => d == 0)

/-- The examination of members of no domain once a command has completed. -/
def examineNow (s : State) : State := examine s (fun o => (tickDom s o).isNone)

/-- SUBSCRIPTION_INTERVAL_END: the interval of a member of no domain ends. -/
def execSubscriptionIntervalEnd (n sub : Nat) (o : Obj) (s : State) : Host.Outcome State Fault Refusal :=
  let x := sess s n
  match tget x.subs none sub with
  | some b =>
    let b1 : Sub := { b with wait := b.wait.filter (fun e => e.1 != o) }
    let s1 := setSess s n { x with subs := tput x.subs none sub (some b1) }
    .next (if sessOpen s n then (if (tickDom s o).isNone && (lookup s1 o).isSome then examineOne s1 n sub o else s1) else s)
  | none => .next s

end Sys2Proof.Machine
end

