-- ==== Sys2Proof/Machine/Frame.lean ====
section
/-!
DEFINITION. Machine/Frame.lean: the frame tick (R6, R27, R47, R53), the phase windows of a frame with the work of their units (R30 to R34),
and the cut-off at their ends (R36, R55).
-/
namespace Sys2Proof.Machine

/-! ### What runs in a domain -/

/-- The tiles of a domain that compute frame `f`. -/
def runTiles (s : State) (d f : Nat) : List Nat :=
  (List.range 16).filter (fun t => tileDom s t == d && delivers s (ob 9 (0x100 + t) 0) f)

/-- Instances of some tiles: `per` of each tile, from `base` on, in area `a`. -/
def unitsOf (ts : List Nat) (a base per : Nat) : List Obj :=
  ts.flatMap (fun t => (List.range per).map (fun j => ob a (base + per * t + j) 0))

/-- Opens a lane phase on every lane of some tiles. -/
def openLanes (s : State) (ts : List Nat) (ph : Phase) : State :=
  ts.foldl (fun u t => (List.range 16).foldl (fun v l => openLane v (16 * t + l) ph) u) s

/-- Runs the next program of a lane, unless one before it has not ended. A customer image of a slot runs for the paths of its strip. -/
def runProgram (s : State) (n budget : Nat) (late : Bool) (rec_ : State) (p : Obj) : State :=
  if (lane s n).prog.isSome || (lane s n).stopped then s
  else if isFree s p then runPlacement s p budget late
  else
    let u := slotStrip s p
    let r := unitRt rec_ u
    if isPlacement p && isSlotPlace p && (customerOn (newView r) s p || customerOn (oldView r) s p) then runCustomer s p u r budget late
    else passProgram s n p budget late

/-- Runs the programs of the lanes of some tiles in a lane phase, each lane in its order (R93, R126); `late` names programs that overrun. -/
def runLanes (s : State) (ts : List Nat) (ph : Phase) (late : List Obj) (rec_ : State) : State :=
  ts.foldl (fun u t => (List.range 16).foldl (fun v l =>
    let n := 16 * t + l
    let budget := laneBudget (frameLen v == 1) (rateClass (domRate v (tileDom v t))) ph
    (laneSequence v n ph).foldl (fun w p => runProgram w n budget (late.contains p) rec_ p) v) u) s

/-- Whether the program of a unit has ended in the present lane phase: of a strip that of its slot, else its own (R49, R128). -/
def ended (s : State) (u : Obj) : Bool :=
  let p := if areaOf u = 5 then slotPlace s (instOf u) else u
  let t := if areaOf u = 5 then stripTile s (instOf u) else tile7 s (instOf u)
  !((List.range 16).any (fun l => (lane s (16 * t + l)).todo.contains p))

/-- Applies what lands at a sample for the units of a phase. -/
def landPhase (s : State) (d f i : Nat) (ph : Phase) : State := landAudio s d f i (fun o => phaseOfObj s o == ph)

/-- Lands the values of a whole frame, where no unit of the phase runs. -/
def landFrame (s : State) (d f : Nat) (ph : Phase) : State :=
  (List.range (frameLen s)).foldl (fun t i => landPhase t d f i ph) s

/-- Reports of the last sample of a frame (R190, R192). -/
def reportAll (s : State) (rs : Reports) : State := rs.foldl (fun t r => reportUnit t r.1 r.2.1 r.2.2) s

/-! ### STRIP -/

/-- Whether a strip's slot can run a customer image in the frame: its placement is enabled, or was when the crossfade that runs began. -/
def mayCustom (s : State) (u : Obj) : Bool :=
  let p := slotPlace s (stripNo u)
  isOn s p || customerOn (oldView (unitRt s u)) s p

/-- The samples of a frame from sample `i` on, over the strips of a domain. -/
def stripSamples (d hz f : Nat) (late : List Obj) (rec_ : Bool) (us : List Obj) :
    List Nat → State → Tab (List Int) → Reports → State × Tab (List Int) × Reports
  | [], s, o, r => (s, o, r)
  | i :: is, s, o, _ =>
    let a := stripSample hz f i late rec_ us (landPhase s d f i .strip) o
    stripSamples d hz f late rec_ us is a.1 a.2.1 a.2.2

/-- A pass over the frame that records what the customer images of the strips' slots read, and writes the COEF sets that their crossfades have
begun to use (R216, R467). -/
def recordPass (s : State) (d hz f : Nat) (late : List Obj) (us : List Obj) : State :=
  if us.any (mayCustom s) then (stripSamples d hz f late true us (List.range (frameLen s)) s [] []).1 else s

/-- The delay lines of some units: those whose DELAY_ON, or ENABLE, is TRUE. -/
def linesOf (s : State) (us : List Obj) : List Obj := us.filter (fun u => isOn s (if areaOf u = 5 then u + 0x050 else u))

/-- The beats of the delay engine of each tile in a window, 3 a line at the channels of its lines and within their budgets (R48, R96, R98). -/
def lineBeats (s : State) (d : Nat) (ts : List Nat) (us : Nat → List Obj) : State :=
  ts.foldl (fun t k =>
    let n := 3 * (linesOf t (us k)).length
    let chs := lineChannels t t k
    if n = 0 then t
    else chs.foldl (fun v ch => spendBeats v k ch d (min (n / chs.length) (beatsLeft v k ch d))) t) s

/-- The lines of strips and output processors whose programs have not run in the window: the delay engine serves them all the same (R49, R96). -/
def serveIdle (s : State) (hz : Nat) (us : List Obj) : State :=
  (linesOf s us).foldl (fun t u =>
    if areaOf u = 5 then
      (let r := unitRt t u
       putUnit t u { r with delay := idleLine r.delay (usToSamples 500000 hz) (frameLen t) })
    else
      (let r := outRt t u
       putOut t u { r with delay := idleLine r.delay (usToSamples 2500000 hz) (frameLen t) })) s

/-- STRIP of frame `f` (R134 to R151): the programs of the lanes, then the strips whose programs have ended, sample by sample. -/
def stripWindow (s : State) (d f : Nat) (late : List Obj) : State :=
  let ts := runTiles s d f
  let hz := domHz s d
  let all := unitsOf ts 5 0 ((lim s).strips / 16)
  let s0 := openLanes (landPhase s d f 0 .strip) ts .strip
  let a := recordPass s0 d hz f late all
  let r := runLanes { s0 with mem := a.mem, sage := a.sage } ts .strip late a
  let us := all.filter (ended r)
  let s1 := serveIdle (lineBeats r d ts (fun t => unitsOf [t] 5 0 ((lim s).strips / 16))) hz (all.filter (fun u => !(ended r u)))
  let q := stripSamples d hz f late false us (List.range (frameLen s)) s1 [] []
  let s2 := reportAll q.1 q.2.2
  let s3 := us.foldl (fun t u => setN (closeUnit t u 0x600) (u + 0x052) (unitRt t u).delay.now) s2
  let s4 := ((List.range 8).map (· + 1)).foldl (fun t g => if isOn t (ob 5 (0x400 + g) 0) then autoTargets t g us else t) s3
  let s5 := us.foldl leaveAuto s4
  captureFrame (q.2.1.foldl (fun t e => putSig t e.1 f e.2) s5) d f

/-! ### CROSS, BUS, MATRIX -/

/-- The samples of a frame over some rows. -/
def rowSamples (d f : Nat) (ph : Phase) (stage2 : Bool) (rows : List Obj) : List Nat → State → Tab (List Int) → State × Tab (List Int)
  | [], s, o => (s, o)
  | i :: is, s, o =>
    let a := rowsSample stage2 f i rows (landPhase s d f i ph) o
    rowSamples d f ph stage2 rows is a.1 a.2

/-- The ramps of some rows move on by one sample. -/
def stepRows (rows : List Obj) (s : State) : State :=
  rows.foldl (fun t row => (liveNodes t row).foldl (fun u m => (stepRamp u (row + m)).2) t) s

/-- The crosspoint of a stage in frame `f` (R162 to R169); `base` is its first sum slot. -/
def crossWindow (s : State) (d f : Nat) (ph : Phase) (stage2 : Bool) (rows : List Obj) (base : Nat) : State :=
  let q := rowSamples d f ph stage2 rows (List.range (frameLen s)) s []
  q.2.foldl (fun t e => putSlot t (base + e.1 % 0x100) f e.2) q.1

/-- The samples of a frame over the buses or matrices. -/
def busSamples (d hz f : Nat) (ph : Phase) (late : List Obj) (ins : List (Obj × List Int)) :
    List Nat → State → Tab (List Int) → Reports → State × Tab (List Int) × Reports
  | [], s, o, r => (s, o, r)
  | i :: is, s, o, _ =>
    let a := busSample hz f i ph late ins (landPhase s d f i ph) o
    busSamples d hz f ph late ins is a.1 a.2.1 a.2.2

/-- BUS or the processing part of MATRIX in frame `f` (R170, R171); sums come from slots at `src`, taps go to slots at `dst`. -/
def busWindow (s : State) (d f : Nat) (ph : Phase) (late : List Obj) (all : List Obj) (src dst : Nat) : State :=
  let ts := runTiles s d f
  let s0 := openLanes (landPhase s d f 0 ph) ts ph
  let s1 := runLanes s0 ts ph late s0
  let us := all.filter (ended s1)
  let ins := us.map (fun u => (u, slotFrame s1 (src + instOf u % 0x100) f))
  let q := busSamples d (domHz s d) f ph late ins (List.range (frameLen s)) s1 [] []
  let s2 := us.foldl (fun t u => closeUnit t u 0x602) (reportAll q.1 q.2.2)
  q.2.1.foldl (fun t e => putSlot t (dst + e.1 % 0x100) f e.2) s2

/-! ### OUTPUT -/

/-- One sample over the output processors of a domain: limiter inputs and outputs by processor. -/
def outsSample (hz f i : Nat) (os : List Obj) (s : State) (o : Tab (List Int)) : State × Tab (List Int) :=
  os.foldl (fun q u =>
    let k := instOf u - 0x200
    let a := outStep q.1 u hz i (frameLen q.1) (smp (slotFrame q.1 (outTap k) f) i)
    (a.1, addSample (addSample q.2 k a.2.2) (0x200 + k) a.2.1)) (s, o)

/-- The samples of a frame over the output processors. -/
def outSamples (d hz f : Nat) (os : List Obj) : List Nat → State → Tab (List Int) → State × Tab (List Int)
  | [], s, o => (s, o)
  | i :: is, s, o =>
    let a := outsSample hz f i os (landPhase s d f i .output) o
    outSamples d hz f os is a.1 a.2

/-- What a processor reports at the end of a frame (R145, R197, R200). -/
def reportOut (s : State) (o : Obj) : State :=
  let r := outRt s o
  let s1 := setN (closeOut s o) (o + 2) r.delay.now
  setN (setN s1 (o + 0x045) r.lim.d) (o + 0x044) (if 6 ≤ r.lim.d then 0 else 1)

/-- OUTPUT of frame `f` (R173 to R177). -/
def outputWindow (s : State) (d f : Nat) (late : List Obj) : State :=
  let ts := runTiles s d f
  let s0 := openLanes (landPhase s d f 0 .output) ts .output
  let r := runLanes s0 ts .output late s0
  let os := (ts.flatMap (tileProcs s)).filter (ended r)
  let s1 := serveIdle (lineBeats r d ts (tileProcs s)) (domHz s d) ((ts.flatMap (tileProcs s)).filter (fun o => !(ended r o)))
  let q := outSamples d (domHz s d) f os (List.range (frameLen s)) s1 []
  let s2 := q.2.foldl (fun t e => if e.1 < 0x200 then putSig t (outSignal e.1) f e.2 else putSlot t (768 + (e.1 - 0x200)) f e.2) q.1
  os.foldl reportOut s2

/-! ### INGEST, EGRESS, BACKGROUND -/

/-- INGEST of frame `f`: ports, receive contexts, playback rings, bridges (R33). -/
def ingestWindow (s : State) (d f : Nat) (words : List (Nat × List Nat)) (late : List Obj) : State :=
  let ws := fun (p : Nat) => match words.find? (fun e => e.1 == p) with | some e => e.2 | none => []
  let s1 := ((List.range 48).filter (fun p => numF s (portObj p + 2) == d)).foldl (fun t p => ingestPort t p f (ws p)) s
  let s2 := ((List.range 256).filter (fun c => ctxDom s c == d)).foldl (fun t c => ingestCtx t c f) s1
  let s3 := (((List.range 16).map (· + 48)).filter (fun r => numF s (ringObj r + 2) == d)).foldl
    (fun t r => ingestRing t r f (late.contains (ringObj r))) s2
  bridgeGive s3 d f

/-- INGEST in SERVICE: the ports that clock examine their slots (R63, R323). -/
def examineWindow (s : State) (d f : Nat) (words : List (Nat × List Nat)) : State :=
  ((List.range 48).filter (fun p => numF s (portObj p + 2) == d)).foldl
    (fun t p => examinePort t p f (match words.find? (fun e => e.1 == p) with | some e => e.2 | none => [])) s

/-- The samples that a carried word stands for: a signal, or a captured strip of a readback. -/
def carriedSamples (s : State) (f w : Nat) : List Int :=
  if 0x10000 ≤ w then capturedFrame s (w - 0x10000) s.audio.cap.rbNext else carriedFrame s w f

/-- EGRESS of frame `f`: outlets, ports, transmit contexts, record rings, bridges, then the fades of the domain move on. -/
def egressWindow (s : State) (d f : Nat) : State :=
  let s0 := clearMedia (if d = 0 then passToken s f else s) d
  let q := outletsFrame s0 d (carriedSamples s0 f)
  let outs := q.2
  let s1 := ((List.range 48).filter (fun p => numF s (portObj p + 2) == d)).foldl (fun t p => egressPort t p d outs) q.1
  let s2 := (((List.range 256).map (· + 256)).filter (fun c => ctxDom s c == d)).foldl (fun t c => egressCtx t c f d outs) s1
  let s3 := (((List.range 16).map (· + 32)).filter (fun r => numF s (ringObj r + 2) == d)).foldl (fun t r => egressRing t r f d outs) s2
  let s4 := stepReadback (bridgeTake (sendBurst s3) d f) d
  joinRelease (fatalRelease (setOutFade s4 d (stepFade (outFade s4 d) (frameLen s))))

/-- The beats of the SRAM tests that a window starts, at the targets of their regions and within Sage's budget: 8 to save, 80 of March C-, 8 to
restore (R46, R394, R396). -/
def testBeats (s : State) (old : Nat) : State :=
  ((s.sage.saves.drop old).filter (fun b => decide (b.region < 0x60000))).foldl (fun t b =>
    match targetOf t 0x26 (256 * b.region) with
    | some g => spendBeats t 0x26 g 0 (min 96 (beatsLeft t 0x26 g 0))
    | none => t) s

/-- BACKGROUND of CD0: Sage, row tests, and the drain of the capture staging buffer unless it is late (R55, R384, R396). -/
def backgroundWindow (s : State) (late : List Obj) : State :=
  let s1 := sageBeats (startRowTests (testBeats (sageWindow s) s.sage.saves.length))
  if late.contains capObj then s1 else drainCapture s1

/-- BACKGROUND of period F* of a landing commit: the words of COEF of the free placements that are newly enabled, change their set or move, go to
the lanes on which frame F* runs them (R216). -/
def loadSets (s : State) (d : Nat) : State :=
  match s.commit with
  | some p =>
    if (commitState s = 2 ∨ commitState s = 3) ∧ p.land.any (fun e => e.1 == d) ∧ frameOf s d = fstar p d then
      let c := p.set.foldl (fun t e => setF t e.1 e.2) s
      let moved := fun (q : Obj) => p.set.any (fun e => baseOf e.1 == q && [0, 2, 7, 8].contains (memOf e.1))
      let ps := (enabledPlaces c).filter (fun q => isFree c q && ownerDom c q == d && moved q)
      let t := ps.foldl (fun t q => loadCoef t q 0) c
      { s with mem := t.mem, sage := t.sage }
    else s
  | none => s

/-! ### The export of a frame (R30, R421 to R423, R429) -/

/-- Whether the side exports: it is ACTIVE with its link ON, and no FATAL error has stopped it (R400, R424). -/
def exporting (s : State) : Bool := role s == 1 && linkOn s && !(isFatal s)

/-- What an enabled delay line gained in the frame. -/
def lineItem (s : State) (o : Obj) (on : Bool) (x : DelayRt) : List ExportData :=
  if on then [.line o (x.inbuf.take (frameLen s))] else []

/-- The exported state of a strip, bus or matrix. -/
def unitItem (s : State) (o : Obj) : ExportData :=
  .unit o { unitRt s o with delay := { (unitRt s o).delay with ring := [], inbuf := [] } } (unitRamps s o)

/-- The exported state of an output processor with its limiter. -/
def procItem (s : State) (o : Obj) : ExportData :=
  .proc o { outRt s o with delay := { (outRt s o).delay with ring := [], inbuf := [] } } (unitRamps s o)

/-- Nodes of a domain whose ramp has run since the last acknowledged export join the ramp queue (R421). -/
def queueRamps (s : State) (d : Nat) : State :=
  let known := s.pair.seen.filterMap (fun e => match e with | .ramp o _ => some o | _ => none)
  let new := (sortUp ((tkeys s.audio.ramps).filter (fun o => areaOf o == 6) ++ known)).filter (fun o =>
    ownerDom s o == d && !(s.pair.queue.contains o)
      && (if known.contains o then changedItem s (.ramp o (rampOf s o)) else decide (rampOf s o ≠ Ramp.none)))
  { s with pair := { s.pair with queue := s.pair.queue ++ new } }

/-- The front-half items of a domain that have changed: its strips, buses and matrices, the head of its ramp queue, its strip delay lines. -/
def frontItems (s : State) (d : Nat) (ts : List Nat) : List ExportData :=
  let us := unitsOf ts 5 0 ((lim s).strips / 16)
  let bs := unitsOf ts 7 0 ((lim s).buses / 16) ++ unitsOf ts 7 0x100 ((lim s).mats / 16)
  let autos := us.filterMap (fun o => if numF s (o + 0x500) = 0 then none else some (.auto o (tget s.audio.auto AutoRt.rest o)))
  (us.map (unitItem s) ++ autos ++ bs.map (unitItem s)).filter (changedItem s)
  ++ ((s.pair.queue.filter (fun o => ownerDom s o == d)).take (512 * frameLen s)).map (fun o => .ramp o (rampOf s o))
  ++ us.flatMap (fun o => lineItem s o (isOn s (o + 0x050)) (unitRt s o).delay)

/-- The state of a stream for the export: the packet to come, and the point at which frame `f` is presented. -/
def streamItem (s : State) (c f : Nat) : ExportData :=
  let x := ctxRt s c
  if 256 ≤ c then .stream c (numF s (ctxObj c + 0x020)) x.accStamp (ssrcOf s c) (x.acc.length / max 1 (chansOf s c))
  else .stream c (x.nextSeq.getD 65536) ((x.packets.head?.map (·.stamp)).getD 0) (x.ssrc.getD 0) (stampAt s c f 0)

/-- The back-half items of a domain that have changed: its output processors with their limiters and ramps, their delay lines, its streams. -/
def backItems (s : State) (d f : Nat) : List ExportData :=
  let os := (runTiles s d f).flatMap (tileProcs s)
  let cs := (List.range 512).filter (fun c => ctxDom s c == d && isOn s (ctxObj c))
  (os.map (procItem s)).filter (changedItem s) ++ os.flatMap (fun o => lineItem s o (isOn s o) (outRt s o).delay)
  ++ (cs.map (fun c => streamItem s c f)).filter (changedItem s)

/-- BACKGROUND of period P reads the front-half items of frame P - 1; in the period of a handover frame they leave at once (R423, R429). -/
def exportFront (s : State) (d : Nat) : State :=
  if !(exporting s) ∨ frameOf s d = 0 then s
  else
    let t := queueRamps s d
    let l := frontItems t d (runTiles s d (frameOf s d - 1))
    if numF s (pairObj + 8) = 1 ∧ frameOf s 0 = s.pair.handover then
      { t with pair := { t.pair with front := tput t.pair.front [] d [], items := tput t.pair.items [] d (tget t.pair.items [] d ++ l) } }
    else { t with pair := { t.pair with front := tput t.pair.front [] d l } }

/-- EGRESS of period P adds the back-half items of frame P - 2: the export that ends in the period (R423). -/
def exportBack (s : State) (d f : Nat) : State :=
  if exporting s then
    { s with pair := { s.pair with items := tput s.pair.items [] d (tget s.pair.front [] d ++ backItems s d f),
                                   exported := if d = 0 then some (frameOf s 0) else s.pair.exported } }
  else s

/-! ### Phase windows -/

/-- The rows of a stage in some tiles. -/
def rowsOf (s : State) (ts : List Nat) (stage2 : Bool) : List Obj :=
  if stage2 then unitsOf ts 6 0x100 ((lim s).mats / 16) else unitsOf ts 6 0 ((lim s).buses / 16)

/-- A phase of a domain that serves frame `f` in an audio mode. -/
def audioPhase (s : State) (d f : Nat) (ph : Phase) (words : List (Nat × List Nat)) (late : List Obj) : State :=
  let ts := runTiles s d f
  match ph with
  | .ingest => ingestWindow s d f words late
  | .strip => stripWindow s d f late
  | .cross => crossWindow s d f .cross false (rowsOf s ts false) 0
  | .bus => busWindow s d f .bus late (unitsOf ts 7 0 ((lim s).buses / 16)) 0 256
  | .matrix2 => crossWindow s d f .matrix2 true (rowsOf s ts true) 512
  | .matrixP => busWindow s d f .matrixP late (unitsOf ts 7 0x100 ((lim s).mats / 16)) 512 640
  | .output => outputWindow s d f late
  | .egress => exportBack (egressWindow s d f) d f
  | .background => s

/-- A phase of a standby: inputs run, values land, and node ramps move on with the active side's (R64, R419). -/
def standbyPhase (s : State) (d f : Nat) (ph : Phase) (words : List (Nat × List Nat)) (late : List Obj) : State :=
  let step := fun (stage2 : Bool) =>
    (List.range (frameLen s)).foldl (fun t i =>
      stepRows (rowsOf s (runTiles s d f) stage2) (landPhase t d f i ph)) s
  match ph with
  | .ingest => ingestWindow s d f words late
  | .cross => step false
  | .matrix2 => step true
  | .egress => idleSdo (outletsFrame s d (carriedSamples s f)).1 d
  | _ => landFrame s d f ph

/-- EGRESS of a domain that a transition has stopped and whose rate it keeps: its streams send packets of zeros, and its ports clock zeros, but for
those of CD0, whose DPLL is retuned (R73; log entry 199). -/
def haltedEgress (s : State) (d : Nat) (ph : Phase) : Bool :=
  ph == .egress && !(dom s d).running && (dom s d).resume && numF s (ob 2 d 1) == 2
  && (numF s (modeObj + 4) == 3 || numF s (modeObj + 4) == 4) && !(d == 0 && rateChanges s)

/-- The work of a phase of a domain that runs. -/
def phaseWork (s : State) (d : Nat) (ph : Phase) (words : List (Nat × List Nat)) (late : List Obj) : State :=
  match ph, servedFrame ph (frameOf s d) with
  | .background, _ =>
    let t := loadSets s d
    exportFront (scrubFrame (if d = 0 then backgroundWindow t late else t) d) d
  | _, none => s
  | _, some f =>
    if modeNow s = 5 then standbyPhase s d f ph words late
    else if modeNow s = 6 then
      (match ph with
       | .egress => egressWindow s d f
       | .ingest => examineWindow (landFrame s d f ph) d f words
       | _ => landFrame s d f ph)
    else audioPhase s d f ph words late

/-- PHASE_WINDOW_START. `words` holds SDI of TDM ports by port, sample by sample, two levels a bit period; `late` names the units whose reads do not
return in time, and the programs that overrun. -/
def execPhaseWindowStart (d : Nat) (ph : Phase) (words : List (Nat × List Nat)) (late : List Obj) (s : State) :
    Host.Outcome State Fault Refusal :=
  .next (if d < 4 ∧ haltedEgress s d ph then
      ((List.range 256).map (· + 256)).foldl (fun t c => if ctxDom t c = d then zeroCtx t c else t)
        (if d = 0 then clearMedia (quietPorts s) d
         else ((List.range 48).filter (fun p => numF s (portObj p + 2) == d)).foldl zeroPort (clearMedia (quietPorts s) d))
    else if d < 4 ∧ (dom s d).running then phaseWork (landWithin (quietPorts s) d ph) d ph words late
    else s)

/-! ### Cut-off (R36, R55, R97, R169, R193) -/

/-- The masters that a phase of a domain cuts off. -/
def phaseMaster (s : State) (d : Nat) (ph : Phase) (m e : Nat) : Bool :=
  let tile := decide (m < 0x20) && tileDom s (m % 16) == d
  let mine := e == d
  match ph with
  | .ingest => mine && [0x22, 0x23, 0x24, 0x2A].contains m
  | .output => tile
  | .egress => mine && [0x22, 0x23, 0x24, 0x28, 0x2A].contains m
  | .strip => tile || (mine && [0x21, 0x25].contains m)
  | .cross => mine && m == 0x20
  | .bus => (tile && decide (0x10 ≤ m)) || (mine && m == 0x21)
  | .matrix2 => mine && m == 0x20
  | .matrixP => (tile && decide (0x10 ≤ m)) || (mine && m == 0x21)
  | .background => mine && [0x25, 0x26, 0x27].contains m

/-- The budget entry that a shortfall of a unit counts at: the delay engine's at the channel of its tile's lines, the Sample Exchange Memory's
for rows and keys, the channel's for the capture writer, the ports' of rings and contexts (R41, R55; log entry 178). -/
def shortEntryOf (s : State) (d o : Nat) : Option Obj :=
  let line := fun (t : Nat) => (entryFor s t ((lineChannels s s t).headD 0) d).map entryObj
  match areaOf o with
  | 4 => if instOf o < 0x200 then (entryFor s 0x23 4 d).map entryObj else (entryFor s 0x24 8 d).map entryObj
  | 5 => if o = capObj then (entryFor s 0x25 ((lineChannels s s 0).headD 0) d).map entryObj else line (stripTile s (instOf o))
  | 6 => (entryFor s 0x20 2 d).map entryObj
  | 7 => line (tile7 s (instOf o))
  | 8 => (entryFor s 0x21 2 d).map entryObj
  | 11 => some (baseOf o)
  | _ => none

/-- The entries of a phase's masters whose work is incomplete: a request held at a counter of 0 (R48), or a read that has not returned (R36,
R55). -/
def heldEntries (s : State) (mine : Nat → Nat → Bool) : List Obj :=
  s.xbar.arbs.flatMap (fun a =>
    (a.2.current.toList ++ a.2.queue).filterMap (fun r =>
      if mine r.master r.dom && beatsLeft s r.master a.1 r.dom == 0 then (entryFor s r.master a.1 r.dom).map entryObj else none))
  ++ s.xbar.resps.filterMap (fun r => if mine r.master r.dom && r.read then (entryFor s r.master r.tgt r.dom).map entryObj else none)

/-- What the engine delivers for one unit whose work was cut off: a strip or processor repeats its tap, a row its sum; the write of a delay
line named by its WRITE_MISSES is discarded; a key read and a budget entry only count. -/
def cutOne (s : State) (f : Nat) (o : Obj) : State :=
  let u := baseOf o
  let m := memOf o
  match areaOf o with
  | 5 => if 0x400 ≤ instOf o then s
         else if m = 0x054 then
           (let r := unitRt s u
            bump (putUnit s u { r with delay := { r.delay with lost := true } }) o)
         else (let r := unitRt s u
               bump (putUnit s u { r with delay := { r.delay with miss := true } }) (u + 0x053))
  | 6 => bump (repeatSlot s f (if instOf o < 0x100 then instOf o else 512 + instOf o % 0x100)) (ob 7 (instOf o) 0x601)
  | 7 => if instOf o < 0x200 then s
         else if m = 4 then
           (let r := outRt s u
            bump (putOut s u { r with delay := { r.delay with lost := true } }) o)
         else (let r := outRt s u
               bump (putOut s u { r with delay := { r.delay with miss := true } }) (u + 3))
  | 8 => bump s (u + 0x065)
  | _ => s

/-- PHASE_CUTOFF: the outstanding reads of the phase are cancelled, and the units in `late` deliver their substitutes; a line whose prefetch has
received an error response is among them (R381; log entry 208). Each cut-off of an activity counts, two in one period
twice (log entry 120). -/
def execPhaseCutoff (d : Nat) (ph : Phase) (late : List Obj) (s : State) : Host.Outcome State Fault Refusal :=
  .next (if d < 4 ∧ (dom s d).running then
      (let f := (servedFrame ph (frameOf s d)).getD 0
       let s1 := cancelReads s (phaseMaster s d ph)
       let s2 := late.foldl (fun t o => cutOne t f o) s1
       ((late.filterMap (shortEntryOf s d) ++ heldEntries s (phaseMaster s d ph)).eraseDups).foldl (fun t e => bump t (e + 0x00A)) s2)
    else s)

/-! ### The tick -/

/-- The end of the copy of R53: writes held meanwhile reach the new shadow copy. -/
def execShadowCopyEnd (d : Nat) (s : State) : Host.Outcome State Fault Refusal :=
  let s1 : State := { s with dict := { s.dict with copying := dropAll s.dict.copying d, held := s.dict.held.filter (fun e => e.1 != d) } }
  .next (((s.dict.held.filter (fun e => e.1 == d)).map (·.2)).foldl addLanding s1)

/-- DRAIN_COMPLETE: a unit's drain is over, and its next tick ends STOPPING (R10). -/
def execDrainComplete (u : Obj) (s : State) : Host.Outcome State Fault Refusal :=
  .next (if unitState s u = 3 ∨ unitState s u = 4 then setLife s u { life s u with drained := true } else s)

/-- Rings that are ON count the frames that their domain has missed (R73): frame periods at its rate between two ticks, less one. -/
def countGaps (s : State) (d : Nat) (old new : Cycle) : State :=
  let n := ((new - old) * domHz s d / (frameLen s * 1250000000)) - 1
  (((List.range 32).map (· + 32)).filter (fun r => numF s (ringObj r + 2) == d && numF s (ringObj r + 1) == 2)).foldl
    (fun t r => bumpBy t (ringObj r + 0x013) n) s

/-- Numbers the frame that a tick starts (R6). -/
def numberFrame (s : State) (d : Nat) : State :=
  let x := dom s d
  let s1 := if x.fresh then s else bump s (ob 2 d 0x14)
  let s2 := setDom s1 d { x with fresh := false, cycle := s.now, resume := false }
  if x.resume then
    (let s3 := countGaps s2 d x.cycle s.now
     if d = 0 ∧ numF s (modeObj + 4) = 4 then { s3 with mode := { s3.mode with frame := frameOf s3 0, time := stampNow s3 } } else s3)
  else s2

/-- Reloads the beat counter of an entry at a stage of a landing commit, with what the frame used (R47, R51). -/
def reloadEntry (stage : Nat) (s : State) (e : Nat) : State :=
  let x := budgetRt s e
  let o := entryObj e
  let run := if stage = 2 then x.next else x.running
  let s1 := setBudget s e { x with running := run, count := if stage = 1 then x.trans else run, used := 0, hitZero := false }
  let s2 := setN s1 (o + 7) x.used
  if numF s2 (o + 8) < x.used then setN s2 (o + 8) x.used else s2

/-- The transition table's budgets for which the running table has no entry: a domain's are loaded for its period F* + 1 alone (R51). -/
def reloadTrans (s : State) (d stage : Nat) : State :=
  let rest : Tab Nat := s.trans.filter (fun e => e.1 % 256 != d)
  let add : Tab Nat := match s.commit with | some p => if stage = 1 then p.budgets.filter (fun e => e.1 % 256 == d) else [] | none => []
  { s with trans := add.foldl (fun t e => tput t 0 e.1 e.2) rest }

/-- A tick reloads the beat counters of its domain; an idle target then grants a request that was held (R47, R48). -/
def reloadBudgets (s : State) (d : Nat) : State :=
  let k := budgetStage s d
  let s1 := (List.range 256).foldl (fun t e => if ownerDom t (entryObj e) = d then reloadEntry k t e else t) (reloadTrans s d k)
  ((s1.xbar.arbs.filter (fun a => a.2.current.isNone && !a.2.queue.isEmpty)).map (·.1)).foldl grantNext s1

/-- Faults that take effect at a tick of their domain; those of a domain without ticks at CD0's (R27). -/
def stopUnits (s : State) (d : Nat) : State :=
  let mine := s.sage.faults.filter (fun u => ownerDom s u == d || (d == 0 && !(dom s (ownerDom s u)).running))
  mine.foldl stopFaulted { s with sage := { s.sage with faults := s.sage.faults.filter (fun u => !(mine.contains u)) } }

/-- The units of a domain that follow its ticks: ports, contexts, rings, readback. -/
def tickUnits (s : State) (d : Nat) : State :=
  let s1 := ((List.range 48).filter (fun p => numF s (portObj p + 2) == d)).foldl tickPort s
  let s2 := ((List.range 512).filter (fun c => ctxDom s c == d)).foldl tickCtx s1
  let s3 := (((List.range 32).map (· + 32)).filter (fun r => numF s (ringObj r + 2) == d)).foldl tickRing s2
  tickReadback (sendBurst s3) d

/-- What a CD0 tick does beyond its domain: link and token, command pairs, the standby's way to SERVICE, loads of the arbiters. -/
def tickEngine (s : State) (low : Bool) : State :=
  let s1 := (List.range 16).foldl tickPair (tickPairRt (endPass s) low)
  reportLoads (retireMacs (serviceByRole s1))

/-- A tick of a domain that runs. -/
def tick (s : State) (d : Nat) (low : Bool) : State :=
  let s1 := applyStep (numberFrame s d) d
  let s2 := if d = 0 then armFade s1 else s1
  let s3 := landTicks { s2 with dict := { s2.dict with copying := addOnce s2.dict.copying d } } d
  let s4 := moveLanes (fatalTick (stopUnits (moveUnits (commitTick s3 d) d) d) d) d
  let s5 := driveOutputs (selectAtTick (servePhase (lockTick (slewTick (tickUnits s4 d) d) d) d) d) d
  let s6 := reloadBudgets s5 d
  examineTick (if d = 0 then tickEngine s6 low else s6) d

/-- FRAME_TICK: in RECONFIGURE the domain stops at its next tick (R73). `low` is the level of the partner's OUTOWN_N. -/
def execFrameTick (d : Nat) (cycle : Cycle) (low : Bool) (s : State) : Host.Outcome State Fault Refusal :=
  let s1 := atCycle s cycle
  .next (if d < 4 ∧ (dom s d).running then (if numF s (modeObj + 4) = 3 then stopDomain s1 d else tick (quietPorts s1) d low) else s1)

end Sys2Proof.Machine
end

