-- ==== Sys2Proof/Machine/Boot.lean ====
section
/-!
DEFINITION. Machine/Boot.lean: the kinds of reset (R438), retention RAM at a reset (R404, R440), the selection of the firmware (R442), the
start-up sequence (R443), the selection and restore of a version (R223, R224, R373), and firmware updates (R445).
-/
namespace Sys2Proof.Machine

/-! ### What a reset leaves (R437 to R440) -/

/-- The state that every reset leaves: the reset values, but for what a reset does not reach: retention RAM, flash, fuses, the host's
memory, the fault-log ring, boundary scan, and the commands that wait. -/
def wiped (s : State) : State :=
  let z := State.reset
  { z with pending := s.pending, now := s.now, free := s.free, aon := s.aon,
           boot := { z.boot with slots := s.boot.slots },
           ver := { z.ver with journal := s.ver.journal, images := s.ver.images, sequence := s.ver.sequence },
           host := { z.host with keys := s.host.keys, netRecs := s.host.netRecs, mem := s.host.mem },
           sage := { z.sage with log := s.sage.log },
           pins := { z.pins with jtag := s.pins.jtag, jtagIso := s.pins.jtagIso } }

/-- Drops the fault-log ring, unless its SRAM kept its supply. -/
def keepLog (s : State) (kept : Bool) : State := if kept then s else { s with sage := { s.sage with log := [] } }

/-- COLD_START (R438). -/
def execColdStart (s : State) : Host.Outcome State Fault Refusal :=
  .next { keepLog (wiped s) false with aon := Retained.none }

/-- RESET_N goes low for at least 1 µs while VDD_AON stays up (R438). -/
def execExternalWarmReset (sramKept : Bool) (s : State) : Host.Outcome State Fault Refusal :=
  let t := keepLog (wiped s) sramKept
  .next { t with boot := { t.boot with cause := 2 } }

/-- A warm reset that the engine starts itself: its cause goes to retention RAM, and start-up begins again with what was sampled at
the release of RESET_N (R438, R439). -/
def internalReset (s : State) (cause : Nat) (sramKept : Bool) : State :=
  let t := keepLog (wiped s) sramKept
  let b := { t.boot with step := 1, cause := cause, inReset := false, testmode := s.boot.testmode, side := s.boot.side, since := s.now }
  let t1 : State := { t with boot := b, aon := retain t.aon (fun a => { a with cause := cause }), pins := { t.pins with bankMv := s.pins.bankMv } }
  let t2 := setN t1 (pairObj + 2) (numF s (pairObj + 2))
  (List.range 48).foldl (fun u p => setN u (portObj p + 0x013) (numF s (portObj p + 0x013))) t2

/-- The supply monitor trips when VDD_CORE (rail 0) lies below 0.70 V or VDD_SRAM (rail 1) below 0.75 V for 1 µs or longer (R453). -/
def execSupplyMonitorTrip (rail mv ns : Nat) (sramKept : Bool) (s : State) : Host.Outcome State Fault Refusal :=
  .next (if ((rail = 0 ∧ mv < 700) ∨ (rail = 1 ∧ mv < 750)) ∧ 1000 ≤ ns ∧ !s.boot.inReset then internalReset s 6 sramKept else s)

/-- 100 ms after the FATAL error of a lockstep mismatch the engine resets itself (R400). -/
def execLockstepResetTimeout (s : State) : Host.Outcome State Fault Refusal :=
  .next (if parsleyDead s then internalReset s 4 true else s)

/-- The level of an I/O bank of the TDM ports from its supply: 1 for 1.8 V, 2 for 3.3 V, within 5 percent; 0 for none (R309). -/
def bankLevel (mv : Nat) : Nat := if 1710 ≤ mv ∧ mv ≤ 1890 then 1 else if 3135 ≤ mv ∧ mv ≤ 3465 then 2 else 0

/-- RESET_N is released: TESTMODE, RSM_SIDE and the bank supplies are sampled; the output balls stay at high impedance (R410, R412, R437, R443). -/
def execResetNRelease (testmode side : Nat) (banks : List Nat) (s : State) : Host.Outcome State Fault Refusal :=
  if s.boot.inReset then
    let mv := (List.range 4).map (fun b => (banks[b]?).getD 0)
    let s1 : State := { s with boot := { s.boot with step := 1, inReset := false, testmode := testmode, side := side, since := s.now },
                               pins := { s.pins with bankMv := (List.range 4).foldl (fun t b => tput t 0 b ((banks[b]?).getD 0)) [] } }
    let s2 := setN s1 (pairObj + 2) (side % 2)
    .next ((List.range 48).foldl (fun t p => setN t (portObj p + 0x013) (bankLevel ((mv[p / 12]?).getD 0))) s2)
  else .next s

/-! ### Fuses, retention RAM and firmware (R404, R440 to R442) -/

/-- The flash record of a firmware slot. -/
def fwSlot (s : State) (k : Nat) : FwSlot := tget s.boot.slots FwSlot.blank k

/-- Changes the flash record of a firmware slot. -/
def setFwSlot (s : State) (k : Nat) (x : FwSlot) : State :=
  { s with boot := { s.boot with slots := tput s.boot.slots FwSlot.blank k x } }

/-- Whether a slot is a candidate: its record is valid and its BOOT_FAIL bit clear. -/
def isCandidate (s : State) (k : Nat) : Bool := (fwSlot s k).present && bit s.aon.resetFails k == 0

/-- The candidate that loads first: the higher SEQUENCE, slot 0 at equal ones. -/
def firstSlot (s : State) : Option Nat :=
  if isCandidate s 0 && (!(isCandidate s 1) || decide ((fwSlot s 1).sequence ≤ (fwSlot s 0).sequence)) then some 0
  else if isCandidate s 1 then some 1 else none

/-- The load of a candidate begins, or the engine stops without one. -/
def loadSlot (s : State) (k : Option Nat) : State :=
  { s with boot := { s.boot with step := 2, pick := k, stopped := k.isNone } }

/-- SLOT_SEQUENCE: 0 for a slot without a valid record (R444). -/
def slotSequences (s : State) : State :=
  let q := fun (k : Nat) => if (fwSlot s k).present then (fwSlot s k).sequence else 0
  setN s (ob 0 0 0x016) (q 0 + q 1 * 2 ^ 32)

/-- The network record that applies: the highest-numbered one programmed (R259). -/
def netRecord (s : State) : Option NetRecord := ([3, 2, 1, 0].filterMap (tget s.host.netRecs none)).head?

/-- Whether the CRC of a log entry passes (R402). -/
def goodEntry (e : Octets) : Bool := leBytes 4 (crc32 (e.take 28)) == e.drop 28

/-- What a warm reset leaves to Sage: ring entries whose CRC passes, and from retention RAM spare rows, failed regions, the first entry and the
newest SEQUENCE (R404). -/
def giveBack (s : State) : State :=
  let s1 := s.aon.spares.foldl addSpare s
  let s2 := s.aon.failed.foldl (fun t e => addFailed t e.1 e.2) s1
  setN { s2 with sage := { s2.sage with first := s.aon.first, log := s2.sage.log.filter goodEntry } } (faultObj + 3) s.aon.sequence

/-- Fuse load ends: the cause of the reset is reported, retention RAM is checked, reference inputs begin to measure, and the first
candidate loads. -/
def loadFuses (s : State) : State :=
  let s1 : State := { s with host := { s.host with netUse := netRecord s }, aon := takeCopy s.aon }
  let s2 :=
    if s1.aon.valid then
      (let t : State := { s1 with aon := retain s1.aon (fun a => { a with warm := a.warm + 1 }) }
       giveBack (setN (setN t (ob 0 0 0x010) s.boot.cause) (ob 0 0 0x015) t.aon.warm))
    else setN { s1 with aon := Retained.none, sage := { s1.sage with log := [] } } (ob 0 0 0x010) (if s.boot.cause = 0 then 0 else 1)
  loadSlot (slotSequences s2) (firstSlot s2)

/-- FUSE_LOAD_DONE. With a TESTMODE ball high the engine loads no firmware (R410). -/
def execFuseLoadDone (s : State) : Host.Outcome State Fault Refusal :=
  .next (if s.boot.step = 1 ∧ s.boot.testmode = 0 then loadFuses s else s)

/-- Versions in the journal that their records' checks find unusable, before the first usable one (R222). -/
def badFirst (s : State) : List Nat := ((restoreOrder s).takeWhile (fun e => !(versionUsable s.ver e))).map (fun e => e.version.number)

/-- Reports versions found unusable: SKIPPED and JOURNAL_VERSION_SKIPPED (R444, R446). -/
def skipVersions (s : State) (ks : List Nat) : State :=
  ks.foldl (fun t k => raise (bump t (ob 0 0 0x014)) 0x0002 (ob 0 0 0) k) s

/-- The version selected first: its MAP_ORDER is in force until the next reset; a lost version is logged (R223, R373). -/
def selectVersion (s : State) : State :=
  let lost := s.aon.current ≠ 0 ∧ !(s.ver.journal.any (fun e => e.version.number == s.aon.current))
  let s1 := if lost then writeLog s (newTest s 0 0 0x0E 0 s.aon.current) 0 0 0 false else s
  let order := match (restoreOrder s1).find? (versionUsable s1.ver) with
    | some e => valNat (tget e.version.conf (dfl (dramObj 0 + 0x010)) (dramObj 0 + 0x010))
    | none => 1
  setN (skipVersions s1 (badFirst s1)) (dramObj 0 + 0x011) order

/-- The firmware of slot `k` runs, and the output balls leave high impedance. When it sets READY, the dictionary is served, a version is selected and training of both channels
begins. -/
def runFirmware (s : State) (k : Nat) (ready : Bool) : State :=
  let s1 := setN (setN { s with boot := { s.boot with slot := k, pick := none }, pins := { s.pins with highZ := false } } (ob 0 0 6) k) (ob 0 0 7)
    (Config.fwVersion (fwSlot s k).sequence).toNat
  if ready then startTraining (selectVersion { s1 with boot := { s1.boot with step := 3 } }) 0 else s1

/-- FIRMWARE_LOADED: a candidate whose signature fails is left for the other one. -/
def execFirmwareLoaded (ready : Bool) (s : State) : Host.Outcome State Fault Refusal :=
  match s.boot.step, s.boot.pick with
  | 2, some k =>
    if (fwSlot s k).good then .next (runFirmware s k ready)
    else
      let other := if firstSlot s = some k ∧ isCandidate s (1 - k) then some (1 - k) else none
      .next (loadSlot (raise s 0x0003 (ob 0 0 0) k) other)
  | _, _ => .next s

/-- The firmware running has not set READY within 100 ms: its slot fails the check, and the engine resets itself. -/
def execBootCheckTimeout (s : State) : Host.Outcome State Fault Refusal :=
  if s.boot.step = 2 ∧ s.boot.pick = none ∧ !s.boot.stopped then
    let k := s.boot.slot
    let f := s.aon.resetFails
    let s1 := raise s 0x0003 (ob 0 0 0) k
    .next (internalReset { s1 with aon := retain s.aon (fun a => { a with resetFails := if bit f k = 1 then f else f + 2 ^ k }) } 5 true)
  else .next s

/-- The selection runs again every 10 s while no candidate remains. -/
def execFirmwareRetry (s : State) : Host.Outcome State Fault Refusal :=
  .next (if s.boot.stopped then loadSlot (slotSequences s) (firstSlot s) else s)

/-! ### Restore (R223, R224, R374, R388) -/

/-- A version as a configuration to restore, adapted to what breaks a rule now, and the context that finds no signal numbers. -/
def restoreConf (s : State) (v : Version) : State × Option Nat :=
  giveSignals (placeAgain (suspendRefs (inMode (withConf s v.conf) v.mode v.rate)))

/-- Factory defaults; with channel 1 ABSENT, every tile's lines go to channel 0 (R244, R374). -/
def factoryConf (s : State) : State :=
  [dramObj 0 + 0x012, dramObj 1 + 0x012].foldl (fun t o => setF t o (factoryVal t o)) (inMode (withConf s []) 1 1)

/-- Applies the configuration of a start: audio state at rest, requests of its units, and CD0's start (R224). -/
def startConf (s : State) : State :=
  let s1 := resumeUnits (initAudio s)
  domainEntered (moveUnit s1 (ob 2 0 0) 1) 0 1

/-- The end of a restore: CURRENT, RESTORED and the step that selected, and the directory with the version in force first (R218, R444). -/
def restored (s : State) (number stp : Nat) (dir : List Version) : State :=
  let s1 := setN (setN (setN s (commitObj + 1) number) (ob 0 0 0x013) number) (ob 0 0 0x012) stp
  { s1 with ver := { s1.ver with dir := dir.map (fun v => { v with persisted := 2 }) }, aon := retain s1.aon (fun a => { a with current := number }) }

/-- Factory defaults in force. -/
def restoreNone (s : State) : State := restored (startConf (factoryConf s)) 0 4 []

/-- A version in force, with the configuration that validation passed. -/
def restoreOne (t : State) (stp : Nat) (v : Version) (r : List Version) : State :=
  restored (startConf { t with mode := { t.mode with pendSusp := t.mode.suspended } }) v.number stp (v :: r)

/-- Validation of a version as a configuration to restore. -/
def restoreCheck (s : State) (v : Version) : State × Option (Nat × Obj × Nat) :=
  validate (restoreConf s v).1 (restoreConf s v).1 (restoreConf s v).2

/-- A version that passes validation is restored; one that does not is skipped. -/
def restoreNext (s : State) (stp : Nat) (v : Version) (r : List Version) (next : State → Nat → State) : State :=
  match restoreCheck s v with
  | (t, none) => restoreOne t stp v r
  | (_, some _) => next (skipVersions s [v.number]) (if stp = 1 then 2 else 3)

/-- Restores the first version that passes validation, else factory defaults. `stp` is the step of R223 for the head of the list. -/
def restoreFrom : List Version → State → Nat → State
  | [], s, _ => restoreNone s
  | v :: r, s, stp => restoreNext s stp v r (restoreFrom r)

/-- The versions that can be restored, in order; the first step of R223 that has one. -/
def restoreBoot (s : State) : State :=
  let vs := ((restoreOrder s).filter (versionUsable s.ver)).map Journalled.version
  let first := match vs with | v :: _ => if s.aon.current ≠ 0 ∧ v.number = s.aon.current then 1 else 2 | [] => 4
  restoreFrom vs s first

/-- The results of training on the channels still in it: one that a parity alert failed stays FAILED (R388). -/
def trainedBoth (s : State) (rs : List (Option (Option Nat))) : State :=
  (List.range 2).foldl (fun t ch => if numF t (dramObj ch) = 1 then trainedChannel t ch ((rs[ch]?).getD none) else t) s

/-- MAP_ORDER 3 needs channels of equal capacities; else Bay maps with order 1 (R373). -/
def checkOrder (s : State) : State :=
  if mapOrder s = 3 ∧ numF s (dramObj 0 + 1) ≠ numF s (dramObj 1 + 1) then setN s (dramObj 0 + 0x011) 1 else s

/-- A start whose training fails: FATAL, with the domains of factory defaults ticking (R388, R400). -/
def failStart (s : State) : State :=
  let t := fatal s (newTest s 0 0 0x0D 0 0)
  let u := restored (startConf (factoryConf t)) 0 4 []
  { u with boot := { u.boot with step := 4 } }

/-- Start-up goes on once both channels are trained: the restore; the link's role (R417). -/
def restoreStart (s : State) : State :=
  let s2 := restoreBoot s
  let s3 : State := { s2 with boot := { s2.boot with step := 5 } }
  if isOn s3 pairObj then (let t := setRole s3 3
                           { t with pair := { t.pair with joinWait := true } })
  else s3

/-- DRAM_TRAINING_DONE, in start-up or in SERVICE, at the end of the last step: a set-point deferred in that step is carried out, and the
training it interrupts gives no values (R387; log entry 207). -/
def execDramTrainingDone (rs : List (Option (Option Nat))) (s : State) : Host.Outcome State Fault Refusal :=
  if !(training s) && s.boot.step != 3 then .next s
  else if s.boot.step = 3 then
    let t := checkOrder (trainedBoth s rs)
    .next (if numF t (dramObj 0) = 2 ∧ numF t (dramObj 1) ≠ 3 then restoreStart t else failStart t)
  else if (dramRt s 0).deferred.isSome then .next (stepTraining s true)
  else .next ((List.range 2).foldl wakeChannel (trainedBoth s rs))

/-- A write of SETPOINT in SERVICE: deferred while training runs, BUSY while one is deferred (R387). -/
def writeSetpoint (s : State) (sp : Nat) : Nat × State :=
  if training s then
    (match (dramRt s 0).deferred with
     | some _ => (stBusy, s)
     | none => (stOk, setDram s 0 { dramRt s 0 with deferred := some sp }))
  else if numF s (dramObj 0 + 3) = sp then (stOk, s)
  else (stOk, loseDirectory (changeSetpoint s sp))

/-- A write of TRAIN in SERVICE. -/
def writeTrain (s : State) : Nat × State :=
  if training s then (stBusy, s) else (stOk, loseDirectory (startTraining s (numF s (dramObj 0 + 3))))

/-! ### The unmute (R443, R444) -/

/-- Whether every enabled domain is ON. -/
def domainsOn (s : State) : Bool :=
  (List.range 4).all (fun d => (d != 0 && !(isOn s (ob 2 d 0))) || unitState s (ob 2 d 0) == 2)

/-- The unmute starts: every outlet fades in over 50 ms and the muting windows begin. An engine with its Rosemary link enabled
does not unmute here. -/
def startUnmute (s : State) : State :=
  let s1 : State := { s with boot := { s.boot with step := 6 } }
  if isOn s1 pairObj then s1 else fadeOutlets (openWindows (setRole (takeToken s1) 0)) true (fiftyMs s1)

/-- UNMUTE_START. -/
def execUnmuteStart (s : State) : Host.Outcome State Fault Refusal :=
  .next (if s.boot.step = 5 ∧ domainsOn s ∧ portsRan s ∧ !(isFatal s) then startUnmute s else s)

/-- START_UP_DONE: the end of the unmute. -/
def execStartUpDone (s : State) : Host.Outcome State Fault Refusal :=
  if s.boot.step = 6 then
    let s1 : State := { s with boot := { s.boot with step := 7 },
                               aon := if s.aon.resetFails = 0 then s.aon else retain s.aon (fun a => { a with resetFails := 0 }) }
    .next (raise (setN s1 (ob 0 0 0x011) ((s.now - s.boot.since) / 1250000)) 0x0001 (ob 0 0 0) (numF s1 (ob 0 0 0x013)))
  else .next s

/-! ### Firmware updates (R444, R445) -/

/-- The slot not running. -/
def otherSlot (s : State) : Nat := 1 - s.boot.slot

/-- Bytes of the image area of a slot: 16 MB less the slot record. -/
def imageArea : Nat := 0xFFF000

/-- Whether an update is at work. -/
def fwBusy (s : State) : Bool := numF s (ob 0 0 0x023) == 1 || numF s (ob 0 0 0x023) == 2

/-- A FW_DATA write: at offset 0 it invalidates the slot record first; the bytes are programmed from FW_OFFSET on. -/
def writeFw (s : State) (b : Octets) : State :=
  let at_ := numF s (ob 0 0 0x020)
  let k := otherSlot s
  let s1 := if at_ = 0 then slotSequences (setFwSlot s k { fwSlot s k with magic := 0, good := false }) else s
  setN { s1 with boot := { s1.boot with fwWrite := some (at_, b) } } (ob 0 0 0x023) 1

/-- The engine has programmed the bytes: FW_OFFSET advances. Bytes beyond the image area go nowhere (log entry 49). -/
def execFwProgramDone (s : State) : Host.Outcome State Fault Refusal :=
  match s.boot.fwWrite with
  | some (o, b) =>
    let x := fwSlot s (otherSlot s)
    let img := ((List.range b.length).zip b).foldl (fun t e => if o + e.1 < imageArea then tput t 0 (o + e.1) e.2 else t) x.image
    let s1 := setFwSlot { s with boot := { s.boot with fwWrite := none } } (otherSlot s) { x with image := img, good := false }
    .next (setN (setN s1 (ob 0 0 0x020) (o + b.length)) (ob 0 0 0x023) 0)
  | none => .next s

/-- FW_VERIFY_DONE: on success the slot record takes the SEQUENCE above the running slot's. -/
def execFwVerifyDone (s : State) : Host.Outcome State Fault Refusal :=
  if numF s (ob 0 0 0x023) = 2 then
    let k := otherSlot s
    let x := fwSlot s k
    .next (if Config.signatureGood x.image then
        setN (slotSequences (setFwSlot s k (sealSlot { x with good := true } (((fwSlot s s.boot.slot).sequence + 1) % 2 ^ 32)))) (ob 0 0 0x023) 3
      else setN (slotSequences (setFwSlot s k { x with magic := 0, good := false })) (ob 0 0 0x023) 4)
  else .next s

end Sys2Proof.Machine
end

