-- ==== Sys2Proof/Machine/Access.lean ====
section
/-!
DEFINITION. Machine/Access.lean: the checks of a write (R232, with R62, R225 to R231 and the objects' own rules) and its effect (R202,
R228, and the WO members).
-/
namespace Sys2Proof.Machine

/-! ### Objects as a session names them (R225, R246) -/

/-- The native object that a session's number names, within the session's dialect. -/
def nativeOf (s : State) (n : Sess) (x : Nat) : Option Obj :=
  if isLegacy s n then (match ofLegacy x with | some o => if inSubset o then some o else none | none => none) else some x

/-- The object and row that a number names for a session. Area F is served without rows. -/
def namedRow (s : State) (n : Sess) (x : Nat) : Option (Obj × Row) :=
  match nativeOf s n x with
  | some o => (lookup s o).map (fun r => (o, r))
  | none => none

/-- Whether a number of a native session lies in area F. -/
def isPrivateArea (s : State) (n : Sess) (x : Nat) : Bool := !(isLegacy s n) && areaOf x == 15

/-! ### Access (steps 2 and 3 of R232) -/

/-- Whether a row can be read at all. -/
def isWo (r : Row) : Bool := match r.acc with | .wo => true | _ => false
/-- Whether a row is LIVE. -/
def isLive (r : Row) : Bool := match r.app with | .live => true | _ => false

/-- Members that a rule makes RO: the strip-library images, what the engine sets for strip slots, and placements that an
automix group uses (R130, R131, R151). -/
def ruledOut (s : State) (o : Obj) : Bool :=
  let i := instOf o
  let m := memOf o
  if areaOf o ≠ 9 then false
  else if i < 0x100 then decide (0xF0 ≤ i)
  else if i < 0x1000 then false
  else if i % 0x100 < 0x40 then [2, 3, 4, 9, 0x00A].contains m
  else if 0xFE ≤ i % 0x100 then
    (let a := automixTiles s
     let t := (i - 0x1000) / 0x100
     if i % 0x100 = 0xFF then a.1.contains t else a.2.contains t)
  else false

/-- The write privilege of an object for a session: a session can close itself with OBSERVER privilege (R236). -/
def needPriv (n : Sess) (o : Obj) (r : Row) : Nat :=
  if areaOf o = 1 ∧ memOf o = 0x00A ∧ 0x100 ≤ instOf o ∧ instOf o < 0x120 then (if instOf o = 0x100 + n then 0 else 2) else r.priv

/-! ### The mode (step 4 of R232) -/

/-- Whether the mode forbids a write (R14, R62, R206, R389, R400, R405, R444). -/
def modeForbids (s : State) (o : Obj) (v : Nat) : Bool :=
  let a := areaOf o
  let i := instOf o
  let m := memOf o
  let svc := modeNow s == 6
  let rest := svc || modeNow s == 5
  if isFatal s && a != 13 then true
  else if modeNow s = 5 ∧ a ≠ 12 ∧ a ≠ 13 then true
  else match a with
  | 0 => (m == 0x020 || m == 0x021 || m == 0x022) && !svc
  | 2 => if i = 0 then (m == 0 && v == 0) || m == 2 else decide (i < 4) && m == 0 && v == 1 && rest
  | 3 => m == 0 && v == 1 && decide ((lim s).ports ≤ i)
  | 4 => if i < 0x200 then m == 0 && v == 1 && rest else i == 0x200 && (m == 0x080 || m == 0x081) && rest
  | 5 => i == 0x400 && m == 0 && v == 1 && rest
  | 7 => decide (0x200 ≤ i) && m == 0x042 && v != 0 && decide (4 ≤ modeNow s)
  | 10 => decide (0x100 ≤ i) && (m == 3 || m == 4 || m == 6) && !svc
  | 12 => m == 0 && v == 1 && rest
  | 13 => i == 0 && (m == 0x010 || m == 0x011) && !svc
  | 14 => i == 0 && m == 0x013 && !svc
  | _ => false

/-! ### Types and ranges (steps 6 and 7 of R232) -/

/-- Whether the type code and length of a written value fit: gains of a KV4100 session are Q4_27 (R231, R246). -/
def typeOk (s : State) (n : Sess) (o : Obj) (r : Row) (v : TVal) : Bool :=
  if isLegacy s n && isGain o then
    v.code == 9 && v.size == 4 && (match v.val with | .num x => decide (x < 2 ^ 32) | .blob _ => false)
  else typeFits r v

/-- The native value that a session writes; none for a negative Q4_27 gain. -/
def nativeVal (s : State) (n : Sess) (o : Obj) (v : TVal) : Option Val :=
  if isLegacy s n && isGain o then
    (let x := signedOf 32 (valNat v.val)
     if x < 0 then none else if x = 0 then some (.num negInf) else some (.num (dbOfGain x)))
  else some v.val

/-- Ranges that depend on other members: FRAME_PHASE, FRAME_WIDTH in TIGHT, DYN_UNIT and TARGET (R172, R219, R290). -/
def rangeMore (s : State) (o : Obj) (v : Val) : Bool :=
  let i := instOf o
  let m := memOf o
  let n := valNat v
  match areaOf o with
  | 2 => if i < 4 ∧ m = 0x022 then decide (n < storedNum s true (ob 2 i 0x021))
         else if i < 4 ∧ m = 0x023 ∧ modeNow s = 4 then decide (n ≤ 1) else true
  | 7 => if i < 0x200 ∧ m = 0x020 then n == 0xFFFF || decide (n < (lim s).units) else true
  | 14 => if i = 1 ∧ m = 0 then n == 0 || s.ver.dir.any (fun x => x.number == n) else true
  | _ => true

/-- A written value in range. -/
def rangeOk (s : State) (o : Obj) (r : Row) (v : Option Val) : Bool :=
  match v with
  | some x => rangeFits s o r x && rangeMore s o x
  | none => false

/-! ### The objects' own rules (step 8 of R232) -/

/-- Whether a session's write of a row acts on the bank (R202). -/
def goesToBank (s : State) (n : Sess) (r : Row) : Bool := !(isLive r) || ((sess s n).staging && r.ret)

/-- SELECT and REVERT need a usable reference in a domain that is not OFF (R283). -/
def selectStatus (s : State) (d code : Nat) : Nat := if numF s (ob 2 d 1) ≠ 0 ∧ !(usable s d code) then stBusy else stOk

/-- Whether a value of WCLK_OUT sets a bit that another domain has set (R290). -/
def wclkClash (get : Obj → Nat) (i v : Nat) : Bool := (List.range 4).any (fun d => d != i && (get (ob 2 d 0x024) &&& v) != 0)

/-- Own rules of the clocks (R283, R288, R303). -/
def clockStatus (s : State) (i m v : Nat) : Nat :=
  if i < 4 then
    (if m = 3 then selectStatus s i v
     else if m = 0x00B then selectStatus s i (storedNum s true (ob 2 i 3))
     else if m = 0x024 ∧ wclkClash (storedNum s true) i v then stConflict
     else stOk)
  else if 0x10 ≤ i ∧ i < 0x14 ∧ m = 7 then stepStatus s (i - 0x10) v
  else stOk

/-- Own rules of images, tiles and placements (R15, R124, R130). -/
def basilStatus (s : State) (i m : Nat) (v : Val) : Nat :=
  if i < 0x100 then (if m = 0 ∧ loadStatus (valOctets v) ≠ 0 then stRange else stOk)
  else if i < 0x110 ∧ m = 2 ∧ unitState s (ob 9 i 0) ≠ 0 then stBusy
  else stOk

/-- Whether a LIVE consumer would name a signal of another domain (R22, R152). -/
def livePatch (s : State) (o : Obj) (v : Nat) : Nat :=
  let x := if isTableMember o then (if bit v 15 = 1 then some (bits v 12 0) else none) else some v
  match x with
  | some k => if takesPart s o && crosses s (ownerDom s o) k then stConflict else stOk
  | none => stOk

/-- A NODE_LIVE write of a gain needs source and row in one domain (R163). -/
def nodeLiveStatus (s : State) (i k v : Nat) : Nat :=
  let o := ob 6 i k
  if v ≠ negInf ∧ badNode (setN s o v) o then stConflict else stOk

/-- The status that an object's own rule gives a write. -/
def ownStatus (s : State) (n : Sess) (o : Obj) (r : Row) (v : Val) : Nat :=
  let i := instOf o
  let m := memOf o
  let x := valNat v
  let live := !(goesToBank s n r)
  match areaOf o with
  | 0 => if (m = 0x021 ∨ m = 0x022) ∧ fwBusy s then stBusy else stOk
  | 1 => if i = 0x200 ∧ m = 6 ∧ !(bankEmpty s) then stConflict else stOk
  | 2 => if live then clockStatus s i m x
         else if i < 4 ∧ m = 0x024 ∧ wclkClash (fun p => valNat (stagedVal s p)) i x then stConflict else stOk
  | 3 => if m = 0 ∧ x = 1 ∧ numF s (ob 3 i 0x013) = 0 then stBusy
         else if 0x100 ≤ m ∧ live then livePatch s o x else stOk
  | 4 => if 0x320 ≤ i ∧ i < 0x340 ∧ m = 0x00E then (if unitState s (ob 4 i 0) = 5 then stOk else stBusy)
         else if i = 0x200 ∧ m = 0x080 then (openContext s n 0 x).1
         else if i = 0x200 ∧ m = 0x081 then (openContext s n 0x100 x).1
         else if isTableMember o ∧ live then livePatch s o x else stOk
  | 5 => if i < 0x400 ∧ m = 0 ∧ live then livePatch s o x
         else if i = 0x400 ∧ m = 0x016 then (doReadback s).1 else stOk
  | 6 => if 0x800 ≤ m then nodeLiveStatus s i (m - 0x800) x else stOk
  | 9 => basilStatus s i m v
  | 10 => if 0x100 ≤ i ∧ m = 3 then (writeSetpoint s x).1
          else if 0x100 ≤ i ∧ m = 4 ∧ numF s (ob 10 i 3) = 1 then stBusy
          else if 0x100 ≤ i ∧ m = 6 then (writeTrain s).1 else stOk
  | 12 => if m = 7 then (requestHandover s).1 else stOk
  | 13 => if i = 0 ∧ m = 2 ∧ !(isFatal s) then stBusy else stOk
  | 14 => if i = 0 ∧ m = 0x011 then (doDiscard s).1 else if i = 0 ∧ m = 0x012 then (doCancel s).1
          else if i = 0 ∧ m = 0x013 then (doRenumber s).1 else stOk
  | _ => stOk

/-- What a write leaves whatever its status: LOAD_STATUS of an image, and OPENED where no context is free (R130, R341). -/
def ownMarks (s : State) (n : Sess) (o : Obj) (v : Val) : State :=
  let i := instOf o
  let m := memOf o
  if areaOf o = 9 ∧ i < 0x100 ∧ m = 0 then setN s (o + 1) (loadStatus (valOctets v))
  else if areaOf o = 4 ∧ i = 0x200 ∧ (m = 0x080 ∨ m = 0x081) then
    (let q := openContext s n (if m = 0x080 then 0 else 0x100) (valNat v)
     if q.1 = stOk then s else q.2)
  else s

/-! ### The checks in their order (R232) -/

/-- Whether a write is one that an open transaction forbids (R239). -/
def txnForbids (s : State) (n : Sess) (o : Obj) : Bool :=
  (sess s n).txn.isSome && areaOf o == 14 && instOf o == 0 && (memOf o == 0x011 || memOf o == 0x012)

/-- Whether an object is REQ_MODE. -/
def isReqMode (o : Obj) : Bool := o == modeObj + 3

/-- Steps 1 to 8 of R232 for one write: the status, with the object and value to write. REQ_MODE follows R70, once its type fits. -/
def checkRow (s : State) (n : Sess) (o : Obj) (r : Row) (v : TVal) : Nat :=
  if isReqMode o then
    (if typeOk s n o r v then (doReqMode s (privOf s n) (valNat v.val) (sess s n).txn.isSome).1 else stType)
  else if isRo r || ruledOut s o then stDenied
  else if privOf s n < needPriv n o r then stDenied
  else if modeForbids s o (valNat v.val) then stMode
  else if inTransition s || txnForbids s n o then stBusy
  else if !(typeOk s n o r v) then stType
  else if !(rangeOk s o r (nativeVal s n o v)) then stRange
  else ownStatus s n o r ((nativeVal s n o v).getD v.val)

/-- Whether a write reaches the object's own rule: one refused for its length does not, and leaves LOAD_STATUS (R124, log entry 184). -/
def reachesOwn (s : State) (n : Sess) (o : Obj) (r : Row) (v : TVal) : Bool :=
  !(isReqMode o) && !(isRo r || ruledOut s o) && decide (needPriv n o r ≤ privOf s n) && !(modeForbids s o (valNat v.val))
  && !(inTransition s || txnForbids s n o) && typeOk s n o r v && rangeOk s o r (nativeVal s n o v)

/-- The check of a write by its number: status, what is to be written, and the state with what the check itself leaves. -/
def checkWrite (s : State) (n : Sess) (x : Nat) (v : TVal) : Nat × Option (Obj × Val) × State :=
  if isPrivateArea s n x then (stDenied, none, s)
  else match namedRow s n x with
  | none => (stNoObject, none, s)
  | some (o, r) =>
    let w := (nativeVal s n o v).getD v.val
    let st := checkRow s n o r v
    (st, if st = stOk then some (o, w) else none, if reachesOwn s n o r v then ownMarks s n o w else s)

/-! ### Effects -/

/-- ENTRY writes members 000 to 005 of a budget entry together; BEATS is the engine's in AUTO (R43, R44). -/
def writeEntry (s : State) (o : Obj) (v : Nat) : State :=
  let b := baseOf o
  let s1 := [(0, bit v 63), (4, bit v 62), (3, bits v 61 60), (2, bits v 59 54), (1, bits v 53 46)].foldl
    (fun t e => setBank t (b + e.1) (.num e.2)) s
  if bit v 62 = 1 then setBank s1 (b + 5) (.num (bits v 17 0)) else s1

/-- A write that enters the staging bank (R202). -/
def stageWrite (s : State) (o : Obj) (v : Val) : State :=
  if areaOf o = 11 ∧ memOf o = 0x00C then writeEntry s o (valNat v)
  else if areaOf o = 11 ∧ memOf o = 5 ∧ valNat (stagedVal s (baseOf o + 4)) = 0 then s
  else setBank s o v

/-- A session closes by command: a pair that carries it goes OFF with it (R236, log entry 50). -/
def closeBy (s : State) (k : Sess) : State :=
  match pairOf s k with
  | some i =>
    let x := cmdPair s i
    raisePair (setPair (closeSession (disablePair s i) k 0) i x.stopped) i 0
  | none => closeSession s k 0

/-- RESTART of a ring that is FAULTED: OFF at its next tick, then started again without a commit (R271). -/
def restartRing (s : State) (u : Obj) : State := setLife s u { life s u with request := some false, again := true }

/-- FACTORY writes the Default of every factory member into the bank, over what an earlier write of the same command put there (R245). -/
def stageFactory (s : State) : State :=
  { s with dict := { s.dict with factory := true, bank := s.dict.bank.filter (fun e => !(isFactoryMember e.1)) } }

/-- What writing a WO member does. CLEAR of a unit of a domain, and LOG_CLEAR, act at the next frame (R228). -/
def act (s : State) (n : Sess) (o : Obj) (v : Val) : State :=
  let i := instOf o
  let m := memOf o
  let x := valNat v
  if isClear o then (if noDomain o then clearMembers s o else landLive s o v)
  else match areaOf o with
  | 0 => if m = 0x021 then writeFw s (valOctets v) else if m = 0x022 then setN s (ob 0 0 0x023) 2
         else if m = 0x032 then setN s (ob 0 0 0x031) (numF s (ob 0 0 0x030)) else s
  | 1 => if i = 0 then (doReqMode s (privOf s n) x false).2
         else if i = 0x200 then formRecord (stageFactory s) (recordOf s .values [] ((sortUp (((s.dict.force ++ s.dict.bank).map (·.1)).filter
           isFactoryMember)).map (fun o => (o, factoryVal s o))) [])
         else closeBy s (i - 0x100)
  | 2 => if i < 4 then (if m = 0x00B then setDom s i { dom s i with revert := true } else realignOutputs s i [0, 1, 2])
         else if x = 1 then acceptStep s (i - 0x10) else rejectStep s (i - 0x10)
  | 4 => if m = 0x080 then (openContext s n 0 x).2 else if m = 0x081 then (openContext s n 0x100 x).2 else restartRing s (ob 4 i 0)
  | 5 => (doReadback s).2
  | 10 => (writeTrain s).2
  | 12 => (requestHandover s).2
  | 13 => if m = 2 then internalReset s 3 true else setN s (ob 13 0 0x012) 1
  | 14 => if m = 0x011 then (doDiscard s).2 else if m = 0x012 then (doCancel s).2 else (doRenumber s).2
  | _ => s

/-- A LIVE write (R139, R164, R202, R228, R386). -/
def liveWrite (s : State) (n : Sess) (o : Obj) (v : Val) : State :=
  if o = commitObj + 0x010 then setSess s n { sess s n with staging := valNat v == 1 }
  else if noDomain o then setF s o v
  else if areaOf o = 6 ∧ 0x800 ≤ memOf o then landLive s (o - 0x800) v
  else if areaOf o = 10 ∧ 0x100 ≤ instOf o ∧ memOf o = 3 then (writeSetpoint s (valNat v)).2
  else landLive s o v

/-- The effect of one write of a session that has passed its checks. -/
def writeEffect (s : State) (n : Sess) (o : Obj) (v : Val) : State :=
  match lookup s o with
  | none => s
  | some r =>
    if isWo r then act s n o v
    else if goesToBank s n r then stageWrite s o v
    else liveWrite s n o v

/-- Whether a session's write of a member puts a value in force, and is neither an action nor one of the staging bank. -/
def writesLive (s : State) (n : Sess) (o : Obj) : Bool :=
  (match lookup s o with | some r => !(isWo r) && !(goesToBank s n r) | none => false) && o != commitObj + 0x010

/-- The member that a LIVE write lands in: NODE for NODE_LIVE. -/
def liveMember (o : Obj) : Obj := if areaOf o = 6 ∧ 0x800 ≤ memOf o then o - 0x800 else o

/-- Writes of one command, in their order; the active side of a pair forms the configuration record of them (R419). -/
def writeAll (s : State) (n : Sess) (ws : List (Obj × Val)) : State :=
  let t := ws.foldl (fun t e => writeEffect t n e.1 e.2) s
  recordWrites t ((ws.filter (fun e => writesLive s n e.1)).map (fun e => (liveMember e.1, e.2)))
    (t.dict.bank.filter (fun e => !(s.dict.bank.contains e)))

end Sys2Proof.Machine
end

