-- ==== Sys2Proof/Machine/Serve.lean ====
section
/-!
DEFINITION. Machine/Serve.lean: the dictionary's commands (R227, R232, R238 to R241, R247 to R249): their order within a session, the
instance locks, transactions, subscriptions, and the two transports that bring requests (R252 to R254, R262).
-/
namespace Sys2Proof.Machine

/-! ### Locks and write commands (R240) -/

/-- Whether another session holds an instance: its command waits for a further lock, or its writes have not ended. -/
def lockHolder (s : State) (n : Sess) (b : Obj) : Option Sess :=
  (s.ctl.locks.find? (fun l => l.inst == b && l.owner != n && (decide (s.now < l.until_) || (sess s l.owner).waiting.isSome))).map (·.owner)

/-- Drops the locks of a session. -/
def dropLocks (s : State) (n : Sess) : State :=
  { s with ctl := { s.ctl with locks := s.ctl.locks.filter (fun l => l.owner != n) } }

/-- Takes the lock of an instance. -/
def takeLock (s : State) (n : Sess) (b : Obj) : State :=
  { s with ctl := { s.ctl with locks := s.ctl.locks.filter (fun l => l.inst != b) ++ [{ inst := b, owner := n, until_ := 0 }] } }

/-- The longest hold of the locks of a command once it has obtained them all, in core cycles: 200 µs. -/
def lockHold : Nat := 250000

/-- Ends a transaction: nothing is held and TXN reads NONE. -/
def endTxn (s : State) (n : Sess) : State :=
  setN (setN (setSess s n { sess s n with txn := none }) (sob n 4) 0) (sob n 5) 0

/-- The status of one write when its command completes: BUSY once a transition runs (R74, R205), and for an action its own rule once more (R211,
log entry 179). -/
def lateOne (s : State) (n : Sess) (e : Obj × Val) : Nat :=
  if inTransition s then stBusy
  else match lookup s e.1 with
  | some r => if isWo r && !(isReqMode e.1) then ownStatus s n e.1 r e.2 else stOk
  | none => stOk

/-- The first of a command's writes that can no longer be made when the command completes: its place and its status. -/
def lateFailure (s : State) (n : Sess) : Nat → List (Obj × Val) → Option (Nat × Nat)
  | _, [] => none
  | k, e :: r => if lateOne s n e = stOk then lateFailure s n (k + 1) r else some (k, lateOne s n e)

/-- A write command that holds all its locks: it replies and writes; its locks stay for a time that is open up to 200 µs (log entry 12). -/
def finishWrite (s : State) (n : Sess) (w : Waiting) : State :=
  let q := drawUpTo s lockHold
  let s1 : State := { q.2 with ctl := { q.2.ctl with
    locks := q.2.ctl.locks.map (fun l => if l.owner = n then { l with until_ := s.now + q.1 } else l) } }
  let s2 := setSess s1 n { sess s1 n with waiting := none }
  let s3 := if w.op = 0x06 then endTxn s2 n else s2
  match lateFailure s n 0 w.writes with
  | some e => reply s3 n w.op w.tag w.obj e.2 (if w.op = 0x04 then e.1 else 0) .none
  | none => writeAll (reply s3 n w.op w.tag w.obj stOk 0 .none) n w.writes

/-- Obtains the locks of a waiting command in ascending order, as far as no other session holds one. -/
def climb (s : State) (n : Sess) (w : Waiting) : List Obj → State
  | [] => finishWrite s n { w with want := [] }
  | b :: r =>
    match lockHolder s n b with
    | some _ => setSess s n { sess s n with waiting := some { w with want := b :: r } }
    | none => climb (takeLock s n b) n w r

/-- A write command that has passed its checks asks for its locks. -/
def runWrite (s : State) (n : Sess) (op tag x : Nat) (ws : List (Obj × Val)) : State :=
  let want := sortUp (ws.map (fun e => baseOf e.1))
  climb (dropLocks s n) n { op := op, tag := tag, obj := x, writes := ws, want := want, since := s.now } want

/-! ### Reading (R227, R238) -/

/-- What a READ of a number answers: status and value. -/
def readOne (s : State) (n : Sess) (x : Nat) : Nat × Option TVal :=
  if isPrivateArea s n x then (stOk, some { code := 4, size := 4, val := .num 0 })
  else match namedRow s n x with
  | none => (stNoObject, none)
  | some (o, r) => if isWo r then (stDenied, none) else (stOk, some (typedFor s n o (readVal s n o)))

/-- The numbers of a block in a session's dialect, if no step carries into another field (R238). -/
def blockNos (s : State) (n : Sess) (x count : Nat) (byInstance : Bool) : Option (List Nat) :=
  if isLegacy s n then
    (if byInstance then
       (if bits x 27 16 + count ≤ 0x1000 then some ((List.range count).map (fun k => x + k * 2 ^ 16)) else none)
     else if x % 2 ^ 16 + count ≤ 0x10000 then some ((List.range count).map (fun k => x + k)) else none)
  else blockObjs x count byInstance

/-! ### Writing (R232, R238, R239) -/

/-- Checks writes in order up to the first that fails: what is to be written, the state, and the failure as index and status. -/
def checkAll (n : Sess) : Nat → State → List (Nat × TVal) → List (Obj × Val) × State × Option (Nat × Nat)
  | _, s, [] => ([], s, none)
  | k, s, (x, v) :: r =>
    match checkWrite s n x v with
    | (_, some e, t) => let q := checkAll n (k + 1) t r
                        (e :: q.1, q.2)
    | (st, none, t) => ([], t, some (k, st))

/-- The place in a block of the first object whose type differs from that of the first one that exists (R238). -/
def oddType (s : State) (n : Sess) (items : List (Nat × TVal)) : Option Nat :=
  let ty := fun (e : Nat × TVal) => (namedRow s n e.1).map (fun q => q.2.ty.code)
  match items.filterMap ty with
  | [] => none
  | t :: _ => items.findIdx? (fun e => match ty e with | some u => u != t | none => false)

/-- The objects that a transaction holds at most. -/
def txnMost : Nat := 4096

/-- A WRITE or WRITE_BLOCK: in a transaction it is held, else it runs. A WRITE_BLOCK that fails for no single object answers AUX 0 (log entry
214). -/
def writeCmd (s : State) (n : Sess) (op tag x : Nat) (items : List (Nat × TVal)) : State :=
  let odd := if op = 0x04 then oddType s n items else none
  let q := match odd with | some k => ([], s, some (k, stType)) | none => checkAll n 0 s items
  let t := q.2.1
  let fail := q.2.2
  match (sess t n).txn with
  | none =>
    (match fail with
     | some e => reply t n op tag x e.2 (if op = 0x04 then e.1 else 0) .none
     | none => runWrite t n op tag x q.1)
  | some z =>
    let full := decide (txnMost < z.writes.length + q.1.length)
    let st := match fail with | some e => e.2 | none => if full then stNoResource else stOk
    let y : Txn := { z with writes := if st = stOk then z.writes ++ q.1 else z.writes, bad := if z.bad = stOk then st else z.bad }
    let t1 := setN (setSess t n { sess t n with txn := some y }) (sob n 5) y.writes.length
    reply t1 n op tag x st (match fail with | some e => if op = 0x04 then e.1 else 0 | none => 0) .none

/-- TXN_BEGIN. -/
def beginTxn (s : State) (n : Sess) (tag : Nat) : State :=
  if inTransition s ∨ (sess s n).txn.isSome then reply s n 0x05 tag 0 stBusy 0 .none
  else reply (setN (setSess s n { sess s n with txn := some { writes := [], bad := stOk, start := s.now } }) (sob n 4) 1) n 0x05 tag 0 stOk 0 .none

/-- TXN_END: the first bad status, or every held write as one command. -/
def closeTxn (s : State) (n : Sess) (tag : Nat) : State :=
  let no := fun (t : State) (st : Nat) => reply t n 0x06 tag 0 st 0 .none
  match (sess s n).txn with
  | none => no s stBusy
  | some z =>
    if z.bad ≠ stOk then no (endTxn s n) z.bad
    else if inTransition s then no s stBusy
    else if isFatal s && z.writes.any (fun e => areaOf e.1 != 13) then no (endTxn s n) stMode
    else runWrite (setN s (sob n 4) 2) n 0x06 tag 0 z.writes

/-! ### Commits, subscriptions and the rest -/

/-- Whether the fields of a COMMIT or ROLLBACK are malformed (R207, R248). -/
def badCommit (s : State) (r : CommitReq) : Bool :=
  decide (2 < r.when) || decide (3 < r.base) || (r.when == 0 && r.instant != 0)
  || (r.when == 1 && decide (1000000000 ≤ r.instant % 2 ^ 30)) || (r.when == 2 && frameLen s == 1 && r.instant % 8 != 0)

/-- The lowest subscription number that is free. -/
def freeSub (s : State) (n : Sess) : Option Nat := (List.range 64).find? (fun k => (tget (sess s n).subs none k).isNone)

/-- Puts or removes a subscription, and counts them. -/
def putSub (s : State) (n : Sess) (k : Nat) (b : Option Sub) : State :=
  let subs := tput (sess s n).subs none k b
  setN (setSess s n { sess s n with subs := subs }) (sob n 6) subs.length

/-- The objects of a value subscription, or the status that refuses it. -/
def subObjects (s : State) (n : Sess) (x count : Nat) (byInstance : Bool) (ms : Nat) : Nat × List Obj :=
  if 10000 < ms ∨ count = 0 ∨ 4096 < count then (stRange, [])
  else match blockNos s n x count byInstance with
  | none => (stRange, [])
  | some xs =>
    let found := xs.filterMap (namedRow s n)
    let os := (found.filter (fun e => !(isWo e.2))).map (·.1)
    if count = 1 ∧ found.isEmpty ∧ !(isPrivateArea s n x) then (stNoObject, [])
    else if count = 1 ∧ os.isEmpty ∧ !(isPrivateArea s n x) then (stDenied, [])
    else (stOk, os)

/-- SUBSCRIBE. -/
def subscribe (s : State) (n : Sess) (tag : Nat) (r : SubReq) : State :=
  let q := match r with
    | .value x count byInstance ms => subObjects s n x count byInstance ms
    | .event codes => (if 1 ≤ codes.length ∧ codes.length ≤ 32 then stOk else stRange, [])
  let x := reqObj (.subscribe r)
  if q.1 ≠ stOk then reply s n 0x09 tag x q.1 0 .none
  else match freeSub s n with
  | none => reply s n 0x09 tag x stNoResource 0 .none
  | some k => reply (putSub s n k (some { req := r, last := q.2.map (fun o => (o, viewVal s n o)), wait := [], due := [] })) n 0x09 tag x stOk 0 (.sub k)

/-- UNSUBSCRIBE. -/
def unsubscribe (s : State) (n : Sess) (tag k : Nat) : State :=
  if k < 64 ∧ (tget (sess s n).subs none k).isSome then reply (putSub s n k none) n 0x0A tag 0 stOk 0 .none
  else reply s n 0x0A tag 0 stRange 0 .none

/-- READ_BLOCK. -/
def readBlock (s : State) (n : Sess) (tag x count : Nat) (byInstance : Bool) : State :=
  match (if 1 ≤ count ∧ count ≤ 4096 then blockNos s n x count byInstance else none) with
  | none => reply s n 0x03 tag x stRange 0 .none
  | some xs => reply s n 0x03 tag x stOk 0 (.block (xs.map (readOne s n)))

/-- WRITE_BLOCK. -/
def writeBlock (s : State) (n : Sess) (tag x : Nat) (byInstance : Bool) (vs : List TVal) : State :=
  match (if 1 ≤ vs.length ∧ vs.length ≤ 4096 then blockNos s n x vs.length byInstance else none) with
  | none => reply s n 0x04 tag x stRange 0 .none
  | some xs => writeCmd s n 0x04 tag x (xs.zip vs)

/-- A request as it is served, without the gates. -/
def serveBody (s : State) (n : Sess) (tag : Nat) (q : Req) : State :=
  match q with
  | .read x => let a := readOne s n x
               reply s n 0x01 tag x a.1 0 (match a.2 with | some v => .typed v | none => .none)
  | .write x v => writeCmd s n 0x02 tag x [(x, v)]
  | .readBlock x count byInstance => readBlock s n tag x count byInstance
  | .writeBlock x byInstance vs => writeBlock s n tag x byInstance vs
  | .txnBegin => beginTxn s n tag
  | .txnEnd => closeTxn s n tag
  | .commit r => if badCommit s r then reply s n 0x07 tag 0 stRange 0 .none else doCommit s n tag r
  | .rollback r => if badCommit s r then reply s n 0x08 tag 0 stRange 0 .none else doRollback s n tag r
  | .subscribe r => subscribe s n tag r
  | .unsubscribe k => unsubscribe s n tag k
  | .close => closeBy (reply s n 0x0B tag 0 stOk 0 .none) n
  | .nop => reply s n 0x0C tag 0 stOk 0 .none
  | .bad op x => reply s n (op % 128) tag x stRange 0 .none

/-- Whether start-up lets a request through: until the end of the unmute only reads, subscriptions, CLOSE and NOP (R443). -/
def startGate (s : State) (q : Req) : Bool :=
  decide (7 ≤ s.boot.step) || isFatal s ||
  (match q with
   | .read _ => true | .readBlock .. => true | .subscribe _ => true | .unsubscribe _ => true | .close => true | .nop => true
   | .bad .. => true | _ => false)

/-- Serves one request: counted, then served or turned away; members of no domain are examined as it completes. -/
def serveReq (s : State) (n : Sess) (tag : Nat) (q : Req) : State :=
  let s1 := bump s (sob n 9)
  examineNow (if startGate s q then serveBody s1 n tag q else reply s1 n (opOf q % 128) tag (reqObj q) stBusy 0 .none)

/-- Whether a session's request is still at work: it waits for a lock, or its commit is in validation. -/
def atWork (s : State) (n : Sess) : Bool :=
  (sess s n).waiting.isSome ||
  (match s.commit with | some p => commitState s == 1 && p.session == n && p.op != 0 | none => false)

/-- Serves a session's requests in order until one stays at work. -/
def drain : Nat → State → Sess → State
  | 0, s, _ => s
  | k + 1, s, n =>
    if atWork s n then s
    else match (sess s n).inbox with
      | [] => s
      | e :: r => drain k (serveReq (setSess s n { sess s n with inbox := r }) n e.1 e.2) n

/-- Serves what waits in a session. -/
def drainAll (s : State) (n : Sess) : State := drain (sess s n).inbox.length s n

/-- A request reaches an open session (R249). -/
def arrive (s : State) (n : Sess) (tag : Nat) (q : Req) : State :=
  if sessOpen s n && !(parsleyDead s) then
    (let x := sess s n
     drainAll (setSess s n { x with inbox := x.inbox ++ [(tag, q)] }) n)
  else s

/-- A write of one member by a session, with the number in its dialect. -/
def arriveWrite (s : State) (n : Sess) (tag : Nat) (o : Obj) (v : TVal) : State := arrive s n tag (.write (numberFor s n o) v)

/-- The object of a member of a numbered instance. -/
def member (a inst m : Nat) : Obj := ob a (inst % 0x10000) m

/-! ### The commands -/

def execRead (n : Sess) (tag : Nat) (o : Obj) (s : State) : Host.Outcome State Fault Refusal := .next (arrive s n tag (.read o))
def execWrite (n : Sess) (tag : Nat) (o : Obj) (v : TVal) (s : State) : Host.Outcome State Fault Refusal := .next (arrive s n tag (.write o v))
def execReadBlock (n : Sess) (tag : Nat) (o : Obj) (count : Nat) (byInstance : Bool) (s : State) : Host.Outcome State Fault Refusal :=
  .next (arrive s n tag (.readBlock o count byInstance))
def execWriteBlock (n : Sess) (tag : Nat) (o : Obj) (byInstance : Bool) (vs : List TVal) (s : State) : Host.Outcome State Fault Refusal :=
  .next (arrive s n tag (.writeBlock o byInstance vs))
def execTxnBegin (n : Sess) (tag : Nat) (s : State) : Host.Outcome State Fault Refusal := .next (arrive s n tag .txnBegin)
def execTxnEnd (n : Sess) (tag : Nat) (s : State) : Host.Outcome State Fault Refusal := .next (arrive s n tag .txnEnd)
def execCommit (n : Sess) (tag : Nat) (r : CommitReq) (s : State) : Host.Outcome State Fault Refusal := .next (arrive s n tag (.commit r))
def execRollback (n : Sess) (tag : Nat) (r : CommitReq) (s : State) : Host.Outcome State Fault Refusal := .next (arrive s n tag (.rollback r))
def execSubscribe (n : Sess) (tag : Nat) (r : SubReq) (s : State) : Host.Outcome State Fault Refusal := .next (arrive s n tag (.subscribe r))
def execUnsubscribe (n : Sess) (tag k : Nat) (s : State) : Host.Outcome State Fault Refusal := .next (arrive s n tag (.unsubscribe k))
def execClose (n : Sess) (tag : Nat) (s : State) : Host.Outcome State Fault Refusal := .next (arrive s n tag .close)
def execNop (n : Sess) (tag : Nat) (s : State) : Host.Outcome State Fault Refusal := .next (arrive s n tag .nop)

/-- REVERT of domain `inst`. -/
def execRevert (n : Sess) (tag inst : Nat) (v : TVal) (s : State) : Host.Outcome State Fault Refusal := .next (arriveWrite s n tag (member 2 inst 0x00B) v)
/-- REALIGN of domain `inst`. -/
def execRealign (n : Sess) (tag inst : Nat) (v : TVal) (s : State) : Host.Outcome State Fault Refusal := .next (arriveWrite s n tag (member 2 inst 0x025) v)
/-- STEP_ACTION of time base `inst`, instance 0x010 to 0x013, with ACCEPT. -/
def execStepAccept (n : Sess) (tag inst : Nat) (v : TVal) (s : State) : Host.Outcome State Fault Refusal := .next (arriveWrite s n tag (member 2 inst 7) v)
/-- STEP_ACTION with REJECT. -/
def execStepReject (n : Sess) (tag inst : Nat) (v : TVal) (s : State) : Host.Outcome State Fault Refusal := .next (arriveWrite s n tag (member 2 inst 7) v)
/-- RX_OPEN of network port instance `inst` (0x200). -/
def execRxOpen (n : Sess) (tag inst : Nat) (v : TVal) (s : State) : Host.Outcome State Fault Refusal := .next (arriveWrite s n tag (member 4 inst 0x080) v)
/-- TX_OPEN. -/
def execTxOpen (n : Sess) (tag inst : Nat) (v : TVal) (s : State) : Host.Outcome State Fault Refusal := .next (arriveWrite s n tag (member 4 inst 0x081) v)
/-- RESTART of host ring instance `inst`. -/
def execRestart (n : Sess) (tag inst : Nat) (v : TVal) (s : State) : Host.Outcome State Fault Refusal := .next (arriveWrite s n tag (member 4 inst 0x00E) v)
/-- CLOSE of session instance `inst` (0x100 + session). -/
def execCloseSession (n : Sess) (tag inst : Nat) (v : TVal) (s : State) : Host.Outcome State Fault Refusal := .next (arriveWrite s n tag (member 1 inst 0x00A) v)
/-- CANCEL. -/
def execCancel (n : Sess) (tag inst : Nat) (v : TVal) (s : State) : Host.Outcome State Fault Refusal := .next (arriveWrite s n tag (member 14 inst 0x012) v)
/-- DISCARD. -/
def execDiscard (n : Sess) (tag inst : Nat) (v : TVal) (s : State) : Host.Outcome State Fault Refusal := .next (arriveWrite s n tag (member 14 inst 0x011) v)
/-- RENUMBER. -/
def execRenumber (n : Sess) (tag inst : Nat) (v : TVal) (s : State) : Host.Outcome State Fault Refusal := .next (arriveWrite s n tag (member 14 inst 0x013) v)
/-- SESSION_STAGING. -/
def execSessionStagingWrite (n : Sess) (tag inst : Nat) (v : TVal) (s : State) : Host.Outcome State Fault Refusal :=
  .next (arriveWrite s n tag (member 14 inst 0x010) v)
/-- FACTORY. -/
def execFactory (n : Sess) (tag inst : Nat) (v : TVal) (s : State) : Host.Outcome State Fault Refusal := .next (arriveWrite s n tag (member 1 inst 6) v)
/-- NODE_LIVE of a row and source. -/
def execNodeLiveWrite (n : Sess) (tag row source : Nat) (v : TVal) (s : State) : Host.Outcome State Fault Refusal :=
  .next (arriveWrite s n tag (member 6 row (0x800 + source % 0x400)) v)
/-- IMAGE. -/
def execImageWrite (n : Sess) (tag inst : Nat) (v : TVal) (s : State) : Host.Outcome State Fault Refusal := .next (arriveWrite s n tag (member 9 inst 0) v)
/-- GATHER or SCATTER of a placement. -/
def execPlacementListWrite (n : Sess) (tag inst : Nat) (scatter : Bool) (v : TVal) (s : State) : Host.Outcome State Fault Refusal :=
  .next (arriveWrite s n tag (member 9 inst (if scatter then 0x00A else 9)) v)
/-- PATCH of an outlet, by its number. -/
def execPatchWrite (n : Sess) (tag : Nat) (o : Obj) (v : TVal) (s : State) : Host.Outcome State Fault Refusal := .next (arrive s n tag (.write o v))
/-- A CLEAR member, by its number. -/
def execClear (n : Sess) (tag : Nat) (o : Obj) (v : TVal) (s : State) : Host.Outcome State Fault Refusal := .next (arrive s n tag (.write o v))
/-- REQ_MODE. -/
def execReqMode (n : Sess) (tag inst : Nat) (v : TVal) (s : State) : Host.Outcome State Fault Refusal := .next (arriveWrite s n tag (member 1 inst 3) v)
/-- RB_GO of the capture ring. -/
def execRbGo (n : Sess) (tag inst : Nat) (v : TVal) (s : State) : Host.Outcome State Fault Refusal := .next (arriveWrite s n tag (member 5 inst 0x016) v)
/-- SETPOINT. -/
def execSetpoint (n : Sess) (tag inst : Nat) (v : TVal) (s : State) : Host.Outcome State Fault Refusal := .next (arriveWrite s n tag (member 10 inst 3) v)
/-- TRAIN. -/
def execTrain (n : Sess) (tag inst : Nat) (v : TVal) (s : State) : Host.Outcome State Fault Refusal := .next (arriveWrite s n tag (member 10 inst 6) v)
/-- RECOVER. -/
def execRecover (n : Sess) (tag inst : Nat) (v : TVal) (s : State) : Host.Outcome State Fault Refusal := .next (arriveWrite s n tag (member 13 inst 2) v)
/-- LOG_CLEAR. -/
def execLogClear (n : Sess) (tag inst : Nat) (v : TVal) (s : State) : Host.Outcome State Fault Refusal := .next (arriveWrite s n tag (member 13 inst 0x010) v)
/-- FULL_TEST. -/
def execFullTest (n : Sess) (tag inst : Nat) (v : TVal) (s : State) : Host.Outcome State Fault Refusal := .next (arriveWrite s n tag (member 13 inst 0x011) v)
/-- TEMP_CLEAR. -/
def execTempClear (n : Sess) (tag inst : Nat) (v : TVal) (s : State) : Host.Outcome State Fault Refusal := .next (arriveWrite s n tag (member 0 inst 0x032) v)
/-- FW_DATA. -/
def execFwData (n : Sess) (tag inst : Nat) (v : TVal) (s : State) : Host.Outcome State Fault Refusal := .next (arriveWrite s n tag (member 0 inst 0x021) v)
/-- FW_VERIFY. -/
def execFwVerify (n : Sess) (tag inst : Nat) (v : TVal) (s : State) : Host.Outcome State Fault Refusal := .next (arriveWrite s n tag (member 0 inst 0x022) v)
/-- HANDOVER. -/
def execHandover (n : Sess) (tag inst : Nat) (v : TVal) (s : State) : Host.Outcome State Fault Refusal := .next (arriveWrite s n tag (member 12 inst 7) v)

/-! ### What ends a wait -/

/-- TXN_TIMEOUT has passed since TXN_BEGIN: the transaction is discarded and its session hears of it (R239, R243). -/
def execTxnExpired (n : Sess) (s : State) : Host.Outcome State Fault Refusal :=
  .next (match (sess s n).txn with
    | some z => if sessOpen s n && (sess s n).waiting.isNone then
        examineNow (pushNotif (endTxn s n) n (.event 0x1003 (sob n 0) none (stampNow s) z.writes.length)) else s
    | none => s)

/-- The lock that a session waits for is free: it climbs on (R240). A holder that itself waits keeps its lock. -/
def execLockAcquired (n : Sess) (s : State) : Host.Outcome State Fault Refusal :=
  match (sess s n).waiting with
  | some w =>
    (match w.want with
     | b :: _ =>
       if (match lockHolder s n b with | some k => (sess s k).waiting.isSome | none => false) then .next s
       else
         let s1 : State := { s with ctl := { s.ctl with locks := s.ctl.locks.filter (fun l => l.inst != b) } }
         .next (examineNow (drainAll (climb (setSess s1 n { sess s1 n with waiting := none }) n w w.want) n))
     | [] => .next s)
  | none => .next s

/-- LOCK_WAIT has passed: the command gives its locks up and applies nothing (R240). -/
def execLockTimeout (n : Sess) (s : State) : Host.Outcome State Fault Refusal :=
  match (sess s n).waiting with
  | some w =>
    let s1 := bump (dropLocks (setSess s n { sess s n with waiting := none }) n) (ob 1 0x200 4)
    let s2 := if w.op = 0x06 then endTxn s1 n else s1
    .next (drainAll (examineNow (reply s2 n w.op w.tag w.obj stLock 0 .none)) n)
  | none => .next s

/-- COMMIT_VALIDATION_END: the reply, and the requests that waited behind it in the session (R208, R249). -/
def execCommitValidationEnd (s : State) : Host.Outcome State Fault Refusal :=
  match s.commit with
  | some p => .next (examineNow (drainAll (endValidation s) p.session))
  | none => .next s

/-! ### Submissions (R262) -/

/-- The request of a submission entry: its body stands in line up to 32 bytes, else at the buffer address. -/
def entryReq (s : State) (e : Octets) : Nat × Req :=
  let at_ := fun (i n : Nat) => ofLe (slice e i n)
  let len := at_ 8 4
  let op := at_ 0 1
  let body := if len ≤ 32 then slice e 16 len else if at_ 56 4 < len then [] else hostRead s (at_ 48 8) len
  (at_ 2 2, if body.length ≠ len ∨ slice e 60 4 ≠ [0, 0, 0, 0] then badReq op (at_ 4 4) body else reqOf false op (at_ 1 1) (at_ 4 4) (at_ 12 4) body)

/-- SUBMISSION_FETCH: the entry at SQ_HEAD, while the completion ring has room for its answer. -/
def execSubmissionFetch (i : Nat) (s : State) : Host.Outcome State Fault Refusal :=
  let x := cmdPair s i
  if i < 16 ∧ x.state = 2 ∧ x.enable ∧ x.sqHead ≠ x.sqTail ∧ x.fetched.length < cqFree x ∧ sessOpen s x.session ∧ !(parsleyDead s) then
    let e := hostRead s (x.sqBase + 64 * x.sqHead) 64
    let q := entryReq s e
    let y := { x with sqHead := (x.sqHead + 1) % x.entries, fetched := x.fetched ++ [(q.1, ofLe (slice e 48 8), ofLe (slice e 56 4))] }
    .next (arrive (setPair s i y) x.session q.1 q.2)
  else .next s

/-! ### Datagrams (R252 to R256) -/

/-- The fields of an ODP datagram. -/
structure Datagram where
  session  : Nat
  seq      : Nat
  tag      : Nat
  segment  : Nat
  segments : Nat
  body     : Octets
  mac      : Octets
  signed_  : Octets
  deriving DecidableEq, Repr

/-- A datagram from its octets; none for one that does not have the form of R252. -/
def datagramOf (b : Octets) : Option Datagram :=
  let n := b.length
  let at_ := fun (i k : Nat) => ofBe (slice b i k)
  let body := slice b 16 (n - 32)
  if n < 33 ∨ 1472 < n ∨ at_ 0 2 ≠ 0x4F44 ∨ at_ 2 1 ≠ 1 ∨ at_ 14 2 ≠ 0 then none
  else if at_ 12 2 = 0 ∨ 1024 < at_ 12 2 ∨ at_ 12 2 ≤ at_ 10 2 ∨ (at_ 10 2 + 1 < at_ 12 2 ∧ body.length ≠ 1440) then none
  else some { session := at_ 3 1, seq := at_ 4 4, tag := at_ 8 2, segment := at_ 10 2, segments := at_ 12 2, body := body,
              mac := slice b (n - 16) 16, signed_ := b.take (n - 16) }

/-- A datagram that the port discards (R253). -/
def discardDatagram (s : State) : State := { s with ctl := { s.ctl with discards := s.ctl.discards + 1 } }

/-- A HELLO datagram. -/
def readHello (s : State) (addr port : Nat) (d : Datagram) : State :=
  let b := d.body
  let g := fun (i : Nat) => (b[i]?).getD 0
  if d.segments = 1 ∧ d.mac = List.replicate 16 0 ∧ b.length = 36 ∧ slice b 0 2 = [0x40, 0] ∧ slice b 4 4 = [0, 0, 0, 0]
      ∧ slice b 8 8 = [0, 0, 0, 20, 0, 0, 0, 0] ∧ g 16 < 4 ∧ g 17 < 2 ∧ g 18 < 16 ∧ g 19 = 0 then
    takeHello s addr port (g 16) (g 17) (g 18) (slice b 20 16) d.tag
  else discardDatagram s

/-- An AUTH datagram of a pending slot; a wrong MAC counts as a wrong proof (log entry 51). -/
def takeAuth (s : State) (n : Sess) (addr port : Nat) (d : Datagram) : State :=
  let b := d.body
  let x := sess s n
  let ks := hmac (keySlot s x.slot).key (ascii "ODPS" ++ x.nc ++ x.ne)
  if d.segments = 1 ∧ b.length = 48 ∧ slice b 0 2 = [0x41, 0] ∧ slice b 4 4 = [0, 0, 0, 0] ∧ slice b 8 8 = [0, 0, 0, 32, 0, 0, 0, 0]
      ∧ x.seqHigh < d.seq then
    (let s1 := setSess s n { x with seqHigh := d.seq, seqSeen := d.seq :: x.seqSeen }
     outState s1 (execAuth n addr port d.tag (if (hmac ks d.signed_).take 16 = d.mac then slice b 16 32 else []) s1))
  else discardDatagram s

/-- Whether a datagram's counter is acceptable (R253). -/
def seqFits (x : Session) (q : Nat) : Bool := decide (x.seqHigh < q) || (decide (x.seqHigh ≤ q + 64) && !(x.seqSeen.contains q))

/-- Takes a datagram's counter. -/
def noteSeq (x : Session) (q : Nat) : Session :=
  let h := Nat.max x.seqHigh q
  { x with seqHigh := h, seqSeen := (q :: x.seqSeen).filter (fun k => decide (h ≤ k + 64)) }

/-- Messages of a session in reassembly or awaiting execution; a request under execution counts (log entry 219). -/
def messagesHeld (s : State) (n : Sess) : Nat := (sess s n).reasm.length + (sess s n).inbox.length + (if atWork s n then 1 else 0)

/-- Whether a request of a tag is already with the session. -/
def tagKnown (s : State) (n : Sess) (tag : Nat) : Bool :=
  (sess s n).inbox.any (fun e => e.1 == tag) ||
  (match (sess s n).waiting with | some w => w.tag == tag | none => false) ||
  (match s.commit with | some p => atWork s n && p.session == n && p.tag == tag | none => false)

/-- A whole message of a session: a repeated tag is answered by the kept reply, a new one is a request (R249, R254). One shorter than the header is
discarded and counted (log entry 217). -/
def takeMessage (s : State) (n : Sess) (b : Octets) (tag : Nat) : State :=
  let x := sess s n
  let at_ := fun (i k : Nat) => ofBe (slice b i k)
  if b.length < 16 then discardDatagram s
  else match x.kept.find? (fun r => r.tag == tag) with
  | some r => sendOdp s n tag (replyOctets r)
  | none =>
  if tagKnown s n tag then s
  else
    let body := b.drop 16
    let q := if at_ 8 4 = body.length ∧ at_ 2 2 = tag then reqOf true (at_ 0 1) (at_ 1 1) (at_ 4 4) (at_ 12 4) body
      else badReq (at_ 0 1) (at_ 4 4) body
    arrive s n tag q

/-- A segment of an open session. -/
def takeSegment (s : State) (n : Sess) (d : Datagram) : State :=
  let x := sess s n
  match x.reasm.find? (fun r => r.tag == d.tag) with
  | none =>
    if d.segments = 1 then (if 8 ≤ messagesHeld s n then s else takeMessage s n d.body d.tag)
    else if 8 ≤ messagesHeld s n then s
    else setSess s n { x with reasm := x.reasm ++ [{ tag := d.tag, total := d.segments, segs := tput [] [] d.segment d.body }] }
  | some r =>
    if r.total ≠ d.segments then s
    else
      let segs := tput r.segs [] d.segment d.body
      let rest := x.reasm.filter (fun y => y.tag != d.tag)
      if segs.length = r.total then takeMessage (setSess s n { x with reasm := rest }) n (segs.flatMap (·.2)) d.tag
      else setSess s n { x with reasm := rest ++ [{ r with segs := segs }] }

/-- ODP_DATAGRAM_RECEIVED on UDP port 41960 of the management port. -/
def execOdpDatagramReceived (addr port : Nat) (b : Octets) (s : State) : Host.Outcome State Fault Refusal :=
  if !(ready0 s) || parsleyDead s then .next s
  else match datagramOf b with
  | none => .next (discardDatagram s)
  | some d =>
    let n := d.session
    let x := sess s n
    if n = 0xFF then .next (readHello s addr port d)
    else if 32 ≤ n ∨ x.addr ≠ addr ∨ x.port ≠ port then .next (discardDatagram s)
    else if x.authWait then .next (takeAuth s n addr port d)
    else if sessOpen s n ∧ numF s (sob n 1) = 1 ∧ (hmac x.ks d.signed_).take 16 = d.mac ∧ seqFits x d.seq then
      .next (takeSegment (setSess s n (noteSeq x d.seq)) n d)
    else .next (discardDatagram s)

end Sys2Proof.Machine
end

