-- ==== Sys2Proof/Machine/Dispatch.lean ====
section
/-!
DEFINITION. Machine/Dispatch.lean: one arm per command, each a direct call of its meaning.
-/
namespace Sys2Proof.Machine

/-- The effect of a command on everything but the queue. -/
def exec (i : Instr) (s : State) : Host.Outcome State Fault Refusal :=
  match i with
  | .coldStart => Sys2Proof.Machine.execColdStart s
  | .externalWarmReset sramKept => Sys2Proof.Machine.execExternalWarmReset sramKept s
  | .supplyMonitorTrip rail millivolts nanoseconds sramKept => Sys2Proof.Machine.execSupplyMonitorTrip rail millivolts nanoseconds sramKept s
  | .resetNRelease testmode side bankMillivolts => Sys2Proof.Machine.execResetNRelease testmode side bankMillivolts s
  | .fuseLoadDone => Sys2Proof.Machine.execFuseLoadDone s
  | .firmwareLoaded setsReady => Sys2Proof.Machine.execFirmwareLoaded setsReady s
  | .bootCheckTimeout => Sys2Proof.Machine.execBootCheckTimeout s
  | .firmwareRetry => Sys2Proof.Machine.execFirmwareRetry s
  | .dramTrainingStepEnd procedureDone => Sys2Proof.Machine.execDramTrainingStepEnd procedureDone s
  | .dramTrainingDone results => Sys2Proof.Machine.execDramTrainingDone results s
  | .unmuteStart => Sys2Proof.Machine.execUnmuteStart s
  | .startUpDone => Sys2Proof.Machine.execStartUpDone s
  | .frameTick d cycle peerLow => Sys2Proof.Machine.execFrameTick d cycle peerLow s
  | .shadowCopyEnd d => Sys2Proof.Machine.execShadowCopyEnd d s
  | .phaseWindowStart d ph words late => Sys2Proof.Machine.execPhaseWindowStart d ph words late s
  | .phaseCutoff d ph late => Sys2Proof.Machine.execPhaseCutoff d ph late s
  | .budgetCounterExhausted entry => Sys2Proof.Machine.execBudgetCounterExhausted entry s
  | .laneBudgetStop tile lane ph => Sys2Proof.Machine.execLaneBudgetStop tile lane ph s
  | .drainComplete unit => Sys2Proof.Machine.execDrainComplete unit s
  | .bridgeRatioSettled channel ratio => Sys2Proof.Machine.execBridgeRatioSettled channel ratio s
  | .domainFreeRunTimeout d => Sys2Proof.Machine.execDomainFreeRunTimeout d s
  | .dpllLocked d => Sys2Proof.Machine.execDpllLocked d s
  | .dpllSlewDone d => Sys2Proof.Machine.execDpllSlewDone d s
  | .referenceEdgeMissing miss => Sys2Proof.Machine.execReferenceEdgeMissing miss s
  | .referenceGlitch input => Sys2Proof.Machine.execReferenceGlitch input s
  | .glitchHoldEnd input => Sys2Proof.Machine.execGlitchHoldEnd input s
  | .rateGateEnd input rate => Sys2Proof.Machine.execRateGateEnd input rate s
  | .revert n tag inst v => Sys2Proof.Machine.execRevert n tag inst v s
  | .realign n tag inst v => Sys2Proof.Machine.execRealign n tag inst v s
  | .ptpAnnounceReceived port a cycle => Sys2Proof.Machine.execPtpAnnounceReceived port a cycle s
  | .ptpSyncReceived port m cycle => Sys2Proof.Machine.execPtpSyncReceived port m cycle s
  | .ptpFollowUpReceived port m => Sys2Proof.Machine.execPtpFollowUpReceived port m s
  | .ptpDelayRespReceived port m => Sys2Proof.Machine.execPtpDelayRespReceived port m s
  | .delayReqSend tb cycle => Sys2Proof.Machine.execDelayReqSend tb cycle s
  | .ptpMasterLost tb => Sys2Proof.Machine.execPtpMasterLost tb s
  | .holdLimitExpired tb => Sys2Proof.Machine.execHoldLimitExpired tb s
  | .stepAccept n tag inst v => Sys2Proof.Machine.execStepAccept n tag inst v s
  | .stepReject n tag inst v => Sys2Proof.Machine.execStepReject n tag inst v s
  | .rtpPacketReceived port p cycle => Sys2Proof.Machine.execRtpPacketReceived port p cycle s
  | .legLost context leg => Sys2Proof.Machine.execLegLost context leg s
  | .rateFitUpdate context rate => Sys2Proof.Machine.execRateFitUpdate context rate s
  | .igmpQueryReceived port version group => Sys2Proof.Machine.execIgmpQueryReceived port version group s
  | .arpRequest port sender target => Sys2Proof.Machine.execArpRequest port sender target s
  | .icmpEchoRequest port source dest payload => Sys2Proof.Machine.execIcmpEchoRequest port source dest payload s
  | .networkLinkChange port up => Sys2Proof.Machine.execNetworkLinkChange port up s
  | .rxOpen n tag inst v => Sys2Proof.Machine.execRxOpen n tag inst v s
  | .txOpen n tag inst v => Sys2Proof.Machine.execTxOpen n tag inst v s
  | .nonaudioCleared unit pair => Sys2Proof.Machine.execNonaudioCleared unit pair s
  | .mutingWindowEnd unit => Sys2Proof.Machine.execMutingWindowEnd unit s
  | .bankSupplyFault bank => Sys2Proof.Machine.execBankSupplyFault bank s
  | .submissionDoorbell ring word stores => Sys2Proof.Machine.execSubmissionDoorbell ring word stores s
  | .completionDoorbell ring word => Sys2Proof.Machine.execCompletionDoorbell ring word s
  | .recordDoorbell ring word => Sys2Proof.Machine.execRecordDoorbell ring word s
  | .playbackDoorbell ring word stores => Sys2Proof.Machine.execPlaybackDoorbell ring word stores s
  | .submissionFetch pair => Sys2Proof.Machine.execSubmissionFetch pair s
  | .commandPairEnable pair => Sys2Proof.Machine.execCommandPairEnable pair s
  | .commandPairDisable pair => Sys2Proof.Machine.execCommandPairDisable pair s
  | .pcieFunctionReset => Sys2Proof.Machine.execPcieFunctionReset s
  | .pcieLinkDown => Sys2Proof.Machine.execPcieLinkDown s
  | .busMasterDisable => Sys2Proof.Machine.execBusMasterDisable s
  | .ringDmaError ring => Sys2Proof.Machine.execRingDmaError ring s
  | .restart n tag inst v => Sys2Proof.Machine.execRestart n tag inst v s
  | .otpKeyProgram slot => Sys2Proof.Machine.execOtpKeyProgram slot s
  | .otpProgramDone slot => Sys2Proof.Machine.execOtpProgramDone slot s
  | .otpKeyRevoke slot => Sys2Proof.Machine.execOtpKeyRevoke slot s
  | .bar0RegisterWrite offset bytes value => Sys2Proof.Machine.execBar0RegisterWrite offset bytes value s
  | .odpDatagramReceived addr port data => Sys2Proof.Machine.execOdpDatagramReceived addr port data s
  | .odpSessionIdleTimeout n => Sys2Proof.Machine.execOdpSessionIdleTimeout n s
  | .odpReassemblyTimeout n tag => Sys2Proof.Machine.execOdpReassemblyTimeout n tag s
  | .hello addr port privilege dialect slot nc => Sys2Proof.Machine.execHello addr port privilege dialect slot nc s
  | .auth n addr port tag proof => Sys2Proof.Machine.execAuth n addr port tag proof s
  | .authPendingTimeout n => Sys2Proof.Machine.execAuthPendingTimeout n s
  | .authLockoutEnd addr => Sys2Proof.Machine.execAuthLockoutEnd addr s
  | .read n tag obj => Sys2Proof.Machine.execRead n tag obj s
  | .write n tag obj v => Sys2Proof.Machine.execWrite n tag obj v s
  | .readBlock n tag obj count byInstance => Sys2Proof.Machine.execReadBlock n tag obj count byInstance s
  | .writeBlock n tag obj byInstance vs => Sys2Proof.Machine.execWriteBlock n tag obj byInstance vs s
  | .txnBegin n tag => Sys2Proof.Machine.execTxnBegin n tag s
  | .txnEnd n tag => Sys2Proof.Machine.execTxnEnd n tag s
  | .txnExpired n => Sys2Proof.Machine.execTxnExpired n s
  | .lockAcquired n => Sys2Proof.Machine.execLockAcquired n s
  | .lockTimeout n => Sys2Proof.Machine.execLockTimeout n s
  | .commit n tag r => Sys2Proof.Machine.execCommit n tag r s
  | .rollback n tag r => Sys2Proof.Machine.execRollback n tag r s
  | .subscribe n tag r => Sys2Proof.Machine.execSubscribe n tag r s
  | .unsubscribe n tag sub => Sys2Proof.Machine.execUnsubscribe n tag sub s
  | .close n tag => Sys2Proof.Machine.execClose n tag s
  | .nop n tag => Sys2Proof.Machine.execNop n tag s
  | .closeSession n tag inst v => Sys2Proof.Machine.execCloseSession n tag inst v s
  | .subscriptionIntervalEnd n sub obj => Sys2Proof.Machine.execSubscriptionIntervalEnd n sub obj s
  | .notifySend n => Sys2Proof.Machine.execNotifySend n s
  | .commitValidationEnd => Sys2Proof.Machine.execCommitValidationEnd s
  | .cancel n tag inst v => Sys2Proof.Machine.execCancel n tag inst v s
  | .discard n tag inst v => Sys2Proof.Machine.execDiscard n tag inst v s
  | .renumber n tag inst v => Sys2Proof.Machine.execRenumber n tag inst v s
  | .renumberEnd => Sys2Proof.Machine.execRenumberEnd s
  | .sessionStagingWrite n tag inst v => Sys2Proof.Machine.execSessionStagingWrite n tag inst v s
  | .factory n tag inst v => Sys2Proof.Machine.execFactory n tag inst v s
  | .journalWriteDone => Sys2Proof.Machine.execJournalWriteDone s
  | .nodeLiveWrite n tag row source v => Sys2Proof.Machine.execNodeLiveWrite n tag row source v s
  | .imageWrite n tag inst v => Sys2Proof.Machine.execImageWrite n tag inst v s
  | .placementListWrite n tag inst scatter v => Sys2Proof.Machine.execPlacementListWrite n tag inst scatter v s
  | .patchWrite n tag obj v => Sys2Proof.Machine.execPatchWrite n tag obj v s
  | .clear n tag obj v => Sys2Proof.Machine.execClear n tag obj v s
  | .reqMode n tag inst v => Sys2Proof.Machine.execReqMode n tag inst v s
  | .modeValidationEnd => Sys2Proof.Machine.execModeValidationEnd s
  | .modeFadeOutEnd => Sys2Proof.Machine.execModeFadeOutEnd s
  | .modeReconfigureEnd => Sys2Proof.Machine.execModeReconfigureEnd s
  | .modeFadeInStart => Sys2Proof.Machine.execModeFadeInStart s
  | .modeFadeInEnd => Sys2Proof.Machine.execModeFadeInEnd s
  | .rbGo n tag inst v => Sys2Proof.Machine.execRbGo n tag inst v s
  | .coreCrossfadeEnd unit => Sys2Proof.Machine.execCoreCrossfadeEnd unit s
  | .inputCrossfadeEnd strip => Sys2Proof.Machine.execInputCrossfadeEnd strip s
  | .delayDipFadeEnd unit => Sys2Proof.Machine.execDelayDipFadeEnd unit s
  | .patchDipFadeEnd outlet => Sys2Proof.Machine.execPatchDipFadeEnd outlet s
  | .nodeRampEnd row source => Sys2Proof.Machine.execNodeRampEnd row source s
  | .firCrossfadeEnd proc => Sys2Proof.Machine.execFirCrossfadeEnd proc s
  | .limOnCrossfadeEnd proc => Sys2Proof.Machine.execLimOnCrossfadeEnd proc s
  | .gateHoldExpired unit => Sys2Proof.Machine.execGateHoldExpired unit s
  | .programStart lane placement => Sys2Proof.Machine.execProgramStart lane placement s
  | .nopBundle lane => Sys2Proof.Machine.execNopBundle lane s
  | .halt lane => Sys2Proof.Machine.execHalt lane s
  | .lset lane l count => Sys2Proof.Machine.execLset lane l count s
  | .loop lane l len => Sys2Proof.Machine.execLoop lane l len s
  | .bld lane l disp => Sys2Proof.Machine.execBld lane l disp s
  | .mac lane kind an da db => Sys2Proof.Machine.execMac lane kind an da db s
  | .msu lane kind an da db => Sys2Proof.Machine.execMsu lane kind an da db s
  | .mpy lane kind an da db => Sys2Proof.Machine.execMpy lane kind an da db s
  | .ext lane dd an fmt rnd sh => Sys2Proof.Machine.execExt lane dd an fmt rnd sh s
  | .acc lane an da fmt => Sys2Proof.Machine.execAcc lane an da fmt s
  | .adda lane an am => Sys2Proof.Machine.execAdda lane an am s
  | .suba lane an am => Sys2Proof.Machine.execSuba lane an am s
  | .sha lane an imm => Sys2Proof.Machine.execSha lane an imm s
  | .clr lane an => Sys2Proof.Machine.execClr lane an s
  | .add lane dd da db => Sys2Proof.Machine.execAdd lane dd da db s
  | .sub lane dd da db => Sys2Proof.Machine.execSub lane dd da db s
  | .asr lane dd da imm => Sys2Proof.Machine.execAsr lane dd da imm s
  | .asl lane dd da imm => Sys2Proof.Machine.execAsl lane dd da imm s
  | .abs lane dd da => Sys2Proof.Machine.execAbs lane dd da s
  | .neg lane dd da => Sys2Proof.Machine.execNeg lane dd da s
  | .mov lane dd da => Sys2Proof.Machine.execMov lane dd da s
  | .mvi lane dd imm => Sys2Proof.Machine.execMvi lane dd imm s
  | .mvs lane sh da => Sys2Proof.Machine.execMvs lane sh da s
  | .mvr lane dd sh => Sys2Proof.Machine.execMvr lane dd sh s
  | .max lane da => Sys2Proof.Machine.execMax lane da s
  | .min lane da => Sys2Proof.Machine.execMin lane da s
  | .mxclr lane dir => Sys2Proof.Machine.execMxclr lane dir s
  | .and lane dd da db => Sys2Proof.Machine.execAnd lane dd da db s
  | .or lane dd da db => Sys2Proof.Machine.execOr lane dd da db s
  | .xor lane dd da db => Sys2Proof.Machine.execXor lane dd da db s
  | .ld lane slot dd xn m => Sys2Proof.Machine.execLd lane slot dd xn m s
  | .st lane da xn m => Sys2Proof.Machine.execSt lane da xn m s
  | .xmod lane slot xn m => Sys2Proof.Machine.execXmod lane slot xn m s
  | .crossbarRequest master id addr beats d data => Sys2Proof.Machine.execCrossbarRequest master id addr beats d data s
  | .chunkEndGrant target => Sys2Proof.Machine.execChunkEndGrant target s
  | .emergencyRequest target requester addr beats done data => Sys2Proof.Machine.execEmergencyRequest target requester addr beats done data s
  | .priorityPreemption target master done => Sys2Proof.Machine.execPriorityPreemption target master done s
  | .readDataReturn master id => Sys2Proof.Machine.execReadDataReturn master id s
  | .flagAliasWrite master set addr data => Sys2Proof.Machine.execFlagAliasWrite master set addr data s
  | .dramRefresh ch => Sys2Proof.Machine.execDramRefresh ch s
  | .dramSingleBitError ch offset detail => Sys2Proof.Machine.execDramSingleBitError ch offset detail s
  | .dramUncorrectable ch offset detail => Sys2Proof.Machine.execDramUncorrectable ch offset detail s
  | .dramWriteBack ch => Sys2Proof.Machine.execDramWriteBack ch s
  | .dramParityAlert ch => Sys2Proof.Machine.execDramParityAlert ch s
  | .dramAlertRelease ch failing => Sys2Proof.Machine.execDramAlertRelease ch failing s
  | .commandBusTestEnd ch pass => Sys2Proof.Machine.execCommandBusTestEnd ch pass s
  | .dramRowTestEnd ch pass => Sys2Proof.Machine.execDramRowTestEnd ch pass s
  | .setpoint n tag inst v => Sys2Proof.Machine.execSetpoint n tag inst v s
  | .train n tag inst v => Sys2Proof.Machine.execTrain n tag inst v s
  | .laneResidueError tile lane => Sys2Proof.Machine.execLaneResidueError tile lane s
  | .knownAnswerTestEnd tile lane pass => Sys2Proof.Machine.execKnownAnswerTestEnd tile lane pass s
  | .sparePipelineTest tile cluster pass => Sys2Proof.Machine.execSparePipelineTest tile cluster pass s
  | .crosspointResidueError mac row => Sys2Proof.Machine.execCrosspointResidueError mac row s
  | .crosspointTestEnd mac pass => Sys2Proof.Machine.execCrosspointTestEnd mac pass s
  | .sramEccError region detail double => Sys2Proof.Machine.execSramEccError region detail double s
  | .sramTestEnd region fail owner => Sys2Proof.Machine.execSramTestEnd region fail owner s
  | .lockstepMismatch pc => Sys2Proof.Machine.execLockstepMismatch pc s
  | .lockstepResetTimeout => Sys2Proof.Machine.execLockstepResetTimeout s
  | .recover n tag inst v => Sys2Proof.Machine.execRecover n tag inst v s
  | .logClear n tag inst v => Sys2Proof.Machine.execLogClear n tag inst v s
  | .fullTest n tag inst v => Sys2Proof.Machine.execFullTest n tag inst v s
  | .fullTestDone pass => Sys2Proof.Machine.execFullTestDone pass s
  | .jtagInstructionLoad opcode => Sys2Proof.Machine.execJtagInstructionLoad opcode s
  | .dieTempUpdate tenths => Sys2Proof.Machine.execDieTempUpdate tenths s
  | .tempClear n tag inst v => Sys2Proof.Machine.execTempClear n tag inst v s
  | .fwData n tag inst v => Sys2Proof.Machine.execFwData n tag inst v s
  | .fwProgramDone => Sys2Proof.Machine.execFwProgramDone s
  | .fwVerify n tag inst v => Sys2Proof.Machine.execFwVerify n tag inst v s
  | .fwVerifyDone => Sys2Proof.Machine.execFwVerifyDone s
  | .rsmLinkUp peer => Sys2Proof.Machine.execRsmLinkUp peer s
  | .joinWaitExpired => Sys2Proof.Machine.execJoinWaitExpired s
  | .rsmFrameError lane => Sys2Proof.Machine.execRsmFrameError lane s
  | .rsmLaneLockLoss lane => Sys2Proof.Machine.execRsmLaneLockLoss lane s
  | .linkTestEnd errors => Sys2Proof.Machine.execLinkTestEnd errors s
  | .configRecordReceived r => Sys2Proof.Machine.execConfigRecordReceived r s
  | .exportItemReceived e => Sys2Proof.Machine.execExportItemReceived e s
  | .exportAckReceived period => Sys2Proof.Machine.execExportAckReceived period s
  | .fillingEnd => Sys2Proof.Machine.execFillingEnd s
  | .leaseExpired => Sys2Proof.Machine.execLeaseExpired s
  | .standbyTakeover => Sys2Proof.Machine.execStandbyTakeover s
  | .orphanTakeToken => Sys2Proof.Machine.execOrphanTakeToken s
  | .releaseNoticeReceived => Sys2Proof.Machine.execReleaseNoticeReceived s
  | .handover n tag inst v => Sys2Proof.Machine.execHandover n tag inst v s
  | .referenceFirstEdge input => Sys2Proof.Machine.execReferenceFirstEdge input s
  | .arpReplyReceived port sender mac => Sys2Proof.Machine.execArpReplyReceived port sender mac s
  | .frameDiscarded port badFcs => Sys2Proof.Machine.execFrameDiscarded port badFcs s

end Sys2Proof.Machine
end

