-- ==== Sys2Proof/Machine/Balls.lean ====
section
/-!
DEFINITION. Machine/Balls.lean: the ball map (R447 to R451), the supply rails (R452), the boundary register (R465), and what binds the board:
power-up, levels, timing at the balls, power, heat and package (R435, R436, R453 to R460, R462 to R464).
-/
namespace Sys2Proof.Machine

/-! ### Balls -/

/-- The supply rails of R452, the four banks of TDM ports and the two DRAM channels by number. -/
inductive Rail where
  | core
  | sram
  | aon
  | tdm (bank : Nat)
  | io18
  | ddr (ch : Nat)
  | sds
  | sdsHigh
  deriving DecidableEq, Repr

/-- Nominal voltages of a rail in millivolts; a bank of TDM ports runs at either level (R452). -/
def Rail.nominal : Rail → List Nat
  | .core => [750]
  | .sram => [800]
  | .aon => [800]
  | .tdm _ => [1800, 3300]
  | .io18 => [1800]
  | .ddr _ => [1200]
  | .sds => [900]
  | .sdsHigh => [1800]

/-- Tolerance of a rail in percent (R452). -/
def Rail.tolerance : Rail → Nat
  | .core => 3
  | .sram => 3
  | .sds => 3
  | .aon => 5
  | .tdm _ => 5
  | .io18 => 5
  | .ddr _ => 5
  | .sdsHigh => 5

/-- Whether a voltage in millivolts lies within a rail's tolerance. -/
def Rail.holds (x : Rail) (mv : Nat) : Bool :=
  x.nominal.any (fun n => decide (n * (100 - x.tolerance) ≤ 100 * mv) && decide (100 * mv ≤ n * (100 + x.tolerance)))

/-- The signals of the part. Numbers count as the rule that places the signal does: TDM port and BCLK, FSYNC, SDI, SDO; network port and TX_P,
TX_N, RX_P, RX_N; xSPI CLK, CS_N, DQS, RESET_N, DQ[0] to DQ[7]; lane and P, N; TX_P, TX_N, RX_P, RX_N, MDC, MDIO of the management port; item
of the list of R450. -/
inductive Signal where
  | tdm (port k : Nat)
  | eth (port k : Nat)
  | xspi (k : Nat)
  | xtal (k : Nat)
  | wclkIn (k : Nat)
  | ref10m
  | wclkOut (k : Nat)
  | frameOut (d : Nat)
  | resetN
  | aonResetN
  | testmode (k : Nat)
  | rsmSide
  | outownN
  | peerOwnN
  | jtag (k : Nat)
  | thermD (k : Nat)
  | rsmTx (lane k : Nat)
  | rsmRx (lane k : Nat)
  | sdsRefclk (k : Nat)
  | ddr (ch item : Nat)
  | pcieTx (lane k : Nat)
  | pcieRx (lane k : Nat)
  | pcieRefclk (k : Nat)
  | perstN
  | mgt (k : Nat)
  | sdsRcal
  deriving DecidableEq, Repr

/-- What a ball is. -/
inductive Ball where
  | signal (x : Signal)
  | rail (x : Rail)
  | vss
  | reserved
  deriving DecidableEq, Repr

/-- The letters of rows 1 to 44 (R447). -/
def rowNames : List String :=
  ["A", "B", "C", "D", "E", "F", "G", "H", "J", "K", "L", "M", "N", "P", "T", "U", "V", "W", "Y", "AA", "AB", "AC"]
  ++ ["AD", "AE", "AF", "AG", "AH", "AJ", "AK", "AL", "AM", "AN", "AP", "AT", "AU", "AV", "AW", "AY", "BA", "BB", "BC", "BD", "BE", "BF"]

/-- The index of a row letter; 0 for none. -/
def rowIndex (n : String) : Nat := match rowNames.idxOf? n with | some k => k + 1 | none => 0

/-- The ring index of a ball (R447). -/
def ringIndex (r c : Nat) : Nat := min (min r c) (min (45 - r) (45 - c))

/-- Item `i` of the list of a DRAM channel: items 44 and 77 are ground (R450). -/
def ddrBall (ch i : Nat) : Ball := if i = 44 ∨ i = 77 then .vss else .signal (.ddr ch i)

/-- Lane `n` of a serial link: P, N and ground in three columns. -/
def laneBall (f : Nat → Nat → Signal) (c : Nat) : Ball :=
  if (c - 1) % 3 = 2 then .vss else .signal (f ((c - 1) / 3) ((c - 1) % 3))

/-- The western outer band, columns 1 to 4 (R449). -/
def westBall (r c : Nat) : Ball :=
  if r ≤ 28 then .signal (.tdm (r - 5) (c - 1))
  else if r ≤ 36 then (if r % 2 = 1 then .signal (.eth ((r - 29) / 2) (c - 1)) else .vss)
  else if r ≤ 39 then .signal (.xspi (4 * (r - 37) + (c - 1)))
  else .reserved

/-- The eastern outer band, `k` columns in from column 44 (R449). -/
def eastBall (r k : Nat) : Ball :=
  let pick := fun (l : List Ball) => (l[k]?).getD .vss
  if r ≤ 28 then .signal (.tdm (r + 19) k)
  else match r with
    | 29 => pick [.signal (.xtal 0), .signal (.xtal 1)]
    | 30 => pick [.signal (.wclkIn 0), .signal (.wclkIn 1), .signal .ref10m]
    | 31 => pick [.signal (.wclkOut 0), .signal (.wclkOut 1)]
    | 32 => .signal (.frameOut k)
    | 33 => pick [.signal .resetN, .signal .aonResetN, .signal (.testmode 0), .signal (.testmode 1)]
    | 34 => pick [.signal .rsmSide, .signal .outownN, .signal .peerOwnN]
    | 35 => .signal (.jtag k)
    | 36 => pick [.signal (.jtag 4), .signal (.thermD 0), .signal (.thermD 1)]
    | 37 => .vss
    | 38 => pick [.vss, .reserved, .reserved, .reserved]
    | _ => .reserved

/-- The northern outer band, rows 1 to 4 (R449, R450). -/
def northBall (r c : Nat) : Ball :=
  if 13 ≤ c then ddrBall 0 (4 * (c - 13) + (r - 1))
  else if r = 1 then laneBall .rsmTx c
  else if r = 3 then laneBall .rsmRx c
  else if r = 4 ∧ 11 ≤ c then .signal (.sdsRefclk (c - 11))
  else .vss

/-- The southern outer band, rows 41 to 44 (R449, R450). -/
def southBall (r c : Nat) : Ball :=
  if 13 ≤ c then ddrBall 1 (4 * (c - 13) + (44 - r))
  else if r = 44 then laneBall .pcieTx c
  else if r = 42 then laneBall .pcieRx c
  else if r = 43 then .vss
  else if c ≤ 2 then .signal (.pcieRefclk (c - 1))
  else if c = 3 then .signal .perstN
  else if c ≤ 9 then .signal (.mgt (c - 4))
  else if c = 10 then .signal .sdsRcal
  else .vss

/-- The rail at position `i` of a segment of the supply band (R451). -/
def railAt : List (Rail × Nat) → Nat → Ball
  | [], _ => .vss
  | (x, n) :: l, i => if i < n then .rail x else railAt l (i - n)

/-- The supply positions of the supply band, where r + c is odd (R451). -/
def supplyBall (r c : Nat) : Ball :=
  if r ≤ 8 then railAt [(.sds, 12), (.sdsHigh, 6), (.ddr 0, 40), (.sram, 14)] (2 * (c - 5) + (r - 5) / 2)
  else if 37 ≤ r then railAt [(.sds, 12), (.sdsHigh, 6), (.ddr 1, 40), (.sram, 14)] (2 * (c - 5) + (40 - r) / 2)
  else if c ≤ 8 then railAt [(.tdm 0, 14), (.tdm 1, 14), (.sram, 16), (.io18, 12)] (2 * (r - 9) + (c - 5) / 2)
  else railAt [(.tdm 2, 14), (.tdm 3, 14), (.sram, 16), (.io18, 8), (.aon, 4)] (2 * (r - 9) + (40 - c) / 2)

/-- The ball at row index `r` and column `c`, each 1 to 44 (R448). -/
def ballAt (r c : Nat) : Ball :=
  let odd := decide ((r + c) % 2 = 1)
  if ringIndex r c ≤ 4 then
    (if r ≤ 4 then northBall r c else if 41 ≤ r then southBall r c else if c ≤ 4 then westBall r c else eastBall r (44 - c))
  else if ringIndex r c ≤ 8 then (if odd then supplyBall r c else .vss)
  else if odd then .vss else .rail .core

/-- All balls. -/
def allBalls : List Ball := (List.range 44).flatMap (fun r => (List.range 44).map (fun c => ballAt (r + 1) (c + 1)))

/-! ### The boundary register (R465) -/

/-- A cell of the boundary register: what it captures or drives. -/
inductive ScanCell where
  | input (x : Signal)
  | data (x : Signal)
  | enable (x : Signal)
  deriving DecidableEq, Repr

/-- The cells of an input, of an output, and of a bidirectional ball, in their order. -/
def scanIn (x : Signal) : List ScanCell := [.input x]
def scanOut (x : Signal) : List ScanCell := [.data x, .enable x]
def scanBoth (x : Signal) : List ScanCell := [.input x, .data x, .enable x]

/-- The cells of a TDM port: BCLK, FSYNC and SDO are outputs. -/
def scanTdm (p : Nat) : List ScanCell :=
  (List.range 4).flatMap (fun k => if k = 2 then scanIn (.tdm p k) else scanOut (.tdm p k))

/-- The cells of an xSPI ball: CLK, CS_N and RESET_N are outputs, DQS and DQ are bidirectional. -/
def scanXspi (k : Nat) : List ScanCell := if k = 0 ∨ k = 1 ∨ k = 3 then scanOut (.xspi k) else scanBoth (.xspi k)

/-- The cells of an item of a DRAM channel; a differential pair has those of its first ball, and ZQ has none. -/
def scanDdr (ch i : Nat) : List ScanCell :=
  let byte := fun (j : Nat) => if j = 9 then [] else scanBoth (.ddr ch i)
  if i < 40 then byte (i % 10)
  else if i < 44 then (if i % 2 = 0 then scanOut (.ddr ch i) else [])
  else if i = 44 ∨ i = 76 ∨ i = 77 then []
  else if i = 74 then scanIn (.ddr ch i)
  else if i < 77 then scanOut (.ddr ch i)
  else byte ((i - 78) % 10)

/-- The cells of the eastern control block, row by row. -/
def scanControl : List ScanCell :=
  [.wclkIn 0, .wclkIn 1, .ref10m].flatMap scanIn
  ++ [.wclkOut 0, .wclkOut 1, .frameOut 0, .frameOut 1, .frameOut 2, .frameOut 3].flatMap scanOut
  ++ [.resetN, .aonResetN, .testmode 0, .testmode 1, .rsmSide].flatMap scanIn
  ++ scanOut .outownN ++ scanIn .peerOwnN

/-- The boundary register from TDI to TDO. -/
def boundaryRegister : List ScanCell :=
  (List.range 24).flatMap scanTdm ++ (List.range 12).flatMap scanXspi ++ (List.range 128).flatMap (scanDdr 0)
  ++ (List.range 24).flatMap (fun p => scanTdm (24 + p)) ++ scanControl ++ (List.range 128).flatMap (scanDdr 1)
  ++ scanIn .perstN ++ scanOut (.mgt 4) ++ scanBoth (.mgt 5)

/-! ### Power-up (R435, R436) -/

/-- The groups of rails in the order in which they rise. -/
def railGroups : List (List Rail) :=
  [[.aon], [.core, .sram, .sds], [.io18, .sdsHigh, .tdm 0, .tdm 1, .tdm 2, .tdm 3, .ddr 0, .ddr 1]]

/-- Whether a rail at `mv` millivolts, with nominal voltage `n`, has reached 90 percent of it. -/
def risen (mv n : Nat) : Bool := decide (9 * n ≤ 10 * mv)

/-- Whether group `g` may start to rise, `mv` being the voltages of the rails and `n` the nominal ones that the board has chosen. -/
def mayRise (mv n : Rail → Nat) (g : Nat) : Bool := (railGroups.take g).flatten.all (fun x => risen (mv x) (n x))

/-- Whether a ramp of `us` microseconds has an allowed length. -/
def rampAllowed (us : Nat) : Bool := decide (100 ≤ us) && decide (us ≤ 10000)

/-- Whether AON_RESET_N may rise, VDD_AON having been within tolerance for `us` microseconds. -/
def mayReleaseAon (us : Nat) : Bool := decide (1000 ≤ us)

/-- Whether RESET_N may rise: every rail within tolerance for `rails` microseconds, XTAL_IN stable for `xtal`. -/
def mayRelease (rails xtal : Nat) : Bool := decide (10000 ≤ rails) && decide (2000 ≤ xtal)

/-- Maximum current of a rail in milliamperes (R452). -/
def Rail.maxCurrent : Rail → Nat
  | .core => 48000
  | .sram => 2200
  | .aon => 20
  | .tdm _ => 40
  | .io18 => 80
  | .ddr _ => 800
  | .sds => 1200
  | .sdsHigh => 300

/-- Trip level of the supply monitor in millivolts, of the rails that it watches (R453). -/
def Rail.trip : Rail → Option Nat
  | .core => some 700
  | .sram => some 750
  | _ => none

/-- Absolute maximum of a rail in millivolts; the minimum is -300 of each (R462). -/
def Rail.absolute : Rail → Nat
  | .core => 900
  | .sram => 950
  | .aon => 950
  | .sds => 1050
  | .ddr _ => 1500
  | .io18 => 2000
  | .sdsHigh => 2000
  | .tdm _ => 3800

/-! ### Levels and pulls (R454, R455) -/

/-- The types of a ball's input and output. `reference` stands for the balls of R454's table that carry no logic level. -/
inductive IoType where
  | lvcmos (supply : Rail)
  | ddr
  | cml
  | clock
  | reference
  deriving DecidableEq, Repr

/-- The type of a signal. -/
def ioType : Signal → IoType
  | .tdm p _ => .lvcmos (.tdm (p / 12))
  | .eth _ _ => .cml
  | .xtal _ => .reference
  | .thermD _ => .reference
  | .rsmTx _ _ => .cml
  | .rsmRx _ _ => .cml
  | .sdsRefclk _ => .clock
  | .ddr _ _ => .ddr
  | .pcieTx _ _ => .cml
  | .pcieRx _ _ => .cml
  | .pcieRefclk _ => .clock
  | .mgt k => if k < 4 then .cml else .lvcmos .io18
  | .sdsRcal => .reference
  | _ => .lvcmos .io18

/-- What an LVCMOS input at `mv` millivolts reads with its supply at `vdd`: none between the levels VIL and VIH (R454). -/
def inputLevel (vdd mv : Nat) : Option Bool :=
  if 2500 ≤ vdd then (if mv ≤ 800 then some false else if 2000 ≤ mv then some true else none)
  else if 100 * mv ≤ 35 * vdd then some false
  else if 65 * vdd ≤ 100 * mv then some true
  else none

/-- The highest level of an LVCMOS output that is low and the lowest of one that is high, in millivolts (R454). -/
def outputLevels (vdd : Nat) : Nat × Nat := if 2500 ≤ vdd then (400, vdd - 400) else (450, vdd - 450)

/-- Drive strength of an LVCMOS output in milliamperes: that of a TDM ball by DRIVE, 0 to 2 (R319, R454). -/
def driveStrength (x : Signal) (drive : Nat) : Nat :=
  match x with
  | .tdm _ _ => 4 * (drive + 1)
  | _ => 8

/-- The internal pull of a ball: the level that it reads unconnected, none without a pull (R455). -/
def pullOf : Signal → Option Bool
  | .tdm _ k => if k = 2 then some false else none
  | .testmode _ => some false
  | .jtag k => if k = 4 then some false else if k = 1 ∨ k = 2 then some true else none
  | _ => none

/-! ### Timing at the balls (R456 to R458) -/

/-- Limits of a TDM port's timing with a load of 15 pF and DRIVE 8 mA, in picoseconds: FSYNC and SDO valid after the falling edge, earliest and
latest; SDO at high impedance; setup and hold of SDI; skew between the FSYNC edges of two ports of a domain. -/
structure TdmTiming where
  validMin : Nat
  validMax : Nat
  release  : Nat
  setup    : Nat
  hold     : Nat
  skew     : Nat
  deriving DecidableEq, Repr

/-- The limits of R456. -/
def tdmTiming : TdmTiming := { validMin := 500, validMax := 6000, release := 8000, setup := 4000, hold := 1000, skew := 1500 }

/-- Whether SDI data that changes `ps` picoseconds after the falling edge that begins its bit reaches a sampling edge `edge` picoseconds after
it in time. -/
def sdiInTime (edge ps : Nat) : Bool := decide (ps + tdmTiming.setup ≤ edge)

/-- Microseconds in which the xSPI port reads `n` bytes, 200 to the microsecond (R457). -/
def xspiReadUs (n : Nat) : Nat := n / 200

/-- Whether a word clock of a frequency in hertz meets the requirement of WCLK_IN (R458). -/
def wclkAllowed (hz : Nat) : Bool := decide (30000 ≤ hz) && decide (hz ≤ 200000)

/-- Bit rates of the serial links as multiples of SDS_REFCLK, 156.25 MHz, in kilohertz: network ports and Rosemary (R458). -/
def serialRates : Nat × Nat := (66 * 156250, 165 * 156250)

/-! ### Power, heat and the package (R459 to R464) -/

/-- Typical and maximum power of a mode, by its number, in watts (R459). -/
def modePower : Nat → Option (Nat × Nat)
  | 1 => some (31, 42)
  | 2 => some (29, 40)
  | 3 => some (27, 38)
  | 4 => some (30, 41)
  | 5 => some (18, 26)
  | 6 => some (14, 22)
  | _ => none

/-- Whether ambient, junction and DRAM case temperatures, in degrees Celsius, lie within their limits (R460). -/
def heatAllowed (ambient junction dram : Int) : Bool :=
  decide (-40 ≤ ambient) && decide (ambient ≤ 85) && decide (junction ≤ 110) && decide (dram ≤ 95)

/-- The largest thermal resistance of a heatsink, in millidegrees per watt, for a junction at most at 110 degrees, at an ambient temperature, a
power in watts and the resistance of the interface: less that from junction to lid, 80 (R460). -/
def heatsinkLimit (ambient : Int) (watts interface : Nat) : Int := (110 - ambient) * 1000 / watts - 80 - interface

/-- The package: body, height and ball pitch in micrometres, moisture level, reflow peak, mass in grams and parts in a tray (R463). -/
structure Package where
  body   : Nat
  height : Nat
  pitch  : Nat
  level  : Nat
  reflow : Nat
  mass   : Nat
  tray   : Nat
  deriving DecidableEq, Repr

/-- The package of the part. -/
def package : Package := { body := 45000, height := 3600, pitch := 1000, level := 3, reflow := 260, mass := 18, tray := 21 }

/-- The one ordering code: part, silicon step, package, temperature range (R464). -/
def orderingCode : List String := ["KV9600", "B0", "FC1936", "I"]

end Sys2Proof.Machine
end

