-- ==== Sys2Proof/Safety.lean ====
section
/-!
DEFINITION. Safety.lean: what counts as a safe run: steps that go on, memory in its one form, fuses that stay as programmed, and the parts
of the state that each command may change.
-/
namespace Sys2Proof
open Machine

/-- A step that goes on: it answers a next state. -/
def goesOn (s : State) : Prop := ∃ t, step s = .next t

/-- Memory stands in its one canonical form. -/
def memoryCanonical (s : State) : Prop := memWf s.mem = true ∧ memWf s.host.mem = true

/-- What is programmed once in a key slot stays: its key and privilege, and a revocation (R259). -/
def keyKept (a b : KeySlot) : Prop :=
  (a.programmed = true → b.programmed = true ∧ b.key = a.key ∧ b.priv = a.priv) ∧ (a.revoked = true → b.revoked = true)

/-- A key slot is not programmed while its fuses are being programmed. -/
def keyOk (a : KeySlot) : Prop := a.busy = true → a.programmed = false

/-- The invariant of the block: both memories in their form, and no key slot both programmed and being programmed. -/
def Sound (s : State) : Prop := memoryCanonical s ∧ ∀ k, keyOk (keySlot s k)

/-- The parts of the state. -/
inductive Part where
  | now | free | boot | aon | force | bank | landing | sess | locks | odp | commit | ver
  | mode | doms | refs | tbs | life | otp | pairs | rings | msix | hostMem | net | ctxs
  | na | tdm | audio | lanes | iram | budget | trans | xbar | mem | dram | sage | pair
  | pins
  deriving DecidableEq, Repr

/-- A part of the state is the same in two states. -/
def samePart (s t : State) : Part → Prop
  | .now => t.now = s.now
  | .free => t.free = s.free
  | .boot => t.boot = s.boot
  | .aon => t.aon = s.aon
  | .force => t.dict.force = s.dict.force
  | .bank => t.dict.bank = s.dict.bank ∧ t.dict.factory = s.dict.factory
  | .landing => t.dict.landing = s.dict.landing ∧ t.dict.copying = s.dict.copying ∧ t.dict.held = s.dict.held
  | .sess => t.ctl.sess = s.ctl.sess
  | .locks => t.ctl.locks = s.ctl.locks ∧ t.ctl.fails = s.ctl.fails ∧ t.ctl.lockout = s.ctl.lockout ∧ t.ctl.opening = s.ctl.opening ∧ t.ctl.discards = s.ctl.discards
  | .odp => t.ctl.out = s.ctl.out
  | .commit => t.commit = s.commit
  | .ver => t.ver = s.ver
  | .mode => t.mode = s.mode
  | .doms => t.doms = s.doms
  | .refs => t.refs = s.refs
  | .tbs => t.tbs = s.tbs
  | .life => t.life = s.life
  | .otp => t.host.keys = s.host.keys ∧ t.host.netRecs = s.host.netRecs ∧ t.host.netUse = s.host.netUse ∧ t.host.otpRegs = s.host.otpRegs
  | .pairs => t.host.pairs = s.host.pairs
  | .rings => t.host.rings = s.host.rings
  | .msix => t.host.msixTab = s.host.msixTab ∧ t.host.msixPend = s.host.msixPend ∧ t.host.msixSent = s.host.msixSent
  | .hostMem => t.host.mem = s.host.mem
  | .net => t.net = s.net
  | .ctxs => t.ctxs = s.ctxs
  | .na => t.na = s.na
  | .tdm => t.tdm = s.tdm
  | .audio => t.audio = s.audio
  | .lanes => t.lanes = s.lanes
  | .iram => t.iram = s.iram
  | .budget => t.budget = s.budget
  | .trans => t.trans = s.trans
  | .xbar => t.xbar = s.xbar
  | .mem => t.mem = s.mem
  | .dram => t.dram = s.dram
  | .sage => t.sage = s.sage
  | .pair => t.pair = s.pair
  | .pins => t.pins = s.pins

/-- The parts that a dictionary command may change: every one but the core clock's cycle (RECOVER resets the engine). -/
def dictionaryParts : List Part :=
  [.free, .boot, .aon, .force, .bank, .landing, .sess, .locks, .odp, .commit, .ver, .mode, .doms, .refs, .tbs, .life, .otp,
   .pairs, .rings, .msix, .hostMem, .net, .ctxs, .na, .tdm, .audio, .lanes, .iram, .budget, .trans, .xbar, .mem, .dram, .sage, .pair, .pins]

/-- The parts of the state that a command may change. -/
def touches (i : Instr) : List Part :=
  match i with
  | .coldStart => dictionaryParts.filter (fun p => !([.free, .hostMem].contains p))
  | .externalWarmReset _ => dictionaryParts.filter (fun p => !([.free, .aon, .hostMem].contains p))
  | .supplyMonitorTrip _ _ _ _ => dictionaryParts.filter (fun p => !([.free, .hostMem].contains p))
  | .resetNRelease _ _ _ => [.boot, .force, .pins]
  | .fuseLoadDone => [.boot, .aon, .force, .otp, .sage]
  | .firmwareLoaded _ => [.boot, .aon, .force, .sess, .mem, .dram, .sage, .pins]
  | .bootCheckTimeout => dictionaryParts.filter (fun p => !([.free, .hostMem].contains p))
  | .firmwareRetry => [.boot, .force]
  | .dramTrainingStepEnd _ => [.force, .mem, .dram]
  | .dramTrainingDone _ => dictionaryParts.filter (fun p => !([.bank, .locks, .odp, .commit, .refs, .tbs, .otp, .pairs, .msix, .hostMem, .na].contains p))
  | .unmuteStart => [.boot, .force, .sess, .ctxs, .tdm, .audio, .pins]
  | .startUpDone => [.boot, .aon, .force, .sess]
  | .frameTick _ _ _ => .now :: dictionaryParts.filter (fun p => !([.boot, .locks, .odp, .refs, .otp, .lanes, .dram].contains p))
  | .shadowCopyEnd _ => [.landing]
  | .phaseWindowStart _ _ _ _ => dictionaryParts.filter (fun p => !([.boot, .bank, .locks, .odp, .commit, .ver, .refs, .otp, .pairs, .iram].contains p))
  | .phaseCutoff _ _ _ => [.force, .audio, .budget, .trans, .xbar]
  | .budgetCounterExhausted _ => [.force, .budget]
  | .laneBudgetStop _ _ _ => [.aon, .force, .sess, .audio, .lanes, .sage]
  | .drainComplete _ => [.life]
  | .bridgeRatioSettled _ _ => [.force, .audio]
  | .domainFreeRunTimeout _ => [.force, .sess, .doms, .pins]
  | .dpllLocked _ => [.free, .force, .sess, .doms, .pins]
  | .dpllSlewDone _ => [.force, .doms]
  | .referenceEdgeMissing _ => [.force, .sess, .doms, .refs, .pins]
  | .referenceGlitch _ => [.force, .sess, .doms, .refs, .pins]
  | .glitchHoldEnd _ => [.force, .sess, .doms, .pins]
  | .rateGateEnd _ _ => [.force, .sess, .doms, .refs, .pins]
  | .revert _ _ _ _ => dictionaryParts
  | .realign _ _ _ _ => dictionaryParts
  | .ptpAnnounceReceived _ _ _ => [.now, .force, .sess, .tbs]
  | .ptpSyncReceived _ _ _ => [.now, .force, .sess, .doms, .tbs, .pins]
  | .ptpFollowUpReceived _ _ => [.force, .sess, .doms, .tbs, .pins]
  | .ptpDelayRespReceived _ _ => [.now, .force, .tbs]
  | .delayReqSend _ _ => [.now, .force, .tbs, .net]
  | .ptpMasterLost _ => [.force, .sess, .doms, .tbs, .pins]
  | .holdLimitExpired _ => [.force, .sess, .doms, .tbs, .pins]
  | .stepAccept _ _ _ _ => dictionaryParts
  | .stepReject _ _ _ _ => dictionaryParts
  | .rtpPacketReceived _ _ _ => [.now, .force, .sess, .ctxs]
  | .legLost _ _ => [.force, .sess, .ctxs]
  | .rateFitUpdate _ _ => [.force, .sess, .ctxs]
  | .igmpQueryReceived _ _ _ => [.force, .net]
  | .arpRequest _ _ _ => [.force, .net]
  | .icmpEchoRequest _ _ _ _ => [.force, .net]
  | .networkLinkChange _ _ => [.force, .sess, .tbs]
  | .rxOpen _ _ _ _ => dictionaryParts
  | .txOpen _ _ _ _ => dictionaryParts
  | .nonaudioCleared _ _ => [.force, .sess, .na]
  | .mutingWindowEnd _ => [.ctxs, .tdm]
  | .bankSupplyFault _ => [.force, .sess, .sage, .pins]
  | .submissionDoorbell _ _ _ => [.force, .sess, .pairs, .rings, .hostMem]
  | .completionDoorbell _ _ => [.force, .sess, .pairs, .rings]
  | .recordDoorbell _ _ => [.force, .sess, .pairs, .rings]
  | .playbackDoorbell _ _ _ => [.force, .sess, .pairs, .rings, .hostMem]
  | .submissionFetch _ => dictionaryParts
  | .commandPairEnable _ => [.pairs]
  | .commandPairDisable _ => [.pairs, .msix]
  | .pcieFunctionReset => [.force, .sess, .commit, .pairs, .sage]
  | .pcieLinkDown => [.force, .sess, .commit, .pairs, .sage]
  | .busMasterDisable => [.force, .sess, .commit, .pairs, .sage]
  | .ringDmaError _ => [.sage]
  | .restart _ _ _ _ => dictionaryParts
  | .otpKeyProgram _ => [.otp]
  | .otpProgramDone _ => [.otp]
  | .otpKeyRevoke _ => [.otp]
  | .bar0RegisterWrite _ _ _ => [.force, .sess, .otp, .pairs, .rings, .msix]
  | .odpDatagramReceived _ _ _ => dictionaryParts
  | .odpSessionIdleTimeout _ => [.force, .sess, .commit]
  | .odpReassemblyTimeout _ _ => [.sess]
  | .hello _ _ _ _ _ _ => [.free, .sess, .locks, .odp]
  | .auth _ _ _ _ _ => [.force, .sess, .locks, .odp]
  | .authPendingTimeout _ => [.sess]
  | .authLockoutEnd _ => [.locks]
  | .read _ _ _ => dictionaryParts
  | .write _ _ _ _ => dictionaryParts
  | .readBlock _ _ _ _ _ => dictionaryParts
  | .writeBlock _ _ _ _ _ => dictionaryParts
  | .txnBegin _ _ => dictionaryParts
  | .txnEnd _ _ => dictionaryParts
  | .txnExpired _ => [.force, .sess]
  | .lockAcquired _ => dictionaryParts
  | .lockTimeout _ => dictionaryParts
  | .commit _ _ _ => dictionaryParts
  | .rollback _ _ _ => dictionaryParts
  | .subscribe _ _ _ => dictionaryParts
  | .unsubscribe _ _ _ => dictionaryParts
  | .close _ _ => dictionaryParts
  | .nop _ _ => dictionaryParts
  | .closeSession _ _ _ _ => dictionaryParts
  | .subscriptionIntervalEnd _ _ _ => [.force, .sess]
  | .notifySend _ => [.force, .sess, .odp, .pairs, .msix, .hostMem]
  | .commitValidationEnd => dictionaryParts
  | .cancel _ _ _ _ => dictionaryParts
  | .discard _ _ _ _ => dictionaryParts
  | .renumber _ _ _ _ => dictionaryParts
  | .renumberEnd => [.aon, .force, .ver]
  | .sessionStagingWrite _ _ _ _ => dictionaryParts
  | .factory _ _ _ _ => dictionaryParts
  | .journalWriteDone => [.ver]
  | .nodeLiveWrite _ _ _ _ _ => dictionaryParts
  | .imageWrite _ _ _ _ => dictionaryParts
  | .placementListWrite _ _ _ _ _ => dictionaryParts
  | .patchWrite _ _ _ _ => dictionaryParts
  | .clear _ _ _ _ => dictionaryParts
  | .reqMode _ _ _ _ => dictionaryParts
  | .modeValidationEnd => [.force, .sess, .mode, .ctxs, .pair]
  | .modeFadeOutEnd => [.free, .force, .sess, .mode, .doms, .life, .rings, .net, .ctxs, .tdm, .audio, .mem, .sage, .pair, .pins]
  | .modeReconfigureEnd => dictionaryParts.filter (fun p => !([.boot, .bank, .locks, .odp, .commit, .refs, .tbs, .otp, .pairs, .msix, .hostMem, .na, .xbar].contains p))
  | .modeFadeInStart => [.force, .audio]
  | .modeFadeInEnd => [.aon, .force, .sess, .ver]
  | .rbGo _ _ _ _ => dictionaryParts
  | .coreCrossfadeEnd _ => [.audio]
  | .inputCrossfadeEnd _ => [.audio]
  | .delayDipFadeEnd _ => [.force, .audio]
  | .patchDipFadeEnd _ => [.audio]
  | .nodeRampEnd _ _ => [.audio]
  | .firCrossfadeEnd _ => [.audio]
  | .limOnCrossfadeEnd _ => [.audio]
  | .gateHoldExpired _ => [.force]
  | .programStart _ _ => [.free, .lanes, .mem, .sage]
  | .nopBundle _ => [.free, .force, .lanes, .mem, .sage]
  | .halt _ => [.free, .force, .audio, .lanes, .mem, .sage]
  | .lset _ _ _ => [.free, .force, .lanes, .mem, .sage]
  | .loop _ _ _ => [.free, .force, .lanes, .mem, .sage]
  | .bld _ _ _ => [.free, .force, .lanes, .mem, .sage]
  | .mac _ _ _ _ _ => [.lanes]
  | .msu _ _ _ _ _ => [.lanes]
  | .mpy _ _ _ _ _ => [.lanes]
  | .ext _ _ _ _ _ _ => [.lanes]
  | .acc _ _ _ _ => [.lanes]
  | .adda _ _ _ => [.lanes]
  | .suba _ _ _ => [.lanes]
  | .sha _ _ _ => [.lanes]
  | .clr _ _ => [.lanes]
  | .add _ _ _ _ => [.lanes]
  | .sub _ _ _ _ => [.lanes]
  | .asr _ _ _ _ => [.lanes]
  | .asl _ _ _ _ => [.lanes]
  | .abs _ _ _ => [.lanes]
  | .neg _ _ _ => [.lanes]
  | .mov _ _ _ => [.lanes]
  | .mvi _ _ _ => [.lanes]
  | .mvs _ _ _ => [.lanes]
  | .mvr _ _ _ => [.lanes]
  | .max _ _ => [.lanes]
  | .min _ _ => [.lanes]
  | .mxclr _ _ => [.lanes]
  | .and _ _ _ _ => [.lanes]
  | .or _ _ _ _ => [.lanes]
  | .xor _ _ _ _ => [.lanes]
  | .ld _ _ _ _ _ => [.free, .force, .sess, .lanes]
  | .st _ _ _ _ => [.force, .sess, .lanes]
  | .xmod _ _ _ _ => [.lanes]
  | .crossbarRequest _ _ _ _ _ _ => [.force, .sess, .budget, .trans, .xbar]
  | .chunkEndGrant _ => [.force, .hostMem, .budget, .trans, .xbar, .mem, .dram, .sage]
  | .emergencyRequest _ _ _ _ _ _ => [.force, .sess, .hostMem, .xbar, .mem, .dram, .sage]
  | .priorityPreemption _ _ _ => [.force, .hostMem, .budget, .trans, .xbar, .mem, .dram, .sage]
  | .readDataReturn _ _ => [.now, .xbar]
  | .flagAliasWrite _ _ _ _ => [.force, .sess, .budget, .trans, .xbar, .mem, .sage]
  | .dramRefresh _ => [.free, .force, .dram]
  | .dramSingleBitError _ _ _ => [.aon, .force, .sess, .dram, .sage]
  | .dramUncorrectable _ _ _ => [.aon, .force, .sess, .dram, .sage]
  | .dramWriteBack _ => [.budget, .trans, .xbar, .dram]
  | .dramParityAlert _ => [.force, .sess, .dram]
  | .dramAlertRelease _ _ => [.free, .aon, .force, .sess, .budget, .trans, .xbar, .mem, .dram, .sage]
  | .commandBusTestEnd _ _ => [.aon, .force, .sess, .sage]
  | .dramRowTestEnd _ _ => [.aon, .force, .sess, .mem, .dram, .sage]
  | .setpoint _ _ _ _ => dictionaryParts
  | .train _ _ _ _ => dictionaryParts
  | .laneResidueError _ _ => [.aon, .force, .sess, .sage]
  | .knownAnswerTestEnd _ _ _ => [.aon, .force, .sess, .sage]
  | .sparePipelineTest _ _ _ => [.aon, .force, .sess, .sage]
  | .crosspointResidueError _ _ => [.aon, .force, .sess, .sage]
  | .crosspointTestEnd _ _ => [.aon, .force, .sess, .sage, .pair]
  | .sramEccError _ _ _ => [.aon, .force, .sess, .sage]
  | .sramTestEnd _ _ _ => [.aon, .force, .sess, .mem, .sage, .pair]
  | .lockstepMismatch _ => [.aon, .force, .sess, .sage, .pair]
  | .lockstepResetTimeout => dictionaryParts.filter (fun p => !([.free, .hostMem].contains p))
  | .recover _ _ _ _ => dictionaryParts
  | .logClear _ _ _ _ => dictionaryParts
  | .fullTest _ _ _ _ => dictionaryParts
  | .fullTestDone _ => [.force]
  | .jtagInstructionLoad _ => [.aon, .force, .sess, .sage, .pair, .pins]
  | .dieTempUpdate _ => [.force, .sess, .pins]
  | .tempClear _ _ _ _ => dictionaryParts
  | .fwData _ _ _ _ => dictionaryParts
  | .fwProgramDone => [.boot, .force]
  | .fwVerify _ _ _ _ => dictionaryParts
  | .fwVerifyDone => [.boot, .force]
  | .rsmLinkUp _ => [.force, .sess, .pair]
  | .joinWaitExpired => [.pair]
  | .rsmFrameError _ => [.aon, .force, .sess, .sage, .pair]
  | .rsmLaneLockLoss _ => [.aon, .force, .sess, .sage]
  | .linkTestEnd _ => [.aon, .force, .sess, .sage, .pair]
  | .configRecordReceived _ => dictionaryParts.filter (fun p => !([.boot, .locks, .odp, .refs, .tbs, .otp, .pairs, .msix, .hostMem, .na, .xbar, .dram].contains p))
  | .exportItemReceived _ => [.force, .sess, .ctxs, .audio, .pair]
  | .exportAckReceived _ => [.free, .force, .sess, .pair]
  | .fillingEnd => [.force, .sess, .pair]
  | .leaseExpired => [.force, .sess, .pair, .pins]
  | .standbyTakeover => [.free, .force, .sess, .doms, .ctxs, .tdm, .audio, .pair, .pins]
  | .orphanTakeToken => [.force, .sess, .ctxs, .tdm, .audio, .pins]
  | .releaseNoticeReceived => [.force, .sess, .pair]
  | .handover _ _ _ _ => dictionaryParts
  | .referenceFirstEdge _ => [.force, .refs]
  | .arpReplyReceived _ _ _ => [.force, .net]
  | .frameDiscarded _ _ => [.force]

end Sys2Proof
end

