-- ==== Sys2Proof/WellFormed.lean ====
section
/-!
DEFINITION. WellFormed.lean: which commands are well formed: every operand in the range its rule gives it.
-/
namespace Sys2Proof

/-- Octets are octets. -/
def octetsWf (b : Octets) : Bool := b.all (fun x => decide (x < 256))

/-- Bytes of a beat: octets, or 256 for a byte that is not enabled (R356). -/
def beatsWf (b : Octets) : Bool := b.all (fun x => decide (x < 257))

/-- A typed value carries a type code of one byte, and octets where it carries bytes (R230). -/
def tvalWf (v : TVal) : Bool :=
  decide (v.code < 256) && (match v.val with | .blob b => octetsWf b | .num n => decide (n < 2 ^ 64))

/-- A command is well formed when each operand lies in its field. -/
def wellFormed (i : Instr) : Bool :=
  match i with
  | .coldStart => true
  | .externalWarmReset _ => true
  | .supplyMonitorTrip _ _ _ _ => true
  | .resetNRelease testmode side _ => decide (testmode < 4) && decide (side < 2)
  | .fuseLoadDone => true
  | .firmwareLoaded _ => true
  | .bootCheckTimeout => true
  | .firmwareRetry => true
  | .dramTrainingStepEnd _ => true
  | .dramTrainingDone _ => true
  | .unmuteStart => true
  | .startUpDone => true
  | .frameTick d _ _ => decide (d < 4)
  | .shadowCopyEnd d => decide (d < 4)
  | .phaseWindowStart d _ _ _ => decide (d < 4)
  | .phaseCutoff d _ _ => decide (d < 4)
  | .budgetCounterExhausted entry => decide (entry < 256)
  | .laneBudgetStop tile lane _ => decide (tile < 16) && decide (lane < 16)
  | .drainComplete _ => true
  | .bridgeRatioSettled channel _ => decide (channel < 256)
  | .domainFreeRunTimeout d => decide (d < 4)
  | .dpllLocked d => decide (d < 4)
  | .dpllSlewDone d => decide (d < 4)
  | .referenceEdgeMissing miss => decide (miss.input < 8)
  | .referenceGlitch input => decide (input < 8)
  | .glitchHoldEnd input => decide (input < 8)
  | .rateGateEnd input _ => decide (input < 8)
  | .revert n tag inst v => decide (n < 32) && decide (tag < 65536) && decide (inst < 65536) && tvalWf v
  | .realign n tag inst v => decide (n < 32) && decide (tag < 65536) && decide (inst < 65536) && tvalWf v
  | .ptpAnnounceReceived port _ _ => decide (port < 65536)
  | .ptpSyncReceived port _ _ => decide (port < 65536)
  | .ptpFollowUpReceived port _ => decide (port < 65536)
  | .ptpDelayRespReceived port _ => decide (port < 65536)
  | .delayReqSend tb _ => decide (tb < 4)
  | .ptpMasterLost tb => decide (tb < 4)
  | .holdLimitExpired tb => decide (tb < 4)
  | .stepAccept n tag inst v => decide (n < 32) && decide (tag < 65536) && decide (inst < 65536) && tvalWf v
  | .stepReject n tag inst v => decide (n < 32) && decide (tag < 65536) && decide (inst < 65536) && tvalWf v
  | .rtpPacketReceived port _ _ => decide (port < 65536)
  | .legLost context leg => decide (context < 256) && decide (leg < 2)
  | .rateFitUpdate context _ => decide (context < 256)
  | .igmpQueryReceived port _ _ => decide (port < 65536)
  | .arpRequest port _ _ => decide (port < 65536)
  | .icmpEchoRequest port _ _ payload => decide (port < 65536) && octetsWf payload
  | .networkLinkChange port _ => decide (port < 65536)
  | .rxOpen n tag inst v => decide (n < 32) && decide (tag < 65536) && decide (inst < 65536) && tvalWf v
  | .txOpen n tag inst v => decide (n < 32) && decide (tag < 65536) && decide (inst < 65536) && tvalWf v
  | .nonaudioCleared _ pair => decide (pair < 32)
  | .mutingWindowEnd _ => true
  | .bankSupplyFault bank => decide (bank < 4)
  | .submissionDoorbell ring _ _ => decide (ring < 16)
  | .completionDoorbell ring _ => decide (16 ≤ ring) && decide (ring < 32)
  | .recordDoorbell ring _ => decide (32 ≤ ring) && decide (ring < 48)
  | .playbackDoorbell ring _ _ => decide (48 ≤ ring) && decide (ring < 64)
  | .submissionFetch pair => decide (pair < 16)
  | .commandPairEnable pair => decide (pair < 16)
  | .commandPairDisable pair => decide (pair < 16)
  | .pcieFunctionReset => true
  | .pcieLinkDown => true
  | .busMasterDisable => true
  | .ringDmaError ring => decide (32 ≤ ring) && decide (ring < 64)
  | .restart n tag inst v => decide (n < 32) && decide (tag < 65536) && decide (inst < 65536) && tvalWf v
  | .otpKeyProgram slot => decide (slot < 16)
  | .otpProgramDone slot => decide (slot < 16)
  | .otpKeyRevoke slot => decide (slot < 16)
  | .bar0RegisterWrite _ _ _ => true
  | .odpDatagramReceived _ port data => decide (port < 65536) && octetsWf data
  | .odpSessionIdleTimeout n => decide (n < 32)
  | .odpReassemblyTimeout n tag => decide (n < 32) && decide (tag < 65536)
  | .hello _ port privilege dialect slot nc => decide (port < 65536) && decide (privilege < 4) && decide (dialect < 2) && decide (slot < 16) && octetsWf nc
  | .auth n _ port tag proof => decide (n < 32) && decide (port < 65536) && decide (tag < 65536) && octetsWf proof
  | .authPendingTimeout n => decide (n < 32)
  | .authLockoutEnd _ => true
  | .read n tag obj => decide (n < 32) && decide (tag < 65536) && decide (obj < 2 ^ 32)
  | .write n tag obj v => decide (n < 32) && decide (tag < 65536) && decide (obj < 2 ^ 32) && tvalWf v
  | .readBlock n tag obj count _ => decide (n < 32) && decide (tag < 65536) && decide (obj < 2 ^ 32) && decide (1 ≤ count) && decide (count ≤ 4096)
  | .writeBlock n tag obj _ vs => decide (n < 32) && decide (tag < 65536) && decide (obj < 2 ^ 32) && vs.all tvalWf
  | .txnBegin n tag => decide (n < 32) && decide (tag < 65536)
  | .txnEnd n tag => decide (n < 32) && decide (tag < 65536)
  | .txnExpired n => decide (n < 32)
  | .lockAcquired n => decide (n < 32)
  | .lockTimeout n => decide (n < 32)
  | .commit n tag _ => decide (n < 32) && decide (tag < 65536)
  | .rollback n tag _ => decide (n < 32) && decide (tag < 65536)
  | .subscribe n tag _ => decide (n < 32) && decide (tag < 65536)
  | .unsubscribe n tag sub => decide (n < 32) && decide (tag < 65536) && decide (sub < 64)
  | .close n tag => decide (n < 32) && decide (tag < 65536)
  | .nop n tag => decide (n < 32) && decide (tag < 65536)
  | .closeSession n tag inst v => decide (n < 32) && decide (tag < 65536) && decide (inst < 65536) && tvalWf v
  | .subscriptionIntervalEnd n sub obj => decide (n < 32) && decide (sub < 64) && decide (obj < 2 ^ 32)
  | .notifySend n => decide (n < 32)
  | .commitValidationEnd => true
  | .cancel n tag inst v => decide (n < 32) && decide (tag < 65536) && decide (inst < 65536) && tvalWf v
  | .discard n tag inst v => decide (n < 32) && decide (tag < 65536) && decide (inst < 65536) && tvalWf v
  | .renumber n tag inst v => decide (n < 32) && decide (tag < 65536) && decide (inst < 65536) && tvalWf v
  | .renumberEnd => true
  | .sessionStagingWrite n tag inst v => decide (n < 32) && decide (tag < 65536) && decide (inst < 65536) && tvalWf v
  | .factory n tag inst v => decide (n < 32) && decide (tag < 65536) && decide (inst < 65536) && tvalWf v
  | .journalWriteDone => true
  | .nodeLiveWrite n tag row source v => decide (n < 32) && decide (tag < 65536) && decide (row < 0x180) && decide (source < 1024) && tvalWf v
  | .imageWrite n tag inst v => decide (n < 32) && decide (tag < 65536) && decide (inst < 65536) && tvalWf v
  | .placementListWrite n tag inst _ v => decide (n < 32) && decide (tag < 65536) && decide (inst < 65536) && tvalWf v
  | .patchWrite n tag obj v => decide (n < 32) && decide (tag < 65536) && decide (obj < 2 ^ 32) && tvalWf v
  | .clear n tag obj v => decide (n < 32) && decide (tag < 65536) && decide (obj < 2 ^ 32) && tvalWf v
  | .reqMode n tag inst v => decide (n < 32) && decide (tag < 65536) && decide (inst < 65536) && tvalWf v
  | .modeValidationEnd => true
  | .modeFadeOutEnd => true
  | .modeReconfigureEnd => true
  | .modeFadeInStart => true
  | .modeFadeInEnd => true
  | .rbGo n tag inst v => decide (n < 32) && decide (tag < 65536) && decide (inst < 65536) && tvalWf v
  | .coreCrossfadeEnd unit => decide (unit < 2 ^ 32)
  | .inputCrossfadeEnd strip => decide (strip < 1024)
  | .delayDipFadeEnd _ => true
  | .patchDipFadeEnd _ => true
  | .nodeRampEnd row source => decide (row < 0x180) && decide (source < 1024)
  | .firCrossfadeEnd proc => decide (proc < 384)
  | .limOnCrossfadeEnd proc => decide (proc < 384)
  | .gateHoldExpired unit => decide (unit < 2048)
  | .programStart lane _ => decide (lane < 256)
  | .nopBundle lane => decide (lane < 256)
  | .halt lane => decide (lane < 256)
  | .lset lane l count => decide (lane < 256) && decide (l < 2) && decide (1 ≤ count) && decide (count ≤ 512)
  | .loop lane l len => decide (lane < 256) && decide (l < 2) && decide (1 ≤ len) && decide (len ≤ 512)
  | .bld lane l disp => decide (lane < 256) && decide (l < 2) && decide (1 ≤ disp) && decide (disp ≤ 512)
  | .mac lane _ an da db => decide (lane < 256) && decide (an < 4) && decide (da < 16) && decide (db < 16)
  | .msu lane _ an da db => decide (lane < 256) && decide (an < 4) && decide (da < 16) && decide (db < 16)
  | .mpy lane _ an da db => decide (lane < 256) && decide (an < 4) && decide (da < 16) && decide (db < 16)
  | .ext lane dd an _ _ sh => decide (lane < 256) && decide (dd < 16) && decide (an < 4) && decide (-8 ≤ sh) && decide (sh ≤ 7)
  | .acc lane an da _ => decide (lane < 256) && decide (an < 4) && decide (da < 16)
  | .adda lane an am => decide (lane < 256) && decide (an < 4) && decide (am < 4)
  | .suba lane an am => decide (lane < 256) && decide (an < 4) && decide (am < 4)
  | .sha lane an imm => decide (lane < 256) && decide (an < 4) && decide (-32 ≤ imm) && decide (imm ≤ 31)
  | .clr lane an => decide (lane < 256) && decide (an < 4)
  | .add lane dd da db => decide (lane < 256) && decide (dd < 16) && decide (da < 16) && decide (db < 16)
  | .sub lane dd da db => decide (lane < 256) && decide (dd < 16) && decide (da < 16) && decide (db < 16)
  | .asr lane dd da imm => decide (lane < 256) && decide (dd < 16) && decide (da < 16) && decide (imm < 32)
  | .asl lane dd da imm => decide (lane < 256) && decide (dd < 16) && decide (da < 16) && decide (imm < 32)
  | .abs lane dd da => decide (lane < 256) && decide (dd < 16) && decide (da < 16)
  | .neg lane dd da => decide (lane < 256) && decide (dd < 16) && decide (da < 16)
  | .mov lane dd da => decide (lane < 256) && decide (dd < 16) && decide (da < 16)
  | .mvi lane dd imm => decide (lane < 256) && decide (dd < 16) && decide (-1024 ≤ imm) && decide (imm ≤ 1023)
  | .mvs lane sh da => decide (lane < 256) && decide (sh < 28) && sh != 24 && sh != 25 && decide (da < 16)
  | .mvr lane dd sh => decide (lane < 256) && decide (dd < 16) && decide (sh < 29)
  | .max lane da => decide (lane < 256) && decide (da < 16)
  | .min lane da => decide (lane < 256) && decide (da < 16)
  | .mxclr lane dir => decide (lane < 256) && decide (dir < 2)
  | .and lane dd da db => decide (lane < 256) && decide (dd < 16) && decide (da < 16) && decide (db < 16)
  | .or lane dd da db => decide (lane < 256) && decide (dd < 16) && decide (da < 16) && decide (db < 16)
  | .xor lane dd da db => decide (lane < 256) && decide (dd < 16) && decide (da < 16) && decide (db < 16)
  | .ld lane _ dd xn _ => decide (lane < 256) && decide (dd < 16) && decide (xn < 8)
  | .st lane da xn _ => decide (lane < 256) && decide (da < 16) && decide (xn < 8)
  | .xmod lane _ xn _ => decide (lane < 256) && decide (xn < 8)
  | .crossbarRequest _ id _ _ d data => decide (id < 16) && decide (d < 4) && (match data with | some b => beatsWf b | none => true)
  | .chunkEndGrant target => decide (target < 48)
  | .emergencyRequest target _ _ _ _ data => decide (target < 48) && (match data with | some b => beatsWf b | none => true)
  | .priorityPreemption target _ _ => decide (target < 48)
  | .readDataReturn _ id => decide (id < 16)
  | .flagAliasWrite _ _ _ data => beatsWf data
  | .dramRefresh ch => decide (ch < 2)
  | .dramSingleBitError ch _ _ => decide (ch < 2)
  | .dramUncorrectable ch _ _ => decide (ch < 2)
  | .dramWriteBack ch => decide (ch < 2)
  | .dramParityAlert ch => decide (ch < 2)
  | .dramAlertRelease ch _ => decide (ch < 2)
  | .commandBusTestEnd ch _ => decide (ch < 2)
  | .dramRowTestEnd ch _ => decide (ch < 2)
  | .setpoint n tag inst v => decide (n < 32) && decide (tag < 65536) && decide (inst < 65536) && tvalWf v
  | .train n tag inst v => decide (n < 32) && decide (tag < 65536) && decide (inst < 65536) && tvalWf v
  | .laneResidueError tile check => decide (tile < 16) && decide (check.lane < 16)
  | .knownAnswerTestEnd tile lane _ => decide (tile < 16) && decide (lane < 16)
  | .sparePipelineTest tile cluster _ => decide (tile < 16) && decide (cluster < 4)
  | .crosspointResidueError mac _ => decide (mac < 64)
  | .crosspointTestEnd mac _ => decide (mac < 64)
  | .sramEccError _ _ _ => true
  | .sramTestEnd _ _ _ => true
  | .lockstepMismatch _ => true
  | .lockstepResetTimeout => true
  | .recover n tag inst v => decide (n < 32) && decide (tag < 65536) && decide (inst < 65536) && tvalWf v
  | .logClear n tag inst v => decide (n < 32) && decide (tag < 65536) && decide (inst < 65536) && tvalWf v
  | .fullTest n tag inst v => decide (n < 32) && decide (tag < 65536) && decide (inst < 65536) && tvalWf v
  | .fullTestDone _ => true
  | .jtagInstructionLoad opcode => decide (opcode < 64)
  | .dieTempUpdate _ => true
  | .tempClear n tag inst v => decide (n < 32) && decide (tag < 65536) && decide (inst < 65536) && tvalWf v
  | .fwData n tag inst v => decide (n < 32) && decide (tag < 65536) && decide (inst < 65536) && tvalWf v
  | .fwProgramDone => true
  | .fwVerify n tag inst v => decide (n < 32) && decide (tag < 65536) && decide (inst < 65536) && tvalWf v
  | .fwVerifyDone => true
  | .rsmLinkUp _ => true
  | .joinWaitExpired => true
  | .rsmFrameError _ => true
  | .rsmLaneLockLoss lane => decide (lane < 4)
  | .linkTestEnd _ => true
  | .configRecordReceived _ => true
  | .exportItemReceived _ => true
  | .exportAckReceived _ => true
  | .fillingEnd => true
  | .leaseExpired => true
  | .standbyTakeover => true
  | .orphanTakeToken => true
  | .releaseNoticeReceived => true
  | .handover n tag inst v => decide (n < 32) && decide (tag < 65536) && decide (inst < 65536) && tvalWf v
  | .referenceFirstEdge input => decide (input < 8)
  | .arpReplyReceived port _ _ => decide (port < 65536)
  | .frameDiscarded port _ => decide (port < 65536)

end Sys2Proof
end

