-- ==== Sys2Proof/Certificates/Slice0/Obligations.lean ====
section
/-!
DEFINITION. Certificates/Slice0/Obligations.lean: the statements for the provers, each a proposition about exec, step or reset, and the
words in which they are put.
-/
namespace Sys2Proof.Claims
open Machine

/-- A command answers a next state of which something holds. -/
def Gives (i : Instr) (s : State) (p : State → Prop) : Prop := ∃ t, exec i s = .next t ∧ p t

/-- Commands one after the other. -/
def runs : List Instr → State → Host.Outcome State Fault Refusal
  | [], s => .next s
  | i :: r, s =>
    match exec i s with
    | .next t => runs r t
    | o => o

/-- Only parts in a list differ. -/
def OnlyParts (l : List Part) (s t : State) : Prop := ∀ p, p ∉ l → samePart s t p

end Sys2Proof.Claims

/-- A step takes the command at the front of the queue and is exec of it on the state with the queue's rest. -/
def Obligations.StepRunsFrontCommand : Prop :=
  ∀ (s : Sys2Proof.Machine.State) (c : Sys2Proof.Instr) (rest : List Sys2Proof.Instr),
    Sys2Proof.Machine.step { s with pending := c :: rest } = Sys2Proof.Machine.exec c { s with pending := rest }

/-- With no command waiting a step answers a next state in which one core cycle has passed and nothing else changed. Log entry 1, the
model's choice. -/
def Sys2Proof.Claims.EmptyQueueIdlesOneCycle : Prop :=
  ∀ s : Sys2Proof.Machine.State, s.pending = [] →
    ∃ t, Sys2Proof.Machine.step s = .next t ∧ t.pending = [] ∧ t.now = s.now + 1
      ∧ Sys2Proof.Claims.OnlyParts [.now] s t

/-- Every step keeps both memories in their canonical form, and no key slot is ever both programmed and under programming. -/
def Obligations.StepKeepsSound : Prop :=
  ∀ s t : Sys2Proof.Machine.State, Sys2Proof.Sound s → Sys2Proof.Machine.step s = .next t → Sys2Proof.Sound t

/-- The machine right after reset is sound: its memories list nothing and no fuse is blown. -/
def Obligations.ResetIsSound : Prop := Sys2Proof.Sound Sys2Proof.Machine.State.reset

/-- Fuses are permanent over every step, resets among them: a programmed key stays with its privilege, a revocation stays, and a
programmed network record stays as it was programmed (R259). -/
def Obligations.FusesArePermanent : Prop :=
  ∀ s t : Sys2Proof.Machine.State, Sys2Proof.Machine.step s = .next t →
    (∀ k, (Sys2Proof.Machine.keySlot s k).programmed = true →
      (Sys2Proof.Machine.keySlot t k).programmed = true
      ∧ (Sys2Proof.Machine.keySlot t k).key = (Sys2Proof.Machine.keySlot s k).key
      ∧ (Sys2Proof.Machine.keySlot t k).priv = (Sys2Proof.Machine.keySlot s k).priv)
    ∧ (∀ k, (Sys2Proof.Machine.keySlot s k).revoked = true → (Sys2Proof.Machine.keySlot t k).revoked = true)
    ∧ ∀ k r, Sys2Proof.Machine.tget s.host.netRecs none k = some r → Sys2Proof.Machine.tget t.host.netRecs none k = some r

/-- Commands leave the queue in the order in which they stand in it, one a step; time and the draws of open values never run back. -/
def Sys2Proof.Claims.QueueIsFirstInFirstOut : Prop :=
  ∀ s t : Sys2Proof.Machine.State, Sys2Proof.Machine.step s = .next t →
    t.pending = s.pending.tail ∧ s.now ≤ t.now ∧ s.free ≤ t.free

/-- Claims.QueueIsFirstInFirstOut and Claims.EmptyQueueIdlesOneCycle together. -/
def Obligations.QueueIsServedInOrder : Prop := Sys2Proof.Claims.QueueIsFirstInFirstOut ∧ Sys2Proof.Claims.EmptyQueueIdlesOneCycle

/-- The frame of every command: where it answers a next state, every part of the state that `touches` does not name for it is as before,
and so is the queue. -/
def Obligations.CommandsChangeOnlyTheirParts : Prop :=
  ∀ (i : Sys2Proof.Instr) (s t : Sys2Proof.Machine.State), Sys2Proof.Machine.exec i s = .next t →
    t.pending = s.pending ∧ Sys2Proof.Claims.OnlyParts (Sys2Proof.touches i) s t

/-- Every well-formed command answers a next state from every state: no operand in its range and no state stops the block. -/
def Obligations.WellFormedCommandsComplete : Prop :=
  ∀ (i : Sys2Proof.Instr) (s : Sys2Proof.Machine.State), Sys2Proof.wellFormed i = true →
    ∃ t, Sys2Proof.Machine.exec i s = .next t

/-- The part has 256 lanes: a lane command that names another lane stops with a fault that says so, whatever the state (R16). -/
def Obligations.LanesEndAt255 : Prop :=
  ∀ (s : Sys2Proof.Machine.State) (n : Nat), 256 ≤ n →
    (∀ p, Sys2Proof.Machine.exec (.programStart n p) s = .fault .noSuchLane)
    ∧ Sys2Proof.Machine.exec (.nopBundle n) s = .fault .noSuchLane
    ∧ Sys2Proof.Machine.exec (.halt n) s = .fault .noSuchLane
    ∧ (∀ k a x y, Sys2Proof.Machine.exec (.mac n k a x y) s = .fault .noSuchLane)
    ∧ (∀ d sl x m, Sys2Proof.Machine.exec (.ld n sl d x m) s = .fault .noSuchLane)
    ∧ (∀ d x m, Sys2Proof.Machine.exec (.st n d x m) s = .fault .noSuchLane)

namespace Sys2Proof.Claims
open Machine

/-- A lane with no result on its way, no store of the present bundle, no active loop and no gather under way. -/
def Quiet (x : Lane) : Prop := x.wait = [] ∧ x.stores = [] ∧ x.loops = [] ∧ x.dma = []

/-- Only lane `n` differs. -/
def OnlyLane (n : Nat) (s t : State) : Prop :=
  t = { s with lanes := t.lanes } ∧ ∀ m, m ≠ n → lane t m = lane s m

/-- The registers of two lanes agree, the accumulators, status word and so on included. -/
def SameRegs (x y : Lane) : Prop :=
  y.d = x.d ∧ y.a = x.a ∧ y.x = x.x ∧ y.m = x.m ∧ y.w = x.w ∧ y.l = x.l ∧ y.maxv = x.maxv ∧ y.maxi = x.maxi ∧ y.st = x.st

/-- An exact result held within `w` signed bits. -/
def clampTo (w : Nat) (x : Int) : Int := Max.max (-(2 : Int) ^ (w - 1)) (Min.min x ((2 : Int) ^ (w - 1) - 1))

/-- The status word after a result: Z, N and V describe it, SAT is sticky, the rest reads 0. -/
def FlagsTell (old new : BitVec 16) (v : Int) (ov : Prop) : Prop :=
  (new.getLsbD 0 = true ↔ v = 0) ∧ (new.getLsbD 1 = true ↔ v < 0) ∧ (new.getLsbD 2 = true ↔ ov)
  ∧ (new.getLsbD 3 = true ↔ ov ∨ old.getLsbD 3 = true) ∧ ∀ b, 4 ≤ b → new.getLsbD b = false

/-- The command is accepted, its lane shows the old registers through `lat` bundles, and after the last of these bundles it shows those
that `p` names. Nothing but the lane differs. -/
def After (i : Instr) (n lat : Nat) (s : State) (p : Lane → Lane → Prop) : Prop :=
  ∃ t, exec i s = .next t ∧ OnlyLane n s t
    ∧ (∀ k, k < lat → ∃ u, runs (List.replicate k (.nopBundle n)) t = .next u ∧ SameRegs (lane s n) (lane u n))
    ∧ ∃ u, runs (List.replicate lat (.nopBundle n)) t = .next u ∧ OnlyLane n s u ∧ p (lane s n) (lane u n)

/-- Register Dd takes an exact result held within 32 bits, with the flags of what is written; no other register changes. -/
def IntoD (dd : Nat) (v : Lane → Int) (x y : Lane) : Prop :=
  tget y.d 0 dd = BitVec.ofInt 32 (clampTo 32 (v x)) ∧ (∀ k, k ≠ dd → tget y.d 0 k = tget x.d 0 k)
  ∧ FlagsTell x.st y.st (clampTo 32 (v x)) (clampTo 32 (v x) ≠ v x)
  ∧ y.a = x.a ∧ y.x = x.x ∧ y.m = x.m ∧ y.w = x.w ∧ y.l = x.l ∧ y.maxv = x.maxv ∧ y.maxi = x.maxi

/-- Accumulator An takes an exact result held within 80 bits, with the flags of what is written; no other register changes. -/
def IntoA (an : Nat) (v : Lane → Int) (x y : Lane) : Prop :=
  tget y.a 0 an = BitVec.ofInt 80 (clampTo 80 (v x)) ∧ (∀ k, k ≠ an → tget y.a 0 k = tget x.a 0 k)
  ∧ FlagsTell x.st y.st (clampTo 80 (v x)) (clampTo 80 (v x) ≠ v x)
  ∧ y.d = x.d ∧ y.x = x.x ∧ y.m = x.m ∧ y.w = x.w ∧ y.l = x.l ∧ y.maxv = x.maxv ∧ y.maxi = x.maxi

/-- A product aligned to the accumulator's 52 fraction bits (R82): shifted left exactly, or right to nearest, ties to even. -/
def aligned (k : Kind) (p : Int) : Int :=
  match k with
  | .sc => p
  | .sg => p * 4
  | .ss => p * 64
  | .cc => shiftNearest p 6
  | .gg => shiftNearest p 2

/-- Fraction bits between a data format and the accumulator (R119). -/
def fractionGap : Fmt → Int
  | .q823 => 29
  | .q229 => 23
  | .q427 => 25

/-- The pointer of R91 for a buffer of L words whose length fills 2^k words and no fewer. -/
def PointerMoves (x w : Nat) (m : Int) (r : Nat) : Prop :=
  (w = 0 → (r : Int) = ((x : Int) + m) % 65536)
  ∧ (w ≠ 0 → ∀ k, Nat.min w 16384 ≤ 2 ^ k → (∀ j, Nat.min w 16384 ≤ 2 ^ j → k ≤ j) →
      (r : Int) = (x - x % 2 ^ k : Nat) + (((x % 2 ^ k : Nat) : Int) + m) % (Nat.min w 16384 : Nat))

/-- The amount that a post-modify code adds (R90). -/
def modifier (x : Lane) (xn : Nat) : PMod → Int
  | .none => 0
  | .inc => 1
  | .dec => -1
  | .plusM => (tget x.m 0 xn).toInt

/-- The pointer Xn after an access: unchanged with no modification, else by R91; the other pointers stay. -/
def PointerAfter (xn : Nat) (m : PMod) (x y : Lane) : Prop :=
  (∀ k, k ≠ xn → tget y.x 0 k = tget x.x 0 k)
  ∧ (m = .none → tget y.x 0 xn = tget x.x 0 xn)
  ∧ (m ≠ .none → ∀ r, PointerMoves (tget x.x 0 xn).toNat (tget x.w 0 xn).toNat (modifier x xn m) r →
      tget y.x 0 xn = BitVec.ofNat 16 r)

/-- Nothing but the pointers and D registers of a lane may differ. -/
def RestSame (x y : Lane) : Prop :=
  y.a = x.a ∧ y.m = x.m ∧ y.w = x.w ∧ y.l = x.l ∧ y.maxv = x.maxv ∧ y.maxi = x.maxi ∧ y.st = x.st

end Sys2Proof.Claims

/-- MAC, MSU, MPY, ACC, ADDA, SUBA, SHA and CLR on a lane at rest complete; the accumulator holds the exact result, held within 80 bits,
one bundle later, with Z, N, V and SAT of what was written, and nothing else changes (R82, R83, R86, R108, R119). -/
def Obligations.AccumulatorResults : Prop :=
  ∀ (s : Sys2Proof.Machine.State) (n an : Nat), n < 256 → an < 4 → Sys2Proof.Claims.Quiet (Sys2Proof.Machine.lane s n) →
    (∀ k da db, da < 16 → db < 16 →
      Sys2Proof.Claims.After (.mac n k an da db) n 1 s (Sys2Proof.Claims.IntoA an (fun x =>
        Sys2Proof.Machine.aInt x an + Sys2Proof.Claims.aligned k (Sys2Proof.Machine.dInt x da * Sys2Proof.Machine.dInt x db)))
      ∧ Sys2Proof.Claims.After (.msu n k an da db) n 1 s (Sys2Proof.Claims.IntoA an (fun x =>
        Sys2Proof.Machine.aInt x an - Sys2Proof.Claims.aligned k (Sys2Proof.Machine.dInt x da * Sys2Proof.Machine.dInt x db)))
      ∧ Sys2Proof.Claims.After (.mpy n k an da db) n 1 s (Sys2Proof.Claims.IntoA an (fun x =>
        Sys2Proof.Claims.aligned k (Sys2Proof.Machine.dInt x da * Sys2Proof.Machine.dInt x db))))
    ∧ (∀ f da, da < 16 → Sys2Proof.Claims.After (.acc n an da f) n 1 s (Sys2Proof.Claims.IntoA an (fun x =>
        Sys2Proof.Machine.dInt x da * 2 ^ (Sys2Proof.Claims.fractionGap f).toNat)))
    ∧ (∀ am, am < 4 →
      Sys2Proof.Claims.After (.adda n an am) n 1 s (Sys2Proof.Claims.IntoA an (fun x =>
        Sys2Proof.Machine.aInt x an + Sys2Proof.Machine.aInt x am))
      ∧ Sys2Proof.Claims.After (.suba n an am) n 1 s (Sys2Proof.Claims.IntoA an (fun x =>
        Sys2Proof.Machine.aInt x an - Sys2Proof.Machine.aInt x am)))
    ∧ (∀ imm : Int, 0 ≤ imm → imm ≤ 31 → Sys2Proof.Claims.After (.sha n an imm) n 1 s (Sys2Proof.Claims.IntoA an (fun x =>
        Sys2Proof.Machine.aInt x an * 2 ^ imm.toNat)))
    ∧ (∀ imm : Int, -32 ≤ imm → imm < 0 → Sys2Proof.Claims.After (.sha n an imm) n 1 s (Sys2Proof.Claims.IntoA an (fun x =>
        Sys2Proof.Machine.aInt x an / 2 ^ (-imm).toNat)))
    ∧ Sys2Proof.Claims.After (.clr n an) n 1 s (Sys2Proof.Claims.IntoA an (fun _ => 0))

/-- EXT on a lane at rest completes; Dd holds An with the surplus fraction bits dropped by RN or RD, held within 32 bits, two bundles
later and not before, with the flags of what was written; and RN is the nearest integer, the even one of two as near (R84, R108, R119). -/
def Obligations.ExtractRoundsThenSaturates : Prop :=
  (∀ (s : Sys2Proof.Machine.State) (n dd an : Nat) (f : Sys2Proof.Fmt) (sh : Int),
    n < 256 → dd < 16 → an < 4 → -8 ≤ sh → sh ≤ 7 → Sys2Proof.Claims.Quiet (Sys2Proof.Machine.lane s n) →
    Sys2Proof.Claims.After (.ext n dd an f .rn sh) n 2 s (Sys2Proof.Claims.IntoD dd (fun x =>
      Sys2Proof.Machine.shiftNearest (Sys2Proof.Machine.aInt x an) (Sys2Proof.Claims.fractionGap f - sh).toNat))
    ∧ Sys2Proof.Claims.After (.ext n dd an f .rd sh) n 2 s (Sys2Proof.Claims.IntoD dd (fun x =>
      Sys2Proof.Machine.aInt x an / 2 ^ (Sys2Proof.Claims.fractionGap f - sh).toNat)))
  ∧ ∀ (x : Int) (k : Nat),
    let q := Sys2Proof.Machine.shiftNearest x k
    2 * (x - q * 2 ^ k) ≤ 2 ^ k ∧ -(2 ^ k) ≤ 2 * (x - q * 2 ^ k)
    ∧ (1 ≤ k → (2 * (x - q * 2 ^ k) = 2 ^ k ∨ 2 * (x - q * 2 ^ k) = -(2 ^ k)) → q % 2 = 0)

/-- ADD, SUB, ASR and ASL on a lane at rest complete: 32-bit operations that saturate, a right shift that rounds down, V and SAT set by
a saturation; the result is there one bundle later and nothing else changes (R85). -/
def Obligations.DataAddsAndShiftsSaturate : Prop :=
  ∀ (s : Sys2Proof.Machine.State) (n dd da : Nat), n < 256 → dd < 16 → da < 16 →
    Sys2Proof.Claims.Quiet (Sys2Proof.Machine.lane s n) →
    (∀ db, db < 16 →
      Sys2Proof.Claims.After (.add n dd da db) n 1 s (Sys2Proof.Claims.IntoD dd (fun x =>
        Sys2Proof.Machine.dInt x da + Sys2Proof.Machine.dInt x db))
      ∧ Sys2Proof.Claims.After (.sub n dd da db) n 1 s (Sys2Proof.Claims.IntoD dd (fun x =>
        Sys2Proof.Machine.dInt x da - Sys2Proof.Machine.dInt x db)))
    ∧ ∀ imm, imm < 32 →
      Sys2Proof.Claims.After (.asr n dd da imm) n 1 s (Sys2Proof.Claims.IntoD dd (fun x =>
        Sys2Proof.Machine.dInt x da / 2 ^ imm))
      ∧ Sys2Proof.Claims.After (.asl n dd da imm) n 1 s (Sys2Proof.Claims.IntoD dd (fun x =>
        Sys2Proof.Machine.dInt x da * 2 ^ imm))

/-- ABS, NEG, MOV, MVI, AND, OR and XOR on a lane at rest complete with the results of R119 one bundle later, the most negative number
saturating in ABS and NEG, and nothing else changes. -/
def Obligations.DataMovesAndLogic : Prop :=
  ∀ (s : Sys2Proof.Machine.State) (n dd da : Nat), n < 256 → dd < 16 → da < 16 →
    Sys2Proof.Claims.Quiet (Sys2Proof.Machine.lane s n) →
    Sys2Proof.Claims.After (.abs n dd da) n 1 s (Sys2Proof.Claims.IntoD dd (fun x => ((Sys2Proof.Machine.dInt x da).natAbs : Int)))
    ∧ Sys2Proof.Claims.After (.neg n dd da) n 1 s (Sys2Proof.Claims.IntoD dd (fun x => -Sys2Proof.Machine.dInt x da))
    ∧ Sys2Proof.Claims.After (.mov n dd da) n 1 s (Sys2Proof.Claims.IntoD dd (fun x => Sys2Proof.Machine.dInt x da))
    ∧ (∀ imm : Int, -1024 ≤ imm → imm ≤ 1023 →
      Sys2Proof.Claims.After (.mvi n dd imm) n 1 s (Sys2Proof.Claims.IntoD dd (fun _ => imm)))
    ∧ ∀ db, db < 16 →
      Sys2Proof.Claims.After (.and n dd da db) n 1 s (Sys2Proof.Claims.IntoD dd (fun x =>
        (Sys2Proof.Machine.tget x.d 0 da &&& Sys2Proof.Machine.tget x.d 0 db).toInt))
      ∧ Sys2Proof.Claims.After (.or n dd da db) n 1 s (Sys2Proof.Claims.IntoD dd (fun x =>
        (Sys2Proof.Machine.tget x.d 0 da ||| Sys2Proof.Machine.tget x.d 0 db).toInt))
      ∧ Sys2Proof.Claims.After (.xor n dd da db) n 1 s (Sys2Proof.Claims.IntoD dd (fun x =>
        (Sys2Proof.Machine.tget x.d 0 da ^^^ Sys2Proof.Machine.tget x.d 0 db).toInt))

/-- MVS and MVR on a lane at rest complete as the table of R118 says: 16 bits written to X, M and W, the word to MAXV and MAXI; X, W, L and
ST read back zero-extended, M sign-extended; the flags describe the value as MVR reads it back (R119). -/
def Obligations.SpecialRegisterMoves : Prop :=
  ∀ (s : Sys2Proof.Machine.State) (n da : Nat), n < 256 → da < 16 → Sys2Proof.Claims.Quiet (Sys2Proof.Machine.lane s n) →
    (∀ r, r < 8 →
      Sys2Proof.Claims.After (.mvs n r da) n 1 s (fun x y =>
        (∀ k, Sys2Proof.Machine.tget y.x 0 k = if k = r then (Sys2Proof.Machine.tget x.d 0 da).setWidth 16 else Sys2Proof.Machine.tget x.x 0 k)
        ∧ Sys2Proof.Claims.FlagsTell x.st y.st ((Sys2Proof.Machine.tget x.d 0 da).setWidth 16).toNat False
        ∧ y.d = x.d ∧ y.a = x.a ∧ y.m = x.m ∧ y.w = x.w ∧ y.l = x.l ∧ y.maxv = x.maxv ∧ y.maxi = x.maxi)
      ∧ Sys2Proof.Claims.After (.mvs n (8 + r) da) n 1 s (fun x y =>
        (∀ k, Sys2Proof.Machine.tget y.m 0 k = if k = r then (Sys2Proof.Machine.tget x.d 0 da).setWidth 16 else Sys2Proof.Machine.tget x.m 0 k)
        ∧ Sys2Proof.Claims.FlagsTell x.st y.st ((Sys2Proof.Machine.tget x.d 0 da).setWidth 16).toInt False
        ∧ y.d = x.d ∧ y.a = x.a ∧ y.x = x.x ∧ y.w = x.w ∧ y.l = x.l ∧ y.maxv = x.maxv ∧ y.maxi = x.maxi)
      ∧ Sys2Proof.Claims.After (.mvs n (16 + r) da) n 1 s (fun x y =>
        (∀ k, Sys2Proof.Machine.tget y.w 0 k = if k = r then (Sys2Proof.Machine.tget x.d 0 da).setWidth 16 else Sys2Proof.Machine.tget x.w 0 k)
        ∧ Sys2Proof.Claims.FlagsTell x.st y.st ((Sys2Proof.Machine.tget x.d 0 da).setWidth 16).toNat False
        ∧ y.d = x.d ∧ y.a = x.a ∧ y.x = x.x ∧ y.m = x.m ∧ y.l = x.l ∧ y.maxv = x.maxv ∧ y.maxi = x.maxi))
    ∧ Sys2Proof.Claims.After (.mvs n 26 da) n 1 s (fun x y => y.maxv = Sys2Proof.Machine.tget x.d 0 da
        ∧ Sys2Proof.Claims.FlagsTell x.st y.st (Sys2Proof.Machine.dInt x da) False
        ∧ y.d = x.d ∧ y.a = x.a ∧ y.x = x.x ∧ y.m = x.m ∧ y.w = x.w ∧ y.l = x.l ∧ y.maxi = x.maxi)
    ∧ Sys2Proof.Claims.After (.mvs n 27 da) n 1 s (fun x y => y.maxi = Sys2Proof.Machine.tget x.d 0 da
        ∧ Sys2Proof.Claims.FlagsTell x.st y.st (Sys2Proof.Machine.dInt x da) False
        ∧ y.d = x.d ∧ y.a = x.a ∧ y.x = x.x ∧ y.m = x.m ∧ y.w = x.w ∧ y.l = x.l ∧ y.maxv = x.maxv)
    ∧ ∀ dd, dd < 16 →
      (∀ r, r < 8 →
        Sys2Proof.Claims.After (.mvr n dd r) n 1 s (Sys2Proof.Claims.IntoD dd (fun x => ((Sys2Proof.Machine.tget x.x 0 r).toNat : Int)))
        ∧ Sys2Proof.Claims.After (.mvr n dd (8 + r)) n 1 s (Sys2Proof.Claims.IntoD dd (fun x => (Sys2Proof.Machine.tget x.m 0 r).toInt))
        ∧ Sys2Proof.Claims.After (.mvr n dd (16 + r)) n 1 s (Sys2Proof.Claims.IntoD dd (fun x => ((Sys2Proof.Machine.tget x.w 0 r).toNat : Int))))
      ∧ (∀ r, r < 2 → Sys2Proof.Machine.tget (Sys2Proof.Machine.lane s n).l 0 r < 65536 →
        Sys2Proof.Claims.After (.mvr n dd (24 + r)) n 1 s (Sys2Proof.Claims.IntoD dd (fun x => ((Sys2Proof.Machine.tget x.l 0 r : Nat) : Int))))
      ∧ Sys2Proof.Claims.After (.mvr n dd 26) n 1 s (Sys2Proof.Claims.IntoD dd (fun x => x.maxv.toInt))
      ∧ Sys2Proof.Claims.After (.mvr n dd 27) n 1 s (Sys2Proof.Claims.IntoD dd (fun x => x.maxi.toInt))
      ∧ Sys2Proof.Claims.After (.mvr n dd 28) n 1 s (Sys2Proof.Claims.IntoD dd (fun x => (x.st.toNat : Int)))

/-- MAX, MIN and MXCLR on a lane at rest complete: a strictly better value and the step's number are kept, every step is counted, the
flags are those of MAXV; and a program starts with the values of a MAX search (R122). -/
def Obligations.SearchKeepsFirstExtreme : Prop :=
  ∀ (s : Sys2Proof.Machine.State) (n : Nat), n < 256 → Sys2Proof.Claims.Quiet (Sys2Proof.Machine.lane s n) →
    (∀ da, da < 16 →
      Sys2Proof.Claims.After (.max n da) n 1 s (fun x y =>
        (x.maxv.toInt < Sys2Proof.Machine.dInt x da → y.maxv = Sys2Proof.Machine.tget x.d 0 da ∧ y.maxi.toNat % 65536 = x.maxi.toNat / 65536)
        ∧ (Sys2Proof.Machine.dInt x da ≤ x.maxv.toInt → y.maxv = x.maxv ∧ y.maxi.toNat % 65536 = x.maxi.toNat % 65536)
        ∧ y.maxi.toNat / 65536 = (x.maxi.toNat / 65536 + 1) % 65536
        ∧ Sys2Proof.Claims.FlagsTell x.st y.st y.maxv.toInt False
        ∧ y.d = x.d ∧ y.a = x.a ∧ y.x = x.x ∧ y.m = x.m ∧ y.w = x.w ∧ y.l = x.l)
      ∧ Sys2Proof.Claims.After (.min n da) n 1 s (fun x y =>
        (Sys2Proof.Machine.dInt x da < x.maxv.toInt → y.maxv = Sys2Proof.Machine.tget x.d 0 da ∧ y.maxi.toNat % 65536 = x.maxi.toNat / 65536)
        ∧ (x.maxv.toInt ≤ Sys2Proof.Machine.dInt x da → y.maxv = x.maxv ∧ y.maxi.toNat % 65536 = x.maxi.toNat % 65536)
        ∧ y.maxi.toNat / 65536 = (x.maxi.toNat / 65536 + 1) % 65536
        ∧ Sys2Proof.Claims.FlagsTell x.st y.st y.maxv.toInt False
        ∧ y.d = x.d ∧ y.a = x.a ∧ y.x = x.x ∧ y.m = x.m ∧ y.w = x.w ∧ y.l = x.l))
    ∧ (∀ dir, dir < 2 → Sys2Proof.Claims.After (.mxclr n dir) n 1 s (fun x y =>
        y.maxv = (if dir = 0 then 0x80000000#32 else 0x7FFFFFFF#32) ∧ y.maxi = 0
        ∧ Sys2Proof.Claims.FlagsTell x.st y.st y.maxv.toInt False
        ∧ y.d = x.d ∧ y.a = x.a ∧ y.x = x.x ∧ y.m = x.m ∧ y.w = x.w ∧ y.l = x.l))
    ∧ ∀ p, (Sys2Proof.Machine.lane s n).stopped = false → Sys2Proof.Claims.Gives (.programStart n p) s (fun t =>
        (Sys2Proof.Machine.lane t n).maxv = 0x80000000#32 ∧ (Sys2Proof.Machine.lane t n).maxi = 0)

/-- LD and XMOD on a lane at rest complete. A load brings the word at Xn into Dd two bundles later, 0 from an unmapped word, and the pointer
moves one bundle later, circularly where Wn is not 0; no flag, no accumulator and no memory changes (R87, R88, R90, R91, R108, R121). -/
def Sys2Proof.Claims.LoadsAndPointers : Prop :=
  ∀ (s : Sys2Proof.Machine.State) (n xn : Nat) (sl : Sys2Proof.MSlot) (m : Sys2Proof.PMod), n < 256 → xn < 8 →
    Sys2Proof.Claims.Quiet (Sys2Proof.Machine.lane s n) →
    (Sys2Proof.Claims.After (.xmod n sl xn m) n 1 s (fun x y =>
      y.d = x.d ∧ Sys2Proof.Claims.RestSame x y ∧ Sys2Proof.Claims.PointerAfter xn m x y))
    ∧ ∀ dd, dd < 16 →
      let w := (Sys2Proof.Machine.tget (Sys2Proof.Machine.lane s n).x 0 xn).toNat
      ∃ t, Sys2Proof.Machine.exec (.ld n sl dd xn m) s = .next t
        ∧ t.mem = s.mem ∧ (∀ k, k ≠ n → Sys2Proof.Machine.lane t k = Sys2Proof.Machine.lane s k)
        ∧ (w < 0x6000 → Sys2Proof.Claims.OnlyLane n s t)
        ∧ Sys2Proof.Claims.SameRegs (Sys2Proof.Machine.lane s n) (Sys2Proof.Machine.lane t n)
        ∧ (∃ u, Sys2Proof.Claims.runs [.nopBundle n] t = .next u
          ∧ (Sys2Proof.Machine.lane u n).d = (Sys2Proof.Machine.lane s n).d
          ∧ Sys2Proof.Claims.PointerAfter xn m (Sys2Proof.Machine.lane s n) (Sys2Proof.Machine.lane u n))
        ∧ ∃ u, Sys2Proof.Claims.runs [.nopBundle n, .nopBundle n] t = .next u
          ∧ u.mem = s.mem
          ∧ (∀ k, Sys2Proof.Machine.tget (Sys2Proof.Machine.lane u n).d 0 k
              = if k = dd then BitVec.ofNat 32 (Sys2Proof.Machine.laneWord s n w) else Sys2Proof.Machine.tget (Sys2Proof.Machine.lane s n).d 0 k)
          ∧ (0x6000 ≤ w → Sys2Proof.Machine.tget (Sys2Proof.Machine.lane u n).d 0 dd = 0)
          ∧ Sys2Proof.Claims.RestSame (Sys2Proof.Machine.lane s n) (Sys2Proof.Machine.lane u n)
          ∧ Sys2Proof.Claims.PointerAfter xn m (Sys2Proof.Machine.lane s n) (Sys2Proof.Machine.lane u n)

/-- ST on a lane at rest completes. The word is stored as the bundle closes, least significant byte first, at the lane's bank address of
Xn; every other byte of memory stays, and all of it when Xn is outside the banks; a word whose region is under test goes to the save buffer that
stands for it; the pointer moves; registers and flags stay. Such an access outside counts at the running placement (R87, R88, R90, R91, R108, R121,
R365). -/
def Sys2Proof.Claims.StoresReachTheBank : Prop :=
  ∀ (s : Sys2Proof.Machine.State) (n da xn : Nat) (m : Sys2Proof.PMod), n < 256 → da < 16 → xn < 8 →
    Sys2Proof.Claims.Quiet (Sys2Proof.Machine.lane s n) →
    let w := (Sys2Proof.Machine.tget (Sys2Proof.Machine.lane s n).x 0 xn).toNat
    ∃ t, Sys2Proof.Machine.exec (.st n da xn m) s = .next t
      ∧ t.mem = s.mem
      ∧ Sys2Proof.Claims.SameRegs (Sys2Proof.Machine.lane s n) (Sys2Proof.Machine.lane t n)
      ∧ (∀ p, 0x4000 ≤ w → (Sys2Proof.Machine.lane s n).prog = some p → Sys2Proof.Machine.areaOf p = 9 → Sys2Proof.Machine.areaOf (p + 0x10) = 9 →
        Sys2Proof.Machine.numF t (p + 0x10) = Sys2Proof.Machine.numF s (p + 0x10) + 1)
      ∧ ∃ u, Sys2Proof.Claims.runs [.nopBundle n] t = .next u
        ∧ (∀ a, Sys2Proof.Machine.laneAddr n w = some a → w < 0x4000 → Sys2Proof.Machine.regionFailed s a = false →
          (∀ j, j < 4 → Sys2Proof.Machine.chipRead u (a + j) 1
            = [(Sys2Proof.Machine.tget (Sys2Proof.Machine.lane s n).d 0 da).toNat / 256 ^ j % 256])
          ∧ (∀ b, (b < a ∨ a + 4 ≤ b) → Sys2Proof.Machine.chipRead u b 1 = Sys2Proof.Machine.chipRead s b 1)
          ∧ (∀ b, (b < a ∨ a + 4 ≤ b) → Sys2Proof.Machine.memByte u.mem b = Sys2Proof.Machine.memByte s.mem b)
          ∧ (Sys2Proof.Machine.saveOf s a = none → ∀ j, j < 4 → (Sys2Proof.Machine.memByte u.mem (a + j)).toNat
            = (Sys2Proof.Machine.tget (Sys2Proof.Machine.lane s n).d 0 da).toNat / 256 ^ j % 256)
          ∧ (Sys2Proof.Machine.saveOf s a ≠ none → u.mem = s.mem))
        ∧ (0x4000 ≤ w → u.mem = s.mem)
        ∧ (Sys2Proof.Machine.lane u n).d = (Sys2Proof.Machine.lane s n).d
        ∧ Sys2Proof.Claims.RestSame (Sys2Proof.Machine.lane s n) (Sys2Proof.Machine.lane u n)
        ∧ Sys2Proof.Claims.PointerAfter xn m (Sys2Proof.Machine.lane s n) (Sys2Proof.Machine.lane u n)
        ∧ ∀ k, k ≠ n → Sys2Proof.Machine.lane u k = Sys2Proof.Machine.lane s k

/-- Claims.LoadsAndPointers and Claims.StoresReachTheBank together. The model's choice enters it as log entry 20. -/
def Obligations.MemorySlotMoves : Prop := Sys2Proof.Claims.LoadsAndPointers ∧ Sys2Proof.Claims.StoresReachTheBank

/-- NOP, LSET, LOOP and BLD on a lane at rest complete. A bundle takes one cycle; LSET loads its counter; LOOP enters its body or skips it
when the counter is 0; BLD goes back with 2 added cycles while the counter is above 1, else passes and leaves 0 (R107, R111, R113, R114). -/
def Sys2Proof.Claims.ControlSlotMoves : Prop :=
  ∀ (s : Sys2Proof.Machine.State) (n : Nat), n < 256 → Sys2Proof.Claims.Quiet (Sys2Proof.Machine.lane s n) →
    let x := Sys2Proof.Machine.lane s n
    (∃ t, Sys2Proof.Machine.exec (.nopBundle n) s = .next t ∧ Sys2Proof.Claims.OnlyLane n s t
      ∧ Sys2Proof.Machine.lane t n = { x with pc := x.pc + 1, cycle := x.cycle + 1, spent := x.spent + 1 })
    ∧ ∀ l, l < 2 →
      (∀ c, 1 ≤ c → c ≤ 512 → ∃ t, Sys2Proof.Machine.exec (.lset n l c) s = .next t ∧ Sys2Proof.Claims.OnlyLane n s t
        ∧ Sys2Proof.Machine.lane t n = { x with pc := x.pc + 1, cycle := x.cycle + 1, spent := x.spent + 1, l := Sys2Proof.Machine.tput x.l 0 l c })
      ∧ (∀ len, 1 ≤ len → len ≤ 512 → ∃ t, Sys2Proof.Machine.exec (.loop n l len) s = .next t ∧ Sys2Proof.Claims.OnlyLane n s t
        ∧ (Sys2Proof.Machine.tget x.l 0 l = 0 → Sys2Proof.Machine.lane t n
            = { x with pc := x.pc + 1 + len, cycle := x.cycle + 1, spent := x.spent + 1 })
        ∧ (Sys2Proof.Machine.tget x.l 0 l ≠ 0 → Sys2Proof.Machine.lane t n
            = { x with pc := x.pc + 1, cycle := x.cycle + 1, spent := x.spent + 1,
                       loops := [{ counter := l, start := x.pc + 1, stop := x.pc + len }] }))
      ∧ ∀ disp, 1 ≤ disp → disp ≤ 512 → disp ≤ x.pc → ∃ t, Sys2Proof.Machine.exec (.bld n l disp) s = .next t ∧ Sys2Proof.Claims.OnlyLane n s t
        ∧ (1 < Sys2Proof.Machine.tget x.l 0 l → Sys2Proof.Machine.lane t n
            = { x with pc := x.pc - disp, cycle := x.cycle + 3, spent := x.spent + 3,
                       l := Sys2Proof.Machine.tput x.l 0 l (Sys2Proof.Machine.tget x.l 0 l - 1) })
        ∧ (Sys2Proof.Machine.tget x.l 0 l ≤ 1 → Sys2Proof.Machine.lane t n
            = { x with pc := x.pc + 1, cycle := x.cycle + 1, spent := x.spent + 1, l := Sys2Proof.Machine.tput x.l 0 l 0 })

/-- A hardware loop costs no cycle of its own: a body of `len` bundles whose counter holds `k` takes exactly k times len cycles, and leaves
the counter at 0, no active loop and the lane at the bundle behind the body (R113). -/
def Obligations.LoopTakesBodyTimesCount : Prop :=
  ∀ (s : Sys2Proof.Machine.State) (n l len k : Nat), n < 256 → l < 2 → 1 ≤ len → 1 ≤ k →
    Sys2Proof.Claims.Quiet (Sys2Proof.Machine.lane s n) → Sys2Proof.Machine.tget (Sys2Proof.Machine.lane s n).l 0 l = k →
    ∃ t u, Sys2Proof.Machine.exec (.loop n l len) s = .next t
      ∧ Sys2Proof.Claims.runs (List.replicate (k * len) (.nopBundle n)) t = .next u
      ∧ (Sys2Proof.Machine.lane u n).pc = (Sys2Proof.Machine.lane s n).pc + 1 + len
      ∧ (Sys2Proof.Machine.lane u n).cycle = (Sys2Proof.Machine.lane t n).cycle + k * len
      ∧ Sys2Proof.Machine.tget (Sys2Proof.Machine.lane u n).l 0 l = 0
      ∧ (∀ j, j ≠ l → Sys2Proof.Machine.tget (Sys2Proof.Machine.lane u n).l 0 j = Sys2Proof.Machine.tget (Sys2Proof.Machine.lane s n).l 0 j)
      ∧ (Sys2Proof.Machine.lane u n).loops = []

/-- PROGRAM_START and HALT complete. A program starts with the registers of R78: data, accumulators, counters and flags 0, pointers from
the context block of its placement; and HALT ends it after its epilogue: three cycles in all, nothing pending, the pointers back in the context
block, a saturation counted; on a lane that its budget has stopped no program starts (R49, R78 to R81, R115). -/
def Sys2Proof.Claims.ProgramsStartAndEnd : Prop :=
  ∀ (s : Sys2Proof.Machine.State) (n : Nat) (p : Sys2Proof.Obj), n < 256 →
    ((Sys2Proof.Machine.lane s n).stopped = true → Sys2Proof.Claims.Gives (.programStart n p) s (fun t => t = s))
    ∧ ((Sys2Proof.Machine.lane s n).stopped = false → Sys2Proof.Claims.Gives (.programStart n p) s (fun t =>
      let y := Sys2Proof.Machine.lane t n
      y.d = [] ∧ y.a = [] ∧ y.l = [] ∧ y.st = 0 ∧ y.pc = 0 ∧ y.loops = [] ∧ y.wait = [] ∧ y.stores = [] ∧ y.prog = some p
      ∧ y.cycle = (Sys2Proof.Machine.lane s n).cycle + 6
      ∧ (Sys2Proof.Machine.isPlacement p = true → ∀ r, r < 8 →
        Sys2Proof.Machine.tget y.x 0 r = Sys2Proof.Machine.ctxHalf t n (Sys2Proof.Machine.numF t (p + 5)) 0 r
        ∧ Sys2Proof.Machine.tget y.m 0 r = Sys2Proof.Machine.ctxHalf t n (Sys2Proof.Machine.numF t (p + 5)) 4 r
        ∧ Sys2Proof.Machine.tget y.w 0 r = Sys2Proof.Machine.ctxHalf t n (Sys2Proof.Machine.numF t (p + 5)) 8 r)))
    ∧ (Sys2Proof.Claims.Quiet (Sys2Proof.Machine.lane s n) → (Sys2Proof.Machine.lane s n).prog = some p → Sys2Proof.Machine.isPlacement p = true →
      Sys2Proof.Claims.Gives (.halt n) s (fun t =>
        let x := Sys2Proof.Machine.lane s n
        let y := Sys2Proof.Machine.lane t n
        y.prog = none ∧ y.wait = [] ∧ y.cycle = x.cycle + 3
        ∧ Sys2Proof.Machine.numF t (p + 0x00E) = x.cycle + 3 - x.begun
        ∧ Sys2Proof.Machine.numF t (p + 0x00F) = Sys2Proof.Machine.numF s (p + 0x00F) + (if x.st.getLsbD 3 then 1 else 0)
        ∧ ∀ k, k < 4 → Sys2Proof.Machine.numF s (p + 5) + 3 < 0x4000 → s.sage.failed = [] →
          Sys2Proof.Machine.laneWord t n (Sys2Proof.Machine.numF s (p + 5) + k)
            = (Sys2Proof.Machine.tget x.x 0 (2 * k)).toNat + 65536 * (Sys2Proof.Machine.tget x.x 0 (2 * k + 1)).toNat))

/-- Claims.ControlSlotMoves and Claims.ProgramsStartAndEnd together. The model's choice enters it as log entries 20 and 53. -/
def Obligations.ProgramsFlowThroughTheirBundles : Prop := Sys2Proof.Claims.ControlSlotMoves ∧ Sys2Proof.Claims.ProgramsStartAndEnd

namespace Sys2Proof.Claims
open Machine

/-- What every reset leaves as State.reset has it: all but time, the draws of open values, start-up, retention RAM, values in force,
the journal, fuses, the host's memory, the fault log and boundary scan; the output balls are at high impedance (R437). -/
def LikeReset (s t : State) : Prop :=
  (∀ p, p ∉ [Part.now, .free, .boot, .aon, .force, .ver, .otp, .hostMem, .sage, .pins] → samePart State.reset t p)
  ∧ t.ver.dir = [] ∧ t.ver.journal = s.ver.journal
  ∧ t.host.keys = s.host.keys ∧ t.host.netRecs = s.host.netRecs ∧ t.host.netUse = none
  ∧ t.boot.slots = s.boot.slots ∧ t.sage = { State.reset.sage with log := t.sage.log } ∧ t.pins.highZ = true

/-- A reset that the engine starts itself (R438, R439): start-up runs again, its cause goes to retention RAM, and of the values in force only
the side and the bank supplies that were sampled at the release of RESET_N stay. -/
def RestartsFor (cause : Nat) (s t : State) : Prop :=
  LikeReset s t ∧ t.boot.step = 1 ∧ t.boot.inReset = false ∧ t.boot.testmode = s.boot.testmode
  ∧ t.aon.valid = true ∧ t.aon.cause = cause ∧ t.aon.current = s.aon.current
  ∧ numF t (pairObj + 2) = numF s (pairObj + 2)
  ∧ (∀ p, p < 48 → numF t (portObj p + 0x013) = numF s (portObj p + 0x013))
  ∧ ∀ o, o ≠ pairObj + 2 → (∀ p, p < 48 → o ≠ portObj p + 0x013) → forceVal t o = dfl o

end Sys2Proof.Claims

section
open Sys2Proof Sys2Proof.Machine Sys2Proof.Claims

/-- COLD_START, EXTERNAL_WARM_RESET, SUPPLY_MONITOR_TRIP, LOCKSTEP_RESET_TIMEOUT and BOOT_CHECK_TIMEOUT complete with their reset: memory,
sessions, versions in SRAM and every value in force go back to reset; flash, journal and fuses stay; retention RAM is lost only with VDD_AON,
and names the cause of a reset that the engine starts itself (R437 to R442, R453, R400).
The model's choice enters it as log entries 4, 5, 135 and 220. -/
def Obligations.ResetsKeepOnlyRetainedState : Prop :=
  ∀ s : State,
    Gives .coldStart s (fun t => LikeReset s t ∧ t.aon = Retained.none ∧ t.sage.log = [] ∧ t.dict.force = [] ∧ t.boot.inReset = true)
    ∧ (∀ kept, Gives (.externalWarmReset kept) s (fun t => LikeReset s t ∧ t.aon = s.aon ∧ t.boot.cause = 2 ∧ t.boot.inReset = true
        ∧ t.dict.force = [] ∧ t.sage.log = if kept then s.sage.log else []))
    ∧ (∀ rail mv ns kept, ((rail = 0 ∧ mv < 700) ∨ (rail = 1 ∧ mv < 750)) → 1000 ≤ ns → s.boot.inReset = false →
        Gives (.supplyMonitorTrip rail mv ns kept) s (fun t => RestartsFor 6 s t ∧ t.sage.log = if kept then s.sage.log else []))
    ∧ (parsleyDead s = true → Gives .lockstepResetTimeout s (fun t => RestartsFor 4 s t ∧ t.sage.log = s.sage.log))
    ∧ (s.boot.step = 2 → s.boot.pick = none → s.boot.stopped = false → s.boot.slot < 2 →
        Gives .bootCheckTimeout s (fun t => RestartsFor 5 s t ∧ bit t.aon.resetFails s.boot.slot = 1))

/-- RESET_N_RELEASE, FUSE_LOAD_DONE, FIRMWARE_LOADED and FIRMWARE_RETRY complete with their part of start-up: the side and bank supplies are
sampled, the cause of the reset is reported and the candidate of higher SEQUENCE loads, a bad signature moves to the other slot, and the
firmware takes the output balls out of high impedance and, when it sets READY, starts DRAM training (R404, R412, R437, R442, R443). -/
def Sys2Proof.Claims.StartUpLoadsFirmware : Prop :=
  ∀ s : State,
    (∀ testmode side banks, s.boot.inReset = true → Gives (.resetNRelease testmode side banks) s (fun t =>
      t.boot.step = 1 ∧ t.boot.inReset = false ∧ t.boot.testmode = testmode ∧ t.boot.side = side ∧ t.boot.since = s.now
      ∧ t.pins.highZ = s.pins.highZ
      ∧ numF t (pairObj + 2) = side % 2
      ∧ ∀ p, p < 48 → numF t (portObj p + 0x013) = bankLevel ((banks[p / 12]?).getD 0)))
    ∧ (s.boot.step = 1 → s.boot.testmode = 0 → Gives .fuseLoadDone s (fun t =>
      t.boot.step = 2 ∧ t.boot.pick = firstSlot t ∧ t.boot.stopped = (firstSlot t).isNone
      ∧ t.host.netUse = netRecord s
      ∧ ((takeCopy s.aon).valid = true → numF t (ob 0 0 0x010) = s.boot.cause ∧ numF t (ob 0 0 0x015) = (takeCopy s.aon).warm + 1
          ∧ t.sage.first = (takeCopy s.aon).first)
      ∧ ((takeCopy s.aon).valid = false → numF t (ob 0 0 0x010) = (if s.boot.cause = 0 then 0 else 1) ∧ t.aon = Retained.none)))
    ∧ (∀ k ready, s.boot.step = 2 → s.boot.pick = some k → (fwSlot s k).good = true → Gives (.firmwareLoaded ready) s (fun t =>
      t.boot.slot = k ∧ t.boot.pick = none ∧ t.pins.highZ = false ∧ numF t (ob 0 0 6) = k
      ∧ (ready = true → t.boot.step = 3 ∧ training t = true) ∧ (ready = false → t.boot.step = 2)))
    ∧ (∀ k ready, s.boot.step = 2 → s.boot.pick = some k → (fwSlot s k).good = false → Gives (.firmwareLoaded ready) s (fun t =>
      t.boot.step = 2 ∧ t.boot.pick = (if firstSlot s = some k ∧ isCandidate s (1 - k) = true then some (1 - k) else none)
      ∧ t.boot.stopped = t.boot.pick.isNone))
    ∧ (s.boot.stopped = true → Gives .firmwareRetry s (fun t =>
      t.boot.step = 2 ∧ t.boot.pick = firstSlot s ∧ t.boot.stopped = (firstSlot s).isNone))

/-- DRAM_TRAINING_STEP_END, DRAM_TRAINING_DONE, UNMUTE_START and START_UP_DONE complete: procedures follow each other, a step
that met an alert is repeated, a deferred set-point starts training again, the results are reported, a start goes on to its restore or fails,
the outlets fade in, and the time of the start is reported (R385 to R388, R400, R443, R444). -/
def Sys2Proof.Claims.StartUpTrainsAndUnmutes : Prop :=
  ∀ s : State,
    (∀ done, training s = true → (dramRt s 0).deferred = none → Gives (.dramTrainingStepEnd done) s (fun t =>
      ∀ ch, ch < 2 → numF t (dramObj ch + 7) = (if numF s (dramObj ch) = 1 ∧ done = true ∧ numF s (dramObj ch + 7) < 8
            ∧ (dramRt s ch).again ≠ 1
        then numF s (dramObj ch + 7) + 1 else numF s (dramObj ch + 7))))
    ∧ (∀ done sp, training s = true → (dramRt s 0).deferred = some sp → Gives (.dramTrainingStepEnd done) s (fun t =>
      ∀ ch, ch < 2 → numF t (dramObj ch) = 1 ∧ numF t (dramObj ch + 3) = sp ∧ numF t (dramObj ch + 7) = 1))
    ∧ (∀ rs sp, training s = true → (dramRt s 0).deferred = some sp → s.boot.step ≠ 3 → Gives (.dramTrainingDone rs) s (fun t =>
      ∀ ch, ch < 2 → numF t (dramObj ch) = 1 ∧ numF t (dramObj ch + 3) = sp ∧ numF t (dramObj ch + 7) = 1))
    ∧ (∀ r0 r1, numF s (dramObj 0) = 1 → numF s (dramObj 1) = 1 → (dramRt s 0).deferred = none → s.boot.step ≠ 3 → Gives (.dramTrainingDone [r0, r1]) s (fun t =>
      (∀ ch r, (ch = 0 ∧ r = r0) ∨ (ch = 1 ∧ r = r1) →
        (r = none → numF t (dramObj ch) = 0 ∧ numF t (dramObj ch + 1) = 0)
        ∧ (r = some none → numF t (dramObj ch) = 3)
        ∧ ∀ g, r = some (some g) → numF t (dramObj ch) = 2 ∧ numF t (dramObj ch + 1) = geometryBytes g ∧ numF t (dramObj ch + 2) = g)
      ∧ training t = false))
    ∧ (∀ g r1, numF s (dramObj 0) = 1 → numF s (dramObj 1) = 1 → s.boot.step = 3 → r1 ≠ some none → Gives (.dramTrainingDone [some (some g), r1]) s (fun t =>
      t.boot.step = 5))
    ∧ (∀ r1, numF s (dramObj 0) = 1 → s.boot.step = 3 → Gives (.dramTrainingDone [some none, r1]) s (fun t => t.boot.step = 4))
    ∧ (∀ rs, numF s (dramObj 0) = 3 → s.boot.step = 3 → Gives (.dramTrainingDone rs) s (fun t => t.boot.step = 4))
    ∧ (s.boot.step = 5 → domainsOn s = true → portsRan s = true → isFatal s = false → isOn s pairObj = false →
      Gives .unmuteStart s (fun t => t.boot.step = 6 ∧ holdsToken t = true ∧ role t = 0
        ∧ ∀ d, d < 4 → (outFade s d).dir ≠ 2 → (outFade t d).dir = 1 ∧ (outFade t d).k = 0 ∧ (outFade t d).n = domHz s d / 20))
    ∧ (s.boot.step = 6 → Gives .startUpDone s (fun t =>
      t.boot.step = 7 ∧ t.aon.resetFails = 0 ∧ numF t (ob 0 0 0x011) = (s.now - s.boot.since) / 1250000))

/-- Claims.StartUpLoadsFirmware and Claims.StartUpTrainsAndUnmutes together.
The model's choice enters it as log entries 133, 134, 136, 207 and 220. -/
def Obligations.StartUpRunsItsSteps : Prop := Sys2Proof.Claims.StartUpLoadsFirmware ∧ Sys2Proof.Claims.StartUpTrainsAndUnmutes

/-- FW_PROGRAM_DONE and FW_VERIFY_DONE complete: the written bytes stand in the image of the slot not running and FW_OFFSET moves past
them; a good signature makes the slot the next to start, a bad one leaves it without a record (R444, R445).
The model's choice enters it as log entries 10 and 49. -/
def Obligations.FirmwareUpdatesTheOtherSlot : Prop :=
  ∀ s : State,
    (∀ o b, s.boot.fwWrite = some (o, b) → o + b.length ≤ imageArea → Gives .fwProgramDone s (fun t =>
      t.boot.fwWrite = none ∧ numF t (ob 0 0 0x020) = o + b.length ∧ numF t (ob 0 0 0x023) = 0
      ∧ (∀ j v, b[j]? = some v → tget (fwSlot t (1 - s.boot.slot)).image 0 (o + j) = v)
      ∧ (∀ a, (a < o ∨ o + b.length ≤ a) →
          tget (fwSlot t (1 - s.boot.slot)).image 0 a = tget (fwSlot s (1 - s.boot.slot)).image 0 a)
      ∧ (s.boot.slot < 2 → fwSlot t s.boot.slot = fwSlot s s.boot.slot)))
    ∧ (numF s (ob 0 0 0x023) = 2 → s.boot.slot < 2 → Gives .fwVerifyDone s (fun t =>
      let x := fwSlot t (1 - s.boot.slot)
      fwSlot t s.boot.slot = fwSlot s s.boot.slot
      ∧ (Config.signatureGood (fwSlot s (1 - s.boot.slot)).image = true →
          numF t (ob 0 0 0x023) = 3 ∧ x.present = true ∧ x.good = true ∧ x.sequence = ((fwSlot s s.boot.slot).sequence + 1) % 2 ^ 32)
      ∧ (Config.signatureGood (fwSlot s (1 - s.boot.slot)).image = false →
          numF t (ob 0 0 0x023) = 4 ∧ x.present = false ∧ x.good = false)))

end

namespace Sys2Proof.Claims
open Machine

/-- An error report (R395): a new test waits at the end of the queue; of a thing under test it is merged into the waiting test, up to a
count of 255; with 64 tests waiting it is logged at once as untested. -/
def Reported (s t : State) (kind key source loc detail : Nat) : Prop :=
  (findTest s kind key = none → s.sage.queue.length < 64 → isFatal s = false →
    t.sage.queue = s.sage.queue ++ [{ kind := kind, key := key, source := source, loc := loc, detail := detail, frame := frameOf s 0, count := 1 }])
  ∧ (findTest s kind key ≠ none → t.sage.queue.length = s.sage.queue.length
      ∧ ∀ y, findTest s kind key = some y → findTest t kind key = some { y with count := Nat.min 255 (y.count + 1) })
  ∧ (findTest s kind key = none → 64 ≤ s.sage.queue.length → t.sage.queue = s.sage.queue
      ∧ numF t (faultObj + 8) = numF s (faultObj + 8) + 1)

/-- A test has ended with a log entry of a class from 0 to 2 (R402): it leaves the queue, the sequence and the counter of the class advance. -/
def EndsLogged (s t : State) (kind key cls : Nat) : Prop :=
  findTest t kind key = none ∧ numF t (faultObj + 3) = (numF s (faultObj + 3) + 1) % 2 ^ 32
  ∧ numF t (faultObj + 4 + cls) = numF s (faultObj + 4 + cls) + 1
  ∧ t.sage.log.length = Nat.min 1023 (s.sage.log.length + 1)

end Sys2Proof.Claims

section
open Sys2Proof Sys2Proof.Machine Sys2Proof.Claims

/-- LANE_RESIDUE_ERROR, CROSSPOINT_RESIDUE_ERROR, SRAM_ECC_ERROR, DRAM_SINGLE_BIT_ERROR, DRAM_UNCORRECTABLE, RSM_FRAME_ERROR and
RSM_LANE_LOCK_LOSS complete: each reports its error to the test queue, residues that agree report none, a first bad link frame is resent
instead, an uncorrectable word stays marked, in a save buffer as the word of the region that the buffer stands for, and the channels count their errors (R99,
R365, R378, R381, R395, R399, R401, R415). -/
def Sys2Proof.Claims.ErrorsReachTheTestQueue : Prop :=
  ∀ s : State,
    (∀ tl (e : ResidueCheck), tl < 16 → e.lane < 16 →
      (residueMismatch e = true → Gives (.laneResidueError tl e) s (fun t =>
        Reported s t 3 (16 * tl + e.lane) 6 (laneLocOf s tl e.lane e.program) e.cycle ∧ t.lanes = s.lanes))
      ∧ (residueMismatch e = false → exec (.laneResidueError tl e) s = .next s))
    ∧ (∀ mac row, Gives (.crosspointResidueError mac row) s (fun t => Reported s t 5 mac 8 mac row ∧ t.audio = s.audio))
    ∧ (∀ r detail, standsFor s r = none →
      Gives (.sramEccError r detail false) s (fun t => Reported s t 1 r 1 r detail ∧ t.sage.poison = s.sage.poison)
      ∧ Gives (.sramEccError r detail true) s (fun t => Reported s t 1 r 2 r detail
        ∧ (s.sage.failed.any (fun e => e.1 == r) = false → ∀ h, h < 2 → 64 * r + 2 * bits detail 20 16 + h ∈ t.sage.poison)))
    ∧ (∀ r detail q, standsFor s r = some q →
      exec (.sramEccError r detail false) s = .next s
      ∧ Gives (.sramEccError r detail true) s (fun t => t.sage.queue = s.sage.queue ∧ t.sage.log.length = Nat.min 1023 (s.sage.log.length + 1)
        ∧ (s.sage.failed.any (fun e => e.1 == q) = false → ∀ h, h < 2 → 64 * q + 2 * bits detail 20 16 + h ∈ t.sage.poison)))
    ∧ (∀ ch off detail, ch < 2 →
      Gives (.dramSingleBitError ch off detail) s (fun t =>
        Reported s t 2 (2 * rowKey s ch off + ch) 3 (burstLoc s ch off) detail
        ∧ numF t (dramObj ch + 0x020) = numF s (dramObj ch + 0x020) + 1
        ∧ ((dramRt s ch).rowTest ≠ some (rowKey s ch off) → (dramRt s ch).backs.length < 64 →
            (dramRt t ch).backs = (dramRt s ch).backs ++ [off / 64]))
      ∧ Gives (.dramUncorrectable ch off detail) s (fun t =>
        Reported s t 2 (2 * rowKey s ch off + ch) 4 (burstLoc s ch off) detail
        ∧ numF t (dramObj ch + 0x021) = numF s (dramObj ch + 0x021) + 1
        ∧ off / 8 ∈ (dramRt t ch).bad))
    ∧ (∀ f, (f ∉ s.pair.resent → Gives (.rsmFrameError f) s (fun t => f ∈ t.pair.resent ∧ OnlyParts [.pair] s t))
      ∧ (f ∈ s.pair.resent → Gives (.rsmFrameError f) s (fun t => Reported s t 6 0 0x0B 0 0 ∧ f ∉ t.pair.resent)))
    ∧ (∀ l, l < 4 → Gives (.rsmLaneLockLoss l) s (fun t => Reported s t 6 0 0x0B 0 0 ∧ t.pair = s.pair))

/-- KNOWN_ANSWER_TEST_END, SPARE_PIPELINE_TEST, CROSSPOINT_TEST_END, COMMAND_BUS_TEST_END, DRAM_ROW_TEST_END and LINK_TEST_END complete: a
test ends with its log entry, a lasting lane fault takes the cluster's spare or faults the tile, a failed spare is retired, a failed MAC
retires and the twelfth is FATAL, lanes with bit errors leave the link, which is due in FAULTED with fewer than two left; tests at a DRAM channel end
only when their beats have moved (R100 to R104, R383, R384, R394, R399, R415). -/
def Sys2Proof.Claims.TestsEndInTheLog : Prop :=
  ∀ s : State,
    (∀ tl l x, tl < 16 → l < 16 → findTest s 3 (16 * tl + l) = some x →
      Gives (.knownAnswerTestEnd tl l true) s (fun t => EndsLogged s t 3 (16 * tl + l) 1 ∧ t.sage.moves = s.sage.moves)
      ∧ (numF s (repairObj tl + l / 4) = 0 → Gives (.knownAnswerTestEnd tl l false) s (fun t =>
          EndsLogged s t 3 (16 * tl + l) 2 ∧ 16 * tl + l ∈ t.sage.moves ∧ numF t (repairObj tl + l / 4) = 1))
      ∧ (numF s (repairObj tl + l / 4) ≠ 0 → Gives (.knownAnswerTestEnd tl l false) s (fun t =>
          EndsLogged s t 3 (16 * tl + l) 2 ∧ ob 9 (0x100 + tl) 0 ∈ t.sage.faults)))
    ∧ (∀ tl c, tl < 16 → c < 4 → numF s (repairObj tl + c) = 0 → Gives (.sparePipelineTest tl c false) s (fun t =>
        numF t (repairObj tl + c) = 2 ∧ numF t (faultObj + 6) = numF s (faultObj + 6) + 1))
    ∧ (∀ mac x, mac < 64 → findTest s 5 mac = some x →
      Gives (.crosspointTestEnd mac true) s (fun t => EndsLogged s t 5 mac 1 ∧ t.sage.retired = s.sage.retired)
      ∧ (mac ∉ s.sage.retired → s.sage.retired.length < 11 → Gives (.crosspointTestEnd mac false) s (fun t =>
          EndsLogged s t 5 mac 2 ∧ mac ∈ t.sage.retired ∧ t.sage.retiring = s.sage.retiring + 1))
      ∧ (mac ∉ s.sage.retired → 11 ≤ s.sage.retired.length → Gives (.crosspointTestEnd mac false) s (fun t => isFatal t = true)))
    ∧ (∀ ch pass x, ch < 2 → findTest s 4 ch = some x → (dramRt s ch).busLeft = 0 → Gives (.commandBusTestEnd ch pass) s (fun t =>
        EndsLogged s t 4 ch (if pass then 1 else 2)))
    ∧ (∀ ch pass, ch < 2 → (dramRt s ch).busLeft ≠ 0 → exec (.commandBusTestEnd ch pass) s = .next s)
    ∧ (∀ ch pass, ch < 2 → (dramRt s ch).rowLeft ≠ 0 → exec (.dramRowTestEnd ch pass) s = .next s)
    ∧ (∀ ch pass row x, ch < 2 → (dramRt s ch).rowTest = some row → (dramRt s ch).rowLeft = 0 → findTest s 2 (2 * row + ch) = some x →
      Gives (.dramRowTestEnd ch pass) s (fun t =>
        EndsLogged s t 2 (2 * row + ch) (if pass then passClass x.source else 2)
        ∧ (dramRt t ch).rowTest = none ∧ numF t (dramObj ch + 0x027) = numF s (dramObj ch + 0x027) + 1))
    ∧ (∀ x, findTest s 6 0 = some x →
      Gives (.linkTestEnd []) s (fun t => EndsLogged s t 6 0 1 ∧ t.pair = s.pair)
      ∧ ∀ l r, let left := numF s (pairObj + 0x00C) - ((sortUp (l :: r)).filter (fun y => !(s.pair.lanesOut.contains y))).length
        Gives (.linkTestEnd (l :: r)) s (fun t =>
          EndsLogged s t 6 0 2 ∧ numF t (pairObj + 0x00C) = left ∧ numF t (arbObj 9 + 1) = left * 875 / 10
          ∧ (left < 2 → unitState s pairObj ≠ 0 → pairObj ∈ t.sage.faults)
          ∧ (2 ≤ left → t.sage.faults = s.sage.faults)
          ∧ unitState t pairObj = unitState s pairObj))

/-- Claims.ErrorsReachTheTestQueue and Claims.TestsEndInTheLog together.
The model's choice enters it as log entries 81, 82, 84 and 89. -/
def Obligations.ErrorsAreTestedAndLogged : Prop := Sys2Proof.Claims.ErrorsReachTheTestQueue ∧ Sys2Proof.Claims.TestsEndInTheLog

/-- SRAM_TEST_END completes: a region that passes leaves its save buffer, a lasting fault takes one of the four spare rows of its macro, and
without one the region fails and its tile is stopped (R364, R395, R397, R398).
The model's choice enters it as log entries 40, 41 and 42. -/
def Obligations.SramFaultsTakeSpareRows : Prop :=
  ∀ (s : State) (r : Nat) (x : Test), r ∈ underTest s → findTest s 1 r = some x →
    (∀ owner, Gives (.sramTestEnd r none owner) s (fun t =>
      EndsLogged s t 1 r (passClass x.source) ∧ r ∉ underTest t ∧ t.sage.spares = s.sage.spares ∧ t.sage.failed = s.sage.failed))
    ∧ (∀ d owner, sparesUsed s r < 4 → Gives (.sramTestEnd r (some d) owner) s (fun t =>
      EndsLogged s t 1 r 2 ∧ r ∉ underTest t ∧ t.sage.spares = s.sage.spares ++ [(r, sparesUsed s r)] ∧ t.sage.failed = s.sage.failed))
    ∧ (∀ d owner k, 4 ≤ sparesUsed s r → regionTile r = some k → k < 16 → owner ≠ 0 → unitState s (ob 9 (0x100 + k) 0) ≠ 0 →
      Gives (.sramTestEnd r (some d) owner) s (fun t =>
        EndsLogged s t 1 r 2 ∧ r ∉ underTest t ∧ t.sage.failed = s.sage.failed ++ [(r, ob 9 (0x100 + k) 0)]
        ∧ (∀ h ∈ t.sage.poison, h / 64 ≠ r)
        ∧ numF t (faultObj + 0x00B) = numF s (faultObj + 0x00B) + 1
        ∧ ob 9 (0x100 + k) 0 ∈ t.sage.faults))

/-- LOCKSTEP_MISMATCH, JTAG_INSTRUCTION_LOAD, FULL_TEST_DONE, DIE_TEMP_UPDATE and LANE_BUDGET_STOP complete: FATAL with its source and
the fades of every domain, boundary scan that takes the balls is FATAL out of reset, the result of the full test, the temperature with its
peak and its two crossings, a lane stopped at its budget with nothing left on it unless all its programs had ended, and a boundary register of 1,014 cells (R49, R128, R400, R405, R411,
R461).
The model's choice enters it as log entries 43 and 121. -/
def Obligations.FatalErrorsAndStops : Prop :=
  ∀ s : State,
    (∀ pc, Gives (.lockstepMismatch pc) s (fun t => isFatal t = true
      ∧ parsleyDead t = true
      ∧ (isFatal s = false → numF t (faultObj + 1) = 0x0C ∧ t.sage.fadeDue = [0, 1, 2, 3])))
    ∧ (∀ op, op < 64 → Gives (.jtagInstructionLoad op) s (fun t =>
        t.pins.jtag = op ∧ (t.pins.jtagIso = true ↔ 3 ≤ op ∧ op ≤ 5)
        ∧ (3 ≤ op → op ≤ 5 → s.boot.inReset = false → isFatal t = true)
        ∧ ((op < 3 ∨ 5 < op ∨ s.boot.inReset = true) → isFatal t = isFatal s)))
    ∧ (∀ pass, numF s (faultObj + 0x012) = 1 → Gives (.fullTestDone pass) s (fun t =>
        numF t (faultObj + 0x012) = if pass then 2 else 3))
    ∧ (∀ c : Int, Gives (.dieTempUpdate c) s (fun t =>
        numF t (ob 0 0 0x030) = wrapTo 32 c
        ∧ (signedOf 32 (numF s (ob 0 0 0x031)) < c → numF t (ob 0 0 0x031) = wrapTo 32 c)
        ∧ (c ≤ signedOf 32 (numF s (ob 0 0 0x031)) → numF t (ob 0 0 0x031) = numF s (ob 0 0 0x031))
        ∧ (1050 < c → t.pins.tempHigh = true) ∧ (c < 1000 → t.pins.tempHigh = false)
        ∧ (1000 ≤ c → c ≤ 1050 → t.pins.tempHigh = s.pins.tempHigh)))
    ∧ (∀ tl l ph, tl < 16 → l < 16 → (lane s (16 * tl + l)).phase = some ph → (lane s (16 * tl + l)).prog = none → (lane s (16 * tl + l)).todo = [] →
        exec (.laneBudgetStop tl l ph) s = .next s)
    ∧ (∀ tl l ph, tl < 16 → l < 16 →
        ((lane s (16 * tl + l)).phase ≠ some ph ∨ (lane s (16 * tl + l)).prog ≠ none ∨ (lane s (16 * tl + l)).todo ≠ []) →
        Gives (.laneBudgetStop tl l ph) s (fun t =>
        let y := lane t (16 * tl + l)
        y.wait = [] ∧ y.stores = [] ∧ y.loops = [] ∧ y.prog = none ∧ y.todo = [] ∧ y.stopped = true
        ∧ (∀ m, m ≠ 16 * tl + l → lane t m = lane s m) ∧ t.mem = s.mem
        ∧ numF t (ob 9 (0x100 + tl) 0x015) = numF s (ob 9 (0x100 + tl) 0x015) + 1
        ∧ y.spent = laneBudget (frameLen s == 1) (rateClass (domRate s (tileDom s tl))) ph
        ∧ Reported s t 3 (16 * tl + l) 7 (laneLoc s tl l) y.spent))
    ∧ boundaryRegister.length = 1014

end

section
open Sys2Proof Sys2Proof.Machine Sys2Proof.Claims

/-- DRAM_REFRESH, DRAM_PARITY_ALERT and DRAM_ALERT_RELEASE complete in every state: a refresh due under an alert is postponed, at most 8,
else it is issued and enters the retry buffer; an alert stops a channel that is READY and is counted, in training the step is marked to be
repeated, and without either STATUS the channel has none; its release replays the failing command, the fourth replay of one command fails
instead, and nothing waits any longer (R370, R382, R383, R388). -/
def Sys2Proof.Claims.ParityAlertsReplay : Prop :=
  ∀ (s : State) (ch : Nat), ch < 2 →
    (numF s (dramObj ch) = 2 → (dramRt s ch).alert = true → Gives (.dramRefresh ch) s (fun t =>
      (dramRt t ch).postponed = Nat.min 8 ((dramRt s ch).postponed + 1) ∧ OnlyParts [.dram] s t))
    ∧ (numF s (dramObj ch) = 2 → (dramRt s ch).alert = false → Gives (.dramRefresh ch) s (fun t =>
      (dramRt t ch).next = (dramRt s ch).next + 1 ∧ (dramRt t ch).buffer.length = Nat.min 64 ((dramRt s ch).buffer.length + 1)
      ∧ t.free = s.free + 1 ∧ t.mem = s.mem))
    ∧ (numF s (dramObj ch) ≠ 2 → exec (.dramRefresh ch) s = .next s)
    ∧ (numF s (dramObj ch) = 2 → Gives (.dramParityAlert ch) s (fun t => (dramRt t ch).alert = true
      ∧ numF t (dramObj ch + 0x022) = numF s (dramObj ch + 0x022) + 1 ∧ t.mem = s.mem))
    ∧ (numF s (dramObj ch) = 1 → Gives (.dramParityAlert ch) s (fun t =>
      numF t (dramObj ch + 0x022) = numF s (dramObj ch + 0x022) + 1 ∧ t.mem = s.mem
      ∧ ((dramRt s ch).again = 0 → dramRt t ch = { dramRt s ch with again := 1 })
      ∧ ((dramRt s ch).again ≠ 0 → (dramRt s ch).repeated = false → (dramRt t ch).repeated = true ∧ numF t (dramObj ch) = 1)
      ∧ ((dramRt s ch).again ≠ 0 → (dramRt s ch).repeated = true → numF t (dramObj ch) = 3)))
    ∧ (numF s (dramObj ch) ≠ 1 → numF s (dramObj ch) ≠ 2 → exec (.dramParityAlert ch) s = .next s)
    ∧ ((dramRt s ch).alert = false → ∀ f, exec (.dramAlertRelease ch f) s = .next s)
    ∧ ((dramRt s ch).alert = true →
      (∀ p c, numF s (dramObj ch) ≠ 1 → (dramRt s ch).buffer[p]? = some c → (∀ n, (dramRt s ch).suspect = some (c.no, n) → n < 3) →
        Gives (.dramAlertRelease ch (some p)) s (fun t => (dramRt t ch).alert = false ∧ (dramRt t ch).waiting = []
          ∧ (dramRt t ch).postponed = 0 ∧ ((dramRt s ch).waiting = [] → t.mem = s.mem)
          ∧ numF t (dramObj ch + 0x023) = numF s (dramObj ch + 0x023) + 1))
      ∧ (∀ p c n, numF s (dramObj ch) ≠ 1 → (dramRt s ch).buffer[p]? = some c → (dramRt s ch).suspect = some (c.no, n) → 3 ≤ n →
        Gives (.dramAlertRelease ch (some p)) s (fun t => (dramRt t ch).alert = false ∧ (dramRt t ch).waiting = [] ∧ (dramRt t ch).suspect = none
          ∧ numF t (dramObj ch + 0x024) = numF s (dramObj ch + 0x024) + 1))
      ∧ (numF s (dramObj ch) ≠ 1 → Gives (.dramAlertRelease ch none) s (fun t => (dramRt t ch).alert = false ∧ (dramRt t ch).waiting = []
          ∧ (dramRt t ch).suspect = none ∧ numF t (dramObj ch + 0x024) = numF s (dramObj ch + 0x024) + 1)))

/-- DRAM_WRITE_BACK and BUDGET_COUNTER_EXHAUSTED complete in every state: the oldest write-back leaves the queue and costs 4 beats of patrol
scrub, and nothing changes with none waiting, on a stopped channel, or where no domain's scrub has 4 beats left; an enabled entry whose beats are used up counts the frame once, and an entry not enabled has no
counter (R42, R43, R47, R48, R381). -/
def Sys2Proof.Claims.BeatsAreCounted : Prop :=
  ∀ s : State,
    (∀ ch, ch < 2 → ((dramRt s ch).backs = [] ∨ channelStopped s ch = true ∨ (∀ d, d < 4 → beatsLeft s 0x27 ch d < 4)) →
      exec (.dramWriteBack ch) s = .next s)
    ∧ (∀ ch b r d, ch < 2 → d < 4 → (dramRt s ch).backs = b :: r → channelStopped s ch = false →
      4 ≤ beatsLeft s 0x27 ch d → (∀ c, c < d → beatsLeft s 0x27 ch c < 4) →
      Gives (.dramWriteBack ch) s (fun t => (dramRt t ch).backs = r ∧ beatsLeft t 0x27 ch d + 4 = beatsLeft s 0x27 ch d ∧ t.mem = s.mem
        ∧ ∀ e, entryFor s 0x27 ch d = some e → (budgetRt t e).used = (budgetRt s e).used + 4))
    ∧ (∀ e, (256 ≤ e ∨ tableRestored s = false ∨ isOn s (entryObj e) = false) → exec (.budgetCounterExhausted e) s = .next s)
    ∧ (∀ e, e < 256 → tableRestored s = true → isOn s (entryObj e) = true → Gives (.budgetCounterExhausted e) s (fun t =>
      (budgetRt t e).count = 0 ∧ (budgetRt t e).used = (budgetRt s e).used + (budgetRt s e).count ∧ (budgetRt t e).hitZero = true
      ∧ ((budgetRt s e).hitZero = false → numF t (entryObj e + 9) = numF s (entryObj e + 9) + 1)
      ∧ ((budgetRt s e).hitZero = true → numF t (entryObj e + 9) = numF s (entryObj e + 9))
      ∧ ∀ k, k ≠ e → budgetRt t k = budgetRt s k))

/-- Claims.ParityAlertsReplay and Claims.BeatsAreCounted together. The model's choice enters it as log entries 79 and 80. -/
def Obligations.DramAlertsReplayAndBeatsCount : Prop := Sys2Proof.Claims.ParityAlertsReplay ∧ Sys2Proof.Claims.BeatsAreCounted

end

section
open Sys2Proof Sys2Proof.Machine Sys2Proof.Claims

/-- MODE_VALIDATION_END and MODE_FADE_OUT_END complete: a target that validates, and SERVICE, go to FADE_OUT armed for the next tick of CD0;
one that does not ends the transition with its status; and once the outlets are silent RECONFIGURE begins (R69, R71, R73, R75). -/
def Sys2Proof.Claims.TransitionsValidateAndFade : Prop :=
  ∀ s : State,
    (numF s (modeObj + 4) = 1 →
      ((s.mode.target = 6 ∨ (validate s (adapt s s.mode.target s.mode.rate).1 (adapt s s.mode.target s.mode.rate).2).2 = none) →
        Gives .modeValidationEnd s (fun t => numF t (modeObj + 4) = 2 ∧ t.mode.armed = true ∧ t.mode.target = s.mode.target
          ∧ t.mode.rate = s.mode.rate))
      ∧ (∀ f, s.mode.target ≠ 6 → (validate s (adapt s s.mode.target s.mode.rate).1 (adapt s s.mode.target s.mode.rate).2).2 = some f →
        Gives .modeValidationEnd s (fun t => numF t (modeObj + 4) = 0 ∧ numF t (modeObj + 5) = f.1 ∧ t.mode = s.mode)))
    ∧ (numF s (modeObj + 4) = 2 → Gives .modeFadeOutEnd s (fun t => numF t (modeObj + 4) = 3 ∧ t.mode.armed = false
        ∧ t.audio.fades = [] ∧ numF t modeObj = numF s modeObj))

/-- MODE_RECONFIGURE_END, MODE_FADE_IN_START and MODE_FADE_IN_END complete: the new mode and rate are in force and RESTORE begins, on a
standby as its partner's, or SERVICE is entered without one; the outlets fade in over 50 ms; the transition ends with status OK, is counted,
and makes the next version (R63, R73 to R75, R218). -/
def Sys2Proof.Claims.TransitionsRestoreAndFadeIn : Prop :=
  ∀ s : State,
    (numF s (modeObj + 4) = 3 → s.mode.target ≠ 6 → modeNow s ≠ 5 → (∀ v ∈ s.ver.dir, v.mode ≠ 5) → Gives .modeReconfigureEnd s (fun t =>
        numF t (modeObj + 4) = 4 ∧ numF t modeObj = s.mode.target ∧ numF t (modeObj + 1) = s.mode.rate))
    ∧ (numF s (modeObj + 4) = 3 → s.mode.target ≠ 6 → modeNow s = 5 → Gives .modeReconfigureEnd s (fun t =>
        numF t (modeObj + 4) = 4 ∧ modeNow t = 5 ∧ numF t (modeObj + 1) = s.mode.rate
        ∧ ∀ p, s.pair.partner = some p → resourceMode t = s.mode.target))
    ∧ (numF s (modeObj + 4) = 3 → s.mode.target = 6 → role s ≠ 2 → Gives .modeReconfigureEnd s (fun t =>
        numF t (modeObj + 4) = 0 ∧ numF t modeObj = 6 ∧ numF t (modeObj + 1) = 1 ∧ numF t (modeObj + 5) = 0
        ∧ numF t (modeObj + 8) = numF s (modeObj + 8) + 1))
    ∧ (numF s (modeObj + 4) = 4 → portsRan s = true → isFatal s = false → Gives .modeFadeInStart s (fun t =>
        numF t (modeObj + 4) = 5
        ∧ ∀ d, d < 4 → (outFade s d).dir ≠ 2 → outFade t d = { dir := 1, k := 0, n := domHz s d / 20 }))
    ∧ (numF s (modeObj + 4) = 5 → Gives .modeFadeInEnd s (fun t =>
        numF t (modeObj + 4) = 0 ∧ numF t (modeObj + 5) = 0 ∧ numF t (modeObj + 8) = numF s (modeObj + 8) + 1
        ∧ currentVersion t = currentVersion s + 1 ∧ t.aon.current = currentVersion s + 1
        ∧ (match t.ver.dir with | v :: _ => v.number = currentVersion s + 1 ∧ v.kind = 3 ∧ v.parent = currentVersion s | [] => False)))

/-- Claims.TransitionsValidateAndFade and Claims.TransitionsRestoreAndFadeIn together.
The model's choice enters it as log entries 111, 112, 113, 114 and 116. -/
def Obligations.TransitionsRunTheirSteps : Prop := Sys2Proof.Claims.TransitionsValidateAndFade ∧ Sys2Proof.Claims.TransitionsRestoreAndFadeIn

end

section
open Sys2Proof Sys2Proof.Machine Sys2Proof.Claims

/-- RSM_LINK_UP completes: the partner of the other letter is taken, and the CD0 tick that finds it takes the link to ON, names the partner and gives
the roles of R418: of two sides without token A takes it unless it is FATAL (R400) and fades its outlets in, a side that holds it stays active
against a partner without it, A wins when both hold it, and the other side becomes standby; two sides of one letter do not join (R414, R418). -/
def Obligations.SidesJoinByRole : Prop :=
  ∀ (s : State) (p : LinkPeer), unitState s pairObj = 1 →
    (p.side = sideOf s → Gives (.rsmLinkUp p) s (fun t => unitState t pairObj = 1 ∧ role t = role s ∧ t.pair = s.pair))
    ∧ (p.side ≠ sideOf s → Gives (.rsmLinkUp p) s (fun t => t.pair = { s.pair with linkUp := some p } ∧ OnlyParts [.pair] s t))
    ∧ (s.pair.linkUp = some p → ∀ t, t = linkTick s →
        unitState t pairObj = 2 ∧ t.pair.partner = some p ∧ numF t (pairObj + 0x00B) = p.dieId ∧ t.pair.joinWait = false
        ∧ t.pair.linkUp = none
        ∧ (isFatal s = true ∧ holdsToken s = false ∧ p.token = false ∧ sideOf s = 0 → holdsToken t = false ∧ role t = role s)
        ∧ (holdsToken s = true ∨ p.token = true ∨ sideOf s ≠ 0 ∨ isFatal s = false → numF t (pairObj + 4) = 1)
        ∧ ((holdsToken s = true ∧ (sideOf s = 0 ∨ p.token = false)) ∨ (isFatal s = false ∧ holdsToken s = false ∧ p.token = false ∧ sideOf s = 0) →
            role t = 1 ∧ holdsToken t = true)
        ∧ (isFatal s = false ∧ holdsToken s = false ∧ p.token = false ∧ sideOf s = 0 → ∀ d, d < 4 → outFade t d = { dir := 1, k := 0, n := 32 })
        ∧ (holdsToken s = true ∧ sideOf s ≠ 0 ∧ p.token = true → t.pair.giving = true ∧ holdsToken t = true)
        ∧ (holdsToken s = false ∧ (p.token = true ∨ sideOf s ≠ 0) → role t = 2 ∧ holdsToken t = false ∧ t.pair.toStandby = true))

/-- EXPORT_ITEM_RECEIVED, EXPORT_ACK_RECEIVED and FILLING_END complete: the last item of an export that has come whole and in time
renews what the standby knows of the lease and ends COPYING; one that is late or out of its place renews nothing; an item of the state is written;
the acknowledgement of the present period renews the lease to P + L and takes what was sent as known; the filled standby is in step (R419 to R424). -/
def Sys2Proof.Claims.ExportsRenewTheLease : Prop :=
  ∀ s : State,
    (∀ f x, role s = 2 → linkOn s = true → frameOf s 0 ≤ f + 2 →
      Gives (.exportItemReceived { frame := f, no := nextItem s f, data := none, last := true, expiry := x, handover := none }) s (fun t =>
        t.pair.leaseX = x ∧ t.pair.gotPeriod = some (frameOf s 0)
        ∧ (numF s (pairObj + 4) = 1 → numF t (pairObj + 4) = 2) ∧ (numF s (pairObj + 4) ≠ 1 → numF t (pairObj + 4) = numF s (pairObj + 4))))
    ∧ (∀ f k x o r, role s = 2 → linkOn s = true →
      Gives (.exportItemReceived { frame := f, no := k, data := some (.auto o r), last := false, expiry := x, handover := none }) s (fun t =>
        tget t.audio.auto AutoRt.rest o = r ∧ t.pair = { s.pair with arriving := t.pair.arriving } ∧ OnlyParts [.pair, .audio] s t))
    ∧ (∀ f k x h, role s = 2 → linkOn s = true → (f + 2 < frameOf s 0 ∨ k ≠ nextItem s f) →
      Gives (.exportItemReceived { frame := f, no := k, data := none, last := true, expiry := x, handover := h }) s (fun t =>
        t.pair = { s.pair with arriving := t.pair.arriving } ∧ OnlyParts [.pair] s t))
    ∧ (∀ p, role s = 1 → linkOn s = true → isFatal s = false → p = frameOf s 0 → s.pair.ackPeriod ≠ some p →
      Gives (.exportAckReceived p) s (fun t =>
        t.pair.ackPeriod = some p ∧ t.pair.leaseX = p + leaseLen s ∧ t.pair.records = []
        ∧ t.pair.seen = seenItems s ∧ t.pair.queue = restQueue s
        ∧ numF t (pairObj + 0x010) = numF s (pairObj + 0x010) + 1
        ∧ (numF s (pairObj + 4) = 1 → numF t (pairObj + 4) = 2) ∧ (numF s (pairObj + 4) ≠ 1 → numF t (pairObj + 4) = numF s (pairObj + 4))))
    ∧ (numF s (pairObj + 4) = 2 → Gives .fillingEnd s (fun t => numF t (pairObj + 4) = 3 ∧ numF t (pairObj + 0x00D) = 0))

/-- LEASE_EXPIRED, STANDBY_TAKEOVER, ORPHAN_TAKE_TOKEN, RELEASE_NOTICE_RECEIVED and JOIN_WAIT_EXPIRED complete: the active side without
a renewal gives its outputs up, the standby takes them at X + 1 unless its partner still drives, an orphan takes a free token, and a side
hears its partner's notice (R417, R425 to R427, R431). The model's choice enters it as log entries 86 and 91. -/
def Obligations.TokenChangesHands : Prop :=
  ∀ s : State,
    (role s = 1 → holdsToken s = true → s.pair.leaseX ≠ 0 → s.pair.leaseX ≤ frameOf s 0 + 1 → leaseHeld s = false →
      Gives .leaseExpired s (fun t => holdsToken t = false ∧ role t = 3 ∧ t.pair.offAt = frameOf s 0))
    ∧ (role s = 1 → frameOf s 0 + 1 < s.pair.leaseX → Gives .leaseExpired s (fun t => t = s))
    ∧ (role s = 2 → s.pair.leaseX ≠ 0 → s.pair.leaseX + 1 ≤ frameOf s 0 → leaseHeld s = false →
      (isOn s (pairObj + 0x00A) = false → Gives .standbyTakeover s (fun t =>
        holdsToken t = true ∧ role t = 0 ∧ numF t (pairObj + 4) = 0
        ∧ numF t (pairObj + 0x015) = numF s (pairObj + 0x015) + 1
        ∧ (∀ p, s.pair.partner = some p → modeNow t = p.mode)
        ∧ ∀ d, d < 4 → outFade t d = { dir := 1, k := 0, n := 32 }))
      ∧ (isOn s (pairObj + 0x00A) = true → Gives .standbyTakeover s (fun t => role t = 2 ∧ t.pins = s.pins)))
    ∧ (role s = 3 → modeNow s ≠ 6 → (if sideOf s = 0 then 4 else 6) ≤ s.pair.peerHigh → s.pair.joinWait = false → isFatal s = false →
      7 ≤ s.boot.step → Gives .orphanTakeToken s (fun t =>
        holdsToken t = true ∧ role t = 0 ∧ numF t (pairObj + 0x015) = numF s (pairObj + 0x015) + 1
        ∧ numF t (pairObj + 0x016) = (frameOf s 0 - s.pair.offAt) % 65536))
    ∧ (holdsToken s = true → Gives .releaseNoticeReceived s (fun t => role t = 0 ∧ holdsToken t = true))
    ∧ (holdsToken s = false → role s = 2 → Gives .releaseNoticeReceived s (fun t => t.pair.toService = true ∧ OnlyParts [.pair] s t))
    ∧ Gives .joinWaitExpired s (fun t => t.pair = { s.pair with joinWait := false } ∧ OnlyParts [.pair] s t)

/-- CONFIG_RECORD_RECEIVED completes at a standby: a copy begins COPYING and drops its own commit, the notice of a transition starts it here
too, staged members reach the bank, values of no domain are in force at once, a scheduled commit lands at the samples of the record, a DISCARD
empties the bank and a CANCEL ends the commit (R75, R205, R419, R431). -/
def Sys2Proof.Claims.StandbyTakesRecords : Prop :=
  ∀ s : State, role s = 2 → linkOn s = true →
    (∀ r : ConfigRecord, r.what = .copy → Gives (.configRecordReceived r) s (fun t => numF t (pairObj + 4) = 1 ∧ t.commit = none))
    ∧ (∀ (r : ConfigRecord) m rate, r.what = .notice m rate →
        (inTransition s = false → Gives (.configRecordReceived r) s (fun t => numF t (modeObj + 4) = 1 ∧ t.mode.target = m ∧ t.mode.rate = rate))
        ∧ (inTransition s = true → exec (.configRecordReceived r) s = .next s))
    ∧ (∀ o v n h, Gives (.configRecordReceived { what := .values, version := n, head := h, rates := [], frames := [], values := [], staged := [(o, v)], land := [] }) s
        (fun t => bankVal t o = some v ∧ t.dict.force = s.dict.force))
    ∧ (∀ o v n h, noDomain o = true →
        Gives (.configRecordReceived { what := .values, version := n, head := h, rates := [], frames := [], values := [(o, v)], staged := [], land := [] }) s
          (fun t => forceVal t o = v ∧ t.dict.bank = s.dict.bank))
    ∧ (∀ r : ConfigRecord, r.what = .discard → Gives (.configRecordReceived r) s (fun t => t.dict.bank = [] ∧ t.dict.factory = false ∧ t.commit = s.commit))
    ∧ (∀ r : ConfigRecord, r.what = .cancel → commitState s = 2 → s.commit.isSome = true → r.staged = [] → Gives (.configRecordReceived r) s (fun t =>
        t.commit = none ∧ commitState t = 0))
    ∧ (∀ vs n l h, Gives (.configRecordReceived { what := .commit, version := n, head := h, rates := [], frames := [], values := vs, staged := [], land := l }) s
        (fun t => commitState t = 2 ∧ numF t (commitObj + 6) = n
          ∧ (match t.commit with | some p => p.number = n ∧ p.set = vs | none => False)))

/-- Claims.ExportsRenewTheLease and Claims.StandbyTakesRecords together.
The model's choice enters it as log entries 85 and 115. -/
def Obligations.StandbyFollowsTheActiveSide : Prop := Sys2Proof.Claims.ExportsRenewTheLease ∧ Sys2Proof.Claims.StandbyTakesRecords

end

section
open Sys2Proof Sys2Proof.Machine Sys2Proof.Claims

/-- DOMAIN_FREE_RUN_TIMEOUT, DPLL_LOCKED and DPLL_SLEW_DONE complete: a domain without a reference for 1 s runs free and ticks, a lock ends
ACQUIRING within 100 ppm of nominal and 100 ns and starts a domain that waited for it, a slew that has removed the phase and stands at the
reference's frequency goes back to ACQUIRING, one that has not goes on (R276, R277, R281, R285). -/
def Sys2Proof.Claims.DomainsStartAndLock : Prop :=
  ∀ (s : State) (d : Nat), d < 4 →
    (followsPeer s = false → numF s (ob 2 d 1) = 1 → (numF s (ob 2 d 0x10) = 15 ∨ numF s (ob 2 d 0x10) = 7) → Gives (.domainFreeRunTimeout d) s (fun t =>
      numF t (ob 2 d 1) = 2 ∧ (dom t d).running = true ∧ numF t (ob 2 d 0x10) = 7 ∧ numF t (ob 2 d 0x11) = 0
      ∧ ((dom t d).wasSel = true ↔ numF s (ob 2 d 0x10) = 7)))
    ∧ (followsPeer s = false → numF s (ob 2 d 0x11) = 1 → Gives (.dpllLocked d) s (fun t =>
      numF t (ob 2 d 0x11) = 2 ∧ (dom t d).holdFreq = heldFreq (refOffset s d (numF s (ob 2 d 0x10)))
      ∧ numF t (ob 2 d 0x12) = wrapTo 32 (heldFreq (refOffset s d (numF s (ob 2 d 0x10)))) ∧ (dom t d).lockAt = s.now
      ∧ numF t (ob 2 d 0x10) = numF s (ob 2 d 0x10) ∧ (dom t d).slew = 0
      ∧ -100 ≤ signedOf 32 (numF t (ob 2 d 0x13)) ∧ signedOf 32 (numF t (ob 2 d 0x13)) ≤ 100
      ∧ (numF s (ob 2 d 1) = 1 → numF t (ob 2 d 1) = 2 ∧ (dom t d).running = true)
      ∧ (numF s (ob 2 d 1) ≠ 1 → numF t (ob 2 d 1) = numF s (ob 2 d 1))))
    ∧ (numF s (ob 2 d 0x11) = 4 →
      (freqOf s d = heldFreq (refOffset s d (numF s (ob 2 d 0x10))) → (dom s d).slew.natAbs ≤ frameCycles s d →
        Gives (.dpllSlewDone d) s (fun t =>
          numF t (ob 2 d 0x11) = 1 ∧ numF t (ob 2 d 0x13) = 0 ∧ (dom t d).slew = 0
          ∧ ∀ o, o ≠ ob 2 d 0x11 → o ≠ ob 2 d 0x13 → forceVal t o = forceVal s o))
      ∧ (freqOf s d ≠ heldFreq (refOffset s d (numF s (ob 2 d 0x10))) ∨ frameCycles s d < (dom s d).slew.natAbs →
        exec (.dpllSlewDone d) s = .next s))

/-- REFERENCE_EDGE_MISSING, REFERENCE_GLITCH, GLITCH_HOLD_END, REFERENCE_FIRST_EDGE and RATE_GATE_END complete: one missing edge is passed
over and the second in a row makes an input ABSENT, a glitch holds it, both put the domains that run on it into holdover at the mean frequency
of their last second in LOCKED, a first edge starts qualifying, the fifth clean gate and a quiet hold end it (R280 to R284). -/
def Sys2Proof.Claims.ReferencesQualifyAndFail : Prop :=
  ∀ (s : State) (k : Nat), k ≤ 2 →
    (numF s (ob 2 (0x20 + k) 0) ≠ 0 →
      (∀ again, ((refIn s k).missed = 0 ∨ again = false) → Gives (.referenceEdgeMissing { input := k, again := again }) s (fun t =>
        (refIn t k).missed = 1 ∧ (refIn t k).dirty = true ∧ (refIn t k).clean = (refIn s k).clean ∧ OnlyParts [.refs] s t))
      ∧ ((refIn s k).missed ≠ 0 → Gives (.referenceEdgeMissing { input := k, again := true }) s (fun t =>
          numF t (ob 2 (0x20 + k) 0) = 0 ∧ numF t (ob 2 (0x20 + k) 3) = numF s (ob 2 (0x20 + k) 3) + 1
          ∧ ∀ d, d < 4 → followsPeer s = false → numF s (ob 2 d 1) = 2 → numF s (ob 2 d 0x10) = k →
            numF t (ob 2 d 0x10) = 15 ∧ numF t (ob 2 d 0x11) = 3
              ∧ numF t (ob 2 d 0x12) = wrapTo 32 (heldFreq (meanFreq (dom s d).holdFreq (lockRun s d)))))
      ∧ Gives (.referenceGlitch k) s (fun t =>
          numF t (ob 2 (0x20 + k) 0) = 3 ∧ numF t (ob 2 (0x20 + k) 4) = numF s (ob 2 (0x20 + k) 4) + 1
          ∧ ∀ d, d < 4 → followsPeer s = false → numF s (ob 2 d 1) = 2 → numF s (ob 2 d 0x10) = k →
            numF t (ob 2 d 0x10) = 15 ∧ numF t (ob 2 d 0x11) = 3
              ∧ numF t (ob 2 d 0x12) = wrapTo 32 (heldFreq (meanFreq (dom s d).holdFreq (lockRun s d)))))
    ∧ (numF s (ob 2 (0x20 + k) 0) = 3 → Gives (.glitchHoldEnd k) s (fun t => numF t (ob 2 (0x20 + k) 0) = 2))
    ∧ (numF s (ob 2 (0x20 + k) 0) = 0 → Gives (.referenceFirstEdge k) s (fun t =>
        numF t (ob 2 (0x20 + k) 0) = 1 ∧ (refIn t k).gates = 0 ∧ (refIn t k).dirty = false))
    ∧ (∀ rate, Gives (.rateGateEnd k rate) s (fun t =>
        numF t (ob 2 (0x20 + k) 1) = rate ∧ (refIn t k).dirty = false
        ∧ (refIn t k).clean = (if (refIn s k).dirty = true then (refIn s k).clean else rate)
        ∧ (numF s (ob 2 (0x20 + k) 0) = 1 → (refIn s k).dirty = false → (refIn s k).gates = 4 → numF t (ob 2 (0x20 + k) 0) = 2)
        ∧ (numF s (ob 2 (0x20 + k) 0) = 1 → (refIn s k).dirty = false → (refIn s k).gates < 4 →
            (refIn t k).gates = (refIn s k).gates + 1 ∧ numF t (ob 2 (0x20 + k) 0) = 1)
        ∧ (numF s (ob 2 (0x20 + k) 0) = 1 → (refIn s k).dirty = true → (refIn t k).gates = 0)))

/-- Claims.DomainsStartAndLock and Claims.ReferencesQualifyAndFail together.
The model's choice enters it as log entries 6, 64, 65 and 110. -/
def Obligations.DomainsLockToQualifiedReferences : Prop := Sys2Proof.Claims.DomainsStartAndLock ∧ Sys2Proof.Claims.ReferencesQualifyAndFail

end

section
open Sys2Proof Sys2Proof.Machine Sys2Proof.Claims

/-- CROSSBAR_REQUEST completes: a request to a target that another owns waits at the end of its queue with a response to come; one to an
idle target without other requests is granted a chunk of at most BURST_LIMIT beats within its budget; one without a memory or a path for all
its beats answers with an error 2 cycles later (R355, R357, R359, R360). The model's choice enters it as log entry 92. -/
def Obligations.RequestsWaitOrAreGranted : Prop :=
  ∀ (s : State) (m id a beats d : Nat) (data : Option Octets), beats ≠ 0 → id < 16 → idsFull s m = false →
    (∀ k, targetOf s m a = some k → hasPath s m k = true → targetOf s m (a + 32 * (beats - 1)) = some k →
      let r : XReq := { no := s.xbar.next, master := m, id := id, dom := d, addr := a, beats := beats, data := data, chunk := 0 }
      ((arb s k).current.isSome = true → Gives (.crossbarRequest m id a beats d data) s (fun t =>
        (arb t k).queue = (arb s k).queue ++ [r] ∧ (arb t k).current = (arb s k).current ∧ t.xbar.next = s.xbar.next + 1
        ∧ t.xbar.resps.length = s.xbar.resps.length + 1 ∧ t.mem = s.mem))
      ∧ ((arb s k).current = none → (arb s k).queue = [] → 2 ≤ k → 0 < beatsLeft s m k d →
        Gives (.crossbarRequest m id a beats d data) s (fun t =>
          (arb t k).current = some { r with chunk := Nat.min (beatsLeft s m k d) (Nat.min (numF s (arbObj k)) beats) }
          ∧ (arb t k).queue = [] ∧ (arb t k).last = m
          ∧ beatsLeft t m k d = beatsLeft s m k d - Nat.min (beatsLeft s m k d) (Nat.min (numF s (arbObj k)) beats))))
    ∧ ((targetOf s m a = none ∨ (∃ k, targetOf s m a = some k ∧ hasPath s m k = false)
        ∨ (targetOf s m (a + 32 * (beats - 1)) ≠ targetOf s m a ∧ partsReach s m a beats = false)) →
      Gives (.crossbarRequest m id a beats d data) s (fun t =>
        t.xbar.resps = s.xbar.resps ++ [{ no := s.xbar.next, master := m, id := id, dom := 0,
                                          tgt := (match targetOf s m a with | some k => if hasPath s m k then 0x30 else k | none => 0x30),
                                          left := 0, data := [], err := true, bad := [], read := data.isNone, due := s.now + 2 }]
        ∧ t.xbar.arbs = s.xbar.arbs ∧ t.mem = s.mem))

/-- CHUNK_END_GRANT and READ_DATA_RETURN complete: the last beat of a chunk at on-chip memory reads or writes exactly its enabled bytes,
in the save buffer of a region under test, the target is free again, and the oldest whole response of an ID returns, a read at least 6 cycles after its beat (R356 to R360, R378). -/
def Sys2Proof.Claims.ChunksMoveTheirBytes : Prop :=
  ∀ (s : State) (k : Nat) (r : XReq), 2 ≤ k → k < 48 → k ≠ 8 → k ≠ 9 → (arb s k).current = some r → (arb s k).queue = [] →
    r.beats = 1 → r.chunk = 1 → plainAddr (r.addr / 32 * 32) = r.addr / 32 * 32 →
    regionFailed s (r.addr / 32 * 32) = false → poisoned s (r.addr / 32 * 32) = false →
    (r.data = none → Gives (.chunkEndGrant k) s (fun t =>
      t.mem = s.mem ∧ (arb t k).current = none ∧ (arb t k).queue = []
      ∧ ∀ w, s.xbar.resps = [w] → w.no = r.no →
        t.xbar.resps = [{ w with left := w.left - 1, data := w.data ++ chipRead s (r.addr / 32 * 32) 32,
                                 due := Nat.max w.due (s.now + 6) }]))
    ∧ (∀ b, r.data = some b → b.length = 32 → Gives (.chunkEndGrant k) s (fun t =>
      (arb t k).current = none ∧ (arb t k).queue = []
      ∧ (∀ j v, b[j]? = some v → v < 256 → chipRead t (r.addr / 32 * 32 + j) 1 = [v])
      ∧ (∀ j v, b[j]? = some v → 256 ≤ v → chipRead t (r.addr / 32 * 32 + j) 1 = chipRead s (r.addr / 32 * 32 + j) 1)
      ∧ (∀ c, (c < r.addr / 32 * 32 ∨ r.addr / 32 * 32 + 32 ≤ c) → chipRead t c 1 = chipRead s c 1 ∧ memByte t.mem c = memByte s.mem c)
      ∧ (saveOf s (r.addr / 32 * 32) ≠ none → t.mem = s.mem)))
    ∧ (∀ w, s.xbar.resps.find? (fun q => q.master == r.master && q.id == r.id) = some w → w.left = 0 →
      Gives (.readDataReturn r.master r.id) s (fun t => t.xbar.last = some w ∧ t.now = Nat.max s.now w.due
        ∧ (∀ q ∈ t.xbar.resps, q.no ≠ w.no) ∧ t.mem = s.mem ∧ t.xbar.arbs = s.xbar.arbs))

/-- EMERGENCY_REQUEST and PRIORITY_PREEMPTION complete: the debug port reads a beat at once and the owner keeps its place, a refresh counts its
beats; in KV4100 mode a waiting master of higher priority takes the target (R361, R362). -/
def Sys2Proof.Claims.EmergenciesAndPriorities : Prop :=
  ∀ s : State,
    (∀ k a, 2 ≤ k → k < 48 → k ≠ 8 → k ≠ 9 → hasPath s debugPort k = true → namesTarget s k a 1 = true →
      plainAddr (a / 32 * 32) = a / 32 * 32 → regionFailed s (a / 32 * 32) = false → poisoned s (a / 32 * 32) = false →
      s.xbar.resps = [] →
      Gives (.emergencyRequest k debugPort a 1 0 none) s (fun t =>
        t.xbar.resps = [{ no := s.xbar.next, master := debugPort, id := 0, dom := 0, tgt := k, left := 0,
                          data := chipRead s (a / 32 * 32) 32, err := false, bad := [], read := true, due := s.now + 6 }]
        ∧ (arb t k).current = (arb s k).current ∧ (arb t k).queue = (arb s k).queue ∧ t.mem = s.mem
        ∧ numF t (arbObj k + 3) = numF s (arbObj k + 3) + 1))
    ∧ (∀ k beats, k < 2 → Gives (.emergencyRequest k 0x2B 0 beats 0 none) s (fun t =>
        numF t (arbObj k + 3) = numF s (arbObj k + 3) + beats ∧ t.mem = s.mem ∧ (arb t k).current = (arb s k).current))
    ∧ (∀ k m o q, k < 48 → numF s (ob 10 0x40 0) = 1 → (arb s k).current = some o → 0 < o.beats →
        (arb s k).queue.find? (fun r => r.master == m && grantable s k r) = some q → prioOf s o.master < prioOf s m →
        o.dom < 256 → q.dom < 256 →
        Gives (.priorityPreemption k m 0) s (fun t =>
          numF t (arbObj k + 4) = numF s (arbObj k + 4) + 1 ∧ t.mem = s.mem
          ∧ ∃ w, (arb t k).current = some w ∧ prioOf s m ≤ prioOf s w.master ∧ (arb t k).last = w.master))

/-- Claims.ChunksMoveTheirBytes and Claims.EmergenciesAndPriorities together.
The model's choice enters it as log entries 77, 80 and 92. -/
def Obligations.ChunksAndEmergenciesMoveBeats : Prop := Sys2Proof.Claims.ChunksMoveTheirBytes ∧ Sys2Proof.Claims.EmergenciesAndPriorities

/-- FLAG_ALIAS_WRITE completes: the bit-set alias sets, and the bit-clear alias clears, in shared flag memory the bits that the data
names, in one access that answers with the old bytes, behind what its master still awaits on ID 0, and no other byte changes; while the target is owned or the master's beats are used up
it waits as any other request (R48, R360, R363).
The model's choice enters it as log entry 77. -/
def Obligations.FlagAliasesSetAndClearBits : Prop :=
  ∀ (s : State) (m a : Nat) (set : Bool) (data : Octets), hasPath s m 5 = true → data.length = 32 → data.all (fun b => decide (b < 256)) = true →
    let p := 0x2000000 + a % 0x100000 / 32 * 32
    (m ≠ debugPort → ((arb s 5).current.isSome = true ∨ beatsLeft s m 5 0 = 0) →
      exec (.flagAliasWrite m set a data) s
        = exec (.crossbarRequest m 0 ((if set then 0x2400000 else 0x2800000) + a % 0x100000 / 32 * 32) 1 0 (some data)) s)
    ∧ (regionFailed s p = false → idsFull s m = false → (m = debugPort ∨ ((arb s 5).current = none ∧ 0 < beatsLeft s m 5 0)) →
    Gives (.flagAliasWrite m set a data) s (fun t =>
      (∀ j v, data[j]? = some v → chipRead t (p + j) 1
          = (chipRead s (p + j) 1).map (fun e => if set then e ||| v else e &&& (255 - v)))
      ∧ (∀ c, (c < p ∨ p + 32 ≤ c) → chipRead t c 1 = chipRead s c 1 ∧ memByte t.mem c = memByte s.mem c)
      ∧ (saveOf s p ≠ none → t.mem = s.mem)
      ∧ ∃ w : XResp, w.data = chipRead s p 32 ∧ w.err = false ∧ w.master = m ∧ w.id = 0 ∧ w.left = 0
          ∧ (s.xbar.resps.any (fun q => q.master == m && q.id == 0) = false → t.xbar.last = some w ∧ t.xbar.resps = s.xbar.resps)
          ∧ (s.xbar.resps.any (fun q => q.master == m && q.id == 0) = true → t.xbar.last = s.xbar.last ∧ t.xbar.resps = s.xbar.resps ++ [w])))

end

section
open Sys2Proof Sys2Proof.Machine Sys2Proof.Claims

/-- PTP_ANNOUNCE_RECEIVED, PTP_SYNC_RECEIVED, PTP_FOLLOW_UP_RECEIVED, PTP_DELAY_RESP_RECEIVED and DELAY_REQ_SEND complete: the second
Announce within four intervals qualifies a master and the time base follows it; a two-step Sync of an accepted interval waits for its Follow_Up; the
first offset is taken out of TIME and acquisition begins; a request goes out on each port that asks, and the path delay of an exchange, end to end
or with the peer, enters the filter (R294 to R299). -/
def Sys2Proof.Claims.TimeBasesFollowTheirMaster : Prop :=
  ∀ (s : State) (k port : Nat), k < 4 → port < 8 →
    (∀ (a b : Announce) (c c0 : Cycle), listens s k port a.domain = true → a.interval ≤ 4 → a.steps < 255 →
      (tb s k).masters = [(port, b, 1, c0)] → b.sender = a.sender → b.portNo = a.portNo → c ≤ c0 + 4 * 1250000000 * 2 ^ a.interval → s.now ≤ c →
      Gives (.ptpAnnounceReceived port a c) s (fun t => t.now = c ∧ (tb t k).best = some a ∧ (tb t k).port = port
        ∧ numF t (tbObj k + 0x15) = a.gm ∧ numF t (tbObj k + 0x16) = port))
    ∧ (∀ (m : PtpMsg) (c : Cycle), fromMaster s k port m = true → (tb s k).heardSeq.contains m.seq = false → -4 ≤ m.interval → m.interval ≤ 1 → s.now ≤ c →
      (m.twoStep = true → Gives (.ptpSyncReceived port m c) s (fun t => (tb t k).syncs = (m, tbFine s k c) :: (tb s k).syncs
        ∧ servo t k = servo s k ∧ (tb t k).heardSeq.contains m.seq = true))
      ∧ (m.twoStep = false → servo s k < 4 → (tb s k).timed = false → Gives (.ptpSyncReceived port m c) s (fun t =>
          servo t k = 1 ∧ (tb t k).timed = true ∧ tbFine t k c = fine m.stamp + fine m.correction + asym s k + pathDelay s k)))
    ∧ (∀ (m y : PtpMsg) (t2 : Int), fromMaster s k port m = true → (tb s k).syncs.find? (fun e => e.1.seq == m.seq) = some (y, t2) →
      servo s k < 4 → (tb s k).timed = false → Gives (.ptpFollowUpReceived port m) s (fun t => servo t k = 1 ∧ (∀ e ∈ (tb t k).syncs, e.1.seq ≠ m.seq)
        ∧ tbFine t k s.now = tbFine s k s.now - (t2 - (fine m.stamp + fine (y.correction + m.correction) + asym s k) - pathDelay s k)))
    ∧ (∀ c : Cycle, s.now ≤ c → (numF s (tbObj k + 1) = 1 ∨ numF s (tbObj k + 1) = 2) → askPorts s k ≠ [] →
      Gives (.delayReqSend k c) s (fun t => (tb t k).asked = (askPorts s k).map (fun p => (p, tbFine s k c))
        ∧ (tb t k).reqSeq = ((tb s k).reqSeq + 1) % 65536 ∧ t.now = c
        ∧ ∀ p, p ∈ askPorts s k → p < 4 → isOn s (netObj p) = true → (netPort t p).sent =
            [.delayReq (numF s (tbObj k + 4) == 1) (numF s (tbObj k + 3)) (clockIdentity s k) (ptpPortNo p) (((tb s k).reqSeq + 1) % 65536)]))
    ∧ (∀ m : PtpMsg, fromMaster s k port m = true → answersMe s k port m = true → numF s (tbObj k + 4) ≠ 1 →
      (tb s k).delayN < numF s (tbObj k + 0x00D) →
      Gives (.ptpDelayRespReceived port m) s (fun t => (∀ e ∈ (tb t k).asked, e.1 ≠ port) ∧ (tb t k).delayN = (tb s k).delayN + 1
        ∧ (tb t k).delays
          = ((((tb s k).t2 - (tb s k).t1) + (fine m.stamp - sentAt s k port - fine m.correction + asym s k)) / 2 :: (tb s k).delays).take 128))
    ∧ (∀ m : PtpMsg, listens s k port m.domain = true → answersMe s k port m = true → numF s (tbObj k + 4) = 1 → port = delayPort s k →
      (tb s k).delayN < numF s (tbObj k + 0x00D) →
      Gives (.ptpDelayRespReceived port m) s (fun t => (∀ e ∈ (tb t k).asked, e.1 ≠ port) ∧ (tb t k).delayN = (tb s k).delayN + 1
        ∧ (tb t k).delays = ((tbFine s k m.arrival - sentAt s k port - fine m.correction) / 2 :: (tb s k).delays).take 128))

/-- PTP_MASTER_LOST and HOLD_LIMIT_EXPIRED complete: without another qualified master the time base holds over, is counted and stops
counting as locked, unless it holds over already or a step is pending or held, and it holds over when a held step reaches its limit, where only the
offsets beyond the threshold go on counting (R300, R301, R303, R305). -/
def Sys2Proof.Claims.TimeBasesHoldOver : Prop :=
  ∀ (s : State) (k : Nat), k < 4 →
    (∀ a, (tb s k).best = some a → (tb s k).masters = [] →
      (servo s k < 3 → Gives (.ptpMasterLost k) s (fun t => servo t k = 3 ∧ (tb t k).best = none ∧ (tb t k).wasLock = false ∧ tbLocked t k = false
        ∧ numF t (tbObj k + 0x1B) = numF s (tbObj k + 0x1B) + 1 ∧ numF t (tbObj k + 0x16) = 15))
      ∧ (3 ≤ servo s k → Gives (.ptpMasterLost k) s (fun t => servo t k = servo s k ∧ (tb t k).best = none
        ∧ numF t (tbObj k + 0x1B) = numF s (tbObj k + 0x1B) ∧ numF t (tbObj k + 0x16) = 15)))
    ∧ ((servo s k = 4 ∨ servo s k = 5) → numF s (tbObj k + 8) ≠ 0 → Gives (.holdLimitExpired k) s (fun t =>
        servo t k = 3 ∧ (tb t k).wasLock = false ∧ (∀ x ∈ (tb t k).stepSeen, fine (numF s (tbObj k + 5)) < mag x) ∧ tbLocked t k = false
        ∧ ∀ d, d < 4 → followsPeer s = false → numF s (ob 2 d 1) = 2 → numF s (ob 2 d 0x10) = 3 + k → numF t (ob 2 d 0x10) = 15))

/-- Claims.TimeBasesFollowTheirMaster and Claims.TimeBasesHoldOver together.
The model's choice enters it as log entries 27, 28, 63 and 64. -/
def Obligations.TimeBasesFollowAndHold : Prop := Sys2Proof.Claims.TimeBasesFollowTheirMaster ∧ Sys2Proof.Claims.TimeBasesHoldOver

end

section
open Sys2Proof Sys2Proof.Machine Sys2Proof.Claims

/-- RTP_PACKET_RECEIVED completes: the port counts every packet, one that names no context is counted as unmatched; in every context that it
names, one that fails a check counts as invalid, and a new valid packet that is neither late nor early enters the jitter buffer; a late or an early
one is counted and dropped (R333 to R335).
The model's choice enters it as log entries 68 and 70. -/
def Obligations.PacketsReachTheJitterBuffer : Prop :=
  ∀ (s : State) (port : Nat) (p : RtpPacket) (cycle : Cycle), port < 4 → s.now ≤ cycle →
    ((∀ c, c < 256 → rxLeg s port p.dest p.udpPort c = false) → Gives (.rtpPacketReceived port p cycle) s (fun t =>
      numF t (netObj port + 0x010) = numF s (netObj port + 0x010) + 1 ∧ numF t (netObj port + 0x011) = numF s (netObj port + 0x011) + 1
      ∧ t.ctxs = s.ctxs))
    ∧ ∀ c, c < 256 → rxLeg s port p.dest p.udpPort c = true →
      (numF s (ctxObj c + 1) = 1 ∨ numF s (ctxObj c + 1) = 2) →
      (packetValid s c (port % 2) p = false → Gives (.rtpPacketReceived port p cycle) s (fun t =>
        numF t (ctxObj c + 0x038) = numF s (ctxObj c + 0x038) + 1 ∧ ctxRt t c = ctxRt s c
        ∧ numF t (netObj port + 0x010) = numF s (netObj port + 0x010) + 1))
      ∧ (packetValid s c (port % 2) p = true → ((ctxRt s c).ssrc = none ∨ (ctxRt s c).ssrc = some p.ssrc) →
        (∀ y ∈ (ctxRt s c).packets, y.seq ≠ p.seq) →
        let hz : Int := domHz s (ctxDom s c)
        let since : Int := (cycle : Int) - (dom s (ctxDom s c)).cycle
        let last := aheadOf s c p.stamp + perPacket s c - 1
        (pointOf s last < (since + 2500) * hz → Gives (.rtpPacketReceived port p cycle) s (fun t =>
          numF t (ctxObj c + 0x032) = numF s (ctxObj c + 0x032) + 1 ∧ (ctxRt t c).packets = (ctxRt s c).packets))
        ∧ ((since + 2500) * hz ≤ pointOf s last → ((linkUs s c : Int) + 1000) * 1250 * hz < last * 1250000000 - since * hz →
          Gives (.rtpPacketReceived port p cycle) s (fun t =>
            numF t (ctxObj c + 0x033) = numF s (ctxObj c + 0x033) + 1 ∧ (ctxRt t c).packets = (ctxRt s c).packets))
        ∧ ((since + 2500) * hz ≤ pointOf s last → last * 1250000000 - since * hz ≤ ((linkUs s c : Int) + 1000) * 1250 * hz →
          Gives (.rtpPacketReceived port p cycle) s (fun t =>
            numF t (ctxObj c + 0x030) = numF s (ctxObj c + 0x030) + 1 ∧ (ctxRt t c).ssrc = some p.ssrc
            ∧ (∃ y ∈ (ctxRt t c).packets, y.seq = p.seq ∧ y.stamp = p.stamp ∧ y.arrival = cycle
                ∧ y.words = payloadWords (wireBytes s c) p.payload)
            ∧ ∀ y ∈ (ctxRt s c).packets, y ∈ (ctxRt t c).packets)))

/-- LEG_LOST, RATE_FIT_UPDATE, IGMP_QUERY_RECEIVED, ARP_REQUEST, ARP_REPLY_RECEIVED, ICMP_ECHO_REQUEST, FRAME_DISCARDED and
NETWORK_LINK_CHANGE complete: the leg is lost until it delivers again, a fitted rate beyond 100 ppm sets OFF_RATE, the ports with link answer for their own
address and, in the version of the oldest querier present, for their groups, an address is resolved, and the counters of the ports follow (R335, R338, R345, R349).
The model's choice enters it as log entries 149, 193 and 194. -/
def Obligations.NetworkPortsAnswer : Prop :=
  ∀ s : State,
    (∀ c leg, c < 256 → leg < 2 → (numF s (ctxObj c + 1) = 1 ∨ numF s (ctxObj c + 1) = 2) → numF s (ctxObj c + 4) = 3 →
      Gives (.legLost c leg) s (fun t => leg ∈ (ctxRt t c).legLost ∧ (ctxRt t c).packets = (ctxRt s c).packets))
    ∧ (∀ c rate, c < 256 → numF s (ctxObj c + 1) ≠ 0 → Gives (.rateFitUpdate c rate) s (fun t =>
        numF t (ctxObj c + 0x022) = fitRate s c rate
        ∧ (numF t (ctxObj c + 0x023) = if nearRate (domHz s (ctxDom s c) * 1000) (fitRate s c rate) 100 then 0 else 1)))
    ∧ (∀ port, port < 4 →
      (∀ v g, isOn s (netObj port) = true → Gives (.igmpQueryReceived port v g) s (fun t =>
        (v = 1 → igmpVersion t port = 1) ∧ (v = 2 → igmpVersion t port ≤ 2) ∧ (v ≠ 1 → v ≠ 2 → igmpVersion t port = igmpVersion s port)
        ∧ (netPort t port).sent = (sortUp (((netPort s port).groups.map (·.1)).filter (fun x => g == 0 || x == g))).map
            (fun x => NetFrame.report (igmpVersion t port) x (groupSources s port x))
        ∧ (netPort t port).groups = (netPort s port).groups
        ∧ numF t (netObj port + 0x012) = numF s (netObj port + 0x012) + (netPort t port).sent.length))
      ∧ (∀ sender, isOn s (netObj port) = true → Gives (.arpRequest port sender (portAddr s port)) s (fun t =>
        (netPort t port).sent = [.arpReply sender (portAddr s port) (numF s (netObj port + 6))]
        ∧ numF t (netObj port + 0x012) = numF s (netObj port + 0x012) + 1))
      ∧ (∀ sender target, target ≠ portAddr s port → Gives (.arpRequest port sender target) s (fun t =>
        (netPort t port).sent = [] ∧ (netPort t port).groups = (netPort s port).groups ∧ (netPort t port).arp = (netPort s port).arp
        ∧ numF t (netObj port + 0x011) = numF s (netObj port + 0x011) + 1))
      ∧ (∀ sender mac, Gives (.arpReplyReceived port sender mac) s (fun t =>
        (sender, mac) ∈ (netPort t port).arp ∧ (∀ e ∈ (netPort t port).arp, e.1 = sender → e.2 = mac)
        ∧ ∀ e ∈ (netPort s port).arp, e.1 ≠ sender → e ∈ (netPort t port).arp))
      ∧ (∀ source payload, isOn s (netObj port) = true → Gives (.icmpEchoRequest port source (portAddr s port) payload) s (fun t =>
        (netPort t port).sent = [.echoReply source payload]))
      ∧ (∀ sender v g, isOn s (netObj port) = false → Gives (.igmpQueryReceived port v g) s (fun t => (netPort t port).sent = [])
        ∧ Gives (.arpRequest port sender (portAddr s port)) s (fun t => (netPort t port).sent = []))
      ∧ (∀ bad, Gives (.frameDiscarded port bad) s (fun t =>
        numF t (netObj port + 0x010) = numF s (netObj port + 0x010) + 1
        ∧ numF t (netObj port + (if bad then 0x013 else 0x011)) = numF s (netObj port + (if bad then 0x013 else 0x011)) + 1))
      ∧ (numF s (netObj port) = 0 → Gives (.networkLinkChange port true) s (fun t => numF t (netObj port) = 1 ∧ t.tbs = s.tbs))
      ∧ (numF s (netObj port) = 1 → Gives (.networkLinkChange port false) s (fun t => numF t (netObj port) = 0
        ∧ ∀ k, k < 4 → numF s (tbObj k + 2) = port / 2 → (tb t k).best = (tb s k).best
          ∧ ∀ e ∈ (tb t k).masters, e.1 = port →
            (tb s k).port = port ∧ ∃ a, (tb s k).best = some a ∧ a.sender = e.2.1.sender ∧ a.portNo = e.2.1.portNo)))

end

section
open Sys2Proof Sys2Proof.Machine Sys2Proof.Claims

/-- NONAUDIO_CLEARED, MUTING_WINDOW_END and BANK_SUPPLY_FAULT complete: 16,384 samples without a preamble clear the pair's bit, and unmute it
with a fade-in from its first sample; the window closes; a bank without its supply lets the balls of its enabled ports go at once, and the next tick of
their domain faults them (R27, R309, R323, R324). The model's choice enters it as log entries 66 and 67. -/
def Obligations.TdmUnitsAnswer : Prop :=
  ∀ s : State,
    (∀ u k, ((∃ p, p < 48 ∧ u = portObj p) ∨ ∃ c, c < 256 ∧ u = ctxObj c) → bit (numF s (naMembers u).bits) k = 1 → 16384 ≤ (naOf s u k).since →
      Gives (.nonaudioCleared u k) s (fun t => numF t (naMembers u).bits = clearBit (numF s (naMembers u).bits) k
        ∧ (bit (numF s (naMembers u).muted) k = 1 → numF t (naMembers u).muted = clearBit (numF s (naMembers u).muted) k ∧ (naOf t u k).fade = 0)
        ∧ (bit (numF s (naMembers u).muted) k = 0 → numF t (naMembers u).muted = numF s (naMembers u).muted ∧ naOf t u k = naOf s u k)))
    ∧ (∀ p, p < 48 → Gives (.mutingWindowEnd (portObj p)) s (fun t => (tdmPort t p).window = false ∧ (∀ q, q ≠ p → tdmPort t q = tdmPort s q)))
    ∧ (∀ c, c < 256 → Gives (.mutingWindowEnd (ctxObj c)) s (fun t => (ctxRt t c).window = false ∧ (∀ q, q ≠ c → ctxRt t q = ctxRt s q)))
    ∧ (∀ b, b < 4 → Gives (.bankSupplyFault b) s (fun t => b ∈ t.pins.bankFault ∧ ∀ p, p < 48 →
        numF t (portObj p + 1) = numF s (portObj p + 1)
        ∧ (p / 12 = b → numF t (portObj p + 0x013) = 0
          ∧ (numF s (portObj p + 1) ≠ 0 → tget t.pins.sdo [] p = [] ∧ tget t.pins.tdmClk .low p = .hiZ ∧ portObj p ∈ t.sage.faults))
        ∧ (p / 12 ≠ b → numF t (portObj p + 0x013) = numF s (portObj p + 0x013)
          ∧ tget t.pins.sdo [] p = tget s.pins.sdo [] p ∧ tget t.pins.tdmClk .low p = tget s.pins.tdmClk .low p)))
    ∧ (∀ p, p < 48 → numF s (portObj p + 1) ≠ 0 → numF (stopFaulted s (portObj p)) (portObj p + 1) = 5)

/-- SUBMISSION_DOORBELL, COMPLETION_DOORBELL, RECORD_DOORBELL and PLAYBACK_DOORBELL complete: the host's index is taken, and a word not below
the ring's ENTRIES is ignored and counted (R264). -/
def Obligations.DoorbellsMoveTheHostIndex : Prop :=
  ∀ (s : State) (ring word : Nat) (stores : List Host.Cell),
    let bad := fun (i : Instr) => Gives i s (fun t => numF t (ringObj ring + 0x014) = numF s (ringObj ring + 0x014) + 1
      ∧ t.host.pairs = s.host.pairs ∧ t.host.rings = s.host.rings)
    (ring < 16 →
      (word < (cmdPair s ring).entries → Gives (.submissionDoorbell ring word stores) s (fun t =>
        cmdPair t ring = { cmdPair s ring with sqTail := word } ∧ t.dict = s.dict
        ∧ t.host.mem = stores.foldl (fun m c => memPut m c.1 c.2) s.host.mem))
      ∧ ((cmdPair s ring).entries ≤ word → bad (.submissionDoorbell ring word stores)))
    ∧ (16 ≤ ring → ring < 32 →
      (word < (cmdPair s (ring - 16)).entries → Gives (.completionDoorbell ring word) s (fun t =>
        cmdPair t (ring - 16) = { cmdPair s (ring - 16) with cqHead := word } ∧ t.dict = s.dict ∧ t.host.mem = s.host.mem))
      ∧ ((cmdPair s (ring - 16)).entries ≤ word → bad (.completionDoorbell ring word)))
    ∧ (32 ≤ ring → ring < 48 →
      (word < numF s (ringObj ring + 7) → Gives (.recordDoorbell ring word) s (fun t =>
        ringRt t ring = { ringRt s ring with host := word } ∧ t.dict = s.dict ∧ t.host.mem = s.host.mem))
      ∧ (numF s (ringObj ring + 7) ≤ word → bad (.recordDoorbell ring word)))
    ∧ (48 ≤ ring → ring < 64 →
      (word < numF s (ringObj ring + 7) → Gives (.playbackDoorbell ring word stores) s (fun t =>
        ringRt t ring = { ringRt s ring with host := word } ∧ t.dict = s.dict
        ∧ t.host.mem = stores.foldl (fun m c => memPut m c.1 c.2) s.host.mem))
      ∧ (numF s (ringObj ring + 7) ≤ word → bad (.playbackDoorbell ring word stores)))

/-- COMMAND_PAIR_ENABLE, COMMAND_PAIR_DISABLE and the events of the PCIe function complete: requests of a pair follow R9; a function reset, a
link loss and a cleared bus-master bit turn every pair OFF at once and close the sessions they carry, and the next tick of its domain faults every
audio ring that runs; a DMA error faults the rings alone (R27, R261, R271). The model's choice enters it as log entries 75 and 150. -/
def Obligations.HostSideStops : Prop :=
  ∀ s : State,
    (∀ i, i < 16 →
      Gives (.commandPairEnable i) s (fun t =>
        cmdPair t i = { cmdPair s i with enable := true, state := if (cmdPair s i).state = 3 then 4 else (cmdPair s i).state })
      ∧ Gives (.commandPairDisable i) s (fun t => ((sess s (cmdPair s i).session).inbox = [] → (cmdPair t i).unsent = false) ∧ ∃ u,
        cmdPair t i = { cmdPair s i with enable := false, state := if (cmdPair s i).state = 4 then 3 else (cmdPair s i).state, unsent := u }))
    ∧ (∀ c ∈ [Instr.pcieFunctionReset, .pcieLinkDown, .busMasterDisable], Gives c s (fun t =>
        (∀ i, i < 16 → (cmdPair t i).state = 0 ∧ (cmdPair t i).enable = false ∧ (cmdPair t i).fetched = []
          ∧ ((cmdPair s i).state ≠ 0 → sessOpen t (cmdPair s i).session = false))
        ∧ ∀ n, 32 ≤ n → n < 64 → numF t (ringObj n + 1) = numF s (ringObj n + 1)
          ∧ (numF s (ringObj n + 1) ≠ 0 → numF s (ringObj n + 1) ≠ 5 → ringObj n ∈ t.sage.faults)))
    ∧ (∀ ring, Gives (.ringDmaError ring) s (fun t => t.host.pairs = s.host.pairs
        ∧ ∀ n, 32 ≤ n → n < 64 → numF t (ringObj n + 1) = numF s (ringObj n + 1)
          ∧ (numF s (ringObj n + 1) ≠ 0 → numF s (ringObj n + 1) ≠ 5 → ringObj n ∈ t.sage.faults)))
    ∧ (∀ n, 32 ≤ n → n < 64 → numF s (ringObj n + 1) ≠ 0 → numF (stopFaulted s (ringObj n)) (ringObj n + 1) = 5)

/-- OTP_KEY_PROGRAM, OTP_PROGRAM_DONE and OTP_KEY_REVOKE complete: key and privilege go into a slot that is not programmed, while READY is
set and no ODP session is open; else nothing changes (R259, R261). The offsets of the registers are log entry 31. -/
def Obligations.KeySlotsAreProgrammedOnce : Prop :=
  ∀ (s : State) (k : Nat),
    (k < 16 → otpReady s = true → (keySlot s k).programmed = false → (keySlot s k).busy = false →
      Gives (.otpKeyProgram k) s (fun t =>
        keySlot t k = { keySlot s k with key := (List.range 8).flatMap (fun j => leBytes 4 (otpReg s (4 * j))), priv := otpReg s 0x020 % 4, busy := true }
        ∧ ∀ j, j ≠ k → keySlot t j = keySlot s j))
    ∧ ((otpReady s = false ∨ (keySlot s k).programmed = true) → exec (.otpKeyProgram k) s = .next s)
    ∧ ((keySlot s k).busy = true → Gives (.otpProgramDone k) s (fun t => keySlot t k = { keySlot s k with busy := false, programmed := true }))
    ∧ (k < 16 → Gives (.otpKeyRevoke k) s (fun t => keySlot t k = { keySlot s k with revoked := true }))

/-- BAR0_REGISTER_WRITE completes: only aligned 32-bit and 64-bit writes act, a 64-bit write as its two halves in ascending order; a doorbell
page word is a doorbell; a command pair's registers take writes while the pair is OFF, and its control register always; ID reads 0x9600_00B0, and
an offset that R258 does not list reads 0 (R258, R260, R264). The model's choice enters it as log entries 31 and 177. -/
def Obligations.BarWritesReachTheRegisters : Prop :=
  ∀ (s : State) (v : Nat), v < 2 ^ 32 →
    (∀ a n, ¬(n = 4 ∧ a % 4 = 0) → ¬(n = 8 ∧ a % 8 = 0) → exec (.bar0RegisterWrite a n v) s = .next s)
    ∧ (∀ a hi, a % 8 = 0 → hi < 2 ^ 32 → ∃ t u, exec (.bar0RegisterWrite a 4 v) s = .next t ∧ exec (.bar0RegisterWrite (a + 4) 4 hi) t = .next u
        ∧ exec (.bar0RegisterWrite a 8 (v + 2 ^ 32 * hi)) s = .next u)
    ∧ (∀ r, r < 64 → ∃ t, exec (.bar0RegisterWrite (0x1000 + 4 * r) 4 v) s = .next t ∧ exec (.completionDoorbell r v) s = .next t)
    ∧ (∀ i, i < 16 →
      ((cmdPair s i).state = 0 →
        Gives (.bar0RegisterWrite (0x2000 + 0x40 * i) 4 v) s (fun t => (cmdPair t i).sqBase = (cmdPair s i).sqBase / 2 ^ 32 * 2 ^ 32 + v / 4096 * 4096)
        ∧ Gives (.bar0RegisterWrite (0x2004 + 0x40 * i) 4 v) s (fun t => (cmdPair t i).sqBase = (cmdPair s i).sqBase % 2 ^ 32 + v * 2 ^ 32)
        ∧ Gives (.bar0RegisterWrite (0x2008 + 0x40 * i) 4 v) s (fun t => (cmdPair t i).cqBase = (cmdPair s i).cqBase / 2 ^ 32 * 2 ^ 32 + v / 4096 * 4096)
        ∧ Gives (.bar0RegisterWrite (0x200C + 0x40 * i) 4 v) s (fun t => (cmdPair t i).cqBase = (cmdPair s i).cqBase % 2 ^ 32 + v * 2 ^ 32)
        ∧ Gives (.bar0RegisterWrite (0x2010 + 0x40 * i) 4 v) s (fun t => (bits v 15 0 ∈ ringSizes → (cmdPair t i).entries = bits v 15 0)
            ∧ (bits v 15 0 ∉ ringSizes → (cmdPair t i).entries = (cmdPair s i).entries) ∧ (cmdPair t i).vector = bits v 21 16
            ∧ (cmdPair t i).priv = bits v 25 24 ∧ (cmdPair t i).dialect = bit v 28))
      ∧ ((cmdPair s i).state ≠ 0 → ∀ r, r < 0x18 → r % 4 = 0 → exec (.bar0RegisterWrite (0x2000 + 0x40 * i + r) 4 v) s = .next s)
      ∧ (∃ t, exec (.bar0RegisterWrite (0x2018 + 0x40 * i) 4 v) s = .next t
          ∧ exec (if bit v 0 = 1 then .commandPairEnable i else .commandPairDisable i) s = .next t))
    ∧ barRead s 0 = 0x960000B0 ∧ (∀ a, (0x4000 ≤ a ∧ a < 0x80000) ∨ 0x81008 ≤ a → barRead s a = 0)

end

namespace Sys2Proof.Claims
open Machine

/-- A session that is open, with nothing before a new request of it (R249). -/
def Idle (s : State) (n : Sess) : Prop := sessOpen s n = true ∧ parsleyDead s = false ∧ (sess s n).inbox = [] ∧ atWork s n = false

/-- The state in which an idle session's new request is served: it has been counted. -/
def serving (s : State) (n : Sess) : State := bump (setSess s n { sess s n with inbox := [] }) (sob n 9)

/-- A session has its reply: the newest that is kept, or over PCIe the header of the completion entry, if the body stands in line. -/
def Answered (s t : State) (n : Sess) (r : Reply) : Prop :=
  match pairOf s n with
  | none => (sess t n).kept.getLast? = some r
  | some i => (bodyOctets false r.body).length ≤ 44 →
      memRead t.host.mem ((cmdPair s i).cqBase + 64 * (cmdPair s i).cqTail) 16
        = headerOctets false r.op r.status r.tag r.obj (bodyOctets false r.body).length r.aux

/-- What configures the machine is the same: values in force outside area 1, the bank, and what waits to land. -/
def SameConf (s t : State) : Prop :=
  (∀ o, areaOf o ≠ 1 → forceVal t o = forceVal s o) ∧ t.dict.bank = s.dict.bank ∧ t.dict.factory = s.dict.factory
  ∧ t.dict.landing = s.dict.landing

/-- The command that brings a request. -/
def command (n : Sess) (tag : Nat) : Req → Option Instr
  | .read x => some (.read n tag x)
  | .write x v => some (.write n tag x v)
  | .readBlock x c b => some (.readBlock n tag x c b)
  | .writeBlock x b vs => some (.writeBlock n tag x b vs)
  | .txnBegin => some (.txnBegin n tag)
  | .txnEnd => some (.txnEnd n tag)
  | .commit r => some (.commit n tag r)
  | .rollback r => some (.rollback n tag r)
  | .subscribe r => some (.subscribe n tag r)
  | .unsubscribe k => some (.unsubscribe n tag k)
  | .close => some (.close n tag)
  | .nop => some (.nop n tag)
  | .bad _ _ => none

end Sys2Proof.Claims

section
open Sys2Proof Sys2Proof.Machine Sys2Proof.Claims

/-- Requests of a session are served in their order, one at a time: behind a request at work a new one waits; before the end of the unmute only
reads, subscriptions, CLOSE and NOP are served, others answer BUSY; a request of a session that is not open goes nowhere (R249, R254, R443).
The model's choice enters it as log entry 137. -/
def Obligations.RequestsWaitTheirTurn : Prop :=
  ∀ (s : State) (n : Sess) (tag : Nat) (q : Req) (c : Instr), command n tag q = some c →
    ((sessOpen s n = false ∨ parsleyDead s = true) → exec c s = .next s)
    ∧ (sessOpen s n = true → parsleyDead s = false → atWork s n = true → Gives c s (fun t =>
        sess t n = { sess s n with inbox := (sess s n).inbox ++ [(tag, q)] } ∧ (∀ m, m ≠ n → sess t m = sess s m) ∧ t.dict = s.dict
        ∧ t.host = s.host ∧ t.commit = s.commit))
    ∧ (Idle s n → startGate s q = false → Gives c s (fun t =>
        Answered s t n { op := opOf q % 128 + 0x80, status := stBusy, tag := tag, obj := reqObj q, aux := 0, body := .none } ∧ SameConf s t))

/-- SUBMISSION_FETCH and ODP_DATAGRAM_RECEIVED complete: a fetched entry and a whole accepted message act as the command they spell, with the
pair's SQ_HEAD or the datagram counter moved on; a pair that may not fetch does nothing, and a malformed datagram is discarded and counted
(R252 to R254, R262). The model's choice enters it as log entry 139. -/
def Obligations.TransportsBringCommands : Prop :=
  ∀ (s : State) (c : Instr) (q : Req),
    (∀ i, i < 16 →
      let x := cmdPair s i
      let e := hostRead s (x.sqBase + 64 * x.sqHead) 64
      (x.state = 2 → x.enable = true → x.sqHead ≠ x.sqTail → x.fetched.length < cqFree x → sessOpen s x.session = true → parsleyDead s = false →
        (entryReq s e).2 = q → command x.session (entryReq s e).1 q = some c →
        ∃ t, exec (.submissionFetch i) s = .next t
          ∧ exec c (setPair s i { x with sqHead := (x.sqHead + 1) % x.entries,
                                         fetched := x.fetched ++ [((entryReq s e).1, ofLe (slice e 48 8), ofLe (slice e 56 4))] }) = .next t)
      ∧ ((x.state ≠ 2 ∨ x.enable = false ∨ x.sqHead = x.sqTail ∨ cqFree x ≤ x.fetched.length) → exec (.submissionFetch i) s = .next s))
    ∧ (∀ addr port b, ready0 s = true → parsleyDead s = false →
      (datagramOf b = none → Gives (.odpDatagramReceived addr port b) s (fun t => t = { s with ctl := { s.ctl with discards := s.ctl.discards + 1 } }))
      ∧ ∀ d n, datagramOf b = some d → d.session = n → n < 32 → (sess s n).authWait = false → sessOpen s n = true → numF s (sob n 1) = 1 →
        (((sess s n).addr ≠ addr ∨ (sess s n).port ≠ port ∨ (hmac (sess s n).ks d.signed_).take 16 ≠ d.mac ∨ seqFits (sess s n) d.seq = false) →
          Gives (.odpDatagramReceived addr port b) s (fun t => t = { s with ctl := { s.ctl with discards := s.ctl.discards + 1 } }))
        ∧ ((sess s n).addr = addr → (sess s n).port = port → (hmac (sess s n).ks d.signed_).take 16 = d.mac → seqFits (sess s n) d.seq = true →
          d.segments = 1 → (sess s n).reasm = [] → messagesHeld s n < 8 → 16 ≤ d.body.length →
          (∀ r ∈ (sess s n).kept, r.tag ≠ d.tag) → tagKnown s n d.tag = false →
          ofBe (slice d.body 8 4) = d.body.length - 16 → ofBe (slice d.body 2 2) = d.tag →
          reqOf true (ofBe (slice d.body 0 1)) (ofBe (slice d.body 1 1)) (ofBe (slice d.body 4 4)) (ofBe (slice d.body 12 4)) (d.body.drop 16) = q →
          command n d.tag q = some c →
          ∃ t, exec (.odpDatagramReceived addr port b) s = .next t ∧ exec c (setSess s n (noteSeq (sess s n) d.seq)) = .next t))

/-- HELLO, AUTH, AUTH_PENDING_TIMEOUT and AUTH_LOCKOUT_END complete: a HELLO takes the lowest free slot and is answered with a challenge, or
with SESSION_LIMIT; an AUTH with the right proof opens the session with its privilege and dialect, another frees the slot, and the third failure
of an address locks it out (R255, R256). The model's choice enters it as log entries 10, 51 and 138. -/
def Obligations.SessionsOpenByProof : Prop :=
  ∀ (s : State) (addr port : Nat),
    (∀ pr di sl nc, ready0 s = true →
      (addr ∈ s.ctl.lockout → exec (.hello addr port pr di sl nc) s = .next s)
      ∧ (addr ∉ s.ctl.lockout → freeSlot s = none → Gives (.hello addr port pr di sl nc) s (fun t =>
          t.ctl.opening = some (addr, port, { op := 0xC0, status := stSessions, tag := 0, obj := 0, aux := 0, body := .none }) ∧ t.ctl.sess = s.ctl.sess))
      ∧ (∀ n, addr ∉ s.ctl.lockout → freeSlot s = some n → Gives (.hello addr port pr di sl nc) s (fun t =>
          (sess t n).authWait = true ∧ (sess t n).addr = addr ∧ (sess t n).port = port ∧ (sess t n).wantPriv = pr ∧ (sess t n).wantDial = di
          ∧ (sess t n).slot = sl ∧ (sess t n).nc = nc ∧ (∀ m, m ≠ n → sess t m = sess s m) ∧ t.dict = s.dict
          ∧ t.ctl.opening = some (addr, port, { op := 0xC0, status := stOk, tag := 0, obj := 0, aux := 0, body := .challenge n (sess t n).ne }))))
    ∧ (∀ n tag proof, n < 32 → (sess s n).authWait = true → (sess s n).addr = addr → (sess s n).port = port →
      let x := sess s n
      let k := keySlot s x.slot
      (k.programmed = true → k.revoked = false → x.wantPriv ≤ k.priv → proof = authProof x k.key n →
        Gives (.auth n addr port tag proof) s (fun t => sessOpen t n = true ∧ numF t (sob n 1) = 1 ∧ numF t (sob n 2) = x.wantPriv
          ∧ numF t (sob n 3) = x.wantDial ∧ numF t (ob 1 0x200 2) = numF s (ob 1 0x200 2) + 1 ∧ (sess t n).authWait = false
          ∧ t.ctl.opening = some (addr, port, { op := 0xC1, status := stOk, tag := tag, obj := 0, aux := 0, body := .none })))
      ∧ ((k.programmed = false ∨ k.revoked = true ∨ k.priv < x.wantPriv ∨ proof ≠ authProof x k.key n) →
        Gives (.auth n addr port tag proof) s (fun t => sess t n = Session.free
          ∧ t.ctl.opening = some (addr, port, { op := 0xC1, status := stDenied, tag := tag, obj := 0, aux := 0, body := .none })
          ∧ (2 ≤ (s.ctl.fails.filter (fun e => e.1 == addr && decide (s.now < e.2 + 12500000000))).length → addr ∈ t.ctl.lockout))))
    ∧ (∀ n, n < 32 → (sess s n).authWait = true → Gives (.authPendingTimeout n) s (fun t => sess t n = Session.free ∧ t.dict = s.dict
        ∧ ∀ m, m ≠ n → sess t m = sess s m))
    ∧ Gives (.authLockoutEnd addr) s (fun t => addr ∉ t.ctl.lockout ∧ (∀ a, a ≠ addr → a ∈ s.ctl.lockout → a ∈ t.ctl.lockout) ∧ t.ctl.sess = s.ctl.sess)

/-- ODP_SESSION_IDLE_TIMEOUT, ODP_REASSEMBLY_TIMEOUT, NOTIFY_SEND and SUBSCRIPTION_INTERVAL_END complete: an idle session closes with its
transaction and subscriptions; a partial message is dropped; the oldest notification leaves the queue; a change during an interval is reported at
its end (R236, R241, R242, R253, R254). That an interval examined at a command is one of a member of no domain is log entry 46.
The model's choice enters it as log entries 76 and 118. -/
def Obligations.SessionsNotifyAndEnd : Prop :=
  ∀ (s : State) (n : Sess), sessOpen s n = true →
    (numF s (sob n 1) = 1 → Gives (.odpSessionIdleTimeout n) s (fun t => sessOpen t n = false ∧ sess t n = Session.free
        ∧ numF t (ob 1 0x200 2) = numF s (ob 1 0x200 2) - 1 ∧ SameConf s t))
    ∧ (numF s (sob n 1) ≠ 1 → exec (.odpSessionIdleTimeout n) s = .next s)
    ∧ (∀ tag, Gives (.odpReassemblyTimeout n tag) s (fun t => (∀ r ∈ (sess t n).reasm, r.tag ≠ tag)
        ∧ (∀ r ∈ (sess s n).reasm, r.tag ≠ tag → r ∈ (sess t n).reasm) ∧ t.dict = s.dict))
    ∧ (∀ y r, (sess s n).lostNow = 0 → (sess s n).queue = y :: r →
      (pairOf s n = none → Gives (.notifySend n) s (fun t => (sess t n).sent = some y ∧ (sess t n).queue = r ∧ numF t (sob n 7) = r.length
        ∧ (sess t n).notifNo = ((sess s n).notifNo + 1) % 65536 ∧ SameConf s t))
      ∧ (∀ i, pairOf s n = some i → (cmdPair s i).fetched.length < cqFree (cmdPair s i) → (notifFor s n false y).2.length ≤ 44 →
        Gives (.notifySend n) s (fun t => (sess t n).sent = some y ∧ (sess t n).queue = r ∧ numF t (sob n 7) = r.length
          ∧ memRead t.host.mem ((cmdPair s i).cqBase + 64 * (cmdPair s i).cqTail) 16
              = headerOctets false 0x60 0 (sess s n).notifNo (notifFor s n false y).1 (notifFor s n false y).2.length 0))
      ∧ (∀ i, pairOf s n = some i → (cmdPair s i).fetched.length < cqFree (cmdPair s i) → 44 < (notifFor s n false y).2.length →
        Gives (.notifySend n) s (fun t => (sess t n).queue = r ∧ numF t (sob n 7) = r.length ∧ t.host = s.host ∧ SameConf s t))
      ∧ (∀ i, pairOf s n = some i → cqFree (cmdPair s i) ≤ (cmdPair s i).fetched.length → exec (.notifySend n) s = .next s))
    ∧ (∀ y r, (sess s n).lostNow ≠ 0 → (sess s n).queue = y :: r → pairOf s n = none → Gives (.notifySend n) s (fun t =>
        (sess t n).sent = some y ∧ (sess t n).queue = r ++ [.event 0x1002 (sob n 0) none (stampNow s) (sess s n).lostNow] ∧ (sess t n).lostNow = 0))
    ∧ (∀ sub b o ob_ count byI ms old, tget (sess s n).subs none sub = some b → b.req = .value ob_ count byI ms →
      b.last.find? (fun e => e.1 == o) = some old →
      (tickDom s o ≠ none → Gives (.subscriptionIntervalEnd n sub o) s (fun t => (sess t n).queue = (sess s n).queue
        ∧ ∃ b1, tget (sess t n).subs none sub = some b1 ∧ (∀ e ∈ b1.wait, e.1 ≠ o) ∧ b1.last = b.last))
      ∧ (tickDom s o = none → (lookup s o).isSome = true → o ∈ b.due → (sess s n).queue = [] →
        Gives (.subscriptionIntervalEnd n sub o) s (fun t => (∃ v, (sess t n).queue = [.value sub o 0 v])
          ∧ ∃ b1, tget (sess t n).subs none sub = some b1 ∧ o ∉ b1.due ∧ (0 < ms → (o, s.now + ms * 1250000) ∈ b1.wait))))

end

section
open Sys2Proof Sys2Proof.Machine Sys2Proof.Claims

/-- READ, READ_BLOCK and NOP complete on an idle session: the reply carries the value of the member, or its status; reading changes no
configuration (R227, R237, R238, R248). The model's choice enters it as log entries 15 and 117. -/
def Obligations.ReadsAnswerTheirValues : Prop :=
  ∀ (s : State) (n : Sess) (tag x : Nat), Idle s n →
    let u := serving s n
    let reads := fun (st : Nat) (b : Body) => Gives (.read n tag x) s (fun t =>
      Answered s t n { op := 0x81, status := st, tag := tag, obj := x, aux := 0, body := b } ∧ SameConf s t)
    (isPrivateArea u n x = true → reads stOk (.typed { code := 4, size := 4, val := .num 0 }))
    ∧ (isPrivateArea u n x = false →
      (namedRow u n x = none → reads stNoObject .none)
      ∧ ∀ o r, namedRow u n x = some (o, r) →
        (isWo r = true → reads stDenied .none)
        ∧ (isWo r = false → reads stOk (.typed (typedFor u n o (readVal u n o)))))
    ∧ (∀ count byI,
      ((count = 0 ∨ 4096 < count ∨ blockNos u n x count byI = none) → Gives (.readBlock n tag x count byI) s (fun t =>
        Answered s t n { op := 0x83, status := stRange, tag := tag, obj := x, aux := 0, body := .none } ∧ SameConf s t))
      ∧ (∀ xs, 1 ≤ count → count ≤ 4096 → blockNos u n x count byI = some xs → Gives (.readBlock n tag x count byI) s (fun t =>
        Answered s t n { op := 0x83, status := stOk, tag := tag, obj := x, aux := 0, body := .block (xs.map (readOne u n)) } ∧ SameConf s t)))
    ∧ Gives (.nop n tag) s (fun t => Answered s t n { op := 0x8C, status := stOk, tag := tag, obj := 0, aux := 0, body := .none } ∧ SameConf s t)

/-- SUBSCRIBE and UNSUBSCRIBE complete on an idle session: a request that names something takes the lowest free subscription number, which the
reply carries; a full table answers NO_RESOURCE; removing frees the number, and SUBSCRIPTIONS counts (R236, R241, R248).
The model's choice enters it as log entry 131. -/
def Obligations.SubscriptionsAreNumbered : Prop :=
  ∀ (s : State) (n : Sess) (tag : Nat), Idle s n →
    let u := serving s n
    (∀ r, let x := reqObj (.subscribe r)
      let st := match r with
        | .value x count byI ms => (subObjects u n x count byI ms).1
        | .event codes => if 1 ≤ codes.length ∧ codes.length ≤ 32 then stOk else stRange
      let no := fun (st : Nat) => Gives (.subscribe n tag r) s (fun t =>
        Answered s t n { op := 0x89, status := st, tag := tag, obj := x, aux := 0, body := .none } ∧ SameConf s t)
      (st ≠ stOk → no st)
      ∧ (st = stOk → freeSub u n = none → no stNoResource)
      ∧ (∀ k, st = stOk → freeSub u n = some k → Gives (.subscribe n tag r) s (fun t =>
          Answered s t n { op := 0x89, status := stOk, tag := tag, obj := x, aux := 0, body := .sub k } ∧ SameConf s t
          ∧ ∃ b, tget (sess t n).subs none k = some b ∧ b.req = r)))
    ∧ (∀ k, k < 64 → (tget (sess s n).subs none k).isSome = true → Gives (.unsubscribe n tag k) s (fun t =>
        Answered s t n { op := 0x8A, status := stOk, tag := tag, obj := 0, aux := 0, body := .none } ∧ SameConf s t
        ∧ tget (sess t n).subs none k = none ∧ numF t (sob n 6) = (tput (sess s n).subs none k none).length))
    ∧ (∀ k, (64 ≤ k ∨ tget (sess s n).subs none k = none) → Gives (.unsubscribe n tag k) s (fun t =>
        Answered s t n { op := 0x8A, status := stRange, tag := tag, obj := 0, aux := 0, body := .none } ∧ SameConf s t))

/-- TXN_BEGIN and TXN_EXPIRED complete, and a WRITE inside a transaction: it is checked and held, nothing is written, and the first bad status is
kept; a transaction that has run out is discarded, and its session told (R239).
The model's choice enters it as log entries 130 and 138. -/
def Obligations.TransactionsHoldTheirWrites : Prop :=
  ∀ (s : State) (n : Sess) (tag : Nat),
    (Idle s n → 7 ≤ s.boot.step →
      ((inTransition s = false ∧ (sess s n).txn = none) → Gives (.txnBegin n tag) s (fun t =>
        Answered s t n { op := 0x85, status := stOk, tag := tag, obj := 0, aux := 0, body := .none } ∧ SameConf s t
        ∧ (sess t n).txn = some { writes := [], bad := stOk, start := s.now } ∧ numF t (sob n 4) = 1))
      ∧ ((inTransition s = true ∨ (sess s n).txn.isSome = true) → Gives (.txnBegin n tag) s (fun t =>
        Answered s t n { op := 0x85, status := stBusy, tag := tag, obj := 0, aux := 0, body := .none } ∧ SameConf s t
        ∧ (sess t n).txn = (sess s n).txn))
      ∧ (∀ z x v, (sess s n).txn = some z →
        (∀ e u', checkWrite (serving s n) n x v = (stOk, some e, u') → z.writes.length < 4096 →
          Gives (.write n tag x v) s (fun t => Answered s t n { op := 0x82, status := stOk, tag := tag, obj := x, aux := 0, body := .none }
            ∧ t.dict.bank = s.dict.bank ∧ t.dict.landing = s.dict.landing ∧ (∀ o, areaOf o ≠ 1 → o ≠ e.1 + 1 → forceVal t o = forceVal s o) ∧ (sess t n).txn = some { z with writes := z.writes ++ [e] } ∧ numF t (sob n 5) = z.writes.length + 1))
        ∧ (∀ st u', checkWrite (serving s n) n x v = (st, none, u') → z.bad = stOk →
          Gives (.write n tag x v) s (fun t => Answered s t n { op := 0x82, status := st, tag := tag, obj := x, aux := 0, body := .none }
            ∧ (sess t n).txn = some { z with bad := st } ∧ t.dict.bank = s.dict.bank))))
    ∧ (∀ z, sessOpen s n = true → (sess s n).waiting = none → (sess s n).txn = some z → Gives (.txnExpired n) s (fun t =>
        (sess t n).txn = none ∧ numF t (sob n 4) = 0 ∧ numF t (sob n 5) = 0 ∧ SameConf s t))

end

namespace Sys2Proof.Claims
open Machine

/-- The write that a command brings: session, tag, number of the member in the session's dialect, and value. -/
def writeOf (s : State) : Instr → Option (Sess × Nat × Nat × TVal)
  | .write n tag o v => some (n, tag, o, v)
  | .patchWrite n tag o v => some (n, tag, o, v)
  | .clear n tag o v => some (n, tag, o, v)
  | .revert n tag i v => some (n, tag, numberFor s n (member 2 i 0x00B), v)
  | .realign n tag i v => some (n, tag, numberFor s n (member 2 i 0x025), v)
  | .stepAccept n tag i v => some (n, tag, numberFor s n (member 2 i 7), v)
  | .stepReject n tag i v => some (n, tag, numberFor s n (member 2 i 7), v)
  | .rxOpen n tag i v => some (n, tag, numberFor s n (member 4 i 0x080), v)
  | .txOpen n tag i v => some (n, tag, numberFor s n (member 4 i 0x081), v)
  | .restart n tag i v => some (n, tag, numberFor s n (member 4 i 0x00E), v)
  | .closeSession n tag i v => some (n, tag, numberFor s n (member 1 i 0x00A), v)
  | .cancel n tag i v => some (n, tag, numberFor s n (member 14 i 0x012), v)
  | .discard n tag i v => some (n, tag, numberFor s n (member 14 i 0x011), v)
  | .renumber n tag i v => some (n, tag, numberFor s n (member 14 i 0x013), v)
  | .sessionStagingWrite n tag i v => some (n, tag, numberFor s n (member 14 i 0x010), v)
  | .factory n tag i v => some (n, tag, numberFor s n (member 1 i 6), v)
  | .nodeLiveWrite n tag r k v => some (n, tag, numberFor s n (member 6 r (0x800 + k % 0x400)), v)
  | .imageWrite n tag i v => some (n, tag, numberFor s n (member 9 i 0), v)
  | .placementListWrite n tag i b v => some (n, tag, numberFor s n (member 9 i (if b then 0x00A else 9)), v)
  | .reqMode n tag i v => some (n, tag, numberFor s n (member 1 i 3), v)
  | .rbGo n tag i v => some (n, tag, numberFor s n (member 5 i 0x016), v)
  | .setpoint n tag i v => some (n, tag, numberFor s n (member 10 i 3), v)
  | .train n tag i v => some (n, tag, numberFor s n (member 10 i 6), v)
  | .recover n tag i v => some (n, tag, numberFor s n (member 13 i 2), v)
  | .logClear n tag i v => some (n, tag, numberFor s n (member 13 i 0x010), v)
  | .fullTest n tag i v => some (n, tag, numberFor s n (member 13 i 0x011), v)
  | .tempClear n tag i v => some (n, tag, numberFor s n (member 0 i 0x032), v)
  | .fwData n tag i v => some (n, tag, numberFor s n (member 0 i 0x021), v)
  | .fwVerify n tag i v => some (n, tag, numberFor s n (member 0 i 0x022), v)
  | .handover n tag i v => some (n, tag, numberFor s n (member 12 i 7), v)
  | _ => none

/-- A session's write outside a transaction that is served at once. -/
def Ready (s : State) (n : Sess) : Prop := Idle s n ∧ (7 ≤ s.boot.step ∨ isFatal s = true) ∧ (sess s n).txn = none

/-- A command writes a member with a value: the write passes every check, and no other session holds the instance. -/
def Accepts (s : State) (i : Instr) (n : Sess) (o : Obj) (w : Val) : Prop :=
  Ready s n ∧ lockHolder s n (baseOf o) = none
  ∧ ∃ tag x v u, writeOf s i = some (n, tag, x, v) ∧ checkWrite (serving s n) n x v = (stOk, some (o, w), u)

/-- A write command completes with its reply OK, and something holds after it. -/
def Writes (s : State) (i : Instr) (p : State → Prop) : Prop :=
  ∀ n tag x v, writeOf s i = some (n, tag, x, v) → Gives i s (fun t =>
    Answered s t n { op := 0x82, status := stOk, tag := tag, obj := x, aux := 0, body := .none } ∧ p t)

end Sys2Proof.Claims

section
open Sys2Proof Sys2Proof.Machine Sys2Proof.Claims

/-- Each write row is a WRITE of its member, and a write that fails a check is answered with the status of the first check that fails, and
changes neither the bank nor what lands nor a value in force outside areas 1, 4 and 9 (R232, R238). -/
def Sys2Proof.Claims.RefusedWritesChangeNothing : Prop :=
  ∀ (s : State) (i : Instr) (n : Sess) (tag x : Nat) (v : TVal), writeOf s i = some (n, tag, x, v) →
    exec i s = exec (.write n tag x v) s
    ∧ ∀ st u, Ready s n → checkWrite (serving s n) n x v = (st, none, u) → Gives i s (fun t =>
        Answered s t n { op := 0x82, status := st, tag := tag, obj := x, aux := 0, body := .none }
        ∧ t.dict.bank = s.dict.bank ∧ t.dict.landing = s.dict.landing
        ∧ ∀ o, areaOf o ≠ 1 → areaOf o ≠ 4 → areaOf o ≠ 9 → forceVal t o = forceVal s o)

/-- The checks of a write come in the order of R232: the object exists; it can be written; the privilege; the mode; transition or
transaction; type; range; the object's own rule (R231, R232, R249). -/
def Sys2Proof.Claims.ChecksComeInTheirOrder : Prop :=
  ∀ (s : State) (n : Sess) (x : Nat) (v : TVal),
    (isPrivateArea s n x = true → (checkWrite s n x v).1 = stDenied)
    ∧ (isPrivateArea s n x = false → namedRow s n x = none → (checkWrite s n x v).1 = stNoObject)
    ∧ ∀ o r, isPrivateArea s n x = false → namedRow s n x = some (o, r) → isReqMode o = false →
      (isRo r = true → (checkWrite s n x v).1 = stDenied)
      ∧ (isRo r = false → ruledOut s o = false →
        (privOf s n < needPriv n o r → (checkWrite s n x v).1 = stDenied)
        ∧ (needPriv n o r ≤ privOf s n →
          (modeForbids s o (valNat v.val) = true → (checkWrite s n x v).1 = stMode)
          ∧ (modeForbids s o (valNat v.val) = false →
            ((inTransition s = true ∨ txnForbids s n o = true) → (checkWrite s n x v).1 = stBusy)
            ∧ (inTransition s = false → txnForbids s n o = false →
              (typeOk s n o r v = false → (checkWrite s n x v).1 = stType)
              ∧ (typeOk s n o r v = true → rangeOk s o r (nativeVal s n o v) = false → (checkWrite s n x v).1 = stRange)
              ∧ (typeOk s n o r v = true → rangeOk s o r (nativeVal s n o v) = true →
                (checkWrite s n x v).1 = ownStatus s n o r ((nativeVal s n o v).getD v.val))))))

/-- WRITE_BLOCK completes: a block of no length from 1 to 4,096 or one that carries into another field answers RANGE, one of unlike types
TYPE_MISMATCH, one whose object fails a check that status, each of the two with the index in AUX and nothing written; one that passes enters the
bank whole, or the transaction (R238, R239). The model's choice enters it as log entry 131. -/
def Sys2Proof.Claims.BlocksAreWrittenWhole : Prop :=
  ∀ (s : State) (n : Sess) (tag x : Nat) (b : Bool) (vs : List TVal), Idle s n → (7 ≤ s.boot.step ∨ isFatal s = true) →
    let u := serving s n
    let i := Instr.writeBlock n tag x b vs
    let done := fun (t : State) (st aux : Nat) => Answered s t n { op := 0x84, status := st, tag := tag, obj := x, aux := aux, body := .none }
    let kept := fun (t : State) => t.dict.bank = s.dict.bank ∧ t.dict.landing = s.dict.landing
    ((vs = [] ∨ 4096 < vs.length ∨ blockNos u n x vs.length b = none) → Gives i s (fun t => done t stRange 0 ∧ kept t ∧ (sess t n).txn = (sess s n).txn))
    ∧ ∀ xs, vs ≠ [] → vs.length ≤ 4096 → blockNos u n x vs.length b = some xs →
      let a := checkAll n 0 u (xs.zip vs)
      (∀ k, (sess s n).txn = none → oddType u n (xs.zip vs) = some k → Gives i s (fun t => done t stType k ∧ kept t))
      ∧ (oddType u n (xs.zip vs) = none →
        (∀ k st, (sess s n).txn = none → a.2.2 = some (k, st) → Gives i s (fun t => done t st k ∧ kept t))
        ∧ ((sess s n).txn = none → a.2.2 = none →
            (∀ e ∈ a.1, areaOf e.1 ≠ 11 ∧ lockHolder s n (baseOf e.1) = none ∧ ∃ r, lookup s e.1 = some r ∧ isWo r = false ∧ goesToBank s n r = true) →
            Gives i s (fun t => done t stOk 0 ∧ t.dict.bank = a.1.foldl (fun l e => putEntry e.1 e.2 l) s.dict.bank ∧ t.dict.landing = s.dict.landing))
        ∧ (∀ z, (sess s n).txn = some z → a.2.2 = none → z.bad = stOk → z.writes.length + a.1.length ≤ 4096 →
            Gives i s (fun t => done t stOk 0 ∧ kept t ∧ (sess t n).txn = some { z with writes := z.writes ++ a.1 }
              ∧ numF t (sob n 5) = z.writes.length + a.1.length)))

/-- Claims.ChecksComeInTheirOrder, Claims.RefusedWritesChangeNothing and Claims.BlocksAreWrittenWhole, with which WRITE_BLOCK completes, together.
The model's choice enters it as log entries 129 and 131. -/
def Obligations.WritesAreCheckedInOrder : Prop :=
  Sys2Proof.Claims.ChecksComeInTheirOrder ∧ Sys2Proof.Claims.RefusedWritesChangeNothing ∧ Sys2Proof.Claims.BlocksAreWrittenWhole

/-- WRITE, IMAGE_WRITE, PLACEMENT_LIST_WRITE and PATCH_WRITE of a member that acts on the bank complete: the bank holds the value, its other
entries stay, and nothing in force changes but LOAD_STATUS of an image (R202, R232). A write of ENTRY enters its five members, and BEATS of an
entry in AUTO is the engine's (R43, R44). The model's choice enters it as log entries 104 and 119. -/
def Obligations.StagedWritesEnterTheBank : Prop :=
  ∀ (s : State) (i : Instr) (n : Sess) (o : Obj) (w : Val) (r : Row), Accepts s i n o w →
    lookup s o = some r → isWo r = false → goesToBank s n r = true →
    (areaOf o ≠ 11 → Writes s i (fun t => bankVal t o = some w ∧ (∀ p, p ≠ o → bankVal t p = bankVal s p) ∧ t.dict.landing = s.dict.landing
      ∧ ∀ p, areaOf p ≠ 1 → p ≠ o + 1 → forceVal t p = forceVal s p))
    ∧ (areaOf o = 11 → memOf o = 0x00C → Writes s i (fun t =>
        bankVal t (baseOf o) = some (.num (bit (valNat w) 63)) ∧ bankVal t (baseOf o + 4) = some (.num (bit (valNat w) 62))
        ∧ bankVal t (baseOf o + 3) = some (.num (bits (valNat w) 61 60)) ∧ bankVal t (baseOf o + 2) = some (.num (bits (valNat w) 59 54))
        ∧ bankVal t (baseOf o + 1) = some (.num (bits (valNat w) 53 46))
        ∧ (bit (valNat w) 62 = 1 → bankVal t (baseOf o + 5) = some (.num (bits (valNat w) 17 0)))))
    ∧ (areaOf o = 11 → memOf o ≠ 0x00C → Writes s i (fun t =>
        (memOf o = 5 → valNat (stagedVal s (baseOf o + 4)) = 0 → t.dict.bank = s.dict.bank)
        ∧ (¬(memOf o = 5 ∧ valNat (stagedVal s (baseOf o + 4)) = 0) → bankVal t o = some w)))

/-- WRITE, PATCH_WRITE, NODE_LIVE_WRITE and SESSION_STAGING_WRITE of a LIVE member complete: SESSION_STAGING changes the session, a member of no
domain is in force at once, and one of a domain is on its way to its frame; NODE_LIVE lands on its NODE member (R163, R202, R228).
The model's choice enters it as log entries 23, 126, 144 and 145. -/
def Obligations.LiveWritesLandInTheirDomain : Prop :=
  ∀ (s : State) (i : Instr) (n : Sess) (o : Obj) (w : Val) (r : Row), Accepts s i n o w →
    lookup s o = some r → isWo r = false → goesToBank s n r = false →
    let lands := fun (p : Obj) => Writes s i (fun t => t.dict.bank = s.dict.bank ∧
      ∃ y, (y ∈ t.dict.landing ∨ (landDomain s p, y) ∈ t.dict.held) ∧ y.obj = p ∧ y.val = w ∧ y.dom = landDomain s p
        ∧ y.frame = liveFrame s (landDomain s p) p ∧ y.sample = 0 ∧ y.commit = false)
    (o = commitObj + 0x010 → Writes s i (fun t => (sess t n).staging = (valNat w == 1) ∧ SameConf s t))
    ∧ (o ≠ commitObj + 0x010 → noDomain o = true → (areaOf o ≠ 1 ∨ o = ob 1 0x200 0 ∨ o = ob 1 0x200 1) →
        Writes s i (fun t => forceVal t o = w ∧ t.dict.bank = s.dict.bank))
    ∧ (noDomain o = false → areaOf o = 6 → 0x800 ≤ memOf o → lands (o - 0x800))
    ∧ (noDomain o = false → ¬(areaOf o = 6 ∧ 0x800 ≤ memOf o) → ¬(areaOf o = 10 ∧ 0x100 ≤ instOf o ∧ memOf o = 3) → lands o)

/-- REVERT, REALIGN, STEP_ACCEPT, STEP_REJECT, RX_OPEN, TX_OPEN and RESTART complete: the domain takes up its selection or its phase at its next
tick; an accepted step locks the servo, a rejected one holds it; the lowest free context is staged with its channels and named in OPENED; a
faulted ring starts again (R271, R283, R288, R303, R341). The model's choice enters it as log entries 28, 74 and 128. -/
def Obligations.ClockAndStreamWritesAct : Prop :=
  ∀ (s : State) (n : Sess) (tag : Nat) (v : TVal) (w : Val),
    (∀ d, d < 4 → (Accepts s (.revert n tag d v) n (ob 2 d 0x00B) w → Writes s (.revert n tag d v) (fun t => (dom t d).revert = true))
      ∧ (Accepts s (.realign n tag d v) n (ob 2 d 0x025) w → Writes s (.realign n tag d v) (fun t => ∀ j, j < 3 → j ∈ (dom t d).waiting)))
    ∧ (∀ k, k < 4 → ∀ i ∈ [Instr.stepAccept n tag (0x10 + k) v, .stepReject n tag (0x10 + k) v], Accepts s i n (tbObj k + 7) w →
      Writes s i (fun t => servo t k = (if valNat w = 1 then 2 else 5)))
    ∧ (∀ c, freeContext s 0 = some c → Accepts s (.rxOpen n tag 0x200 v) n (ob 4 0x200 0x080) w →
      Writes s (.rxOpen n tag 0x200 v) (fun t => (sess t n).opened = c ∧ bankVal t (ctxObj c) = some (.num 1) ∧ bankVal t (ctxObj c + 5) = some (.num (valNat w))))
    ∧ (∀ c, freeContext s 0x100 = some c → Accepts s (.txOpen n tag 0x200 v) n (ob 4 0x200 0x081) w →
      Writes s (.txOpen n tag 0x200 v) (fun t => (sess t n).opened = c - 0x100 ∧ bankVal t (ctxObj c) = some (.num 1)
        ∧ bankVal t (ctxObj c + 5) = some (.num (valNat w))))
    ∧ (∀ k, 32 ≤ k → k < 64 → Accepts s (.restart n tag (0x300 + k) v) n (ringObj k + 0x00E) w →
      Writes s (.restart n tag (0x300 + k) v) (fun t => unitState t (ringObj k) = 5 ∧ (life t (ringObj k)).request = some false
        ∧ (life t (ringObj k)).again = true))

/-- CLOSE and CLOSE_SESSION complete: the session is no longer open, what it held, its transaction and subscriptions with it, is gone, the count of
sessions falls, a pair that carried it is OFF, and its staged writes stay; CLOSE_SESSION of another session is answered OK (R236, R248). FACTORY and
DISCARD complete: the first stages the default of every factory member in an empty bank, the second empties it, and nothing in force changes (R204,
R245). The model's choice enters it as log entries 50, 125 and 210. -/
def Obligations.SessionsCloseAndTheBankIsReset : Prop :=
  ∀ (s : State) (n : Sess) (tag : Nat) (v : TVal) (w : Val),
    (Idle s n → Gives (.close n tag) s (fun t => sessOpen t n = false ∧ (sess t n).txn = none ∧ (sess t n).subs = []
        ∧ t.dict.bank = s.dict.bank ∧ t.dict.factory = s.dict.factory ∧ t.dict.landing = s.dict.landing
        ∧ numF t (ob 1 0x200 2) = numF s (ob 1 0x200 2) - 1 ∧ (∀ m, m ≠ n → sessOpen t m = sessOpen s m)
        ∧ (∀ i, pairOf s n = some i → (cmdPair t i).state = 0 ∧ (cmdPair t i).enable = false)))
    ∧ (∀ k, k < 32 → sessOpen s k = true → Accepts s (.closeSession n tag (0x100 + k) v) n (sob k 0x00A) w →
        Gives (.closeSession n tag (0x100 + k) v) s (fun t => sessOpen t k = false ∧ (sess t k).txn = none ∧ (sess t k).subs = []
          ∧ t.dict.bank = s.dict.bank ∧ t.dict.factory = s.dict.factory ∧ t.dict.landing = s.dict.landing
          ∧ numF t (ob 1 0x200 2) = numF s (ob 1 0x200 2) - 1 ∧ (∀ m, m ≠ k → sessOpen t m = sessOpen s m)
          ∧ (∀ i, pairOf s k = some i → (cmdPair t i).state = 0 ∧ (cmdPair t i).enable = false)
          ∧ (k ≠ n → Answered s t n { op := 0x82, status := stOk, tag := tag, obj := numberFor s n (sob k 0x00A), aux := 0, body := .none })))
    ∧ (Accepts s (.factory n tag 0x200 v) n (ob 1 0x200 6) w → Writes s (.factory n tag 0x200 v) (fun t =>
        t.dict.bank = [] ∧ (∀ o, isFactoryMember o = true → bankVal t o = some (factoryVal s o))
        ∧ ∀ o, areaOf o ≠ 1 → forceVal t o = forceVal s o))
    ∧ (Accepts s (.discard n tag 0 v) n (commitObj + 0x011) w → Writes s (.discard n tag 0 v) (fun t => bankEmpty t = true ∧ changeSet t = []
        ∧ ∀ o, areaOf o ≠ 1 → forceVal t o = forceVal s o))

/-- COMMIT and ROLLBACK complete: past the first checks, VALIDATING with the change set taken and the next version number; else the status of
the first check that fails, with nothing changed (R208, R219). CANCEL returns a SCHEDULED commit to IDLE, and RENUMBER starts (R211, R220).
The model's choice enters it as log entry 94. -/
def Obligations.CommitsStartValidation : Prop :=
  ∀ (s : State) (n : Sess) (tag : Nat) (r : CommitReq) (v : TVal) (w : Val),
    let u := serving s n
    let no := fun (i : Instr) (op st : Nat) => Gives i s (fun t =>
      Answered s t n { op := op, status := st, tag := tag, obj := 0, aux := 0, body := .none } ∧ t.commit = s.commit ∧ t.dict.bank = s.dict.bank)
    (Idle s n → (7 ≤ s.boot.step ∨ isFatal s = true) →
      (badCommit u r = true → no (.commit n tag r) 0x87 stRange ∧ no (.rollback n tag r) 0x88 stRange)
      ∧ (badCommit u r = false →
        (firstChecks u n r ≠ stOk → no (.commit n tag r) 0x87 (firstChecks u n r) ∧ no (.rollback n tag r) 0x88 (firstChecks u n r))
        ∧ (firstChecks u n r = stOk →
          Gives (.commit n tag r) s (fun t => commitState t = 1 ∧ (∀ o, areaOf o ≠ 1 → o ≠ commitObj → forceVal t o = forceVal s o)
            ∧ ∃ p, t.commit = some p ∧ p.set = changeSet u ∧ p.kind = 1 ∧ p.number = currentVersion s + 1 ∧ p.label = r.label ∧ p.session = n
                ∧ p.tag = tag ∧ p.req = r)
          ∧ (rollbackTarget u = none → no (.rollback n tag r) 0x88 stRange)
          ∧ ∀ x, rollbackTarget u = some x →
            (changeSet u ≠ [] → no (.rollback n tag r) 0x88 stConflict)
            ∧ (changeSet u = [] → (x.mode ≠ modeNow s ∨ x.rate ≠ rate0 s) → no (.rollback n tag r) 0x88 stMode)
            ∧ (changeSet u = [] → x.mode = modeNow s → x.rate = rate0 s → Gives (.rollback n tag r) s (fun t => commitState t = 1
                ∧ ∃ p, t.commit = some p ∧ p.set = rollbackSet u x.conf ∧ p.kind = 2 ∧ p.source = x.number
                  ∧ p.number = currentVersion s + 1)))))
    ∧ (Accepts s (.cancel n tag 0 v) n (commitObj + 0x012) w → Writes s (.cancel n tag 0 v) (fun t => commitState t = 0 ∧ t.commit = none
        ∧ ∀ y ∈ t.dict.landing, y.commit = false))
    ∧ (Accepts s (.renumber n tag 0 v) n (commitObj + 0x013) w → Writes s (.renumber n tag 0 v) (fun t => commitState t = 4))

/-- COMMIT_VALIDATION_END completes: a commit that changes nothing answers the current version; one that fails a step stays in the bank and is
IDLE with its status, object and step; one whose instant is past is IN_PAST; one that passes is SCHEDULED under its number (R206 to R212).
RENUMBER_END and JOURNAL_WRITE_DONE complete: versions count from 1 again; the version written is PERSISTED, and in the journal it is usable
(R220 to R222).
The model's choice enters it as log entries 94, 101, 104 and 105. -/
def Obligations.ValidationDecidesTheCommit : Prop :=
  ∀ s : State,
    (∀ p, s.commit = some p → commitState s = 1 → (sess s p.session).inbox = [] →
      let c := giveSignals (revive (configWith s p.set))
      let fails := fun (st : Nat) (o : Obj) (k : Nat) => Gives .commitValidationEnd s (fun t => commitState t = 0 ∧ t.commit = none
        ∧ numF t (commitObj + 3) = st ∧ numF t (commitObj + 4) = o ∧ numF t (commitObj + 5) = k ∧ t.dict.bank = s.dict.bank
        ∧ (p.op ≠ 0 → sessOpen s p.session = true →
            Answered s t p.session { op := p.op + 0x80, status := st, tag := p.tag, obj := 0, aux := 0, body := .none }))
      (emptyCommit s p = true → Gives .commitValidationEnd s (fun t => commitState t = 0 ∧ t.commit = none ∧ numF t (commitObj + 3) = stOk
        ∧ (∀ o, areaOf o ≠ 1 → areaOf o ≠ 14 → forceVal t o = forceVal s o)
        ∧ (p.op ≠ 0 → sessOpen s p.session = true →
            Answered s t p.session { op := p.op + 0x80, status := stOk, tag := p.tag, obj := 0, aux := 0, body := .landed (currentVersion s) 0 })))
      ∧ (emptyCommit s p = false →
        (∀ x f, validate s c.1 c.2 = (x, some f) → fails f.1 f.2.1 f.2.2)
        ∧ ∀ x, validate s c.1 c.2 = (x, none) →
          let a := if role x = 1 ∧ x.pair.records.isEmpty = false then drawUpTo x (numF x (pairObj + 5)) else (0, x)
          (commitInstant a.2 p.req (earliest a.2 c.1 a.1) < earliest a.2 c.1 a.1 → fails stPast 0 6)
          ∧ (earliest a.2 c.1 a.1 ≤ commitInstant a.2 p.req (earliest a.2 c.1 a.1) → Gives .commitValidationEnd s (fun t =>
              commitState t = 2 ∧ numF t (commitObj + 3) = stOk ∧ numF t (commitObj + 6) = p.number
              ∧ ∃ q, t.commit = some q ∧ q.number = p.number ∧ q.kind = p.kind ∧ q.req = p.req))))
    ∧ (commitState s = 4 → Gives .renumberEnd s (fun t => commitState t = 0
        ∧ currentVersion t = renumbered s.ver.dir (currentVersion s)
        ∧ t.ver.dir.map Version.number = s.ver.dir.map (fun x => renumbered s.ver.dir x.number) ∧ t.ver.dir.map Version.conf = s.ver.dir.map Version.conf))
    ∧ (∀ v, s.ver.writing = some v → Gives .journalWriteDone s (fun t =>
        (∃ e ∈ t.ver.journal, e.version = v ∧ versionUsable t.ver e = true) ∧ ∀ y ∈ t.ver.dir, y.number = v.number → y.persisted = 2))

/-- CLEAR and LOG_CLEAR, whose effect comes at the next frame where the unit has a domain (R228), REQ_MODE, RB_GO, SETPOINT, TRAIN, RECOVER,
FULL_TEST, TEMP_CLEAR, FW_DATA, FW_VERIFY and HANDOVER complete with the effect that the rule of their member gives (R63, R66, R70, R155,
R387, R400, R405, R428, R444, R452). The model's choice enters it as log entries 52, 108 and 111. -/
def Obligations.SystemWritesAct : Prop :=
  ∀ (s : State) (n : Sess) (tag : Nat) (v : TVal) (w : Val),
    let lands := fun (t : State) (o : Obj) => ∃ y ∈ t.dict.landing, y.obj = o ∧ y.val = w ∧ y.dom = landDomain s o
      ∧ y.frame = liveFrame s (landDomain s o) o ∧ y.sample = 0 ∧ y.commit = false
    (∀ o x, Accepts s (.clear n tag x v) n o w → clears o ≠ [] → areaOf o ≠ 1 →
      (noDomain o = true → Writes s (.clear n tag x v) (fun t => ∀ m ∈ clears o, forceVal t (baseOf o + m) = dfl (baseOf o + m)))
      ∧ (noDomain o = false → Writes s (.clear n tag x v) (fun t => lands t o ∧ ∀ p, areaOf p ≠ 1 → forceVal t p = forceVal s p))
      ∧ ∀ m ∈ clears o, forceVal (putLanded s o w) (baseOf o + m) = dfl (baseOf o + m))
    ∧ (∀ x, Accepts s (.clear n tag (ob 1 0x200 7) x) n (ob 1 0x200 7) w → Writes s (.clear n tag (ob 1 0x200 7) x) (fun t =>
        numF t (ob 1 0x200 3) = 0 ∧ numF t (ob 1 0x200 4) = 0))
    ∧ (Accepts s (.reqMode n tag 0 v) n (modeObj + 3) w →
      (valNat w ≠ 6 → (valNat w ≠ modeNow s ∨ reqRate s ≠ rate0 s) → Writes s (.reqMode n tag 0 v) (fun t =>
        numF t (modeObj + 4) = 1 ∧ t.mode.target = valNat w ∧ t.mode.rate = reqRate s ∧ t.mode.leaving = modeNow s))
      ∧ (valNat w = 6 → modeNow s ≠ 6 → Writes s (.reqMode n tag 0 v) (fun t => numF t (modeObj + 4) = 1 ∧ t.mode.target = 6 ∧ t.mode.rate = 1)))
    ∧ (Accepts s (.rbGo n tag 0x400 v) n (capObj + 0x016) w → Writes s (.rbGo n tag 0x400 v) (fun t => t.audio.cap.rbArmed = true))
    ∧ (∀ ch, ch < 2 → Accepts s (.setpoint n tag (0x100 + ch) v) n (dramObj ch + 3) w →
      (training s = true → Writes s (.setpoint n tag (0x100 + ch) v) (fun t => (dramRt t 0).deferred = some (valNat w)))
      ∧ (training s = false → Writes s (.setpoint n tag (0x100 + ch) v) (fun t => numF t (dramObj 0 + 3) = valNat w)))
    ∧ (∀ ch, ch < 2 → Accepts s (.train n tag (0x100 + ch) v) n (dramObj ch + 6) w →
      Writes s (.train n tag (0x100 + ch) v) (fun t => training t = true ∧ numF t (dramObj 0 + 3) = numF s (dramObj 0 + 3)))
    ∧ (Accepts s (.recover n tag 0 v) n (faultObj + 2) w → Gives (.recover n tag 0 v) s (fun t => t.boot.step = 1 ∧ t.boot.cause = 3
        ∧ t.ver.journal = s.ver.journal ∧ t.aon.cause = 3 ∧ ∀ k, k < 32 → sessOpen t k = false))
    ∧ (Accepts s (.logClear n tag 0 v) n (faultObj + 0x010) w → Writes s (.logClear n tag 0 v) (fun t => lands t (faultObj + 0x010) ∧ t.sage = s.sage)
      ∧ (putLanded s (faultObj + 0x010) w).sage.log = [] ∧ (putLanded s (faultObj + 0x010) w).sage.first = none)
    ∧ (Accepts s (.fullTest n tag 0 v) n (faultObj + 0x011) w → Writes s (.fullTest n tag 0 v) (fun t => numF t (faultObj + 0x012) = 1))
    ∧ (Accepts s (.tempClear n tag 0 v) n (ob 0 0 0x032) w → Writes s (.tempClear n tag 0 v) (fun t => numF t (ob 0 0 0x031) = numF s (ob 0 0 0x030)))
    ∧ (Accepts s (.fwData n tag 0 v) n (ob 0 0 0x021) w → Writes s (.fwData n tag 0 v) (fun t =>
        t.boot.fwWrite = some (numF s (ob 0 0 0x020), valOctets w) ∧ numF t (ob 0 0 0x023) = 1
        ∧ (numF s (ob 0 0 0x020) = 0 → (fwSlot t (otherSlot s)).present = false)))
    ∧ (Accepts s (.fwVerify n tag 0 v) n (ob 0 0 0x022) w → Writes s (.fwVerify n tag 0 v) (fun t => numF t (ob 0 0 0x023) = 2))
    ∧ (Accepts s (.handover n tag 0 v) n (pairObj + 7) w → Writes s (.handover n tag 0 v) (fun t => numF t (pairObj + 8) = 1
        ∧ t.pair.handover = frameOf s 0 + 3))

/-- WRITE and TXN_END take the locks of their instances in ascending order; at the first that another session holds, the command waits with those
before it, and nothing is written; with none held it writes and answers; TXN_END of no or of a bad transaction answers so. LOCK_ACQUIRED completes: the
lock freed, the command takes it and goes on to the next one held, or writes and answers, or answers BUSY with nothing written where a transition runs
by now. LOCK_TIMEOUT completes: LOCK_WAIT passed, the command gives its locks up, answers LOCK_TIMEOUT and writes nothing, and the timeout counts (R74,
R205, R239, R240). The model's choice enters it as log entries 12, 138 and 214. -/
def Obligations.LocksOrderTheWrites : Prop :=
  ∀ (s : State) (n : Sess) (tag : Nat),
    let enters := fun (l : List (Obj × Val)) => ∀ e ∈ l, areaOf e.1 ≠ 11 ∧ ∃ r, lookup s e.1 = some r ∧ isWo r = false ∧ goesToBank s n r = true
    let filled := fun (t : State) (l : List (Obj × Val)) => t.dict.bank = l.foldl (fun b e => putEntry e.1 e.2 b) s.dict.bank
    let done := fun (t : State) (op tag : Nat) (x st : Nat) =>
      Answered s t n { op := op + 0x80, status := st, tag := tag, obj := x, aux := 0, body := .none }
    let holds := fun (b : Obj) => decide (lockHolder s n b ≠ none)
    let waits := fun (t : State) (op tag x : Nat) (l : List (Obj × Val)) =>
      t.dict.bank = s.dict.bank ∧ t.dict.factory = s.dict.factory ∧ t.dict.landing = s.dict.landing
      ∧ (let want := sortUp (l.map (fun e => baseOf e.1))
         (∃ q, (sess t n).waiting = some q ∧ q.op = op ∧ q.tag = tag ∧ q.obj = x ∧ q.writes = l ∧ q.want = want.dropWhile (fun b => !(holds b)))
         ∧ ∀ b ∈ want.takeWhile (fun b => !(holds b)), ∃ y ∈ t.ctl.locks, y.inst = b ∧ y.owner = n)
    (∀ x v e u, Ready s n → checkWrite (serving s n) n x v = (stOk, some e, u) → lockHolder s n (baseOf e.1) ≠ none →
      Gives (.write n tag x v) s (fun t => waits t 0x02 tag x [e] ∧ (sess t n).kept = (sess s n).kept))
    ∧ (Idle s n → 7 ≤ s.boot.step →
      ((sess s n).txn = none → Gives (.txnEnd n tag) s (fun t => done t 0x06 tag 0 stBusy ∧ SameConf s t))
      ∧ ∀ z, (sess s n).txn = some z →
        (z.bad ≠ stOk → Gives (.txnEnd n tag) s (fun t => done t 0x06 tag 0 z.bad ∧ SameConf s t ∧ (sess t n).txn = none ∧ numF t (sob n 4) = 0))
        ∧ (z.bad = stOk → inTransition s = true → Gives (.txnEnd n tag) s (fun t => done t 0x06 tag 0 stBusy ∧ SameConf s t ∧ (sess t n).txn = some z))
        ∧ (z.bad = stOk → inTransition s = false → isFatal s = false →
          (enters z.writes → (∀ e ∈ z.writes, lockHolder s n (baseOf e.1) = none) → Gives (.txnEnd n tag) s (fun t =>
            done t 0x06 tag 0 stOk ∧ filled t z.writes ∧ (sess t n).txn = none ∧ numF t (sob n 4) = 0 ∧ numF t (sob n 5) = 0))
          ∧ ((∃ e ∈ z.writes, lockHolder s n (baseOf e.1) ≠ none) → Gives (.txnEnd n tag) s (fun t =>
            SameConf s t ∧ numF t (sob n 4) = 2 ∧ waits t 0x06 tag 0 z.writes)))
        ∧ (z.bad = stOk → inTransition s = false → isFatal s = true → (∃ e ∈ z.writes, areaOf e.1 ≠ 13) → Gives (.txnEnd n tag) s (fun t =>
            done t 0x06 tag 0 stMode ∧ SameConf s t ∧ (sess t n).txn = none ∧ numF t (sob n 4) = 0)))
    ∧ (∀ q, sessOpen s n = true → (sess s n).waiting = some q →
      (∀ b, q.want = [b] → (q.op = 0x02 ∨ q.op = 0x04 ∨ q.op = 0x06) → (sess s n).inbox = [] →
        (∀ k, lockHolder s n b = some k → (sess s k).waiting = none) →
        (inTransition s = false → enters q.writes → Gives (.lockAcquired n) s (fun t =>
          done t q.op q.tag q.obj stOk ∧ filled t q.writes ∧ (sess t n).waiting = none ∧ ∃ y ∈ t.ctl.locks, y.inst = b ∧ y.owner = n))
        ∧ (inTransition s = true → q.writes ≠ [] → Gives (.lockAcquired n) s (fun t =>
          done t q.op q.tag q.obj stBusy ∧ SameConf s t ∧ (sess t n).waiting = none)))
      ∧ (∀ b c r k, q.want = b :: c :: r → b ≠ c → (∀ k, lockHolder s n b = some k → (sess s k).waiting = none) → lockHolder s n c = some k →
        Gives (.lockAcquired n) s (fun t => SameConf s t ∧ (sess t n).waiting = some { q with want := c :: r }
          ∧ ∃ y ∈ t.ctl.locks, y.inst = b ∧ y.owner = n))
      ∧ (∀ b k, q.want.head? = some b → lockHolder s n b = some k → (sess s k).waiting.isSome = true → exec (.lockAcquired n) s = .next s)
      ∧ ((sess s n).inbox = [] → Gives (.lockTimeout n) s (fun t => done t q.op q.tag q.obj stLock ∧ SameConf s t ∧ (sess t n).waiting = none
        ∧ (q.op = 0x06 → (sess t n).txn = none ∧ numF t (sob n 4) = 0)
        ∧ numF t (ob 1 0x200 4) = numF s (ob 1 0x200 4) + 1 ∧ ∀ l ∈ t.ctl.locks, l.owner ≠ n)))

end

section
open Sys2Proof Sys2Proof.Machine Sys2Proof.Claims

/-- FRAME_TICK completes in every state, for every domain. A running domain takes the instant of its tick and starts its shadow copy (R6, R53). With
nothing due at the tick (no commit at hand, no value on its way, no fault that waits) its FRAME is one more than before, unless it is the first tick;
its ports with a request move: OFF to STARTING, ON to STOPPING, STOPPING to OFF once the drain is done; and with no request waiting at a target its
budget entries report USED and begin again with the whole budget (R9, R27, R47). In RECONFIGURE the domain stops instead; a domain that does not run has
no tick (R73). Time never runs back (log entry 2). -/
def Sys2Proof.Claims.TicksNumberTheirFrames : Prop :=
  ∀ (s : State) (d : Nat) (cycle : Cycle) (low : Bool), d < 4 →
    let i := Instr.frameTick d cycle low
    ((dom s d).running = false → exec i s = .next (atCycle s cycle) ∧ (atCycle s cycle).now = Nat.max s.now cycle)
    ∧ ((dom s d).running = true → numF s (modeObj + 4) = 3 → Gives i s (fun t =>
        (dom t d).running = false ∧ (dom t d).resume = true ∧ t.dict = s.dict ∧ t.now = Nat.max s.now cycle))
    ∧ ((dom s d).running = true → numF s (modeObj + 4) ≠ 3 → Gives i s (fun t =>
        t.now = Nat.max s.now cycle ∧ t.pending = s.pending ∧ (dom t d).cycle = Nat.max s.now cycle ∧ (dom t d).fresh = false
        ∧ (dom t d).resume = false ∧ d ∈ t.dict.copying
        ∧ (s.commit = none → s.dict.landing = [] → s.sage.faults = [] →
          frameOf t d = frameOf s d + (if (dom s d).fresh then 0 else 1)
          ∧ (∀ p, p < 48 → ownerDom s (portObj p) = d →
            (unitState s (portObj p) = 0 → (life s (portObj p)).request = some true → unitState t (portObj p) = 1)
            ∧ (unitState s (portObj p) = 2 → (life s (portObj p)).request = some false → unitState t (portObj p) = 3)
            ∧ (unitState s (portObj p) = 2 → (life s (portObj p)).request ≠ some false → unitState t (portObj p) = 2)
            ∧ (unitState s (portObj p) = 3 → ((life s (portObj p)).drained = true ∨ (life s (portObj p)).drain ≤ 1) → unitState t (portObj p) = 0))
          ∧ ((∀ a ∈ s.xbar.arbs, a.2.queue = []) → ∀ e, e < 256 → ownerDom s (entryObj e) = d →
            numF t (entryObj e + 7) = (budgetRt s e).used ∧ (budgetRt t e).used = 0 ∧ (budgetRt t e).hitZero = false
            ∧ (budgetRt t e).count = (budgetRt s e).running))))

/-- PHASE_WINDOW_START completes in every state, for every domain and phase. The front half of a period serves the frame before, the back half the one
before that (R33, R34). A domain that does not run does nothing, and neither does a phase that has no frame yet with nothing landing; EGRESS of a
domain that a transition has stopped sends zeros where its clock runs on (R73). With nothing landing in the window: INGEST outside SERVICE gives every slot
of a port that delivers its frame of samples; CROSS gives every row of a running tile its frame of sums; EGRESS sends on every port that drives its
slots the samples that its outlets carry, under the fade of the domain, and nothing on the others; a standby leaves its data outputs idle; SERVICE
feeds no signal and sends words of zeros (R30, R33, R63, R64, R162, R315). -/
def Sys2Proof.Claims.PhasesServeTheirFrame : Prop :=
  ∀ (s : State) (d : Nat) (ph : Phase) (words : List (Nat × List Nat)) (late : List Obj),
    let i := Instr.phaseWindowStart d ph words late
    Gives i s (fun t => t.now = s.now ∧ t.pending = s.pending)
    ∧ ((4 ≤ d ∨ ((dom s d).running = false ∧ haltedEgress s d ph = false)) → exec i s = .next s)
    ∧ (d < 4 → haltedEgress s d ph = true → Gives i s (fun t => ∀ p, p < 48 → numF s (portObj p + 2) = d →
        (d ≠ 0 → tget t.pins.sdo [] p = (if portSends s p then List.replicate (frameLen s) (sdoFrame s (portObj p) (fun _ => 0)) else []))
        ∧ (d = 0 → tget t.pins.sdo [] p = tget s.pins.sdo [] p)))
    ∧ (ph ∈ [Phase.ingest, .strip, .cross, .bus, .matrix2, .matrixP] → ∀ p, 1 ≤ p → servedFrame ph p = some (p - 1))
    ∧ (ph ∈ [Phase.output, .egress] → ∀ p, 2 ≤ p → servedFrame ph p = some (p - 2))
    ∧ (d < 4 → (dom s d).running = true → s.dict.landing = [] → ph ≠ .background →
      (servedFrame ph (frameOf s d) = none → Gives i s (fun t => OnlyParts [.net] s t))
      ∧ ∀ f, servedFrame ph (frameOf s d) = some f →
        (ph = .ingest → modeNow s ≠ 6 → Gives i s (fun t => ∀ p j, p < 48 → numF s (portObj p + 2) = d → delivers s (portObj p) f = true →
          j < numF s (portObj p + 4) → ∃ v, (sigOf t (32 * p + j)).frames.head? = some (f, v) ∧ v.length = frameLen s))
        ∧ (ph = .cross → modeNow s ≠ 5 → modeNow s ≠ 6 → Gives i s (fun t => ∀ row ∈ rowsOf s (runTiles s d f) false,
          ∃ v, (tget t.audio.slots ⟨[], none⟩ (instOf row)).frames.head? = some (f, v) ∧ v.length = frameLen s))
        ∧ (ph = .egress → modeNow s = 5 → Gives i s (fun t => ∀ p, p < 48 → numF s (portObj p + 2) = d → tget t.pins.sdo [] p = []))
        ∧ (ph = .egress → modeNow s ≠ 5 → numF s (pairObj + 8) ≠ 2 → s.pair.giving = false → isFatal s = false → Gives i s (fun t =>
          ∀ p, p < 48 → numF s (portObj p + 2) = d →
            (portSends s p = false → tget t.pins.sdo [] p = [])
            ∧ (portSends s p = true → modeNow s = 6 →
              tget t.pins.sdo [] p = (List.range (frameLen s)).map (fun _ => sdoFrame s (portObj p) (fun _ => 0)))
            ∧ (portSends s p = true → modeNow s ≠ 6 → (tdmPort s p).faultK = none →
              (∀ j, j < numF s (portObj p + 4) → 32 ≤ tget (tdmPort s p).outK 0 j ∧ (outletOf s (portObj p + 0x100 + j)).stage = 0
                ∧ ownerDom s (portObj p + 0x100 + j) = d) →
              tget t.pins.sdo [] p = (List.range (frameLen s)).map (fun i => sdoFrame s (portObj p) (fun j =>
                outputWord (numF s (portObj p + 5))
                  (weigh (outWeight (outFade s d) i) (smp (carriedSamples s f (outletOf s (portObj p + 0x100 + j)).carried) i)))))))
        ∧ (ph ≠ .egress → modeNow s = 6 → Gives i s (fun t => t.pins = s.pins ∧ t.audio.sig = s.audio.sig ∧ t.audio.slots = s.audio.slots
          ∧ t.ctxs = s.ctxs ∧ t.host = s.host ∧ t.lanes = s.lanes ∧ t.mem = s.mem)))

/-- Claims.TicksNumberTheirFrames and Claims.PhasesServeTheirFrame together: what FRAME_TICK and PHASE_WINDOW_START do, in every state.
The model's choice enters it as log entries 123 and 124. -/
def Obligations.TicksAndPhasesRunTheirFrames : Prop := Sys2Proof.Claims.TicksNumberTheirFrames ∧ Sys2Proof.Claims.PhasesServeTheirFrame

/-- PHASE_CUTOFF, SHADOW_COPY_END, DRAIN_COMPLETE and BRIDGE_RATIO_SETTLED complete: a unit cut off delivers its substitute and counts, and
so does the budget entry; a row repeats its sum; writes held during the copy are on their way; a drained unit says so; a bridge channel has
its ratio, and one in STARTING is ready for the tick that puts it ON (R10, R27, R53, R55, R67, R97, R193). The model's choice enters it as
log entries 17, 54 and 120. -/
def Obligations.CutOffsAndTickSidesComplete : Prop :=
  ∀ s : State,
    (∀ d ph o, d < 4 → (dom s d).running = true →
      (areaOf o = 8 → Gives (.phaseCutoff d ph [o]) s (fun t => numF t (baseOf o + 0x065) = numF s (baseOf o + 0x065) + 1))
      ∧ (areaOf o = 5 → instOf o < 0x400 → memOf o ≠ 0x054 → Gives (.phaseCutoff d ph [o]) s (fun t =>
          numF t (baseOf o + 0x053) = numF s (baseOf o + 0x053) + 1 ∧ (unitRt t (baseOf o)).delay.miss = true))
      ∧ (areaOf o = 5 → instOf o < 0x400 → memOf o = 0x054 → Gives (.phaseCutoff d ph [o]) s (fun t =>
          numF t o = numF s o + 1 ∧ (unitRt t (baseOf o)).delay.lost = true))
      ∧ (areaOf o = 7 → 0x200 ≤ instOf o → memOf o ≠ 4 → Gives (.phaseCutoff d ph [o]) s (fun t =>
          numF t (baseOf o + 3) = numF s (baseOf o + 3) + 1 ∧ (outRt t (baseOf o)).delay.miss = true))
      ∧ (∀ e, shortEntryOf s d o = some e → areaOf e = 11 → Gives (.phaseCutoff d ph [o]) s (fun t => numF t (e + 0x00A) = numF s (e + 0x00A) + 1))
      ∧ (areaOf o = 6 → instOf o < 0x100 → Gives (.phaseCutoff d ph [o]) s (fun t =>
          let f := (servedFrame ph (frameOf s d)).getD 0
          numF t (ob 7 (instOf o) 0x601) = numF s (ob 7 (instOf o) 0x601) + 1
          ∧ slotFrame t (instOf o) f = (if f = 0 then silence (frameLen s) else slotFrame s (instOf o) (f - 1)))))
    ∧ (∀ d, Gives (.shadowCopyEnd d) s (fun t => d ∉ t.dict.copying ∧ (∀ e, e ≠ d → (e ∈ t.dict.copying ↔ e ∈ s.dict.copying))
        ∧ (∀ y, (d, y) ∉ t.dict.held)
        ∧ ∀ y, (d, y) ∈ s.dict.held → ∃ z ∈ t.dict.landing, z.obj = y.obj ∧ z.dom = y.dom ∧ z.frame = y.frame ∧ z.sample = y.sample ∧ z.commit = y.commit))
    ∧ (∀ u, (unitState s u = 3 ∨ unitState s u = 4) → Gives (.drainComplete u) s (fun t => life t u = { life s u with drained := true }
        ∧ t.dict = s.dict))
    ∧ (∀ c ratio, c < 256 → let u := ob 2 (0x100 + c) 0
      (unitState s u = 1 → Gives (.bridgeRatioSettled c ratio) s (fun t => unitState t u = 1 ∧ numF t (u + 5) = ratio ∧ (bridgeRt t u).ready = true
        ∧ (bridgeRt t u).count = 0 ∧ (bridgeRt t u).fadeK = 0))
      ∧ (unitState s u = 2 → Gives (.bridgeRatioSettled c ratio) s (fun t => unitState t u = 2 ∧ numF t (u + 5) = ratio ∧ bridgeRt t u = bridgeRt s u))
      ∧ (unitState s u ≠ 1 → unitState s u ≠ 2 → exec (.bridgeRatioSettled c ratio) s = .next s))

/-- CORE_CROSSFADE_END, INPUT_CROSSFADE_END, FIR_CROSSFADE_END, LIM_ON_CROSSFADE_END and NODE_RAMP_END complete: a fade that has run its samples
is over, a change held meanwhile starts the next one, and one still running goes on (R142, R143, R165, R175, R200). -/
def Obligations.CrossfadesEndAndHeldChangesStart : Prop :=
  ∀ s : State,
    (∀ u c, (unitRt s u).core = some c →
      (c.k < c.n → Gives (.coreCrossfadeEnd u) s (fun t => unitRt t u = unitRt s u))
      ∧ (c.n ≤ c.k → (∀ e ∈ c.held, e.2 = forceVal s e.1) → Gives (.coreCrossfadeEnd u) s (fun t => unitRt t u = { unitRt s u with core := none }))
      ∧ (c.n ≤ c.k → (∃ e ∈ c.held, e.2 ≠ forceVal s e.1 ∧ noEffect s { unitRt s u with core := none } e.1 = false) → Gives (.coreCrossfadeEnd u) s (fun t => ∃ x, (unitRt t u).core = some x ∧ x.k = 0)))
    ∧ (∀ k c, (unitRt s (ob 5 k 0)).input = some c →
      (c.k < c.n → Gives (.inputCrossfadeEnd k) s (fun t => (unitRt t (ob 5 k 0)).input = some c))
      ∧ (c.n ≤ c.k → c.held = none → Gives (.inputCrossfadeEnd k) s (fun t => (unitRt t (ob 5 k 0)).input = none))
      ∧ (∀ h, c.n ≤ c.k → c.held = some h → h ≠ c.new → Gives (.inputCrossfadeEnd k) s (fun t =>
          (unitRt t (ob 5 k 0)).input = some { k := 0, n := numF s (ob 5 k 0 + 1), old := c.new, new := h, held := none })))
    ∧ (∀ k, let u := ob 7 (0x200 + k) 0
      (∀ c old, (outRt s u).firx = some (c, old, none) → c.n ≤ c.k → Gives (.firCrossfadeEnd k) s (fun t => (outRt t u).firx = none
          ∧ (outRt t u).taps = (outRt s u).taps))
      ∧ (∀ c old h, (outRt s u).firx = some (c, old, h) → c.k < c.n → Gives (.firCrossfadeEnd k) s (fun t => (outRt t u).firx = some (c, old, h)))
      ∧ (∀ c old h, (outRt s u).firx = some (c, old, some h) → c.n ≤ c.k → isOn s (u + 0x010) = true → (outRt s u).fdip = none →
          h ≠ (outRt s u).taps → h.length ≤ 2048 / unitClass s u → (outRt s u).taps.length ≤ 2048 / unitClass s u →
          Gives (.firCrossfadeEnd k) s (fun t => (outRt t u).taps = h ∧ ∃ x, (outRt t u).firx = some (x, (outRt s u).taps, none) ∧ x.k = 0))
      ∧ (∀ c, (outRt s u).lim.onx = some c →
        (c.k < c.n → Gives (.limOnCrossfadeEnd k) s (fun t => (outRt t u).lim.onx = some c))
        ∧ (c.n ≤ c.k → c.held = none → Gives (.limOnCrossfadeEnd k) s (fun t => (outRt t u).lim.onx = none))
        ∧ (∀ h, c.n ≤ c.k → c.held = some h → h ≠ c.new → Gives (.limOnCrossfadeEnd k) s (fun t =>
            (outRt t u).lim.onx = some { k := 0, n := 64, old := c.new, new := h, held := none }))))
    ∧ (∀ row k, let o := ob 6 row k
      ((rampOf s o).active = true → (rampOf s o).len ≤ (rampOf s o).pos → Gives (.nodeRampEnd row k) s (fun t => rampOf t o = { rampOf s o with active := false }))
      ∧ ((rampOf s o).pos < (rampOf s o).len → Gives (.nodeRampEnd row k) s (fun t => rampOf t o = rampOf s o)))

/-- DELAY_DIP_FADE_END, PATCH_DIP_FADE_END and GATE_HOLD_EXPIRED complete: after 32 samples of fade-out the new delay, the new window or the
new signal applies and fades in, after 32 more the dip is over; a gate whose hold has run out closes at a sample below T - HYSTERESIS, and at no
other, and GATE_OPEN reports what the samples have left (R146, R153, R188, R201). -/
def Obligations.DipsPassThroughSilence : Prop :=
  ∀ s : State,
    (∀ k d, k < 0x400 → (unitRt s (ob 5 k 0)).delay.dip = some d → 32 ≤ d.k →
      (d.stage = 1 → Gives (.delayDipFadeEnd (ob 5 k 0)) s (fun t => (unitRt t (ob 5 k 0)).delay.now = d.next ∧ numF t (ob 5 k 0x052) = d.next
        ∧ (unitRt t (ob 5 k 0)).delay.dip = some { d with stage := 2, k := 0 }))
      ∧ (d.stage = 2 → d.held = none → Gives (.delayDipFadeEnd (ob 5 k 0)) s (fun t => (unitRt t (ob 5 k 0)).delay.dip = none
        ∧ (unitRt t (ob 5 k 0)).delay.now = (unitRt s (ob 5 k 0)).delay.now)))
    ∧ (∀ k d, k < 0x180 → let u := ob 7 (0x200 + k) 0
      32 ≤ d.k → d.stage = 1 →
      ((outRt s u).delay.dip = some d → Gives (.delayDipFadeEnd u) s (fun t => (outRt t u).delay.now = d.next ∧ numF t (u + 2) = d.next))
      ∧ ((outRt s u).lim.dip = some d → Gives (.delayDipFadeEnd u) s (fun t => (outRt t u).lim.d = d.next))
      ∧ (∀ h, (outRt s u).fdip = some (d, h) → Gives (.delayDipFadeEnd u) s (fun t => (outRt t u).taps = h)))
    ∧ (∀ o, 32 ≤ (outletOf s o).k →
      ((outletOf s o).stage = 1 → (outletOf s o).pending ≠ 0 → Gives (.patchDipFadeEnd o) s (fun t =>
        (outletOf t o).carried = (outletOf s o).pending ∧ (outletOf t o).stage = 2 ∧ (outletOf t o).k = 0))
      ∧ ((outletOf s o).stage = 1 → (outletOf s o).pending = 0 → Gives (.patchDipFadeEnd o) s (fun t => outletOf t o = OutletRt.idle))
      ∧ ((outletOf s o).stage = 2 → Gives (.patchDipFadeEnd o) s (fun t =>
        (outletOf t o).carried = (outletOf s o).carried ∧ (outletOf t o).stage = 0)))
    ∧ (∀ k, let r := (unitRt s (servedBy s k)).path
      let v := if areaOf (servedBy s k) == 5 && k % 2 == 0 then r.gate else r.comp
      (seen [] s (unitObj k + 1) = 0 → Gives (.gateHoldExpired k) s (fun t =>
        numF t (unitObj k + 0x063) = (if v.isOpen then 1 else 0) ∧ (∀ o, o ≠ unitObj k + 0x063 → forceVal t o = forceVal s o)
        ∧ OnlyParts [.force] s t))
      ∧ (seen [] s (unitObj k + 1) ≠ 0 → exec (.gateHoldExpired k) s = .next s))
    ∧ (∀ (lev t hyst : Int) (hold len : Nat),
      (t ≤ lev → gateStep false hold lev t hyst len = (true, len)) ∧ (lev < t → (gateStep false hold lev t hyst len).1 = false)
      ∧ (t - hyst ≤ lev → gateStep true hold lev t hyst len = (true, len))
      ∧ (lev < t - hyst → gateStep true 0 lev t hyst len = (false, 0))
      ∧ (lev < t - hyst → 0 < hold → gateStep true hold lev t hyst len = (true, hold - 1)))

end
end

