-- ==== Sys2Proof/Laws/Tab.lean ====
section
/-!
SUPPORT. Laws/Tab.lean: sparse tables and memory: a read after a write, and that every write keeps the canonical form.
-/
-- One declaration at a time and no linter: the package is compiled as one text under a memory limit.
set_option linter.all false
set_option Elab.async false
namespace Sys2Proof.Machine

variable {α : Type}

theorem tget_tdrop_self (t : Tab α) (d : α) (k : Nat) : tget (tdrop t k) d k = d := by
  induction t with
  | nil => rfl
  | cons e r ih =>
    obtain ⟨a, w⟩ := e
    by_cases h : a = k <;> simp_all [tdrop, tget]

theorem tget_tdrop_other (t : Tab α) (d : α) {k j : Nat} (h : j ≠ k) : tget (tdrop t k) d j = tget t d j := by
  induction t with
  | nil => rfl
  | cons e r ih =>
    obtain ⟨a, w⟩ := e
    by_cases hk : a = k
    · have : a ≠ j := fun e => h (e.symm.trans hk)
      simp_all [tdrop, tget]
    · by_cases hj : a = j <;> simp_all [tdrop, tget]

theorem tget_tins_self (t : Tab α) (d : α) (k : Nat) (v : α) : tget (tins t k v) d k = v := by
  induction t with
  | nil => simp [tins, tget]
  | cons e r ih =>
    obtain ⟨a, w⟩ := e
    by_cases h1 : k < a
    · simp [tins, tget, h1]
    · by_cases h2 : a = k <;> simp [tins, tget, h1, h2, ih]

theorem tget_tins_other (t : Tab α) (d : α) {k j : Nat} (v : α) (h : j ≠ k) : tget (tins t k v) d j = tget t d j := by
  have h' : k ≠ j := fun e => h e.symm
  induction t with
  | nil => simp [tins, tget, h']
  | cons e r ih =>
    obtain ⟨a, w⟩ := e
    by_cases h1 : k < a
    · simp [tins, tget, h1, h']
    · by_cases h2 : a = k
      · simp [tins, tget, h2, h']
      · simp [tins, tget, h1, h2, ih]

/-- A read after a write to the same key gives the value written. -/
@[simp] theorem tget_tput_self [DecidableEq α] (t : Tab α) (d : α) (k : Nat) (v : α) : tget (tput t d k v) d k = v := by
  unfold tput
  split
  · next h => rw [h]; exact tget_tdrop_self t d k
  · exact tget_tins_self t d k v

/-- A write leaves every other key alone. -/
theorem tget_tput_other [DecidableEq α] (t : Tab α) (d e : α) {k j : Nat} (v : α) (h : j ≠ k) :
    tget (tput t d k v) e j = tget t e j := by
  unfold tput
  split
  · exact tget_tdrop_other t e h
  · exact tget_tins_other t e v h

theorem tput_eq_of_ne [DecidableEq α] (t : Tab α) (d e : α) (k j : Nat) (v : α) :
    tget (tput t d k v) e j = if j = k ∧ v ≠ d then v else if j = k then e else tget t e j := by
  by_cases h : j = k
  · subst h
    by_cases hv : v = d
    · simp [tput, hv, tget_tdrop_self]
    · simp [tput, hv, tget_tins_self]
  · simp [h, tget_tput_other t d e v h]

theorem tins_keys (t : Tab α) (k b : Nat) (v : α) (h : ∀ e ∈ t, b < e.1) (hb : b < k) : ∀ e ∈ tins t k v, b < e.1 := by
  induction t with
  | nil => simp [tins]; exact hb
  | cons e r ih =>
    obtain ⟨a, w⟩ := e
    have ha : b < a := h (a, w) (by simp)
    have hr : ∀ e ∈ r, b < e.1 := fun e he => h e (by simp [he])
    unfold tins
    split
    · intro e he
      simp at he
      obtain rfl | rfl | he := he
      · exact hb
      · exact ha
      · exact hr e he
    · split
      · intro e he
        simp at he
        obtain rfl | he := he
        · exact hb
        · exact hr e he
      · intro e he
        simp at he
        obtain rfl | he := he
        · exact ha
        · exact ih hr e he

theorem tabWf_tdrop [DecidableEq α] (d : Nat → α) (t : Tab α) (k : Nat) (h : tabWf d t = true) : tabWf d (tdrop t k) = true := by
  induction t with
  | nil => rfl
  | cons e r ih =>
    obtain ⟨a, w⟩ := e
    simp only [tabWf, Bool.and_eq_true, decide_eq_true_eq, List.all_eq_true] at h
    have hr := ih h.2
    by_cases hk : a = k
    · simpa [tdrop, hk] using hr
    · have : tdrop ((a, w) :: r) k = (a, w) :: tdrop r k := by simp [tdrop, hk]
      rw [this]
      simp only [tabWf, Bool.and_eq_true, decide_eq_true_eq, List.all_eq_true]
      refine ⟨⟨h.1.1, fun e he => h.1.2 e ?_⟩, hr⟩
      exact (List.mem_filter.mp he).1

theorem tabWf_tins [DecidableEq α] (d : Nat → α) (t : Tab α) (k : Nat) (v : α) (hv : v ≠ d k) (h : tabWf d t = true) :
    tabWf d (tins t k v) = true := by
  induction t with
  | nil => simp [tins, tabWf, hv]
  | cons e r ih =>
    obtain ⟨a, w⟩ := e
    have h0 := h
    simp only [tabWf, Bool.and_eq_true, decide_eq_true_eq, List.all_eq_true] at h
    obtain ⟨⟨h1, h2⟩, h3⟩ := h
    unfold tins
    split
    · next hk =>
      simp only [tabWf, Bool.and_eq_true, decide_eq_true_eq, List.all_eq_true, List.mem_cons]
      refine ⟨⟨hv, ?_⟩, ⟨h1, h2⟩, h3⟩
      rintro e (rfl | he)
      · exact hk
      · exact Nat.lt_trans hk (h2 e he)
    · split
      · next hk =>
        subst hk
        simp only [tabWf, Bool.and_eq_true, decide_eq_true_eq, List.all_eq_true]
        exact ⟨⟨hv, h2⟩, h3⟩
      · next hk1 hk2 =>
        simp only [tabWf, Bool.and_eq_true, decide_eq_true_eq, List.all_eq_true]
        exact ⟨⟨h1, tins_keys r k a v h2 (by omega)⟩, ih h3⟩

/-- A write keeps the canonical form of a table. -/
theorem tabWf_tput [DecidableEq α] (d : Nat → α) (t : Tab α) (k : Nat) (v : α) (h : tabWf d t = true) :
    tabWf d (tput t (d k) k v) = true := by
  unfold tput
  split
  · exact tabWf_tdrop d t k h
  · next hv => exact tabWf_tins d t k v hv h

theorem tabWf_filter [DecidableEq α] (d : Nat → α) (t : Tab α) (p : Nat × α → Bool) (h : tabWf d t = true) :
    tabWf d (t.filter p) = true := by
  induction t with
  | nil => rfl
  | cons e r ih =>
    simp only [tabWf, Bool.and_eq_true, decide_eq_true_eq, List.all_eq_true] at h
    by_cases hp : p e = true
    · rw [List.filter_cons_of_pos hp]
      simp only [tabWf, Bool.and_eq_true, decide_eq_true_eq, List.all_eq_true]
      exact ⟨⟨h.1.1, fun x hx => h.1.2 x ((List.mem_filter.mp hx).1)⟩, ih h.2⟩
    · rw [List.filter_cons_of_neg hp]
      exact ih h.2

/-! ### Memory -/

/-- A byte written reads back. -/
@[simp] theorem memByte_memPut_self (m : List Host.Cell) (a : Nat) (b : Byte) : memByte (memPut m a b) a = b :=
  tget_tput_self m 0 a b

/-- A byte written leaves every other byte as it was. -/
theorem memByte_memPut_other (m : List Host.Cell) (a c : Nat) (b : Byte) (h : c ≠ a) :
    memByte (memPut m a b) c = memByte m c :=
  tget_tput_other m 0 0 b h

/-- A write of one byte keeps the canonical form of memory. -/
theorem memWf_memPut (m : List Host.Cell) (a : Nat) (b : Byte) (h : memWf m = true) : memWf (memPut m a b) = true :=
  tabWf_tput (fun _ => (0 : Byte)) m a b h

/-- A write of many bytes keeps the canonical form of memory. -/
theorem memWf_memWrite (b : Octets) : ∀ (m : List Host.Cell) (a : Nat), memWf m = true → memWf (memWrite m a b) = true := by
  induction b with
  | nil => intro m a h; exact h
  | cons x xs ih => intro m a h; exact ih _ _ (memWf_memPut m a _ h)

/-- A write leaves every byte outside the bytes written as it was. -/
theorem memByte_memWrite_outside (b : Octets) : ∀ (m : List Host.Cell) (a c : Nat), (c < a ∨ a + b.length ≤ c) →
    memByte (memWrite m a b) c = memByte m c := by
  induction b with
  | nil => intros; rfl
  | cons x xs ih =>
    intro m a c h
    simp only [List.length_cons] at h
    show memByte (memWrite (memPut m a (BitVec.ofNat 8 x)) (a + 1) xs) c = memByte m c
    rw [ih _ _ _ (by omega), memByte_memPut_other _ _ _ _ (by omega)]

/-- The bytes written read back. -/
theorem memByte_memWrite_inside (b : Octets) : ∀ (m : List Host.Cell) (a i : Nat) (h : i < b.length),
    memByte (memWrite m a b) (a + i) = BitVec.ofNat 8 b[i] := by
  induction b with
  | nil => intro m a i h; simp at h
  | cons x xs ih =>
    intro m a i h
    show memByte (memWrite (memPut m a (BitVec.ofNat 8 x)) (a + 1) xs) (a + i) = _
    cases i with
    | zero =>
      rw [memByte_memWrite_outside _ _ _ _ (by omega)]
      simp
    | succ j =>
      have := ih (memPut m a (BitVec.ofNat 8 x)) (a + 1) j (by simpa using h)
      rw [show a + (j + 1) = a + 1 + j by omega, this]
      simp

end Sys2Proof.Machine
end

