-- ==== Sys2Proof/Laws/Effects.lean ====
section
/-!
SUPPORT. Laws/Effects.lean: what the shared operations do: values in force, notifications and events, the life cycle of units, and the
results of a lane on their way.
-/
-- One declaration at a time and no linter: the package is compiled as one text under a memory limit.
set_option linter.all false
set_option Elab.async false
namespace Sys2Proof.Machine

/-! ### Values in force -/

theorem forceVal_setF_self (s : State) (o : Obj) (v : Val) : forceVal (setF s o v) o = v := tget_tput_self _ _ _ _

theorem forceVal_setF_other (s : State) (o p : Obj) (v : Val) (h : p ≠ o) : forceVal (setF s o v) p = forceVal s p := by
  unfold forceVal setF
  exact tget_tput_other _ _ _ _ h

theorem forceVal_congr {s t : State} (h : t.dict.force = s.dict.force) (o : Obj) : forceVal t o = forceVal s o := by
  unfold forceVal; rw [h]

theorem numF_congr {s t : State} (h : t.dict.force = s.dict.force) (o : Obj) : numF t o = numF s o := by
  unfold numF; rw [forceVal_congr h]

@[simp] theorem numF_setN_self (s : State) (o : Obj) (n : Nat) : numF (setN s o n) o = n := by
  unfold numF setN; rw [forceVal_setF_self]; rfl

theorem numF_setN_other (s : State) (o p : Obj) (n : Nat) (h : p ≠ o) : numF (setN s o n) p = numF s p := by
  unfold numF setN; rw [forceVal_setF_other _ _ _ _ h]

@[simp] theorem numF_bump_self (s : State) (o : Obj) : numF (bump s o) o = numF s o + 1 := numF_setN_self _ _ _

theorem numF_bump_other (s : State) (o p : Obj) (h : p ≠ o) : numF (bump s o) p = numF s p := numF_setN_other _ _ _ _ h

@[simp] theorem forceVal_setSess (s : State) (n : Sess) (x : Session) (o : Obj) : forceVal (setSess s n x) o = forceVal s o := rfl
@[simp] theorem numF_setSess (s : State) (n : Sess) (x : Session) (o : Obj) : numF (setSess s n x) o = numF s o := rfl
@[simp] theorem numF_setLane (s : State) (n : Nat) (x : Lane) (o : Obj) : numF (setLane s n x) o = numF s o := rfl
@[simp] theorem numF_setLife (s : State) (u : Obj) (x : Life) (o : Obj) : numF (setLife s u x) o = numF s o := rfl
@[simp] theorem numF_setDom (s : State) (d : Nat) (x : Domain) (o : Obj) : numF (setDom s d x) o = numF s o := rfl
@[simp] theorem numF_setTb (s : State) (k : Nat) (x : TimeBase) (o : Obj) : numF (setTb s k x) o = numF s o := rfl

/-! ### Events change only sessions and the service counters (area 1) -/

theorem areaOf_ob1 {i m : Nat} (hi : i < 2 ^ 16) (hm : m < 2 ^ 12) : areaOf (ob 1 i m) = 1 := by
  unfold areaOf ob; omega

theorem forceVal_pushNotif (s : State) (n : Nat) (x : Notif) (o : Obj) (hn : n < 32) (ho : areaOf o ≠ 1) :
    forceVal (pushNotif s n x) o = forceVal s o := by
  have h7 : o ≠ sob n 7 := fun e => ho (by rw [e]; exact areaOf_ob1 (by omega) (by omega))
  have h8 : o ≠ sob n 8 := fun e => ho (by rw [e]; exact areaOf_ob1 (by omega) (by omega))
  have h5 : o ≠ ob 1 0x200 5 := fun e => ho (by rw [e]; exact areaOf_ob1 (by omega) (by omega))
  unfold pushNotif
  dsimp only
  split
  · rfl
  · split
    · unfold bump setN
      rw [forceVal_setF_other _ _ _ _ h5, forceVal_setF_other _ _ _ _ h8]
      rfl
    · unfold setN
      rw [forceVal_setF_other _ _ _ _ h7]
      rfl

/-- A property that each step of a fold over the sessions keeps. -/
theorem foldl_keeps {α : Type} (P : State → Prop) (f : State → α → State) : ∀ (l : List α) (s : State),
    (∀ t x, x ∈ l → P t → P (f t x)) → P s → P (l.foldl f s) := by
  intro l
  induction l with
  | nil => intro s _ h; exact h
  | cons x r ih => intro s hf h; exact ih _ (fun t y hy => hf t y (List.mem_cons_of_mem _ hy)) (hf _ _ List.mem_cons_self h)

theorem forceVal_raiseBut (s : State) (but : List Nat) (c : Nat) (x : Obj) (a : Nat) (o : Obj) (ho : areaOf o ≠ 1) :
    forceVal (raiseBut s but c x a) o = forceVal s o := by
  unfold raiseBut
  apply foldl_keeps (fun t => forceVal t o = forceVal s o)
  · intro t n hn ht
    split
    · rw [forceVal_pushNotif _ _ _ _ (List.mem_range.mp hn) ho]
      exact ht
    · exact ht
  · rfl

theorem forceVal_raise (s : State) (c : Nat) (x : Obj) (a : Nat) (o : Obj) (ho : areaOf o ≠ 1) :
    forceVal (raise s c x a) o = forceVal s o := forceVal_raiseBut s [] c x a o ho

theorem numF_raise (s : State) (c : Nat) (x : Obj) (a : Nat) (o : Obj) (ho : areaOf o ≠ 1) :
    numF (raise s c x a) o = numF s o := by
  unfold numF; rw [forceVal_raise _ _ _ _ _ ho]

/-! ### The life cycle (R8) -/

theorem unitState_moveUnit (s : State) (u : Obj) (k : Nat) (h : areaOf (stateObj u) ≠ 1) : unitState (moveUnit s u k) u = k := by
  unfold moveUnit
  split
  · next e => exact e
  · unfold unitState
    rw [numF_raise _ _ _ _ _ h, numF_setN_self]

theorem numF_moveUnit_other (s : State) (u : Obj) (k : Nat) (o : Obj) (h : areaOf o ≠ 1) (ho : o ≠ stateObj u) :
    numF (moveUnit s u k) o = numF s o := by
  unfold moveUnit
  split
  · rfl
  · rw [numF_raise _ _ _ _ _ h, numF_setN_other _ _ _ _ ho]

@[simp] theorem life_setLife_self (s : State) (u : Obj) (x : Life) : life (setLife s u x) u = x := tget_tput_self _ _ _ _

theorem life_setLife_other (s : State) (u v : Obj) (x : Life) (h : v ≠ u) : life (setLife s u x) v = life s v :=
  tget_tput_other _ _ _ _ h

@[simp] theorem sess_setSess_self (s : State) (n : Sess) (x : Session) : sess (setSess s n x) n = x := tget_tput_self _ _ _ _

theorem sess_setSess_other (s : State) (n m : Sess) (x : Session) (h : m ≠ n) : sess (setSess s n x) m = sess s m :=
  tget_tput_other _ _ _ _ h

/-! ### Lanes -/

@[simp] theorem lane_setLane_self (s : State) (n : Nat) (x : Lane) : lane (setLane s n x) n = x := tget_tput_self _ _ _ _

theorem lane_setLane_other (s : State) (n m : Nat) (x : Lane) (h : m ≠ n) : lane (setLane s n x) m = lane s m :=
  tget_tput_other _ _ _ _ h

theorem onLane_lane (n : Nat) (s : State) (f : Lane → Lane) (h : n < 256) : onLane n s f = .next (setLane s n (f (lane s n))) := if_pos h

theorem onLane_noLane (n : Nat) (s : State) (f : Lane → Lane) (h : ¬ n < 256) : onLane n s f = .fault .noSuchLane := if_neg h

/-- A bundle without stores closes on the lane alone. -/
theorem closeBundle_noStores (s : State) (n k : Nat) (h : (lane s n).stores = []) :
    closeBundle s n k = setLane s n (settle { lane s n with cycle := (lane s n).cycle + 1 + k, spent := (lane s n).spent + 1 + k }) := by
  unfold closeBundle
  simp only [h, List.foldl_nil]

/-- A lane with nothing on its way settles to itself. -/
theorem settle_nil (x : Lane) (h : x.wait = []) : settle x = x := by
  unfold settle
  rw [h]
  cases x
  simp only [settleList] at *
  subst h
  rfl

/-- A result due is written; what it does not name stays. -/
theorem settleList_due (c : Nat) (r : Result) (l : List Result) (x : Lane) (h : r.cycle ≤ c) :
    settleList c (r :: l) x = settleList c l (putReg x r.reg r.bits) := if_pos h

/-- A result not due waits, with all behind it. -/
theorem settleList_early (c : Nat) (r : Result) (l : List Result) (x : Lane) (h : ¬ r.cycle ≤ c) :
    settleList c (r :: l) x = { x with wait := r :: l } := if_neg h

end Sys2Proof.Machine
end

