-- ==== Sys2Proof/Laws/Keeps.lean ====
section
/-!
SUPPORT. Laws/Keeps.lean: what no command may do to the block, as one relation between a state and a later one, and how it passes
through the shapes in which meanings are written. Each operation of the model has one lemma about it, in the files Keeps*.lean.
-/
-- One declaration at a time and no linter: the package is compiled as one text under a memory limit.
set_option linter.all false
set_option Elab.async false
namespace Sys2Proof.Machine

/-- From `s` to `t`: the queue untouched, time and the draws of open values forward only, both memories canonical, fuses kept. -/
structure Keeps (s t : State) : Prop where
  pending : t.pending = s.pending
  now     : s.now ≤ t.now
  free    : s.free ≤ t.free
  mem     : memWf s.mem = true → memWf t.mem = true
  hostMem : memWf s.host.mem = true → memWf t.host.mem = true
  keys    : ∀ k, keyKept (keySlot s k) (keySlot t k)
  keysOk  : ∀ k, keyOk (keySlot s k) → keyOk (keySlot t k)
  net     : ∀ k r, tget s.host.netRecs none k = some r → tget t.host.netRecs none k = some r

theorem keyKept_refl (a : KeySlot) : keyKept a a := ⟨fun h => ⟨h, rfl, rfl⟩, id⟩

theorem keyKept_trans {a b c : KeySlot} (h : keyKept a b) (g : keyKept b c) : keyKept a c :=
  ⟨fun p => ⟨(g.1 (h.1 p).1).1, (g.1 (h.1 p).1).2.1.trans (h.1 p).2.1, (g.1 (h.1 p).1).2.2.trans (h.1 p).2.2⟩, fun p => g.2 (h.2 p)⟩

theorem Keeps.refl (s : State) : Keeps s s :=
  ⟨rfl, Nat.le_refl _, Nat.le_refl _, id, id, fun _ => keyKept_refl _, fun _ => id, fun _ _ => id⟩

theorem Keeps.trans {s t u : State} (h : Keeps s t) (g : Keeps t u) : Keeps s u :=
  ⟨g.pending.trans h.pending, Nat.le_trans h.now g.now, Nat.le_trans h.free g.free, fun p => g.mem (h.mem p),
   fun p => g.hostMem (h.hostMem p), fun k => keyKept_trans (h.keys k) (g.keys k), fun k p => g.keysOk k (h.keysOk k p),
   fun k r p => g.net k r (h.net k r p)⟩

/-- The part of the state that the relation reads. -/
def coreOf (s : State) : List Instr × Cycle × Nat × List Host.Cell × List Host.Cell × Tab KeySlot × Tab (Option NetRecord) :=
  (s.pending, s.now, s.free, s.mem, s.host.mem, s.host.keys, s.host.netRecs)

theorem Keeps.of_core {s t : State} (e : coreOf t = coreOf s) : Keeps s t := by
  simp only [coreOf, Prod.mk.injEq] at e
  obtain ⟨h1, h2, h3, h4, h5, h6, h7⟩ := e
  have hk : ∀ k, keySlot t k = keySlot s k := fun k => by unfold keySlot; rw [h6]
  exact ⟨h1, Nat.le_of_eq h2.symm, Nat.le_of_eq h3.symm, fun p => h4 ▸ p, fun p => h5 ▸ p,
    fun k => hk k ▸ keyKept_refl _, fun k p => hk k ▸ p, fun k r p => h7 ▸ p⟩

theorem Keeps.same {s0 s t : State} (h : Keeps s0 s) (e : coreOf t = coreOf s) : Keeps s0 t := h.trans (.of_core e)

/-- A step of which any next state is related to `s0`. -/
def KeepsOut (s0 : State) (o : Host.Outcome State Fault Refusal) : Prop := ∀ t, o = .next t → Keeps s0 t

theorem keeps_next {s0 t : State} (h : Keeps s0 t) : KeepsOut s0 (.next t) := by
  intro u hu; cases hu; exact h

theorem keeps_fault {s0 : State} (f : Fault) : KeepsOut s0 (.fault f) := by
  intro u hu; cases hu

theorem keeps_outState {s0 s : State} {o : Host.Outcome State Fault Refusal} (h : Keeps s0 s) (g : KeepsOut s0 o) :
    Keeps s0 (outState s o) := by
  cases o with
  | next t => exact g t rfl
  | fault f => exact h
  | refused r => exact h

/-- The relation through a record update: the updated record keeps the core of `u`. -/
theorem keeps_mk {s0 u : State} {boot aon dict ctl commit ver mode doms refs tbs life host net ctxs na tdm audio lanes iram budget trans xbar dram sage pair pins}
    (h : Keeps s0 u) (hm : host.mem = u.host.mem) (hk : host.keys = u.host.keys) (hn : host.netRecs = u.host.netRecs) :
    Keeps s0 (State.mk u.pending u.now u.free boot aon dict ctl commit ver mode doms refs tbs life host net ctxs na tdm audio lanes iram
      budget trans xbar u.mem dram sage pair pins) :=
  h.same (by simp only [coreOf, hm, hk, hn])

theorem keeps_foldl {α : Type} {s0 u : State} {l : List α} {f : State → α → State}
    (hf : ∀ t x, Keeps s0 t → Keeps s0 (f t x)) (h : Keeps s0 u) : Keeps s0 (l.foldl f u) := by
  induction l generalizing u with
  | nil => exact h
  | cons x r ih => exact ih (hf _ _ h)

theorem keeps_foldl_fst {α β : Type} {s0 : State} {u : State × β} {l : List α} {f : State × β → α → State × β}
    (hf : ∀ t x, Keeps s0 t.1 → Keeps s0 (f t x).1) (h : Keeps s0 u.1) : Keeps s0 (l.foldl f u).1 := by
  induction l generalizing u with
  | nil => exact h
  | cons x r ih => exact ih (hf _ _ h)

theorem keeps_foldl_snd {α β : Type} {s0 : State} {u : β × State} {l : List α} {f : β × State → α → β × State}
    (hf : ∀ t x, Keeps s0 t.2 → Keeps s0 (f t x).2) (h : Keeps s0 u.2) : Keeps s0 (l.foldl f u).2 := by
  induction l generalizing u with
  | nil => exact h
  | cons x r ih => exact ih (hf _ _ h)

theorem keeps_ite {s0 a b : State} {c : Prop} [Decidable c] (ha : Keeps s0 a) (hb : Keeps s0 b) : Keeps s0 (if c then a else b) := by
  split
  · exact ha
  · exact hb

/-- The relation through a write of memory. -/
theorem keeps_mem {s0 s : State} {m : List Host.Cell} (h : Keeps s0 s) (hm : memWf s.mem = true → memWf m = true) :
    Keeps s0 { s with mem := m } :=
  h.trans ⟨rfl, Nat.le_refl _, Nat.le_refl _, hm, id, fun _ => keyKept_refl _, fun _ => id, fun _ _ => id⟩

/-- The relation through a write of the host's memory. -/
theorem keeps_hostMem {s0 s : State} {m : List Host.Cell} (h : Keeps s0 s) (hm : memWf s.host.mem = true → memWf m = true) :
    Keeps s0 { s with host := { s.host with mem := m } } :=
  h.trans ⟨rfl, Nat.le_refl _, Nat.le_refl _, id, hm, fun _ => keyKept_refl _, fun _ => id, fun _ _ => id⟩

/-- The relation through a change of one key slot. -/
theorem keeps_key {s0 s : State} {k : Nat} {x : KeySlot} (h : Keeps s0 s) (hx : keyKept (keySlot s k) x)
    (hb : keyOk (keySlot s k) → keyOk x) :
    Keeps s0 { s with host := { s.host with keys := tput s.host.keys KeySlot.blank k x } } := by
  have e : ∀ j, keySlot { s with host := { s.host with keys := tput s.host.keys KeySlot.blank k x } } j = if j = k then x else keySlot s j := by
    intro j
    by_cases hj : j = k
    · subst hj
      simp [keySlot]
    · simpa [keySlot, hj] using tget_tput_other _ _ _ _ hj
  refine h.trans ⟨rfl, Nat.le_refl _, Nat.le_refl _, id, id, fun j => ?_, fun j => ?_, fun _ _ => id⟩ <;> rw [e j] <;> split
  · next hj => exact hj ▸ hx
  · exact keyKept_refl _
  · next hj => exact hj ▸ hb
  · exact id

/-- The relation through a network record programmed where there is none. -/
theorem keeps_net {s0 s : State} {k : Nat} {x : Option NetRecord} (h : Keeps s0 s) (hk : tget s.host.netRecs none k = none) :
    Keeps s0 { s with host := { s.host with netRecs := tput s.host.netRecs none k x } } := by
  refine h.trans ⟨rfl, Nat.le_refl _, Nat.le_refl _, id, id, fun _ => keyKept_refl _, fun _ => id, fun j r hr => ?_⟩
  have hj : j ≠ k := fun e => by subst e; rw [hk] at hr; cases hr
  simpa only [tget_tput_other _ _ _ _ hj] using hr

/-- A write of the enabled bytes of a beat keeps the canonical form of memory. -/
theorem memWf_putEnabled (b : Octets) : ∀ (m : List Host.Cell) (a : Nat), memWf m = true → memWf (putEnabled m a b) = true := by
  induction b with
  | nil => intro m a h; exact h
  | cons x r ih =>
    intro m a h
    unfold putEnabled
    apply ih
    split
    · exact memWf_memPut _ _ _ h
    · exact h

/-- Puts of cells keep the canonical form of memory. -/
theorem memWf_foldPut (l m : List Host.Cell) (h : memWf m = true) : memWf (l.foldl (fun m c => memPut m c.1 c.2) m) = true := by
  induction l generalizing m with
  | nil => exact h
  | cons c r ih => exact ih _ (memWf_memPut _ _ _ h)

/-- Undoing writes keeps the canonical form of memory. -/
theorem memWf_undoCmds (l : List DramCmd) (m : List Host.Cell) (h : memWf m = true) : memWf (undoCmds m l) = true := by
  induction l with
  | nil => exact h
  | cons c r ih => exact memWf_memWrite _ _ _ ih

end Sys2Proof.Machine
end

