-- ==== Sys2Proof/Laws/KeepsDict.lean ====
section
/-!
SUPPORT. Laws/KeepsDict.lean: the operations of Machine/Dict.lean keep the queue, time, the memories and the fuses (Laws/Keeps.lean).
-/
-- One declaration at a time and no linter: the package is compiled as one text under a memory limit.
set_option linter.all false
set_option Elab.async false
namespace Sys2Proof.Machine

theorem keeps_setF {s0 s : State} {a1 a2} (h : Keeps s0 s) : Keeps s0 (setF s a1 a2) := by
  exact h.same rfl

theorem keeps_setN {s0 s : State} {a1 a2} (h : Keeps s0 s) : Keeps s0 (setN s a1 a2) := by
  exact h.same rfl

theorem keeps_bump {s0 s : State} {a1} (h : Keeps s0 s) : Keeps s0 (bump s a1) := by
  exact h.same rfl

theorem keeps_bumpBy {s0 s : State} {a1 a2} (h : Keeps s0 s) : Keeps s0 (bumpBy s a1 a2) := by
  exact h.same rfl

theorem keeps_emptyBank {s0 s : State} (h : Keeps s0 s) : Keeps s0 (emptyBank s) := by
  exact h.same rfl

theorem keeps_setBank {s0 s : State} {a1 a2} (h : Keeps s0 s) : Keeps s0 (setBank s a1 a2) := by
  exact h.same rfl

theorem keeps_setDom {s0 s : State} {a1 a2} (h : Keeps s0 s) : Keeps s0 (setDom s a1 a2) := by
  exact h.same rfl

theorem keeps_setSess {s0 s : State} {a1 a2} (h : Keeps s0 s) : Keeps s0 (setSess s a1 a2) := by
  exact h.same rfl

end Sys2Proof.Machine
end

