-- ==== Sys2Proof/Laws/KeepsNotify.lean ====
section
/-!
SUPPORT. Laws/KeepsNotify.lean: the operations of Machine/Notify.lean keep the queue, time, the memories and the fuses (Laws/Keeps.lean).
-/
-- One declaration at a time and no linter: the package is compiled as one text under a memory limit.
set_option linter.all false
set_option Elab.async false
namespace Sys2Proof.Machine

theorem keeps_setTb {s0 s : State} {a1 a2} (h : Keeps s0 s) : Keeps s0 (setTb s a1 a2) := by
  exact h.same rfl

theorem keeps_pushNotif {s0 s : State} {a1 a2} (h : Keeps s0 s) : Keeps s0 (pushNotif s a1 a2) := by
  unfold pushNotif
  try dsimp only
  repeat' (first | with_reducible assumption | with_reducible apply keeps_bump | with_reducible apply keeps_setN | with_reducible apply keeps_setSess | with_reducible apply keeps_ite | split | (intro _ _ _; dsimp only) | (with_reducible refine keeps_mk ?_ rfl rfl rfl) | (intro _ _ _))

theorem keeps_raiseBut {s0 s : State} {a1 a2 a3 a4} (h : Keeps s0 s) : Keeps s0 (raiseBut s a1 a2 a3 a4) := by
  unfold raiseBut
  try dsimp only
  repeat' (first | with_reducible assumption | with_reducible apply keeps_pushNotif | with_reducible apply keeps_foldl | with_reducible apply keeps_foldl_fst | with_reducible apply keeps_foldl_snd | with_reducible apply keeps_ite | split | (intro _ _ _; dsimp only) | (with_reducible refine keeps_mk ?_ rfl rfl rfl) | (intro _ _ _))

theorem keeps_raise {s0 s : State} {a1 a2 a3} (h : Keeps s0 s) : Keeps s0 (raise s a1 a2 a3) := by
  unfold raise
  try dsimp only
  repeat' (first | with_reducible assumption | with_reducible apply keeps_raiseBut | with_reducible apply keeps_ite | split | (intro _ _ _; dsimp only) | (with_reducible refine keeps_mk ?_ rfl rfl rfl) | (intro _ _ _))

theorem keeps_setLife {s0 s : State} {a1 a2} (h : Keeps s0 s) : Keeps s0 (setLife s a1 a2) := by
  exact h.same rfl

theorem keeps_moveUnit {s0 s : State} {a1 a2} (h : Keeps s0 s) : Keeps s0 (moveUnit s a1 a2) := by
  unfold moveUnit
  try dsimp only
  repeat' (first | with_reducible assumption | with_reducible apply keeps_setN | with_reducible apply keeps_raise | with_reducible apply keeps_ite | split | (intro _ _ _; dsimp only) | (with_reducible refine keeps_mk ?_ rfl rfl rfl) | (intro _ _ _))

theorem keeps_request {s0 s : State} {a1 a2 a3} (h : Keeps s0 s) : Keeps s0 (request s a1 a2 a3) := by
  unfold request
  try dsimp only
  repeat' (first | with_reducible assumption | with_reducible apply keeps_setLife | with_reducible apply keeps_moveUnit | with_reducible apply keeps_raise | with_reducible apply keeps_ite | split | (intro _ _ _; dsimp only) | (with_reducible refine keeps_mk ?_ rfl rfl rfl) | (intro _ _ _))

theorem keeps_faultUnit {s0 s : State} {a1} (h : Keeps s0 s) : Keeps s0 (faultUnit s a1) := by
  unfold faultUnit
  try dsimp only
  repeat' (first | with_reducible assumption | with_reducible apply keeps_setLife | with_reducible apply keeps_moveUnit | with_reducible apply keeps_ite | split | (intro _ _ _; dsimp only) | (with_reducible refine keeps_mk ?_ rfl rfl rfl) | (intro _ _ _))

theorem keeps_faultDue {s0 s : State} {a1} (h : Keeps s0 s) : Keeps s0 (faultDue s a1) := by
  exact h.same rfl

theorem keeps_tickUnit {s0 s : State} {a1} (h : Keeps s0 s) : Keeps s0 (tickUnit s a1) := by
  unfold tickUnit
  try dsimp only
  repeat' (first | with_reducible assumption | with_reducible apply keeps_setLife | with_reducible apply keeps_moveUnit | with_reducible apply keeps_ite | split | (intro _ _ _; dsimp only) | (with_reducible refine keeps_mk ?_ rfl rfl rfl) | (intro _ _ _))

end Sys2Proof.Machine
end

