-- ==== Sys2Proof/Laws/KeepsOps.lean ====
section
/-!
SUPPORT. Laws/KeepsOps.lean: the operations of Machine/Ops.lean keep the queue, time, the memories and the fuses (Laws/Keeps.lean).
-/
-- One declaration at a time and no linter: the package is compiled as one text under a memory limit.
set_option linter.all false
set_option Elab.async false
namespace Sys2Proof.Machine

theorem keeps_draw {s0 s : State} (h : Keeps s0 s) : Keeps s0 (draw s).2 :=
  h.trans ⟨rfl, Nat.le_refl _, Nat.le_succ _, id, id, fun _ => keyKept_refl _, fun _ => id, fun _ _ => id⟩

theorem keeps_drawUpTo {s0 s : State} {a1} (h : Keeps s0 s) : Keeps s0 (drawUpTo s a1).2 := keeps_draw h

theorem keeps_atCycle {s0 s : State} {a1} (h : Keeps s0 s) : Keeps s0 (atCycle s a1) := by
  refine h.trans ⟨rfl, ?_, Nat.le_refl _, id, id, fun _ => keyKept_refl _, fun _ => id, fun _ _ => id⟩
  unfold atCycle
  dsimp only
  split
  · next hc => exact Nat.le_of_lt hc
  · exact Nat.le_refl _

end Sys2Proof.Machine
end

