-- ==== Sys2Proof/Laws/KeepsClocks.lean ====
section
/-!
SUPPORT. Laws/KeepsClocks.lean: the operations of Machine/Clocks.lean keep the queue, time, the memories and the fuses (Laws/Keeps.lean).
-/
-- One declaration at a time and no linter: the package is compiled as one text under a memory limit.
set_option linter.all false
set_option Elab.async false
namespace Sys2Proof.Machine

theorem keeps_driveWclk {s0 s : State} (h : Keeps s0 s) : Keeps s0 (driveWclk s) := by
  exact h.same rfl

theorem keeps_lowOutputs {s0 s : State} {a1} (h : Keeps s0 s) : Keeps s0 (lowOutputs s a1) := by
  exact h.same rfl

theorem keeps_setFreq {s0 s : State} {a1 a2} (h : Keeps s0 s) : Keeps s0 (setFreq s a1 a2) := by
  exact h.same rfl

theorem keeps_noteLock {s0 s : State} {a1} (h : Keeps s0 s) : Keeps s0 (noteLock s a1) := by
  exact h.same rfl

theorem keeps_setPhase {s0 s : State} {a1 a2} (h : Keeps s0 s) : Keeps s0 (setPhase s a1 a2) := by
  exact h.same rfl

theorem keeps_refPhase {s0 s : State} {a1 a2 a3} (h : Keeps s0 s) : Keeps s0 (refPhase s a1 a2 a3).2 := by
  unfold refPhase
  try dsimp only
  repeat' (first | with_reducible assumption | with_reducible apply keeps_drawUpTo | with_reducible apply keeps_ite | split | (intro _ _ _; dsimp only) | (with_reducible refine keeps_mk ?_ rfl rfl rfl) | (intro _ _ _))

theorem keeps_startSlew {s0 s : State} {a1 a2} (h : Keeps s0 s) : Keeps s0 (startSlew s a1 a2) := by
  exact h.same rfl

theorem keeps_startStep {s0 s : State} {a1 a2} (h : Keeps s0 s) : Keeps s0 (startStep s a1 a2) := by
  exact h.same rfl

theorem keeps_switchTo {s0 s : State} {a1 a2} (h : Keeps s0 s) : Keeps s0 (switchTo s a1 a2) := by
  unfold switchTo
  try dsimp only
  repeat' (first | with_reducible assumption | with_reducible apply keeps_startStep | with_reducible apply keeps_bump | with_reducible apply keeps_setFreq | with_reducible apply keeps_setN | with_reducible apply keeps_setPhase | with_reducible apply keeps_startSlew | with_reducible apply keeps_noteLock | with_reducible apply keeps_raise | with_reducible apply keeps_setDom | with_reducible apply keeps_refPhase | with_reducible apply keeps_ite | split | (intro _ _ _; dsimp only) | (with_reducible refine keeps_mk ?_ rfl rfl rfl) | (intro _ _ _))

theorem keeps_enterHoldover {s0 s : State} {a1} (h : Keeps s0 s) : Keeps s0 (enterHoldover s a1) := by
  unfold enterHoldover
  try dsimp only
  repeat' (first | with_reducible assumption | with_reducible apply keeps_bump | with_reducible apply keeps_setFreq | with_reducible apply keeps_setN | with_reducible apply keeps_noteLock | with_reducible apply keeps_raise | with_reducible apply keeps_setDom | with_reducible apply keeps_ite | split | (intro _ _ _; dsimp only) | (with_reducible refine keeps_mk ?_ rfl rfl rfl) | (intro _ _ _))

theorem keeps_domainOn {s0 s : State} {a1} (h : Keeps s0 s) : Keeps s0 (domainOn s a1) := by
  unfold domainOn
  try dsimp only
  repeat' (first | with_reducible assumption | with_reducible apply keeps_moveUnit | with_reducible apply keeps_setDom | with_reducible apply keeps_ite | split | (intro _ _ _; dsimp only) | (with_reducible refine keeps_mk ?_ rfl rfl rfl) | (intro _ _ _))

theorem keeps_startDpll {s0 s : State} {a1} (h : Keeps s0 s) : Keeps s0 (startDpll s a1) := by
  unfold startDpll
  try dsimp only
  repeat' (first | with_reducible assumption | with_reducible apply keeps_domainOn | with_reducible apply keeps_setFreq | with_reducible apply keeps_setN | with_reducible apply keeps_setDom | with_reducible apply keeps_ite | split | (intro _ _ _; dsimp only) | (with_reducible refine keeps_mk ?_ rfl rfl rfl) | (intro _ _ _))

theorem keeps_retryStarts {s0 s : State} (h : Keeps s0 s) : Keeps s0 (retryStarts s) := by
  unfold retryStarts
  try dsimp only
  repeat' (first | with_reducible assumption | with_reducible apply keeps_startDpll | with_reducible apply keeps_foldl | with_reducible apply keeps_foldl_fst | with_reducible apply keeps_foldl_snd | with_reducible apply keeps_ite | split | (intro _ _ _; dsimp only) | (with_reducible refine keeps_mk ?_ rfl rfl rfl) | (intro _ _ _))

theorem keeps_loseRef {s0 s : State} {a1 a2} (h : Keeps s0 s) : Keeps s0 (loseRef s a1 a2) := by
  unfold loseRef
  try dsimp only
  repeat' (first | with_reducible assumption | with_reducible apply keeps_retryStarts | with_reducible apply keeps_raise | with_reducible apply keeps_enterHoldover | with_reducible apply keeps_foldl | with_reducible apply keeps_foldl_fst | with_reducible apply keeps_foldl_snd | with_reducible apply keeps_ite | split | (intro _ _ _; dsimp only) | (with_reducible refine keeps_mk ?_ rfl rfl rfl) | (intro _ _ _))

theorem keeps_execDpllLocked {s0 s : State} {a0} (h : Keeps s0 s) : KeepsOut s0 (execDpllLocked a0 s) := by
  unfold execDpllLocked
  try dsimp only
  repeat' (first | with_reducible assumption | with_reducible apply keeps_drawUpTo | with_reducible apply keeps_domainOn | with_reducible apply keeps_setFreq | with_reducible apply keeps_setN | with_reducible apply keeps_setDom | with_reducible apply keeps_next | exact keeps_fault _ | with_reducible apply keeps_ite | split | (intro _ _ _; dsimp only) | (with_reducible refine keeps_mk ?_ rfl rfl rfl) | (intro _ _ _))

theorem keeps_execDpllSlewDone {s0 s : State} {a0} (h : Keeps s0 s) : KeepsOut s0 (execDpllSlewDone a0 s) := by
  unfold execDpllSlewDone
  try dsimp only
  repeat' (first | with_reducible assumption | with_reducible apply keeps_setN | with_reducible apply keeps_setDom | with_reducible apply keeps_next | exact keeps_fault _ | with_reducible apply keeps_ite | split | (intro _ _ _; dsimp only) | (with_reducible refine keeps_mk ?_ rfl rfl rfl) | (intro _ _ _))

theorem keeps_slewTick {s0 s : State} {a1} (h : Keeps s0 s) : Keeps s0 (slewTick s a1) := by
  unfold slewTick
  try dsimp only
  repeat' (first | with_reducible assumption | with_reducible apply keeps_setFreq | with_reducible apply keeps_setPhase | with_reducible apply keeps_setDom | with_reducible apply keeps_ite | split | (intro _ _ _; dsimp only) | (with_reducible refine keeps_mk ?_ rfl rfl rfl) | (intro _ _ _))

theorem keeps_lockTick {s0 s : State} {a1} (h : Keeps s0 s) : Keeps s0 (lockTick s a1) := by
  unfold lockTick
  try dsimp only
  repeat' (first | with_reducible assumption | with_reducible apply keeps_setFreq | with_reducible apply keeps_noteLock | with_reducible apply keeps_ite | split | (intro _ _ _; dsimp only) | (with_reducible refine keeps_mk ?_ rfl rfl rfl) | (intro _ _ _))

theorem keeps_execDomainFreeRunTimeout {s0 s : State} {a0} (h : Keeps s0 s) : KeepsOut s0 (execDomainFreeRunTimeout a0 s) := by
  unfold execDomainFreeRunTimeout
  try dsimp only
  repeat' (first | with_reducible assumption | with_reducible apply keeps_domainOn | with_reducible apply keeps_setFreq | with_reducible apply keeps_setN | with_reducible apply keeps_setDom | with_reducible apply keeps_next | exact keeps_fault _ | with_reducible apply keeps_ite | split | (intro _ _ _; dsimp only) | (with_reducible refine keeps_mk ?_ rfl rfl rfl) | (intro _ _ _))

theorem keeps_setRef {s0 s : State} {a1 a2} (h : Keeps s0 s) : Keeps s0 (setRef s a1 a2) := by
  exact h.same rfl

theorem keeps_execReferenceEdgeMissing {s0 s : State} {a0} (h : Keeps s0 s) : KeepsOut s0 (execReferenceEdgeMissing a0 s) := by
  unfold execReferenceEdgeMissing
  try dsimp only
  repeat' (first | with_reducible assumption | with_reducible apply keeps_bump | with_reducible apply keeps_setN | with_reducible apply keeps_setRef | with_reducible apply keeps_loseRef | with_reducible apply keeps_next | exact keeps_fault _ | with_reducible apply keeps_ite | split | (intro _ _ _; dsimp only) | (with_reducible refine keeps_mk ?_ rfl rfl rfl) | (intro _ _ _))

theorem keeps_execReferenceGlitch {s0 s : State} {a0} (h : Keeps s0 s) : KeepsOut s0 (execReferenceGlitch a0 s) := by
  unfold execReferenceGlitch
  try dsimp only
  repeat' (first | with_reducible assumption | with_reducible apply keeps_bump | with_reducible apply keeps_setN | with_reducible apply keeps_setRef | with_reducible apply keeps_loseRef | with_reducible apply keeps_next | exact keeps_fault _ | with_reducible apply keeps_ite | split | (intro _ _ _; dsimp only) | (with_reducible refine keeps_mk ?_ rfl rfl rfl) | (intro _ _ _))

theorem keeps_execGlitchHoldEnd {s0 s : State} {a0} (h : Keeps s0 s) : KeepsOut s0 (execGlitchHoldEnd a0 s) := by
  unfold execGlitchHoldEnd
  try dsimp only
  repeat' (first | with_reducible assumption | with_reducible apply keeps_retryStarts | with_reducible apply keeps_setN | with_reducible apply keeps_raise | with_reducible apply keeps_next | exact keeps_fault _ | with_reducible apply keeps_ite | split | (intro _ _ _; dsimp only) | (with_reducible refine keeps_mk ?_ rfl rfl rfl) | (intro _ _ _))

theorem keeps_execReferenceFirstEdge {s0 s : State} {a0} (h : Keeps s0 s) : KeepsOut s0 (execReferenceFirstEdge a0 s) := by
  unfold execReferenceFirstEdge
  try dsimp only
  repeat' (first | with_reducible assumption | with_reducible apply keeps_setN | with_reducible apply keeps_setRef | with_reducible apply keeps_next | exact keeps_fault _ | with_reducible apply keeps_ite | split | (intro _ _ _; dsimp only) | (with_reducible refine keeps_mk ?_ rfl rfl rfl) | (intro _ _ _))

theorem keeps_execRateGateEnd {s0 s : State} {a0 a1} (h : Keeps s0 s) : KeepsOut s0 (execRateGateEnd a0 a1 s) := by
  unfold execRateGateEnd
  try dsimp only
  repeat' (first | with_reducible assumption | with_reducible apply keeps_bump | with_reducible apply keeps_retryStarts | with_reducible apply keeps_setN | with_reducible apply keeps_setRef | with_reducible apply keeps_raise | with_reducible apply keeps_loseRef | with_reducible apply keeps_next | exact keeps_fault _ | with_reducible apply keeps_ite | split | (intro _ _ _; dsimp only) | (with_reducible refine keeps_mk ?_ rfl rfl rfl) | (intro _ _ _))

theorem keeps_selectAtTick {s0 s : State} {a1} (h : Keeps s0 s) : Keeps s0 (selectAtTick s a1) := by
  unfold selectAtTick
  try dsimp only
  repeat' (first | with_reducible assumption | with_reducible apply keeps_switchTo | with_reducible apply keeps_raise | with_reducible apply keeps_setDom | with_reducible apply keeps_ite | split | (intro _ _ _; dsimp only) | (with_reducible refine keeps_mk ?_ rfl rfl rfl) | (intro _ _ _))

theorem keeps_reportOutError {s0 s : State} {a1} (h : Keeps s0 s) : Keeps s0 (reportOutError s a1) := by
  exact h.same rfl

theorem keeps_applyStep {s0 s : State} {a1} (h : Keeps s0 s) : Keeps s0 (applyStep s a1) := by
  unfold applyStep
  try dsimp only
  repeat' (first | with_reducible assumption | with_reducible apply keeps_setPhase | with_reducible apply keeps_setDom | with_reducible apply keeps_foldl | with_reducible apply keeps_foldl_fst | with_reducible apply keeps_foldl_snd | with_reducible apply keeps_ite | split | (intro _ _ _; dsimp only) | (with_reducible refine keeps_mk ?_ rfl rfl rfl) | (intro _ _ _))

theorem keeps_servePhase {s0 s : State} {a1} (h : Keeps s0 s) : Keeps s0 (servePhase s a1) := by
  unfold servePhase
  try dsimp only
  repeat' (first | with_reducible assumption | with_reducible apply keeps_startStep | with_reducible apply keeps_startSlew | with_reducible apply keeps_noteLock | with_reducible apply keeps_setDom | with_reducible apply keeps_ite | split | (intro _ _ _; dsimp only) | (with_reducible refine keeps_mk ?_ rfl rfl rfl) | (intro _ _ _))

theorem keeps_driveOutputs {s0 s : State} {a1} (h : Keeps s0 s) : Keeps s0 (driveOutputs s a1) := by
  unfold driveOutputs
  try dsimp only
  repeat' (first | with_reducible assumption | with_reducible apply keeps_reportOutError | with_reducible apply keeps_driveWclk | with_reducible apply keeps_setDom | with_reducible apply keeps_foldl | with_reducible apply keeps_foldl_fst | with_reducible apply keeps_foldl_snd | with_reducible apply keeps_ite | split | (intro _ _ _; dsimp only) | (with_reducible refine keeps_mk ?_ rfl rfl rfl) | (intro _ _ _))

theorem keeps_realignOutputs {s0 s : State} {a1 a2} (h : Keeps s0 s) : Keeps s0 (realignOutputs s a1 a2) := by
  exact h.same rfl

theorem keeps_reactClock {s0 s : State} {a1 a2} (h : Keeps s0 s) : Keeps s0 (reactClock s a1 a2) := by
  unfold reactClock
  try dsimp only
  repeat' (first | with_reducible assumption | with_reducible apply keeps_switchTo | with_reducible apply keeps_retryStarts | with_reducible apply keeps_realignOutputs | with_reducible apply keeps_startDpll | with_reducible apply keeps_setDom | with_reducible apply keeps_ite | split | (intro _ _ _; dsimp only) | (with_reducible refine keeps_mk ?_ rfl rfl rfl) | (intro _ _ _))

end Sys2Proof.Machine
end

