-- ==== Sys2Proof/Laws/KeepsBudget.lean ====
section
/-!
SUPPORT. Laws/KeepsBudget.lean: the operations of Machine/Budget.lean keep the queue, time, the memories and the fuses (Laws/Keeps.lean).
-/
-- One declaration at a time and no linter: the package is compiled as one text under a memory limit.
set_option linter.all false
set_option Elab.async false
namespace Sys2Proof.Machine

theorem keeps_publishBudgets {s0 s : State} {a1 a2} (h : Keeps s0 s) : Keeps s0 (publishBudgets s a1 a2) := by
  unfold publishBudgets
  try dsimp only
  repeat' (first | with_reducible assumption | with_reducible apply keeps_setN | with_reducible apply keeps_foldl | with_reducible apply keeps_foldl_fst | with_reducible apply keeps_foldl_snd | with_reducible apply keeps_ite | split | (intro _ _ _; dsimp only) | (with_reducible refine keeps_mk ?_ rfl rfl rfl) | (intro _ _ _))

end Sys2Proof.Machine
end

