-- ==== Sys2Proof/Laws/KeepsLanes.lean ====
section
/-!
SUPPORT. Laws/KeepsLanes.lean: the operations of Machine/Lanes.lean keep the queue, time, the memories and the fuses (Laws/Keeps.lean).
-/
-- One declaration at a time and no linter: the package is compiled as one text under a memory limit.
set_option linter.all false
set_option Elab.async false
namespace Sys2Proof.Machine

theorem keeps_chipEdit {s0 s : State} {a f} (hf : ∀ m, memWf m = true → memWf (f m) = true) (h : Keeps s0 s) : Keeps s0 (chipEdit s a f) := by
  unfold chipEdit
  split
  · exact h
  · split
    · exact keeps_mk h rfl rfl rfl
    · exact keeps_mem h (hf _)

theorem keeps_clearPoison {s0 s : State} {a1} (h : Keeps s0 s) : Keeps s0 (clearPoison s a1) := by
  unfold clearPoison
  try dsimp only
  repeat' (first | with_reducible assumption | with_reducible apply keeps_ite | split | (intro _ _ _; dsimp only) | (with_reducible refine keeps_mk ?_ rfl rfl rfl) | (intro _ _ _))

theorem keeps_putBytes {s0 s : State} {a b} (h : Keeps s0 s) : Keeps s0 (putBytes s a b) :=
  keeps_chipEdit (fun _ => memWf_memWrite _ _ _) (keeps_clearPoison h)

theorem keeps_putLaneWord {s0 s : State} {a1 a2 a3} (h : Keeps s0 s) : Keeps s0 (putLaneWord s a1 a2 a3) := by
  unfold putLaneWord
  try dsimp only
  repeat' (first | with_reducible assumption | with_reducible apply keeps_putBytes | with_reducible apply keeps_ite | split | (intro _ _ _; dsimp only) | (with_reducible refine keeps_mk ?_ rfl rfl rfl) | (intro _ _ _))

theorem keeps_setLane {s0 s : State} {a1 a2} (h : Keeps s0 s) : Keeps s0 (setLane s a1 a2) := by
  exact h.same rfl

theorem keeps_loadWord {s0 s : State} {a1 a2} (h : Keeps s0 s) : Keeps s0 (loadWord s a1 a2).2 := by
  unfold loadWord
  try dsimp only
  repeat' (first | with_reducible assumption | with_reducible apply keeps_drawUpTo | with_reducible apply keeps_setLane | with_reducible apply keeps_ite | split | (intro _ _ _; dsimp only) | (with_reducible refine keeps_mk ?_ rfl rfl rfl) | (intro _ _ _))

theorem keeps_storeWord {s0 s : State} {a1 a2 a3} (h : Keeps s0 s) : Keeps s0 (storeWord s a1 a2 a3) := by
  unfold storeWord
  try dsimp only
  repeat' (first | with_reducible assumption | with_reducible apply keeps_drawUpTo | with_reducible apply keeps_bump | with_reducible apply keeps_putLaneWord | with_reducible apply keeps_setLane | with_reducible apply keeps_ite | split | (intro _ _ _; dsimp only) | (with_reducible refine keeps_mk ?_ rfl rfl rfl) | (intro _ _ _))

theorem keeps_closeBundle {s0 s : State} {a1 a2} (h : Keeps s0 s) : Keeps s0 (closeBundle s a1 a2) := by
  unfold closeBundle
  try dsimp only
  repeat' (first | with_reducible assumption | with_reducible apply keeps_storeWord | with_reducible apply keeps_setLane | with_reducible apply keeps_foldl | with_reducible apply keeps_foldl_fst | with_reducible apply keeps_foldl_snd | with_reducible apply keeps_ite | split | (intro _ _ _; dsimp only) | (with_reducible refine keeps_mk ?_ rfl rfl rfl) | (intro _ _ _))

theorem keeps_onLane {s0 s : State} {a0 a2} (h : Keeps s0 s) : KeepsOut s0 (onLane a0 s a2) := by
  unfold onLane
  try dsimp only
  repeat' (first | with_reducible assumption | with_reducible apply keeps_setLane | with_reducible apply keeps_next | exact keeps_fault _ | with_reducible apply keeps_ite | split | (intro _ _ _; dsimp only) | (with_reducible refine keeps_mk ?_ rfl rfl rfl) | (intro _ _ _))

theorem keeps_execMac {s0 s : State} {a0 a1 a2 a3 a4} (h : Keeps s0 s) : KeepsOut s0 (execMac a0 a1 a2 a3 a4 s) := by
  unfold execMac
  try dsimp only
  repeat' (first | with_reducible assumption | with_reducible apply keeps_onLane | with_reducible apply keeps_next | exact keeps_fault _ | with_reducible apply keeps_ite | split | (intro _ _ _; dsimp only) | (with_reducible refine keeps_mk ?_ rfl rfl rfl) | (intro _ _ _))

theorem keeps_execMsu {s0 s : State} {a0 a1 a2 a3 a4} (h : Keeps s0 s) : KeepsOut s0 (execMsu a0 a1 a2 a3 a4 s) := by
  unfold execMsu
  try dsimp only
  repeat' (first | with_reducible assumption | with_reducible apply keeps_onLane | with_reducible apply keeps_next | exact keeps_fault _ | with_reducible apply keeps_ite | split | (intro _ _ _; dsimp only) | (with_reducible refine keeps_mk ?_ rfl rfl rfl) | (intro _ _ _))

theorem keeps_execMpy {s0 s : State} {a0 a1 a2 a3 a4} (h : Keeps s0 s) : KeepsOut s0 (execMpy a0 a1 a2 a3 a4 s) := by
  unfold execMpy
  try dsimp only
  repeat' (first | with_reducible assumption | with_reducible apply keeps_onLane | with_reducible apply keeps_next | exact keeps_fault _ | with_reducible apply keeps_ite | split | (intro _ _ _; dsimp only) | (with_reducible refine keeps_mk ?_ rfl rfl rfl) | (intro _ _ _))

theorem keeps_execExt {s0 s : State} {a0 a1 a2 a3 a4 a5} (h : Keeps s0 s) : KeepsOut s0 (execExt a0 a1 a2 a3 a4 a5 s) := by
  unfold execExt
  try dsimp only
  repeat' (first | with_reducible assumption | with_reducible apply keeps_onLane | with_reducible apply keeps_next | exact keeps_fault _ | with_reducible apply keeps_ite | split | (intro _ _ _; dsimp only) | (with_reducible refine keeps_mk ?_ rfl rfl rfl) | (intro _ _ _))

theorem keeps_execAcc {s0 s : State} {a0 a1 a2 a3} (h : Keeps s0 s) : KeepsOut s0 (execAcc a0 a1 a2 a3 s) := by
  unfold execAcc
  try dsimp only
  repeat' (first | with_reducible assumption | with_reducible apply keeps_onLane | with_reducible apply keeps_next | exact keeps_fault _ | with_reducible apply keeps_ite | split | (intro _ _ _; dsimp only) | (with_reducible refine keeps_mk ?_ rfl rfl rfl) | (intro _ _ _))

theorem keeps_execAdda {s0 s : State} {a0 a1 a2} (h : Keeps s0 s) : KeepsOut s0 (execAdda a0 a1 a2 s) := by
  unfold execAdda
  try dsimp only
  repeat' (first | with_reducible assumption | with_reducible apply keeps_onLane | with_reducible apply keeps_next | exact keeps_fault _ | with_reducible apply keeps_ite | split | (intro _ _ _; dsimp only) | (with_reducible refine keeps_mk ?_ rfl rfl rfl) | (intro _ _ _))

theorem keeps_execSuba {s0 s : State} {a0 a1 a2} (h : Keeps s0 s) : KeepsOut s0 (execSuba a0 a1 a2 s) := by
  unfold execSuba
  try dsimp only
  repeat' (first | with_reducible assumption | with_reducible apply keeps_onLane | with_reducible apply keeps_next | exact keeps_fault _ | with_reducible apply keeps_ite | split | (intro _ _ _; dsimp only) | (with_reducible refine keeps_mk ?_ rfl rfl rfl) | (intro _ _ _))

theorem keeps_execSha {s0 s : State} {a0 a1 a2} (h : Keeps s0 s) : KeepsOut s0 (execSha a0 a1 a2 s) := by
  unfold execSha
  try dsimp only
  repeat' (first | with_reducible assumption | with_reducible apply keeps_onLane | with_reducible apply keeps_next | exact keeps_fault _ | with_reducible apply keeps_ite | split | (intro _ _ _; dsimp only) | (with_reducible refine keeps_mk ?_ rfl rfl rfl) | (intro _ _ _))

theorem keeps_execClr {s0 s : State} {a0 a1} (h : Keeps s0 s) : KeepsOut s0 (execClr a0 a1 s) := by
  unfold execClr
  try dsimp only
  repeat' (first | with_reducible assumption | with_reducible apply keeps_onLane | with_reducible apply keeps_next | exact keeps_fault _ | with_reducible apply keeps_ite | split | (intro _ _ _; dsimp only) | (with_reducible refine keeps_mk ?_ rfl rfl rfl) | (intro _ _ _))

theorem keeps_execAdd {s0 s : State} {a0 a1 a2 a3} (h : Keeps s0 s) : KeepsOut s0 (execAdd a0 a1 a2 a3 s) := by
  unfold execAdd
  try dsimp only
  repeat' (first | with_reducible assumption | with_reducible apply keeps_onLane | with_reducible apply keeps_next | exact keeps_fault _ | with_reducible apply keeps_ite | split | (intro _ _ _; dsimp only) | (with_reducible refine keeps_mk ?_ rfl rfl rfl) | (intro _ _ _))

theorem keeps_execSub {s0 s : State} {a0 a1 a2 a3} (h : Keeps s0 s) : KeepsOut s0 (execSub a0 a1 a2 a3 s) := by
  unfold execSub
  try dsimp only
  repeat' (first | with_reducible assumption | with_reducible apply keeps_onLane | with_reducible apply keeps_next | exact keeps_fault _ | with_reducible apply keeps_ite | split | (intro _ _ _; dsimp only) | (with_reducible refine keeps_mk ?_ rfl rfl rfl) | (intro _ _ _))

theorem keeps_execAsr {s0 s : State} {a0 a1 a2 a3} (h : Keeps s0 s) : KeepsOut s0 (execAsr a0 a1 a2 a3 s) := by
  unfold execAsr
  try dsimp only
  repeat' (first | with_reducible assumption | with_reducible apply keeps_onLane | with_reducible apply keeps_next | exact keeps_fault _ | with_reducible apply keeps_ite | split | (intro _ _ _; dsimp only) | (with_reducible refine keeps_mk ?_ rfl rfl rfl) | (intro _ _ _))

theorem keeps_execAsl {s0 s : State} {a0 a1 a2 a3} (h : Keeps s0 s) : KeepsOut s0 (execAsl a0 a1 a2 a3 s) := by
  unfold execAsl
  try dsimp only
  repeat' (first | with_reducible assumption | with_reducible apply keeps_onLane | with_reducible apply keeps_next | exact keeps_fault _ | with_reducible apply keeps_ite | split | (intro _ _ _; dsimp only) | (with_reducible refine keeps_mk ?_ rfl rfl rfl) | (intro _ _ _))

theorem keeps_execAbs {s0 s : State} {a0 a1 a2} (h : Keeps s0 s) : KeepsOut s0 (execAbs a0 a1 a2 s) := by
  unfold execAbs
  try dsimp only
  repeat' (first | with_reducible assumption | with_reducible apply keeps_onLane | with_reducible apply keeps_next | exact keeps_fault _ | with_reducible apply keeps_ite | split | (intro _ _ _; dsimp only) | (with_reducible refine keeps_mk ?_ rfl rfl rfl) | (intro _ _ _))

theorem keeps_execNeg {s0 s : State} {a0 a1 a2} (h : Keeps s0 s) : KeepsOut s0 (execNeg a0 a1 a2 s) := by
  unfold execNeg
  try dsimp only
  repeat' (first | with_reducible assumption | with_reducible apply keeps_onLane | with_reducible apply keeps_next | exact keeps_fault _ | with_reducible apply keeps_ite | split | (intro _ _ _; dsimp only) | (with_reducible refine keeps_mk ?_ rfl rfl rfl) | (intro _ _ _))

theorem keeps_execMov {s0 s : State} {a0 a1 a2} (h : Keeps s0 s) : KeepsOut s0 (execMov a0 a1 a2 s) := by
  unfold execMov
  try dsimp only
  repeat' (first | with_reducible assumption | with_reducible apply keeps_onLane | with_reducible apply keeps_next | exact keeps_fault _ | with_reducible apply keeps_ite | split | (intro _ _ _; dsimp only) | (with_reducible refine keeps_mk ?_ rfl rfl rfl) | (intro _ _ _))

theorem keeps_execMvi {s0 s : State} {a0 a1 a2} (h : Keeps s0 s) : KeepsOut s0 (execMvi a0 a1 a2 s) := by
  unfold execMvi
  try dsimp only
  repeat' (first | with_reducible assumption | with_reducible apply keeps_onLane | with_reducible apply keeps_next | exact keeps_fault _ | with_reducible apply keeps_ite | split | (intro _ _ _; dsimp only) | (with_reducible refine keeps_mk ?_ rfl rfl rfl) | (intro _ _ _))

theorem keeps_execAnd {s0 s : State} {a0 a1 a2 a3} (h : Keeps s0 s) : KeepsOut s0 (execAnd a0 a1 a2 a3 s) := by
  unfold execAnd
  try dsimp only
  repeat' (first | with_reducible assumption | with_reducible apply keeps_onLane | with_reducible apply keeps_next | exact keeps_fault _ | with_reducible apply keeps_ite | split | (intro _ _ _; dsimp only) | (with_reducible refine keeps_mk ?_ rfl rfl rfl) | (intro _ _ _))

theorem keeps_execOr {s0 s : State} {a0 a1 a2 a3} (h : Keeps s0 s) : KeepsOut s0 (execOr a0 a1 a2 a3 s) := by
  unfold execOr
  try dsimp only
  repeat' (first | with_reducible assumption | with_reducible apply keeps_onLane | with_reducible apply keeps_next | exact keeps_fault _ | with_reducible apply keeps_ite | split | (intro _ _ _; dsimp only) | (with_reducible refine keeps_mk ?_ rfl rfl rfl) | (intro _ _ _))

theorem keeps_execXor {s0 s : State} {a0 a1 a2 a3} (h : Keeps s0 s) : KeepsOut s0 (execXor a0 a1 a2 a3 s) := by
  unfold execXor
  try dsimp only
  repeat' (first | with_reducible assumption | with_reducible apply keeps_onLane | with_reducible apply keeps_next | exact keeps_fault _ | with_reducible apply keeps_ite | split | (intro _ _ _; dsimp only) | (with_reducible refine keeps_mk ?_ rfl rfl rfl) | (intro _ _ _))

theorem keeps_execMvs {s0 s : State} {a0 a1 a2} (h : Keeps s0 s) : KeepsOut s0 (execMvs a0 a1 a2 s) := by
  unfold execMvs
  try dsimp only
  repeat' (first | with_reducible assumption | with_reducible apply keeps_onLane | with_reducible apply keeps_next | exact keeps_fault _ | with_reducible apply keeps_ite | split | (intro _ _ _; dsimp only) | (with_reducible refine keeps_mk ?_ rfl rfl rfl) | (intro _ _ _))

theorem keeps_execMvr {s0 s : State} {a0 a1 a2} (h : Keeps s0 s) : KeepsOut s0 (execMvr a0 a1 a2 s) := by
  unfold execMvr
  try dsimp only
  repeat' (first | with_reducible assumption | with_reducible apply keeps_onLane | with_reducible apply keeps_next | exact keeps_fault _ | with_reducible apply keeps_ite | split | (intro _ _ _; dsimp only) | (with_reducible refine keeps_mk ?_ rfl rfl rfl) | (intro _ _ _))

theorem keeps_execMax {s0 s : State} {a0 a1} (h : Keeps s0 s) : KeepsOut s0 (execMax a0 a1 s) := by
  unfold execMax
  try dsimp only
  repeat' (first | with_reducible assumption | with_reducible apply keeps_onLane | with_reducible apply keeps_next | exact keeps_fault _ | with_reducible apply keeps_ite | split | (intro _ _ _; dsimp only) | (with_reducible refine keeps_mk ?_ rfl rfl rfl) | (intro _ _ _))

theorem keeps_execMin {s0 s : State} {a0 a1} (h : Keeps s0 s) : KeepsOut s0 (execMin a0 a1 s) := by
  unfold execMin
  try dsimp only
  repeat' (first | with_reducible assumption | with_reducible apply keeps_onLane | with_reducible apply keeps_next | exact keeps_fault _ | with_reducible apply keeps_ite | split | (intro _ _ _; dsimp only) | (with_reducible refine keeps_mk ?_ rfl rfl rfl) | (intro _ _ _))

theorem keeps_execMxclr {s0 s : State} {a0 a1} (h : Keeps s0 s) : KeepsOut s0 (execMxclr a0 a1 s) := by
  unfold execMxclr
  try dsimp only
  repeat' (first | with_reducible assumption | with_reducible apply keeps_onLane | with_reducible apply keeps_next | exact keeps_fault _ | with_reducible apply keeps_ite | split | (intro _ _ _; dsimp only) | (with_reducible refine keeps_mk ?_ rfl rfl rfl) | (intro _ _ _))

theorem keeps_addressError {s0 s : State} {a1 a2} (h : Keeps s0 s) : Keeps s0 (addressError s a1 a2) := by
  unfold addressError
  try dsimp only
  repeat' (first | with_reducible assumption | with_reducible apply keeps_bump | with_reducible apply keeps_raise | with_reducible apply keeps_ite | split | (intro _ _ _; dsimp only) | (with_reducible refine keeps_mk ?_ rfl rfl rfl) | (intro _ _ _))

theorem keeps_execLd {s0 s : State} {a0 a1 a2 a3 a4} (h : Keeps s0 s) : KeepsOut s0 (execLd a0 a1 a2 a3 a4 s) := by
  unfold execLd
  try dsimp only
  repeat' (first | with_reducible assumption | with_reducible apply keeps_addressError | with_reducible apply keeps_loadWord | with_reducible apply keeps_setLane | with_reducible apply keeps_next | exact keeps_fault _ | with_reducible apply keeps_ite | split | (intro _ _ _; dsimp only) | (with_reducible refine keeps_mk ?_ rfl rfl rfl) | (intro _ _ _))

theorem keeps_execSt {s0 s : State} {a0 a1 a2 a3} (h : Keeps s0 s) : KeepsOut s0 (execSt a0 a1 a2 a3 s) := by
  unfold execSt
  try dsimp only
  repeat' (first | with_reducible assumption | with_reducible apply keeps_addressError | with_reducible apply keeps_setLane | with_reducible apply keeps_next | exact keeps_fault _ | with_reducible apply keeps_ite | split | (intro _ _ _; dsimp only) | (with_reducible refine keeps_mk ?_ rfl rfl rfl) | (intro _ _ _))

theorem keeps_execXmod {s0 s : State} {a0 a1 a2 a3} (h : Keeps s0 s) : KeepsOut s0 (execXmod a0 a1 a2 a3 s) := by
  unfold execXmod
  try dsimp only
  repeat' (first | with_reducible assumption | with_reducible apply keeps_onLane | with_reducible apply keeps_next | exact keeps_fault _ | with_reducible apply keeps_ite | split | (intro _ _ _; dsimp only) | (with_reducible refine keeps_mk ?_ rfl rfl rfl) | (intro _ _ _))

theorem keeps_closeWith {s0 s : State} {a0 a1 a3} (h : Keeps s0 s) : KeepsOut s0 (closeWith a0 a1 s a3) := by
  unfold closeWith
  try dsimp only
  repeat' (first | with_reducible assumption | with_reducible apply keeps_closeBundle | with_reducible apply keeps_setLane | with_reducible apply keeps_next | exact keeps_fault _ | with_reducible apply keeps_ite | split | (intro _ _ _; dsimp only) | (with_reducible refine keeps_mk ?_ rfl rfl rfl) | (intro _ _ _))

theorem keeps_execNopBundle {s0 s : State} {a0} (h : Keeps s0 s) : KeepsOut s0 (execNopBundle a0 s) := by
  unfold execNopBundle
  try dsimp only
  repeat' (first | with_reducible assumption | with_reducible apply keeps_closeWith | with_reducible apply keeps_next | exact keeps_fault _ | with_reducible apply keeps_ite | split | (intro _ _ _; dsimp only) | (with_reducible refine keeps_mk ?_ rfl rfl rfl) | (intro _ _ _))

theorem keeps_execLset {s0 s : State} {a0 a1 a2} (h : Keeps s0 s) : KeepsOut s0 (execLset a0 a1 a2 s) := by
  unfold execLset
  try dsimp only
  repeat' (first | with_reducible assumption | with_reducible apply keeps_closeWith | with_reducible apply keeps_next | exact keeps_fault _ | with_reducible apply keeps_ite | split | (intro _ _ _; dsimp only) | (with_reducible refine keeps_mk ?_ rfl rfl rfl) | (intro _ _ _))

theorem keeps_execLoop {s0 s : State} {a0 a1 a2} (h : Keeps s0 s) : KeepsOut s0 (execLoop a0 a1 a2 s) := by
  unfold execLoop
  try dsimp only
  repeat' (first | with_reducible assumption | with_reducible apply keeps_closeWith | with_reducible apply keeps_next | exact keeps_fault _ | with_reducible apply keeps_ite | split | (intro _ _ _; dsimp only) | (with_reducible refine keeps_mk ?_ rfl rfl rfl) | (intro _ _ _))

theorem keeps_execBld {s0 s : State} {a0 a1 a2} (h : Keeps s0 s) : KeepsOut s0 (execBld a0 a1 a2 s) := by
  unfold execBld
  try dsimp only
  repeat' (first | with_reducible assumption | with_reducible apply keeps_closeWith | with_reducible apply keeps_next | exact keeps_fault _ | with_reducible apply keeps_ite | split | (intro _ _ _; dsimp only) | (with_reducible refine keeps_mk ?_ rfl rfl rfl) | (intro _ _ _))

end Sys2Proof.Machine
end

