-- ==== Sys2Proof/Laws/KeepsSignals.lean ====
section
/-!
SUPPORT. Laws/KeepsSignals.lean: the operations of Machine/Signals.lean keep the queue, time, the memories and the fuses (Laws/Keeps.lean).
-/
-- One declaration at a time and no linter: the package is compiled as one text under a memory limit.
set_option linter.all false
set_option Elab.async false
namespace Sys2Proof.Machine

theorem keeps_putSig {s0 s : State} {a1 a2 a3} (h : Keeps s0 s) : Keeps s0 (putSig s a1 a2 a3) := by
  exact h.same rfl

theorem keeps_fadeSig {s0 s : State} {a1 a2} (h : Keeps s0 s) : Keeps s0 (fadeSig s a1 a2) := by
  exact h.same rfl

theorem keeps_clearSig {s0 s : State} {a1} (h : Keeps s0 s) : Keeps s0 (clearSig s a1) := by
  exact h.same rfl

theorem keeps_putSlot {s0 s : State} {a1 a2 a3} (h : Keeps s0 s) : Keeps s0 (putSlot s a1 a2 a3) := by
  exact h.same rfl

end Sys2Proof.Machine
end

