-- ==== Sys2Proof/Laws/KeepsPrograms.lean ====
section
/-!
SUPPORT. Laws/KeepsPrograms.lean: the operations of Machine/Programs.lean keep the queue, time, the memories and the fuses (Laws/Keeps.lean).
-/
-- One declaration at a time and no linter: the package is compiled as one text under a memory limit.
set_option linter.all false
set_option Elab.async false
namespace Sys2Proof.Machine

theorem keeps_setResidents {s0 s : State} {a1 a2} (h : Keeps s0 s) : Keeps s0 (setResidents s a1 a2) := by
  exact h.same rfl

theorem keeps_putBundles {s0 s : State} {a1 a2 a3} (h : Keeps s0 s) : Keeps s0 (putBundles s a1 a2 a3) := by
  unfold putBundles
  try dsimp only
  repeat' (first | with_reducible assumption | with_reducible apply keeps_putBytes | with_reducible apply keeps_foldl | with_reducible apply keeps_foldl_fst | with_reducible apply keeps_foldl_snd | with_reducible apply keeps_ite | split | (intro _ _ _; dsimp only) | (with_reducible refine keeps_mk ?_ rfl rfl rfl) | (intro _ _ _))

theorem keeps_loadImage {s0 s : State} {a1 a2} (h : Keeps s0 s) : Keeps s0 (loadImage s a1 a2) := by
  unfold loadImage
  try dsimp only
  repeat' (first | with_reducible assumption | with_reducible apply keeps_putBundles | with_reducible apply keeps_setResidents | with_reducible apply keeps_ite | split | (intro _ _ _; dsimp only) | (with_reducible refine keeps_mk ?_ rfl rfl rfl) | (intro _ _ _))

theorem keeps_freeImages {s0 s : State} {a1 a2} (h : Keeps s0 s) : Keeps s0 (freeImages s a1 a2) := by
  exact h.same rfl

theorem keeps_putLaneWords {s0 : State} {n : Nat} (l : List Nat) : ∀ {s : State} {w : Nat}, Keeps s0 s → Keeps s0 (putLaneWords s n w l) := by
  induction l with
  | nil => intro s w h; exact h
  | cons v r ih => intro s w h; exact ih (keeps_putLaneWord h)

theorem keeps_arriveDma {s0 s : State} {a1} (h : Keeps s0 s) : Keeps s0 (arriveDma s a1) := by
  unfold arriveDma
  try dsimp only
  repeat' (first | with_reducible assumption | with_reducible apply keeps_putLaneWord | with_reducible apply keeps_setLane | with_reducible apply keeps_foldl | with_reducible apply keeps_foldl_fst | with_reducible apply keeps_foldl_snd | with_reducible apply keeps_ite | split | (intro _ _ _; dsimp only) | (with_reducible refine keeps_mk ?_ rfl rfl rfl) | (intro _ _ _))

theorem keeps_issueGather {s0 s : State} {a1 a2} (h : Keeps s0 s) : Keeps s0 (issueGather s a1 a2) := by
  unfold issueGather
  try dsimp only
  repeat' (first | with_reducible assumption | with_reducible apply keeps_drawUpTo | with_reducible apply keeps_setLane | with_reducible apply keeps_ite | split | (intro _ _ _; dsimp only) | (with_reducible refine keeps_mk ?_ rfl rfl rfl) | (intro _ _ _))

theorem keeps_landDma {s0 s : State} {a1} (h : Keeps s0 s) : Keeps s0 (landDma s a1) := by
  unfold landDma
  try dsimp only
  repeat' (first | with_reducible assumption | with_reducible apply keeps_putLaneWord | with_reducible apply keeps_setLane | with_reducible apply keeps_foldl | with_reducible apply keeps_foldl_fst | with_reducible apply keeps_foldl_snd | with_reducible apply keeps_ite | split | (intro _ _ _; dsimp only) | (with_reducible refine keeps_mk ?_ rfl rfl rfl) | (intro _ _ _))

theorem keeps_scatter {s0 s : State} {a1 a2} (h : Keeps s0 s) : Keeps s0 (scatter s a1 a2) := by
  unfold scatter
  try dsimp only
  repeat' (first | with_reducible assumption | with_reducible apply keeps_putSig | with_reducible apply keeps_foldl | with_reducible apply keeps_foldl_fst | with_reducible apply keeps_foldl_snd | with_reducible apply keeps_ite | split | (intro _ _ _; dsimp only) | (with_reducible refine keeps_mk ?_ rfl rfl rfl) | (intro _ _ _))

theorem keeps_prologue {s0 s : State} {a1 a2 a3} (h : Keeps s0 s) : Keeps s0 (prologue s a1 a2 a3) := by
  exact h.same rfl

theorem keeps_slotEffect {s0 s : State} {a0} (h : Keeps s0 s) : Keeps s0 (slotEffect a0 s) := by
  unfold slotEffect
  try dsimp only
  repeat' (first | with_reducible assumption | with_reducible apply keeps_execMac | with_reducible apply keeps_execAsl | with_reducible apply keeps_execMvi | with_reducible apply keeps_execSuba | with_reducible apply keeps_execLoop | with_reducible apply keeps_execAnd | with_reducible apply keeps_execClr | with_reducible apply keeps_execAbs | with_reducible apply keeps_execNeg | with_reducible apply keeps_execAdd | with_reducible apply keeps_execMov | with_reducible apply keeps_execOr | with_reducible apply keeps_execLd | with_reducible apply keeps_execXor | with_reducible apply keeps_execMin | with_reducible apply keeps_execMpy | with_reducible apply keeps_execSt | with_reducible apply keeps_execMax | with_reducible apply keeps_execSha | with_reducible apply keeps_execMvr | with_reducible apply keeps_execMxclr | with_reducible apply keeps_execBld | with_reducible apply keeps_execAdda | with_reducible apply keeps_execXmod | with_reducible apply keeps_execExt | with_reducible apply keeps_execAcc | with_reducible apply keeps_execAsr | with_reducible apply keeps_execLset | with_reducible apply keeps_execMvs | with_reducible apply keeps_execSub | with_reducible apply keeps_execMsu | with_reducible apply keeps_next | exact keeps_fault _ | with_reducible apply keeps_outState | with_reducible apply keeps_ite | split | (intro _ _ _; dsimp only) | (with_reducible refine keeps_mk ?_ rfl rfl rfl) | (intro _ _ _))

theorem keeps_storeX {s0 s : State} {a1 a2} (h : Keeps s0 s) : Keeps s0 (storeX s a1 a2) := by
  unfold storeX
  try dsimp only
  repeat' (first | with_reducible assumption | with_reducible apply keeps_putLaneWords | with_reducible apply keeps_ite | split | (intro _ _ _; dsimp only) | (with_reducible refine keeps_mk ?_ rfl rfl rfl) | (intro _ _ _))

theorem keeps_epilogue {s0 s : State} {a1 a2} (h : Keeps s0 s) : Keeps s0 (epilogue s a1 a2) := by
  unfold epilogue
  try dsimp only
  repeat' (first | with_reducible assumption | with_reducible apply keeps_storeX | with_reducible apply keeps_setLane | with_reducible apply keeps_ite | split | (intro _ _ _; dsimp only) | (with_reducible refine keeps_mk ?_ rfl rfl rfl) | (intro _ _ _))

theorem keeps_finishProgram {s0 s : State} {a1 a2} (h : Keeps s0 s) : Keeps s0 (finishProgram s a1 a2) := by
  unfold finishProgram
  try dsimp only
  repeat' (first | with_reducible assumption | with_reducible apply keeps_bump | with_reducible apply keeps_landDma | with_reducible apply keeps_scatter | with_reducible apply keeps_setN | with_reducible apply keeps_setLane | with_reducible apply keeps_ite | split | (intro _ _ _; dsimp only) | (with_reducible refine keeps_mk ?_ rfl rfl rfl) | (intro _ _ _))

theorem keeps_execHalt {s0 s : State} {a0} (h : Keeps s0 s) : KeepsOut s0 (execHalt a0 s) := by
  unfold execHalt
  try dsimp only
  repeat' (first | with_reducible assumption | with_reducible apply keeps_closeBundle | with_reducible apply keeps_epilogue | with_reducible apply keeps_finishProgram | with_reducible apply keeps_next | exact keeps_fault _ | with_reducible apply keeps_ite | split | (intro _ _ _; dsimp only) | (with_reducible refine keeps_mk ?_ rfl rfl rfl) | (intro _ _ _))

theorem keeps_awaitGather {s0 s : State} {a1 a2} (h : Keeps s0 s) : Keeps s0 (awaitGather s a1 a2) := by
  unfold awaitGather
  try dsimp only
  repeat' (first | with_reducible assumption | with_reducible apply keeps_putLaneWord | with_reducible apply keeps_setLane | with_reducible apply keeps_arriveDma | with_reducible apply keeps_foldl | with_reducible apply keeps_foldl_fst | with_reducible apply keeps_foldl_snd | with_reducible apply keeps_ite | split | (intro _ _ _; dsimp only) | (with_reducible refine keeps_mk ?_ rfl rfl rfl) | (intro _ _ _))

theorem keeps_startProgram {s0 s : State} {a1 a2} (h : Keeps s0 s) : Keeps s0 (startProgram s a1 a2) := by
  unfold startProgram
  try dsimp only
  repeat' (first | with_reducible assumption | with_reducible apply keeps_prologue | with_reducible apply keeps_issueGather | with_reducible apply keeps_awaitGather | with_reducible apply keeps_ite | split | (intro _ _ _; dsimp only) | (with_reducible refine keeps_mk ?_ rfl rfl rfl) | (intro _ _ _))

theorem keeps_execProgramStart {s0 s : State} {a0 a1} (h : Keeps s0 s) : KeepsOut s0 (execProgramStart a0 a1 s) := by
  unfold execProgramStart
  try dsimp only
  repeat' (first | with_reducible assumption | with_reducible apply keeps_startProgram | with_reducible apply keeps_next | exact keeps_fault _ | with_reducible apply keeps_ite | split | (intro _ _ _; dsimp only) | (with_reducible refine keeps_mk ?_ rfl rfl rfl) | (intro _ _ _))

theorem keeps_runOps {s0 s : State} {a1} (h : Keeps s0 s) : Keeps s0 (runOps s a1) := by
  unfold runOps
  try dsimp only
  repeat' (first | with_reducible assumption | with_reducible apply keeps_slotEffect | with_reducible apply keeps_foldl | with_reducible apply keeps_foldl_fst | with_reducible apply keeps_foldl_snd | with_reducible apply keeps_ite | split | (intro _ _ _; dsimp only) | (with_reducible refine keeps_mk ?_ rfl rfl rfl) | (intro _ _ _))

theorem keeps_runBundles {s0 : State} {b : Octets} {n stop : Nat} (k : Nat) : ∀ {s : State}, Keeps s0 s → Keeps s0 (runBundles b n stop k s).1 := by
  induction k with
  | zero => intro s h; exact h
  | succ k ih =>
    intro s h
    unfold runBundles
    dsimp only
    split
    · exact h
    · split
      · split
        · exact keeps_runOps h
        · exact ih (keeps_slotEffect (keeps_runOps h))
        · exact ih (keeps_outState (keeps_runOps h) (keeps_execNopBundle (keeps_runOps h)))
      · exact h

theorem keeps_overrun {s0 s : State} {a1 a2} (h : Keeps s0 s) : Keeps s0 (overrun s a1 a2) := by
  exact h.same rfl

theorem keeps_runPlacement {s0 s : State} {a1 a2 a3} (h : Keeps s0 s) : Keeps s0 (runPlacement s a1 a2 a3) := by
  have hr : ∀ b n stop k m, Keeps s0 (runBundles b n stop k (startProgram s m a1)).1 :=
    fun _ _ _ _ _ => keeps_runBundles _ (keeps_startProgram h)
  unfold runPlacement
  dsimp only
  split
  · exact keeps_outState (hr _ _ _ _ _) (keeps_execHalt (hr _ _ _ _ _))
  · exact keeps_overrun (hr _ _ _ _ _)

theorem keeps_openLane {s0 s : State} {a1 a2} (h : Keeps s0 s) : Keeps s0 (openLane s a1 a2) := by
  unfold openLane
  try dsimp only
  repeat' (first | with_reducible assumption | with_reducible apply keeps_issueGather | with_reducible apply keeps_setLane | with_reducible apply keeps_ite | split | (intro _ _ _; dsimp only) | (with_reducible refine keeps_mk ?_ rfl rfl rfl) | (intro _ _ _))

theorem keeps_passProgram {s0 s : State} {a1 a2 a3 a4} (h : Keeps s0 s) : Keeps s0 (passProgram s a1 a2 a3 a4) := by
  unfold passProgram
  try dsimp only
  repeat' (first | with_reducible assumption | with_reducible apply keeps_overrun | with_reducible apply keeps_setN | with_reducible apply keeps_setLane | with_reducible apply keeps_startProgram | with_reducible apply keeps_ite | split | (intro _ _ _; dsimp only) | (with_reducible refine keeps_mk ?_ rfl rfl rfl) | (intro _ _ _))

theorem keeps_runSlotPath {s0 s : State} {a1 a2 a3 a4 a5} (h : Keeps s0 s) : Keeps s0 (runSlotPath s a1 a2 a3 a4 a5).1 := by
  have hr : ∀ b n stop k m, Keeps s0 (runBundles b n stop k (prologue s m a1 (some a3))).1 :=
    fun _ _ _ _ _ => keeps_runBundles _ (keeps_prologue h)
  unfold runSlotPath
  dsimp only
  split
  · exact keeps_setLane (keeps_epilogue (keeps_closeBundle (hr _ _ _ _ _)))
  · exact keeps_overrun (hr _ _ _ _ _)

theorem keeps_repeatFrame {s0 s : State} {a1 a2} (h : Keeps s0 s) : Keeps s0 (repeatFrame s a1 a2) := by
  exact h.same rfl

end Sys2Proof.Machine
end

