-- ==== Sys2Proof/Laws/KeepsTdm.lean ====
section
/-!
SUPPORT. Laws/KeepsTdm.lean: the operations of Machine/Tdm.lean keep the queue, time, the memories and the fuses (Laws/Keeps.lean).
-/
-- One declaration at a time and no linter: the package is compiled as one text under a memory limit.
set_option linter.all false
set_option Elab.async false
namespace Sys2Proof.Machine

theorem keeps_setOutFade {s0 s : State} {a1 a2} (h : Keeps s0 s) : Keeps s0 (setOutFade s a1 a2) := by
  exact h.same rfl

theorem keeps_fadeOutlets {s0 s : State} {a1 a2} (h : Keeps s0 s) : Keeps s0 (fadeOutlets s a1 a2) := by
  unfold fadeOutlets
  try dsimp only
  repeat' (first | with_reducible assumption | with_reducible apply keeps_setOutFade | with_reducible apply keeps_foldl | with_reducible apply keeps_foldl_fst | with_reducible apply keeps_foldl_snd | with_reducible apply keeps_ite | split | (intro _ _ _; dsimp only) | (with_reducible refine keeps_mk ?_ rfl rfl rfl) | (intro _ _ _))

theorem keeps_setOutlet {s0 s : State} {a1 a2} (h : Keeps s0 s) : Keeps s0 (setOutlet s a1 a2) := by
  exact h.same rfl

theorem keeps_execPatchDipFadeEnd {s0 s : State} {a0} (h : Keeps s0 s) : KeepsOut s0 (execPatchDipFadeEnd a0 s) := by
  exact keeps_next (h.same rfl)

theorem keeps_outletFrame {s0 s : State} {a1 a2} (h : Keeps s0 s) : Keeps s0 (outletFrame s a1 a2).2 := by
  exact h.same rfl

theorem keeps_outletsFrame {s0 s : State} {a1 a2} (h : Keeps s0 s) : Keeps s0 (outletsFrame s a1 a2).1 := by
  unfold outletsFrame
  try dsimp only
  repeat' (first | with_reducible assumption | with_reducible apply keeps_outletFrame | with_reducible apply keeps_foldl | with_reducible apply keeps_foldl_fst | with_reducible apply keeps_foldl_snd | with_reducible apply keeps_ite | split | (intro _ _ _; dsimp only) | (with_reducible refine keeps_mk ?_ rfl rfl rfl) | (intro _ _ _))

theorem keeps_setNa {s0 s : State} {a1 a2 a3} (h : Keeps s0 s) : Keeps s0 (setNa s a1 a2 a3) := by
  exact h.same rfl

theorem keeps_naSample {s0 s : State} {a1 a2 a3 a4 a5} (h : Keeps s0 s) : Keeps s0 (naSample s a1 a2 a3 a4 a5) := by
  unfold naSample
  try dsimp only
  repeat' (first | with_reducible assumption | with_reducible apply keeps_bump | with_reducible apply keeps_setNa | with_reducible apply keeps_setN | with_reducible apply keeps_raise | with_reducible apply keeps_ite | split | (intro _ _ _; dsimp only) | (with_reducible refine keeps_mk ?_ rfl rfl rfl) | (intro _ _ _))

theorem keeps_naAdvance {s0 s : State} {a1 a2} (h : Keeps s0 s) : Keeps s0 (naAdvance s a1 a2) := by
  unfold naAdvance
  try dsimp only
  repeat' (first | with_reducible assumption | with_reducible apply keeps_setNa | with_reducible apply keeps_ite | split | (intro _ _ _; dsimp only) | (with_reducible refine keeps_mk ?_ rfl rfl rfl) | (intro _ _ _))

theorem keeps_unmutePairs {s0 s : State} {a1} (h : Keeps s0 s) : Keeps s0 (unmutePairs s a1) := by
  unfold unmutePairs
  try dsimp only
  repeat' (first | with_reducible assumption | with_reducible apply keeps_setNa | with_reducible apply keeps_setN | with_reducible apply keeps_foldl | with_reducible apply keeps_foldl_fst | with_reducible apply keeps_foldl_snd | with_reducible apply keeps_ite | split | (intro _ _ _; dsimp only) | (with_reducible refine keeps_mk ?_ rfl rfl rfl) | (intro _ _ _))

theorem keeps_execNonaudioCleared {s0 s : State} {a0 a1} (h : Keeps s0 s) : KeepsOut s0 (execNonaudioCleared a0 a1 s) := by
  unfold execNonaudioCleared
  try dsimp only
  repeat' (first | with_reducible assumption | with_reducible apply keeps_setNa | with_reducible apply keeps_setN | with_reducible apply keeps_raise | with_reducible apply keeps_next | exact keeps_fault _ | with_reducible apply keeps_ite | split | (intro _ _ _; dsimp only) | (with_reducible refine keeps_mk ?_ rfl rfl rfl) | (intro _ _ _))

theorem keeps_setPort {s0 s : State} {a1 a2} (h : Keeps s0 s) : Keeps s0 (setPort s a1 a2) := by
  exact h.same rfl

theorem keeps_setClk {s0 s : State} {a1 a2} (h : Keeps s0 s) : Keeps s0 (setClk s a1 a2) := by
  exact h.same rfl

theorem keeps_portSample {s0 s : State} {a1 a2 a3} (h : Keeps s0 s) : Keeps s0 (portSample s a1 a2 a3).1 := by
  unfold portSample
  try dsimp only
  repeat' (first | with_reducible assumption | with_reducible apply keeps_naAdvance | with_reducible apply keeps_naSample | with_reducible apply keeps_foldl | with_reducible apply keeps_foldl_fst | with_reducible apply keeps_foldl_snd | with_reducible apply keeps_ite | split | (intro _ _ _; dsimp only) | (with_reducible refine keeps_mk ?_ rfl rfl rfl) | (intro _ _ _))

theorem keeps_ingestPort {s0 s : State} {a1 a2 a3} (h : Keeps s0 s) : Keeps s0 (ingestPort s a1 a2 a3) := by
  unfold ingestPort
  try dsimp only
  repeat' (first | with_reducible assumption | with_reducible apply keeps_portSample | with_reducible apply keeps_putSig | with_reducible apply keeps_setPort | with_reducible apply keeps_foldl | with_reducible apply keeps_foldl_fst | with_reducible apply keeps_foldl_snd | with_reducible apply keeps_ite | split | (intro _ _ _; dsimp only) | (with_reducible refine keeps_mk ?_ rfl rfl rfl) | (intro _ _ _))

theorem keeps_examinePort {s0 s : State} {a1 a2 a3} (h : Keeps s0 s) : Keeps s0 (examinePort s a1 a2 a3) := by
  unfold examinePort
  try dsimp only
  repeat' (first | with_reducible assumption | with_reducible apply keeps_portSample | with_reducible apply keeps_foldl | with_reducible apply keeps_foldl_fst | with_reducible apply keeps_foldl_snd | with_reducible apply keeps_ite | split | (intro _ _ _; dsimp only) | (with_reducible refine keeps_mk ?_ rfl rfl rfl) | (intro _ _ _))

theorem keeps_setSdo {s0 s : State} {a1 a2} (h : Keeps s0 s) : Keeps s0 (setSdo s a1 a2) := by
  exact h.same rfl

theorem keeps_fadeOnPort {s0 s : State} {a1} (h : Keeps s0 s) : Keeps s0 (fadeOnPort s a1) := by
  unfold fadeOnPort
  try dsimp only
  repeat' (first | with_reducible assumption | with_reducible apply keeps_setClk | with_reducible apply keeps_setPort | with_reducible apply keeps_ite | split | (intro _ _ _; dsimp only) | (with_reducible refine keeps_mk ?_ rfl rfl rfl) | (intro _ _ _))

theorem keeps_egressPort {s0 s : State} {a1 a2 a3} (h : Keeps s0 s) : Keeps s0 (egressPort s a1 a2 a3) := by
  unfold egressPort
  try dsimp only
  repeat' (first | with_reducible assumption | with_reducible apply keeps_setSdo | with_reducible apply keeps_fadeOnPort | with_reducible apply keeps_setPort | with_reducible apply keeps_foldl | with_reducible apply keeps_foldl_fst | with_reducible apply keeps_foldl_snd | with_reducible apply keeps_ite | split | (intro _ _ _; dsimp only) | (with_reducible refine keeps_mk ?_ rfl rfl rfl) | (intro _ _ _))

theorem keeps_idleSdo {s0 s : State} {a1} (h : Keeps s0 s) : Keeps s0 (idleSdo s a1) := by
  unfold idleSdo
  try dsimp only
  repeat' (first | with_reducible assumption | with_reducible apply keeps_setSdo | with_reducible apply keeps_foldl | with_reducible apply keeps_foldl_fst | with_reducible apply keeps_foldl_snd | with_reducible apply keeps_ite | split | (intro _ _ _; dsimp only) | (with_reducible refine keeps_mk ?_ rfl rfl rfl) | (intro _ _ _))

theorem keeps_fadeFrom {s0 s : State} {a1} (h : Keeps s0 s) : Keeps s0 (fadeFrom s a1) := by
  unfold fadeFrom
  try dsimp only
  repeat' (first | with_reducible assumption | with_reducible apply keeps_fadeSig | with_reducible apply keeps_ite | split | (intro _ _ _; dsimp only) | (with_reducible refine keeps_mk ?_ rfl rfl rfl) | (intro _ _ _))

theorem keeps_fadePort {s0 s : State} {a1} (h : Keeps s0 s) : Keeps s0 (fadePort s a1) := by
  unfold fadePort
  try dsimp only
  repeat' (first | with_reducible assumption | with_reducible apply keeps_fadeFrom | with_reducible apply keeps_foldl | with_reducible apply keeps_foldl_fst | with_reducible apply keeps_foldl_snd | with_reducible apply keeps_ite | split | (intro _ _ _; dsimp only) | (with_reducible refine keeps_mk ?_ rfl rfl rfl) | (intro _ _ _))

theorem keeps_portEntered {s0 s : State} {a1 a2} (h : Keeps s0 s) : Keeps s0 (portEntered s a1 a2) := by
  unfold portEntered
  try dsimp only
  repeat' (first | with_reducible assumption | with_reducible apply keeps_setSdo | with_reducible apply keeps_clearSig | with_reducible apply keeps_fadePort | with_reducible apply keeps_setClk | with_reducible apply keeps_setPort | with_reducible apply keeps_foldl | with_reducible apply keeps_foldl_fst | with_reducible apply keeps_foldl_snd | with_reducible apply keeps_ite | split | (intro _ _ _; dsimp only) | (with_reducible refine keeps_mk ?_ rfl rfl rfl) | (intro _ _ _))

theorem keeps_restartPort {s0 s : State} {a1} (h : Keeps s0 s) : Keeps s0 (restartPort s a1) := by
  exact h.same rfl

theorem keeps_haltPort {s0 s : State} {a1} (h : Keeps s0 s) : Keeps s0 (haltPort s a1) := by
  exact h.same rfl

theorem keeps_zeroPort {s0 s : State} {a1} (h : Keeps s0 s) : Keeps s0 (zeroPort s a1) := by
  exact h.same rfl

theorem keeps_tickPort {s0 s : State} {a1} (h : Keeps s0 s) : Keeps s0 (tickPort s a1) := by
  unfold tickPort
  try dsimp only
  repeat' (first | with_reducible assumption | with_reducible apply keeps_moveUnit | with_reducible apply keeps_setClk | with_reducible apply keeps_setPort | with_reducible apply keeps_ite | split | (intro _ _ _; dsimp only) | (with_reducible refine keeps_mk ?_ rfl rfl rfl) | (intro _ _ _))

theorem keeps_execBankSupplyFault {s0 s : State} {a0} (h : Keeps s0 s) : KeepsOut s0 (execBankSupplyFault a0 s) := by
  unfold execBankSupplyFault
  try dsimp only
  repeat' (first | with_reducible assumption | with_reducible apply keeps_setSdo | with_reducible apply keeps_faultDue | with_reducible apply keeps_setN | with_reducible apply keeps_raise | with_reducible apply keeps_setClk | with_reducible apply keeps_next | exact keeps_fault _ | with_reducible apply keeps_foldl | with_reducible apply keeps_foldl_fst | with_reducible apply keeps_foldl_snd | with_reducible apply keeps_ite | split | (intro _ _ _; dsimp only) | (with_reducible refine keeps_mk ?_ rfl rfl rfl) | (intro _ _ _))

theorem keeps_execMutingWindowEnd {s0 s : State} {a0} (h : Keeps s0 s) : KeepsOut s0 (execMutingWindowEnd a0 s) := by
  unfold execMutingWindowEnd
  try dsimp only
  repeat' (first | with_reducible assumption | with_reducible apply keeps_setPort | with_reducible apply keeps_next | exact keeps_fault _ | with_reducible apply keeps_ite | split | (intro _ _ _; dsimp only) | (with_reducible refine keeps_mk ?_ rfl rfl rfl) | (intro _ _ _))

end Sys2Proof.Machine
end

