-- ==== Sys2Proof/Laws/KeepsSage.lean ====
section
/-!
SUPPORT. Laws/KeepsSage.lean: the operations of Machine/Sage.lean keep the queue, time, the memories and the fuses (Laws/Keeps.lean).
-/
-- One declaration at a time and no linter: the package is compiled as one text under a memory limit.
set_option linter.all false
set_option Elab.async false
namespace Sys2Proof.Machine

theorem keeps_writeLog {s0 s : State} {a1 a2 a3 a4 a5} (h : Keeps s0 s) : Keeps s0 (writeLog s a1 a2 a3 a4 a5) := by
  unfold writeLog
  try dsimp only
  repeat' (first | with_reducible assumption | with_reducible apply keeps_bump | with_reducible apply keeps_setN | with_reducible apply keeps_raise | with_reducible apply keeps_ite | split | (intro _ _ _; dsimp only) | (with_reducible refine keeps_mk ?_ rfl rfl rfl) | (intro _ _ _))

theorem keeps_setRole {s0 s : State} {a1} (h : Keeps s0 s) : Keeps s0 (setRole s a1) := by
  unfold setRole
  try dsimp only
  repeat' (first | with_reducible assumption | with_reducible apply keeps_setN | with_reducible apply keeps_raise | with_reducible apply keeps_ite | split | (intro _ _ _; dsimp only) | (with_reducible refine keeps_mk ?_ rfl rfl rfl) | (intro _ _ _))

theorem keeps_takeToken {s0 s : State} (h : Keeps s0 s) : Keeps s0 (takeToken s) := by
  exact h.same rfl

theorem keeps_dropToken {s0 s : State} (h : Keeps s0 s) : Keeps s0 (dropToken s) := by
  exact h.same rfl

theorem keeps_fatal {s0 s : State} {a1} (h : Keeps s0 s) : Keeps s0 (fatal s a1) := by
  unfold fatal
  try dsimp only
  repeat' (first | with_reducible assumption | with_reducible apply keeps_setN | with_reducible apply keeps_writeLog | with_reducible apply keeps_raise | with_reducible apply keeps_ite | split | (intro _ _ _; dsimp only) | (with_reducible refine keeps_mk ?_ rfl rfl rfl) | (intro _ _ _))

theorem keeps_fatalTick {s0 s : State} {a1} (h : Keeps s0 s) : Keeps s0 (fatalTick s a1) := by
  unfold fatalTick
  try dsimp only
  repeat' (first | with_reducible assumption | with_reducible apply keeps_setOutFade | with_reducible apply keeps_ite | split | (intro _ _ _; dsimp only) | (with_reducible refine keeps_mk ?_ rfl rfl rfl) | (intro _ _ _))

theorem keeps_fatalRelease {s0 s : State} (h : Keeps s0 s) : Keeps s0 (fatalRelease s) := by
  unfold fatalRelease
  try dsimp only
  repeat' (first | with_reducible assumption | with_reducible apply keeps_dropToken | with_reducible apply keeps_setRole | with_reducible apply keeps_ite | split | (intro _ _ _; dsimp only) | (with_reducible refine keeps_mk ?_ rfl rfl rfl) | (intro _ _ _))

theorem keeps_endTest {s0 s : State} {a1 a2} (h : Keeps s0 s) : Keeps s0 (endTest s a1 a2) := by
  exact h.same rfl

theorem keeps_reportError {s0 s : State} {a1} (h : Keeps s0 s) : Keeps s0 (reportError s a1) := by
  unfold reportError
  try dsimp only
  repeat' (first | with_reducible assumption | with_reducible apply keeps_writeLog | with_reducible apply keeps_ite | split | (intro _ _ _; dsimp only) | (with_reducible refine keeps_mk ?_ rfl rfl rfl) | (intro _ _ _))

theorem keeps_saveRegion {s0 s : State} {a1} (h : Keeps s0 s) : Keeps s0 (saveRegion s a1) := by
  exact h.same rfl

theorem keeps_restoreRegion {s0 s : State} {r} (h : Keeps s0 s) : Keeps s0 (restoreRegion s r) := by
  unfold restoreRegion
  split
  · next b _ =>
    exact (keeps_mem h (fun hm => memWf_foldPut _ _ (tabWf_filter _ _ _ hm))).same rfl
  · exact h

theorem keeps_startTargeted {s0 s : State} (h : Keeps s0 s) : Keeps s0 (startTargeted s) := by
  unfold startTargeted
  try dsimp only
  repeat' (first | with_reducible assumption | with_reducible apply keeps_saveRegion | with_reducible apply keeps_foldl | with_reducible apply keeps_foldl_fst | with_reducible apply keeps_foldl_snd | with_reducible apply keeps_ite | split | (intro _ _ _; dsimp only) | (with_reducible refine keeps_mk ?_ rfl rfl rfl) | (intro _ _ _))

theorem keeps_passOn {s0 s : State} (h : Keeps s0 s) : Keeps s0 (passOn s) := by
  unfold passOn
  try dsimp only
  repeat' (first | with_reducible assumption | with_reducible apply keeps_bump | with_reducible apply keeps_setN | with_reducible apply keeps_ite | split | (intro _ _ _; dsimp only) | (with_reducible refine keeps_mk ?_ rfl rfl rfl) | (intro _ _ _))

theorem keeps_passTake {s0 : State} (n : Nat) : ∀ {s : State}, Keeps s0 s → Keeps s0 (passTake n s) := by
  induction n with
  | zero => intro s h; exact h
  | succ n ih =>
    intro s h
    have h1 : Keeps s0 (if s.sage.position = 0 then { s with sage := { s.sage with started := s.now } } else s) :=
      keeps_ite (keeps_mk h rfl rfl rfl) h
    unfold passTake
    dsimp only
    split
    · exact ih (keeps_passOn (keeps_saveRegion h1))
    · exact h

theorem keeps_sageWindow {s0 s : State} (h : Keeps s0 s) : Keeps s0 (sageWindow s) :=
  keeps_ite h (keeps_passTake _ (keeps_startTargeted h))

theorem keeps_endPass {s0 s : State} (h : Keeps s0 s) : Keeps s0 (endPass s) := by
  unfold endPass
  try dsimp only
  repeat' (first | with_reducible assumption | with_reducible apply keeps_restoreRegion | with_reducible apply keeps_foldl | with_reducible apply keeps_foldl_fst | with_reducible apply keeps_foldl_snd | with_reducible apply keeps_ite | split | (intro _ _ _; dsimp only) | (with_reducible refine keeps_mk ?_ rfl rfl rfl) | (intro _ _ _))

theorem keeps_poisonWord {s0 s : State} {a1 a2} (h : Keeps s0 s) : Keeps s0 (poisonWord s a1 a2) := by
  unfold poisonWord
  try dsimp only
  repeat' (first | with_reducible assumption | with_reducible apply keeps_ite | split | (intro _ _ _; dsimp only) | (with_reducible refine keeps_mk ?_ rfl rfl rfl) | (intro _ _ _))

theorem keeps_execSramEccError {s0 s : State} {a0 a1 a2} (h : Keeps s0 s) : KeepsOut s0 (execSramEccError a0 a1 a2 s) := by
  unfold execSramEccError
  try dsimp only
  repeat' (first | with_reducible assumption | with_reducible apply keeps_poisonWord | with_reducible apply keeps_reportError | with_reducible apply keeps_writeLog | with_reducible apply keeps_next | exact keeps_fault _ | with_reducible apply keeps_ite | split | (intro _ _ _; dsimp only) | (with_reducible refine keeps_mk ?_ rfl rfl rfl) | (intro _ _ _))

theorem keeps_addSpare {s0 s : State} {a1} (h : Keeps s0 s) : Keeps s0 (addSpare s a1) := by
  unfold addSpare
  try dsimp only
  repeat' (first | with_reducible assumption | with_reducible apply keeps_bump | with_reducible apply keeps_ite | split | (intro _ _ _; dsimp only) | (with_reducible refine keeps_mk ?_ rfl rfl rfl) | (intro _ _ _))

theorem keeps_mapSpare {s0 s : State} {a1} (h : Keeps s0 s) : Keeps s0 (mapSpare s a1) := by
  unfold mapSpare
  try dsimp only
  repeat' (first | with_reducible assumption | with_reducible apply keeps_addSpare | with_reducible apply keeps_ite | split | (intro _ _ _; dsimp only) | (with_reducible refine keeps_mk ?_ rfl rfl rfl) | (intro _ _ _))

theorem keeps_addFailed {s0 s : State} {a1 a2} (h : Keeps s0 s) : Keeps s0 (addFailed s a1 a2) := by
  unfold addFailed
  try dsimp only
  repeat' (first | with_reducible assumption | with_reducible apply keeps_bump | with_reducible apply keeps_ite | split | (intro _ _ _; dsimp only) | (with_reducible refine keeps_mk ?_ rfl rfl rfl) | (intro _ _ _))

theorem keeps_failRegion {s0 s : State} {a1 a2} (h : Keeps s0 s) : Keeps s0 (failRegion s a1 a2) := by
  unfold failRegion
  try dsimp only
  repeat' (first | with_reducible assumption | with_reducible apply keeps_addFailed | with_reducible apply keeps_ite | split | (intro _ _ _; dsimp only) | (with_reducible refine keeps_mk ?_ rfl rfl rfl) | (intro _ _ _))

theorem keeps_sramTestDone {s0 s : State} {a1 a2 a3} (h : Keeps s0 s) : Keeps s0 (sramTestDone s a1 a2 a3) := by
  unfold sramTestDone
  try dsimp only
  repeat' (first | with_reducible assumption | with_reducible apply keeps_endTest | with_reducible apply keeps_restoreRegion | with_reducible apply keeps_fatal | with_reducible apply keeps_writeLog | with_reducible apply keeps_failRegion | with_reducible apply keeps_mapSpare | with_reducible apply keeps_raise | with_reducible apply keeps_ite | split | (intro _ _ _; dsimp only) | (with_reducible refine keeps_mk ?_ rfl rfl rfl) | (intro _ _ _))

theorem keeps_execSramTestEnd {s0 s : State} {a0 a1 a2} (h : Keeps s0 s) : KeepsOut s0 (execSramTestEnd a0 a1 a2 s) := by
  unfold execSramTestEnd
  try dsimp only
  repeat' (first | with_reducible assumption | with_reducible apply keeps_restoreRegion | with_reducible apply keeps_sramTestDone | with_reducible apply keeps_reportError | with_reducible apply keeps_next | exact keeps_fault _ | with_reducible apply keeps_ite | split | (intro _ _ _; dsimp only) | (with_reducible refine keeps_mk ?_ rfl rfl rfl) | (intro _ _ _))

theorem keeps_laneError {s0 s : State} {a1 a2 a3 a4 a5} (h : Keeps s0 s) : Keeps s0 (laneError s a1 a2 a3 a4 a5) := by
  unfold laneError
  try dsimp only
  repeat' (first | with_reducible assumption | with_reducible apply keeps_reportError | with_reducible apply keeps_ite | split | (intro _ _ _; dsimp only) | (with_reducible refine keeps_mk ?_ rfl rfl rfl) | (intro _ _ _))

theorem keeps_execLaneResidueError {s0 s : State} {a0 a1} (h : Keeps s0 s) : KeepsOut s0 (execLaneResidueError a0 a1 s) := by
  unfold execLaneResidueError
  try dsimp only
  repeat' (first | with_reducible assumption | with_reducible apply keeps_laneError | with_reducible apply keeps_next | exact keeps_fault _ | with_reducible apply keeps_ite | split | (intro _ _ _; dsimp only) | (with_reducible refine keeps_mk ?_ rfl rfl rfl) | (intro _ _ _))

theorem keeps_repeatSlot {s0 s : State} {a1 a2} (h : Keeps s0 s) : Keeps s0 (repeatSlot s a1 a2) := by
  exact h.same rfl

theorem keeps_execLaneBudgetStop {s0 s : State} {a0 a1 a2} (h : Keeps s0 s) : KeepsOut s0 (execLaneBudgetStop a0 a1 a2 s) := by
  unfold execLaneBudgetStop
  try dsimp only
  repeat' (first | with_reducible assumption | with_reducible apply keeps_bump | with_reducible apply keeps_repeatFrame | with_reducible apply keeps_repeatSlot | with_reducible apply keeps_setLane | with_reducible apply keeps_laneError | with_reducible apply keeps_next | exact keeps_fault _ | with_reducible apply keeps_foldl | with_reducible apply keeps_foldl_fst | with_reducible apply keeps_foldl_snd | with_reducible apply keeps_ite | split | (intro _ _ _; dsimp only) | (with_reducible refine keeps_mk ?_ rfl rfl rfl) | (intro _ _ _))

theorem keeps_tileFaultDue {s0 s : State} {a1} (h : Keeps s0 s) : Keeps s0 (tileFaultDue s a1) := by
  exact h.same rfl

theorem keeps_execKnownAnswerTestEnd {s0 s : State} {a0 a1 a2} (h : Keeps s0 s) : KeepsOut s0 (execKnownAnswerTestEnd a0 a1 a2 s) := by
  unfold execKnownAnswerTestEnd
  try dsimp only
  repeat' (first | with_reducible assumption | with_reducible apply keeps_endTest | with_reducible apply keeps_setN | with_reducible apply keeps_writeLog | with_reducible apply keeps_tileFaultDue | with_reducible apply keeps_next | exact keeps_fault _ | with_reducible apply keeps_ite | split | (intro _ _ _; dsimp only) | (with_reducible refine keeps_mk ?_ rfl rfl rfl) | (intro _ _ _))

theorem keeps_execSparePipelineTest {s0 s : State} {a0 a1 a2} (h : Keeps s0 s) : KeepsOut s0 (execSparePipelineTest a0 a1 a2 s) := by
  unfold execSparePipelineTest
  try dsimp only
  repeat' (first | with_reducible assumption | with_reducible apply keeps_setN | with_reducible apply keeps_writeLog | with_reducible apply keeps_next | exact keeps_fault _ | with_reducible apply keeps_ite | split | (intro _ _ _; dsimp only) | (with_reducible refine keeps_mk ?_ rfl rfl rfl) | (intro _ _ _))

theorem keeps_moveLanes {s0 s : State} {a1} (h : Keeps s0 s) : Keeps s0 (moveLanes s a1) := by
  unfold moveLanes
  try dsimp only
  repeat' (first | with_reducible assumption | with_reducible apply keeps_setN | with_reducible apply keeps_foldl | with_reducible apply keeps_foldl_fst | with_reducible apply keeps_foldl_snd | with_reducible apply keeps_ite | split | (intro _ _ _; dsimp only) | (with_reducible refine keeps_mk ?_ rfl rfl rfl) | (intro _ _ _))

theorem keeps_execCrosspointResidueError {s0 s : State} {a0 a1} (h : Keeps s0 s) : KeepsOut s0 (execCrosspointResidueError a0 a1 s) := by
  unfold execCrosspointResidueError
  try dsimp only
  repeat' (first | with_reducible assumption | with_reducible apply keeps_reportError | with_reducible apply keeps_next | exact keeps_fault _ | with_reducible apply keeps_ite | split | (intro _ _ _; dsimp only) | (with_reducible refine keeps_mk ?_ rfl rfl rfl) | (intro _ _ _))

theorem keeps_execCrosspointTestEnd {s0 s : State} {a0 a1} (h : Keeps s0 s) : KeepsOut s0 (execCrosspointTestEnd a0 a1 s) := by
  unfold execCrosspointTestEnd
  try dsimp only
  repeat' (first | with_reducible assumption | with_reducible apply keeps_endTest | with_reducible apply keeps_fatal | with_reducible apply keeps_writeLog | with_reducible apply keeps_next | exact keeps_fault _ | with_reducible apply keeps_ite | split | (intro _ _ _; dsimp only) | (with_reducible refine keeps_mk ?_ rfl rfl rfl) | (intro _ _ _))

theorem keeps_retireMacs {s0 s : State} (h : Keeps s0 s) : Keeps s0 (retireMacs s) := by
  unfold retireMacs
  try dsimp only
  repeat' (first | with_reducible assumption | with_reducible apply keeps_setN | with_reducible apply keeps_ite | split | (intro _ _ _; dsimp only) | (with_reducible refine keeps_mk ?_ rfl rfl rfl) | (intro _ _ _))

theorem keeps_execLockstepMismatch {s0 s : State} {a0} (h : Keeps s0 s) : KeepsOut s0 (execLockstepMismatch a0 s) := by
  unfold execLockstepMismatch
  try dsimp only
  repeat' (first | with_reducible assumption | with_reducible apply keeps_fatal | with_reducible apply keeps_next | exact keeps_fault _ | with_reducible apply keeps_ite | split | (intro _ _ _; dsimp only) | (with_reducible refine keeps_mk ?_ rfl rfl rfl) | (intro _ _ _))

theorem keeps_execFullTestDone {s0 s : State} {a0} (h : Keeps s0 s) : KeepsOut s0 (execFullTestDone a0 s) := by
  unfold execFullTestDone
  try dsimp only
  repeat' (first | with_reducible assumption | with_reducible apply keeps_setN | with_reducible apply keeps_next | exact keeps_fault _ | with_reducible apply keeps_ite | split | (intro _ _ _; dsimp only) | (with_reducible refine keeps_mk ?_ rfl rfl rfl) | (intro _ _ _))

theorem keeps_execJtagInstructionLoad {s0 s : State} {a0} (h : Keeps s0 s) : KeepsOut s0 (execJtagInstructionLoad a0 s) := by
  unfold execJtagInstructionLoad
  try dsimp only
  repeat' (first | with_reducible assumption | with_reducible apply keeps_fatal | with_reducible apply keeps_next | exact keeps_fault _ | with_reducible apply keeps_ite | split | (intro _ _ _; dsimp only) | (with_reducible refine keeps_mk ?_ rfl rfl rfl) | (intro _ _ _))

theorem keeps_execDieTempUpdate {s0 s : State} {a0} (h : Keeps s0 s) : KeepsOut s0 (execDieTempUpdate a0 s) := by
  unfold execDieTempUpdate
  try dsimp only
  repeat' (first | with_reducible assumption | with_reducible apply keeps_setN | with_reducible apply keeps_raise | with_reducible apply keeps_next | exact keeps_fault _ | with_reducible apply keeps_ite | split | (intro _ _ _; dsimp only) | (with_reducible refine keeps_mk ?_ rfl rfl rfl) | (intro _ _ _))

end Sys2Proof.Machine
end

