-- ==== Sys2Proof/Laws/KeepsDram.lean ====
section
/-!
SUPPORT. Laws/KeepsDram.lean: the operations of Machine/Dram.lean keep the queue, time, the memories and the fuses (Laws/Keeps.lean).
-/
-- One declaration at a time and no linter: the package is compiled as one text under a memory limit.
set_option linter.all false
set_option Elab.async false
namespace Sys2Proof.Machine

theorem keeps_setArb {s0 s : State} {a1 a2} (h : Keeps s0 s) : Keeps s0 (setArb s a1 a2) := by
  exact h.same rfl

theorem keeps_errorAt {s0 s : State} {a1} (h : Keeps s0 s) : Keeps s0 (errorAt s a1) := by
  exact h.same rfl

theorem keeps_setBudget {s0 s : State} {a1 a2} (h : Keeps s0 s) : Keeps s0 (setBudget s a1 a2) := by
  exact h.same rfl

theorem keeps_spendBeats {s0 s : State} {a1 a2 a3 a4} (h : Keeps s0 s) : Keeps s0 (spendBeats s a1 a2 a3 a4) := by
  unfold spendBeats
  try dsimp only
  repeat' (first | with_reducible assumption | with_reducible apply keeps_setBudget | with_reducible apply keeps_setArb | with_reducible apply keeps_ite | split | (intro _ _ _; dsimp only) | (with_reducible refine keeps_mk ?_ rfl rfl rfl) | (intro _ _ _))

theorem keeps_giveBeats {s0 s : State} {a1 a2 a3 a4} (h : Keeps s0 s) : Keeps s0 (giveBeats s a1 a2 a3 a4) := by
  unfold giveBeats
  try dsimp only
  repeat' (first | with_reducible assumption | with_reducible apply keeps_setBudget | with_reducible apply keeps_setArb | with_reducible apply keeps_ite | split | (intro _ _ _; dsimp only) | (with_reducible refine keeps_mk ?_ rfl rfl rfl) | (intro _ _ _))

theorem keeps_heldAtZero {s0 s : State} {a1} (h : Keeps s0 s) : Keeps s0 (heldAtZero s a1) := by
  unfold heldAtZero
  try dsimp only
  repeat' (first | with_reducible assumption | with_reducible apply keeps_setBudget | with_reducible apply keeps_bump | with_reducible apply keeps_ite | split | (intro _ _ _; dsimp only) | (with_reducible refine keeps_mk ?_ rfl rfl rfl) | (intro _ _ _))

theorem keeps_execBudgetCounterExhausted {s0 s : State} {a0} (h : Keeps s0 s) : KeepsOut s0 (execBudgetCounterExhausted a0 s) := by
  unfold execBudgetCounterExhausted
  try dsimp only
  repeat' (first | with_reducible assumption | with_reducible apply keeps_heldAtZero | with_reducible apply keeps_setBudget | with_reducible apply keeps_next | exact keeps_fault _ | with_reducible apply keeps_ite | split | (intro _ _ _; dsimp only) | (with_reducible refine keeps_mk ?_ rfl rfl rfl) | (intro _ _ _))

theorem keeps_setDram {s0 s : State} {a1 a2} (h : Keeps s0 s) : Keeps s0 (setDram s a1 a2) := by
  exact h.same rfl

theorem keeps_respBeat {s0 s : State} {a1 a2 a3 a4} (h : Keeps s0 s) : Keeps s0 (respBeat s a1 a2 a3 a4) := by
  exact h.same rfl

theorem keeps_pushCmd {s0 s : State} {a1 a2 a3 a4 a5} (h : Keeps s0 s) : Keeps s0 (pushCmd s a1 a2 a3 a4 a5) := by
  exact h.same rfl

theorem keeps_arrayCells {s0 s : State} {ch busy resp a off f} (hf : ∀ m, memWf m = true → memWf (f m) = true) (h : Keeps s0 s) :
    Keeps s0 (arrayCells s ch busy resp a off f) := by
  unfold arrayCells
  dsimp only
  split
  · exact keeps_setDram (keeps_bump h)
  · exact keeps_pushCmd (keeps_mem h (hf _))

theorem keeps_arrayBeat {s0 s : State} {a d r} (h : Keeps s0 s) : Keeps s0 (arrayBeat s a d r).1 := by
  unfold arrayBeat
  dsimp only
  split
  · exact keeps_ite (keeps_errorAt (keeps_arrayCells (fun _ hm => hm) h)) (keeps_arrayCells (fun _ hm => hm) h)
  · split
    · exact keeps_errorAt h
    · exact keeps_arrayCells (fun _ => memWf_putEnabled _ _ _) (keeps_setDram h)

theorem keeps_dramBeat {s0 s : State} {a1 a2 a3} (h : Keeps s0 s) : Keeps s0 (dramBeat s a1 a2 a3) := by
  unfold dramBeat
  try dsimp only
  repeat' (first | with_reducible assumption | with_reducible apply keeps_respBeat | with_reducible apply keeps_setDram | with_reducible apply keeps_arrayBeat | with_reducible apply keeps_ite | split | (intro _ _ _; dsimp only) | (with_reducible refine keeps_mk ?_ rfl rfl rfl) | (intro _ _ _))

theorem keeps_issueRefresh {s0 : State} {ch : Nat} (k : Nat) : ∀ {s : State}, Keeps s0 s → Keeps s0 (issueRefresh s ch k) := by
  induction k with
  | zero => intro s h; exact h
  | succ k ih =>
    intro s h
    unfold issueRefresh
    dsimp only
    exact ih (keeps_ite (keeps_bump (keeps_pushCmd (keeps_bumpBy (keeps_drawUpTo h)))) (keeps_pushCmd (keeps_bumpBy (keeps_drawUpTo h))))

theorem keeps_execDramRefresh {s0 s : State} {a} (h : Keeps s0 s) : KeepsOut s0 (execDramRefresh a s) := by
  unfold execDramRefresh
  apply keeps_next
  split
  · exact h
  · split
    · exact keeps_setDram h
    · exact keeps_issueRefresh _ h

theorem keeps_execDramSingleBitError {s0 s : State} {a0 a1 a2} (h : Keeps s0 s) : KeepsOut s0 (execDramSingleBitError a0 a1 a2 s) := by
  unfold execDramSingleBitError
  try dsimp only
  repeat' (first | with_reducible assumption | with_reducible apply keeps_bump | with_reducible apply keeps_setDram | with_reducible apply keeps_reportError | with_reducible apply keeps_next | exact keeps_fault _ | with_reducible apply keeps_ite | split | (intro _ _ _; dsimp only) | (with_reducible refine keeps_mk ?_ rfl rfl rfl) | (intro _ _ _))

theorem keeps_execDramUncorrectable {s0 s : State} {a0 a1 a2} (h : Keeps s0 s) : KeepsOut s0 (execDramUncorrectable a0 a1 a2 s) := by
  unfold execDramUncorrectable
  try dsimp only
  repeat' (first | with_reducible assumption | with_reducible apply keeps_bump | with_reducible apply keeps_setDram | with_reducible apply keeps_reportError | with_reducible apply keeps_raise | with_reducible apply keeps_next | exact keeps_fault _ | with_reducible apply keeps_ite | split | (intro _ _ _; dsimp only) | (with_reducible refine keeps_mk ?_ rfl rfl rfl) | (intro _ _ _))

theorem keeps_ownCmds {s0 s : State} {a1 a2} (h : Keeps s0 s) : Keeps s0 (ownCmds s a1 a2) := by
  unfold ownCmds
  try dsimp only
  repeat' (first | with_reducible assumption | with_reducible apply keeps_pushCmd | with_reducible apply keeps_foldl | with_reducible apply keeps_foldl_fst | with_reducible apply keeps_foldl_snd | with_reducible apply keeps_ite | split | (intro _ _ _; dsimp only) | (with_reducible refine keeps_mk ?_ rfl rfl rfl) | (intro _ _ _))

theorem keeps_execDramWriteBack {s0 s : State} {a0} (h : Keeps s0 s) : KeepsOut s0 (execDramWriteBack a0 s) := by
  unfold execDramWriteBack
  try dsimp only
  repeat' (first | with_reducible assumption | with_reducible apply keeps_setDram | with_reducible apply keeps_ownCmds | with_reducible apply keeps_spendBeats | with_reducible apply keeps_next | exact keeps_fault _ | with_reducible apply keeps_ite | split | (intro _ _ _; dsimp only) | (with_reducible refine keeps_mk ?_ rfl rfl rfl) | (intro _ _ _))

theorem keeps_failReplay {s0 s : State} {a b} (h : Keeps s0 s) : Keeps s0 (failReplay s a b) := by
  unfold failReplay
  apply keeps_raise
  apply keeps_bump
  apply keeps_bumpBy
  exact keeps_mk (keeps_setDram (keeps_mem h (memWf_undoCmds _ s.mem))) rfl rfl rfl

theorem keeps_drainWaiting {s0 : State} (l : List (Nat × Nat × Option Octets)) : ∀ {s : State}, Keeps s0 s → Keeps s0 (drainWaiting s l) := by
  induction l with
  | nil => intro s h; exact h
  | cons v r ih => intro s h; exact ih (keeps_dramBeat h)

theorem keeps_resumeDram {s0 s : State} {a} (h : Keeps s0 s) : Keeps s0 (resumeDram s a) :=
  keeps_drainWaiting _ (keeps_issueRefresh _ (keeps_setDram h))

theorem keeps_execCommandBusTestEnd {s0 s : State} {a0 a1} (h : Keeps s0 s) : KeepsOut s0 (execCommandBusTestEnd a0 a1 s) := by
  unfold execCommandBusTestEnd
  try dsimp only
  repeat' (first | with_reducible assumption | with_reducible apply keeps_endTest | with_reducible apply keeps_writeLog | with_reducible apply keeps_next | exact keeps_fault _ | with_reducible apply keeps_ite | split | (intro _ _ _; dsimp only) | (with_reducible refine keeps_mk ?_ rfl rfl rfl) | (intro _ _ _))

theorem keeps_saveRow {s0 s : State} {a1 a2} (h : Keeps s0 s) : Keeps s0 (saveRow s a1 a2) := by
  exact h.same rfl

theorem keeps_restoreRow {s0 s : State} {a b} (h : Keeps s0 s) : Keeps s0 (restoreRow s a b) :=
  keeps_setDram (keeps_mem h (fun hm => memWf_foldPut _ _ (tabWf_filter _ _ _ hm)))

theorem keeps_startRowTests {s0 s : State} (h : Keeps s0 s) : Keeps s0 (startRowTests s) := by
  unfold startRowTests
  try dsimp only
  repeat' (first | with_reducible assumption | with_reducible apply keeps_saveRow | with_reducible apply keeps_foldl | with_reducible apply keeps_foldl_fst | with_reducible apply keeps_foldl_snd | with_reducible apply keeps_ite | split | (intro _ _ _; dsimp only) | (with_reducible refine keeps_mk ?_ rfl rfl rfl) | (intro _ _ _))

theorem keeps_sageBeats {s0 s : State} (h : Keeps s0 s) : Keeps s0 (sageBeats s) := by
  unfold sageBeats
  try dsimp only
  repeat' (first | with_reducible assumption | with_reducible apply keeps_setDram | with_reducible apply keeps_ownCmds | with_reducible apply keeps_spendBeats | with_reducible apply keeps_foldl | with_reducible apply keeps_foldl_fst | with_reducible apply keeps_foldl_snd | with_reducible apply keeps_ite | split | (intro _ _ _; dsimp only) | (with_reducible refine keeps_mk ?_ rfl rfl rfl) | (intro _ _ _))

theorem keeps_execDramRowTestEnd {s0 s : State} {a0 a1} (h : Keeps s0 s) : KeepsOut s0 (execDramRowTestEnd a0 a1 s) := by
  unfold execDramRowTestEnd
  try dsimp only
  repeat' (first | with_reducible assumption | with_reducible apply keeps_endTest | with_reducible apply keeps_bump | with_reducible apply keeps_restoreRow | with_reducible apply keeps_writeLog | with_reducible apply keeps_next | exact keeps_fault _ | with_reducible apply keeps_ite | split | (intro _ _ _; dsimp only) | (with_reducible refine keeps_mk ?_ rfl rfl rfl) | (intro _ _ _))

theorem keeps_scrubFrame {s0 s : State} {a1} (h : Keeps s0 s) : Keeps s0 (scrubFrame s a1) := by
  unfold scrubFrame
  try dsimp only
  repeat' (first | with_reducible assumption | with_reducible apply keeps_setN | with_reducible apply keeps_ownCmds | with_reducible apply keeps_spendBeats | with_reducible apply keeps_foldl | with_reducible apply keeps_foldl_fst | with_reducible apply keeps_foldl_snd | with_reducible apply keeps_ite | split | (intro _ _ _; dsimp only) | (with_reducible refine keeps_mk ?_ rfl rfl rfl) | (intro _ _ _))

theorem keeps_loseDram {s0 s : State} (h : Keeps s0 s) : Keeps s0 (loseDram s) :=
  (keeps_mem h (tabWf_filter _ _ _)).same rfl

theorem keeps_startTraining {s0 s : State} {a1} (h : Keeps s0 s) : Keeps s0 (startTraining s a1) := by
  unfold startTraining
  try dsimp only
  repeat' (first | with_reducible assumption | with_reducible apply keeps_setN | with_reducible apply keeps_loseDram | with_reducible apply keeps_foldl | with_reducible apply keeps_foldl_fst | with_reducible apply keeps_foldl_snd | with_reducible apply keeps_ite | split | (intro _ _ _; dsimp only) | (with_reducible refine keeps_mk ?_ rfl rfl rfl) | (intro _ _ _))

theorem keeps_stepChannel {s0 s : State} {a0 a2} (h : Keeps s0 s) : Keeps s0 (stepChannel a0 s a2) := by
  unfold stepChannel
  try dsimp only
  repeat' (first | with_reducible assumption | with_reducible apply keeps_bump | with_reducible apply keeps_setDram | with_reducible apply keeps_ite | split | (intro _ _ _; dsimp only) | (with_reducible refine keeps_mk ?_ rfl rfl rfl) | (intro _ _ _))

theorem keeps_stepTraining {s0 s : State} {a1} (h : Keeps s0 s) : Keeps s0 (stepTraining s a1) := by
  unfold stepTraining
  try dsimp only
  repeat' (first | with_reducible assumption | with_reducible apply keeps_setDram | with_reducible apply keeps_stepChannel | with_reducible apply keeps_startTraining | with_reducible apply keeps_foldl | with_reducible apply keeps_foldl_fst | with_reducible apply keeps_foldl_snd | with_reducible apply keeps_ite | split | (intro _ _ _; dsimp only) | (with_reducible refine keeps_mk ?_ rfl rfl rfl) | (intro _ _ _))

theorem keeps_execDramTrainingStepEnd {s0 s : State} {a0} (h : Keeps s0 s) : KeepsOut s0 (execDramTrainingStepEnd a0 s) := by
  unfold execDramTrainingStepEnd
  try dsimp only
  repeat' (first | with_reducible assumption | with_reducible apply keeps_stepTraining | with_reducible apply keeps_next | exact keeps_fault _ | with_reducible apply keeps_ite | split | (intro _ _ _; dsimp only) | (with_reducible refine keeps_mk ?_ rfl rfl rfl) | (intro _ _ _))

theorem keeps_trainedChannel {s0 s : State} {a1 a2} (h : Keeps s0 s) : Keeps s0 (trainedChannel s a1 a2) := by
  unfold trainedChannel
  try dsimp only
  repeat' (first | with_reducible assumption | with_reducible apply keeps_setN | with_reducible apply keeps_raise | with_reducible apply keeps_ite | split | (intro _ _ _; dsimp only) | (with_reducible refine keeps_mk ?_ rfl rfl rfl) | (intro _ _ _))

theorem keeps_alertInTraining {s0 s : State} {a1} (h : Keeps s0 s) : Keeps s0 (alertInTraining s a1) := by
  unfold alertInTraining
  try dsimp only
  repeat' (first | with_reducible assumption | with_reducible apply keeps_setDram | with_reducible apply keeps_trainedChannel | with_reducible apply keeps_ite | split | (intro _ _ _; dsimp only) | (with_reducible refine keeps_mk ?_ rfl rfl rfl) | (intro _ _ _))

theorem keeps_execDramParityAlert {s0 s : State} {a0} (h : Keeps s0 s) : KeepsOut s0 (execDramParityAlert a0 s) := by
  unfold execDramParityAlert
  try dsimp only
  repeat' (first | with_reducible assumption | with_reducible apply keeps_alertInTraining | with_reducible apply keeps_bump | with_reducible apply keeps_setDram | with_reducible apply keeps_next | exact keeps_fault _ | with_reducible apply keeps_ite | split | (intro _ _ _; dsimp only) | (with_reducible refine keeps_mk ?_ rfl rfl rfl) | (intro _ _ _))

theorem keeps_changeSetpoint {s0 s : State} {a1} (h : Keeps s0 s) : Keeps s0 (changeSetpoint s a1) := by
  unfold changeSetpoint
  try dsimp only
  repeat' (first | with_reducible assumption | with_reducible apply keeps_setN | with_reducible apply keeps_startTraining | with_reducible apply keeps_loseDram | with_reducible apply keeps_foldl | with_reducible apply keeps_foldl_fst | with_reducible apply keeps_foldl_snd | with_reducible apply keeps_ite | split | (intro _ _ _; dsimp only) | (with_reducible refine keeps_mk ?_ rfl rfl rfl) | (intro _ _ _))

end Sys2Proof.Machine
end

