-- ==== Sys2Proof/Laws/KeepsRamps.lean ====
section
/-!
SUPPORT. Laws/KeepsRamps.lean: the operations of Machine/Ramps.lean keep the queue, time, the memories and the fuses (Laws/Keeps.lean).
-/
-- One declaration at a time and no linter: the package is compiled as one text under a memory limit.
set_option linter.all false
set_option Elab.async false
namespace Sys2Proof.Machine

theorem keeps_putRamp {s0 s : State} {a1 a2} (h : Keeps s0 s) : Keeps s0 (putRamp s a1 a2) := by
  exact h.same rfl

theorem keeps_startRamp {s0 s : State} {a1 a2 a3 a4} (h : Keeps s0 s) : Keeps s0 (startRamp s a1 a2 a3 a4) := by
  unfold startRamp
  try dsimp only
  repeat' (first | with_reducible assumption | with_reducible apply keeps_putRamp | with_reducible apply keeps_ite | split | (intro _ _ _; dsimp only) | (with_reducible refine keeps_mk ?_ rfl rfl rfl) | (intro _ _ _))

theorem keeps_stepRamp {s0 s : State} {a1} (h : Keeps s0 s) : Keeps s0 (stepRamp s a1).2 := by
  unfold stepRamp
  try dsimp only
  repeat' (first | with_reducible assumption | with_reducible apply keeps_putRamp | with_reducible apply keeps_ite | split | (intro _ _ _; dsimp only) | (with_reducible refine keeps_mk ?_ rfl rfl rfl) | (intro _ _ _))

theorem keeps_unsuspend {s0 s : State} {a1} (h : Keeps s0 s) : Keeps s0 (unsuspend s a1) := by
  unfold unsuspend
  try dsimp only
  repeat' (first | with_reducible assumption | with_reducible apply keeps_ite | split | (intro _ _ _; dsimp only) | (with_reducible refine keeps_mk ?_ rfl rfl rfl) | (intro _ _ _))

theorem keeps_clearMembers {s0 s : State} {a1} (h : Keeps s0 s) : Keeps s0 (clearMembers s a1) := by
  unfold clearMembers
  try dsimp only
  repeat' (first | with_reducible assumption | with_reducible apply keeps_setF | with_reducible apply keeps_foldl | with_reducible apply keeps_foldl_fst | with_reducible apply keeps_foldl_snd | with_reducible apply keeps_ite | split | (intro _ _ _; dsimp only) | (with_reducible refine keeps_mk ?_ rfl rfl rfl) | (intro _ _ _))

theorem keeps_clearLog {s0 s : State} (h : Keeps s0 s) : Keeps s0 (clearLog s) := by
  exact h.same rfl

theorem keeps_putLanded {s0 s : State} {a1 a2} (h : Keeps s0 s) : Keeps s0 (putLanded s a1 a2) := by
  unfold putLanded
  try dsimp only
  repeat' (first | with_reducible assumption | with_reducible apply keeps_clearLog | with_reducible apply keeps_clearMembers | with_reducible apply keeps_setF | with_reducible apply keeps_ite | split | (intro _ _ _; dsimp only) | (with_reducible refine keeps_mk ?_ rfl rfl rfl) | (intro _ _ _))

theorem keeps_addLanding {s0 s : State} {a1} (h : Keeps s0 s) : Keeps s0 (addLanding s a1) := by
  exact h.same rfl

theorem keeps_landLive {s0 s : State} {a1 a2} (h : Keeps s0 s) : Keeps s0 (landLive s a1 a2) := by
  unfold landLive
  try dsimp only
  repeat' (first | with_reducible assumption | with_reducible apply keeps_addLanding | with_reducible apply keeps_ite | split | (intro _ _ _; dsimp only) | (with_reducible refine keeps_mk ?_ rfl rfl rfl) | (intro _ _ _))

theorem keeps_dropDue {s0 s : State} {a1 a2 a3 a4} (h : Keeps s0 s) : Keeps s0 (dropDue s a1 a2 a3 a4) := by
  exact h.same rfl

end Sys2Proof.Machine
end

