-- ==== Sys2Proof/Laws/KeepsOutputs.lean ====
section
/-!
SUPPORT. Laws/KeepsOutputs.lean: the operations of Machine/Outputs.lean keep the queue, time, the memories and the fuses (Laws/Keeps.lean).
-/
-- One declaration at a time and no linter: the package is compiled as one text under a memory limit.
set_option linter.all false
set_option Elab.async false
namespace Sys2Proof.Machine

theorem keeps_rowSum {s0 : State} {b : Bool} {row f i : Nat} (l : List Nat) : ∀ {s : State} {a}, Keeps s0 s → Keeps s0 (rowSum b row f i l a s).2 := by
  induction l with
  | nil => intro s a h; exact h
  | cons v r ih => intro s a h; exact ih (keeps_stepRamp h)

theorem keeps_rowsSample {s0 s : State} {a0 a1 a2 a3 a5} (h : Keeps s0 s) : Keeps s0 (rowsSample a0 a1 a2 a3 s a5).1 := by
  unfold rowsSample
  try dsimp only
  repeat' (first | with_reducible assumption | with_reducible apply keeps_rowSum | with_reducible apply keeps_bump | with_reducible apply keeps_foldl | with_reducible apply keeps_foldl_fst | with_reducible apply keeps_foldl_snd | with_reducible apply keeps_ite | split | (intro _ _ _; dsimp only) | (with_reducible refine keeps_mk ?_ rfl rfl rfl) | (intro _ _ _))

theorem keeps_limStep {s0 s : State} {a1 a2 a3 a4 a5} (h : Keeps s0 s) : Keeps s0 (limStep s a1 a2 a3 a4 a5).1 := by
  unfold limStep
  try dsimp only
  repeat' (first | with_reducible assumption | with_reducible apply keeps_bump | with_reducible apply keeps_setN | with_reducible apply keeps_ite | split | (intro _ _ _; dsimp only) | (with_reducible refine keeps_mk ?_ rfl rfl rfl) | (intro _ _ _))

theorem keeps_putOut {s0 s : State} {a1 a2} (h : Keeps s0 s) : Keeps s0 (putOut s a1 a2) := by
  exact h.same rfl

theorem keeps_outFront {s0 s : State} {a1 a2 a3 a4 a5} (h : Keeps s0 s) : Keeps s0 (outFront s a1 a2 a3 a4 a5).1 := by
  unfold outFront
  try dsimp only
  repeat' (first | with_reducible assumption | with_reducible apply keeps_stepRamp | with_reducible apply keeps_ite | split | (intro _ _ _; dsimp only) | (with_reducible refine keeps_mk ?_ rfl rfl rfl) | (intro _ _ _))

theorem keeps_outStep {s0 s : State} {a1 a2 a3 a4 a5} (h : Keeps s0 s) : Keeps s0 (outStep s a1 a2 a3 a4 a5).1 := by
  unfold outStep
  try dsimp only
  repeat' (first | with_reducible assumption | with_reducible apply keeps_bump | with_reducible apply keeps_limStep | with_reducible apply keeps_putOut | with_reducible apply keeps_outFront | with_reducible apply keeps_ite | split | (intro _ _ _; dsimp only) | (with_reducible refine keeps_mk ?_ rfl rfl rfl) | (intro _ _ _))

theorem keeps_closeOut {s0 s : State} {a1} (h : Keeps s0 s) : Keeps s0 (closeOut s a1) := by
  unfold closeOut
  try dsimp only
  repeat' (first | with_reducible assumption | with_reducible apply keeps_bump | with_reducible apply keeps_putOut | with_reducible apply keeps_ite | split | (intro _ _ _; dsimp only) | (with_reducible refine keeps_mk ?_ rfl rfl rfl) | (intro _ _ _))

end Sys2Proof.Machine
end

