-- ==== Sys2Proof/Laws/KeepsPaths.lean ====
section
/-!
SUPPORT. Laws/KeepsPaths.lean: the operations of Machine/Paths.lean keep the queue, time, the memories and the fuses (Laws/Keeps.lean).
-/
-- One declaration at a time and no linter: the package is compiled as one text under a memory limit.
set_option linter.all false
set_option Elab.async false
namespace Sys2Proof.Machine

theorem keeps_putUnit {s0 s : State} {a1 a2} (h : Keeps s0 s) : Keeps s0 (putUnit s a1 a2) := by
  exact h.same rfl

theorem keeps_coreChange {s0 s : State} {a1 a2 a3} (h : Keeps s0 s) : Keeps s0 (coreChange s a1 a2 a3) := by
  unfold coreChange
  try dsimp only
  repeat' (first | with_reducible assumption | with_reducible apply keeps_putUnit | with_reducible apply keeps_ite | split | (intro _ _ _; dsimp only) | (with_reducible refine keeps_mk ?_ rfl rfl rfl) | (intro _ _ _))

theorem keeps_putCoefWords {s0 : State} {n : Nat} (l : List Nat) : ∀ {s : State} {w : Nat}, Keeps s0 s → Keeps s0 (putCoefWords s n w l) := by
  induction l with
  | nil => intro s w h; exact h
  | cons v r ih =>
    intro s w h
    unfold putCoefWords
    apply ih
    split
    · split
      · exact keeps_putBytes h
      · exact h
    · exact h

theorem keeps_loadCoefAt {s0 s : State} {a1 a2} (h : Keeps s0 s) : Keeps s0 (loadCoefAt s a1 a2) := by
  unfold loadCoefAt
  try dsimp only
  repeat' (first | with_reducible assumption | with_reducible apply keeps_putCoefWords | with_reducible apply keeps_ite | split | (intro _ _ _; dsimp only) | (with_reducible refine keeps_mk ?_ rfl rfl rfl) | (intro _ _ _))

theorem keeps_loadCoef {s0 s : State} {a b} (h : Keeps s0 s) : Keeps s0 (loadCoef s a b) := keeps_putCoefWords _ h

theorem keeps_loadDue {s0 s : State} {a1 a2} (h : Keeps s0 s) : Keeps s0 (loadDue s a1 a2).1 := by
  unfold loadDue
  try dsimp only
  repeat' (first | with_reducible assumption | with_reducible apply keeps_loadCoefAt | with_reducible apply keeps_ite | split | (intro _ _ _; dsimp only) | (with_reducible refine keeps_mk ?_ rfl rfl rfl) | (intro _ _ _))

theorem keeps_loadContext {s0 s : State} {a1} (h : Keeps s0 s) : Keeps s0 (loadContext s a1) := by
  unfold loadContext
  try dsimp only
  repeat' (first | with_reducible assumption | with_reducible apply keeps_putLaneWords | with_reducible apply keeps_ite | split | (intro _ _ _; dsimp only) | (with_reducible refine keeps_mk ?_ rfl rfl rfl) | (intro _ _ _))

theorem keeps_startPlace {s0 s : State} {a1} (h : Keeps s0 s) : Keeps s0 (startPlace s a1) := by
  unfold startPlace
  try dsimp only
  repeat' (first | with_reducible assumption | with_reducible apply keeps_putUnit | with_reducible apply keeps_loadContext | with_reducible apply keeps_setN | with_reducible apply keeps_loadCoef | with_reducible apply keeps_ite | split | (intro _ _ _; dsimp only) | (with_reducible refine keeps_mk ?_ rfl rfl rfl) | (intro _ _ _))

theorem keeps_runPath {s0 s : State} {a1 a2 a3 a4 a5} (h : Keeps s0 s) : Keeps s0 (runPath s a1 a2 a3 a4 a5).1 := by
  unfold runPath
  try dsimp only
  repeat' (first | with_reducible assumption | with_reducible apply keeps_runSlotPath | with_reducible apply keeps_putLaneWord | with_reducible apply keeps_ite | split | (intro _ _ _; dsimp only) | (with_reducible refine keeps_mk ?_ rfl rfl rfl) | (intro _ _ _))

theorem keeps_runCustomer {s0 s : State} {a1 a2 a3 a4 a5} (h : Keeps s0 s) : Keeps s0 (runCustomer s a1 a2 a3 a4 a5) := by
  unfold runCustomer
  try dsimp only
  repeat' (first | with_reducible assumption | with_reducible apply keeps_putUnit | with_reducible apply keeps_putLaneWords | with_reducible apply keeps_setN | with_reducible apply keeps_setLane | with_reducible apply keeps_runPath | with_reducible apply keeps_startProgram | with_reducible apply keeps_ite | split | (intro _ _ _; dsimp only) | (with_reducible refine keeps_mk ?_ rfl rfl rfl) | (intro _ _ _))

end Sys2Proof.Machine
end

