-- ==== Sys2Proof/Laws/KeepsSchedule.lean ====
section
/-!
SUPPORT. Laws/KeepsSchedule.lean: the operations of Machine/Schedule.lean keep the queue, time, the memories and the fuses (Laws/Keeps.lean).
-/
-- One declaration at a time and no linter: the package is compiled as one text under a memory limit.
set_option linter.all false
set_option Elab.async false
namespace Sys2Proof.Machine

theorem keeps_scheduleAt {s0 s : State} {a1 a2} (h : Keeps s0 s) : Keeps s0 (scheduleAt s a1 a2) := by
  exact h.same rfl

theorem keeps_stepCommit {s0 s : State} {a1} (h : Keeps s0 s) : Keeps s0 (stepCommit s a1) := by
  unfold stepCommit
  try dsimp only
  repeat' (first | with_reducible assumption | with_reducible apply keeps_bump | with_reducible apply keeps_raise | with_reducible apply keeps_scheduleAt | with_reducible apply keeps_foldl | with_reducible apply keeps_foldl_fst | with_reducible apply keeps_foldl_snd | with_reducible apply keeps_ite | split | (intro _ _ _; dsimp only) | (with_reducible refine keeps_mk ?_ rfl rfl rfl) | (intro _ _ _))

end Sys2Proof.Machine
end

