-- ==== Sys2Proof/Laws/KeepsPtp.lean ====
section
/-!
SUPPORT. Laws/KeepsPtp.lean: the operations of Machine/Ptp.lean keep the queue, time, the memories and the fuses (Laws/Keeps.lean).
-/
-- One declaration at a time and no linter: the package is compiled as one text under a memory limit.
set_option linter.all false
set_option Elab.async false
namespace Sys2Proof.Machine

theorem keeps_setNet {s0 s : State} {a1 a2} (h : Keeps s0 s) : Keeps s0 (setNet s a1 a2) := by
  exact h.same rfl

theorem keeps_sendFrames {s0 s : State} {a1 a2} (h : Keeps s0 s) : Keeps s0 (sendFrames s a1 a2) := by
  unfold sendFrames
  try dsimp only
  repeat' (first | with_reducible assumption | with_reducible apply keeps_setNet | with_reducible apply keeps_bumpBy | with_reducible apply keeps_ite | split | (intro _ _ _; dsimp only) | (with_reducible refine keeps_mk ?_ rfl rfl rfl) | (intro _ _ _))

theorem keeps_quietPorts {s0 s : State} (h : Keeps s0 s) : Keeps s0 (quietPorts s) := by
  unfold quietPorts
  try dsimp only
  repeat' (first | with_reducible assumption | with_reducible apply keeps_setNet | with_reducible apply keeps_foldl | with_reducible apply keeps_foldl_fst | with_reducible apply keeps_foldl_snd | with_reducible apply keeps_ite | split | (intro _ _ _; dsimp only) | (with_reducible refine keeps_mk ?_ rfl rfl rfl) | (intro _ _ _))

theorem keeps_heard {s0 s : State} {a1} (h : Keeps s0 s) : Keeps s0 (heard s a1) := by
  unfold heard
  try dsimp only
  repeat' (first | with_reducible assumption | with_reducible apply keeps_bump | with_reducible apply keeps_ite | split | (intro _ _ _; dsimp only) | (with_reducible refine keeps_mk ?_ rfl rfl rfl) | (intro _ _ _))

theorem keeps_unmatched {s0 s : State} {a1} (h : Keeps s0 s) : Keeps s0 (unmatched s a1) := by
  unfold unmatched
  try dsimp only
  repeat' (first | with_reducible assumption | with_reducible apply keeps_bump | with_reducible apply keeps_ite | split | (intro _ _ _; dsimp only) | (with_reducible refine keeps_mk ?_ rfl rfl rfl) | (intro _ _ _))

theorem keeps_shiftTime {s0 s : State} {a1 a2} (h : Keeps s0 s) : Keeps s0 (shiftTime s a1 a2) := by
  exact h.same rfl

theorem keeps_rebase {s0 s : State} {a1} (h : Keeps s0 s) : Keeps s0 (rebase s a1) := by
  exact h.same rfl

theorem keeps_setServo {s0 s : State} {a1 a2} (h : Keeps s0 s) : Keeps s0 (setServo s a1 a2) := by
  exact h.same rfl

theorem keeps_unlocked {s0 s : State} {a1 a2 a3} (h : Keeps s0 s) : Keeps s0 (unlocked s a1 a2 a3) := by
  unfold unlocked
  try dsimp only
  repeat' (first | with_reducible assumption | with_reducible apply keeps_raise | with_reducible apply keeps_loseRef | with_reducible apply keeps_ite | split | (intro _ _ _; dsimp only) | (with_reducible refine keeps_mk ?_ rfl rfl rfl) | (intro _ _ _))

theorem keeps_enterLocked {s0 s : State} {a1} (h : Keeps s0 s) : Keeps s0 (enterLocked s a1) := by
  unfold enterLocked
  try dsimp only
  repeat' (first | with_reducible assumption | with_reducible apply keeps_retryStarts | with_reducible apply keeps_setTb | with_reducible apply keeps_setServo | with_reducible apply keeps_moveUnit | with_reducible apply keeps_raise | with_reducible apply keeps_ite | split | (intro _ _ _; dsimp only) | (with_reducible refine keeps_mk ?_ rfl rfl rfl) | (intro _ _ _))

theorem keeps_backInLock {s0 s : State} {a1 a2} (h : Keeps s0 s) : Keeps s0 (backInLock s a1 a2) := by
  unfold backInLock
  try dsimp only
  repeat' (first | with_reducible assumption | with_reducible apply keeps_retryStarts | with_reducible apply keeps_setTb | with_reducible apply keeps_setServo | with_reducible apply keeps_raise | with_reducible apply keeps_ite | split | (intro _ _ _; dsimp only) | (with_reducible refine keeps_mk ?_ rfl rfl rfl) | (intro _ _ _))

theorem keeps_steerServo {s0 s : State} {a1 a2} (h : Keeps s0 s) : Keeps s0 (steerServo s a1 a2) := by
  unfold steerServo
  try dsimp only
  repeat' (first | with_reducible assumption | with_reducible apply keeps_setN | with_reducible apply keeps_setTb | with_reducible apply keeps_rebase | with_reducible apply keeps_ite | split | (intro _ _ _; dsimp only) | (with_reducible refine keeps_mk ?_ rfl rfl rfl) | (intro _ _ _))

theorem keeps_leaveLock {s0 s : State} {a1} (h : Keeps s0 s) : Keeps s0 (leaveLock s a1) := by
  unfold leaveLock
  try dsimp only
  repeat' (first | with_reducible assumption | with_reducible apply keeps_unlocked | with_reducible apply keeps_setTb | with_reducible apply keeps_setServo | with_reducible apply keeps_ite | split | (intro _ _ _; dsimp only) | (with_reducible refine keeps_mk ?_ rfl rfl rfl) | (intro _ _ _))

theorem keeps_feedServo {s0 s : State} {a1 a2} (h : Keeps s0 s) : Keeps s0 (feedServo s a1 a2) := by
  unfold feedServo
  try dsimp only
  repeat' (first | with_reducible assumption | with_reducible apply keeps_enterLocked | with_reducible apply keeps_setTb | with_reducible apply keeps_leaveLock | with_reducible apply keeps_setServo | with_reducible apply keeps_steerServo | with_reducible apply keeps_ite | split | (intro _ _ _; dsimp only) | (with_reducible refine keeps_mk ?_ rfl rfl rfl) | (intro _ _ _))

theorem keeps_refuseStep {s0 s : State} {a1 a2} (h : Keeps s0 s) : Keeps s0 (refuseStep s a1 a2) := by
  unfold refuseStep
  try dsimp only
  repeat' (first | with_reducible assumption | with_reducible apply keeps_bump | with_reducible apply keeps_setN | with_reducible apply keeps_setTb | with_reducible apply keeps_setServo | with_reducible apply keeps_raise | with_reducible apply keeps_ite | split | (intro _ _ _; dsimp only) | (with_reducible refine keeps_mk ?_ rfl rfl rfl) | (intro _ _ _))

theorem keeps_heldOffset {s0 s : State} {a1 a2} (h : Keeps s0 s) : Keeps s0 (heldOffset s a1 a2) := by
  unfold heldOffset
  try dsimp only
  repeat' (first | with_reducible assumption | with_reducible apply keeps_bump | with_reducible apply keeps_backInLock | with_reducible apply keeps_retryStarts | with_reducible apply keeps_setN | with_reducible apply keeps_setTb | with_reducible apply keeps_setServo | with_reducible apply keeps_steerServo | with_reducible apply keeps_raise | with_reducible apply keeps_foldl | with_reducible apply keeps_foldl_fst | with_reducible apply keeps_foldl_snd | with_reducible apply keeps_ite | split | (intro _ _ _; dsimp only) | (with_reducible refine keeps_mk ?_ rfl rfl rfl) | (intro _ _ _))

theorem keeps_takeOffset {s0 s : State} {a1 a2} (h : Keeps s0 s) : Keeps s0 (takeOffset s a1 a2) := by
  unfold takeOffset
  try dsimp only
  repeat' (first | with_reducible assumption | with_reducible apply keeps_bump | with_reducible apply keeps_feedServo | with_reducible apply keeps_shiftTime | with_reducible apply keeps_heldOffset | with_reducible apply keeps_setN | with_reducible apply keeps_setTb | with_reducible apply keeps_leaveLock | with_reducible apply keeps_rebase | with_reducible apply keeps_setServo | with_reducible apply keeps_refuseStep | with_reducible apply keeps_ite | split | (intro _ _ _; dsimp only) | (with_reducible refine keeps_mk ?_ rfl rfl rfl) | (intro _ _ _))

theorem keeps_ptpHeard {s0 s : State} {a1 a2} (h : Keeps s0 s) : Keeps s0 (ptpHeard s a1 a2) := by
  unfold ptpHeard
  try dsimp only
  repeat' (first | with_reducible assumption | with_reducible apply keeps_unmatched | with_reducible apply keeps_heard | with_reducible apply keeps_ite | split | (intro _ _ _; dsimp only) | (with_reducible refine keeps_mk ?_ rfl rfl rfl) | (intro _ _ _))

theorem keeps_syncDone {s0 s : State} {a1 a2 a3} (h : Keeps s0 s) : Keeps s0 (syncDone s a1 a2 a3) := by
  unfold syncDone
  try dsimp only
  repeat' (first | with_reducible assumption | with_reducible apply keeps_setTb | with_reducible apply keeps_takeOffset | with_reducible apply keeps_ite | split | (intro _ _ _; dsimp only) | (with_reducible refine keeps_mk ?_ rfl rfl rfl) | (intro _ _ _))

theorem keeps_execPtpSyncReceived {s0 s : State} {a0 a1 a2} (h : Keeps s0 s) : KeepsOut s0 (execPtpSyncReceived a0 a1 a2 s) := by
  unfold execPtpSyncReceived
  try dsimp only
  repeat' (first | with_reducible assumption | with_reducible apply keeps_syncDone | with_reducible apply keeps_atCycle | with_reducible apply keeps_ptpHeard | with_reducible apply keeps_setTb | with_reducible apply keeps_next | exact keeps_fault _ | with_reducible apply keeps_foldl | with_reducible apply keeps_foldl_fst | with_reducible apply keeps_foldl_snd | with_reducible apply keeps_ite | split | (intro _ _ _; dsimp only) | (with_reducible refine keeps_mk ?_ rfl rfl rfl) | (intro _ _ _))

theorem keeps_execPtpFollowUpReceived {s0 s : State} {a0 a1} (h : Keeps s0 s) : KeepsOut s0 (execPtpFollowUpReceived a0 a1 s) := by
  unfold execPtpFollowUpReceived
  try dsimp only
  repeat' (first | with_reducible assumption | with_reducible apply keeps_syncDone | with_reducible apply keeps_ptpHeard | with_reducible apply keeps_setTb | with_reducible apply keeps_next | exact keeps_fault _ | with_reducible apply keeps_foldl | with_reducible apply keeps_foldl_fst | with_reducible apply keeps_foldl_snd | with_reducible apply keeps_ite | split | (intro _ _ _; dsimp only) | (with_reducible refine keeps_mk ?_ rfl rfl rfl) | (intro _ _ _))

theorem keeps_execDelayReqSend {s0 s : State} {a0 a1} (h : Keeps s0 s) : KeepsOut s0 (execDelayReqSend a0 a1 s) := by
  unfold execDelayReqSend
  try dsimp only
  repeat' (first | with_reducible assumption | with_reducible apply keeps_atCycle | with_reducible apply keeps_sendFrames | with_reducible apply keeps_setTb | with_reducible apply keeps_quietPorts | with_reducible apply keeps_next | exact keeps_fault _ | with_reducible apply keeps_foldl | with_reducible apply keeps_foldl_fst | with_reducible apply keeps_foldl_snd | with_reducible apply keeps_ite | split | (intro _ _ _; dsimp only) | (with_reducible refine keeps_mk ?_ rfl rfl rfl) | (intro _ _ _))

theorem keeps_takeDelay {s0 s : State} {a1 a2} (h : Keeps s0 s) : Keeps s0 (takeDelay s a1 a2) := by
  unfold takeDelay
  try dsimp only
  repeat' (first | with_reducible assumption | with_reducible apply keeps_bump | with_reducible apply keeps_setN | with_reducible apply keeps_setTb | with_reducible apply keeps_ite | split | (intro _ _ _; dsimp only) | (with_reducible refine keeps_mk ?_ rfl rfl rfl) | (intro _ _ _))

theorem keeps_execPtpDelayRespReceived {s0 s : State} {a0 a1} (h : Keeps s0 s) : KeepsOut s0 (execPtpDelayRespReceived a0 a1 s) := by
  unfold execPtpDelayRespReceived
  try dsimp only
  repeat' (first | with_reducible assumption | with_reducible apply keeps_atCycle | with_reducible apply keeps_ptpHeard | with_reducible apply keeps_setTb | with_reducible apply keeps_takeDelay | with_reducible apply keeps_next | exact keeps_fault _ | with_reducible apply keeps_foldl | with_reducible apply keeps_foldl_fst | with_reducible apply keeps_foldl_snd | with_reducible apply keeps_ite | split | (intro _ _ _; dsimp only) | (with_reducible refine keeps_mk ?_ rfl rfl rfl) | (intro _ _ _))

theorem keeps_followBest {s0 s : State} {a1} (h : Keeps s0 s) : Keeps s0 (followBest s a1) := by
  unfold followBest
  try dsimp only
  repeat' (first | with_reducible assumption | with_reducible apply keeps_bump | with_reducible apply keeps_setN | with_reducible apply keeps_setTb | with_reducible apply keeps_raise | with_reducible apply keeps_ite | split | (intro _ _ _; dsimp only) | (with_reducible refine keeps_mk ?_ rfl rfl rfl) | (intro _ _ _))

theorem keeps_execPtpAnnounceReceived {s0 s : State} {a b c} (h : Keeps s0 s) : KeepsOut s0 (execPtpAnnounceReceived a b c s) := by
  unfold execPtpAnnounceReceived
  dsimp only
  apply keeps_next
  apply keeps_foldl
  · intro t k ht
    split
    · exact keeps_followBest (keeps_setTb ht)
    · exact ht
  · exact keeps_ptpHeard (keeps_atCycle h)

theorem keeps_loseMaster {s0 s : State} {a1} (h : Keeps s0 s) : Keeps s0 (loseMaster s a1) := by
  unfold loseMaster
  try dsimp only
  repeat' (first | with_reducible assumption | with_reducible apply keeps_bump | with_reducible apply keeps_unlocked | with_reducible apply keeps_setN | with_reducible apply keeps_setTb | with_reducible apply keeps_setServo | with_reducible apply keeps_followBest | with_reducible apply keeps_ite | split | (intro _ _ _; dsimp only) | (with_reducible refine keeps_mk ?_ rfl rfl rfl) | (intro _ _ _))

theorem keeps_execPtpMasterLost {s0 s : State} {a0} (h : Keeps s0 s) : KeepsOut s0 (execPtpMasterLost a0 s) := by
  unfold execPtpMasterLost
  try dsimp only
  repeat' (first | with_reducible assumption | with_reducible apply keeps_loseMaster | with_reducible apply keeps_next | exact keeps_fault _ | with_reducible apply keeps_ite | split | (intro _ _ _; dsimp only) | (with_reducible refine keeps_mk ?_ rfl rfl rfl) | (intro _ _ _))

theorem keeps_execHoldLimitExpired {s0 s : State} {a0} (h : Keeps s0 s) : KeepsOut s0 (execHoldLimitExpired a0 s) := by
  unfold execHoldLimitExpired
  try dsimp only
  repeat' (first | with_reducible assumption | with_reducible apply keeps_setTb | with_reducible apply keeps_setServo | with_reducible apply keeps_raise | with_reducible apply keeps_loseRef | with_reducible apply keeps_next | exact keeps_fault _ | with_reducible apply keeps_ite | split | (intro _ _ _; dsimp only) | (with_reducible refine keeps_mk ?_ rfl rfl rfl) | (intro _ _ _))

theorem keeps_meetStep {s0 s : State} {a1 a2} (h : Keeps s0 s) : Keeps s0 (meetStep s a1 a2) := by
  exact h.same rfl

theorem keeps_acceptStep {s0 s : State} {a1} (h : Keeps s0 s) : Keeps s0 (acceptStep s a1) := by
  unfold acceptStep
  try dsimp only
  repeat' (first | with_reducible assumption | with_reducible apply keeps_meetStep | with_reducible apply keeps_shiftTime | with_reducible apply keeps_stepCommit | with_reducible apply keeps_backInLock | with_reducible apply keeps_rebase | with_reducible apply keeps_raise | with_reducible apply keeps_foldl | with_reducible apply keeps_foldl_fst | with_reducible apply keeps_foldl_snd | with_reducible apply keeps_ite | split | (intro _ _ _; dsimp only) | (with_reducible refine keeps_mk ?_ rfl rfl rfl) | (intro _ _ _))

theorem keeps_rejectStep {s0 s : State} {a1} (h : Keeps s0 s) : Keeps s0 (rejectStep s a1) := by
  unfold rejectStep
  try dsimp only
  repeat' (first | with_reducible assumption | with_reducible apply keeps_setTb | with_reducible apply keeps_setServo | with_reducible apply keeps_raise | with_reducible apply keeps_ite | split | (intro _ _ _; dsimp only) | (with_reducible refine keeps_mk ?_ rfl rfl rfl) | (intro _ _ _))

theorem keeps_startTb {s0 s : State} {a1} (h : Keeps s0 s) : Keeps s0 (startTb s a1) :=
  keeps_foldl (fun _ _ ht => keeps_setN ht) (keeps_setServo (keeps_setTb (keeps_rebase h)))

theorem keeps_stopTb {s0 s : State} {a1} (h : Keeps s0 s) : Keeps s0 (stopTb s a1) := by
  unfold stopTb
  try dsimp only
  repeat' (first | with_reducible assumption | with_reducible apply keeps_unlocked | with_reducible apply keeps_setN | with_reducible apply keeps_setTb | with_reducible apply keeps_setServo | with_reducible apply keeps_ite | split | (intro _ _ _; dsimp only) | (with_reducible refine keeps_mk ?_ rfl rfl rfl) | (intro _ _ _))

end Sys2Proof.Machine
end

