-- ==== Sys2Proof/Laws/KeepsStreams.lean ====
section
/-!
SUPPORT. Laws/KeepsStreams.lean: the operations of Machine/Streams.lean keep the queue, time, the memories and the fuses (Laws/Keeps.lean).
-/
-- One declaration at a time and no linter: the package is compiled as one text under a memory limit.
set_option linter.all false
set_option Elab.async false
namespace Sys2Proof.Machine

theorem keeps_setCtx {s0 s : State} {a1 a2} (h : Keeps s0 s) : Keeps s0 (setCtx s a1 a2) := by
  exact h.same rfl

theorem keeps_tickMedia {s0 s : State} {a1} (h : Keeps s0 s) : Keeps s0 (tickMedia s a1) := by
  unfold tickMedia
  try dsimp only
  repeat' (first | with_reducible assumption | with_reducible apply keeps_bump | with_reducible apply keeps_setCtx | with_reducible apply keeps_ite | split | (intro _ _ _; dsimp only) | (with_reducible refine keeps_mk ?_ rfl rfl rfl) | (intro _ _ _))

theorem keeps_usePacket {s0 s : State} {a1 a2 a3 a4} (h : Keeps s0 s) : Keeps s0 (usePacket s a1 a2 a3 a4) := by
  unfold usePacket
  try dsimp only
  repeat' (first | with_reducible assumption | with_reducible apply keeps_bump | with_reducible apply keeps_setCtx | with_reducible apply keeps_ite | split | (intro _ _ _; dsimp only) | (with_reducible refine keeps_mk ?_ rfl rfl rfl) | (intro _ _ _))

theorem keeps_receivePacket {s0 s : State} {a1 a2 a3 a4} (h : Keeps s0 s) : Keeps s0 (receivePacket s a1 a2 a3 a4) := by
  unfold receivePacket
  try dsimp only
  repeat' (first | with_reducible assumption | with_reducible apply keeps_bump | with_reducible apply keeps_setN | with_reducible apply keeps_raise | with_reducible apply keeps_setCtx | with_reducible apply keeps_usePacket | with_reducible apply keeps_ite | split | (intro _ _ _; dsimp only) | (with_reducible refine keeps_mk ?_ rfl rfl rfl) | (intro _ _ _))

theorem keeps_execRtpPacketReceived {s0 s : State} {a0 a1 a2} (h : Keeps s0 s) : KeepsOut s0 (execRtpPacketReceived a0 a1 a2 s) := by
  unfold execRtpPacketReceived
  try dsimp only
  repeat' (first | with_reducible assumption | with_reducible apply keeps_atCycle | with_reducible apply keeps_bump | with_reducible apply keeps_receivePacket | with_reducible apply keeps_next | exact keeps_fault _ | with_reducible apply keeps_foldl | with_reducible apply keeps_foldl_fst | with_reducible apply keeps_foldl_snd | with_reducible apply keeps_ite | split | (intro _ _ _; dsimp only) | (with_reducible refine keeps_mk ?_ rfl rfl rfl) | (intro _ _ _))

theorem keeps_execLegLost {s0 s : State} {a0 a1} (h : Keeps s0 s) : KeepsOut s0 (execLegLost a0 a1 s) := by
  unfold execLegLost
  try dsimp only
  repeat' (first | with_reducible assumption | with_reducible apply keeps_raise | with_reducible apply keeps_setCtx | with_reducible apply keeps_next | exact keeps_fault _ | with_reducible apply keeps_ite | split | (intro _ _ _; dsimp only) | (with_reducible refine keeps_mk ?_ rfl rfl rfl) | (intro _ _ _))

theorem keeps_execRateFitUpdate {s0 s : State} {a0 a1} (h : Keeps s0 s) : KeepsOut s0 (execRateFitUpdate a0 a1 s) := by
  unfold execRateFitUpdate
  try dsimp only
  repeat' (first | with_reducible assumption | with_reducible apply keeps_setN | with_reducible apply keeps_raise | with_reducible apply keeps_setCtx | with_reducible apply keeps_next | exact keeps_fault _ | with_reducible apply keeps_ite | split | (intro _ _ _; dsimp only) | (with_reducible refine keeps_mk ?_ rfl rfl rfl) | (intro _ _ _))

theorem keeps_rxSample {s0 s : State} {a1 a2 a3} (h : Keeps s0 s) : Keeps s0 (rxSample s a1 a2 a3).1 := by
  unfold rxSample
  try dsimp only
  repeat' (first | with_reducible assumption | with_reducible apply keeps_naAdvance | with_reducible apply keeps_naSample | with_reducible apply keeps_raise | with_reducible apply keeps_setCtx | with_reducible apply keeps_foldl | with_reducible apply keeps_foldl_fst | with_reducible apply keeps_foldl_snd | with_reducible apply keeps_ite | split | (intro _ _ _; dsimp only) | (with_reducible refine keeps_mk ?_ rfl rfl rfl) | (intro _ _ _))

theorem keeps_ingestCtx {s0 s : State} {a1 a2} (h : Keeps s0 s) : Keeps s0 (ingestCtx s a1 a2) := by
  unfold ingestCtx
  try dsimp only
  repeat' (first | with_reducible assumption | with_reducible apply keeps_bump | with_reducible apply keeps_rxSample | with_reducible apply keeps_raise | with_reducible apply keeps_putSig | with_reducible apply keeps_setCtx | with_reducible apply keeps_foldl | with_reducible apply keeps_foldl_fst | with_reducible apply keeps_foldl_snd | with_reducible apply keeps_ite | split | (intro _ _ _; dsimp only) | (with_reducible refine keeps_mk ?_ rfl rfl rfl) | (intro _ _ _))

theorem keeps_retirePacket {s0 s : State} {a1 a2} (h : Keeps s0 s) : Keeps s0 (retirePacket s a1 a2) := by
  unfold retirePacket
  try dsimp only
  repeat' (first | with_reducible assumption | with_reducible apply keeps_bump | with_reducible apply keeps_bumpBy | with_reducible apply keeps_setCtx | with_reducible apply keeps_ite | split | (intro _ _ _; dsimp only) | (with_reducible refine keeps_mk ?_ rfl rfl rfl) | (intro _ _ _))

theorem keeps_retirePackets {s0 s : State} {a1} (h : Keeps s0 s) : Keeps s0 (retirePackets s a1) := by
  unfold retirePackets
  try dsimp only
  repeat' (first | with_reducible assumption | with_reducible apply keeps_retirePacket | with_reducible apply keeps_setCtx | with_reducible apply keeps_foldl | with_reducible apply keeps_foldl_fst | with_reducible apply keeps_foldl_snd | with_reducible apply keeps_ite | split | (intro _ _ _; dsimp only) | (with_reducible refine keeps_mk ?_ rfl rfl rfl) | (intro _ _ _))

theorem keeps_sendMedia {s0 s : State} {a1 a2 a3 a4} (h : Keeps s0 s) : Keeps s0 (sendMedia s a1 a2 a3 a4) := by
  unfold sendMedia
  try dsimp only
  repeat' (first | with_reducible assumption | with_reducible apply keeps_bump | with_reducible apply keeps_setNet | with_reducible apply keeps_sendFrames | with_reducible apply keeps_ite | split | (intro _ _ _; dsimp only) | (with_reducible refine keeps_mk ?_ rfl rfl rfl) | (intro _ _ _))

theorem keeps_clearMedia {s0 s : State} {a1} (h : Keeps s0 s) : Keeps s0 (clearMedia s a1) := by
  unfold clearMedia
  try dsimp only
  repeat' (first | with_reducible assumption | with_reducible apply keeps_setNet | with_reducible apply keeps_foldl | with_reducible apply keeps_foldl_fst | with_reducible apply keeps_foldl_snd | with_reducible apply keeps_ite | split | (intro _ _ _; dsimp only) | (with_reducible refine keeps_mk ?_ rfl rfl rfl) | (intro _ _ _))

theorem keeps_sendPacket {s0 s : State} {a1} (h : Keeps s0 s) : Keeps s0 (sendPacket s a1) := by
  unfold sendPacket
  try dsimp only
  repeat' (first | with_reducible assumption | with_reducible apply keeps_sendMedia | with_reducible apply keeps_bump | with_reducible apply keeps_setN | with_reducible apply keeps_setCtx | with_reducible apply keeps_ite | split | (intro _ _ _; dsimp only) | (with_reducible refine keeps_mk ?_ rfl rfl rfl) | (intro _ _ _))

theorem keeps_closeCtx {s0 s : State} {a1} (h : Keeps s0 s) : Keeps s0 (closeCtx s a1) := by
  unfold closeCtx
  try dsimp only
  repeat' (first | with_reducible assumption | with_reducible apply keeps_sendPacket | with_reducible apply keeps_setCtx | with_reducible apply keeps_ite | split | (intro _ _ _; dsimp only) | (with_reducible refine keeps_mk ?_ rfl rfl rfl) | (intro _ _ _))

theorem keeps_egressCtx {s0 s : State} {a1 a2 a3 a4} (h : Keeps s0 s) : Keeps s0 (egressCtx s a1 a2 a3 a4) := by
  unfold egressCtx
  try dsimp only
  repeat' (first | with_reducible assumption | with_reducible apply keeps_sendPacket | with_reducible apply keeps_closeCtx | with_reducible apply keeps_setCtx | with_reducible apply keeps_foldl | with_reducible apply keeps_foldl_fst | with_reducible apply keeps_foldl_snd | with_reducible apply keeps_ite | split | (intro _ _ _; dsimp only) | (with_reducible refine keeps_mk ?_ rfl rfl rfl) | (intro _ _ _))

theorem keeps_zeroCtx {s0 s : State} {a1} (h : Keeps s0 s) : Keeps s0 (zeroCtx s a1) := by
  unfold zeroCtx
  try dsimp only
  repeat' (first | with_reducible assumption | with_reducible apply keeps_sendPacket | with_reducible apply keeps_setCtx | with_reducible apply keeps_foldl | with_reducible apply keeps_foldl_fst | with_reducible apply keeps_foldl_snd | with_reducible apply keeps_ite | split | (intro _ _ _; dsimp only) | (with_reducible refine keeps_mk ?_ rfl rfl rfl) | (intro _ _ _))

theorem keeps_joinGroups {s0 s : State} {a1} (h : Keeps s0 s) : Keeps s0 (joinGroups s a1) := by
  unfold joinGroups
  try dsimp only
  repeat' (first | with_reducible assumption | with_reducible apply keeps_setNet | with_reducible apply keeps_sendFrames | with_reducible apply keeps_foldl | with_reducible apply keeps_foldl_fst | with_reducible apply keeps_foldl_snd | with_reducible apply keeps_ite | split | (intro _ _ _; dsimp only) | (with_reducible refine keeps_mk ?_ rfl rfl rfl) | (intro _ _ _))

theorem keeps_leaveGroups {s0 s : State} {a1} (h : Keeps s0 s) : Keeps s0 (leaveGroups s a1) := by
  unfold leaveGroups
  try dsimp only
  repeat' (first | with_reducible assumption | with_reducible apply keeps_setNet | with_reducible apply keeps_sendFrames | with_reducible apply keeps_foldl | with_reducible apply keeps_foldl_fst | with_reducible apply keeps_foldl_snd | with_reducible apply keeps_ite | split | (intro _ _ _; dsimp only) | (with_reducible refine keeps_mk ?_ rfl rfl rfl) | (intro _ _ _))

theorem keeps_ctxEntered {s0 s : State} {a1 a2} (h : Keeps s0 s) : Keeps s0 (ctxEntered s a1 a2) := by
  unfold ctxEntered
  try dsimp only
  repeat' (first | with_reducible assumption | with_reducible apply keeps_leaveGroups | with_reducible apply keeps_joinGroups | with_reducible apply keeps_clearSig | with_reducible apply keeps_setN | with_reducible apply keeps_fadeFrom | with_reducible apply keeps_setCtx | with_reducible apply keeps_foldl | with_reducible apply keeps_foldl_fst | with_reducible apply keeps_foldl_snd | with_reducible apply keeps_ite | split | (intro _ _ _; dsimp only) | (with_reducible refine keeps_mk ?_ rfl rfl rfl) | (intro _ _ _))

theorem keeps_tickCtx {s0 s : State} {a1} (h : Keeps s0 s) : Keeps s0 (tickCtx s a1) := by
  unfold tickCtx
  try dsimp only
  repeat' (first | with_reducible assumption | with_reducible apply keeps_tickMedia | with_reducible apply keeps_retirePackets | with_reducible apply keeps_moveUnit | with_reducible apply keeps_setCtx | with_reducible apply keeps_ite | split | (intro _ _ _; dsimp only) | (with_reducible refine keeps_mk ?_ rfl rfl rfl) | (intro _ _ _))

theorem keeps_execArpRequest {s0 s : State} {a0 a1 a2} (h : Keeps s0 s) : KeepsOut s0 (execArpRequest a0 a1 a2 s) := by
  unfold execArpRequest
  try dsimp only
  repeat' (first | with_reducible assumption | with_reducible apply keeps_sendFrames | with_reducible apply keeps_unmatched | with_reducible apply keeps_heard | with_reducible apply keeps_quietPorts | with_reducible apply keeps_next | exact keeps_fault _ | with_reducible apply keeps_ite | split | (intro _ _ _; dsimp only) | (with_reducible refine keeps_mk ?_ rfl rfl rfl) | (intro _ _ _))

theorem keeps_execIcmpEchoRequest {s0 s : State} {a0 a1 a2 a3} (h : Keeps s0 s) : KeepsOut s0 (execIcmpEchoRequest a0 a1 a2 a3 s) := by
  unfold execIcmpEchoRequest
  try dsimp only
  repeat' (first | with_reducible assumption | with_reducible apply keeps_sendFrames | with_reducible apply keeps_unmatched | with_reducible apply keeps_heard | with_reducible apply keeps_quietPorts | with_reducible apply keeps_next | exact keeps_fault _ | with_reducible apply keeps_ite | split | (intro _ _ _; dsimp only) | (with_reducible refine keeps_mk ?_ rfl rfl rfl) | (intro _ _ _))

theorem keeps_execArpReplyReceived {s0 s : State} {a0 a1 a2} (h : Keeps s0 s) : KeepsOut s0 (execArpReplyReceived a0 a1 a2 s) := by
  unfold execArpReplyReceived
  try dsimp only
  repeat' (first | with_reducible assumption | with_reducible apply keeps_setNet | with_reducible apply keeps_heard | with_reducible apply keeps_next | exact keeps_fault _ | with_reducible apply keeps_ite | split | (intro _ _ _; dsimp only) | (with_reducible refine keeps_mk ?_ rfl rfl rfl) | (intro _ _ _))

theorem keeps_hearQuerier {s0 s : State} {a1 a2} (h : Keeps s0 s) : Keeps s0 (hearQuerier s a1 a2) := by
  unfold hearQuerier
  try dsimp only
  repeat' (first | with_reducible assumption | with_reducible apply keeps_setNet | with_reducible apply keeps_ite | split | (intro _ _ _; dsimp only) | (with_reducible refine keeps_mk ?_ rfl rfl rfl) | (intro _ _ _))

theorem keeps_execIgmpQueryReceived {s0 s : State} {a0 a1 a2} (h : Keeps s0 s) : KeepsOut s0 (execIgmpQueryReceived a0 a1 a2 s) := by
  unfold execIgmpQueryReceived
  try dsimp only
  repeat' (first | with_reducible assumption | with_reducible apply keeps_sendFrames | with_reducible apply keeps_heard | with_reducible apply keeps_quietPorts | with_reducible apply keeps_hearQuerier | with_reducible apply keeps_next | exact keeps_fault _ | with_reducible apply keeps_ite | split | (intro _ _ _; dsimp only) | (with_reducible refine keeps_mk ?_ rfl rfl rfl) | (intro _ _ _))

theorem keeps_execFrameDiscarded {s0 s : State} {a0 a1} (h : Keeps s0 s) : KeepsOut s0 (execFrameDiscarded a0 a1 s) := by
  unfold execFrameDiscarded
  try dsimp only
  repeat' (first | with_reducible assumption | with_reducible apply keeps_bump | with_reducible apply keeps_next | exact keeps_fault _ | with_reducible apply keeps_ite | split | (intro _ _ _; dsimp only) | (with_reducible refine keeps_mk ?_ rfl rfl rfl) | (intro _ _ _))

theorem keeps_execNetworkLinkChange {s0 s : State} {a0 a1} (h : Keeps s0 s) : KeepsOut s0 (execNetworkLinkChange a0 a1 s) := by
  unfold execNetworkLinkChange
  try dsimp only
  repeat' (first | with_reducible assumption | with_reducible apply keeps_setN | with_reducible apply keeps_setTb | with_reducible apply keeps_raise | with_reducible apply keeps_next | exact keeps_fault _ | with_reducible apply keeps_foldl | with_reducible apply keeps_foldl_fst | with_reducible apply keeps_foldl_snd | with_reducible apply keeps_ite | split | (intro _ _ _; dsimp only) | (with_reducible refine keeps_mk ?_ rfl rfl rfl) | (intro _ _ _))

theorem keeps_stageContext {s0 s : State} {a1 a2} (h : Keeps s0 s) : Keeps s0 (stageContext s a1 a2) := by
  unfold stageContext
  try dsimp only
  repeat' (first | with_reducible assumption | with_reducible apply keeps_setBank | with_reducible apply keeps_foldl | with_reducible apply keeps_foldl_fst | with_reducible apply keeps_foldl_snd | with_reducible apply keeps_ite | split | (intro _ _ _; dsimp only) | (with_reducible refine keeps_mk ?_ rfl rfl rfl) | (intro _ _ _))

theorem keeps_openContext {s0 s : State} {a1 a2 a3} (h : Keeps s0 s) : Keeps s0 (openContext s a1 a2 a3).2 := by
  unfold openContext
  try dsimp only
  repeat' (first | with_reducible assumption | with_reducible apply keeps_stageContext | with_reducible apply keeps_setSess | with_reducible apply keeps_ite | split | (intro _ _ _; dsimp only) | (with_reducible refine keeps_mk ?_ rfl rfl rfl) | (intro _ _ _))

end Sys2Proof.Machine
end

