-- ==== Sys2Proof/Laws/KeepsPair.lean ====
section
/-!
SUPPORT. Laws/KeepsPair.lean: the operations of Machine/Pair.lean keep the queue, time, the memories and the fuses (Laws/Keeps.lean).
-/
-- One declaration at a time and no linter: the package is compiled as one text under a memory limit.
set_option linter.all false
set_option Elab.async false
namespace Sys2Proof.Machine

theorem keeps_countFill {s0 s : State} (h : Keeps s0 s) : Keeps s0 (countFill s) := by
  unfold countFill
  try dsimp only
  repeat' (first | with_reducible assumption | with_reducible apply keeps_setN | with_reducible apply keeps_ite | split | (intro _ _ _; dsimp only) | (with_reducible refine keeps_mk ?_ rfl rfl rfl) | (intro _ _ _))

theorem keeps_setSync {s0 s : State} {a1} (h : Keeps s0 s) : Keeps s0 (setSync s a1) := by
  unfold setSync
  try dsimp only
  repeat' (first | with_reducible assumption | with_reducible apply keeps_setN | with_reducible apply keeps_countFill | with_reducible apply keeps_raise | with_reducible apply keeps_ite | split | (intro _ _ _; dsimp only) | (with_reducible refine keeps_mk ?_ rfl rfl rfl) | (intro _ _ _))

theorem keeps_setPairRt {s0 s : State} {a1} (h : Keeps s0 s) : Keeps s0 (setPairRt s a1) := by
  exact h.same rfl

theorem keeps_refuseHandover {s0 s : State} (h : Keeps s0 s) : Keeps s0 (refuseHandover s) := by
  unfold refuseHandover
  try dsimp only
  repeat' (first | with_reducible assumption | with_reducible apply keeps_setN | with_reducible apply keeps_ite | split | (intro _ _ _; dsimp only) | (with_reducible refine keeps_mk ?_ rfl rfl rfl) | (intro _ _ _))

theorem keeps_drawFreq {s0 s : State} (h : Keeps s0 s) : Keeps s0 (drawFreq s).2 := by
  unfold drawFreq
  try dsimp only
  repeat' (first | with_reducible assumption | with_reducible apply keeps_drawUpTo | with_reducible apply keeps_ite | split | (intro _ _ _; dsimp only) | (with_reducible refine keeps_mk ?_ rfl rfl rfl) | (intro _ _ _))

theorem keeps_holdDomains {s0 s : State} (h : Keeps s0 s) : Keeps s0 (holdDomains s) := by
  unfold holdDomains
  try dsimp only
  repeat' (first | with_reducible assumption | with_reducible apply keeps_setN | with_reducible apply keeps_drawFreq | with_reducible apply keeps_enterHoldover | with_reducible apply keeps_setDom | with_reducible apply keeps_foldl | with_reducible apply keeps_foldl_fst | with_reducible apply keeps_foldl_snd | with_reducible apply keeps_ite | split | (intro _ _ _; dsimp only) | (with_reducible refine keeps_mk ?_ rfl rfl rfl) | (intro _ _ _))

theorem keeps_linkLost {s0 s : State} (h : Keeps s0 s) : Keeps s0 (linkLost s) := by
  unfold linkLost
  try dsimp only
  repeat' (first | with_reducible assumption | with_reducible apply keeps_setSync | with_reducible apply keeps_refuseHandover | with_reducible apply keeps_holdDomains | with_reducible apply keeps_ite | split | (intro _ _ _; dsimp only) | (with_reducible refine keeps_mk ?_ rfl rfl rfl) | (intro _ _ _))

theorem keeps_sendNotice {s0 s : State} (h : Keeps s0 s) : Keeps s0 (sendNotice s) := by
  exact h.same rfl

theorem keeps_formRecord {s0 s : State} {a1} (h : Keeps s0 s) : Keeps s0 (formRecord s a1) := by
  unfold formRecord
  try dsimp only
  repeat' (first | with_reducible assumption | with_reducible apply keeps_ite | split | (intro _ _ _; dsimp only) | (with_reducible refine keeps_mk ?_ rfl rfl rfl) | (intro _ _ _))

theorem keeps_recordWrites {s0 s : State} {a1 a2} (h : Keeps s0 s) : Keeps s0 (recordWrites s a1 a2) := by
  unfold recordWrites
  try dsimp only
  repeat' (first | with_reducible assumption | with_reducible apply keeps_formRecord | with_reducible apply keeps_ite | split | (intro _ _ _; dsimp only) | (with_reducible refine keeps_mk ?_ rfl rfl rfl) | (intro _ _ _))

theorem keeps_openWindows {s0 s : State} (h : Keeps s0 s) : Keeps s0 (openWindows s) := by
  unfold openWindows
  try dsimp only
  repeat' (first | with_reducible assumption | with_reducible apply keeps_setPort | with_reducible apply keeps_setCtx | with_reducible apply keeps_foldl | with_reducible apply keeps_foldl_fst | with_reducible apply keeps_foldl_snd | with_reducible apply keeps_ite | split | (intro _ _ _; dsimp only) | (with_reducible refine keeps_mk ?_ rfl rfl rfl) | (intro _ _ _))

theorem keeps_gainToken {s0 s : State} (h : Keeps s0 s) : Keeps s0 (gainToken s) := by
  unfold gainToken
  try dsimp only
  repeat' (first | with_reducible assumption | with_reducible apply keeps_takeToken | with_reducible apply keeps_setOutFade | with_reducible apply keeps_openWindows | with_reducible apply keeps_foldl | with_reducible apply keeps_foldl_fst | with_reducible apply keeps_foldl_snd | with_reducible apply keeps_ite | split | (intro _ _ _; dsimp only) | (with_reducible refine keeps_mk ?_ rfl rfl rfl) | (intro _ _ _))

theorem keeps_takeOver {s0 s : State} {a1} (h : Keeps s0 s) : Keeps s0 (takeOver s a1) := by
  unfold takeOver
  try dsimp only
  repeat' (first | with_reducible assumption | with_reducible apply keeps_bump | with_reducible apply keeps_gainToken | with_reducible apply keeps_setN | with_reducible apply keeps_setRole | with_reducible apply keeps_raise | with_reducible apply keeps_ite | split | (intro _ _ _; dsimp only) | (with_reducible refine keeps_mk ?_ rfl rfl rfl) | (intro _ _ _))

theorem keeps_becomeStandby {s0 s : State} (h : Keeps s0 s) : Keeps s0 (becomeStandby s) := by
  unfold becomeStandby
  try dsimp only
  repeat' (first | with_reducible assumption | with_reducible apply keeps_setRole | with_reducible apply keeps_ite | split | (intro _ _ _; dsimp only) | (with_reducible refine keeps_mk ?_ rfl rfl rfl) | (intro _ _ _))

theorem keeps_joinPair {s0 s : State} {a1} (h : Keeps s0 s) : Keeps s0 (joinPair s a1) := by
  unfold joinPair
  try dsimp only
  repeat' (first | with_reducible assumption | with_reducible apply keeps_setSync | with_reducible apply keeps_formRecord | with_reducible apply keeps_gainToken | with_reducible apply keeps_fadeOutlets | with_reducible apply keeps_setRole | with_reducible apply keeps_becomeStandby | with_reducible apply keeps_raise | with_reducible apply keeps_ite | split | (intro _ _ _; dsimp only) | (with_reducible refine keeps_mk ?_ rfl rfl rfl) | (intro _ _ _))

theorem keeps_joinRelease {s0 s : State} (h : Keeps s0 s) : Keeps s0 (joinRelease s) := by
  unfold joinRelease
  try dsimp only
  repeat' (first | with_reducible assumption | with_reducible apply keeps_dropToken | with_reducible apply keeps_becomeStandby | with_reducible apply keeps_ite | split | (intro _ _ _; dsimp only) | (with_reducible refine keeps_mk ?_ rfl rfl rfl) | (intro _ _ _))

theorem keeps_enterLink {s0 s : State} {a1} (h : Keeps s0 s) : Keeps s0 (enterLink s a1) := by
  unfold enterLink
  try dsimp only
  repeat' (first | with_reducible assumption | with_reducible apply keeps_joinPair | with_reducible apply keeps_setN | with_reducible apply keeps_moveUnit | with_reducible apply keeps_ite | split | (intro _ _ _; dsimp only) | (with_reducible refine keeps_mk ?_ rfl rfl rfl) | (intro _ _ _))

theorem keeps_execRsmLinkUp {s0 s : State} {a0} (h : Keeps s0 s) : KeepsOut s0 (execRsmLinkUp a0 s) := by
  unfold execRsmLinkUp
  try dsimp only
  repeat' (first | with_reducible assumption | with_reducible apply keeps_raise | with_reducible apply keeps_next | exact keeps_fault _ | with_reducible apply keeps_ite | split | (intro _ _ _; dsimp only) | (with_reducible refine keeps_mk ?_ rfl rfl rfl) | (intro _ _ _))

theorem keeps_linkTick {s0 s : State} (h : Keeps s0 s) : Keeps s0 (linkTick s) := by
  unfold linkTick
  try dsimp only
  repeat' (first | with_reducible assumption | with_reducible apply keeps_enterLink | with_reducible apply keeps_ite | split | (intro _ _ _; dsimp only) | (with_reducible refine keeps_mk ?_ rfl rfl rfl) | (intro _ _ _))

theorem keeps_execJoinWaitExpired {s0 s : State} (h : Keeps s0 s) : KeepsOut s0 (execJoinWaitExpired s) := by
  exact keeps_next (h.same rfl)

theorem keeps_pairEntered {s0 s : State} {a1} (h : Keeps s0 s) : Keeps s0 (pairEntered s a1) := by
  unfold pairEntered
  try dsimp only
  repeat' (first | with_reducible assumption | with_reducible apply keeps_sendNotice | with_reducible apply keeps_setRole | with_reducible apply keeps_linkLost | with_reducible apply keeps_ite | split | (intro _ _ _; dsimp only) | (with_reducible refine keeps_mk ?_ rfl rfl rfl) | (intro _ _ _))

theorem keeps_execReleaseNoticeReceived {s0 s : State} (h : Keeps s0 s) : KeepsOut s0 (execReleaseNoticeReceived s) := by
  unfold execReleaseNoticeReceived
  try dsimp only
  repeat' (first | with_reducible assumption | with_reducible apply keeps_setRole | with_reducible apply keeps_next | exact keeps_fault _ | with_reducible apply keeps_ite | split | (intro _ _ _; dsimp only) | (with_reducible refine keeps_mk ?_ rfl rfl rfl) | (intro _ _ _))

theorem keeps_linkError {s0 s : State} (h : Keeps s0 s) : Keeps s0 (linkError s) := by
  unfold linkError
  try dsimp only
  repeat' (first | with_reducible assumption | with_reducible apply keeps_reportError | with_reducible apply keeps_ite | split | (intro _ _ _; dsimp only) | (with_reducible refine keeps_mk ?_ rfl rfl rfl) | (intro _ _ _))

theorem keeps_execRsmFrameError {s0 s : State} {a0} (h : Keeps s0 s) : KeepsOut s0 (execRsmFrameError a0 s) := by
  unfold execRsmFrameError
  try dsimp only
  repeat' (first | with_reducible assumption | with_reducible apply keeps_linkError | with_reducible apply keeps_next | exact keeps_fault _ | with_reducible apply keeps_ite | split | (intro _ _ _; dsimp only) | (with_reducible refine keeps_mk ?_ rfl rfl rfl) | (intro _ _ _))

theorem keeps_execRsmLaneLockLoss {s0 s : State} {a0} (h : Keeps s0 s) : KeepsOut s0 (execRsmLaneLockLoss a0 s) := by
  unfold execRsmLaneLockLoss
  try dsimp only
  repeat' (first | with_reducible assumption | with_reducible apply keeps_linkError | with_reducible apply keeps_next | exact keeps_fault _ | with_reducible apply keeps_ite | split | (intro _ _ _; dsimp only) | (with_reducible refine keeps_mk ?_ rfl rfl rfl) | (intro _ _ _))

theorem keeps_execLinkTestEnd {s0 s : State} {a0} (h : Keeps s0 s) : KeepsOut s0 (execLinkTestEnd a0 s) := by
  unfold execLinkTestEnd
  try dsimp only
  repeat' (first | with_reducible assumption | with_reducible apply keeps_endTest | with_reducible apply keeps_faultDue | with_reducible apply keeps_setN | with_reducible apply keeps_writeLog | with_reducible apply keeps_raise | with_reducible apply keeps_next | exact keeps_fault _ | with_reducible apply keeps_foldl | with_reducible apply keeps_foldl_fst | with_reducible apply keeps_foldl_snd | with_reducible apply keeps_ite | split | (intro _ _ _; dsimp only) | (with_reducible refine keeps_mk ?_ rfl rfl rfl) | (intro _ _ _))

theorem keeps_putRamps {s0 s : State} {a1 a2} (h : Keeps s0 s) : Keeps s0 (putRamps s a1 a2) := by
  unfold putRamps
  try dsimp only
  repeat' (first | with_reducible assumption | with_reducible apply keeps_putRamp | with_reducible apply keeps_foldl | with_reducible apply keeps_foldl_fst | with_reducible apply keeps_foldl_snd | with_reducible apply keeps_ite | split | (intro _ _ _; dsimp only) | (with_reducible refine keeps_mk ?_ rfl rfl rfl) | (intro _ _ _))

theorem keeps_applyExport {s0 s : State} {a1 a2} (h : Keeps s0 s) : Keeps s0 (applyExport s a1 a2) := by
  unfold applyExport
  try dsimp only
  repeat' (first | with_reducible assumption | with_reducible apply keeps_putRamp | with_reducible apply keeps_bump | with_reducible apply keeps_putUnit | with_reducible apply keeps_setN | with_reducible apply keeps_putRamps | with_reducible apply keeps_putOut | with_reducible apply keeps_setCtx | with_reducible apply keeps_ite | split | (intro _ _ _; dsimp only) | (with_reducible refine keeps_mk ?_ rfl rfl rfl) | (intro _ _ _))

theorem keeps_execExportItemReceived {s0 s : State} {a0} (h : Keeps s0 s) : KeepsOut s0 (execExportItemReceived a0 s) := by
  unfold execExportItemReceived
  try dsimp only
  repeat' (first | with_reducible assumption | with_reducible apply keeps_applyExport | with_reducible apply keeps_setSync | with_reducible apply keeps_setN | with_reducible apply keeps_next | exact keeps_fault _ | with_reducible apply keeps_ite | split | (intro _ _ _; dsimp only) | (with_reducible refine keeps_mk ?_ rfl rfl rfl) | (intro _ _ _))

theorem keeps_exportBeats {s0 s : State} (h : Keeps s0 s) : Keeps s0 (exportBeats s).2 := by
  unfold exportBeats
  try dsimp only
  repeat' (first | with_reducible assumption | with_reducible apply keeps_drawUpTo | with_reducible apply keeps_foldl | with_reducible apply keeps_foldl_fst | with_reducible apply keeps_foldl_snd | with_reducible apply keeps_ite | split | (intro _ _ _; dsimp only) | (with_reducible refine keeps_mk ?_ rfl rfl rfl) | (intro _ _ _))

theorem keeps_execExportAckReceived {s0 s : State} {a0} (h : Keeps s0 s) : KeepsOut s0 (execExportAckReceived a0 s) := by
  unfold execExportAckReceived
  try dsimp only
  repeat' (first | with_reducible assumption | with_reducible apply keeps_setSync | with_reducible apply keeps_bump | with_reducible apply keeps_setN | with_reducible apply keeps_exportBeats | with_reducible apply keeps_next | exact keeps_fault _ | with_reducible apply keeps_ite | split | (intro _ _ _; dsimp only) | (with_reducible refine keeps_mk ?_ rfl rfl rfl) | (intro _ _ _))

theorem keeps_execFillingEnd {s0 s : State} (h : Keeps s0 s) : KeepsOut s0 (execFillingEnd s) := by
  unfold execFillingEnd
  try dsimp only
  repeat' (first | with_reducible assumption | with_reducible apply keeps_setSync | with_reducible apply keeps_next | exact keeps_fault _ | with_reducible apply keeps_ite | split | (intro _ _ _; dsimp only) | (with_reducible refine keeps_mk ?_ rfl rfl rfl) | (intro _ _ _))

theorem keeps_execLeaseExpired {s0 s : State} (h : Keeps s0 s) : KeepsOut s0 (execLeaseExpired s) := by
  unfold execLeaseExpired
  try dsimp only
  repeat' (first | with_reducible assumption | with_reducible apply keeps_dropToken | with_reducible apply keeps_setRole | with_reducible apply keeps_raise | with_reducible apply keeps_next | exact keeps_fault _ | with_reducible apply keeps_ite | split | (intro _ _ _; dsimp only) | (with_reducible refine keeps_mk ?_ rfl rfl rfl) | (intro _ _ _))

theorem keeps_execStandbyTakeover {s0 s : State} (h : Keeps s0 s) : KeepsOut s0 (execStandbyTakeover s) := by
  unfold execStandbyTakeover
  try dsimp only
  repeat' (first | with_reducible assumption | with_reducible apply keeps_setSync | with_reducible apply keeps_refuseHandover | with_reducible apply keeps_takeOver | with_reducible apply keeps_holdDomains | with_reducible apply keeps_setN | with_reducible apply keeps_raise | with_reducible apply keeps_next | exact keeps_fault _ | with_reducible apply keeps_ite | split | (intro _ _ _; dsimp only) | (with_reducible refine keeps_mk ?_ rfl rfl rfl) | (intro _ _ _))

theorem keeps_execOrphanTakeToken {s0 s : State} (h : Keeps s0 s) : KeepsOut s0 (execOrphanTakeToken s) := by
  unfold execOrphanTakeToken
  try dsimp only
  repeat' (first | with_reducible assumption | with_reducible apply keeps_takeOver | with_reducible apply keeps_next | exact keeps_fault _ | with_reducible apply keeps_ite | split | (intro _ _ _; dsimp only) | (with_reducible refine keeps_mk ?_ rfl rfl rfl) | (intro _ _ _))

theorem keeps_requestHandover {s0 s : State} (h : Keeps s0 s) : Keeps s0 (requestHandover s).2 := by
  unfold requestHandover
  try dsimp only
  repeat' (first | with_reducible assumption | with_reducible apply keeps_setN | with_reducible apply keeps_ite | split | (intro _ _ _; dsimp only) | (with_reducible refine keeps_mk ?_ rfl rfl rfl) | (intro _ _ _))

theorem keeps_beginOverlap {s0 s : State} (h : Keeps s0 s) : Keeps s0 (beginOverlap s) := by
  unfold beginOverlap
  try dsimp only
  repeat' (first | with_reducible assumption | with_reducible apply keeps_setN | with_reducible apply keeps_ite | split | (intro _ _ _; dsimp only) | (with_reducible refine keeps_mk ?_ rfl rfl rfl) | (intro _ _ _))

theorem keeps_passToken {s0 s : State} {a1} (h : Keeps s0 s) : Keeps s0 (passToken s a1) := by
  unfold passToken
  try dsimp only
  repeat' (first | with_reducible assumption | with_reducible apply keeps_takeToken | with_reducible apply keeps_setOutFade | with_reducible apply keeps_dropToken | with_reducible apply keeps_setN | with_reducible apply keeps_openWindows | with_reducible apply keeps_foldl | with_reducible apply keeps_foldl_fst | with_reducible apply keeps_foldl_snd | with_reducible apply keeps_ite | split | (intro _ _ _; dsimp only) | (with_reducible refine keeps_mk ?_ rfl rfl rfl) | (intro _ _ _))

theorem keeps_ownReference {s0 s : State} {a1} (h : Keeps s0 s) : Keeps s0 (ownReference s a1) := by
  unfold ownReference
  try dsimp only
  repeat' (first | with_reducible assumption | with_reducible apply keeps_switchTo | with_reducible apply keeps_enterHoldover | with_reducible apply keeps_ite | split | (intro _ _ _; dsimp only) | (with_reducible refine keeps_mk ?_ rfl rfl rfl) | (intro _ _ _))

theorem keeps_endHandover {s0 s : State} (h : Keeps s0 s) : Keeps s0 (endHandover s) := by
  unfold endHandover
  try dsimp only
  repeat' (first | with_reducible assumption | with_reducible apply keeps_ownReference | with_reducible apply keeps_bump | with_reducible apply keeps_setN | with_reducible apply keeps_setRole | with_reducible apply keeps_raise | with_reducible apply keeps_foldl | with_reducible apply keeps_foldl_fst | with_reducible apply keeps_foldl_snd | with_reducible apply keeps_ite | split | (intro _ _ _; dsimp only) | (with_reducible refine keeps_mk ?_ rfl rfl rfl) | (intro _ _ _))

theorem keeps_samplePeer {s0 s : State} {a1} (h : Keeps s0 s) : Keeps s0 (samplePeer s a1) := by
  exact h.same rfl

theorem keeps_checkExport {s0 s : State} (h : Keeps s0 s) : Keeps s0 (checkExport s) := by
  unfold checkExport
  try dsimp only
  repeat' (first | with_reducible assumption | with_reducible apply keeps_setSync | with_reducible apply keeps_bump | with_reducible apply keeps_refuseHandover | with_reducible apply keeps_raise | with_reducible apply keeps_ite | split | (intro _ _ _; dsimp only) | (with_reducible refine keeps_mk ?_ rfl rfl rfl) | (intro _ _ _))

theorem keeps_countLease {s0 s : State} (h : Keeps s0 s) : Keeps s0 (countLease s) := by
  exact h.same rfl

theorem keeps_enterStandby {s0 s : State} (h : Keeps s0 s) : Keeps s0 (enterStandby s) := by
  unfold enterStandby
  try dsimp only
  repeat' (first | with_reducible assumption | with_reducible apply keeps_setN | with_reducible apply keeps_ite | split | (intro _ _ _; dsimp only) | (with_reducible refine keeps_mk ?_ rfl rfl rfl) | (intro _ _ _))

theorem keeps_tickPairRt {s0 s : State} {a1} (h : Keeps s0 s) : Keeps s0 (tickPairRt s a1) := by
  unfold tickPairRt
  try dsimp only
  repeat' (first | with_reducible assumption | with_reducible apply keeps_enterStandby | with_reducible apply keeps_samplePeer | with_reducible apply keeps_beginOverlap | with_reducible apply keeps_checkExport | with_reducible apply keeps_endHandover | with_reducible apply keeps_countLease | with_reducible apply keeps_countFill | with_reducible apply keeps_ite | split | (intro _ _ _; dsimp only) | (with_reducible refine keeps_mk ?_ rfl rfl rfl) | (intro _ _ _))

end Sys2Proof.Machine
end

