-- ==== Sys2Proof/Laws/KeepsReact.lean ====
section
/-!
SUPPORT. Laws/KeepsReact.lean: the operations of Machine/React.lean keep the queue, time, the memories and the fuses (Laws/Keeps.lean).
-/
-- One declaration at a time and no linter: the package is compiled as one text under a memory limit.
set_option linter.all false
set_option Elab.async false
namespace Sys2Proof.Machine

theorem keeps_serveUnit {s0 s : State} {a1} (h : Keeps s0 s) : Keeps s0 (serveUnit s a1) := by
  unfold serveUnit
  try dsimp only
  repeat' (first | with_reducible assumption | with_reducible apply keeps_setN | with_reducible apply keeps_ite | split | (intro _ _ _; dsimp only) | (with_reducible refine keeps_mk ?_ rfl rfl rfl) | (intro _ _ _))

theorem keeps_lendUnit {s0 s : State} {a1 a2} (h : Keeps s0 s) : Keeps s0 (lendUnit s a1 a2) := by
  unfold lendUnit
  try dsimp only
  repeat' (first | with_reducible assumption | with_reducible apply keeps_serveUnit | with_reducible apply keeps_coreChange | with_reducible apply keeps_ite | split | (intro _ _ _; dsimp only) | (with_reducible refine keeps_mk ?_ rfl rfl rfl) | (intro _ _ _))

theorem keeps_reactAudio {s0 s : State} {a1} (h : Keeps s0 s) : Keeps s0 (reactAudio s a1) := by
  unfold reactAudio
  try dsimp only
  repeat' (first | with_reducible assumption | with_reducible apply keeps_lendUnit | with_reducible apply keeps_putUnit | with_reducible apply keeps_setN | with_reducible apply keeps_startRamp | with_reducible apply keeps_coreChange | with_reducible apply keeps_putOut | with_reducible apply keeps_ite | split | (intro _ _ _; dsimp only) | (with_reducible refine keeps_mk ?_ rfl rfl rfl) | (intro _ _ _))

theorem keeps_applyAudio {s0 s : State} {a1} (h : Keeps s0 s) : Keeps s0 (applyAudio s a1) := by
  unfold applyAudio
  try dsimp only
  repeat' (first | with_reducible assumption | with_reducible apply keeps_unsuspend | with_reducible apply keeps_putLanded | with_reducible apply keeps_reactAudio | with_reducible apply keeps_foldl | with_reducible apply keeps_foldl_fst | with_reducible apply keeps_foldl_snd | with_reducible apply keeps_ite | split | (intro _ _ _; dsimp only) | (with_reducible refine keeps_mk ?_ rfl rfl rfl) | (intro _ _ _))

theorem keeps_landAudio {s0 s : State} {a1 a2 a3 a4} (h : Keeps s0 s) : Keeps s0 (landAudio s a1 a2 a3 a4) := by
  unfold landAudio
  try dsimp only
  repeat' (first | with_reducible assumption | with_reducible apply keeps_applyAudio | with_reducible apply keeps_dropDue | with_reducible apply keeps_ite | split | (intro _ _ _; dsimp only) | (with_reducible refine keeps_mk ?_ rfl rfl rfl) | (intro _ _ _))

theorem keeps_endCore {s0 s : State} {a1} (h : Keeps s0 s) : Keeps s0 (endCore s a1) := by
  exact h.same rfl

theorem keeps_execCoreCrossfadeEnd {s0 s : State} {a0} (h : Keeps s0 s) : KeepsOut s0 (execCoreCrossfadeEnd a0 s) := by
  exact keeps_next (h.same rfl)

theorem keeps_execInputCrossfadeEnd {s0 s : State} {a0} (h : Keeps s0 s) : KeepsOut s0 (execInputCrossfadeEnd a0 s) := by
  exact keeps_next (h.same rfl)

theorem keeps_execDelayDipFadeEnd {s0 s : State} {a0} (h : Keeps s0 s) : KeepsOut s0 (execDelayDipFadeEnd a0 s) := by
  unfold execDelayDipFadeEnd
  try dsimp only
  repeat' (first | with_reducible assumption | with_reducible apply keeps_putUnit | with_reducible apply keeps_setN | with_reducible apply keeps_putOut | with_reducible apply keeps_next | exact keeps_fault _ | with_reducible apply keeps_ite | split | (intro _ _ _; dsimp only) | (with_reducible refine keeps_mk ?_ rfl rfl rfl) | (intro _ _ _))

theorem keeps_execNodeRampEnd {s0 s : State} {a0 a1} (h : Keeps s0 s) : KeepsOut s0 (execNodeRampEnd a0 a1 s) := by
  exact keeps_next (h.same rfl)

theorem keeps_execFirCrossfadeEnd {s0 s : State} {a0} (h : Keeps s0 s) : KeepsOut s0 (execFirCrossfadeEnd a0 s) := by
  exact keeps_next (h.same rfl)

theorem keeps_execLimOnCrossfadeEnd {s0 s : State} {a0} (h : Keeps s0 s) : KeepsOut s0 (execLimOnCrossfadeEnd a0 s) := by
  exact keeps_next (h.same rfl)

theorem keeps_execGateHoldExpired {s0 s : State} {a0} (h : Keeps s0 s) : KeepsOut s0 (execGateHoldExpired a0 s) := by
  unfold execGateHoldExpired
  try dsimp only
  repeat' (first | with_reducible assumption | with_reducible apply keeps_setN | with_reducible apply keeps_next | exact keeps_fault _ | with_reducible apply keeps_ite | split | (intro _ _ _; dsimp only) | (with_reducible refine keeps_mk ?_ rfl rfl rfl) | (intro _ _ _))

end Sys2Proof.Machine
end

