-- ==== Sys2Proof/Laws/KeepsSessions.lean ====
section
/-!
SUPPORT. Laws/KeepsSessions.lean: the operations of Machine/Sessions.lean keep the queue, time, the memories and the fuses (Laws/Keeps.lean).
-/
-- One declaration at a time and no linter: the package is compiled as one text under a memory limit.
set_option linter.all false
set_option Elab.async false
namespace Sys2Proof.Machine

theorem keeps_openSession {s0 s : State} {a1 a2 a3 a4 a5} (h : Keeps s0 s) : Keeps s0 (openSession s a1 a2 a3 a4 a5) := by
  unfold openSession
  try dsimp only
  repeat' (first | with_reducible assumption | with_reducible apply keeps_setN | with_reducible apply keeps_setSess | with_reducible apply keeps_foldl | with_reducible apply keeps_foldl_fst | with_reducible apply keeps_foldl_snd | with_reducible apply keeps_ite | split | (intro _ _ _; dsimp only) | (with_reducible refine keeps_mk ?_ rfl rfl rfl) | (intro _ _ _))

theorem keeps_closeSession {s0 s : State} {a1 a2} (h : Keeps s0 s) : Keeps s0 (closeSession s a1 a2) := by
  unfold closeSession
  try dsimp only
  repeat' (first | with_reducible assumption | with_reducible apply keeps_setN | with_reducible apply keeps_raiseBut | with_reducible apply keeps_setSess | with_reducible apply keeps_foldl | with_reducible apply keeps_foldl_fst | with_reducible apply keeps_foldl_snd | with_reducible apply keeps_ite | split | (intro _ _ _; dsimp only) | (with_reducible refine keeps_mk ?_ rfl rfl rfl) | (intro _ _ _))

theorem keeps_sendMsix {s0 s : State} {a1} (h : Keeps s0 s) : Keeps s0 (sendMsix s a1) := by
  unfold sendMsix
  try dsimp only
  repeat' (first | with_reducible assumption | with_reducible apply keeps_ite | split | (intro _ _ _; dsimp only) | (with_reducible refine keeps_mk ?_ rfl rfl rfl) | (intro _ _ _))

theorem keeps_hostWrite {s0 s : State} {a b} (h : Keeps s0 s) : Keeps s0 (hostWrite s a b) :=
  keeps_hostMem h (memWf_memWrite _ _ _)

theorem keeps_hostStores {s0 s : State} {a} (h : Keeps s0 s) : Keeps s0 (hostStores s a) := by
  refine keeps_hostMem h (fun hm => ?_)
  induction a generalizing s with
  | nil => exact hm
  | cons c r ih =>
    exact ih (s := { s with host := { s.host with mem := memPut s.host.mem c.1 c.2 } })
      (keeps_hostMem h (fun _ => memWf_memPut _ _ _ hm)) (memWf_memPut _ _ _ hm)

theorem keeps_setPair {s0 s : State} {a1 a2} (h : Keeps s0 s) : Keeps s0 (setPair s a1 a2) := by
  exact h.same rfl

theorem keeps_postEntry {s0 s : State} {a1 a2 a3 a4} (h : Keeps s0 s) : Keeps s0 (postEntry s a1 a2 a3 a4) := by
  unfold postEntry
  try dsimp only
  repeat' (first | with_reducible assumption | with_reducible apply keeps_setPair | with_reducible apply keeps_hostWrite | with_reducible apply keeps_ite | split | (intro _ _ _; dsimp only) | (with_reducible refine keeps_mk ?_ rfl rfl rfl) | (intro _ _ _))

theorem keeps_postReply {s0 s : State} {a1 a2} (h : Keeps s0 s) : Keeps s0 (postReply s a1 a2) := by
  unfold postReply
  try dsimp only
  repeat' (first | with_reducible assumption | with_reducible apply keeps_postEntry | with_reducible apply keeps_setPair | with_reducible apply keeps_hostWrite | with_reducible apply keeps_ite | split | (intro _ _ _; dsimp only) | (with_reducible refine keeps_mk ?_ rfl rfl rfl) | (intro _ _ _))

theorem keeps_flushPair {s0 s : State} {a1} (h : Keeps s0 s) : Keeps s0 (flushPair s a1) := by
  unfold flushPair
  try dsimp only
  repeat' (first | with_reducible assumption | with_reducible apply keeps_sendMsix | with_reducible apply keeps_setPair | with_reducible apply keeps_ite | split | (intro _ _ _; dsimp only) | (with_reducible refine keeps_mk ?_ rfl rfl rfl) | (intro _ _ _))

theorem keeps_portSend {s0 s : State} {a1 a2 a3} (h : Keeps s0 s) : Keeps s0 (portSend s a1 a2 a3) := by
  exact h.same rfl

theorem keeps_sendOdp {s0 s : State} {a1 a2 a3} (h : Keeps s0 s) : Keeps s0 (sendOdp s a1 a2 a3) := by
  exact h.same rfl

theorem keeps_answer {s0 s : State} {a1 a2} (h : Keeps s0 s) : Keeps s0 (answer s a1 a2) := by
  unfold answer
  try dsimp only
  repeat' (first | with_reducible assumption | with_reducible apply keeps_flushPair | with_reducible apply keeps_setSess | with_reducible apply keeps_postReply | with_reducible apply keeps_sendOdp | with_reducible apply keeps_ite | split | (intro _ _ _; dsimp only) | (with_reducible refine keeps_mk ?_ rfl rfl rfl) | (intro _ _ _))

theorem keeps_reply {s0 s : State} {a1 a2 a3 a4 a5 a6 a7} (h : Keeps s0 s) : Keeps s0 (reply s a1 a2 a3 a4 a5 a6 a7) := by
  unfold reply
  try dsimp only
  repeat' (first | with_reducible assumption | with_reducible apply keeps_answer | with_reducible apply keeps_ite | split | (intro _ _ _; dsimp only) | (with_reducible refine keeps_mk ?_ rfl rfl rfl) | (intro _ _ _))

theorem keeps_drawNonce {s0 s : State} (h : Keeps s0 s) : Keeps s0 (drawNonce s).2 :=
  h.trans ⟨rfl, Nat.le_refl _, Nat.le_succ _, id, id, fun _ => keyKept_refl _, fun _ => id, fun _ _ => id⟩

theorem keeps_sendOpening {s0 s : State} {a1 a2 a3 a4 a5 a6} (h : Keeps s0 s) : Keeps s0 (sendOpening s a1 a2 a3 a4 a5 a6) := by
  exact h.same rfl

theorem keeps_takeHello {s0 s : State} {a1 a2 a3 a4 a5 a6 a7} (h : Keeps s0 s) : Keeps s0 (takeHello s a1 a2 a3 a4 a5 a6 a7) := by
  unfold takeHello
  try dsimp only
  repeat' (first | with_reducible assumption | with_reducible apply keeps_drawNonce | with_reducible apply keeps_sendOpening | with_reducible apply keeps_setSess | with_reducible apply keeps_ite | split | (intro _ _ _; dsimp only) | (with_reducible refine keeps_mk ?_ rfl rfl rfl) | (intro _ _ _))

theorem keeps_execHello {s0 s : State} {a0 a1 a2 a3 a4 a5} (h : Keeps s0 s) : KeepsOut s0 (execHello a0 a1 a2 a3 a4 a5 s) := by
  unfold execHello
  try dsimp only
  repeat' (first | with_reducible assumption | with_reducible apply keeps_takeHello | with_reducible apply keeps_next | exact keeps_fault _ | with_reducible apply keeps_ite | split | (intro _ _ _; dsimp only) | (with_reducible refine keeps_mk ?_ rfl rfl rfl) | (intro _ _ _))

theorem keeps_authFail {s0 s : State} {a1} (h : Keeps s0 s) : Keeps s0 (authFail s a1) := by
  unfold authFail
  try dsimp only
  repeat' (first | with_reducible assumption | with_reducible apply keeps_raise | with_reducible apply keeps_ite | split | (intro _ _ _; dsimp only) | (with_reducible refine keeps_mk ?_ rfl rfl rfl) | (intro _ _ _))

theorem keeps_execAuth {s0 s : State} {a0 a1 a2 a3 a4} (h : Keeps s0 s) : KeepsOut s0 (execAuth a0 a1 a2 a3 a4 s) := by
  unfold execAuth
  try dsimp only
  repeat' (first | with_reducible assumption | with_reducible apply keeps_openSession | with_reducible apply keeps_authFail | with_reducible apply keeps_sendOpening | with_reducible apply keeps_setSess | with_reducible apply keeps_next | exact keeps_fault _ | with_reducible apply keeps_ite | split | (intro _ _ _; dsimp only) | (with_reducible refine keeps_mk ?_ rfl rfl rfl) | (intro _ _ _))

theorem keeps_execAuthPendingTimeout {s0 s : State} {a0} (h : Keeps s0 s) : KeepsOut s0 (execAuthPendingTimeout a0 s) := by
  unfold execAuthPendingTimeout
  try dsimp only
  repeat' (first | with_reducible assumption | with_reducible apply keeps_setSess | with_reducible apply keeps_next | exact keeps_fault _ | with_reducible apply keeps_ite | split | (intro _ _ _; dsimp only) | (with_reducible refine keeps_mk ?_ rfl rfl rfl) | (intro _ _ _))

theorem keeps_execAuthLockoutEnd {s0 s : State} {a0} (h : Keeps s0 s) : KeepsOut s0 (execAuthLockoutEnd a0 s) := by
  exact keeps_next (h.same rfl)

theorem keeps_execOdpSessionIdleTimeout {s0 s : State} {a0} (h : Keeps s0 s) : KeepsOut s0 (execOdpSessionIdleTimeout a0 s) := by
  unfold execOdpSessionIdleTimeout
  try dsimp only
  repeat' (first | with_reducible assumption | with_reducible apply keeps_closeSession | with_reducible apply keeps_next | exact keeps_fault _ | with_reducible apply keeps_ite | split | (intro _ _ _; dsimp only) | (with_reducible refine keeps_mk ?_ rfl rfl rfl) | (intro _ _ _))

theorem keeps_execOdpReassemblyTimeout {s0 s : State} {a0 a1} (h : Keeps s0 s) : KeepsOut s0 (execOdpReassemblyTimeout a0 a1 s) := by
  unfold execOdpReassemblyTimeout
  try dsimp only
  repeat' (first | with_reducible assumption | with_reducible apply keeps_setSess | with_reducible apply keeps_next | exact keeps_fault _ | with_reducible apply keeps_ite | split | (intro _ _ _; dsimp only) | (with_reducible refine keeps_mk ?_ rfl rfl rfl) | (intro _ _ _))

theorem keeps_execNotifySend {s0 s : State} {a0} (h : Keeps s0 s) : KeepsOut s0 (execNotifySend a0 s) := by
  unfold execNotifySend
  try dsimp only
  repeat' (first | with_reducible assumption | with_reducible apply keeps_postEntry | with_reducible apply keeps_setN | with_reducible apply keeps_flushPair | with_reducible apply keeps_setSess | with_reducible apply keeps_sendOdp | with_reducible apply keeps_next | exact keeps_fault _ | with_reducible apply keeps_ite | split | (intro _ _ _; dsimp only) | (with_reducible refine keeps_mk ?_ rfl rfl rfl) | (intro _ _ _))

end Sys2Proof.Machine
end

