-- ==== Sys2Proof/Laws/KeepsValidate.lean ====
section
/-!
SUPPORT. Laws/KeepsValidate.lean: the operations of Machine/Validate.lean keep the queue, time, the memories and the fuses (Laws/Keeps.lean).
-/
-- One declaration at a time and no linter: the package is compiled as one text under a memory limit.
set_option linter.all false
set_option Elab.async false
namespace Sys2Proof.Machine

theorem keeps_configWith {s0 s : State} {a1} (h : Keeps s0 s) : Keeps s0 (configWith s a1) := by
  unfold configWith
  try dsimp only
  repeat' (first | with_reducible assumption | with_reducible apply keeps_setN | with_reducible apply keeps_setF | with_reducible apply keeps_foldl | with_reducible apply keeps_foldl_fst | with_reducible apply keeps_foldl_snd | with_reducible apply keeps_ite | split | (intro _ _ _; dsimp only) | (with_reducible refine keeps_mk ?_ rfl rfl rfl) | (intro _ _ _))

theorem keeps_giveSignals {s0 s : State} (h : Keeps s0 s) : Keeps s0 (giveSignals s).1 := by
  unfold giveSignals
  try dsimp only
  repeat' (first | with_reducible assumption | with_reducible apply keeps_setCtx | with_reducible apply keeps_foldl | with_reducible apply keeps_foldl_fst | with_reducible apply keeps_foldl_snd | with_reducible apply keeps_ite | split | (intro _ _ _; dsimp only) | (with_reducible refine keeps_mk ?_ rfl rfl rfl) | (intro _ _ _))

theorem keeps_publishLanes {s0 s : State} {a1} (h : Keeps s0 s) : Keeps s0 (publishLanes s a1) := by
  unfold publishLanes
  try dsimp only
  repeat' (first | with_reducible assumption | with_reducible apply keeps_setN | with_reducible apply keeps_foldl | with_reducible apply keeps_foldl_fst | with_reducible apply keeps_foldl_snd | with_reducible apply keeps_ite | split | (intro _ _ _; dsimp only) | (with_reducible refine keeps_mk ?_ rfl rfl rfl) | (intro _ _ _))

end Sys2Proof.Machine
end

