-- ==== Sys2Proof/Laws/KeepsCommit.lean ====
section
/-!
SUPPORT. Laws/KeepsCommit.lean: the operations of Machine/Commit.lean keep the queue, time, the memories and the fuses (Laws/Keeps.lean).
-/
-- One declaration at a time and no linter: the package is compiled as one text under a memory limit.
set_option linter.all false
set_option Elab.async false
namespace Sys2Proof.Machine

theorem keeps_setResult {s0 s : State} {a1 a2 a3} (h : Keeps s0 s) : Keeps s0 (setResult s a1 a2 a3) := by
  exact h.same rfl

theorem keeps_setCommitState {s0 s : State} {a1} (h : Keeps s0 s) : Keeps s0 (setCommitState s a1) := by
  exact h.same rfl

theorem keeps_startCommit {s0 s : State} {a1 a2 a3 a4 a5 a6 a7} (h : Keeps s0 s) : Keeps s0 (startCommit s a1 a2 a3 a4 a5 a6 a7) := by
  exact h.same rfl

theorem keeps_doCommit {s0 s : State} {a1 a2 a3} (h : Keeps s0 s) : Keeps s0 (doCommit s a1 a2 a3) := by
  unfold doCommit
  try dsimp only
  repeat' (first | with_reducible assumption | with_reducible apply keeps_setResult | with_reducible apply keeps_startCommit | with_reducible apply keeps_reply | with_reducible apply keeps_ite | split | (intro _ _ _; dsimp only) | (with_reducible refine keeps_mk ?_ rfl rfl rfl) | (intro _ _ _))

theorem keeps_doRollback {s0 s : State} {a1 a2 a3} (h : Keeps s0 s) : Keeps s0 (doRollback s a1 a2 a3) := by
  unfold doRollback
  try dsimp only
  repeat' (first | with_reducible assumption | with_reducible apply keeps_setResult | with_reducible apply keeps_startCommit | with_reducible apply keeps_reply | with_reducible apply keeps_ite | split | (intro _ _ _; dsimp only) | (with_reducible refine keeps_mk ?_ rfl rfl rfl) | (intro _ _ _))

theorem keeps_revive {s0 s : State} (h : Keeps s0 s) : Keeps s0 (revive s) := by
  unfold revive
  try dsimp only
  repeat' (first | with_reducible assumption | with_reducible apply keeps_setN | with_reducible apply keeps_foldl | with_reducible apply keeps_foldl_fst | with_reducible apply keeps_foldl_snd | with_reducible apply keeps_ite | split | (intro _ _ _; dsimp only) | (with_reducible refine keeps_mk ?_ rfl rfl rfl) | (intro _ _ _))

theorem keeps_validate {s0 s : State} {a1 a2} (h : Keeps s0 s) : Keeps s0 (validate s a1 a2).1 := by
  unfold validate
  try dsimp only
  repeat' (first | with_reducible assumption | with_reducible apply keeps_publishBudgets | with_reducible apply keeps_publishLanes | with_reducible apply keeps_ite | split | (intro _ _ _; dsimp only) | (with_reducible refine keeps_mk ?_ rfl rfl rfl) | (intro _ _ _))

theorem keeps_stageBudgets {s0 s : State} {a1} (h : Keeps s0 s) : Keeps s0 (stageBudgets s a1) := by
  unfold stageBudgets
  try dsimp only
  repeat' (first | with_reducible assumption | with_reducible apply keeps_setBudget | with_reducible apply keeps_foldl | with_reducible apply keeps_foldl_fst | with_reducible apply keeps_foldl_snd | with_reducible apply keeps_ite | split | (intro _ _ _; dsimp only) | (with_reducible refine keeps_mk ?_ rfl rfl rfl) | (intro _ _ _))

theorem keeps_clearBank {s0 s : State} {a1} (h : Keeps s0 s) : Keeps s0 (clearBank s a1) := by
  exact h.same rfl

theorem keeps_commitReply {s0 s : State} {a1 a2 a3} (h : Keeps s0 s) : Keeps s0 (commitReply s a1 a2 a3) := by
  unfold commitReply
  try dsimp only
  repeat' (first | with_reducible assumption | with_reducible apply keeps_reply | with_reducible apply keeps_ite | split | (intro _ _ _; dsimp only) | (with_reducible refine keeps_mk ?_ rfl rfl rfl) | (intro _ _ _))

theorem keeps_failCommit {s0 s : State} {a1 a2} (h : Keeps s0 s) : Keeps s0 (failCommit s a1 a2) := by
  unfold failCommit
  try dsimp only
  repeat' (first | with_reducible assumption | with_reducible apply keeps_setResult | with_reducible apply keeps_commitReply | with_reducible apply keeps_setCommitState | with_reducible apply keeps_ite | split | (intro _ _ _; dsimp only) | (with_reducible refine keeps_mk ?_ rfl rfl rfl) | (intro _ _ _))

theorem keeps_loadImages {s0 s : State} {a1} (h : Keeps s0 s) : Keeps s0 (loadImages s a1) := by
  unfold loadImages
  try dsimp only
  repeat' (first | with_reducible assumption | with_reducible apply keeps_loadImage | with_reducible apply keeps_foldl | with_reducible apply keeps_foldl_fst | with_reducible apply keeps_foldl_snd | with_reducible apply keeps_ite | split | (intro _ _ _; dsimp only) | (with_reducible refine keeps_mk ?_ rfl rfl rfl) | (intro _ _ _))

theorem keeps_keepImages {s0 s : State} (h : Keeps s0 s) : Keeps s0 (keepImages s) := by
  unfold keepImages
  try dsimp only
  repeat' (first | with_reducible assumption | with_reducible apply keeps_freeImages | with_reducible apply keeps_foldl | with_reducible apply keeps_foldl_fst | with_reducible apply keeps_foldl_snd | with_reducible apply keeps_ite | split | (intro _ _ _; dsimp only) | (with_reducible refine keeps_mk ?_ rfl rfl rfl) | (intro _ _ _))

theorem keeps_passCommit {s0 s : State} {a1 a2 a3} (h : Keeps s0 s) : Keeps s0 (passCommit s a1 a2 a3) := by
  unfold passCommit
  try dsimp only
  repeat' (first | with_reducible assumption | with_reducible apply keeps_stageBudgets | with_reducible apply keeps_setResult | with_reducible apply keeps_loadImages | with_reducible apply keeps_formRecord | with_reducible apply keeps_commitReply | with_reducible apply keeps_clearBank | with_reducible apply keeps_setN | with_reducible apply keeps_setCommitState | with_reducible apply keeps_scheduleAt | with_reducible apply keeps_foldl | with_reducible apply keeps_foldl_fst | with_reducible apply keeps_foldl_snd | with_reducible apply keeps_ite | split | (intro _ _ _; dsimp only) | (with_reducible refine keeps_mk ?_ rfl rfl rfl) | (intro _ _ _))

theorem keeps_endValidation {s0 s : State} (h : Keeps s0 s) : Keeps s0 (endValidation s) := by
  unfold endValidation
  split
  · next p hp =>
    split
    · split
      · exact keeps_commitReply (keeps_setResult (keeps_clearBank (keeps_setCommitState (keeps_mk h rfl rfl rfl))))
      · have hv := keeps_validate (a1 := (giveSignals (revive (configWith s p.set))).1) (a2 := (giveSignals (revive (configWith s p.set))).2) h
        dsimp only
        split
        · next hq => rw [hq] at hv; exact keeps_failCommit hv
        · next t hq =>
          rw [hq] at hv
          have ha : Keeps s0 (if role t = 1 ∧ !t.pair.records.isEmpty then drawUpTo t (numF t (pairObj + 5)) else (0, t)).2 := by
            split
            · exact keeps_drawUpTo hv
            · exact hv
          exact keeps_ite (keeps_failCommit ha) (keeps_passCommit ha)
    · exact h
  · exact h

theorem keeps_doDiscard {s0 s : State} (h : Keeps s0 s) : Keeps s0 (doDiscard s).2 := by
  unfold doDiscard
  try dsimp only
  repeat' (first | with_reducible assumption | with_reducible apply keeps_emptyBank | with_reducible apply keeps_formRecord | with_reducible apply keeps_ite | split | (intro _ _ _; dsimp only) | (with_reducible refine keeps_mk ?_ rfl rfl rfl) | (intro _ _ _))

theorem keeps_takeSignals {s0 s : State} (h : Keeps s0 s) : Keeps s0 (takeSignals s) := by
  unfold takeSignals
  try dsimp only
  repeat' (first | with_reducible assumption | with_reducible apply keeps_setCtx | with_reducible apply keeps_foldl | with_reducible apply keeps_foldl_fst | with_reducible apply keeps_foldl_snd | with_reducible apply keeps_ite | split | (intro _ _ _; dsimp only) | (with_reducible refine keeps_mk ?_ rfl rfl rfl) | (intro _ _ _))

theorem keeps_doCancel {s0 s : State} (h : Keeps s0 s) : Keeps s0 (doCancel s).2 := by
  unfold doCancel
  try dsimp only
  repeat' (first | with_reducible assumption | with_reducible apply keeps_setBudget | with_reducible apply keeps_formRecord | with_reducible apply keeps_takeSignals | with_reducible apply keeps_setN | with_reducible apply keeps_setCommitState | with_reducible apply keeps_keepImages | with_reducible apply keeps_foldl | with_reducible apply keeps_foldl_fst | with_reducible apply keeps_foldl_snd | with_reducible apply keeps_ite | split | (intro _ _ _; dsimp only) | (with_reducible refine keeps_mk ?_ rfl rfl rfl) | (intro _ _ _))

theorem keeps_startWriter {s0 s : State} (h : Keeps s0 s) : Keeps s0 (startWriter s) := by
  unfold startWriter
  try dsimp only
  repeat' (first | with_reducible assumption | with_reducible apply keeps_ite | split | (intro _ _ _; dsimp only) | (with_reducible refine keeps_mk ?_ rfl rfl rfl) | (intro _ _ _))

theorem keeps_addVersion {s0 s : State} {a1} (h : Keeps s0 s) : Keeps s0 (addVersion s a1) := by
  unfold addVersion
  try dsimp only
  repeat' (first | with_reducible assumption | with_reducible apply keeps_setN | with_reducible apply keeps_startWriter | with_reducible apply keeps_raise | with_reducible apply keeps_ite | split | (intro _ _ _; dsimp only) | (with_reducible refine keeps_mk ?_ rfl rfl rfl) | (intro _ _ _))

theorem keeps_landed {s0 s : State} (h : Keeps s0 s) : Keeps s0 (landed s) := by
  unfold landed
  try dsimp only
  repeat' (first | with_reducible assumption | with_reducible apply keeps_setF | with_reducible apply keeps_foldl | with_reducible apply keeps_foldl_fst | with_reducible apply keeps_foldl_snd | with_reducible apply keeps_ite | split | (intro _ _ _; dsimp only) | (with_reducible refine keeps_mk ?_ rfl rfl rfl) | (intro _ _ _))

theorem keeps_finishCommit {s0 s : State} {a1} (h : Keeps s0 s) : Keeps s0 (finishCommit s a1) := by
  unfold finishCommit
  try dsimp only
  repeat' (first | with_reducible assumption | with_reducible apply keeps_setBudget | with_reducible apply keeps_bump | with_reducible apply keeps_setN | with_reducible apply keeps_addVersion | with_reducible apply keeps_setCommitState | with_reducible apply keeps_keepImages | with_reducible apply keeps_foldl | with_reducible apply keeps_foldl_fst | with_reducible apply keeps_foldl_snd | with_reducible apply keeps_ite | split | (intro _ _ _; dsimp only) | (with_reducible refine keeps_mk ?_ rfl rfl rfl) | (intro _ _ _))

theorem keeps_takePatch {s0 s : State} {a1} (h : Keeps s0 s) : Keeps s0 (takePatch s a1) := by
  unfold takePatch
  try dsimp only
  repeat' (first | with_reducible assumption | with_reducible apply keeps_setOutlet | with_reducible apply keeps_ite | split | (intro _ _ _; dsimp only) | (with_reducible refine keeps_mk ?_ rfl rfl rfl) | (intro _ _ _))

theorem keeps_returnRef {s0 s : State} {a1 a2} (h : Keeps s0 s) : Keeps s0 (returnRef s a1 a2) := by
  unfold returnRef
  try dsimp only
  repeat' (first | with_reducible assumption | with_reducible apply keeps_takePatch | with_reducible apply keeps_reactAudio | with_reducible apply keeps_startPlace | with_reducible apply keeps_ite | split | (intro _ _ _; dsimp only) | (with_reducible refine keeps_mk ?_ rfl rfl rfl) | (intro _ _ _))

theorem keeps_returnRefs {s0 s : State} {a1 a2} (h : Keeps s0 s) : Keeps s0 (returnRefs s a1 a2) := by
  unfold returnRefs
  try dsimp only
  repeat' (first | with_reducible assumption | with_reducible apply keeps_returnRef | with_reducible apply keeps_foldl | with_reducible apply keeps_foldl_fst | with_reducible apply keeps_foldl_snd | with_reducible apply keeps_ite | split | (intro _ _ _; dsimp only) | (with_reducible refine keeps_mk ?_ rfl rfl rfl) | (intro _ _ _))

theorem keeps_commitTick {s0 s : State} {a1} (h : Keeps s0 s) : Keeps s0 (commitTick s a1) := by
  unfold commitTick
  try dsimp only
  repeat' (first | with_reducible assumption | with_reducible apply keeps_finishCommit | with_reducible apply keeps_returnRefs | with_reducible apply keeps_setCommitState | with_reducible apply keeps_ite | split | (intro _ _ _; dsimp only) | (with_reducible refine keeps_mk ?_ rfl rfl rfl) | (intro _ _ _))

theorem keeps_loseDirectory {s0 s : State} (h : Keeps s0 s) : Keeps s0 (loseDirectory s) := by
  unfold loseDirectory
  try dsimp only
  repeat' (first | with_reducible assumption | with_reducible apply keeps_setN | with_reducible apply keeps_writeLog | with_reducible apply keeps_ite | split | (intro _ _ _; dsimp only) | (with_reducible refine keeps_mk ?_ rfl rfl rfl) | (intro _ _ _))

theorem keeps_setPersisted {s0 s : State} {a1 a2} (h : Keeps s0 s) : Keeps s0 (setPersisted s a1 a2) := by
  exact h.same rfl

theorem keeps_journalDone {s0 s : State} (h : Keeps s0 s) : Keeps s0 (journalDone s) := by
  unfold journalDone
  try dsimp only
  repeat' (first | with_reducible assumption | with_reducible apply keeps_setPersisted | with_reducible apply keeps_startWriter | with_reducible apply keeps_foldl | with_reducible apply keeps_foldl_fst | with_reducible apply keeps_foldl_snd | with_reducible apply keeps_ite | split | (intro _ _ _; dsimp only) | (with_reducible refine keeps_mk ?_ rfl rfl rfl) | (intro _ _ _))

theorem keeps_execJournalWriteDone {s0 s : State} (h : Keeps s0 s) : KeepsOut s0 (execJournalWriteDone s) := by
  unfold execJournalWriteDone
  try dsimp only
  repeat' (first | with_reducible assumption | with_reducible apply keeps_journalDone | with_reducible apply keeps_next | exact keeps_fault _ | with_reducible apply keeps_ite | split | (intro _ _ _; dsimp only) | (with_reducible refine keeps_mk ?_ rfl rfl rfl) | (intro _ _ _))

theorem keeps_doRenumber {s0 s : State} (h : Keeps s0 s) : Keeps s0 (doRenumber s).2 := by
  unfold doRenumber
  try dsimp only
  repeat' (first | with_reducible assumption | with_reducible apply keeps_setCommitState | with_reducible apply keeps_ite | split | (intro _ _ _; dsimp only) | (with_reducible refine keeps_mk ?_ rfl rfl rfl) | (intro _ _ _))

theorem keeps_endRenumber {s0 s : State} (h : Keeps s0 s) : Keeps s0 (endRenumber s) := by
  unfold endRenumber
  try dsimp only
  repeat' (first | with_reducible assumption | with_reducible apply keeps_setN | with_reducible apply keeps_setCommitState | with_reducible apply keeps_foldl | with_reducible apply keeps_foldl_fst | with_reducible apply keeps_foldl_snd | with_reducible apply keeps_ite | split | (intro _ _ _; dsimp only) | (with_reducible refine keeps_mk ?_ rfl rfl rfl) | (intro _ _ _))

theorem keeps_execRenumberEnd {s0 s : State} (h : Keeps s0 s) : KeepsOut s0 (execRenumberEnd s) := by
  unfold execRenumberEnd
  try dsimp only
  repeat' (first | with_reducible assumption | with_reducible apply keeps_endRenumber | with_reducible apply keeps_next | exact keeps_fault _ | with_reducible apply keeps_ite | split | (intro _ _ _; dsimp only) | (with_reducible refine keeps_mk ?_ rfl rfl rfl) | (intro _ _ _))

end Sys2Proof.Machine
end

