-- ==== Sys2Proof/Laws/KeepsRings.lean ====
section
/-!
SUPPORT. Laws/KeepsRings.lean: the operations of Machine/Rings.lean keep the queue, time, the memories and the fuses (Laws/Keeps.lean).
-/
-- One declaration at a time and no linter: the package is compiled as one text under a memory limit.
set_option linter.all false
set_option Elab.async false
namespace Sys2Proof.Machine

theorem keeps_setRing {s0 s : State} {a1 a2} (h : Keeps s0 s) : Keeps s0 (setRing s a1 a2) := by
  exact h.same rfl

theorem keeps_entryDone {s0 s : State} {a1 a2} (h : Keeps s0 s) : Keeps s0 (entryDone s a1 a2) := by
  unfold entryDone
  try dsimp only
  repeat' (first | with_reducible assumption | with_reducible apply keeps_bump | with_reducible apply keeps_setRing | with_reducible apply keeps_setN | with_reducible apply keeps_hostWrite | with_reducible apply keeps_ite | split | (intro _ _ _; dsimp only) | (with_reducible refine keeps_mk ?_ rfl rfl rfl) | (intro _ _ _))

theorem keeps_sendBurst {s0 s : State} (h : Keeps s0 s) : Keeps s0 (sendBurst s) := by
  unfold sendBurst
  try dsimp only
  repeat' (first | with_reducible assumption | with_reducible apply keeps_sendMsix | with_reducible apply keeps_setRing | with_reducible apply keeps_foldl | with_reducible apply keeps_foldl_fst | with_reducible apply keeps_foldl_snd | with_reducible apply keeps_ite | split | (intro _ _ _; dsimp only) | (with_reducible refine keeps_mk ?_ rfl rfl rfl) | (intro _ _ _))

theorem keeps_egressRing {s0 s : State} {a1 a2 a3 a4} (h : Keeps s0 s) : Keeps s0 (egressRing s a1 a2 a3 a4) := by
  unfold egressRing
  try dsimp only
  repeat' (first | with_reducible assumption | with_reducible apply keeps_bump | with_reducible apply keeps_setRing | with_reducible apply keeps_raise | with_reducible apply keeps_entryDone | with_reducible apply keeps_hostWrite | with_reducible apply keeps_ite | split | (intro _ _ _; dsimp only) | (with_reducible refine keeps_mk ?_ rfl rfl rfl) | (intro _ _ _))

theorem keeps_fetchEntry {s0 : State} {n f : Nat} (k : Nat) : ∀ {s : State}, Keeps s0 s → Keeps s0 (fetchEntry s n f k) := by
  induction k with
  | zero => intro s h; exact h
  | succ k ih =>
    intro s h
    unfold fetchEntry
    dsimp only
    split
    · exact h
    · split
      · exact ih (keeps_bump (keeps_setN h))
      · split
        · exact keeps_entryDone (keeps_setRing h)
        · exact h

theorem keeps_tickRing {s0 s : State} {n} (h : Keeps s0 s) : Keeps s0 (tickRing s n) := by
  unfold tickRing
  dsimp only
  exact keeps_ite (keeps_fetchEntry _ (keeps_ite (keeps_setRing (keeps_moveUnit h)) h)) (keeps_ite (keeps_setRing (keeps_moveUnit h)) h)

theorem keeps_ingestRing {s0 s : State} {a1 a2 a3} (h : Keeps s0 s) : Keeps s0 (ingestRing s a1 a2 a3) := by
  unfold ingestRing
  try dsimp only
  repeat' (first | with_reducible assumption | with_reducible apply keeps_bump | with_reducible apply keeps_setRing | with_reducible apply keeps_raise | with_reducible apply keeps_putSig | with_reducible apply keeps_foldl | with_reducible apply keeps_foldl_fst | with_reducible apply keeps_foldl_snd | with_reducible apply keeps_ite | split | (intro _ _ _; dsimp only) | (with_reducible refine keeps_mk ?_ rfl rfl rfl) | (intro _ _ _))

theorem keeps_ringEntered {s0 s : State} {a1 a2} (h : Keeps s0 s) : Keeps s0 (ringEntered s a1 a2) := by
  unfold ringEntered
  try dsimp only
  repeat' (first | with_reducible assumption | with_reducible apply keeps_clearSig | with_reducible apply keeps_setRing | with_reducible apply keeps_setN | with_reducible apply keeps_fadeFrom | with_reducible apply keeps_foldl | with_reducible apply keeps_foldl_fst | with_reducible apply keeps_foldl_snd | with_reducible apply keeps_ite | split | (intro _ _ _; dsimp only) | (with_reducible refine keeps_mk ?_ rfl rfl rfl) | (intro _ _ _))

theorem keeps_faultRings {s0 s : State} (h : Keeps s0 s) : Keeps s0 (faultRings s) := by
  unfold faultRings
  try dsimp only
  repeat' (first | with_reducible assumption | with_reducible apply keeps_faultDue | with_reducible apply keeps_foldl | with_reducible apply keeps_foldl_fst | with_reducible apply keeps_foldl_snd | with_reducible apply keeps_ite | split | (intro _ _ _; dsimp only) | (with_reducible refine keeps_mk ?_ rfl rfl rfl) | (intro _ _ _))

theorem keeps_execRingDmaError {s0 s : State} {a0} (h : Keeps s0 s) : KeepsOut s0 (execRingDmaError a0 s) := by
  unfold execRingDmaError
  try dsimp only
  repeat' (first | with_reducible assumption | with_reducible apply keeps_faultRings | with_reducible apply keeps_next | exact keeps_fault _ | with_reducible apply keeps_ite | split | (intro _ _ _; dsimp only) | (with_reducible refine keeps_mk ?_ rfl rfl rfl) | (intro _ _ _))

theorem keeps_badDoorbell {s0 s : State} {a1 a2} (h : Keeps s0 s) : Keeps s0 (badDoorbell s a1 a2) := by
  unfold badDoorbell
  try dsimp only
  repeat' (first | with_reducible assumption | with_reducible apply keeps_bump | with_reducible apply keeps_raise | with_reducible apply keeps_ite | split | (intro _ _ _; dsimp only) | (with_reducible refine keeps_mk ?_ rfl rfl rfl) | (intro _ _ _))

theorem keeps_doorbell {s0 s : State} {a1 a2} (h : Keeps s0 s) : Keeps s0 (doorbell s a1 a2) := by
  unfold doorbell
  try dsimp only
  repeat' (first | with_reducible assumption | with_reducible apply keeps_setRing | with_reducible apply keeps_badDoorbell | with_reducible apply keeps_setPair | with_reducible apply keeps_ite | split | (intro _ _ _; dsimp only) | (with_reducible refine keeps_mk ?_ rfl rfl rfl) | (intro _ _ _))

theorem keeps_execSubmissionDoorbell {s0 s : State} {a0 a1 a2} (h : Keeps s0 s) : KeepsOut s0 (execSubmissionDoorbell a0 a1 a2 s) := by
  unfold execSubmissionDoorbell
  try dsimp only
  repeat' (first | with_reducible assumption | with_reducible apply keeps_hostStores | with_reducible apply keeps_doorbell | with_reducible apply keeps_next | exact keeps_fault _ | with_reducible apply keeps_ite | split | (intro _ _ _; dsimp only) | (with_reducible refine keeps_mk ?_ rfl rfl rfl) | (intro _ _ _))

theorem keeps_execCompletionDoorbell {s0 s : State} {a0 a1} (h : Keeps s0 s) : KeepsOut s0 (execCompletionDoorbell a0 a1 s) := by
  unfold execCompletionDoorbell
  try dsimp only
  repeat' (first | with_reducible assumption | with_reducible apply keeps_doorbell | with_reducible apply keeps_next | exact keeps_fault _ | with_reducible apply keeps_ite | split | (intro _ _ _; dsimp only) | (with_reducible refine keeps_mk ?_ rfl rfl rfl) | (intro _ _ _))

theorem keeps_execRecordDoorbell {s0 s : State} {a0 a1} (h : Keeps s0 s) : KeepsOut s0 (execRecordDoorbell a0 a1 s) := by
  unfold execRecordDoorbell
  try dsimp only
  repeat' (first | with_reducible assumption | with_reducible apply keeps_doorbell | with_reducible apply keeps_next | exact keeps_fault _ | with_reducible apply keeps_ite | split | (intro _ _ _; dsimp only) | (with_reducible refine keeps_mk ?_ rfl rfl rfl) | (intro _ _ _))

theorem keeps_execPlaybackDoorbell {s0 s : State} {a0 a1 a2} (h : Keeps s0 s) : KeepsOut s0 (execPlaybackDoorbell a0 a1 a2 s) := by
  unfold execPlaybackDoorbell
  try dsimp only
  repeat' (first | with_reducible assumption | with_reducible apply keeps_hostStores | with_reducible apply keeps_doorbell | with_reducible apply keeps_next | exact keeps_fault _ | with_reducible apply keeps_ite | split | (intro _ _ _; dsimp only) | (with_reducible refine keeps_mk ?_ rfl rfl rfl) | (intro _ _ _))

theorem keeps_enablePair {s0 s : State} {a1} (h : Keeps s0 s) : Keeps s0 (enablePair s a1) := by
  exact h.same rfl

theorem keeps_disablePair {s0 s : State} {a1} (h : Keeps s0 s) : Keeps s0 (disablePair s a1) := by
  unfold disablePair
  try dsimp only
  repeat' (first | with_reducible assumption | with_reducible apply keeps_flushPair | with_reducible apply keeps_setPair | with_reducible apply keeps_ite | split | (intro _ _ _; dsimp only) | (with_reducible refine keeps_mk ?_ rfl rfl rfl) | (intro _ _ _))

theorem keeps_execCommandPairEnable {s0 s : State} {a0} (h : Keeps s0 s) : KeepsOut s0 (execCommandPairEnable a0 s) := by
  unfold execCommandPairEnable
  try dsimp only
  repeat' (first | with_reducible assumption | with_reducible apply keeps_enablePair | with_reducible apply keeps_next | exact keeps_fault _ | with_reducible apply keeps_ite | split | (intro _ _ _; dsimp only) | (with_reducible refine keeps_mk ?_ rfl rfl rfl) | (intro _ _ _))

theorem keeps_execCommandPairDisable {s0 s : State} {a0} (h : Keeps s0 s) : KeepsOut s0 (execCommandPairDisable a0 s) := by
  unfold execCommandPairDisable
  try dsimp only
  repeat' (first | with_reducible assumption | with_reducible apply keeps_disablePair | with_reducible apply keeps_next | exact keeps_fault _ | with_reducible apply keeps_ite | split | (intro _ _ _; dsimp only) | (with_reducible refine keeps_mk ?_ rfl rfl rfl) | (intro _ _ _))

theorem keeps_raisePair {s0 s : State} {a1 a2} (h : Keeps s0 s) : Keeps s0 (raisePair s a1 a2) := by
  unfold raisePair
  try dsimp only
  repeat' (first | with_reducible assumption | with_reducible apply keeps_raise | with_reducible apply keeps_ite | split | (intro _ _ _; dsimp only) | (with_reducible refine keeps_mk ?_ rfl rfl rfl) | (intro _ _ _))

theorem keeps_pairOff {s0 s : State} {a1 a2} (h : Keeps s0 s) : Keeps s0 (pairOff s a1 a2) := by
  unfold pairOff
  try dsimp only
  repeat' (first | with_reducible assumption | with_reducible apply keeps_closeSession | with_reducible apply keeps_setPair | with_reducible apply keeps_raisePair | with_reducible apply keeps_ite | split | (intro _ _ _; dsimp only) | (with_reducible refine keeps_mk ?_ rfl rfl rfl) | (intro _ _ _))

theorem keeps_startPair {s0 s : State} {a1} (h : Keeps s0 s) : Keeps s0 (startPair s a1) := by
  unfold startPair
  try dsimp only
  repeat' (first | with_reducible assumption | with_reducible apply keeps_openSession | with_reducible apply keeps_setPair | with_reducible apply keeps_raisePair | with_reducible apply keeps_ite | split | (intro _ _ _; dsimp only) | (with_reducible refine keeps_mk ?_ rfl rfl rfl) | (intro _ _ _))

theorem keeps_drainPair {s0 s : State} {a1} (h : Keeps s0 s) : Keeps s0 (drainPair s a1) := by
  unfold drainPair
  try dsimp only
  repeat' (first | with_reducible assumption | with_reducible apply keeps_startPair | with_reducible apply keeps_closeSession | with_reducible apply keeps_pairOff | with_reducible apply keeps_ite | split | (intro _ _ _; dsimp only) | (with_reducible refine keeps_mk ?_ rfl rfl rfl) | (intro _ _ _))

theorem keeps_tickPair {s0 s : State} {a1} (h : Keeps s0 s) : Keeps s0 (tickPair s a1) := by
  unfold tickPair
  try dsimp only
  repeat' (first | with_reducible assumption | with_reducible apply keeps_startPair | with_reducible apply keeps_drainPair | with_reducible apply keeps_setPair | with_reducible apply keeps_raisePair | with_reducible apply keeps_ite | split | (intro _ _ _; dsimp only) | (with_reducible refine keeps_mk ?_ rfl rfl rfl) | (intro _ _ _))

theorem keeps_dropHost {s0 s : State} (h : Keeps s0 s) : Keeps s0 (dropHost s) := by
  unfold dropHost
  try dsimp only
  repeat' (first | with_reducible assumption | with_reducible apply keeps_pairOff | with_reducible apply keeps_faultRings | with_reducible apply keeps_foldl | with_reducible apply keeps_foldl_fst | with_reducible apply keeps_foldl_snd | with_reducible apply keeps_ite | split | (intro _ _ _; dsimp only) | (with_reducible refine keeps_mk ?_ rfl rfl rfl) | (intro _ _ _))

theorem keeps_execPcieFunctionReset {s0 s : State} (h : Keeps s0 s) : KeepsOut s0 (execPcieFunctionReset s) := by
  unfold execPcieFunctionReset
  try dsimp only
  repeat' (first | with_reducible assumption | with_reducible apply keeps_dropHost | with_reducible apply keeps_next | exact keeps_fault _ | with_reducible apply keeps_ite | split | (intro _ _ _; dsimp only) | (with_reducible refine keeps_mk ?_ rfl rfl rfl) | (intro _ _ _))

theorem keeps_execPcieLinkDown {s0 s : State} (h : Keeps s0 s) : KeepsOut s0 (execPcieLinkDown s) := by
  unfold execPcieLinkDown
  try dsimp only
  repeat' (first | with_reducible assumption | with_reducible apply keeps_dropHost | with_reducible apply keeps_next | exact keeps_fault _ | with_reducible apply keeps_ite | split | (intro _ _ _; dsimp only) | (with_reducible refine keeps_mk ?_ rfl rfl rfl) | (intro _ _ _))

theorem keeps_execBusMasterDisable {s0 s : State} (h : Keeps s0 s) : KeepsOut s0 (execBusMasterDisable s) := by
  unfold execBusMasterDisable
  try dsimp only
  repeat' (first | with_reducible assumption | with_reducible apply keeps_dropHost | with_reducible apply keeps_next | exact keeps_fault _ | with_reducible apply keeps_ite | split | (intro _ _ _; dsimp only) | (with_reducible refine keeps_mk ?_ rfl rfl rfl) | (intro _ _ _))

theorem keeps_programKey {s0 s : State} {k} (h : Keeps s0 s) : Keeps s0 (programKey s k) := by
  unfold programKey
  dsimp only
  split
  · next hc =>
    have hp : (keySlot s k).programmed = false := by simpa using hc.2.2.1
    have hs : ∀ x : KeySlot, x.revoked = (keySlot s k).revoked → keyKept (keySlot s k) x :=
      fun x e => ⟨fun p => absurd (hp.symm.trans p) Bool.false_ne_true, fun p => e.trans p⟩
    exact keeps_key h (hs _ rfl) (fun _ _ => hp)
  · exact h

theorem keeps_execOtpKeyProgram {s0 s : State} {a0} (h : Keeps s0 s) : KeepsOut s0 (execOtpKeyProgram a0 s) := by
  unfold execOtpKeyProgram
  try dsimp only
  repeat' (first | with_reducible assumption | with_reducible apply keeps_programKey | with_reducible apply keeps_next | exact keeps_fault _ | with_reducible apply keeps_ite | split | (intro _ _ _; dsimp only) | (with_reducible refine keeps_mk ?_ rfl rfl rfl) | (intro _ _ _))

theorem keeps_execOtpProgramDone {s0 s : State} {k} (h : Keeps s0 s) : KeepsOut s0 (execOtpProgramDone k s) := by
  unfold execOtpProgramDone
  dsimp only
  apply keeps_next
  split
  · exact keeps_key h ⟨fun _ => ⟨rfl, rfl, rfl⟩, id⟩ (fun _ p => by cases p)
  · exact h

theorem keeps_revokeKey {s0 s : State} {k} (h : Keeps s0 s) : Keeps s0 (revokeKey s k) := by
  unfold revokeKey
  split
  · exact keeps_key h ⟨fun p => ⟨p, rfl, rfl⟩, fun _ => rfl⟩ (fun p => p)
  · exact h

theorem keeps_execOtpKeyRevoke {s0 s : State} {a0} (h : Keeps s0 s) : KeepsOut s0 (execOtpKeyRevoke a0 s) := by
  unfold execOtpKeyRevoke
  try dsimp only
  repeat' (first | with_reducible assumption | with_reducible apply keeps_revokeKey | with_reducible apply keeps_next | exact keeps_fault _ | with_reducible apply keeps_ite | split | (intro _ _ _; dsimp only) | (with_reducible refine keeps_mk ?_ rfl rfl rfl) | (intro _ _ _))

theorem keeps_programNet {s0 s : State} {k} (h : Keeps s0 s) : Keeps s0 (programNet s k) := by
  unfold programNet
  dsimp only
  split
  · next hc => exact keeps_net h (by simpa using hc.2.2)
  · exact h

theorem keeps_pairWrite {s0 s : State} {a1 a2 a3} (h : Keeps s0 s) : Keeps s0 (pairWrite s a1 a2 a3) := by
  unfold pairWrite
  try dsimp only
  repeat' (first | with_reducible assumption | with_reducible apply keeps_enablePair | with_reducible apply keeps_disablePair | with_reducible apply keeps_setPair | with_reducible apply keeps_ite | split | (intro _ _ _; dsimp only) | (with_reducible refine keeps_mk ?_ rfl rfl rfl) | (intro _ _ _))

theorem keeps_msixWrite {s0 s : State} {a1 a2} (h : Keeps s0 s) : Keeps s0 (msixWrite s a1 a2) := by
  unfold msixWrite
  try dsimp only
  repeat' (first | with_reducible assumption | with_reducible apply keeps_sendMsix | with_reducible apply keeps_ite | split | (intro _ _ _; dsimp only) | (with_reducible refine keeps_mk ?_ rfl rfl rfl) | (intro _ _ _))

theorem keeps_barWord {s0 s : State} {a1 a2} (h : Keeps s0 s) : Keeps s0 (barWord s a1 a2) := by
  unfold barWord
  try dsimp only
  repeat' (first | with_reducible assumption | with_reducible apply keeps_pairWrite | with_reducible apply keeps_programNet | with_reducible apply keeps_msixWrite | with_reducible apply keeps_doorbell | with_reducible apply keeps_revokeKey | with_reducible apply keeps_programKey | with_reducible apply keeps_ite | split | (intro _ _ _; dsimp only) | (with_reducible refine keeps_mk ?_ rfl rfl rfl) | (intro _ _ _))

theorem keeps_execBar0RegisterWrite {s0 s : State} {a0 a1 a2} (h : Keeps s0 s) : KeepsOut s0 (execBar0RegisterWrite a0 a1 a2 s) := by
  unfold execBar0RegisterWrite
  try dsimp only
  repeat' (first | with_reducible assumption | with_reducible apply keeps_barWord | with_reducible apply keeps_next | exact keeps_fault _ | with_reducible apply keeps_ite | split | (intro _ _ _; dsimp only) | (with_reducible refine keeps_mk ?_ rfl rfl rfl) | (intro _ _ _))

end Sys2Proof.Machine
end

