-- ==== Sys2Proof/Laws/KeepsApply.lean ====
section
/-!
SUPPORT. Laws/KeepsApply.lean: the operations of Machine/Apply.lean keep the queue, time, the memories and the fuses (Laws/Keeps.lean).
-/
-- One declaration at a time and no linter: the package is compiled as one text under a memory limit.
set_option linter.all false
set_option Elab.async false
namespace Sys2Proof.Machine

theorem keeps_startStrip {s0 s : State} {a1} (h : Keeps s0 s) : Keeps s0 (startStrip s a1) := by
  exact h.same rfl

theorem keeps_startProc {s0 s : State} {a1} (h : Keeps s0 s) : Keeps s0 (startProc s a1) := by
  exact h.same rfl

theorem keeps_restNodes {s0 s : State} {a1} (h : Keeps s0 s) : Keeps s0 (restNodes s a1) := by
  unfold restNodes
  try dsimp only
  repeat' (first | with_reducible assumption | with_reducible apply keeps_putRamp | with_reducible apply keeps_foldl | with_reducible apply keeps_foldl_fst | with_reducible apply keeps_foldl_snd | with_reducible apply keeps_ite | split | (intro _ _ _; dsimp only) | (with_reducible refine keeps_mk ?_ rfl rfl rfl) | (intro _ _ _))

theorem keeps_startTile {s0 s : State} {a1} (h : Keeps s0 s) : Keeps s0 (startTile s a1) := by
  unfold startTile
  try dsimp only
  repeat' (first | with_reducible assumption | with_reducible apply keeps_restNodes | with_reducible apply keeps_startProc | with_reducible apply keeps_startStrip | with_reducible apply keeps_startPlace | with_reducible apply keeps_foldl | with_reducible apply keeps_foldl_fst | with_reducible apply keeps_foldl_snd | with_reducible apply keeps_ite | split | (intro _ _ _; dsimp only) | (with_reducible refine keeps_mk ?_ rfl rfl rfl) | (intro _ _ _))

theorem keeps_tileEntered {s0 s : State} {a1 a2} (h : Keeps s0 s) : Keeps s0 (tileEntered s a1 a2) := by
  unfold tileEntered
  try dsimp only
  repeat' (first | with_reducible assumption | with_reducible apply keeps_clearSig | with_reducible apply keeps_startTile | with_reducible apply keeps_fadeFrom | with_reducible apply keeps_foldl | with_reducible apply keeps_foldl_fst | with_reducible apply keeps_foldl_snd | with_reducible apply keeps_ite | split | (intro _ _ _; dsimp only) | (with_reducible refine keeps_mk ?_ rfl rfl rfl) | (intro _ _ _))

theorem keeps_setCap {s0 s : State} {a1} (h : Keeps s0 s) : Keeps s0 (setCap s a1) := by
  exact h.same rfl

theorem keeps_endReadback {s0 s : State} {a1} (h : Keeps s0 s) : Keeps s0 (endReadback s a1) := by
  unfold endReadback
  try dsimp only
  repeat' (first | with_reducible assumption | with_reducible apply keeps_setN | with_reducible apply keeps_setOutlet | with_reducible apply keeps_foldl | with_reducible apply keeps_foldl_fst | with_reducible apply keeps_foldl_snd | with_reducible apply keeps_ite | split | (intro _ _ _; dsimp only) | (with_reducible refine keeps_mk ?_ rfl rfl rfl) | (intro _ _ _))

theorem keeps_abortReadback {s0 s : State} (h : Keeps s0 s) : Keeps s0 (abortReadback s) := by
  unfold abortReadback
  try dsimp only
  repeat' (first | with_reducible assumption | with_reducible apply keeps_endReadback | with_reducible apply keeps_ite | split | (intro _ _ _; dsimp only) | (with_reducible refine keeps_mk ?_ rfl rfl rfl) | (intro _ _ _))

theorem keeps_captureEntered {s0 s : State} {a1} (h : Keeps s0 s) : Keeps s0 (captureEntered s a1) := by
  unfold captureEntered
  try dsimp only
  repeat' (first | with_reducible assumption | with_reducible apply keeps_setN | with_reducible apply keeps_abortReadback | with_reducible apply keeps_setCap | with_reducible apply keeps_ite | split | (intro _ _ _; dsimp only) | (with_reducible refine keeps_mk ?_ rfl rfl rfl) | (intro _ _ _))

theorem keeps_captureFrame {s0 s : State} {a1 a2} (h : Keeps s0 s) : Keeps s0 (captureFrame s a1 a2) := by
  unfold captureFrame
  try dsimp only
  repeat' (first | with_reducible assumption | with_reducible apply keeps_bump | with_reducible apply keeps_setCap | with_reducible apply keeps_ite | split | (intro _ _ _; dsimp only) | (with_reducible refine keeps_mk ?_ rfl rfl rfl) | (intro _ _ _))

theorem keeps_drainOne {s0 s : State} {a1} (h : Keeps s0 s) : Keeps s0 (drainOne s a1) := by
  exact h.same rfl

theorem keeps_drainCapture {s0 s : State} (h : Keeps s0 s) : Keeps s0 (drainCapture s) := by
  unfold drainCapture
  try dsimp only
  repeat' (first | with_reducible assumption | with_reducible apply keeps_setN | with_reducible apply keeps_drainOne | with_reducible apply keeps_setCap | with_reducible apply keeps_foldl | with_reducible apply keeps_foldl_fst | with_reducible apply keeps_foldl_snd | with_reducible apply keeps_ite | split | (intro _ _ _; dsimp only) | (with_reducible refine keeps_mk ?_ rfl rfl rfl) | (intro _ _ _))

theorem keeps_doReadback {s0 s : State} (h : Keeps s0 s) : Keeps s0 (doReadback s).2 := by
  unfold doReadback
  try dsimp only
  repeat' (first | with_reducible assumption | with_reducible apply keeps_setCap | with_reducible apply keeps_ite | split | (intro _ _ _; dsimp only) | (with_reducible refine keeps_mk ?_ rfl rfl rfl) | (intro _ _ _))

theorem keeps_tickReadback {s0 s : State} {a1} (h : Keeps s0 s) : Keeps s0 (tickReadback s a1) := by
  unfold tickReadback
  try dsimp only
  repeat' (first | with_reducible assumption | with_reducible apply keeps_setN | with_reducible apply keeps_endReadback | with_reducible apply keeps_setOutlet | with_reducible apply keeps_setCap | with_reducible apply keeps_foldl | with_reducible apply keeps_foldl_fst | with_reducible apply keeps_foldl_snd | with_reducible apply keeps_ite | split | (intro _ _ _; dsimp only) | (with_reducible refine keeps_mk ?_ rfl rfl rfl) | (intro _ _ _))

theorem keeps_stepReadback {s0 s : State} {a1} (h : Keeps s0 s) : Keeps s0 (stepReadback s a1) := by
  unfold stepReadback
  try dsimp only
  repeat' (first | with_reducible assumption | with_reducible apply keeps_setCap | with_reducible apply keeps_ite | split | (intro _ _ _; dsimp only) | (with_reducible refine keeps_mk ?_ rfl rfl rfl) | (intro _ _ _))

theorem keeps_setBridge {s0 s : State} {a1 a2} (h : Keeps s0 s) : Keeps s0 (setBridge s a1 a2) := by
  exact h.same rfl

theorem keeps_bridgeEntered {s0 s : State} {a1 a2} (h : Keeps s0 s) : Keeps s0 (bridgeEntered s a1 a2) := by
  unfold bridgeEntered
  try dsimp only
  repeat' (first | with_reducible assumption | with_reducible apply keeps_clearSig | with_reducible apply keeps_setBridge | with_reducible apply keeps_setN | with_reducible apply keeps_fadeFrom | with_reducible apply keeps_ite | split | (intro _ _ _; dsimp only) | (with_reducible refine keeps_mk ?_ rfl rfl rfl) | (intro _ _ _))

theorem keeps_bridgeTake {s0 s : State} {a1 a2} (h : Keeps s0 s) : Keeps s0 (bridgeTake s a1 a2) := by
  unfold bridgeTake
  try dsimp only
  repeat' (first | with_reducible assumption | with_reducible apply keeps_setBridge | with_reducible apply keeps_foldl | with_reducible apply keeps_foldl_fst | with_reducible apply keeps_foldl_snd | with_reducible apply keeps_ite | split | (intro _ _ _; dsimp only) | (with_reducible refine keeps_mk ?_ rfl rfl rfl) | (intro _ _ _))

theorem keeps_bridgeStart {s0 s : State} {a1} (h : Keeps s0 s) : Keeps s0 (bridgeStart s a1) := by
  unfold bridgeStart
  try dsimp only
  repeat' (first | with_reducible assumption | with_reducible apply keeps_drawUpTo | with_reducible apply keeps_setBridge | with_reducible apply keeps_ite | split | (intro _ _ _; dsimp only) | (with_reducible refine keeps_mk ?_ rfl rfl rfl) | (intro _ _ _))

theorem keeps_bridgeGive {s0 s : State} {a1 a2} (h : Keeps s0 s) : Keeps s0 (bridgeGive s a1 a2) := by
  unfold bridgeGive
  try dsimp only
  repeat' (first | with_reducible assumption | with_reducible apply keeps_bridgeStart | with_reducible apply keeps_setBridge | with_reducible apply keeps_putSig | with_reducible apply keeps_foldl | with_reducible apply keeps_foldl_fst | with_reducible apply keeps_foldl_snd | with_reducible apply keeps_ite | split | (intro _ _ _; dsimp only) | (with_reducible refine keeps_mk ?_ rfl rfl rfl) | (intro _ _ _))

theorem keeps_execBridgeRatioSettled {s0 s : State} {a0 a1} (h : Keeps s0 s) : KeepsOut s0 (execBridgeRatioSettled a0 a1 s) := by
  unfold execBridgeRatioSettled
  try dsimp only
  repeat' (first | with_reducible assumption | with_reducible apply keeps_setBridge | with_reducible apply keeps_setN | with_reducible apply keeps_next | exact keeps_fault _ | with_reducible apply keeps_ite | split | (intro _ _ _; dsimp only) | (with_reducible refine keeps_mk ?_ rfl rfl rfl) | (intro _ _ _))

theorem keeps_unitEntered {s0 s : State} {a1 a2} (h : Keeps s0 s) : Keeps s0 (unitEntered s a1 a2) := by
  unfold unitEntered
  try dsimp only
  repeat' (first | with_reducible assumption | with_reducible apply keeps_pairEntered | with_reducible apply keeps_bridgeEntered | with_reducible apply keeps_tileEntered | with_reducible apply keeps_ctxEntered | with_reducible apply keeps_ringEntered | with_reducible apply keeps_portEntered | with_reducible apply keeps_captureEntered | with_reducible apply keeps_ite | split | (intro _ _ _; dsimp only) | (with_reducible refine keeps_mk ?_ rfl rfl rfl) | (intro _ _ _))

theorem keeps_moveOn {s0 s : State} {a1} (h : Keeps s0 s) : Keeps s0 (moveOn s a1) := by
  unfold moveOn
  try dsimp only
  repeat' (first | with_reducible assumption | with_reducible apply keeps_unitEntered | with_reducible apply keeps_moveUnit | with_reducible apply keeps_tickUnit | with_reducible apply keeps_ite | split | (intro _ _ _; dsimp only) | (with_reducible refine keeps_mk ?_ rfl rfl rfl) | (intro _ _ _))

theorem keeps_stopFaulted {s0 s : State} {a1} (h : Keeps s0 s) : Keeps s0 (stopFaulted s a1) := by
  unfold stopFaulted
  try dsimp only
  repeat' (first | with_reducible assumption | with_reducible apply keeps_faultUnit | with_reducible apply keeps_unitEntered | with_reducible apply keeps_ite | split | (intro _ _ _; dsimp only) | (with_reducible refine keeps_mk ?_ rfl rfl rfl) | (intro _ _ _))

theorem keeps_domainEntered {s0 s : State} {a1 a2} (h : Keeps s0 s) : Keeps s0 (domainEntered s a1 a2) := by
  unfold domainEntered
  try dsimp only
  repeat' (first | with_reducible assumption | with_reducible apply keeps_lowOutputs | with_reducible apply keeps_setN | with_reducible apply keeps_startDpll | with_reducible apply keeps_setDom | with_reducible apply keeps_ite | split | (intro _ _ _; dsimp only) | (with_reducible refine keeps_mk ?_ rfl rfl rfl) | (intro _ _ _))

theorem keeps_moveDomain {s0 s : State} {a1 a2} (h : Keeps s0 s) : Keeps s0 (moveDomain s a1 a2) := by
  unfold moveDomain
  try dsimp only
  repeat' (first | with_reducible assumption | with_reducible apply keeps_domainEntered | with_reducible apply keeps_tickUnit | with_reducible apply keeps_ite | split | (intro _ _ _; dsimp only) | (with_reducible refine keeps_mk ?_ rfl rfl rfl) | (intro _ _ _))

theorem keeps_moveTb {s0 s : State} {a1} (h : Keeps s0 s) : Keeps s0 (moveTb s a1) := by
  unfold moveTb
  try dsimp only
  repeat' (first | with_reducible assumption | with_reducible apply keeps_startTb | with_reducible apply keeps_tickUnit | with_reducible apply keeps_ite | split | (intro _ _ _; dsimp only) | (with_reducible refine keeps_mk ?_ rfl rfl rfl) | (intro _ _ _))

theorem keeps_placeReact {s0 s : State} {a1 a2} (h : Keeps s0 s) : Keeps s0 (placeReact s a1 a2) := by
  unfold placeReact
  try dsimp only
  repeat' (first | with_reducible assumption | with_reducible apply keeps_loadContext | with_reducible apply keeps_setN | with_reducible apply keeps_coreChange | with_reducible apply keeps_startPlace | with_reducible apply keeps_ite | split | (intro _ _ _; dsimp only) | (with_reducible refine keeps_mk ?_ rfl rfl rfl) | (intro _ _ _))

theorem keeps_reactTick {s0 s : State} {a1 a2} (h : Keeps s0 s) : Keeps s0 (reactTick s a1 a2) := by
  unfold reactTick
  try dsimp only
  repeat' (first | with_reducible assumption | with_reducible apply keeps_placeReact | with_reducible apply keeps_request | with_reducible apply keeps_takePatch | with_reducible apply keeps_abortReadback | with_reducible apply keeps_raise | with_reducible apply keeps_unmutePairs | with_reducible apply keeps_stopTb | with_reducible apply keeps_setPort | with_reducible apply keeps_reactClock | with_reducible apply keeps_ite | split | (intro _ _ _; dsimp only) | (with_reducible refine keeps_mk ?_ rfl rfl rfl) | (intro _ _ _))

theorem keeps_applyTick {s0 s : State} {a1} (h : Keeps s0 s) : Keeps s0 (applyTick s a1) := by
  unfold applyTick
  try dsimp only
  repeat' (first | with_reducible assumption | with_reducible apply keeps_unsuspend | with_reducible apply keeps_putLanded | with_reducible apply keeps_reactTick | with_reducible apply keeps_foldl | with_reducible apply keeps_foldl_fst | with_reducible apply keeps_foldl_snd | with_reducible apply keeps_ite | split | (intro _ _ _; dsimp only) | (with_reducible refine keeps_mk ?_ rfl rfl rfl) | (intro _ _ _))

theorem keeps_landOthers {s0 s : State} {a1 a2} (h : Keeps s0 s) : Keeps s0 (landOthers s a1 a2) := by
  unfold landOthers
  try dsimp only
  repeat' (first | with_reducible assumption | with_reducible apply keeps_applyTick | with_reducible apply keeps_dropDue | with_reducible apply keeps_ite | split | (intro _ _ _; dsimp only) | (with_reducible refine keeps_mk ?_ rfl rfl rfl) | (intro _ _ _))

theorem keeps_landTicks {s0 s : State} {a1} (h : Keeps s0 s) : Keeps s0 (landTicks s a1) := by
  unfold landTicks
  try dsimp only
  repeat' (first | with_reducible assumption | with_reducible apply keeps_landOthers | with_reducible apply keeps_ite | split | (intro _ _ _; dsimp only) | (with_reducible refine keeps_mk ?_ rfl rfl rfl) | (intro _ _ _))

theorem keeps_landWithin {s0 s : State} {a1 a2} (h : Keeps s0 s) : Keeps s0 (landWithin s a1 a2) := by
  unfold landWithin
  try dsimp only
  repeat' (first | with_reducible assumption | with_reducible apply keeps_landOthers | with_reducible apply keeps_ite | split | (intro _ _ _; dsimp only) | (with_reducible refine keeps_mk ?_ rfl rfl rfl) | (intro _ _ _))

theorem keeps_moveUnits {s0 s : State} {a1} (h : Keeps s0 s) : Keeps s0 (moveUnits s a1) := by
  unfold moveUnits
  try dsimp only
  repeat' (first | with_reducible assumption | with_reducible apply keeps_moveDomain | with_reducible apply keeps_linkTick | with_reducible apply keeps_moveTb | with_reducible apply keeps_moveOn | with_reducible apply keeps_foldl | with_reducible apply keeps_foldl_fst | with_reducible apply keeps_foldl_snd | with_reducible apply keeps_ite | split | (intro _ _ _; dsimp only) | (with_reducible refine keeps_mk ?_ rfl rfl rfl) | (intro _ _ _))

end Sys2Proof.Machine
end

