-- ==== Sys2Proof/Laws/KeepsCrossbar.lean ====
section
/-!
SUPPORT. Laws/KeepsCrossbar.lean: the operations of Machine/Crossbar.lean keep the queue, time, the memories and the fuses (Laws/Keeps.lean).
-/
-- One declaration at a time and no linter: the package is compiled as one text under a memory limit.
set_option linter.all false
set_option Elab.async false
namespace Sys2Proof.Machine

theorem keeps_countRedirect {s0 s : State} {a1 a2} (h : Keeps s0 s) : Keeps s0 (countRedirect s a1 a2) := by
  unfold countRedirect
  try dsimp only
  repeat' (first | with_reducible assumption | with_reducible apply keeps_bump | with_reducible apply keeps_ite | split | (intro _ _ _; dsimp only) | (with_reducible refine keeps_mk ?_ rfl rfl rfl) | (intro _ _ _))

theorem keeps_chipBeat {s0 s : State} {t a d} (h : Keeps s0 s) : Keeps s0 (chipBeat s t a d).1 := by
  have h0 : Keeps s0 (countRedirect s t (plainAddr a)) := keeps_countRedirect h
  unfold chipBeat
  dsimp only
  split
  · split
    · exact keeps_errorAt h0
    · exact h0
  · have h1 : ∀ (c : Prop) [Decidable c] q (b : Octets), Keeps s0 (chipEdit (if c then clearPoison (countRedirect s t (plainAddr a)) q else countRedirect s t (plainAddr a))
        (plainAddr a) (fun m => putEnabled m (plainAddr a) b)) :=
      fun c _ q b => keeps_chipEdit (fun _ => memWf_putEnabled _ _ _) (keeps_ite (keeps_clearPoison h0) h0)
    exact keeps_ite (h1 _ _ _) (keeps_errorAt (h1 _ _ _))

theorem keeps_moveBeat {s0 s : State} {t r} (h : Keeps s0 s) : Keeps s0 (moveBeat s t r) := by
  unfold moveBeat
  dsimp only
  split
  · exact keeps_dramBeat h
  · split
    · split
      · exact keeps_respBeat (keeps_hostMem h (memWf_putEnabled _ _ _))
      · exact keeps_respBeat h
    · split
      · exact keeps_respBeat h
      · exact keeps_respBeat (keeps_chipBeat h)

theorem keeps_moveBeats {s0 : State} {t : Nat} (k : Nat) : ∀ {s : State} {r}, Keeps s0 s → Keeps s0 (moveBeats t k r s).2 := by
  induction k with
  | zero => intro s r h; exact h
  | succ k ih => intro s r h; exact ih (keeps_moveBeat h)

theorem keeps_runOwner {s0 s : State} {a1 a2} (h : Keeps s0 s) : Keeps s0 (runOwner s a1 a2).2 := by
  unfold runOwner
  try dsimp only
  repeat' (first | with_reducible assumption | with_reducible apply keeps_moveBeats | with_reducible apply keeps_ite | split | (intro _ _ _; dsimp only) | (with_reducible refine keeps_mk ?_ rfl rfl rfl) | (intro _ _ _))

theorem keeps_markHeld {s0 s : State} {a1} (h : Keeps s0 s) : Keeps s0 (markHeld s a1) := by
  unfold markHeld
  try dsimp only
  repeat' (first | with_reducible assumption | with_reducible apply keeps_heldAtZero | with_reducible apply keeps_foldl | with_reducible apply keeps_foldl_fst | with_reducible apply keeps_foldl_snd | with_reducible apply keeps_ite | split | (intro _ _ _; dsimp only) | (with_reducible refine keeps_mk ?_ rfl rfl rfl) | (intro _ _ _))

theorem keeps_grantNext {s0 s : State} {a1} (h : Keeps s0 s) : Keeps s0 (grantNext s a1) := by
  unfold grantNext
  try dsimp only
  repeat' (first | with_reducible assumption | with_reducible apply keeps_spendBeats | with_reducible apply keeps_setArb | with_reducible apply keeps_markHeld | with_reducible apply keeps_ite | split | (intro _ _ _; dsimp only) | (with_reducible refine keeps_mk ?_ rfl rfl rfl) | (intro _ _ _))

theorem keeps_wakeChannel {s0 s : State} {a1} (h : Keeps s0 s) : Keeps s0 (wakeChannel s a1) := by
  unfold wakeChannel
  try dsimp only
  repeat' (first | with_reducible assumption | with_reducible apply keeps_grantNext | with_reducible apply keeps_resumeDram | with_reducible apply keeps_ite | split | (intro _ _ _; dsimp only) | (with_reducible refine keeps_mk ?_ rfl rfl rfl) | (intro _ _ _))

theorem keeps_execDramAlertRelease {s0 s : State} {a0 a1} (h : Keeps s0 s) : KeepsOut s0 (execDramAlertRelease a0 a1 s) := by
  unfold execDramAlertRelease
  try dsimp only
  repeat' (first | with_reducible assumption | with_reducible apply keeps_bump | with_reducible apply keeps_setDram | with_reducible apply keeps_reportError | with_reducible apply keeps_wakeChannel | with_reducible apply keeps_raise | with_reducible apply keeps_failReplay | with_reducible apply keeps_next | exact keeps_fault _ | with_reducible apply keeps_ite | split | (intro _ _ _; dsimp only) | (with_reducible refine keeps_mk ?_ rfl rfl rfl) | (intro _ _ _))

theorem keeps_execChunkEndGrant {s0 s : State} {a0} (h : Keeps s0 s) : KeepsOut s0 (execChunkEndGrant a0 s) := by
  unfold execChunkEndGrant
  try dsimp only
  repeat' (first | with_reducible assumption | with_reducible apply keeps_grantNext | with_reducible apply keeps_runOwner | with_reducible apply keeps_setArb | with_reducible apply keeps_next | exact keeps_fault _ | with_reducible apply keeps_ite | split | (intro _ _ _; dsimp only) | (with_reducible refine keeps_mk ?_ rfl rfl rfl) | (intro _ _ _))

theorem keeps_refuseRequest {s0 s : State} {a1 a2 a3 a4 a5} (h : Keeps s0 s) : Keeps s0 (refuseRequest s a1 a2 a3 a4 a5) := by
  unfold refuseRequest
  try dsimp only
  repeat' (first | with_reducible assumption | with_reducible apply keeps_errorAt | with_reducible apply keeps_raise | with_reducible apply keeps_ite | split | (intro _ _ _; dsimp only) | (with_reducible refine keeps_mk ?_ rfl rfl rfl) | (intro _ _ _))

theorem keeps_enqueue {s0 s : State} {a1 a2 a3 a4 a5 a6 a7} (h : Keeps s0 s) : Keeps s0 (enqueue s a1 a2 a3 a4 a5 a6 a7) := by
  unfold enqueue
  try dsimp only
  repeat' (first | with_reducible assumption | with_reducible apply keeps_grantNext | with_reducible apply keeps_setArb | with_reducible apply keeps_ite | split | (intro _ _ _; dsimp only) | (with_reducible refine keeps_mk ?_ rfl rfl rfl) | (intro _ _ _))

theorem keeps_execCrossbarRequest {s0 s : State} {a0 a1 a2 a3 a4 a5} (h : Keeps s0 s) : KeepsOut s0 (execCrossbarRequest a0 a1 a2 a3 a4 a5 s) := by
  unfold execCrossbarRequest
  try dsimp only
  repeat' (first | with_reducible assumption | with_reducible apply keeps_enqueue | with_reducible apply keeps_refuseRequest | with_reducible apply keeps_next | exact keeps_fault _ | with_reducible apply keeps_foldl | with_reducible apply keeps_foldl_fst | with_reducible apply keeps_foldl_snd | with_reducible apply keeps_ite | split | (intro _ _ _; dsimp only) | (with_reducible refine keeps_mk ?_ rfl rfl rfl) | (intro _ _ _))

theorem keeps_execEmergencyRequest {s0 s : State} {a0 a1 a2 a3 a4 a5} (h : Keeps s0 s) : KeepsOut s0 (execEmergencyRequest a0 a1 a2 a3 a4 a5 s) := by
  unfold execEmergencyRequest
  try dsimp only
  repeat' (first | with_reducible assumption | with_reducible apply keeps_bump | with_reducible apply keeps_bumpBy | with_reducible apply keeps_moveBeats | with_reducible apply keeps_runOwner | with_reducible apply keeps_refuseRequest | with_reducible apply keeps_setArb | with_reducible apply keeps_next | exact keeps_fault _ | with_reducible apply keeps_ite | split | (intro _ _ _; dsimp only) | (with_reducible refine keeps_mk ?_ rfl rfl rfl) | (intro _ _ _))

theorem keeps_execPriorityPreemption {s0 s : State} {a0 a1 a2} (h : Keeps s0 s) : KeepsOut s0 (execPriorityPreemption a0 a1 a2 s) := by
  unfold execPriorityPreemption
  try dsimp only
  repeat' (first | with_reducible assumption | with_reducible apply keeps_bump | with_reducible apply keeps_grantNext | with_reducible apply keeps_runOwner | with_reducible apply keeps_giveBeats | with_reducible apply keeps_setArb | with_reducible apply keeps_next | exact keeps_fault _ | with_reducible apply keeps_foldl | with_reducible apply keeps_foldl_fst | with_reducible apply keeps_foldl_snd | with_reducible apply keeps_ite | split | (intro _ _ _; dsimp only) | (with_reducible refine keeps_mk ?_ rfl rfl rfl) | (intro _ _ _))

theorem keeps_execReadDataReturn {s0 s : State} {a0 a1} (h : Keeps s0 s) : KeepsOut s0 (execReadDataReturn a0 a1 s) := by
  unfold execReadDataReturn
  split
  · apply keeps_next
    split
    · exact h.trans ⟨rfl, Nat.le_max_left _ _, Nat.le_refl _, id, id, fun _ => keyKept_refl _, fun _ => id, fun _ _ => id⟩
    · exact h
  · exact keeps_next h

theorem keeps_answerNow {s0 s : State} {a1} (h : Keeps s0 s) : Keeps s0 (answerNow s a1) := by
  exact h.same rfl

theorem keeps_execFlagAliasWrite {s0 s : State} {a0 a1 a2 a3} (h : Keeps s0 s) : KeepsOut s0 (execFlagAliasWrite a0 a1 a2 a3 s) := by
  unfold execFlagAliasWrite
  try dsimp only
  repeat' (first | with_reducible assumption | with_reducible apply keeps_bump | with_reducible apply keeps_chipBeat | with_reducible apply keeps_answerNow | with_reducible apply keeps_execCrossbarRequest | with_reducible apply keeps_spendBeats | with_reducible apply keeps_refuseRequest | with_reducible apply keeps_setArb | with_reducible apply keeps_next | exact keeps_fault _ | with_reducible apply keeps_ite | split | (intro _ _ _; dsimp only) | (with_reducible refine keeps_mk ?_ rfl rfl rfl) | (intro _ _ _))

theorem keeps_cancelReads {s0 s : State} {a1} (h : Keeps s0 s) : Keeps s0 (cancelReads s a1) := by
  unfold cancelReads
  try dsimp only
  repeat' (first | with_reducible assumption | with_reducible apply keeps_grantNext | with_reducible apply keeps_foldl | with_reducible apply keeps_foldl_fst | with_reducible apply keeps_foldl_snd | with_reducible apply keeps_ite | split | (intro _ _ _; dsimp only) | (with_reducible refine keeps_mk ?_ rfl rfl rfl) | (intro _ _ _))

theorem keeps_reportLoads {s0 s : State} (h : Keeps s0 s) : Keeps s0 (reportLoads s) := by
  unfold reportLoads
  try dsimp only
  repeat' (first | with_reducible assumption | with_reducible apply keeps_setN | with_reducible apply keeps_setArb | with_reducible apply keeps_foldl | with_reducible apply keeps_foldl_fst | with_reducible apply keeps_foldl_snd | with_reducible apply keeps_ite | split | (intro _ _ _; dsimp only) | (with_reducible refine keeps_mk ?_ rfl rfl rfl) | (intro _ _ _))

end Sys2Proof.Machine
end

