-- ==== Sys2Proof/Laws/KeepsModes.lean ====
section
/-!
SUPPORT. Laws/KeepsModes.lean: the operations of Machine/Modes.lean keep the queue, time, the memories and the fuses (Laws/Keeps.lean).
-/
-- One declaration at a time and no linter: the package is compiled as one text under a memory limit.
set_option linter.all false
set_option Elab.async false
namespace Sys2Proof.Machine

theorem keeps_setTrans {s0 s : State} {a1} (h : Keeps s0 s) : Keeps s0 (setTrans s a1) := by
  exact h.same rfl

theorem keeps_withConf {s0 s : State} {a1} (h : Keeps s0 s) : Keeps s0 (withConf s a1) := by
  unfold withConf
  try dsimp only
  repeat' (first | with_reducible assumption | with_reducible apply keeps_setF | with_reducible apply keeps_foldl | with_reducible apply keeps_foldl_fst | with_reducible apply keeps_foldl_snd | with_reducible apply keeps_ite | split | (intro _ _ _; dsimp only) | (with_reducible refine keeps_mk ?_ rfl rfl rfl) | (intro _ _ _))

theorem keeps_inMode {s0 s : State} {a1 a2} (h : Keeps s0 s) : Keeps s0 (inMode s a1 a2) := by
  unfold inMode
  try dsimp only
  repeat' (first | with_reducible assumption | with_reducible apply keeps_setN | with_reducible apply keeps_ite | split | (intro _ _ _; dsimp only) | (with_reducible refine keeps_mk ?_ rfl rfl rfl) | (intro _ _ _))

theorem keeps_scaleCounts {s0 s : State} {a} (h : Keeps s0 s) : Keeps s0 (scaleCounts a s) := by
  unfold scaleCounts
  apply keeps_foldl
  · intro t o ht
    dsimp only
    split
    · exact ht
    · exact keeps_setN ht
  · exact h

theorem keeps_suspendRefs {s0 s : State} (h : Keeps s0 s) : Keeps s0 (suspendRefs s) := by
  exact h.same rfl

theorem keeps_placeAgain {s0 s : State} (h : Keeps s0 s) : Keeps s0 (placeAgain s) := by
  unfold placeAgain
  try dsimp only
  repeat' (first | with_reducible assumption | with_reducible apply keeps_revive | with_reducible apply keeps_setN | with_reducible apply keeps_foldl | with_reducible apply keeps_foldl_fst | with_reducible apply keeps_foldl_snd | with_reducible apply keeps_ite | split | (intro _ _ _; dsimp only) | (with_reducible refine keeps_mk ?_ rfl rfl rfl) | (intro _ _ _))

theorem keeps_noLookahead {s0 s : State} (h : Keeps s0 s) : Keeps s0 (noLookahead s) := by
  unfold noLookahead
  try dsimp only
  repeat' (first | with_reducible assumption | with_reducible apply keeps_setN | with_reducible apply keeps_foldl | with_reducible apply keeps_foldl_fst | with_reducible apply keeps_foldl_snd | with_reducible apply keeps_ite | split | (intro _ _ _; dsimp only) | (with_reducible refine keeps_mk ?_ rfl rfl rfl) | (intro _ _ _))

theorem keeps_adapt {s0 s : State} {a1 a2} (h : Keeps s0 s) : Keeps s0 (adapt s a1 a2).1 := by
  unfold adapt
  try dsimp only
  repeat' (first | with_reducible assumption | with_reducible apply keeps_scaleCounts | with_reducible apply keeps_placeAgain | with_reducible apply keeps_giveSignals | with_reducible apply keeps_noLookahead | with_reducible apply keeps_withConf | with_reducible apply keeps_inMode | with_reducible apply keeps_suspendRefs | with_reducible apply keeps_ite | split | (intro _ _ _; dsimp only) | (with_reducible refine keeps_mk ?_ rfl rfl rfl) | (intro _ _ _))

theorem keeps_initServes {s0 s : State} (h : Keeps s0 s) : Keeps s0 (initServes s) := by
  unfold initServes
  try dsimp only
  repeat' (first | with_reducible assumption | with_reducible apply keeps_serveUnit | with_reducible apply keeps_setF | with_reducible apply keeps_foldl | with_reducible apply keeps_foldl_fst | with_reducible apply keeps_foldl_snd | with_reducible apply keeps_ite | split | (intro _ _ _; dsimp only) | (with_reducible refine keeps_mk ?_ rfl rfl rfl) | (intro _ _ _))

theorem keeps_initOutlets {s0 s : State} (h : Keeps s0 s) : Keeps s0 (initOutlets s) := by
  unfold initOutlets
  try dsimp only
  repeat' (first | with_reducible assumption | with_reducible apply keeps_setOutlet | with_reducible apply keeps_foldl | with_reducible apply keeps_foldl_fst | with_reducible apply keeps_foldl_snd | with_reducible apply keeps_ite | split | (intro _ _ _; dsimp only) | (with_reducible refine keeps_mk ?_ rfl rfl rfl) | (intro _ _ _))

theorem keeps_initBudgets {s0 s : State} (h : Keeps s0 s) : Keeps s0 (initBudgets s) := by
  unfold initBudgets
  try dsimp only
  repeat' (first | with_reducible assumption | with_reducible apply keeps_setBudget | with_reducible apply keeps_foldl | with_reducible apply keeps_foldl_fst | with_reducible apply keeps_foldl_snd | with_reducible apply keeps_ite | split | (intro _ _ _; dsimp only) | (with_reducible refine keeps_mk ?_ rfl rfl rfl) | (intro _ _ _))

theorem keeps_initAudio {s0 s : State} (h : Keeps s0 s) : Keeps s0 (initAudio s) := by
  unfold initAudio
  try dsimp only
  repeat' (first | with_reducible assumption | with_reducible apply keeps_initBudgets | with_reducible apply keeps_loadImages | with_reducible apply keeps_startTile | with_reducible apply keeps_setN | with_reducible apply keeps_initServes | with_reducible apply keeps_initOutlets | with_reducible apply keeps_keepImages | with_reducible apply keeps_foldl | with_reducible apply keeps_foldl_fst | with_reducible apply keeps_foldl_snd | with_reducible apply keeps_ite | split | (intro _ _ _; dsimp only) | (with_reducible refine keeps_mk ?_ rfl rfl rfl) | (intro _ _ _))

theorem keeps_forceOff {s0 s : State} {a1} (h : Keeps s0 s) : Keeps s0 (forceOff s a1) := by
  unfold forceOff
  try dsimp only
  repeat' (first | with_reducible assumption | with_reducible apply keeps_setLife | with_reducible apply keeps_unitEntered | with_reducible apply keeps_moveUnit | with_reducible apply keeps_ite | split | (intro _ _ _; dsimp only) | (with_reducible refine keeps_mk ?_ rfl rfl rfl) | (intro _ _ _))

theorem keeps_resumeUnit {s0 s : State} {a1} (h : Keeps s0 s) : Keeps s0 (resumeUnit s a1) := by
  unfold resumeUnit
  try dsimp only
  repeat' (first | with_reducible assumption | with_reducible apply keeps_forceOff | with_reducible apply keeps_bridgeEntered | with_reducible apply keeps_request | with_reducible apply keeps_setRing | with_reducible apply keeps_restartPort | with_reducible apply keeps_moveUnit | with_reducible apply keeps_captureEntered | with_reducible apply keeps_ite | split | (intro _ _ _; dsimp only) | (with_reducible refine keeps_mk ?_ rfl rfl rfl) | (intro _ _ _))

theorem keeps_resumeUnits {s0 s : State} (h : Keeps s0 s) : Keeps s0 (resumeUnits s) := by
  unfold resumeUnits
  try dsimp only
  repeat' (first | with_reducible assumption | with_reducible apply keeps_resumeUnit | with_reducible apply keeps_request | with_reducible apply keeps_foldl | with_reducible apply keeps_foldl_fst | with_reducible apply keeps_foldl_snd | with_reducible apply keeps_ite | split | (intro _ _ _; dsimp only) | (with_reducible refine keeps_mk ?_ rfl rfl rfl) | (intro _ _ _))

theorem keeps_startTransition {s0 s : State} {a1 a2} (h : Keeps s0 s) : Keeps s0 (startTransition s a1 a2) := by
  unfold startTransition
  try dsimp only
  repeat' (first | with_reducible assumption | with_reducible apply keeps_formRecord | with_reducible apply keeps_setTrans | with_reducible apply keeps_ite | split | (intro _ _ _; dsimp only) | (with_reducible refine keeps_mk ?_ rfl rfl rfl) | (intro _ _ _))

theorem keeps_leavePair {s0 s : State} (h : Keeps s0 s) : Keeps s0 (leavePair s) := by
  unfold leavePair
  try dsimp only
  repeat' (first | with_reducible assumption | with_reducible apply keeps_sendNotice | with_reducible apply keeps_setRole | with_reducible apply keeps_linkLost | with_reducible apply keeps_ite | split | (intro _ _ _; dsimp only) | (with_reducible refine keeps_mk ?_ rfl rfl rfl) | (intro _ _ _))

theorem keeps_doReqMode {s0 s : State} {a1 a2 a3} (h : Keeps s0 s) : Keeps s0 (doReqMode s a1 a2 a3).2 := by
  unfold doReqMode
  try dsimp only
  repeat' (first | with_reducible assumption | with_reducible apply keeps_startTransition | with_reducible apply keeps_leavePair | with_reducible apply keeps_ite | split | (intro _ _ _; dsimp only) | (with_reducible refine keeps_mk ?_ rfl rfl rfl) | (intro _ _ _))

theorem keeps_dropStaged {s0 s : State} (h : Keeps s0 s) : Keeps s0 (dropStaged s) := by
  exact h.same rfl

theorem keeps_serviceByRole {s0 s : State} (h : Keeps s0 s) : Keeps s0 (serviceByRole s) := by
  unfold serviceByRole
  try dsimp only
  repeat' (first | with_reducible assumption | with_reducible apply keeps_setSync | with_reducible apply keeps_dropStaged | with_reducible apply keeps_setRole | with_reducible apply keeps_startTransition | with_reducible apply keeps_ite | split | (intro _ _ _; dsimp only) | (with_reducible refine keeps_mk ?_ rfl rfl rfl) | (intro _ _ _))

theorem keeps_failTransition {s0 s : State} {a1} (h : Keeps s0 s) : Keeps s0 (failTransition s a1) := by
  unfold failTransition
  try dsimp only
  repeat' (first | with_reducible assumption | with_reducible apply keeps_setTrans | with_reducible apply keeps_setN | with_reducible apply keeps_raise | with_reducible apply keeps_ite | split | (intro _ _ _; dsimp only) | (with_reducible refine keeps_mk ?_ rfl rfl rfl) | (intro _ _ _))

theorem keeps_startFadeOut {s0 s : State} (h : Keeps s0 s) : Keeps s0 (startFadeOut s) := by
  exact h.same rfl

theorem keeps_endModeValidation {s0 s : State} (h : Keeps s0 s) : Keeps s0 (endModeValidation s) := by
  unfold endModeValidation
  split
  · exact h
  · split
    · exact keeps_startFadeOut h
    · have hv := keeps_validate (a1 := (adapt s s.mode.target s.mode.rate).1) (a2 := (adapt s s.mode.target s.mode.rate).2) h
      dsimp only
      split
      · next hq => rw [hq] at hv; exact keeps_failTransition hv
      · next hq => rw [hq] at hv; exact keeps_startFadeOut hv

theorem keeps_execModeValidationEnd {s0 s : State} (h : Keeps s0 s) : KeepsOut s0 (execModeValidationEnd s) :=
  keeps_next (keeps_endModeValidation h)

theorem keeps_armFade {s0 s : State} (h : Keeps s0 s) : Keeps s0 (armFade s) := by
  unfold armFade
  try dsimp only
  repeat' (first | with_reducible assumption | with_reducible apply keeps_fadeOutlets | with_reducible apply keeps_ite | split | (intro _ _ _; dsimp only) | (with_reducible refine keeps_mk ?_ rfl rfl rfl) | (intro _ _ _))

theorem keeps_endFadeOut {s0 s : State} (h : Keeps s0 s) : Keeps s0 (endFadeOut s) := by
  unfold endFadeOut
  try dsimp only
  repeat' (first | with_reducible assumption | with_reducible apply keeps_forceOff | with_reducible apply keeps_setTrans | with_reducible apply keeps_haltPort | with_reducible apply keeps_foldl | with_reducible apply keeps_foldl_fst | with_reducible apply keeps_foldl_snd | with_reducible apply keeps_ite | split | (intro _ _ _; dsimp only) | (with_reducible refine keeps_mk ?_ rfl rfl rfl) | (intro _ _ _))

theorem keeps_execModeFadeOutEnd {s0 s : State} (h : Keeps s0 s) : KeepsOut s0 (execModeFadeOutEnd s) := by
  unfold execModeFadeOutEnd
  try dsimp only
  repeat' (first | with_reducible assumption | with_reducible apply keeps_endFadeOut | with_reducible apply keeps_next | exact keeps_fault _ | with_reducible apply keeps_ite | split | (intro _ _ _; dsimp only) | (with_reducible refine keeps_mk ?_ rfl rfl rfl) | (intro _ _ _))

theorem keeps_stopDomain {s0 s : State} {a1} (h : Keeps s0 s) : Keeps s0 (stopDomain s a1) := by
  exact h.same rfl

theorem keeps_restartDomains {s0 s : State} (h : Keeps s0 s) : Keeps s0 (restartDomains s) := by
  unfold restartDomains
  try dsimp only
  repeat' (first | with_reducible assumption | with_reducible apply keeps_setFreq | with_reducible apply keeps_setN | with_reducible apply keeps_setDom | with_reducible apply keeps_foldl | with_reducible apply keeps_foldl_fst | with_reducible apply keeps_foldl_snd | with_reducible apply keeps_ite | split | (intro _ _ _; dsimp only) | (with_reducible refine keeps_mk ?_ rfl rfl rfl) | (intro _ _ _))

theorem keeps_finishTransition {s0 s : State} (h : Keeps s0 s) : Keeps s0 (finishTransition s) := by
  unfold finishTransition
  try dsimp only
  repeat' (first | with_reducible assumption | with_reducible apply keeps_bump | with_reducible apply keeps_setTrans | with_reducible apply keeps_setN | with_reducible apply keeps_raise | with_reducible apply keeps_ite | split | (intro _ _ _; dsimp only) | (with_reducible refine keeps_mk ?_ rfl rfl rfl) | (intro _ _ _))

theorem keeps_serviceOff {s0 s : State} (h : Keeps s0 s) : Keeps s0 (serviceOff s) := by
  unfold serviceOff
  try dsimp only
  repeat' (first | with_reducible assumption | with_reducible apply keeps_pairEntered | with_reducible apply keeps_forceOff | with_reducible apply keeps_domainEntered | with_reducible apply keeps_setLife | with_reducible apply keeps_moveUnit | with_reducible apply keeps_foldl | with_reducible apply keeps_foldl_fst | with_reducible apply keeps_foldl_snd | with_reducible apply keeps_ite | split | (intro _ _ _; dsimp only) | (with_reducible refine keeps_mk ?_ rfl rfl rfl) | (intro _ _ _))

theorem keeps_enterService {s0 s : State} (h : Keeps s0 s) : Keeps s0 (enterService s) := by
  unfold enterService
  try dsimp only
  repeat' (first | with_reducible assumption | with_reducible apply keeps_serviceOff | with_reducible apply keeps_restartDomains | with_reducible apply keeps_finishTransition | with_reducible apply keeps_restartPort | with_reducible apply keeps_moveUnit | with_reducible apply keeps_haltPort | with_reducible apply keeps_inMode | with_reducible apply keeps_initAudio | with_reducible apply keeps_setPort | with_reducible apply keeps_foldl | with_reducible apply keeps_foldl_fst | with_reducible apply keeps_foldl_snd | with_reducible apply keeps_ite | split | (intro _ _ _; dsimp only) | (with_reducible refine keeps_mk ?_ rfl rfl rfl) | (intro _ _ _))

theorem keeps_restoreMode {s0 s : State} (h : Keeps s0 s) : Keeps s0 (restoreMode s) := by
  unfold restoreMode
  try dsimp only
  repeat' (first | with_reducible assumption | with_reducible apply keeps_adapt | with_reducible apply keeps_restartDomains | with_reducible apply keeps_setTrans | with_reducible apply keeps_setN | with_reducible apply keeps_resumeUnits | with_reducible apply keeps_initAudio | with_reducible apply keeps_ite | split | (intro _ _ _; dsimp only) | (with_reducible refine keeps_mk ?_ rfl rfl rfl) | (intro _ _ _))

theorem keeps_endReconfigure {s0 s : State} (h : Keeps s0 s) : Keeps s0 (endReconfigure s) := by
  unfold endReconfigure
  try dsimp only
  repeat' (first | with_reducible assumption | with_reducible apply keeps_stopDomain | with_reducible apply keeps_enterService | with_reducible apply keeps_changeSetpoint | with_reducible apply keeps_restoreMode | with_reducible apply keeps_loseDirectory | with_reducible apply keeps_foldl | with_reducible apply keeps_foldl_fst | with_reducible apply keeps_foldl_snd | with_reducible apply keeps_ite | split | (intro _ _ _; dsimp only) | (with_reducible refine keeps_mk ?_ rfl rfl rfl) | (intro _ _ _))

theorem keeps_execModeReconfigureEnd {s0 s : State} (h : Keeps s0 s) : KeepsOut s0 (execModeReconfigureEnd s) := by
  unfold execModeReconfigureEnd
  try dsimp only
  repeat' (first | with_reducible assumption | with_reducible apply keeps_endReconfigure | with_reducible apply keeps_next | exact keeps_fault _ | with_reducible apply keeps_ite | split | (intro _ _ _; dsimp only) | (with_reducible refine keeps_mk ?_ rfl rfl rfl) | (intro _ _ _))

theorem keeps_startFadeIn {s0 s : State} (h : Keeps s0 s) : Keeps s0 (startFadeIn s) := by
  unfold startFadeIn
  try dsimp only
  repeat' (first | with_reducible assumption | with_reducible apply keeps_setTrans | with_reducible apply keeps_fadeOutlets | with_reducible apply keeps_ite | split | (intro _ _ _; dsimp only) | (with_reducible refine keeps_mk ?_ rfl rfl rfl) | (intro _ _ _))

theorem keeps_execModeFadeInStart {s0 s : State} (h : Keeps s0 s) : KeepsOut s0 (execModeFadeInStart s) := by
  unfold execModeFadeInStart
  try dsimp only
  repeat' (first | with_reducible assumption | with_reducible apply keeps_startFadeIn | with_reducible apply keeps_next | exact keeps_fault _ | with_reducible apply keeps_ite | split | (intro _ _ _; dsimp only) | (with_reducible refine keeps_mk ?_ rfl rfl rfl) | (intro _ _ _))

theorem keeps_endFadeIn {s0 s : State} (h : Keeps s0 s) : Keeps s0 (endFadeIn s) := by
  unfold endFadeIn
  try dsimp only
  repeat' (first | with_reducible assumption | with_reducible apply keeps_addVersion | with_reducible apply keeps_finishTransition | with_reducible apply keeps_ite | split | (intro _ _ _; dsimp only) | (with_reducible refine keeps_mk ?_ rfl rfl rfl) | (intro _ _ _))

theorem keeps_execModeFadeInEnd {s0 s : State} (h : Keeps s0 s) : KeepsOut s0 (execModeFadeInEnd s) := by
  unfold execModeFadeInEnd
  try dsimp only
  repeat' (first | with_reducible assumption | with_reducible apply keeps_endFadeIn | with_reducible apply keeps_next | exact keeps_fault _ | with_reducible apply keeps_ite | split | (intro _ _ _; dsimp only) | (with_reducible refine keeps_mk ?_ rfl rfl rfl) | (intro _ _ _))

theorem keeps_followLink {s0 s : State} (h : Keeps s0 s) : Keeps s0 (followLink s) := by
  unfold followLink
  try dsimp only
  repeat' (first | with_reducible assumption | with_reducible apply keeps_setN | with_reducible apply keeps_setPhase | with_reducible apply keeps_setDom | with_reducible apply keeps_foldl | with_reducible apply keeps_foldl_fst | with_reducible apply keeps_foldl_snd | with_reducible apply keeps_ite | split | (intro _ _ _; dsimp only) | (with_reducible refine keeps_mk ?_ rfl rfl rfl) | (intro _ _ _))

theorem keeps_landCopied {s0 s : State} {a1 a2 a3} (h : Keeps s0 s) : Keeps s0 (landCopied s a1 a2 a3) := by
  unfold landCopied
  try dsimp only
  repeat' (first | with_reducible assumption | with_reducible apply keeps_landLive | with_reducible apply keeps_setF | with_reducible apply keeps_addLanding | with_reducible apply keeps_ite | split | (intro _ _ _; dsimp only) | (with_reducible refine keeps_mk ?_ rfl rfl rfl) | (intro _ _ _))

theorem keeps_copyConfig {s0 s : State} {a1} (h : Keeps s0 s) : Keeps s0 (copyConfig s a1) := by
  unfold copyConfig
  try dsimp only
  repeat' (first | with_reducible assumption | with_reducible apply keeps_dropStaged | with_reducible apply keeps_setN | with_reducible apply keeps_resumeUnits | with_reducible apply keeps_addVersion | with_reducible apply keeps_placeAgain | with_reducible apply keeps_giveSignals | with_reducible apply keeps_withConf | with_reducible apply keeps_initAudio | with_reducible apply keeps_setDom | with_reducible apply keeps_suspendRefs | with_reducible apply keeps_followLink | with_reducible apply keeps_foldl | with_reducible apply keeps_foldl_fst | with_reducible apply keeps_foldl_snd | with_reducible apply keeps_ite | split | (intro _ _ _; dsimp only) | (with_reducible refine keeps_mk ?_ rfl rfl rfl) | (intro _ _ _))

theorem keeps_copyCommit {s0 s : State} {a1} (h : Keeps s0 s) : Keeps s0 (copyCommit s a1) := by
  unfold copyCommit
  try dsimp only
  repeat' (first | with_reducible assumption | with_reducible apply keeps_stageBudgets | with_reducible apply keeps_revive | with_reducible apply keeps_loadImages | with_reducible apply keeps_configWith | with_reducible apply keeps_clearBank | with_reducible apply keeps_setN | with_reducible apply keeps_giveSignals | with_reducible apply keeps_setCommitState | with_reducible apply keeps_scheduleAt | with_reducible apply keeps_foldl | with_reducible apply keeps_foldl_fst | with_reducible apply keeps_foldl_snd | with_reducible apply keeps_ite | split | (intro _ _ _; dsimp only) | (with_reducible refine keeps_mk ?_ rfl rfl rfl) | (intro _ _ _))

theorem keeps_takeRecord {s0 s : State} {a1} (h : Keeps s0 s) : Keeps s0 (takeRecord s a1) := by
  unfold takeRecord
  try dsimp only
  repeat' (first | with_reducible assumption | with_reducible apply keeps_setSync | with_reducible apply keeps_copyConfig | with_reducible apply keeps_emptyBank | with_reducible apply keeps_setBank | with_reducible apply keeps_landCopied | with_reducible apply keeps_copyCommit | with_reducible apply keeps_startTransition | with_reducible apply keeps_doCancel | with_reducible apply keeps_foldl | with_reducible apply keeps_foldl_fst | with_reducible apply keeps_foldl_snd | with_reducible apply keeps_ite | split | (intro _ _ _; dsimp only) | (with_reducible refine keeps_mk ?_ rfl rfl rfl) | (intro _ _ _))

theorem keeps_execConfigRecordReceived {s0 s : State} {a0} (h : Keeps s0 s) : KeepsOut s0 (execConfigRecordReceived a0 s) := by
  unfold execConfigRecordReceived
  try dsimp only
  repeat' (first | with_reducible assumption | with_reducible apply keeps_takeRecord | with_reducible apply keeps_next | exact keeps_fault _ | with_reducible apply keeps_ite | split | (intro _ _ _; dsimp only) | (with_reducible refine keeps_mk ?_ rfl rfl rfl) | (intro _ _ _))

end Sys2Proof.Machine
end

