-- ==== Sys2Proof/Laws/KeepsBoot.lean ====
section
/-!
SUPPORT. Laws/KeepsBoot.lean: the operations of Machine/Boot.lean keep the queue, time, the memories and the fuses (Laws/Keeps.lean).
-/
-- One declaration at a time and no linter: the package is compiled as one text under a memory limit.
set_option linter.all false
set_option Elab.async false
namespace Sys2Proof.Machine

theorem keeps_wiped {s0 s : State} (h : Keeps s0 s) : Keeps s0 (wiped s) :=
  h.trans ⟨rfl, Nat.le_refl _, Nat.le_refl _, fun _ => rfl, id, fun _ => keyKept_refl _, fun _ => id, fun _ _ => id⟩

theorem keeps_keepLog {s0 s : State} {a1} (h : Keeps s0 s) : Keeps s0 (keepLog s a1) := by
  unfold keepLog
  try dsimp only
  repeat' (first | with_reducible assumption | with_reducible apply keeps_ite | split | (intro _ _ _; dsimp only) | (with_reducible refine keeps_mk ?_ rfl rfl rfl) | (intro _ _ _))

theorem keeps_execColdStart {s0 s : State} (h : Keeps s0 s) : KeepsOut s0 (execColdStart s) := by
  unfold execColdStart
  try dsimp only
  repeat' (first | with_reducible assumption | with_reducible apply keeps_wiped | with_reducible apply keeps_keepLog | with_reducible apply keeps_next | exact keeps_fault _ | with_reducible apply keeps_ite | split | (intro _ _ _; dsimp only) | (with_reducible refine keeps_mk ?_ rfl rfl rfl) | (intro _ _ _))

theorem keeps_execExternalWarmReset {s0 s : State} {a0} (h : Keeps s0 s) : KeepsOut s0 (execExternalWarmReset a0 s) := by
  unfold execExternalWarmReset
  try dsimp only
  repeat' (first | with_reducible assumption | with_reducible apply keeps_wiped | with_reducible apply keeps_keepLog | with_reducible apply keeps_next | exact keeps_fault _ | with_reducible apply keeps_ite | split | (intro _ _ _; dsimp only) | (with_reducible refine keeps_mk ?_ rfl rfl rfl) | (intro _ _ _))

theorem keeps_internalReset {s0 s : State} {a1 a2} (h : Keeps s0 s) : Keeps s0 (internalReset s a1 a2) := by
  unfold internalReset
  try dsimp only
  repeat' (first | with_reducible assumption | with_reducible apply keeps_wiped | with_reducible apply keeps_setN | with_reducible apply keeps_keepLog | with_reducible apply keeps_foldl | with_reducible apply keeps_foldl_fst | with_reducible apply keeps_foldl_snd | with_reducible apply keeps_ite | split | (intro _ _ _; dsimp only) | (with_reducible refine keeps_mk ?_ rfl rfl rfl) | (intro _ _ _))

theorem keeps_execSupplyMonitorTrip {s0 s : State} {a0 a1 a2 a3} (h : Keeps s0 s) : KeepsOut s0 (execSupplyMonitorTrip a0 a1 a2 a3 s) := by
  unfold execSupplyMonitorTrip
  try dsimp only
  repeat' (first | with_reducible assumption | with_reducible apply keeps_internalReset | with_reducible apply keeps_next | exact keeps_fault _ | with_reducible apply keeps_ite | split | (intro _ _ _; dsimp only) | (with_reducible refine keeps_mk ?_ rfl rfl rfl) | (intro _ _ _))

theorem keeps_execLockstepResetTimeout {s0 s : State} (h : Keeps s0 s) : KeepsOut s0 (execLockstepResetTimeout s) := by
  unfold execLockstepResetTimeout
  try dsimp only
  repeat' (first | with_reducible assumption | with_reducible apply keeps_internalReset | with_reducible apply keeps_next | exact keeps_fault _ | with_reducible apply keeps_ite | split | (intro _ _ _; dsimp only) | (with_reducible refine keeps_mk ?_ rfl rfl rfl) | (intro _ _ _))

theorem keeps_execResetNRelease {s0 s : State} {a0 a1 a2} (h : Keeps s0 s) : KeepsOut s0 (execResetNRelease a0 a1 a2 s) := by
  unfold execResetNRelease
  try dsimp only
  repeat' (first | with_reducible assumption | with_reducible apply keeps_setN | with_reducible apply keeps_next | exact keeps_fault _ | with_reducible apply keeps_foldl | with_reducible apply keeps_foldl_fst | with_reducible apply keeps_foldl_snd | with_reducible apply keeps_ite | split | (intro _ _ _; dsimp only) | (with_reducible refine keeps_mk ?_ rfl rfl rfl) | (intro _ _ _))

theorem keeps_setFwSlot {s0 s : State} {a1 a2} (h : Keeps s0 s) : Keeps s0 (setFwSlot s a1 a2) := by
  exact h.same rfl

theorem keeps_loadSlot {s0 s : State} {a1} (h : Keeps s0 s) : Keeps s0 (loadSlot s a1) := by
  exact h.same rfl

theorem keeps_slotSequences {s0 s : State} (h : Keeps s0 s) : Keeps s0 (slotSequences s) := by
  unfold slotSequences
  try dsimp only
  repeat' (first | with_reducible assumption | with_reducible apply keeps_setN | with_reducible apply keeps_ite | split | (intro _ _ _; dsimp only) | (with_reducible refine keeps_mk ?_ rfl rfl rfl) | (intro _ _ _))

theorem keeps_giveBack {s0 s : State} (h : Keeps s0 s) : Keeps s0 (giveBack s) := by
  unfold giveBack
  try dsimp only
  repeat' (first | with_reducible assumption | with_reducible apply keeps_addSpare | with_reducible apply keeps_addFailed | with_reducible apply keeps_setN | with_reducible apply keeps_foldl | with_reducible apply keeps_foldl_fst | with_reducible apply keeps_foldl_snd | with_reducible apply keeps_ite | split | (intro _ _ _; dsimp only) | (with_reducible refine keeps_mk ?_ rfl rfl rfl) | (intro _ _ _))

theorem keeps_loadFuses {s0 s : State} (h : Keeps s0 s) : Keeps s0 (loadFuses s) := by
  unfold loadFuses
  try dsimp only
  repeat' (first | with_reducible assumption | with_reducible apply keeps_giveBack | with_reducible apply keeps_setN | with_reducible apply keeps_slotSequences | with_reducible apply keeps_loadSlot | with_reducible apply keeps_ite | split | (intro _ _ _; dsimp only) | (with_reducible refine keeps_mk ?_ rfl rfl rfl) | (intro _ _ _))

theorem keeps_execFuseLoadDone {s0 s : State} (h : Keeps s0 s) : KeepsOut s0 (execFuseLoadDone s) := by
  unfold execFuseLoadDone
  try dsimp only
  repeat' (first | with_reducible assumption | with_reducible apply keeps_loadFuses | with_reducible apply keeps_next | exact keeps_fault _ | with_reducible apply keeps_ite | split | (intro _ _ _; dsimp only) | (with_reducible refine keeps_mk ?_ rfl rfl rfl) | (intro _ _ _))

theorem keeps_skipVersions {s0 s : State} {a1} (h : Keeps s0 s) : Keeps s0 (skipVersions s a1) := by
  unfold skipVersions
  try dsimp only
  repeat' (first | with_reducible assumption | with_reducible apply keeps_bump | with_reducible apply keeps_raise | with_reducible apply keeps_foldl | with_reducible apply keeps_foldl_fst | with_reducible apply keeps_foldl_snd | with_reducible apply keeps_ite | split | (intro _ _ _; dsimp only) | (with_reducible refine keeps_mk ?_ rfl rfl rfl) | (intro _ _ _))

theorem keeps_selectVersion {s0 s : State} (h : Keeps s0 s) : Keeps s0 (selectVersion s) := by
  unfold selectVersion
  try dsimp only
  repeat' (first | with_reducible assumption | with_reducible apply keeps_setN | with_reducible apply keeps_writeLog | with_reducible apply keeps_skipVersions | with_reducible apply keeps_ite | split | (intro _ _ _; dsimp only) | (with_reducible refine keeps_mk ?_ rfl rfl rfl) | (intro _ _ _))

theorem keeps_runFirmware {s0 s : State} {a1 a2} (h : Keeps s0 s) : Keeps s0 (runFirmware s a1 a2) := by
  unfold runFirmware
  try dsimp only
  repeat' (first | with_reducible assumption | with_reducible apply keeps_setN | with_reducible apply keeps_selectVersion | with_reducible apply keeps_startTraining | with_reducible apply keeps_ite | split | (intro _ _ _; dsimp only) | (with_reducible refine keeps_mk ?_ rfl rfl rfl) | (intro _ _ _))

theorem keeps_execFirmwareLoaded {s0 s : State} {a0} (h : Keeps s0 s) : KeepsOut s0 (execFirmwareLoaded a0 s) := by
  unfold execFirmwareLoaded
  try dsimp only
  repeat' (first | with_reducible assumption | with_reducible apply keeps_raise | with_reducible apply keeps_loadSlot | with_reducible apply keeps_runFirmware | with_reducible apply keeps_next | exact keeps_fault _ | with_reducible apply keeps_ite | split | (intro _ _ _; dsimp only) | (with_reducible refine keeps_mk ?_ rfl rfl rfl) | (intro _ _ _))

theorem keeps_execBootCheckTimeout {s0 s : State} (h : Keeps s0 s) : KeepsOut s0 (execBootCheckTimeout s) := by
  unfold execBootCheckTimeout
  try dsimp only
  repeat' (first | with_reducible assumption | with_reducible apply keeps_internalReset | with_reducible apply keeps_raise | with_reducible apply keeps_next | exact keeps_fault _ | with_reducible apply keeps_ite | split | (intro _ _ _; dsimp only) | (with_reducible refine keeps_mk ?_ rfl rfl rfl) | (intro _ _ _))

theorem keeps_execFirmwareRetry {s0 s : State} (h : Keeps s0 s) : KeepsOut s0 (execFirmwareRetry s) := by
  unfold execFirmwareRetry
  try dsimp only
  repeat' (first | with_reducible assumption | with_reducible apply keeps_slotSequences | with_reducible apply keeps_loadSlot | with_reducible apply keeps_next | exact keeps_fault _ | with_reducible apply keeps_ite | split | (intro _ _ _; dsimp only) | (with_reducible refine keeps_mk ?_ rfl rfl rfl) | (intro _ _ _))

theorem keeps_restoreConf {s0 s : State} {a1} (h : Keeps s0 s) : Keeps s0 (restoreConf s a1).1 := by
  unfold restoreConf
  try dsimp only
  repeat' (first | with_reducible assumption | with_reducible apply keeps_placeAgain | with_reducible apply keeps_giveSignals | with_reducible apply keeps_withConf | with_reducible apply keeps_inMode | with_reducible apply keeps_suspendRefs | with_reducible apply keeps_ite | split | (intro _ _ _; dsimp only) | (with_reducible refine keeps_mk ?_ rfl rfl rfl) | (intro _ _ _))

theorem keeps_factoryConf {s0 s : State} (h : Keeps s0 s) : Keeps s0 (factoryConf s) := by
  unfold factoryConf
  try dsimp only
  repeat' (first | with_reducible assumption | with_reducible apply keeps_setF | with_reducible apply keeps_withConf | with_reducible apply keeps_inMode | with_reducible apply keeps_foldl | with_reducible apply keeps_foldl_fst | with_reducible apply keeps_foldl_snd | with_reducible apply keeps_ite | split | (intro _ _ _; dsimp only) | (with_reducible refine keeps_mk ?_ rfl rfl rfl) | (intro _ _ _))

theorem keeps_startConf {s0 s : State} (h : Keeps s0 s) : Keeps s0 (startConf s) := by
  unfold startConf
  try dsimp only
  repeat' (first | with_reducible assumption | with_reducible apply keeps_domainEntered | with_reducible apply keeps_resumeUnits | with_reducible apply keeps_moveUnit | with_reducible apply keeps_initAudio | with_reducible apply keeps_ite | split | (intro _ _ _; dsimp only) | (with_reducible refine keeps_mk ?_ rfl rfl rfl) | (intro _ _ _))

theorem keeps_restored {s0 s : State} {a1 a2 a3} (h : Keeps s0 s) : Keeps s0 (restored s a1 a2 a3) := by
  exact h.same rfl

theorem keeps_restoreNone {s0 s : State} (h : Keeps s0 s) : Keeps s0 (restoreNone s) := by
  unfold restoreNone
  try dsimp only
  repeat' (first | with_reducible assumption | with_reducible apply keeps_restored | with_reducible apply keeps_factoryConf | with_reducible apply keeps_startConf | with_reducible apply keeps_ite | split | (intro _ _ _; dsimp only) | (with_reducible refine keeps_mk ?_ rfl rfl rfl) | (intro _ _ _))

theorem keeps_restoreOne {s0 s : State} {a1 a2 a3} (h : Keeps s0 s) : Keeps s0 (restoreOne s a1 a2 a3) := by
  unfold restoreOne
  try dsimp only
  repeat' (first | with_reducible assumption | with_reducible apply keeps_restored | with_reducible apply keeps_startConf | with_reducible apply keeps_ite | split | (intro _ _ _; dsimp only) | (with_reducible refine keeps_mk ?_ rfl rfl rfl) | (intro _ _ _))

theorem keeps_restoreCheck {s0 s : State} {a1} (h : Keeps s0 s) : Keeps s0 (restoreCheck s a1).1 := by
  unfold restoreCheck
  try dsimp only
  repeat' (first | with_reducible assumption | with_reducible apply keeps_validate | with_reducible apply keeps_restoreConf | with_reducible apply keeps_ite | split | (intro _ _ _; dsimp only) | (with_reducible refine keeps_mk ?_ rfl rfl rfl) | (intro _ _ _))

theorem keeps_restoreNext {s0 s : State} {k v r next} (hn : ∀ t j, Keeps s0 t → Keeps s0 (next t j)) (h : Keeps s0 s) :
    Keeps s0 (restoreNext s k v r next) := by
  have hv := keeps_restoreCheck (a1 := v) h
  unfold restoreNext
  split
  · next hq => rw [hq] at hv; exact keeps_restoreOne hv
  · exact hn _ _ (keeps_skipVersions h)

theorem keeps_restoreFrom {s0 : State} (l : List Version) : ∀ {s : State} {k}, Keeps s0 s → Keeps s0 (restoreFrom l s k) := by
  induction l with
  | nil => intro s k h; exact keeps_restoreNone h
  | cons v r ih => intro s k h; exact keeps_restoreNext (fun _ _ => ih) h

theorem keeps_restoreBoot {s0 s : State} (h : Keeps s0 s) : Keeps s0 (restoreBoot s) := by
  unfold restoreBoot
  try dsimp only
  repeat' (first | with_reducible assumption | with_reducible apply keeps_restoreFrom | with_reducible apply keeps_ite | split | (intro _ _ _; dsimp only) | (with_reducible refine keeps_mk ?_ rfl rfl rfl) | (intro _ _ _))

theorem keeps_trainedBoth {s0 s : State} {a1} (h : Keeps s0 s) : Keeps s0 (trainedBoth s a1) := by
  unfold trainedBoth
  try dsimp only
  repeat' (first | with_reducible assumption | with_reducible apply keeps_trainedChannel | with_reducible apply keeps_foldl | with_reducible apply keeps_foldl_fst | with_reducible apply keeps_foldl_snd | with_reducible apply keeps_ite | split | (intro _ _ _; dsimp only) | (with_reducible refine keeps_mk ?_ rfl rfl rfl) | (intro _ _ _))

theorem keeps_checkOrder {s0 s : State} (h : Keeps s0 s) : Keeps s0 (checkOrder s) := by
  unfold checkOrder
  try dsimp only
  repeat' (first | with_reducible assumption | with_reducible apply keeps_setN | with_reducible apply keeps_ite | split | (intro _ _ _; dsimp only) | (with_reducible refine keeps_mk ?_ rfl rfl rfl) | (intro _ _ _))

theorem keeps_failStart {s0 s : State} (h : Keeps s0 s) : Keeps s0 (failStart s) := by
  unfold failStart
  try dsimp only
  repeat' (first | with_reducible assumption | with_reducible apply keeps_restored | with_reducible apply keeps_factoryConf | with_reducible apply keeps_startConf | with_reducible apply keeps_fatal | with_reducible apply keeps_ite | split | (intro _ _ _; dsimp only) | (with_reducible refine keeps_mk ?_ rfl rfl rfl) | (intro _ _ _))

theorem keeps_restoreStart {s0 s : State} (h : Keeps s0 s) : Keeps s0 (restoreStart s) := by
  unfold restoreStart
  try dsimp only
  repeat' (first | with_reducible assumption | with_reducible apply keeps_restoreBoot | with_reducible apply keeps_setRole | with_reducible apply keeps_ite | split | (intro _ _ _; dsimp only) | (with_reducible refine keeps_mk ?_ rfl rfl rfl) | (intro _ _ _))

theorem keeps_execDramTrainingDone {s0 s : State} {a0} (h : Keeps s0 s) : KeepsOut s0 (execDramTrainingDone a0 s) := by
  unfold execDramTrainingDone
  try dsimp only
  repeat' (first | with_reducible assumption | with_reducible apply keeps_restoreStart | with_reducible apply keeps_failStart | with_reducible apply keeps_wakeChannel | with_reducible apply keeps_stepTraining | with_reducible apply keeps_checkOrder | with_reducible apply keeps_trainedBoth | with_reducible apply keeps_next | exact keeps_fault _ | with_reducible apply keeps_foldl | with_reducible apply keeps_foldl_fst | with_reducible apply keeps_foldl_snd | with_reducible apply keeps_ite | split | (intro _ _ _; dsimp only) | (with_reducible refine keeps_mk ?_ rfl rfl rfl) | (intro _ _ _))

theorem keeps_writeSetpoint {s0 s : State} {a1} (h : Keeps s0 s) : Keeps s0 (writeSetpoint s a1).2 := by
  unfold writeSetpoint
  try dsimp only
  repeat' (first | with_reducible assumption | with_reducible apply keeps_setDram | with_reducible apply keeps_changeSetpoint | with_reducible apply keeps_loseDirectory | with_reducible apply keeps_ite | split | (intro _ _ _; dsimp only) | (with_reducible refine keeps_mk ?_ rfl rfl rfl) | (intro _ _ _))

theorem keeps_writeTrain {s0 s : State} (h : Keeps s0 s) : Keeps s0 (writeTrain s).2 := by
  unfold writeTrain
  try dsimp only
  repeat' (first | with_reducible assumption | with_reducible apply keeps_startTraining | with_reducible apply keeps_loseDirectory | with_reducible apply keeps_ite | split | (intro _ _ _; dsimp only) | (with_reducible refine keeps_mk ?_ rfl rfl rfl) | (intro _ _ _))

theorem keeps_startUnmute {s0 s : State} (h : Keeps s0 s) : Keeps s0 (startUnmute s) := by
  unfold startUnmute
  try dsimp only
  repeat' (first | with_reducible assumption | with_reducible apply keeps_takeToken | with_reducible apply keeps_fadeOutlets | with_reducible apply keeps_setRole | with_reducible apply keeps_openWindows | with_reducible apply keeps_ite | split | (intro _ _ _; dsimp only) | (with_reducible refine keeps_mk ?_ rfl rfl rfl) | (intro _ _ _))

theorem keeps_execUnmuteStart {s0 s : State} (h : Keeps s0 s) : KeepsOut s0 (execUnmuteStart s) := by
  unfold execUnmuteStart
  try dsimp only
  repeat' (first | with_reducible assumption | with_reducible apply keeps_startUnmute | with_reducible apply keeps_next | exact keeps_fault _ | with_reducible apply keeps_ite | split | (intro _ _ _; dsimp only) | (with_reducible refine keeps_mk ?_ rfl rfl rfl) | (intro _ _ _))

theorem keeps_execStartUpDone {s0 s : State} (h : Keeps s0 s) : KeepsOut s0 (execStartUpDone s) := by
  unfold execStartUpDone
  try dsimp only
  repeat' (first | with_reducible assumption | with_reducible apply keeps_setN | with_reducible apply keeps_raise | with_reducible apply keeps_next | exact keeps_fault _ | with_reducible apply keeps_ite | split | (intro _ _ _; dsimp only) | (with_reducible refine keeps_mk ?_ rfl rfl rfl) | (intro _ _ _))

theorem keeps_writeFw {s0 s : State} {a1} (h : Keeps s0 s) : Keeps s0 (writeFw s a1) := by
  unfold writeFw
  try dsimp only
  repeat' (first | with_reducible assumption | with_reducible apply keeps_setFwSlot | with_reducible apply keeps_setN | with_reducible apply keeps_slotSequences | with_reducible apply keeps_ite | split | (intro _ _ _; dsimp only) | (with_reducible refine keeps_mk ?_ rfl rfl rfl) | (intro _ _ _))

theorem keeps_execFwProgramDone {s0 s : State} (h : Keeps s0 s) : KeepsOut s0 (execFwProgramDone s) := by
  unfold execFwProgramDone
  try dsimp only
  repeat' (first | with_reducible assumption | with_reducible apply keeps_setFwSlot | with_reducible apply keeps_setN | with_reducible apply keeps_next | exact keeps_fault _ | with_reducible apply keeps_foldl | with_reducible apply keeps_foldl_fst | with_reducible apply keeps_foldl_snd | with_reducible apply keeps_ite | split | (intro _ _ _; dsimp only) | (with_reducible refine keeps_mk ?_ rfl rfl rfl) | (intro _ _ _))

theorem keeps_execFwVerifyDone {s0 s : State} (h : Keeps s0 s) : KeepsOut s0 (execFwVerifyDone s) := by
  unfold execFwVerifyDone
  try dsimp only
  repeat' (first | with_reducible assumption | with_reducible apply keeps_setFwSlot | with_reducible apply keeps_setN | with_reducible apply keeps_slotSequences | with_reducible apply keeps_next | exact keeps_fault _ | with_reducible apply keeps_ite | split | (intro _ _ _; dsimp only) | (with_reducible refine keeps_mk ?_ rfl rfl rfl) | (intro _ _ _))

end Sys2Proof.Machine
end

