-- ==== Sys2Proof/Laws/KeepsAccess.lean ====
section
/-!
SUPPORT. Laws/KeepsAccess.lean: the operations of Machine/Access.lean keep the queue, time, the memories and the fuses (Laws/Keeps.lean).
-/
-- One declaration at a time and no linter: the package is compiled as one text under a memory limit.
set_option linter.all false
set_option Elab.async false
namespace Sys2Proof.Machine

theorem keeps_ownMarks {s0 s : State} {a1 a2 a3} (h : Keeps s0 s) : Keeps s0 (ownMarks s a1 a2 a3) := by
  unfold ownMarks
  try dsimp only
  repeat' (first | with_reducible assumption | with_reducible apply keeps_openContext | with_reducible apply keeps_setN | with_reducible apply keeps_ite | split | (intro _ _ _; dsimp only) | (with_reducible refine keeps_mk ?_ rfl rfl rfl) | (intro _ _ _))

theorem keeps_checkWrite {s0 s : State} {a1 a2 a3} (h : Keeps s0 s) : Keeps s0 (checkWrite s a1 a2 a3).2.2 := by
  unfold checkWrite
  try dsimp only
  repeat' (first | with_reducible assumption | with_reducible apply keeps_ownMarks | with_reducible apply keeps_ite | split | (intro _ _ _; dsimp only) | (with_reducible refine keeps_mk ?_ rfl rfl rfl) | (intro _ _ _))

theorem keeps_writeEntry {s0 s : State} {a1 a2} (h : Keeps s0 s) : Keeps s0 (writeEntry s a1 a2) := by
  unfold writeEntry
  try dsimp only
  repeat' (first | with_reducible assumption | with_reducible apply keeps_setBank | with_reducible apply keeps_foldl | with_reducible apply keeps_foldl_fst | with_reducible apply keeps_foldl_snd | with_reducible apply keeps_ite | split | (intro _ _ _; dsimp only) | (with_reducible refine keeps_mk ?_ rfl rfl rfl) | (intro _ _ _))

theorem keeps_stageWrite {s0 s : State} {a1 a2} (h : Keeps s0 s) : Keeps s0 (stageWrite s a1 a2) := by
  unfold stageWrite
  try dsimp only
  repeat' (first | with_reducible assumption | with_reducible apply keeps_setBank | with_reducible apply keeps_writeEntry | with_reducible apply keeps_ite | split | (intro _ _ _; dsimp only) | (with_reducible refine keeps_mk ?_ rfl rfl rfl) | (intro _ _ _))

theorem keeps_closeBy {s0 s : State} {a1} (h : Keeps s0 s) : Keeps s0 (closeBy s a1) := by
  unfold closeBy
  try dsimp only
  repeat' (first | with_reducible assumption | with_reducible apply keeps_closeSession | with_reducible apply keeps_disablePair | with_reducible apply keeps_setPair | with_reducible apply keeps_raisePair | with_reducible apply keeps_ite | split | (intro _ _ _; dsimp only) | (with_reducible refine keeps_mk ?_ rfl rfl rfl) | (intro _ _ _))

theorem keeps_restartRing {s0 s : State} {a1} (h : Keeps s0 s) : Keeps s0 (restartRing s a1) := by
  exact h.same rfl

theorem keeps_stageFactory {s0 s : State} (h : Keeps s0 s) : Keeps s0 (stageFactory s) := by
  exact h.same rfl

theorem keeps_act {s0 s : State} {a1 a2 a3} (h : Keeps s0 s) : Keeps s0 (act s a1 a2 a3) := by
  unfold act
  try dsimp only
  repeat' (first | with_reducible assumption | with_reducible apply keeps_restartRing | with_reducible apply keeps_doReadback | with_reducible apply keeps_writeTrain | with_reducible apply keeps_openContext | with_reducible apply keeps_closeBy | with_reducible apply keeps_landLive | with_reducible apply keeps_formRecord | with_reducible apply keeps_doReqMode | with_reducible apply keeps_internalReset | with_reducible apply keeps_doRenumber | with_reducible apply keeps_setN | with_reducible apply keeps_acceptStep | with_reducible apply keeps_realignOutputs | with_reducible apply keeps_stageFactory | with_reducible apply keeps_clearMembers | with_reducible apply keeps_rejectStep | with_reducible apply keeps_doDiscard | with_reducible apply keeps_writeFw | with_reducible apply keeps_requestHandover | with_reducible apply keeps_setDom | with_reducible apply keeps_doCancel | with_reducible apply keeps_ite | split | (intro _ _ _; dsimp only) | (with_reducible refine keeps_mk ?_ rfl rfl rfl) | (intro _ _ _))

theorem keeps_liveWrite {s0 s : State} {a1 a2 a3} (h : Keeps s0 s) : Keeps s0 (liveWrite s a1 a2 a3) := by
  unfold liveWrite
  try dsimp only
  repeat' (first | with_reducible assumption | with_reducible apply keeps_landLive | with_reducible apply keeps_writeSetpoint | with_reducible apply keeps_setF | with_reducible apply keeps_setSess | with_reducible apply keeps_ite | split | (intro _ _ _; dsimp only) | (with_reducible refine keeps_mk ?_ rfl rfl rfl) | (intro _ _ _))

theorem keeps_writeEffect {s0 s : State} {a1 a2 a3} (h : Keeps s0 s) : Keeps s0 (writeEffect s a1 a2 a3) := by
  unfold writeEffect
  try dsimp only
  repeat' (first | with_reducible assumption | with_reducible apply keeps_act | with_reducible apply keeps_stageWrite | with_reducible apply keeps_liveWrite | with_reducible apply keeps_ite | split | (intro _ _ _; dsimp only) | (with_reducible refine keeps_mk ?_ rfl rfl rfl) | (intro _ _ _))

theorem keeps_writeAll {s0 s : State} {a1 a2} (h : Keeps s0 s) : Keeps s0 (writeAll s a1 a2) := by
  unfold writeAll
  try dsimp only
  repeat' (first | with_reducible assumption | with_reducible apply keeps_recordWrites | with_reducible apply keeps_writeEffect | with_reducible apply keeps_foldl | with_reducible apply keeps_foldl_fst | with_reducible apply keeps_foldl_snd | with_reducible apply keeps_ite | split | (intro _ _ _; dsimp only) | (with_reducible refine keeps_mk ?_ rfl rfl rfl) | (intro _ _ _))

end Sys2Proof.Machine
end

