-- ==== Sys2Proof/Laws/KeepsDynamics.lean ====
section
/-!
SUPPORT. Laws/KeepsDynamics.lean: the operations of Machine/Dynamics.lean keep the queue, time, the memories and the fuses (Laws/Keeps.lean).
-/
-- One declaration at a time and no linter: the package is compiled as one text under a memory limit.
set_option linter.all false
set_option Elab.async false
namespace Sys2Proof.Machine

theorem keeps_reportUnit {s0 s : State} {a1 a2 a3} (h : Keeps s0 s) : Keeps s0 (reportUnit s a1 a2 a3) := by
  exact h.same rfl

end Sys2Proof.Machine
end

