-- ==== Sys2Proof/Laws/KeepsStrips.lean ====
section
/-!
SUPPORT. Laws/KeepsStrips.lean: the operations of Machine/Strips.lean keep the queue, time, the memories and the fuses (Laws/Keeps.lean).
-/
-- One declaration at a time and no linter: the package is compiled as one text under a memory limit.
set_option linter.all false
set_option Elab.async false
namespace Sys2Proof.Machine

theorem keeps_stripFront {s0 s : State} {a1 a2 a3 a4 a5} (h : Keeps s0 s) : Keeps s0 (stripFront s a1 a2 a3 a4 a5).1 := by
  unfold stripFront
  try dsimp only
  repeat' (first | with_reducible assumption | with_reducible apply keeps_loadDue | with_reducible apply keeps_stepRamp | with_reducible apply keeps_ite | split | (intro _ _ _; dsimp only) | (with_reducible refine keeps_mk ?_ rfl rfl rfl) | (intro _ _ _))

theorem keeps_stripBack {s0 s : State} {a1 a2 a3 a4} (h : Keeps s0 s) : Keeps s0 (stripBack s a1 a2 a3 a4).1 := by
  unfold stripBack
  try dsimp only
  repeat' (first | with_reducible assumption | with_reducible apply keeps_putUnit | with_reducible apply keeps_stepRamp | with_reducible apply keeps_ite | split | (intro _ _ _; dsimp only) | (with_reducible refine keeps_mk ?_ rfl rfl rfl) | (intro _ _ _))

theorem keeps_makeupOf {s0 s : State} {a1 a2} (h : Keeps s0 s) : Keeps s0 (makeupOf s a1 a2).2 := by
  unfold makeupOf
  try dsimp only
  repeat' (first | with_reducible assumption | with_reducible apply keeps_stepRamp | with_reducible apply keeps_ite | split | (intro _ _ _; dsimp only) | (with_reducible refine keeps_mk ?_ rfl rfl rfl) | (intro _ _ _))

theorem keeps_frontAll {s0 : State} {hz f i : Nat} {b : Bool} (l : List Obj) : ∀ {s : State}, Keeps s0 s → Keeps s0 (frontAll hz f i b l s).1 := by
  induction l with
  | nil => intro s h; exact h
  | cons v r ih => intro s h; exact ih (keeps_stripFront h)

theorem keeps_gateRound {s0 : State} {a0 a1 a2 a3} (l : List Work) : ∀ {s : State}, Keeps s0 s → Keeps s0 (gateRound a0 a1 a2 a3 l s).1 := by
  induction l with
  | nil => intro s h; exact h
  | cons w r ih =>
    intro s h
    unfold gateRound
    dsimp only
    split
    · exact ih h
    · exact ih (keeps_makeupOf h)

theorem keeps_gateRounds {s0 : State} {a0 a1} (k : Nat) : ∀ {s : State} {l}, Keeps s0 s → Keeps s0 (gateRounds a0 a1 k l s).1 := by
  induction k with
  | zero => intro s l h; exact h
  | succ k ih =>
    intro s l h
    unfold gateRounds
    dsimp only
    split
    · exact h
    · exact ih (keeps_gateRound _ h)

theorem keeps_compAll {s0 : State} {a0 a1} (l : List Work) : ∀ {s : State}, Keeps s0 s → Keeps s0 (compAll a0 a1 l s).1 := by
  induction l with
  | nil => intro s h; exact h
  | cons w r ih => intro s h; exact ih (keeps_makeupOf h)

theorem keeps_backAll {s0 : State} {i : Nat} {b : Bool} (l : List Work) : ∀ {s : State} {o}, Keeps s0 s → Keeps s0 (backAll i b l s o).1 := by
  induction l with
  | nil => intro s o h; exact h
  | cons v r ih => intro s o h; exact ih (keeps_stripBack h)

theorem keeps_stripSample {s0 s : State} {a b c d e f g} (h : Keeps s0 s) : Keeps s0 (stripSample a b c d e f s g).1 :=
  keeps_backAll _ (keeps_compAll _ (keeps_gateRounds _ (keeps_frontAll _ h)))

theorem keeps_autoTargets {s0 s : State} {a1 a2} (h : Keeps s0 s) : Keeps s0 (autoTargets s a1 a2) := by
  unfold autoTargets
  try dsimp only
  repeat' (first | with_reducible assumption | with_reducible apply keeps_setN | with_reducible apply keeps_foldl | with_reducible apply keeps_foldl_fst | with_reducible apply keeps_foldl_snd | with_reducible apply keeps_ite | split | (intro _ _ _; dsimp only) | (with_reducible refine keeps_mk ?_ rfl rfl rfl) | (intro _ _ _))

theorem keeps_leaveAuto {s0 s : State} {a1} (h : Keeps s0 s) : Keeps s0 (leaveAuto s a1) := by
  unfold leaveAuto
  try dsimp only
  repeat' (first | with_reducible assumption | with_reducible apply keeps_setN | with_reducible apply keeps_ite | split | (intro _ _ _; dsimp only) | (with_reducible refine keeps_mk ?_ rfl rfl rfl) | (intro _ _ _))

theorem keeps_busBack {s0 s : State} {a1} (h : Keeps s0 s) : Keeps s0 (busBack s a1).1 := by
  unfold busBack
  try dsimp only
  repeat' (first | with_reducible assumption | with_reducible apply keeps_putUnit | with_reducible apply keeps_stepRamp | with_reducible apply keeps_ite | split | (intro _ _ _; dsimp only) | (with_reducible refine keeps_mk ?_ rfl rfl rfl) | (intro _ _ _))

theorem keeps_busMakeup {s0 s : State} {a1 a2} (h : Keeps s0 s) : Keeps s0 (busMakeup s a1 a2).2 := by
  unfold busMakeup
  try dsimp only
  repeat' (first | with_reducible assumption | with_reducible apply keeps_stepRamp | with_reducible apply keeps_ite | split | (intro _ _ _; dsimp only) | (with_reducible refine keeps_mk ?_ rfl rfl rfl) | (intro _ _ _))

theorem keeps_busSample {s0 s : State} {a0 a1 a2 a3 a4 a5 a7} (h : Keeps s0 s) : Keeps s0 (busSample a0 a1 a2 a3 a4 a5 s a7).1 := by
  unfold busSample
  try dsimp only
  repeat' (first | with_reducible assumption | with_reducible apply keeps_busBack | with_reducible apply keeps_busMakeup | with_reducible apply keeps_foldl | with_reducible apply keeps_foldl_fst | with_reducible apply keeps_foldl_snd | with_reducible apply keeps_ite | split | (intro _ _ _; dsimp only) | (with_reducible refine keeps_mk ?_ rfl rfl rfl) | (intro _ _ _))

theorem keeps_closeUnit {s0 s : State} {a1 a2} (h : Keeps s0 s) : Keeps s0 (closeUnit s a1 a2) := by
  unfold closeUnit
  try dsimp only
  repeat' (first | with_reducible assumption | with_reducible apply keeps_bump | with_reducible apply keeps_putUnit | with_reducible apply keeps_ite | split | (intro _ _ _; dsimp only) | (with_reducible refine keeps_mk ?_ rfl rfl rfl) | (intro _ _ _))

end Sys2Proof.Machine
end

