-- ==== Sys2Proof/Laws/KeepsViews.lean ====
section
/-!
SUPPORT. Laws/KeepsViews.lean: the operations of Machine/Views.lean keep the queue, time, the memories and the fuses (Laws/Keeps.lean).
-/
-- One declaration at a time and no linter: the package is compiled as one text under a memory limit.
set_option linter.all false
set_option Elab.async false
namespace Sys2Proof.Machine

theorem keeps_examineOne {s0 s : State} {a1 a2 a3} (h : Keeps s0 s) : Keeps s0 (examineOne s a1 a2 a3) := by
  unfold examineOne
  try dsimp only
  repeat' (first | with_reducible assumption | with_reducible apply keeps_pushNotif | with_reducible apply keeps_setSess | with_reducible apply keeps_ite | split | (intro _ _ _; dsimp only) | (with_reducible refine keeps_mk ?_ rfl rfl rfl) | (intro _ _ _))

theorem keeps_examine {s0 s : State} {a1} (h : Keeps s0 s) : Keeps s0 (examine s a1) := by
  unfold examine
  try dsimp only
  repeat' (first | with_reducible assumption | with_reducible apply keeps_examineOne | with_reducible apply keeps_foldl | with_reducible apply keeps_foldl_fst | with_reducible apply keeps_foldl_snd | with_reducible apply keeps_ite | split | (intro _ _ _; dsimp only) | (with_reducible refine keeps_mk ?_ rfl rfl rfl) | (intro _ _ _))

theorem keeps_examineTick {s0 s : State} {a1} (h : Keeps s0 s) : Keeps s0 (examineTick s a1) := by
  unfold examineTick
  try dsimp only
  repeat' (first | with_reducible assumption | with_reducible apply keeps_examine | with_reducible apply keeps_ite | split | (intro _ _ _; dsimp only) | (with_reducible refine keeps_mk ?_ rfl rfl rfl) | (intro _ _ _))

theorem keeps_examineNow {s0 s : State} (h : Keeps s0 s) : Keeps s0 (examineNow s) := by
  unfold examineNow
  try dsimp only
  repeat' (first | with_reducible assumption | with_reducible apply keeps_examine | with_reducible apply keeps_ite | split | (intro _ _ _; dsimp only) | (with_reducible refine keeps_mk ?_ rfl rfl rfl) | (intro _ _ _))

theorem keeps_execSubscriptionIntervalEnd {s0 s : State} {a0 a1 a2} (h : Keeps s0 s) : KeepsOut s0 (execSubscriptionIntervalEnd a0 a1 a2 s) := by
  unfold execSubscriptionIntervalEnd
  try dsimp only
  repeat' (first | with_reducible assumption | with_reducible apply keeps_examineOne | with_reducible apply keeps_setSess | with_reducible apply keeps_next | exact keeps_fault _ | with_reducible apply keeps_ite | split | (intro _ _ _; dsimp only) | (with_reducible refine keeps_mk ?_ rfl rfl rfl) | (intro _ _ _))

end Sys2Proof.Machine
end

