-- ==== Sys2Proof/Laws/KeepsFrame.lean ====
section
/-!
SUPPORT. Laws/KeepsFrame.lean: the operations of Machine/Frame.lean keep the queue, time, the memories and the fuses (Laws/Keeps.lean).
-/
-- One declaration at a time and no linter: the package is compiled as one text under a memory limit.
set_option linter.all false
set_option Elab.async false
namespace Sys2Proof.Machine

theorem keeps_openLanes {s0 s : State} {a1 a2} (h : Keeps s0 s) : Keeps s0 (openLanes s a1 a2) := by
  unfold openLanes
  try dsimp only
  repeat' (first | with_reducible assumption | with_reducible apply keeps_openLane | with_reducible apply keeps_foldl | with_reducible apply keeps_foldl_fst | with_reducible apply keeps_foldl_snd | with_reducible apply keeps_ite | split | (intro _ _ _; dsimp only) | (with_reducible refine keeps_mk ?_ rfl rfl rfl) | (intro _ _ _))

theorem keeps_runProgram {s0 s : State} {a1 a2 a3 a4 a5} (h : Keeps s0 s) : Keeps s0 (runProgram s a1 a2 a3 a4 a5) := by
  unfold runProgram
  try dsimp only
  repeat' (first | with_reducible assumption | with_reducible apply keeps_passProgram | with_reducible apply keeps_runPlacement | with_reducible apply keeps_runCustomer | with_reducible apply keeps_ite | split | (intro _ _ _; dsimp only) | (with_reducible refine keeps_mk ?_ rfl rfl rfl) | (intro _ _ _))

theorem keeps_runLanes {s0 s : State} {a1 a2 a3 a4} (h : Keeps s0 s) : Keeps s0 (runLanes s a1 a2 a3 a4) := by
  unfold runLanes
  try dsimp only
  repeat' (first | with_reducible assumption | with_reducible apply keeps_runProgram | with_reducible apply keeps_foldl | with_reducible apply keeps_foldl_fst | with_reducible apply keeps_foldl_snd | with_reducible apply keeps_ite | split | (intro _ _ _; dsimp only) | (with_reducible refine keeps_mk ?_ rfl rfl rfl) | (intro _ _ _))

theorem keeps_landPhase {s0 s : State} {a1 a2 a3 a4} (h : Keeps s0 s) : Keeps s0 (landPhase s a1 a2 a3 a4) := by
  unfold landPhase
  try dsimp only
  repeat' (first | with_reducible assumption | with_reducible apply keeps_landAudio | with_reducible apply keeps_ite | split | (intro _ _ _; dsimp only) | (with_reducible refine keeps_mk ?_ rfl rfl rfl) | (intro _ _ _))

theorem keeps_landFrame {s0 s : State} {a1 a2 a3} (h : Keeps s0 s) : Keeps s0 (landFrame s a1 a2 a3) := by
  unfold landFrame
  try dsimp only
  repeat' (first | with_reducible assumption | with_reducible apply keeps_landPhase | with_reducible apply keeps_foldl | with_reducible apply keeps_foldl_fst | with_reducible apply keeps_foldl_snd | with_reducible apply keeps_ite | split | (intro _ _ _; dsimp only) | (with_reducible refine keeps_mk ?_ rfl rfl rfl) | (intro _ _ _))

theorem keeps_reportAll {s0 s : State} {a1} (h : Keeps s0 s) : Keeps s0 (reportAll s a1) := by
  unfold reportAll
  try dsimp only
  repeat' (first | with_reducible assumption | with_reducible apply keeps_reportUnit | with_reducible apply keeps_foldl | with_reducible apply keeps_foldl_fst | with_reducible apply keeps_foldl_snd | with_reducible apply keeps_ite | split | (intro _ _ _; dsimp only) | (with_reducible refine keeps_mk ?_ rfl rfl rfl) | (intro _ _ _))

theorem keeps_stripSamples {s0 : State} {a b c d e f} (l : List Nat) : ∀ {s : State} {o r}, Keeps s0 s → Keeps s0 (stripSamples a b c d e f l s o r).1 := by
  induction l with
  | nil => intro s o r h; exact h
  | cons v l ih => intro s o r h; exact ih (keeps_stripSample (keeps_landPhase h))

theorem keeps_recordPass {s0 s : State} {a1 a2 a3 a4 a5} (h : Keeps s0 s) : Keeps s0 (recordPass s a1 a2 a3 a4 a5) := by
  unfold recordPass
  try dsimp only
  repeat' (first | with_reducible assumption | with_reducible apply keeps_stripSamples | with_reducible apply keeps_ite | split | (intro _ _ _; dsimp only) | (with_reducible refine keeps_mk ?_ rfl rfl rfl) | (intro _ _ _))

theorem keeps_lineBeats {s0 s : State} {a1 a2 a3} (h : Keeps s0 s) : Keeps s0 (lineBeats s a1 a2 a3) := by
  unfold lineBeats
  try dsimp only
  repeat' (first | with_reducible assumption | with_reducible apply keeps_spendBeats | with_reducible apply keeps_foldl | with_reducible apply keeps_foldl_fst | with_reducible apply keeps_foldl_snd | with_reducible apply keeps_ite | split | (intro _ _ _; dsimp only) | (with_reducible refine keeps_mk ?_ rfl rfl rfl) | (intro _ _ _))

theorem keeps_serveIdle {s0 s : State} {a1 a2} (h : Keeps s0 s) : Keeps s0 (serveIdle s a1 a2) := by
  unfold serveIdle
  try dsimp only
  repeat' (first | with_reducible assumption | with_reducible apply keeps_putUnit | with_reducible apply keeps_putOut | with_reducible apply keeps_foldl | with_reducible apply keeps_foldl_fst | with_reducible apply keeps_foldl_snd | with_reducible apply keeps_ite | split | (intro _ _ _; dsimp only) | (with_reducible refine keeps_mk ?_ rfl rfl rfl) | (intro _ _ _))

theorem keeps_stripWindow {s0 s : State} {a1 a2 a3} (h : Keeps s0 s) : Keeps s0 (stripWindow s a1 a2 a3) := by
  unfold stripWindow
  extract_lets ts hz all t0 a r us s1 q s2 s3 s4 s5
  have h0 : Keeps s0 t0 := keeps_openLanes (keeps_landPhase h)
  have ha : memWf t0.mem = true → memWf a.mem = true := (keeps_recordPass (Keeps.refl t0)).mem
  have hr : Keeps s0 r := keeps_runLanes ((keeps_mem h0 ha).same rfl)
  have h1 : Keeps s0 s1 := keeps_serveIdle (keeps_lineBeats hr)
  have h2 : Keeps s0 s2 := keeps_reportAll (keeps_stripSamples _ h1)
  have h3 : Keeps s0 s3 := keeps_foldl (fun _ _ ht => keeps_setN (keeps_closeUnit ht)) h2
  have h4 : Keeps s0 s4 := keeps_foldl (fun _ _ ht => keeps_ite (keeps_autoTargets ht) ht) h3
  have h5 : Keeps s0 s5 := keeps_foldl (fun _ _ ht => keeps_leaveAuto ht) h4
  exact keeps_captureFrame (keeps_foldl (fun _ _ ht => keeps_putSig ht) h5)

theorem keeps_rowSamples {s0 : State} {a b c d e} (l : List Nat) : ∀ {s : State} {o}, Keeps s0 s → Keeps s0 (rowSamples a b c d e l s o).1 := by
  induction l with
  | nil => intro s o h; exact h
  | cons v l ih => intro s o h; exact ih (keeps_rowsSample (keeps_landPhase h))

theorem keeps_stepRows {s0 s : State} {a0} (h : Keeps s0 s) : Keeps s0 (stepRows a0 s) := by
  unfold stepRows
  try dsimp only
  repeat' (first | with_reducible assumption | with_reducible apply keeps_stepRamp | with_reducible apply keeps_foldl | with_reducible apply keeps_foldl_fst | with_reducible apply keeps_foldl_snd | with_reducible apply keeps_ite | split | (intro _ _ _; dsimp only) | (with_reducible refine keeps_mk ?_ rfl rfl rfl) | (intro _ _ _))

theorem keeps_crossWindow {s0 s : State} {a1 a2 a3 a4 a5 a6} (h : Keeps s0 s) : Keeps s0 (crossWindow s a1 a2 a3 a4 a5 a6) := by
  unfold crossWindow
  try dsimp only
  repeat' (first | with_reducible assumption | with_reducible apply keeps_putSlot | with_reducible apply keeps_rowSamples | with_reducible apply keeps_foldl | with_reducible apply keeps_foldl_fst | with_reducible apply keeps_foldl_snd | with_reducible apply keeps_ite | split | (intro _ _ _; dsimp only) | (with_reducible refine keeps_mk ?_ rfl rfl rfl) | (intro _ _ _))

theorem keeps_busSamples {s0 : State} {a b c d e f} (l : List Nat) : ∀ {s : State} {o r}, Keeps s0 s → Keeps s0 (busSamples a b c d e f l s o r).1 := by
  induction l with
  | nil => intro s o r h; exact h
  | cons v l ih => intro s o r h; exact ih (keeps_busSample (keeps_landPhase h))

theorem keeps_busWindow {s0 s : State} {a1 a2 a3 a4 a5 a6 a7} (h : Keeps s0 s) : Keeps s0 (busWindow s a1 a2 a3 a4 a5 a6 a7) := by
  unfold busWindow
  try dsimp only
  repeat' (first | with_reducible assumption | with_reducible apply keeps_openLanes | with_reducible apply keeps_runLanes | with_reducible apply keeps_reportAll | with_reducible apply keeps_putSlot | with_reducible apply keeps_busSamples | with_reducible apply keeps_landPhase | with_reducible apply keeps_closeUnit | with_reducible apply keeps_foldl | with_reducible apply keeps_foldl_fst | with_reducible apply keeps_foldl_snd | with_reducible apply keeps_ite | split | (intro _ _ _; dsimp only) | (with_reducible refine keeps_mk ?_ rfl rfl rfl) | (intro _ _ _))

theorem keeps_outsSample {s0 s : State} {a0 a1 a2 a3 a5} (h : Keeps s0 s) : Keeps s0 (outsSample a0 a1 a2 a3 s a5).1 := by
  unfold outsSample
  try dsimp only
  repeat' (first | with_reducible assumption | with_reducible apply keeps_outStep | with_reducible apply keeps_foldl | with_reducible apply keeps_foldl_fst | with_reducible apply keeps_foldl_snd | with_reducible apply keeps_ite | split | (intro _ _ _; dsimp only) | (with_reducible refine keeps_mk ?_ rfl rfl rfl) | (intro _ _ _))

theorem keeps_outSamples {s0 : State} {a b c d} (l : List Nat) : ∀ {s : State} {o}, Keeps s0 s → Keeps s0 (outSamples a b c d l s o).1 := by
  induction l with
  | nil => intro s o h; exact h
  | cons v l ih => intro s o h; exact ih (keeps_outsSample (keeps_landPhase h))

theorem keeps_reportOut {s0 s : State} {a1} (h : Keeps s0 s) : Keeps s0 (reportOut s a1) := by
  unfold reportOut
  try dsimp only
  repeat' (first | with_reducible assumption | with_reducible apply keeps_closeOut | with_reducible apply keeps_setN | with_reducible apply keeps_ite | split | (intro _ _ _; dsimp only) | (with_reducible refine keeps_mk ?_ rfl rfl rfl) | (intro _ _ _))

theorem keeps_outputWindow {s0 s : State} {a1 a2 a3} (h : Keeps s0 s) : Keeps s0 (outputWindow s a1 a2 a3) := by
  unfold outputWindow
  try dsimp only
  repeat' (first | with_reducible assumption | with_reducible apply keeps_openLanes | with_reducible apply keeps_runLanes | with_reducible apply keeps_lineBeats | with_reducible apply keeps_putSlot | with_reducible apply keeps_outSamples | with_reducible apply keeps_reportOut | with_reducible apply keeps_landPhase | with_reducible apply keeps_putSig | with_reducible apply keeps_serveIdle | with_reducible apply keeps_foldl | with_reducible apply keeps_foldl_fst | with_reducible apply keeps_foldl_snd | with_reducible apply keeps_ite | split | (intro _ _ _; dsimp only) | (with_reducible refine keeps_mk ?_ rfl rfl rfl) | (intro _ _ _))

theorem keeps_ingestWindow {s0 s : State} {a1 a2 a3 a4} (h : Keeps s0 s) : Keeps s0 (ingestWindow s a1 a2 a3 a4) := by
  unfold ingestWindow
  try dsimp only
  repeat' (first | with_reducible assumption | with_reducible apply keeps_bridgeGive | with_reducible apply keeps_ingestRing | with_reducible apply keeps_ingestPort | with_reducible apply keeps_ingestCtx | with_reducible apply keeps_foldl | with_reducible apply keeps_foldl_fst | with_reducible apply keeps_foldl_snd | with_reducible apply keeps_ite | split | (intro _ _ _; dsimp only) | (with_reducible refine keeps_mk ?_ rfl rfl rfl) | (intro _ _ _))

theorem keeps_examineWindow {s0 s : State} {a1 a2 a3} (h : Keeps s0 s) : Keeps s0 (examineWindow s a1 a2 a3) := by
  unfold examineWindow
  try dsimp only
  repeat' (first | with_reducible assumption | with_reducible apply keeps_examinePort | with_reducible apply keeps_foldl | with_reducible apply keeps_foldl_fst | with_reducible apply keeps_foldl_snd | with_reducible apply keeps_ite | split | (intro _ _ _; dsimp only) | (with_reducible refine keeps_mk ?_ rfl rfl rfl) | (intro _ _ _))

theorem keeps_egressWindow {s0 s : State} {a1 a2} (h : Keeps s0 s) : Keeps s0 (egressWindow s a1 a2) := by
  unfold egressWindow
  try dsimp only
  repeat' (first | with_reducible assumption | with_reducible apply keeps_stepReadback | with_reducible apply keeps_clearMedia | with_reducible apply keeps_joinRelease | with_reducible apply keeps_egressPort | with_reducible apply keeps_passToken | with_reducible apply keeps_setOutFade | with_reducible apply keeps_bridgeTake | with_reducible apply keeps_fatalRelease | with_reducible apply keeps_outletsFrame | with_reducible apply keeps_sendBurst | with_reducible apply keeps_egressRing | with_reducible apply keeps_egressCtx | with_reducible apply keeps_foldl | with_reducible apply keeps_foldl_fst | with_reducible apply keeps_foldl_snd | with_reducible apply keeps_ite | split | (intro _ _ _; dsimp only) | (with_reducible refine keeps_mk ?_ rfl rfl rfl) | (intro _ _ _))

theorem keeps_testBeats {s0 s : State} {a1} (h : Keeps s0 s) : Keeps s0 (testBeats s a1) := by
  unfold testBeats
  try dsimp only
  repeat' (first | with_reducible assumption | with_reducible apply keeps_spendBeats | with_reducible apply keeps_foldl | with_reducible apply keeps_foldl_fst | with_reducible apply keeps_foldl_snd | with_reducible apply keeps_ite | split | (intro _ _ _; dsimp only) | (with_reducible refine keeps_mk ?_ rfl rfl rfl) | (intro _ _ _))

theorem keeps_backgroundWindow {s0 s : State} {a1} (h : Keeps s0 s) : Keeps s0 (backgroundWindow s a1) := by
  unfold backgroundWindow
  try dsimp only
  repeat' (first | with_reducible assumption | with_reducible apply keeps_sageBeats | with_reducible apply keeps_testBeats | with_reducible apply keeps_startRowTests | with_reducible apply keeps_drainCapture | with_reducible apply keeps_sageWindow | with_reducible apply keeps_ite | split | (intro _ _ _; dsimp only) | (with_reducible refine keeps_mk ?_ rfl rfl rfl) | (intro _ _ _))

theorem keeps_loadSets {s0 s : State} {a1} (h : Keeps s0 s) : Keeps s0 (loadSets s a1) := by
  unfold loadSets
  split
  · next p _ =>
    split
    · have hc : Keeps s (p.set.foldl (fun t e => setF t e.1 e.2) s) := keeps_foldl (fun _ _ ht => keeps_setF ht) (Keeps.refl s)
      exact (keeps_mem h (keeps_foldl (fun _ _ ht => keeps_loadCoef ht) hc).mem).same rfl
    · exact h
  · exact h

theorem keeps_queueRamps {s0 s : State} {a1} (h : Keeps s0 s) : Keeps s0 (queueRamps s a1) := by
  exact h.same rfl

theorem keeps_exportFront {s0 s : State} {a1} (h : Keeps s0 s) : Keeps s0 (exportFront s a1) := by
  unfold exportFront
  try dsimp only
  repeat' (first | with_reducible assumption | with_reducible apply keeps_queueRamps | with_reducible apply keeps_ite | split | (intro _ _ _; dsimp only) | (with_reducible refine keeps_mk ?_ rfl rfl rfl) | (intro _ _ _))

theorem keeps_exportBack {s0 s : State} {a1 a2} (h : Keeps s0 s) : Keeps s0 (exportBack s a1 a2) := by
  unfold exportBack
  try dsimp only
  repeat' (first | with_reducible assumption | with_reducible apply keeps_ite | split | (intro _ _ _; dsimp only) | (with_reducible refine keeps_mk ?_ rfl rfl rfl) | (intro _ _ _))

theorem keeps_audioPhase {s0 s : State} {a1 a2 a3 a4 a5} (h : Keeps s0 s) : Keeps s0 (audioPhase s a1 a2 a3 a4 a5) := by
  unfold audioPhase
  try dsimp only
  repeat' (first | with_reducible assumption | with_reducible apply keeps_egressWindow | with_reducible apply keeps_stripWindow | with_reducible apply keeps_outputWindow | with_reducible apply keeps_crossWindow | with_reducible apply keeps_ingestWindow | with_reducible apply keeps_busWindow | with_reducible apply keeps_exportBack | with_reducible apply keeps_ite | split | (intro _ _ _; dsimp only) | (with_reducible refine keeps_mk ?_ rfl rfl rfl) | (intro _ _ _))

theorem keeps_standbyPhase {s0 s : State} {a1 a2 a3 a4 a5} (h : Keeps s0 s) : Keeps s0 (standbyPhase s a1 a2 a3 a4 a5) := by
  unfold standbyPhase
  try dsimp only
  repeat' (first | with_reducible assumption | with_reducible apply keeps_landFrame | with_reducible apply keeps_outletsFrame | with_reducible apply keeps_idleSdo | with_reducible apply keeps_stepRows | with_reducible apply keeps_ingestWindow | with_reducible apply keeps_landPhase | with_reducible apply keeps_foldl | with_reducible apply keeps_foldl_fst | with_reducible apply keeps_foldl_snd | with_reducible apply keeps_ite | split | (intro _ _ _; dsimp only) | (with_reducible refine keeps_mk ?_ rfl rfl rfl) | (intro _ _ _))

theorem keeps_phaseWork {s0 s : State} {a1 a2 a3 a4} (h : Keeps s0 s) : Keeps s0 (phaseWork s a1 a2 a3 a4) := by
  unfold phaseWork
  try dsimp only
  repeat' (first | with_reducible assumption | with_reducible apply keeps_audioPhase | with_reducible apply keeps_egressWindow | with_reducible apply keeps_landFrame | with_reducible apply keeps_scrubFrame | with_reducible apply keeps_exportFront | with_reducible apply keeps_backgroundWindow | with_reducible apply keeps_standbyPhase | with_reducible apply keeps_examineWindow | with_reducible apply keeps_loadSets | with_reducible apply keeps_ite | split | (intro _ _ _; dsimp only) | (with_reducible refine keeps_mk ?_ rfl rfl rfl) | (intro _ _ _))

theorem keeps_execPhaseWindowStart {s0 s : State} {a0 a1 a2 a3} (h : Keeps s0 s) : KeepsOut s0 (execPhaseWindowStart a0 a1 a2 a3 s) := by
  unfold execPhaseWindowStart
  try dsimp only
  repeat' (first | with_reducible assumption | with_reducible apply keeps_phaseWork | with_reducible apply keeps_clearMedia | with_reducible apply keeps_landWithin | with_reducible apply keeps_zeroPort | with_reducible apply keeps_quietPorts | with_reducible apply keeps_zeroCtx | with_reducible apply keeps_next | exact keeps_fault _ | with_reducible apply keeps_foldl | with_reducible apply keeps_foldl_fst | with_reducible apply keeps_foldl_snd | with_reducible apply keeps_ite | split | (intro _ _ _; dsimp only) | (with_reducible refine keeps_mk ?_ rfl rfl rfl) | (intro _ _ _))

theorem keeps_cutOne {s0 s : State} {a1 a2} (h : Keeps s0 s) : Keeps s0 (cutOne s a1 a2) := by
  unfold cutOne
  try dsimp only
  repeat' (first | with_reducible assumption | with_reducible apply keeps_bump | with_reducible apply keeps_putUnit | with_reducible apply keeps_repeatSlot | with_reducible apply keeps_putOut | with_reducible apply keeps_ite | split | (intro _ _ _; dsimp only) | (with_reducible refine keeps_mk ?_ rfl rfl rfl) | (intro _ _ _))

theorem keeps_execPhaseCutoff {s0 s : State} {a0 a1 a2} (h : Keeps s0 s) : KeepsOut s0 (execPhaseCutoff a0 a1 a2 s) := by
  unfold execPhaseCutoff
  try dsimp only
  repeat' (first | with_reducible assumption | with_reducible apply keeps_bump | with_reducible apply keeps_cutOne | with_reducible apply keeps_cancelReads | with_reducible apply keeps_next | exact keeps_fault _ | with_reducible apply keeps_foldl | with_reducible apply keeps_foldl_fst | with_reducible apply keeps_foldl_snd | with_reducible apply keeps_ite | split | (intro _ _ _; dsimp only) | (with_reducible refine keeps_mk ?_ rfl rfl rfl) | (intro _ _ _))

theorem keeps_execShadowCopyEnd {s0 s : State} {a0} (h : Keeps s0 s) : KeepsOut s0 (execShadowCopyEnd a0 s) := by
  unfold execShadowCopyEnd
  try dsimp only
  repeat' (first | with_reducible assumption | with_reducible apply keeps_addLanding | with_reducible apply keeps_next | exact keeps_fault _ | with_reducible apply keeps_foldl | with_reducible apply keeps_foldl_fst | with_reducible apply keeps_foldl_snd | with_reducible apply keeps_ite | split | (intro _ _ _; dsimp only) | (with_reducible refine keeps_mk ?_ rfl rfl rfl) | (intro _ _ _))

theorem keeps_execDrainComplete {s0 s : State} {a0} (h : Keeps s0 s) : KeepsOut s0 (execDrainComplete a0 s) := by
  unfold execDrainComplete
  try dsimp only
  repeat' (first | with_reducible assumption | with_reducible apply keeps_setLife | with_reducible apply keeps_next | exact keeps_fault _ | with_reducible apply keeps_ite | split | (intro _ _ _; dsimp only) | (with_reducible refine keeps_mk ?_ rfl rfl rfl) | (intro _ _ _))

theorem keeps_countGaps {s0 s : State} {a1 a2 a3} (h : Keeps s0 s) : Keeps s0 (countGaps s a1 a2 a3) := by
  unfold countGaps
  try dsimp only
  repeat' (first | with_reducible assumption | with_reducible apply keeps_bumpBy | with_reducible apply keeps_foldl | with_reducible apply keeps_foldl_fst | with_reducible apply keeps_foldl_snd | with_reducible apply keeps_ite | split | (intro _ _ _; dsimp only) | (with_reducible refine keeps_mk ?_ rfl rfl rfl) | (intro _ _ _))

theorem keeps_numberFrame {s0 s : State} {a1} (h : Keeps s0 s) : Keeps s0 (numberFrame s a1) := by
  unfold numberFrame
  try dsimp only
  repeat' (first | with_reducible assumption | with_reducible apply keeps_bump | with_reducible apply keeps_countGaps | with_reducible apply keeps_setDom | with_reducible apply keeps_ite | split | (intro _ _ _; dsimp only) | (with_reducible refine keeps_mk ?_ rfl rfl rfl) | (intro _ _ _))

theorem keeps_reloadEntry {s0 s : State} {a0 a2} (h : Keeps s0 s) : Keeps s0 (reloadEntry a0 s a2) := by
  unfold reloadEntry
  try dsimp only
  repeat' (first | with_reducible assumption | with_reducible apply keeps_setBudget | with_reducible apply keeps_setN | with_reducible apply keeps_ite | split | (intro _ _ _; dsimp only) | (with_reducible refine keeps_mk ?_ rfl rfl rfl) | (intro _ _ _))

theorem keeps_reloadTrans {s0 s : State} {a1 a2} (h : Keeps s0 s) : Keeps s0 (reloadTrans s a1 a2) := by
  exact h.same rfl

theorem keeps_reloadBudgets {s0 s : State} {a1} (h : Keeps s0 s) : Keeps s0 (reloadBudgets s a1) := by
  unfold reloadBudgets
  try dsimp only
  repeat' (first | with_reducible assumption | with_reducible apply keeps_grantNext | with_reducible apply keeps_reloadEntry | with_reducible apply keeps_reloadTrans | with_reducible apply keeps_foldl | with_reducible apply keeps_foldl_fst | with_reducible apply keeps_foldl_snd | with_reducible apply keeps_ite | split | (intro _ _ _; dsimp only) | (with_reducible refine keeps_mk ?_ rfl rfl rfl) | (intro _ _ _))

theorem keeps_stopUnits {s0 s : State} {a1} (h : Keeps s0 s) : Keeps s0 (stopUnits s a1) := by
  unfold stopUnits
  try dsimp only
  repeat' (first | with_reducible assumption | with_reducible apply keeps_stopFaulted | with_reducible apply keeps_foldl | with_reducible apply keeps_foldl_fst | with_reducible apply keeps_foldl_snd | with_reducible apply keeps_ite | split | (intro _ _ _; dsimp only) | (with_reducible refine keeps_mk ?_ rfl rfl rfl) | (intro _ _ _))

theorem keeps_tickUnits {s0 s : State} {a1} (h : Keeps s0 s) : Keeps s0 (tickUnits s a1) := by
  unfold tickUnits
  try dsimp only
  repeat' (first | with_reducible assumption | with_reducible apply keeps_tickPort | with_reducible apply keeps_tickReadback | with_reducible apply keeps_tickCtx | with_reducible apply keeps_sendBurst | with_reducible apply keeps_tickRing | with_reducible apply keeps_foldl | with_reducible apply keeps_foldl_fst | with_reducible apply keeps_foldl_snd | with_reducible apply keeps_ite | split | (intro _ _ _; dsimp only) | (with_reducible refine keeps_mk ?_ rfl rfl rfl) | (intro _ _ _))

theorem keeps_tickEngine {s0 s : State} {a1} (h : Keeps s0 s) : Keeps s0 (tickEngine s a1) := by
  unfold tickEngine
  try dsimp only
  repeat' (first | with_reducible assumption | with_reducible apply keeps_serviceByRole | with_reducible apply keeps_endPass | with_reducible apply keeps_tickPair | with_reducible apply keeps_retireMacs | with_reducible apply keeps_reportLoads | with_reducible apply keeps_tickPairRt | with_reducible apply keeps_foldl | with_reducible apply keeps_foldl_fst | with_reducible apply keeps_foldl_snd | with_reducible apply keeps_ite | split | (intro _ _ _; dsimp only) | (with_reducible refine keeps_mk ?_ rfl rfl rfl) | (intro _ _ _))

theorem keeps_tick {s0 s : State} {a1 a2} (h : Keeps s0 s) : Keeps s0 (tick s a1 a2) := by
  unfold tick
  try dsimp only
  repeat' (first | with_reducible assumption | with_reducible apply keeps_commitTick | with_reducible apply keeps_examineTick | with_reducible apply keeps_fatalTick | with_reducible apply keeps_applyStep | with_reducible apply keeps_armFade | with_reducible apply keeps_moveLanes | with_reducible apply keeps_selectAtTick | with_reducible apply keeps_tickEngine | with_reducible apply keeps_tickUnits | with_reducible apply keeps_reloadBudgets | with_reducible apply keeps_stopUnits | with_reducible apply keeps_lockTick | with_reducible apply keeps_slewTick | with_reducible apply keeps_numberFrame | with_reducible apply keeps_driveOutputs | with_reducible apply keeps_moveUnits | with_reducible apply keeps_landTicks | with_reducible apply keeps_servePhase | with_reducible apply keeps_ite | split | (intro _ _ _; dsimp only) | (with_reducible refine keeps_mk ?_ rfl rfl rfl) | (intro _ _ _))

theorem keeps_execFrameTick {s0 s : State} {a0 a1 a2} (h : Keeps s0 s) : KeepsOut s0 (execFrameTick a0 a1 a2 s) := by
  unfold execFrameTick
  try dsimp only
  repeat' (first | with_reducible assumption | with_reducible apply keeps_stopDomain | with_reducible apply keeps_atCycle | with_reducible apply keeps_tick | with_reducible apply keeps_quietPorts | with_reducible apply keeps_next | exact keeps_fault _ | with_reducible apply keeps_ite | split | (intro _ _ _; dsimp only) | (with_reducible refine keeps_mk ?_ rfl rfl rfl) | (intro _ _ _))

end Sys2Proof.Machine
end

