-- ==== Sys2Proof/Laws/KeepsServe.lean ====
section
/-!
SUPPORT. Laws/KeepsServe.lean: the operations of Machine/Serve.lean keep the queue, time, the memories and the fuses (Laws/Keeps.lean).
-/
-- One declaration at a time and no linter: the package is compiled as one text under a memory limit.
set_option linter.all false
set_option Elab.async false
namespace Sys2Proof.Machine

theorem keeps_dropLocks {s0 s : State} {a1} (h : Keeps s0 s) : Keeps s0 (dropLocks s a1) := by
  exact h.same rfl

theorem keeps_takeLock {s0 s : State} {a1 a2} (h : Keeps s0 s) : Keeps s0 (takeLock s a1 a2) := by
  exact h.same rfl

theorem keeps_endTxn {s0 s : State} {a1} (h : Keeps s0 s) : Keeps s0 (endTxn s a1) := by
  exact h.same rfl

theorem keeps_finishWrite {s0 s : State} {a1 a2} (h : Keeps s0 s) : Keeps s0 (finishWrite s a1 a2) := by
  unfold finishWrite
  try dsimp only
  repeat' (first | with_reducible assumption | with_reducible apply keeps_drawUpTo | with_reducible apply keeps_writeAll | with_reducible apply keeps_endTxn | with_reducible apply keeps_setSess | with_reducible apply keeps_reply | with_reducible apply keeps_ite | split | (intro _ _ _; dsimp only) | (with_reducible refine keeps_mk ?_ rfl rfl rfl) | (intro _ _ _))

theorem keeps_climb {s0 : State} {n w} (l : List Obj) : ∀ {s : State}, Keeps s0 s → Keeps s0 (climb s n w l) := by
  induction l with
  | nil => intro s h; exact keeps_finishWrite h
  | cons b r ih =>
    intro s h
    unfold climb
    split
    · exact keeps_setSess h
    · exact ih (keeps_takeLock h)

theorem keeps_runWrite {s0 s : State} {a1 a2 a3 a4 a5} (h : Keeps s0 s) : Keeps s0 (runWrite s a1 a2 a3 a4 a5) := by
  unfold runWrite
  try dsimp only
  repeat' (first | with_reducible assumption | with_reducible apply keeps_dropLocks | with_reducible apply keeps_climb | with_reducible apply keeps_ite | split | (intro _ _ _; dsimp only) | (with_reducible refine keeps_mk ?_ rfl rfl rfl) | (intro _ _ _))

theorem keeps_checkAll {s0 : State} {n} (l : List (Nat × TVal)) : ∀ {s : State} {k}, Keeps s0 s → Keeps s0 (checkAll n k s l).2.1 := by
  induction l with
  | nil => intro s k h; exact h
  | cons b r ih =>
    intro s k h
    obtain ⟨x, v⟩ := b
    have hv := keeps_checkWrite (a1 := n) (a2 := x) (a3 := v) h
    unfold checkAll
    split
    · next hq => rw [hq] at hv; exact ih hv
    · next hq => rw [hq] at hv; exact hv

theorem keeps_writeCmd {s0 s : State} {a1 a2 a3 a4 a5} (h : Keeps s0 s) : Keeps s0 (writeCmd s a1 a2 a3 a4 a5) := by
  unfold writeCmd
  try dsimp only
  repeat' (first | with_reducible assumption | with_reducible apply keeps_checkAll | with_reducible apply keeps_setN | with_reducible apply keeps_setSess | with_reducible apply keeps_reply | with_reducible apply keeps_runWrite | with_reducible apply keeps_ite | split | (intro _ _ _; dsimp only) | (with_reducible refine keeps_mk ?_ rfl rfl rfl) | (intro _ _ _))

theorem keeps_beginTxn {s0 s : State} {a1 a2} (h : Keeps s0 s) : Keeps s0 (beginTxn s a1 a2) := by
  unfold beginTxn
  try dsimp only
  repeat' (first | with_reducible assumption | with_reducible apply keeps_setN | with_reducible apply keeps_setSess | with_reducible apply keeps_reply | with_reducible apply keeps_ite | split | (intro _ _ _; dsimp only) | (with_reducible refine keeps_mk ?_ rfl rfl rfl) | (intro _ _ _))

theorem keeps_closeTxn {s0 s : State} {a1 a2} (h : Keeps s0 s) : Keeps s0 (closeTxn s a1 a2) := by
  unfold closeTxn
  try dsimp only
  repeat' (first | with_reducible assumption | with_reducible apply keeps_setN | with_reducible apply keeps_endTxn | with_reducible apply keeps_reply | with_reducible apply keeps_runWrite | with_reducible apply keeps_ite | split | (intro _ _ _; dsimp only) | (with_reducible refine keeps_mk ?_ rfl rfl rfl) | (intro _ _ _))

theorem keeps_putSub {s0 s : State} {a1 a2 a3} (h : Keeps s0 s) : Keeps s0 (putSub s a1 a2 a3) := by
  exact h.same rfl

theorem keeps_subscribe {s0 s : State} {a1 a2 a3} (h : Keeps s0 s) : Keeps s0 (subscribe s a1 a2 a3) := by
  unfold subscribe
  try dsimp only
  repeat' (first | with_reducible assumption | with_reducible apply keeps_putSub | with_reducible apply keeps_reply | with_reducible apply keeps_ite | split | (intro _ _ _; dsimp only) | (with_reducible refine keeps_mk ?_ rfl rfl rfl) | (intro _ _ _))

theorem keeps_unsubscribe {s0 s : State} {a1 a2 a3} (h : Keeps s0 s) : Keeps s0 (unsubscribe s a1 a2 a3) := by
  unfold unsubscribe
  try dsimp only
  repeat' (first | with_reducible assumption | with_reducible apply keeps_putSub | with_reducible apply keeps_reply | with_reducible apply keeps_ite | split | (intro _ _ _; dsimp only) | (with_reducible refine keeps_mk ?_ rfl rfl rfl) | (intro _ _ _))

theorem keeps_readBlock {s0 s : State} {a1 a2 a3 a4 a5} (h : Keeps s0 s) : Keeps s0 (readBlock s a1 a2 a3 a4 a5) := by
  unfold readBlock
  try dsimp only
  repeat' (first | with_reducible assumption | with_reducible apply keeps_reply | with_reducible apply keeps_ite | split | (intro _ _ _; dsimp only) | (with_reducible refine keeps_mk ?_ rfl rfl rfl) | (intro _ _ _))

theorem keeps_writeBlock {s0 s : State} {a1 a2 a3 a4 a5} (h : Keeps s0 s) : Keeps s0 (writeBlock s a1 a2 a3 a4 a5) := by
  unfold writeBlock
  try dsimp only
  repeat' (first | with_reducible assumption | with_reducible apply keeps_writeCmd | with_reducible apply keeps_reply | with_reducible apply keeps_ite | split | (intro _ _ _; dsimp only) | (with_reducible refine keeps_mk ?_ rfl rfl rfl) | (intro _ _ _))

theorem keeps_serveBody {s0 s : State} {a1 a2 a3} (h : Keeps s0 s) : Keeps s0 (serveBody s a1 a2 a3) := by
  unfold serveBody
  try dsimp only
  repeat' (first | with_reducible assumption | with_reducible apply keeps_readBlock | with_reducible apply keeps_writeCmd | with_reducible apply keeps_unsubscribe | with_reducible apply keeps_closeBy | with_reducible apply keeps_writeBlock | with_reducible apply keeps_doCommit | with_reducible apply keeps_subscribe | with_reducible apply keeps_doRollback | with_reducible apply keeps_closeTxn | with_reducible apply keeps_reply | with_reducible apply keeps_beginTxn | with_reducible apply keeps_ite | split | (intro _ _ _; dsimp only) | (with_reducible refine keeps_mk ?_ rfl rfl rfl) | (intro _ _ _))

theorem keeps_serveReq {s0 s : State} {a1 a2 a3} (h : Keeps s0 s) : Keeps s0 (serveReq s a1 a2 a3) := by
  unfold serveReq
  try dsimp only
  repeat' (first | with_reducible assumption | with_reducible apply keeps_bump | with_reducible apply keeps_examineNow | with_reducible apply keeps_serveBody | with_reducible apply keeps_reply | with_reducible apply keeps_ite | split | (intro _ _ _; dsimp only) | (with_reducible refine keeps_mk ?_ rfl rfl rfl) | (intro _ _ _))

theorem keeps_drain {s0 : State} {n} (k : Nat) : ∀ {s : State}, Keeps s0 s → Keeps s0 (drain k s n) := by
  induction k with
  | zero => intro s h; exact h
  | succ k ih =>
    intro s h
    unfold drain
    split
    · exact h
    · split
      · exact h
      · exact ih (keeps_serveReq (keeps_setSess h))

theorem keeps_drainAll {s0 s : State} {n} (h : Keeps s0 s) : Keeps s0 (drainAll s n) := keeps_drain _ h

theorem keeps_arrive {s0 s : State} {a1 a2 a3} (h : Keeps s0 s) : Keeps s0 (arrive s a1 a2 a3) := by
  unfold arrive
  try dsimp only
  repeat' (first | with_reducible assumption | with_reducible apply keeps_drainAll | with_reducible apply keeps_setSess | with_reducible apply keeps_ite | split | (intro _ _ _; dsimp only) | (with_reducible refine keeps_mk ?_ rfl rfl rfl) | (intro _ _ _))

theorem keeps_arriveWrite {s0 s : State} {a1 a2 a3 a4} (h : Keeps s0 s) : Keeps s0 (arriveWrite s a1 a2 a3 a4) := by
  unfold arriveWrite
  try dsimp only
  repeat' (first | with_reducible assumption | with_reducible apply keeps_arrive | with_reducible apply keeps_ite | split | (intro _ _ _; dsimp only) | (with_reducible refine keeps_mk ?_ rfl rfl rfl) | (intro _ _ _))

theorem keeps_execRead {s0 s : State} {a0 a1 a2} (h : Keeps s0 s) : KeepsOut s0 (execRead a0 a1 a2 s) := by
  unfold execRead
  try dsimp only
  repeat' (first | with_reducible assumption | with_reducible apply keeps_arrive | with_reducible apply keeps_next | exact keeps_fault _ | with_reducible apply keeps_ite | split | (intro _ _ _; dsimp only) | (with_reducible refine keeps_mk ?_ rfl rfl rfl) | (intro _ _ _))

theorem keeps_execWrite {s0 s : State} {a0 a1 a2 a3} (h : Keeps s0 s) : KeepsOut s0 (execWrite a0 a1 a2 a3 s) := by
  unfold execWrite
  try dsimp only
  repeat' (first | with_reducible assumption | with_reducible apply keeps_arrive | with_reducible apply keeps_next | exact keeps_fault _ | with_reducible apply keeps_ite | split | (intro _ _ _; dsimp only) | (with_reducible refine keeps_mk ?_ rfl rfl rfl) | (intro _ _ _))

theorem keeps_execReadBlock {s0 s : State} {a0 a1 a2 a3 a4} (h : Keeps s0 s) : KeepsOut s0 (execReadBlock a0 a1 a2 a3 a4 s) := by
  unfold execReadBlock
  try dsimp only
  repeat' (first | with_reducible assumption | with_reducible apply keeps_arrive | with_reducible apply keeps_next | exact keeps_fault _ | with_reducible apply keeps_ite | split | (intro _ _ _; dsimp only) | (with_reducible refine keeps_mk ?_ rfl rfl rfl) | (intro _ _ _))

theorem keeps_execWriteBlock {s0 s : State} {a0 a1 a2 a3 a4} (h : Keeps s0 s) : KeepsOut s0 (execWriteBlock a0 a1 a2 a3 a4 s) := by
  unfold execWriteBlock
  try dsimp only
  repeat' (first | with_reducible assumption | with_reducible apply keeps_arrive | with_reducible apply keeps_next | exact keeps_fault _ | with_reducible apply keeps_ite | split | (intro _ _ _; dsimp only) | (with_reducible refine keeps_mk ?_ rfl rfl rfl) | (intro _ _ _))

theorem keeps_execTxnBegin {s0 s : State} {a0 a1} (h : Keeps s0 s) : KeepsOut s0 (execTxnBegin a0 a1 s) := by
  unfold execTxnBegin
  try dsimp only
  repeat' (first | with_reducible assumption | with_reducible apply keeps_arrive | with_reducible apply keeps_next | exact keeps_fault _ | with_reducible apply keeps_ite | split | (intro _ _ _; dsimp only) | (with_reducible refine keeps_mk ?_ rfl rfl rfl) | (intro _ _ _))

theorem keeps_execTxnEnd {s0 s : State} {a0 a1} (h : Keeps s0 s) : KeepsOut s0 (execTxnEnd a0 a1 s) := by
  unfold execTxnEnd
  try dsimp only
  repeat' (first | with_reducible assumption | with_reducible apply keeps_arrive | with_reducible apply keeps_next | exact keeps_fault _ | with_reducible apply keeps_ite | split | (intro _ _ _; dsimp only) | (with_reducible refine keeps_mk ?_ rfl rfl rfl) | (intro _ _ _))

theorem keeps_execCommit {s0 s : State} {a0 a1 a2} (h : Keeps s0 s) : KeepsOut s0 (execCommit a0 a1 a2 s) := by
  unfold execCommit
  try dsimp only
  repeat' (first | with_reducible assumption | with_reducible apply keeps_arrive | with_reducible apply keeps_next | exact keeps_fault _ | with_reducible apply keeps_ite | split | (intro _ _ _; dsimp only) | (with_reducible refine keeps_mk ?_ rfl rfl rfl) | (intro _ _ _))

theorem keeps_execRollback {s0 s : State} {a0 a1 a2} (h : Keeps s0 s) : KeepsOut s0 (execRollback a0 a1 a2 s) := by
  unfold execRollback
  try dsimp only
  repeat' (first | with_reducible assumption | with_reducible apply keeps_arrive | with_reducible apply keeps_next | exact keeps_fault _ | with_reducible apply keeps_ite | split | (intro _ _ _; dsimp only) | (with_reducible refine keeps_mk ?_ rfl rfl rfl) | (intro _ _ _))

theorem keeps_execSubscribe {s0 s : State} {a0 a1 a2} (h : Keeps s0 s) : KeepsOut s0 (execSubscribe a0 a1 a2 s) := by
  unfold execSubscribe
  try dsimp only
  repeat' (first | with_reducible assumption | with_reducible apply keeps_arrive | with_reducible apply keeps_next | exact keeps_fault _ | with_reducible apply keeps_ite | split | (intro _ _ _; dsimp only) | (with_reducible refine keeps_mk ?_ rfl rfl rfl) | (intro _ _ _))

theorem keeps_execUnsubscribe {s0 s : State} {a0 a1 a2} (h : Keeps s0 s) : KeepsOut s0 (execUnsubscribe a0 a1 a2 s) := by
  unfold execUnsubscribe
  try dsimp only
  repeat' (first | with_reducible assumption | with_reducible apply keeps_arrive | with_reducible apply keeps_next | exact keeps_fault _ | with_reducible apply keeps_ite | split | (intro _ _ _; dsimp only) | (with_reducible refine keeps_mk ?_ rfl rfl rfl) | (intro _ _ _))

theorem keeps_execClose {s0 s : State} {a0 a1} (h : Keeps s0 s) : KeepsOut s0 (execClose a0 a1 s) := by
  unfold execClose
  try dsimp only
  repeat' (first | with_reducible assumption | with_reducible apply keeps_arrive | with_reducible apply keeps_next | exact keeps_fault _ | with_reducible apply keeps_ite | split | (intro _ _ _; dsimp only) | (with_reducible refine keeps_mk ?_ rfl rfl rfl) | (intro _ _ _))

theorem keeps_execNop {s0 s : State} {a0 a1} (h : Keeps s0 s) : KeepsOut s0 (execNop a0 a1 s) := by
  unfold execNop
  try dsimp only
  repeat' (first | with_reducible assumption | with_reducible apply keeps_arrive | with_reducible apply keeps_next | exact keeps_fault _ | with_reducible apply keeps_ite | split | (intro _ _ _; dsimp only) | (with_reducible refine keeps_mk ?_ rfl rfl rfl) | (intro _ _ _))

theorem keeps_execRevert {s0 s : State} {a0 a1 a2 a3} (h : Keeps s0 s) : KeepsOut s0 (execRevert a0 a1 a2 a3 s) := by
  unfold execRevert
  try dsimp only
  repeat' (first | with_reducible assumption | with_reducible apply keeps_arriveWrite | with_reducible apply keeps_next | exact keeps_fault _ | with_reducible apply keeps_ite | split | (intro _ _ _; dsimp only) | (with_reducible refine keeps_mk ?_ rfl rfl rfl) | (intro _ _ _))

theorem keeps_execRealign {s0 s : State} {a0 a1 a2 a3} (h : Keeps s0 s) : KeepsOut s0 (execRealign a0 a1 a2 a3 s) := by
  unfold execRealign
  try dsimp only
  repeat' (first | with_reducible assumption | with_reducible apply keeps_arriveWrite | with_reducible apply keeps_next | exact keeps_fault _ | with_reducible apply keeps_ite | split | (intro _ _ _; dsimp only) | (with_reducible refine keeps_mk ?_ rfl rfl rfl) | (intro _ _ _))

theorem keeps_execStepAccept {s0 s : State} {a0 a1 a2 a3} (h : Keeps s0 s) : KeepsOut s0 (execStepAccept a0 a1 a2 a3 s) := by
  unfold execStepAccept
  try dsimp only
  repeat' (first | with_reducible assumption | with_reducible apply keeps_arriveWrite | with_reducible apply keeps_next | exact keeps_fault _ | with_reducible apply keeps_ite | split | (intro _ _ _; dsimp only) | (with_reducible refine keeps_mk ?_ rfl rfl rfl) | (intro _ _ _))

theorem keeps_execStepReject {s0 s : State} {a0 a1 a2 a3} (h : Keeps s0 s) : KeepsOut s0 (execStepReject a0 a1 a2 a3 s) := by
  unfold execStepReject
  try dsimp only
  repeat' (first | with_reducible assumption | with_reducible apply keeps_arriveWrite | with_reducible apply keeps_next | exact keeps_fault _ | with_reducible apply keeps_ite | split | (intro _ _ _; dsimp only) | (with_reducible refine keeps_mk ?_ rfl rfl rfl) | (intro _ _ _))

theorem keeps_execRxOpen {s0 s : State} {a0 a1 a2 a3} (h : Keeps s0 s) : KeepsOut s0 (execRxOpen a0 a1 a2 a3 s) := by
  unfold execRxOpen
  try dsimp only
  repeat' (first | with_reducible assumption | with_reducible apply keeps_arriveWrite | with_reducible apply keeps_next | exact keeps_fault _ | with_reducible apply keeps_ite | split | (intro _ _ _; dsimp only) | (with_reducible refine keeps_mk ?_ rfl rfl rfl) | (intro _ _ _))

theorem keeps_execTxOpen {s0 s : State} {a0 a1 a2 a3} (h : Keeps s0 s) : KeepsOut s0 (execTxOpen a0 a1 a2 a3 s) := by
  unfold execTxOpen
  try dsimp only
  repeat' (first | with_reducible assumption | with_reducible apply keeps_arriveWrite | with_reducible apply keeps_next | exact keeps_fault _ | with_reducible apply keeps_ite | split | (intro _ _ _; dsimp only) | (with_reducible refine keeps_mk ?_ rfl rfl rfl) | (intro _ _ _))

theorem keeps_execRestart {s0 s : State} {a0 a1 a2 a3} (h : Keeps s0 s) : KeepsOut s0 (execRestart a0 a1 a2 a3 s) := by
  unfold execRestart
  try dsimp only
  repeat' (first | with_reducible assumption | with_reducible apply keeps_arriveWrite | with_reducible apply keeps_next | exact keeps_fault _ | with_reducible apply keeps_ite | split | (intro _ _ _; dsimp only) | (with_reducible refine keeps_mk ?_ rfl rfl rfl) | (intro _ _ _))

theorem keeps_execCloseSession {s0 s : State} {a0 a1 a2 a3} (h : Keeps s0 s) : KeepsOut s0 (execCloseSession a0 a1 a2 a3 s) := by
  unfold execCloseSession
  try dsimp only
  repeat' (first | with_reducible assumption | with_reducible apply keeps_arriveWrite | with_reducible apply keeps_next | exact keeps_fault _ | with_reducible apply keeps_ite | split | (intro _ _ _; dsimp only) | (with_reducible refine keeps_mk ?_ rfl rfl rfl) | (intro _ _ _))

theorem keeps_execCancel {s0 s : State} {a0 a1 a2 a3} (h : Keeps s0 s) : KeepsOut s0 (execCancel a0 a1 a2 a3 s) := by
  unfold execCancel
  try dsimp only
  repeat' (first | with_reducible assumption | with_reducible apply keeps_arriveWrite | with_reducible apply keeps_next | exact keeps_fault _ | with_reducible apply keeps_ite | split | (intro _ _ _; dsimp only) | (with_reducible refine keeps_mk ?_ rfl rfl rfl) | (intro _ _ _))

theorem keeps_execDiscard {s0 s : State} {a0 a1 a2 a3} (h : Keeps s0 s) : KeepsOut s0 (execDiscard a0 a1 a2 a3 s) := by
  unfold execDiscard
  try dsimp only
  repeat' (first | with_reducible assumption | with_reducible apply keeps_arriveWrite | with_reducible apply keeps_next | exact keeps_fault _ | with_reducible apply keeps_ite | split | (intro _ _ _; dsimp only) | (with_reducible refine keeps_mk ?_ rfl rfl rfl) | (intro _ _ _))

theorem keeps_execRenumber {s0 s : State} {a0 a1 a2 a3} (h : Keeps s0 s) : KeepsOut s0 (execRenumber a0 a1 a2 a3 s) := by
  unfold execRenumber
  try dsimp only
  repeat' (first | with_reducible assumption | with_reducible apply keeps_arriveWrite | with_reducible apply keeps_next | exact keeps_fault _ | with_reducible apply keeps_ite | split | (intro _ _ _; dsimp only) | (with_reducible refine keeps_mk ?_ rfl rfl rfl) | (intro _ _ _))

theorem keeps_execSessionStagingWrite {s0 s : State} {a0 a1 a2 a3} (h : Keeps s0 s) : KeepsOut s0 (execSessionStagingWrite a0 a1 a2 a3 s) := by
  unfold execSessionStagingWrite
  try dsimp only
  repeat' (first | with_reducible assumption | with_reducible apply keeps_arriveWrite | with_reducible apply keeps_next | exact keeps_fault _ | with_reducible apply keeps_ite | split | (intro _ _ _; dsimp only) | (with_reducible refine keeps_mk ?_ rfl rfl rfl) | (intro _ _ _))

theorem keeps_execFactory {s0 s : State} {a0 a1 a2 a3} (h : Keeps s0 s) : KeepsOut s0 (execFactory a0 a1 a2 a3 s) := by
  unfold execFactory
  try dsimp only
  repeat' (first | with_reducible assumption | with_reducible apply keeps_arriveWrite | with_reducible apply keeps_next | exact keeps_fault _ | with_reducible apply keeps_ite | split | (intro _ _ _; dsimp only) | (with_reducible refine keeps_mk ?_ rfl rfl rfl) | (intro _ _ _))

theorem keeps_execNodeLiveWrite {s0 s : State} {a0 a1 a2 a3 a4} (h : Keeps s0 s) : KeepsOut s0 (execNodeLiveWrite a0 a1 a2 a3 a4 s) := by
  unfold execNodeLiveWrite
  try dsimp only
  repeat' (first | with_reducible assumption | with_reducible apply keeps_arriveWrite | with_reducible apply keeps_next | exact keeps_fault _ | with_reducible apply keeps_ite | split | (intro _ _ _; dsimp only) | (with_reducible refine keeps_mk ?_ rfl rfl rfl) | (intro _ _ _))

theorem keeps_execImageWrite {s0 s : State} {a0 a1 a2 a3} (h : Keeps s0 s) : KeepsOut s0 (execImageWrite a0 a1 a2 a3 s) := by
  unfold execImageWrite
  try dsimp only
  repeat' (first | with_reducible assumption | with_reducible apply keeps_arriveWrite | with_reducible apply keeps_next | exact keeps_fault _ | with_reducible apply keeps_ite | split | (intro _ _ _; dsimp only) | (with_reducible refine keeps_mk ?_ rfl rfl rfl) | (intro _ _ _))

theorem keeps_execPlacementListWrite {s0 s : State} {a0 a1 a2 a3 a4} (h : Keeps s0 s) : KeepsOut s0 (execPlacementListWrite a0 a1 a2 a3 a4 s) := by
  unfold execPlacementListWrite
  try dsimp only
  repeat' (first | with_reducible assumption | with_reducible apply keeps_arriveWrite | with_reducible apply keeps_next | exact keeps_fault _ | with_reducible apply keeps_ite | split | (intro _ _ _; dsimp only) | (with_reducible refine keeps_mk ?_ rfl rfl rfl) | (intro _ _ _))

theorem keeps_execPatchWrite {s0 s : State} {a0 a1 a2 a3} (h : Keeps s0 s) : KeepsOut s0 (execPatchWrite a0 a1 a2 a3 s) := by
  unfold execPatchWrite
  try dsimp only
  repeat' (first | with_reducible assumption | with_reducible apply keeps_arrive | with_reducible apply keeps_next | exact keeps_fault _ | with_reducible apply keeps_ite | split | (intro _ _ _; dsimp only) | (with_reducible refine keeps_mk ?_ rfl rfl rfl) | (intro _ _ _))

theorem keeps_execClear {s0 s : State} {a0 a1 a2 a3} (h : Keeps s0 s) : KeepsOut s0 (execClear a0 a1 a2 a3 s) := by
  unfold execClear
  try dsimp only
  repeat' (first | with_reducible assumption | with_reducible apply keeps_arrive | with_reducible apply keeps_next | exact keeps_fault _ | with_reducible apply keeps_ite | split | (intro _ _ _; dsimp only) | (with_reducible refine keeps_mk ?_ rfl rfl rfl) | (intro _ _ _))

theorem keeps_execReqMode {s0 s : State} {a0 a1 a2 a3} (h : Keeps s0 s) : KeepsOut s0 (execReqMode a0 a1 a2 a3 s) := by
  unfold execReqMode
  try dsimp only
  repeat' (first | with_reducible assumption | with_reducible apply keeps_arriveWrite | with_reducible apply keeps_next | exact keeps_fault _ | with_reducible apply keeps_ite | split | (intro _ _ _; dsimp only) | (with_reducible refine keeps_mk ?_ rfl rfl rfl) | (intro _ _ _))

theorem keeps_execRbGo {s0 s : State} {a0 a1 a2 a3} (h : Keeps s0 s) : KeepsOut s0 (execRbGo a0 a1 a2 a3 s) := by
  unfold execRbGo
  try dsimp only
  repeat' (first | with_reducible assumption | with_reducible apply keeps_arriveWrite | with_reducible apply keeps_next | exact keeps_fault _ | with_reducible apply keeps_ite | split | (intro _ _ _; dsimp only) | (with_reducible refine keeps_mk ?_ rfl rfl rfl) | (intro _ _ _))

theorem keeps_execSetpoint {s0 s : State} {a0 a1 a2 a3} (h : Keeps s0 s) : KeepsOut s0 (execSetpoint a0 a1 a2 a3 s) := by
  unfold execSetpoint
  try dsimp only
  repeat' (first | with_reducible assumption | with_reducible apply keeps_arriveWrite | with_reducible apply keeps_next | exact keeps_fault _ | with_reducible apply keeps_ite | split | (intro _ _ _; dsimp only) | (with_reducible refine keeps_mk ?_ rfl rfl rfl) | (intro _ _ _))

theorem keeps_execTrain {s0 s : State} {a0 a1 a2 a3} (h : Keeps s0 s) : KeepsOut s0 (execTrain a0 a1 a2 a3 s) := by
  unfold execTrain
  try dsimp only
  repeat' (first | with_reducible assumption | with_reducible apply keeps_arriveWrite | with_reducible apply keeps_next | exact keeps_fault _ | with_reducible apply keeps_ite | split | (intro _ _ _; dsimp only) | (with_reducible refine keeps_mk ?_ rfl rfl rfl) | (intro _ _ _))

theorem keeps_execRecover {s0 s : State} {a0 a1 a2 a3} (h : Keeps s0 s) : KeepsOut s0 (execRecover a0 a1 a2 a3 s) := by
  unfold execRecover
  try dsimp only
  repeat' (first | with_reducible assumption | with_reducible apply keeps_arriveWrite | with_reducible apply keeps_next | exact keeps_fault _ | with_reducible apply keeps_ite | split | (intro _ _ _; dsimp only) | (with_reducible refine keeps_mk ?_ rfl rfl rfl) | (intro _ _ _))

theorem keeps_execLogClear {s0 s : State} {a0 a1 a2 a3} (h : Keeps s0 s) : KeepsOut s0 (execLogClear a0 a1 a2 a3 s) := by
  unfold execLogClear
  try dsimp only
  repeat' (first | with_reducible assumption | with_reducible apply keeps_arriveWrite | with_reducible apply keeps_next | exact keeps_fault _ | with_reducible apply keeps_ite | split | (intro _ _ _; dsimp only) | (with_reducible refine keeps_mk ?_ rfl rfl rfl) | (intro _ _ _))

theorem keeps_execFullTest {s0 s : State} {a0 a1 a2 a3} (h : Keeps s0 s) : KeepsOut s0 (execFullTest a0 a1 a2 a3 s) := by
  unfold execFullTest
  try dsimp only
  repeat' (first | with_reducible assumption | with_reducible apply keeps_arriveWrite | with_reducible apply keeps_next | exact keeps_fault _ | with_reducible apply keeps_ite | split | (intro _ _ _; dsimp only) | (with_reducible refine keeps_mk ?_ rfl rfl rfl) | (intro _ _ _))

theorem keeps_execTempClear {s0 s : State} {a0 a1 a2 a3} (h : Keeps s0 s) : KeepsOut s0 (execTempClear a0 a1 a2 a3 s) := by
  unfold execTempClear
  try dsimp only
  repeat' (first | with_reducible assumption | with_reducible apply keeps_arriveWrite | with_reducible apply keeps_next | exact keeps_fault _ | with_reducible apply keeps_ite | split | (intro _ _ _; dsimp only) | (with_reducible refine keeps_mk ?_ rfl rfl rfl) | (intro _ _ _))

theorem keeps_execFwData {s0 s : State} {a0 a1 a2 a3} (h : Keeps s0 s) : KeepsOut s0 (execFwData a0 a1 a2 a3 s) := by
  unfold execFwData
  try dsimp only
  repeat' (first | with_reducible assumption | with_reducible apply keeps_arriveWrite | with_reducible apply keeps_next | exact keeps_fault _ | with_reducible apply keeps_ite | split | (intro _ _ _; dsimp only) | (with_reducible refine keeps_mk ?_ rfl rfl rfl) | (intro _ _ _))

theorem keeps_execFwVerify {s0 s : State} {a0 a1 a2 a3} (h : Keeps s0 s) : KeepsOut s0 (execFwVerify a0 a1 a2 a3 s) := by
  unfold execFwVerify
  try dsimp only
  repeat' (first | with_reducible assumption | with_reducible apply keeps_arriveWrite | with_reducible apply keeps_next | exact keeps_fault _ | with_reducible apply keeps_ite | split | (intro _ _ _; dsimp only) | (with_reducible refine keeps_mk ?_ rfl rfl rfl) | (intro _ _ _))

theorem keeps_execHandover {s0 s : State} {a0 a1 a2 a3} (h : Keeps s0 s) : KeepsOut s0 (execHandover a0 a1 a2 a3 s) := by
  unfold execHandover
  try dsimp only
  repeat' (first | with_reducible assumption | with_reducible apply keeps_arriveWrite | with_reducible apply keeps_next | exact keeps_fault _ | with_reducible apply keeps_ite | split | (intro _ _ _; dsimp only) | (with_reducible refine keeps_mk ?_ rfl rfl rfl) | (intro _ _ _))

theorem keeps_execTxnExpired {s0 s : State} {a0} (h : Keeps s0 s) : KeepsOut s0 (execTxnExpired a0 s) := by
  unfold execTxnExpired
  try dsimp only
  repeat' (first | with_reducible assumption | with_reducible apply keeps_pushNotif | with_reducible apply keeps_examineNow | with_reducible apply keeps_endTxn | with_reducible apply keeps_next | exact keeps_fault _ | with_reducible apply keeps_ite | split | (intro _ _ _; dsimp only) | (with_reducible refine keeps_mk ?_ rfl rfl rfl) | (intro _ _ _))

theorem keeps_execLockAcquired {s0 s : State} {a0} (h : Keeps s0 s) : KeepsOut s0 (execLockAcquired a0 s) := by
  unfold execLockAcquired
  try dsimp only
  repeat' (first | with_reducible assumption | with_reducible apply keeps_drainAll | with_reducible apply keeps_examineNow | with_reducible apply keeps_setSess | with_reducible apply keeps_climb | with_reducible apply keeps_next | exact keeps_fault _ | with_reducible apply keeps_ite | split | (intro _ _ _; dsimp only) | (with_reducible refine keeps_mk ?_ rfl rfl rfl) | (intro _ _ _))

theorem keeps_execLockTimeout {s0 s : State} {a0} (h : Keeps s0 s) : KeepsOut s0 (execLockTimeout a0 s) := by
  unfold execLockTimeout
  try dsimp only
  repeat' (first | with_reducible assumption | with_reducible apply keeps_dropLocks | with_reducible apply keeps_drainAll | with_reducible apply keeps_bump | with_reducible apply keeps_examineNow | with_reducible apply keeps_endTxn | with_reducible apply keeps_setSess | with_reducible apply keeps_reply | with_reducible apply keeps_next | exact keeps_fault _ | with_reducible apply keeps_ite | split | (intro _ _ _; dsimp only) | (with_reducible refine keeps_mk ?_ rfl rfl rfl) | (intro _ _ _))

theorem keeps_execCommitValidationEnd {s0 s : State} (h : Keeps s0 s) : KeepsOut s0 (execCommitValidationEnd s) := by
  unfold execCommitValidationEnd
  try dsimp only
  repeat' (first | with_reducible assumption | with_reducible apply keeps_drainAll | with_reducible apply keeps_endValidation | with_reducible apply keeps_examineNow | with_reducible apply keeps_next | exact keeps_fault _ | with_reducible apply keeps_ite | split | (intro _ _ _; dsimp only) | (with_reducible refine keeps_mk ?_ rfl rfl rfl) | (intro _ _ _))

theorem keeps_execSubmissionFetch {s0 s : State} {a0} (h : Keeps s0 s) : KeepsOut s0 (execSubmissionFetch a0 s) := by
  unfold execSubmissionFetch
  try dsimp only
  repeat' (first | with_reducible assumption | with_reducible apply keeps_arrive | with_reducible apply keeps_setPair | with_reducible apply keeps_next | exact keeps_fault _ | with_reducible apply keeps_ite | split | (intro _ _ _; dsimp only) | (with_reducible refine keeps_mk ?_ rfl rfl rfl) | (intro _ _ _))

theorem keeps_discardDatagram {s0 s : State} (h : Keeps s0 s) : Keeps s0 (discardDatagram s) := by
  exact h.same rfl

theorem keeps_readHello {s0 s : State} {a1 a2 a3} (h : Keeps s0 s) : Keeps s0 (readHello s a1 a2 a3) := by
  unfold readHello
  try dsimp only
  repeat' (first | with_reducible assumption | with_reducible apply keeps_takeHello | with_reducible apply keeps_discardDatagram | with_reducible apply keeps_ite | split | (intro _ _ _; dsimp only) | (with_reducible refine keeps_mk ?_ rfl rfl rfl) | (intro _ _ _))

theorem keeps_takeAuth {s0 s : State} {a1 a2 a3 a4} (h : Keeps s0 s) : Keeps s0 (takeAuth s a1 a2 a3 a4) := by
  unfold takeAuth
  try dsimp only
  repeat' (first | with_reducible assumption | with_reducible apply keeps_discardDatagram | with_reducible apply keeps_setSess | with_reducible apply keeps_execAuth | with_reducible apply keeps_next | exact keeps_fault _ | with_reducible apply keeps_outState | with_reducible apply keeps_ite | split | (intro _ _ _; dsimp only) | (with_reducible refine keeps_mk ?_ rfl rfl rfl) | (intro _ _ _))

theorem keeps_takeMessage {s0 s : State} {a1 a2 a3} (h : Keeps s0 s) : Keeps s0 (takeMessage s a1 a2 a3) := by
  unfold takeMessage
  try dsimp only
  repeat' (first | with_reducible assumption | with_reducible apply keeps_arrive | with_reducible apply keeps_discardDatagram | with_reducible apply keeps_sendOdp | with_reducible apply keeps_ite | split | (intro _ _ _; dsimp only) | (with_reducible refine keeps_mk ?_ rfl rfl rfl) | (intro _ _ _))

theorem keeps_takeSegment {s0 s : State} {a1 a2} (h : Keeps s0 s) : Keeps s0 (takeSegment s a1 a2) := by
  unfold takeSegment
  try dsimp only
  repeat' (first | with_reducible assumption | with_reducible apply keeps_takeMessage | with_reducible apply keeps_setSess | with_reducible apply keeps_ite | split | (intro _ _ _; dsimp only) | (with_reducible refine keeps_mk ?_ rfl rfl rfl) | (intro _ _ _))

theorem keeps_execOdpDatagramReceived {s0 s : State} {a0 a1 a2} (h : Keeps s0 s) : KeepsOut s0 (execOdpDatagramReceived a0 a1 a2 s) := by
  unfold execOdpDatagramReceived
  try dsimp only
  repeat' (first | with_reducible assumption | with_reducible apply keeps_takeAuth | with_reducible apply keeps_takeSegment | with_reducible apply keeps_discardDatagram | with_reducible apply keeps_readHello | with_reducible apply keeps_setSess | with_reducible apply keeps_next | exact keeps_fault _ | with_reducible apply keeps_ite | split | (intro _ _ _; dsimp only) | (with_reducible refine keeps_mk ?_ rfl rfl rfl) | (intro _ _ _))

end Sys2Proof.Machine
end

