-- ==== Sys2Proof/Laws/Parts.lean ====
section
/-!
SUPPORT. Laws/Parts.lean: which parts of the state an operation may change, as one relation, and how it passes through the shapes in
which meanings are written. Each operation of the model has one lemma about it, in the files Parts*.lean.
-/
-- One declaration at a time and no linter: the package is compiled as one text under a memory limit.
set_option linter.all false
set_option Elab.async false
namespace Sys2Proof.Machine

/-- From `s` to `t` only parts in `w` change. -/
def Fixes (w : Part → Bool) (s t : State) : Prop := ∀ p, w p = false → samePart s t p

/-- The parts in `l` are among those in `w`. -/
def Covers (l : List Part) (w : Part → Bool) : Prop := ∀ p ∈ l, w p = true

theorem Covers.of {l m : List Part} {w : Part → Bool} (h : Covers m w) (e : l.all (fun p => m.contains p) = true) : Covers l w := by
  intro p hp
  have := List.all_eq_true.mp e p hp
  exact h p (by simpa using this)

theorem Covers.has {m : List Part} {w : Part → Bool} (h : Covers m w) (p : Part) (e : m.contains p = true) : w p = true :=
  h p (by simpa using e)

theorem samePart_refl (s : State) (p : Part) : samePart s s p := by
  cases p <;> simp [samePart]

theorem samePart_trans {s t u : State} {p : Part} (h : samePart s t p) (g : samePart t u p) : samePart s u p := by
  cases p <;> simp_all [samePart]

theorem Fixes.refl (w : Part → Bool) (s : State) : Fixes w s s := fun p _ => samePart_refl s p

theorem Fixes.trans {w : Part → Bool} {s t u : State} (h : Fixes w s t) (g : Fixes w t u) : Fixes w s u :=
  fun p hp => samePart_trans (h p hp) (g p hp)

/-- Any next state of an outcome changes only parts in `w`. -/
def FixesOut (w : Part → Bool) (s0 : State) (o : Host.Outcome State Fault Refusal) : Prop := ∀ t, o = .next t → Fixes w s0 t

theorem parts_next {w : Part → Bool} {s0 t : State} (h : Fixes w s0 t) : FixesOut w s0 (.next t) := by
  intro u hu; cases hu; exact h

theorem parts_fault {w : Part → Bool} {s0 : State} (f : Fault) : FixesOut w s0 (.fault f) := by
  intro u hu; cases hu

theorem parts_outState {w : Part → Bool} {s0 s : State} {o : Host.Outcome State Fault Refusal} (h : Fixes w s0 s) (g : FixesOut w s0 o) :
    Fixes w s0 (outState s o) := by
  cases o with
  | next t => exact g t rfl
  | fault f => exact h
  | refused r => exact h

theorem parts_ite {w : Part → Bool} {s0 a b : State} {c : Prop} [Decidable c] (ha : Fixes w s0 a) (hb : Fixes w s0 b) :
    Fixes w s0 (if c then a else b) := by
  split
  · exact ha
  · exact hb

theorem parts_ite_snd {α : Type} {w : Part → Bool} {s0 : State} {a b : α × State} {c : Prop} [Decidable c] (ha : Fixes w s0 a.2)
    (hb : Fixes w s0 b.2) : Fixes w s0 (if c then a else b).2 := by
  split
  · exact ha
  · exact hb

theorem parts_foldl {α : Type} {w : Part → Bool} {s0 u : State} {l : List α} {f : State → α → State}
    (hf : ∀ t x, Fixes w s0 t → Fixes w s0 (f t x)) (h : Fixes w s0 u) : Fixes w s0 (l.foldl f u) := by
  induction l generalizing u with
  | nil => exact h
  | cons x r ih => exact ih (hf _ _ h)

theorem parts_foldl_fst {α β : Type} {w : Part → Bool} {s0 : State} {u : State × β} {l : List α} {f : State × β → α → State × β}
    (hf : ∀ t x, Fixes w s0 t.1 → Fixes w s0 (f t x).1) (h : Fixes w s0 u.1) : Fixes w s0 (l.foldl f u).1 := by
  induction l generalizing u with
  | nil => exact h
  | cons x r ih => exact ih (hf _ _ h)

theorem parts_foldl_snd {α β : Type} {w : Part → Bool} {s0 : State} {u : β × State} {l : List α} {f : β × State → α → β × State}
    (hf : ∀ t x, Fixes w s0 t.2 → Fixes w s0 (f t x).2) (h : Fixes w s0 u.2) : Fixes w s0 (l.foldl f u).2 := by
  induction l generalizing u with
  | nil => exact h
  | cons x r ih => exact ih (hf _ _ h)

/-- The relation through a record update of `u`: each part is in `w`, or as in `u`. -/
theorem parts_mk {w : Part → Bool} {s0 u : State} {now free boot aon dict ctl commit ver mode doms refs tbs life host net ctxs na tdm audio lanes iram budget trans xbar mem dram sage pair pins}
    (h : Fixes w s0 u)
    (h_now : w .now = true ∨ now = u.now)
    (h_free : w .free = true ∨ free = u.free)
    (h_boot : w .boot = true ∨ boot = u.boot)
    (h_aon : w .aon = true ∨ aon = u.aon)
    (h_force : w .force = true ∨ dict.force = u.dict.force)
    (h_bank : w .bank = true ∨ dict.bank = u.dict.bank ∧ dict.factory = u.dict.factory)
    (h_landing : w .landing = true ∨ dict.landing = u.dict.landing ∧ dict.copying = u.dict.copying ∧ dict.held = u.dict.held)
    (h_sess : w .sess = true ∨ ctl.sess = u.ctl.sess)
    (h_locks : w .locks = true ∨ ctl.locks = u.ctl.locks ∧ ctl.fails = u.ctl.fails ∧ ctl.lockout = u.ctl.lockout ∧ ctl.opening = u.ctl.opening ∧ ctl.discards = u.ctl.discards)
    (h_odp : w .odp = true ∨ ctl.out = u.ctl.out)
    (h_commit : w .commit = true ∨ commit = u.commit)
    (h_ver : w .ver = true ∨ ver = u.ver)
    (h_mode : w .mode = true ∨ mode = u.mode)
    (h_doms : w .doms = true ∨ doms = u.doms)
    (h_refs : w .refs = true ∨ refs = u.refs)
    (h_tbs : w .tbs = true ∨ tbs = u.tbs)
    (h_life : w .life = true ∨ life = u.life)
    (h_otp : w .otp = true ∨ host.keys = u.host.keys ∧ host.netRecs = u.host.netRecs ∧ host.netUse = u.host.netUse ∧ host.otpRegs = u.host.otpRegs)
    (h_pairs : w .pairs = true ∨ host.pairs = u.host.pairs)
    (h_rings : w .rings = true ∨ host.rings = u.host.rings)
    (h_msix : w .msix = true ∨ host.msixTab = u.host.msixTab ∧ host.msixPend = u.host.msixPend ∧ host.msixSent = u.host.msixSent)
    (h_hostMem : w .hostMem = true ∨ host.mem = u.host.mem)
    (h_net : w .net = true ∨ net = u.net)
    (h_ctxs : w .ctxs = true ∨ ctxs = u.ctxs)
    (h_na : w .na = true ∨ na = u.na)
    (h_tdm : w .tdm = true ∨ tdm = u.tdm)
    (h_audio : w .audio = true ∨ audio = u.audio)
    (h_lanes : w .lanes = true ∨ lanes = u.lanes)
    (h_iram : w .iram = true ∨ iram = u.iram)
    (h_budget : w .budget = true ∨ budget = u.budget)
    (h_trans : w .trans = true ∨ trans = u.trans)
    (h_xbar : w .xbar = true ∨ xbar = u.xbar)
    (h_mem : w .mem = true ∨ mem = u.mem)
    (h_dram : w .dram = true ∨ dram = u.dram)
    (h_sage : w .sage = true ∨ sage = u.sage)
    (h_pair : w .pair = true ∨ pair = u.pair)
    (h_pins : w .pins = true ∨ pins = u.pins) :
    Fixes w s0 (State.mk u.pending now free boot aon dict ctl commit ver mode doms refs tbs life host net ctxs na tdm audio lanes iram budget trans xbar mem dram sage pair pins) := by
  refine h.trans (fun p hp => ?_)
  cases p <;> simp only [samePart]
  · exact h_now.resolve_left (by rw [hp]; exact Bool.false_ne_true)
  · exact h_free.resolve_left (by rw [hp]; exact Bool.false_ne_true)
  · exact h_boot.resolve_left (by rw [hp]; exact Bool.false_ne_true)
  · exact h_aon.resolve_left (by rw [hp]; exact Bool.false_ne_true)
  · exact h_force.resolve_left (by rw [hp]; exact Bool.false_ne_true)
  · exact h_bank.resolve_left (by rw [hp]; exact Bool.false_ne_true)
  · exact h_landing.resolve_left (by rw [hp]; exact Bool.false_ne_true)
  · exact h_sess.resolve_left (by rw [hp]; exact Bool.false_ne_true)
  · exact h_locks.resolve_left (by rw [hp]; exact Bool.false_ne_true)
  · exact h_odp.resolve_left (by rw [hp]; exact Bool.false_ne_true)
  · exact h_commit.resolve_left (by rw [hp]; exact Bool.false_ne_true)
  · exact h_ver.resolve_left (by rw [hp]; exact Bool.false_ne_true)
  · exact h_mode.resolve_left (by rw [hp]; exact Bool.false_ne_true)
  · exact h_doms.resolve_left (by rw [hp]; exact Bool.false_ne_true)
  · exact h_refs.resolve_left (by rw [hp]; exact Bool.false_ne_true)
  · exact h_tbs.resolve_left (by rw [hp]; exact Bool.false_ne_true)
  · exact h_life.resolve_left (by rw [hp]; exact Bool.false_ne_true)
  · exact h_otp.resolve_left (by rw [hp]; exact Bool.false_ne_true)
  · exact h_pairs.resolve_left (by rw [hp]; exact Bool.false_ne_true)
  · exact h_rings.resolve_left (by rw [hp]; exact Bool.false_ne_true)
  · exact h_msix.resolve_left (by rw [hp]; exact Bool.false_ne_true)
  · exact h_hostMem.resolve_left (by rw [hp]; exact Bool.false_ne_true)
  · exact h_net.resolve_left (by rw [hp]; exact Bool.false_ne_true)
  · exact h_ctxs.resolve_left (by rw [hp]; exact Bool.false_ne_true)
  · exact h_na.resolve_left (by rw [hp]; exact Bool.false_ne_true)
  · exact h_tdm.resolve_left (by rw [hp]; exact Bool.false_ne_true)
  · exact h_audio.resolve_left (by rw [hp]; exact Bool.false_ne_true)
  · exact h_lanes.resolve_left (by rw [hp]; exact Bool.false_ne_true)
  · exact h_iram.resolve_left (by rw [hp]; exact Bool.false_ne_true)
  · exact h_budget.resolve_left (by rw [hp]; exact Bool.false_ne_true)
  · exact h_trans.resolve_left (by rw [hp]; exact Bool.false_ne_true)
  · exact h_xbar.resolve_left (by rw [hp]; exact Bool.false_ne_true)
  · exact h_mem.resolve_left (by rw [hp]; exact Bool.false_ne_true)
  · exact h_dram.resolve_left (by rw [hp]; exact Bool.false_ne_true)
  · exact h_sage.resolve_left (by rw [hp]; exact Bool.false_ne_true)
  · exact h_pair.resolve_left (by rw [hp]; exact Bool.false_ne_true)
  · exact h_pins.resolve_left (by rw [hp]; exact Bool.false_ne_true)

end Sys2Proof.Machine
end

