-- ==== Sys2Proof/Laws/PartsDict.lean ====
section
/-!
SUPPORT. Laws/PartsDict.lean: the operations of Machine/Dict.lean change only the parts of the state named (Laws/Parts.lean).
-/
-- One declaration at a time and no linter: the package is compiled as one text under a memory limit.
set_option linter.all false
set_option Elab.async false
namespace Sys2Proof.Machine

theorem parts_setF {w : Part → Bool} {s0 s : State} {a1 a2} (h : Fixes w s0 s) (hw : Covers [.force] w) : Fixes w s0 (setF s a1 a2) := by
  unfold setF
  try dsimp only
  repeat' (first | with_reducible assumption | ((with_reducible refine Covers.of hw ?_) <;> rfl) | with_reducible apply parts_ite | with_reducible apply parts_ite_snd | split | with_reducible apply parts_mk | ((with_reducible refine Or.inl (Covers.has hw _ ?_)) <;> rfl) | with_reducible exact Or.inr rfl | with_reducible exact Or.inr ⟨rfl, rfl⟩ | with_reducible exact Or.inr ⟨rfl, rfl, rfl⟩ | with_reducible exact Or.inr ⟨rfl, rfl, rfl, rfl⟩ | with_reducible exact Or.inr ⟨rfl, rfl, rfl, rfl, rfl⟩ | (intro _ _ _; dsimp only) | (intro _ _ _))

theorem parts_setN {w : Part → Bool} {s0 s : State} {a1 a2} (h : Fixes w s0 s) (hw : Covers [.force] w) : Fixes w s0 (setN s a1 a2) := by
  unfold setN
  try dsimp only
  repeat' (first | with_reducible assumption | with_reducible apply parts_setF | ((with_reducible refine Covers.of hw ?_) <;> rfl) | with_reducible apply parts_ite | with_reducible apply parts_ite_snd | split | with_reducible apply parts_mk | ((with_reducible refine Or.inl (Covers.has hw _ ?_)) <;> rfl) | with_reducible exact Or.inr rfl | with_reducible exact Or.inr ⟨rfl, rfl⟩ | with_reducible exact Or.inr ⟨rfl, rfl, rfl⟩ | with_reducible exact Or.inr ⟨rfl, rfl, rfl, rfl⟩ | with_reducible exact Or.inr ⟨rfl, rfl, rfl, rfl, rfl⟩ | (intro _ _ _; dsimp only) | (intro _ _ _))

theorem parts_bump {w : Part → Bool} {s0 s : State} {a1} (h : Fixes w s0 s) (hw : Covers [.force] w) : Fixes w s0 (bump s a1) := by
  unfold bump
  try dsimp only
  repeat' (first | with_reducible assumption | with_reducible apply parts_setN | ((with_reducible refine Covers.of hw ?_) <;> rfl) | with_reducible apply parts_ite | with_reducible apply parts_ite_snd | split | with_reducible apply parts_mk | ((with_reducible refine Or.inl (Covers.has hw _ ?_)) <;> rfl) | with_reducible exact Or.inr rfl | with_reducible exact Or.inr ⟨rfl, rfl⟩ | with_reducible exact Or.inr ⟨rfl, rfl, rfl⟩ | with_reducible exact Or.inr ⟨rfl, rfl, rfl, rfl⟩ | with_reducible exact Or.inr ⟨rfl, rfl, rfl, rfl, rfl⟩ | (intro _ _ _; dsimp only) | (intro _ _ _))

theorem parts_bumpBy {w : Part → Bool} {s0 s : State} {a1 a2} (h : Fixes w s0 s) (hw : Covers [.force] w) : Fixes w s0 (bumpBy s a1 a2) := by
  unfold bumpBy
  try dsimp only
  repeat' (first | with_reducible assumption | with_reducible apply parts_setN | ((with_reducible refine Covers.of hw ?_) <;> rfl) | with_reducible apply parts_ite | with_reducible apply parts_ite_snd | split | with_reducible apply parts_mk | ((with_reducible refine Or.inl (Covers.has hw _ ?_)) <;> rfl) | with_reducible exact Or.inr rfl | with_reducible exact Or.inr ⟨rfl, rfl⟩ | with_reducible exact Or.inr ⟨rfl, rfl, rfl⟩ | with_reducible exact Or.inr ⟨rfl, rfl, rfl, rfl⟩ | with_reducible exact Or.inr ⟨rfl, rfl, rfl, rfl, rfl⟩ | (intro _ _ _; dsimp only) | (intro _ _ _))

theorem parts_emptyBank {w : Part → Bool} {s0 s : State} (h : Fixes w s0 s) (hw : Covers [.bank] w) : Fixes w s0 (emptyBank s) := by
  unfold emptyBank
  try dsimp only
  repeat' (first | with_reducible assumption | ((with_reducible refine Covers.of hw ?_) <;> rfl) | with_reducible apply parts_ite | with_reducible apply parts_ite_snd | split | with_reducible apply parts_mk | ((with_reducible refine Or.inl (Covers.has hw _ ?_)) <;> rfl) | with_reducible exact Or.inr rfl | with_reducible exact Or.inr ⟨rfl, rfl⟩ | with_reducible exact Or.inr ⟨rfl, rfl, rfl⟩ | with_reducible exact Or.inr ⟨rfl, rfl, rfl, rfl⟩ | with_reducible exact Or.inr ⟨rfl, rfl, rfl, rfl, rfl⟩ | (intro _ _ _; dsimp only) | (intro _ _ _))

theorem parts_setBank {w : Part → Bool} {s0 s : State} {a1 a2} (h : Fixes w s0 s) (hw : Covers [.bank, .commit] w) : Fixes w s0 (setBank s a1 a2) := by
  unfold setBank
  try dsimp only
  repeat' (first | with_reducible assumption | ((with_reducible refine Covers.of hw ?_) <;> rfl) | with_reducible apply parts_ite | with_reducible apply parts_ite_snd | split | with_reducible apply parts_mk | ((with_reducible refine Or.inl (Covers.has hw _ ?_)) <;> rfl) | with_reducible exact Or.inr rfl | with_reducible exact Or.inr ⟨rfl, rfl⟩ | with_reducible exact Or.inr ⟨rfl, rfl, rfl⟩ | with_reducible exact Or.inr ⟨rfl, rfl, rfl, rfl⟩ | with_reducible exact Or.inr ⟨rfl, rfl, rfl, rfl, rfl⟩ | (intro _ _ _; dsimp only) | (intro _ _ _))

theorem parts_setDom {w : Part → Bool} {s0 s : State} {a1 a2} (h : Fixes w s0 s) (hw : Covers [.doms] w) : Fixes w s0 (setDom s a1 a2) := by
  unfold setDom
  try dsimp only
  repeat' (first | with_reducible assumption | ((with_reducible refine Covers.of hw ?_) <;> rfl) | with_reducible apply parts_ite | with_reducible apply parts_ite_snd | split | with_reducible apply parts_mk | ((with_reducible refine Or.inl (Covers.has hw _ ?_)) <;> rfl) | with_reducible exact Or.inr rfl | with_reducible exact Or.inr ⟨rfl, rfl⟩ | with_reducible exact Or.inr ⟨rfl, rfl, rfl⟩ | with_reducible exact Or.inr ⟨rfl, rfl, rfl, rfl⟩ | with_reducible exact Or.inr ⟨rfl, rfl, rfl, rfl, rfl⟩ | (intro _ _ _; dsimp only) | (intro _ _ _))

theorem parts_setSess {w : Part → Bool} {s0 s : State} {a1 a2} (h : Fixes w s0 s) (hw : Covers [.sess] w) : Fixes w s0 (setSess s a1 a2) := by
  unfold setSess
  try dsimp only
  repeat' (first | with_reducible assumption | ((with_reducible refine Covers.of hw ?_) <;> rfl) | with_reducible apply parts_ite | with_reducible apply parts_ite_snd | split | with_reducible apply parts_mk | ((with_reducible refine Or.inl (Covers.has hw _ ?_)) <;> rfl) | with_reducible exact Or.inr rfl | with_reducible exact Or.inr ⟨rfl, rfl⟩ | with_reducible exact Or.inr ⟨rfl, rfl, rfl⟩ | with_reducible exact Or.inr ⟨rfl, rfl, rfl, rfl⟩ | with_reducible exact Or.inr ⟨rfl, rfl, rfl, rfl, rfl⟩ | (intro _ _ _; dsimp only) | (intro _ _ _))

end Sys2Proof.Machine
end

