-- ==== Sys2Proof/Laws/PartsNotify.lean ====
section
/-!
SUPPORT. Laws/PartsNotify.lean: the operations of Machine/Notify.lean change only the parts of the state named (Laws/Parts.lean).
-/
-- One declaration at a time and no linter: the package is compiled as one text under a memory limit.
set_option linter.all false
set_option Elab.async false
namespace Sys2Proof.Machine

theorem parts_setTb {w : Part → Bool} {s0 s : State} {a1 a2} (h : Fixes w s0 s) (hw : Covers [.tbs] w) : Fixes w s0 (setTb s a1 a2) := by
  unfold setTb
  try dsimp only
  repeat' (first | with_reducible assumption | ((with_reducible refine Covers.of hw ?_) <;> rfl) | with_reducible apply parts_ite | with_reducible apply parts_ite_snd | split | with_reducible apply parts_mk | ((with_reducible refine Or.inl (Covers.has hw _ ?_)) <;> rfl) | with_reducible exact Or.inr rfl | with_reducible exact Or.inr ⟨rfl, rfl⟩ | with_reducible exact Or.inr ⟨rfl, rfl, rfl⟩ | with_reducible exact Or.inr ⟨rfl, rfl, rfl, rfl⟩ | with_reducible exact Or.inr ⟨rfl, rfl, rfl, rfl, rfl⟩ | (intro _ _ _; dsimp only) | (intro _ _ _))

theorem parts_pushNotif {w : Part → Bool} {s0 s : State} {a1 a2} (h : Fixes w s0 s) (hw : Covers [.force, .sess] w) : Fixes w s0 (pushNotif s a1 a2) := by
  unfold pushNotif
  try dsimp only
  repeat' (first | with_reducible assumption | with_reducible apply parts_bump | with_reducible apply parts_setN | with_reducible apply parts_setSess | ((with_reducible refine Covers.of hw ?_) <;> rfl) | with_reducible apply parts_ite | with_reducible apply parts_ite_snd | split | with_reducible apply parts_mk | ((with_reducible refine Or.inl (Covers.has hw _ ?_)) <;> rfl) | with_reducible exact Or.inr rfl | with_reducible exact Or.inr ⟨rfl, rfl⟩ | with_reducible exact Or.inr ⟨rfl, rfl, rfl⟩ | with_reducible exact Or.inr ⟨rfl, rfl, rfl, rfl⟩ | with_reducible exact Or.inr ⟨rfl, rfl, rfl, rfl, rfl⟩ | (intro _ _ _; dsimp only) | (intro _ _ _))

theorem parts_raiseBut {w : Part → Bool} {s0 s : State} {a1 a2 a3 a4} (h : Fixes w s0 s) (hw : Covers [.force, .sess] w) : Fixes w s0 (raiseBut s a1 a2 a3 a4) := by
  unfold raiseBut
  try dsimp only
  repeat' (first | with_reducible assumption | with_reducible apply parts_pushNotif | with_reducible apply parts_foldl | with_reducible apply parts_foldl_fst | with_reducible apply parts_foldl_snd | ((with_reducible refine Covers.of hw ?_) <;> rfl) | with_reducible apply parts_ite | with_reducible apply parts_ite_snd | split | with_reducible apply parts_mk | ((with_reducible refine Or.inl (Covers.has hw _ ?_)) <;> rfl) | with_reducible exact Or.inr rfl | with_reducible exact Or.inr ⟨rfl, rfl⟩ | with_reducible exact Or.inr ⟨rfl, rfl, rfl⟩ | with_reducible exact Or.inr ⟨rfl, rfl, rfl, rfl⟩ | with_reducible exact Or.inr ⟨rfl, rfl, rfl, rfl, rfl⟩ | (intro _ _ _; dsimp only) | (intro _ _ _))

theorem parts_raise {w : Part → Bool} {s0 s : State} {a1 a2 a3} (h : Fixes w s0 s) (hw : Covers [.force, .sess] w) : Fixes w s0 (raise s a1 a2 a3) := by
  unfold raise
  try dsimp only
  repeat' (first | with_reducible assumption | with_reducible apply parts_raiseBut | ((with_reducible refine Covers.of hw ?_) <;> rfl) | with_reducible apply parts_ite | with_reducible apply parts_ite_snd | split | with_reducible apply parts_mk | ((with_reducible refine Or.inl (Covers.has hw _ ?_)) <;> rfl) | with_reducible exact Or.inr rfl | with_reducible exact Or.inr ⟨rfl, rfl⟩ | with_reducible exact Or.inr ⟨rfl, rfl, rfl⟩ | with_reducible exact Or.inr ⟨rfl, rfl, rfl, rfl⟩ | with_reducible exact Or.inr ⟨rfl, rfl, rfl, rfl, rfl⟩ | (intro _ _ _; dsimp only) | (intro _ _ _))

theorem parts_setLife {w : Part → Bool} {s0 s : State} {a1 a2} (h : Fixes w s0 s) (hw : Covers [.life] w) : Fixes w s0 (setLife s a1 a2) := by
  unfold setLife
  try dsimp only
  repeat' (first | with_reducible assumption | ((with_reducible refine Covers.of hw ?_) <;> rfl) | with_reducible apply parts_ite | with_reducible apply parts_ite_snd | split | with_reducible apply parts_mk | ((with_reducible refine Or.inl (Covers.has hw _ ?_)) <;> rfl) | with_reducible exact Or.inr rfl | with_reducible exact Or.inr ⟨rfl, rfl⟩ | with_reducible exact Or.inr ⟨rfl, rfl, rfl⟩ | with_reducible exact Or.inr ⟨rfl, rfl, rfl, rfl⟩ | with_reducible exact Or.inr ⟨rfl, rfl, rfl, rfl, rfl⟩ | (intro _ _ _; dsimp only) | (intro _ _ _))

theorem parts_moveUnit {w : Part → Bool} {s0 s : State} {a1 a2} (h : Fixes w s0 s) (hw : Covers [.force, .sess] w) : Fixes w s0 (moveUnit s a1 a2) := by
  unfold moveUnit
  try dsimp only
  repeat' (first | with_reducible assumption | with_reducible apply parts_setN | with_reducible apply parts_raise | ((with_reducible refine Covers.of hw ?_) <;> rfl) | with_reducible apply parts_ite | with_reducible apply parts_ite_snd | split | with_reducible apply parts_mk | ((with_reducible refine Or.inl (Covers.has hw _ ?_)) <;> rfl) | with_reducible exact Or.inr rfl | with_reducible exact Or.inr ⟨rfl, rfl⟩ | with_reducible exact Or.inr ⟨rfl, rfl, rfl⟩ | with_reducible exact Or.inr ⟨rfl, rfl, rfl, rfl⟩ | with_reducible exact Or.inr ⟨rfl, rfl, rfl, rfl, rfl⟩ | (intro _ _ _; dsimp only) | (intro _ _ _))

theorem parts_request {w : Part → Bool} {s0 s : State} {a1 a2 a3} (h : Fixes w s0 s) (hw : Covers [.force, .sess, .life] w) : Fixes w s0 (request s a1 a2 a3) := by
  unfold request
  try dsimp only
  repeat' (first | with_reducible assumption | with_reducible apply parts_setLife | with_reducible apply parts_moveUnit | with_reducible apply parts_raise | ((with_reducible refine Covers.of hw ?_) <;> rfl) | with_reducible apply parts_ite | with_reducible apply parts_ite_snd | split | with_reducible apply parts_mk | ((with_reducible refine Or.inl (Covers.has hw _ ?_)) <;> rfl) | with_reducible exact Or.inr rfl | with_reducible exact Or.inr ⟨rfl, rfl⟩ | with_reducible exact Or.inr ⟨rfl, rfl, rfl⟩ | with_reducible exact Or.inr ⟨rfl, rfl, rfl, rfl⟩ | with_reducible exact Or.inr ⟨rfl, rfl, rfl, rfl, rfl⟩ | (intro _ _ _; dsimp only) | (intro _ _ _))

theorem parts_faultUnit {w : Part → Bool} {s0 s : State} {a1} (h : Fixes w s0 s) (hw : Covers [.force, .sess, .life] w) : Fixes w s0 (faultUnit s a1) := by
  unfold faultUnit
  try dsimp only
  repeat' (first | with_reducible assumption | with_reducible apply parts_setLife | with_reducible apply parts_moveUnit | ((with_reducible refine Covers.of hw ?_) <;> rfl) | with_reducible apply parts_ite | with_reducible apply parts_ite_snd | split | with_reducible apply parts_mk | ((with_reducible refine Or.inl (Covers.has hw _ ?_)) <;> rfl) | with_reducible exact Or.inr rfl | with_reducible exact Or.inr ⟨rfl, rfl⟩ | with_reducible exact Or.inr ⟨rfl, rfl, rfl⟩ | with_reducible exact Or.inr ⟨rfl, rfl, rfl, rfl⟩ | with_reducible exact Or.inr ⟨rfl, rfl, rfl, rfl, rfl⟩ | (intro _ _ _; dsimp only) | (intro _ _ _))

theorem parts_faultDue {w : Part → Bool} {s0 s : State} {a1} (h : Fixes w s0 s) (hw : Covers [.sage] w) : Fixes w s0 (faultDue s a1) := by
  unfold faultDue
  try dsimp only
  repeat' (first | with_reducible assumption | ((with_reducible refine Covers.of hw ?_) <;> rfl) | with_reducible apply parts_ite | with_reducible apply parts_ite_snd | split | with_reducible apply parts_mk | ((with_reducible refine Or.inl (Covers.has hw _ ?_)) <;> rfl) | with_reducible exact Or.inr rfl | with_reducible exact Or.inr ⟨rfl, rfl⟩ | with_reducible exact Or.inr ⟨rfl, rfl, rfl⟩ | with_reducible exact Or.inr ⟨rfl, rfl, rfl, rfl⟩ | with_reducible exact Or.inr ⟨rfl, rfl, rfl, rfl, rfl⟩ | (intro _ _ _; dsimp only) | (intro _ _ _))

theorem parts_tickUnit {w : Part → Bool} {s0 s : State} {a1} (h : Fixes w s0 s) (hw : Covers [.force, .sess, .life] w) : Fixes w s0 (tickUnit s a1) := by
  unfold tickUnit
  try dsimp only
  repeat' (first | with_reducible assumption | with_reducible apply parts_setLife | with_reducible apply parts_moveUnit | ((with_reducible refine Covers.of hw ?_) <;> rfl) | with_reducible apply parts_ite | with_reducible apply parts_ite_snd | split | with_reducible apply parts_mk | ((with_reducible refine Or.inl (Covers.has hw _ ?_)) <;> rfl) | with_reducible exact Or.inr rfl | with_reducible exact Or.inr ⟨rfl, rfl⟩ | with_reducible exact Or.inr ⟨rfl, rfl, rfl⟩ | with_reducible exact Or.inr ⟨rfl, rfl, rfl, rfl⟩ | with_reducible exact Or.inr ⟨rfl, rfl, rfl, rfl, rfl⟩ | (intro _ _ _; dsimp only) | (intro _ _ _))

end Sys2Proof.Machine
end

