-- ==== Sys2Proof/Laws/PartsOps.lean ====
section
/-!
SUPPORT. Laws/PartsOps.lean: the operations of Machine/Ops.lean change only the parts of the state named (Laws/Parts.lean).
-/
-- One declaration at a time and no linter: the package is compiled as one text under a memory limit.
set_option linter.all false
set_option Elab.async false
namespace Sys2Proof.Machine

theorem parts_draw {w : Part → Bool} {s0 s : State} (h : Fixes w s0 s) (hw : Covers [.free] w) : Fixes w s0 (draw s).2 := by
  unfold draw
  try dsimp only
  repeat' (first | with_reducible assumption | ((with_reducible refine Covers.of hw ?_) <;> rfl) | with_reducible apply parts_ite | with_reducible apply parts_ite_snd | split | with_reducible apply parts_mk | ((with_reducible refine Or.inl (Covers.has hw _ ?_)) <;> rfl) | with_reducible exact Or.inr rfl | with_reducible exact Or.inr ⟨rfl, rfl⟩ | with_reducible exact Or.inr ⟨rfl, rfl, rfl⟩ | with_reducible exact Or.inr ⟨rfl, rfl, rfl, rfl⟩ | with_reducible exact Or.inr ⟨rfl, rfl, rfl, rfl, rfl⟩ | (intro _ _ _; dsimp only) | (intro _ _ _))

theorem parts_drawUpTo {w : Part → Bool} {s0 s : State} {a1} (h : Fixes w s0 s) (hw : Covers [.free] w) : Fixes w s0 (drawUpTo s a1).2 := by
  unfold drawUpTo
  try dsimp only
  repeat' (first | with_reducible assumption | with_reducible apply parts_draw | ((with_reducible refine Covers.of hw ?_) <;> rfl) | with_reducible apply parts_ite | with_reducible apply parts_ite_snd | split | with_reducible apply parts_mk | ((with_reducible refine Or.inl (Covers.has hw _ ?_)) <;> rfl) | with_reducible exact Or.inr rfl | with_reducible exact Or.inr ⟨rfl, rfl⟩ | with_reducible exact Or.inr ⟨rfl, rfl, rfl⟩ | with_reducible exact Or.inr ⟨rfl, rfl, rfl, rfl⟩ | with_reducible exact Or.inr ⟨rfl, rfl, rfl, rfl, rfl⟩ | (intro _ _ _; dsimp only) | (intro _ _ _))

theorem parts_atCycle {w : Part → Bool} {s0 s : State} {a1} (h : Fixes w s0 s) (hw : Covers [.now] w) : Fixes w s0 (atCycle s a1) := by
  unfold atCycle
  try dsimp only
  repeat' (first | with_reducible assumption | ((with_reducible refine Covers.of hw ?_) <;> rfl) | with_reducible apply parts_ite | with_reducible apply parts_ite_snd | split | with_reducible apply parts_mk | ((with_reducible refine Or.inl (Covers.has hw _ ?_)) <;> rfl) | with_reducible exact Or.inr rfl | with_reducible exact Or.inr ⟨rfl, rfl⟩ | with_reducible exact Or.inr ⟨rfl, rfl, rfl⟩ | with_reducible exact Or.inr ⟨rfl, rfl, rfl, rfl⟩ | with_reducible exact Or.inr ⟨rfl, rfl, rfl, rfl, rfl⟩ | (intro _ _ _; dsimp only) | (intro _ _ _))

end Sys2Proof.Machine
end

