-- ==== Sys2Proof/Laws/PartsClocks.lean ====
section
/-!
SUPPORT. Laws/PartsClocks.lean: the operations of Machine/Clocks.lean change only the parts of the state named (Laws/Parts.lean).
-/
-- One declaration at a time and no linter: the package is compiled as one text under a memory limit.
set_option linter.all false
set_option Elab.async false
namespace Sys2Proof.Machine

theorem parts_driveWclk {w : Part → Bool} {s0 s : State} (h : Fixes w s0 s) (hw : Covers [.pins] w) : Fixes w s0 (driveWclk s) := by
  unfold driveWclk
  try dsimp only
  repeat' (first | with_reducible assumption | ((with_reducible refine Covers.of hw ?_) <;> rfl) | with_reducible apply parts_ite | with_reducible apply parts_ite_snd | split | with_reducible apply parts_mk | ((with_reducible refine Or.inl (Covers.has hw _ ?_)) <;> rfl) | with_reducible exact Or.inr rfl | with_reducible exact Or.inr ⟨rfl, rfl⟩ | with_reducible exact Or.inr ⟨rfl, rfl, rfl⟩ | with_reducible exact Or.inr ⟨rfl, rfl, rfl, rfl⟩ | with_reducible exact Or.inr ⟨rfl, rfl, rfl, rfl, rfl⟩ | (intro _ _ _; dsimp only) | (intro _ _ _))

theorem parts_lowOutputs {w : Part → Bool} {s0 s : State} {a1} (h : Fixes w s0 s) (hw : Covers [.pins] w) : Fixes w s0 (lowOutputs s a1) := by
  unfold lowOutputs
  try dsimp only
  repeat' (first | with_reducible assumption | with_reducible apply parts_driveWclk | ((with_reducible refine Covers.of hw ?_) <;> rfl) | with_reducible apply parts_ite | with_reducible apply parts_ite_snd | split | with_reducible apply parts_mk | ((with_reducible refine Or.inl (Covers.has hw _ ?_)) <;> rfl) | with_reducible exact Or.inr rfl | with_reducible exact Or.inr ⟨rfl, rfl⟩ | with_reducible exact Or.inr ⟨rfl, rfl, rfl⟩ | with_reducible exact Or.inr ⟨rfl, rfl, rfl, rfl⟩ | with_reducible exact Or.inr ⟨rfl, rfl, rfl, rfl, rfl⟩ | (intro _ _ _; dsimp only) | (intro _ _ _))

theorem parts_setFreq {w : Part → Bool} {s0 s : State} {a1 a2} (h : Fixes w s0 s) (hw : Covers [.force, .pins] w) : Fixes w s0 (setFreq s a1 a2) := by
  unfold setFreq
  try dsimp only
  repeat' (first | with_reducible assumption | with_reducible apply parts_setN | with_reducible apply parts_driveWclk | ((with_reducible refine Covers.of hw ?_) <;> rfl) | with_reducible apply parts_ite | with_reducible apply parts_ite_snd | split | with_reducible apply parts_mk | ((with_reducible refine Or.inl (Covers.has hw _ ?_)) <;> rfl) | with_reducible exact Or.inr rfl | with_reducible exact Or.inr ⟨rfl, rfl⟩ | with_reducible exact Or.inr ⟨rfl, rfl, rfl⟩ | with_reducible exact Or.inr ⟨rfl, rfl, rfl, rfl⟩ | with_reducible exact Or.inr ⟨rfl, rfl, rfl, rfl, rfl⟩ | (intro _ _ _; dsimp only) | (intro _ _ _))

theorem parts_noteLock {w : Part → Bool} {s0 s : State} {a1} (h : Fixes w s0 s) (hw : Covers [.doms] w) : Fixes w s0 (noteLock s a1) := by
  unfold noteLock
  try dsimp only
  repeat' (first | with_reducible assumption | with_reducible apply parts_setDom | ((with_reducible refine Covers.of hw ?_) <;> rfl) | with_reducible apply parts_ite | with_reducible apply parts_ite_snd | split | with_reducible apply parts_mk | ((with_reducible refine Or.inl (Covers.has hw _ ?_)) <;> rfl) | with_reducible exact Or.inr rfl | with_reducible exact Or.inr ⟨rfl, rfl⟩ | with_reducible exact Or.inr ⟨rfl, rfl, rfl⟩ | with_reducible exact Or.inr ⟨rfl, rfl, rfl, rfl⟩ | with_reducible exact Or.inr ⟨rfl, rfl, rfl, rfl, rfl⟩ | (intro _ _ _; dsimp only) | (intro _ _ _))

theorem parts_setPhase {w : Part → Bool} {s0 s : State} {a1 a2} (h : Fixes w s0 s) (hw : Covers [.force] w) : Fixes w s0 (setPhase s a1 a2) := by
  unfold setPhase
  try dsimp only
  repeat' (first | with_reducible assumption | with_reducible apply parts_setN | ((with_reducible refine Covers.of hw ?_) <;> rfl) | with_reducible apply parts_ite | with_reducible apply parts_ite_snd | split | with_reducible apply parts_mk | ((with_reducible refine Or.inl (Covers.has hw _ ?_)) <;> rfl) | with_reducible exact Or.inr rfl | with_reducible exact Or.inr ⟨rfl, rfl⟩ | with_reducible exact Or.inr ⟨rfl, rfl, rfl⟩ | with_reducible exact Or.inr ⟨rfl, rfl, rfl, rfl⟩ | with_reducible exact Or.inr ⟨rfl, rfl, rfl, rfl, rfl⟩ | (intro _ _ _; dsimp only) | (intro _ _ _))

theorem parts_refPhase {w : Part → Bool} {s0 s : State} {a1 a2 a3} (h : Fixes w s0 s) (hw : Covers [.free] w) : Fixes w s0 (refPhase s a1 a2 a3).2 := by
  unfold refPhase
  try dsimp only
  repeat' (first | with_reducible assumption | with_reducible apply parts_drawUpTo | ((with_reducible refine Covers.of hw ?_) <;> rfl) | with_reducible apply parts_ite | with_reducible apply parts_ite_snd | split | with_reducible apply parts_mk | ((with_reducible refine Or.inl (Covers.has hw _ ?_)) <;> rfl) | with_reducible exact Or.inr rfl | with_reducible exact Or.inr ⟨rfl, rfl⟩ | with_reducible exact Or.inr ⟨rfl, rfl, rfl⟩ | with_reducible exact Or.inr ⟨rfl, rfl, rfl, rfl⟩ | with_reducible exact Or.inr ⟨rfl, rfl, rfl, rfl, rfl⟩ | (intro _ _ _; dsimp only) | (intro _ _ _))

theorem parts_startSlew {w : Part → Bool} {s0 s : State} {a1 a2} (h : Fixes w s0 s) (hw : Covers [.force, .doms] w) : Fixes w s0 (startSlew s a1 a2) := by
  unfold startSlew
  try dsimp only
  repeat' (first | with_reducible assumption | with_reducible apply parts_setN | with_reducible apply parts_setPhase | with_reducible apply parts_setDom | ((with_reducible refine Covers.of hw ?_) <;> rfl) | with_reducible apply parts_ite | with_reducible apply parts_ite_snd | split | with_reducible apply parts_mk | ((with_reducible refine Or.inl (Covers.has hw _ ?_)) <;> rfl) | with_reducible exact Or.inr rfl | with_reducible exact Or.inr ⟨rfl, rfl⟩ | with_reducible exact Or.inr ⟨rfl, rfl, rfl⟩ | with_reducible exact Or.inr ⟨rfl, rfl, rfl, rfl⟩ | with_reducible exact Or.inr ⟨rfl, rfl, rfl, rfl, rfl⟩ | (intro _ _ _; dsimp only) | (intro _ _ _))

theorem parts_startStep {w : Part → Bool} {s0 s : State} {a1 a2} (h : Fixes w s0 s) (hw : Covers [.force, .doms] w) : Fixes w s0 (startStep s a1 a2) := by
  unfold startStep
  try dsimp only
  repeat' (first | with_reducible assumption | with_reducible apply parts_setN | with_reducible apply parts_setPhase | with_reducible apply parts_setDom | ((with_reducible refine Covers.of hw ?_) <;> rfl) | with_reducible apply parts_ite | with_reducible apply parts_ite_snd | split | with_reducible apply parts_mk | ((with_reducible refine Or.inl (Covers.has hw _ ?_)) <;> rfl) | with_reducible exact Or.inr rfl | with_reducible exact Or.inr ⟨rfl, rfl⟩ | with_reducible exact Or.inr ⟨rfl, rfl, rfl⟩ | with_reducible exact Or.inr ⟨rfl, rfl, rfl, rfl⟩ | with_reducible exact Or.inr ⟨rfl, rfl, rfl, rfl, rfl⟩ | (intro _ _ _; dsimp only) | (intro _ _ _))

theorem parts_switchTo {w : Part → Bool} {s0 s : State} {a1 a2} (h : Fixes w s0 s) (hw : Covers [.free, .force, .sess, .doms, .pins] w) : Fixes w s0 (switchTo s a1 a2) := by
  unfold switchTo
  try dsimp only
  repeat' (first | with_reducible assumption | with_reducible apply parts_startStep | with_reducible apply parts_bump | with_reducible apply parts_setFreq | with_reducible apply parts_setN | with_reducible apply parts_setPhase | with_reducible apply parts_startSlew | with_reducible apply parts_noteLock | with_reducible apply parts_raise | with_reducible apply parts_setDom | with_reducible apply parts_refPhase | ((with_reducible refine Covers.of hw ?_) <;> rfl) | with_reducible apply parts_ite | with_reducible apply parts_ite_snd | split | with_reducible apply parts_mk | ((with_reducible refine Or.inl (Covers.has hw _ ?_)) <;> rfl) | with_reducible exact Or.inr rfl | with_reducible exact Or.inr ⟨rfl, rfl⟩ | with_reducible exact Or.inr ⟨rfl, rfl, rfl⟩ | with_reducible exact Or.inr ⟨rfl, rfl, rfl, rfl⟩ | with_reducible exact Or.inr ⟨rfl, rfl, rfl, rfl, rfl⟩ | (intro _ _ _; dsimp only) | (intro _ _ _))

theorem parts_enterHoldover {w : Part → Bool} {s0 s : State} {a1} (h : Fixes w s0 s) (hw : Covers [.force, .sess, .doms, .pins] w) : Fixes w s0 (enterHoldover s a1) := by
  unfold enterHoldover
  try dsimp only
  repeat' (first | with_reducible assumption | with_reducible apply parts_bump | with_reducible apply parts_setFreq | with_reducible apply parts_setN | with_reducible apply parts_noteLock | with_reducible apply parts_raise | with_reducible apply parts_setDom | ((with_reducible refine Covers.of hw ?_) <;> rfl) | with_reducible apply parts_ite | with_reducible apply parts_ite_snd | split | with_reducible apply parts_mk | ((with_reducible refine Or.inl (Covers.has hw _ ?_)) <;> rfl) | with_reducible exact Or.inr rfl | with_reducible exact Or.inr ⟨rfl, rfl⟩ | with_reducible exact Or.inr ⟨rfl, rfl, rfl⟩ | with_reducible exact Or.inr ⟨rfl, rfl, rfl, rfl⟩ | with_reducible exact Or.inr ⟨rfl, rfl, rfl, rfl, rfl⟩ | (intro _ _ _; dsimp only) | (intro _ _ _))

theorem parts_domainOn {w : Part → Bool} {s0 s : State} {a1} (h : Fixes w s0 s) (hw : Covers [.force, .sess, .doms] w) : Fixes w s0 (domainOn s a1) := by
  unfold domainOn
  try dsimp only
  repeat' (first | with_reducible assumption | with_reducible apply parts_moveUnit | with_reducible apply parts_setDom | ((with_reducible refine Covers.of hw ?_) <;> rfl) | with_reducible apply parts_ite | with_reducible apply parts_ite_snd | split | with_reducible apply parts_mk | ((with_reducible refine Or.inl (Covers.has hw _ ?_)) <;> rfl) | with_reducible exact Or.inr rfl | with_reducible exact Or.inr ⟨rfl, rfl⟩ | with_reducible exact Or.inr ⟨rfl, rfl, rfl⟩ | with_reducible exact Or.inr ⟨rfl, rfl, rfl, rfl⟩ | with_reducible exact Or.inr ⟨rfl, rfl, rfl, rfl, rfl⟩ | (intro _ _ _; dsimp only) | (intro _ _ _))

theorem parts_startDpll {w : Part → Bool} {s0 s : State} {a1} (h : Fixes w s0 s) (hw : Covers [.force, .sess, .doms, .pins] w) : Fixes w s0 (startDpll s a1) := by
  unfold startDpll
  try dsimp only
  repeat' (first | with_reducible assumption | with_reducible apply parts_domainOn | with_reducible apply parts_setFreq | with_reducible apply parts_setN | with_reducible apply parts_setDom | ((with_reducible refine Covers.of hw ?_) <;> rfl) | with_reducible apply parts_ite | with_reducible apply parts_ite_snd | split | with_reducible apply parts_mk | ((with_reducible refine Or.inl (Covers.has hw _ ?_)) <;> rfl) | with_reducible exact Or.inr rfl | with_reducible exact Or.inr ⟨rfl, rfl⟩ | with_reducible exact Or.inr ⟨rfl, rfl, rfl⟩ | with_reducible exact Or.inr ⟨rfl, rfl, rfl, rfl⟩ | with_reducible exact Or.inr ⟨rfl, rfl, rfl, rfl, rfl⟩ | (intro _ _ _; dsimp only) | (intro _ _ _))

theorem parts_retryStarts {w : Part → Bool} {s0 s : State} (h : Fixes w s0 s) (hw : Covers [.force, .sess, .doms, .pins] w) : Fixes w s0 (retryStarts s) := by
  unfold retryStarts
  try dsimp only
  repeat' (first | with_reducible assumption | with_reducible apply parts_startDpll | with_reducible apply parts_foldl | with_reducible apply parts_foldl_fst | with_reducible apply parts_foldl_snd | ((with_reducible refine Covers.of hw ?_) <;> rfl) | with_reducible apply parts_ite | with_reducible apply parts_ite_snd | split | with_reducible apply parts_mk | ((with_reducible refine Or.inl (Covers.has hw _ ?_)) <;> rfl) | with_reducible exact Or.inr rfl | with_reducible exact Or.inr ⟨rfl, rfl⟩ | with_reducible exact Or.inr ⟨rfl, rfl, rfl⟩ | with_reducible exact Or.inr ⟨rfl, rfl, rfl, rfl⟩ | with_reducible exact Or.inr ⟨rfl, rfl, rfl, rfl, rfl⟩ | (intro _ _ _; dsimp only) | (intro _ _ _))

theorem parts_loseRef {w : Part → Bool} {s0 s : State} {a1 a2} (h : Fixes w s0 s) (hw : Covers [.force, .sess, .doms, .pins] w) : Fixes w s0 (loseRef s a1 a2) := by
  unfold loseRef
  try dsimp only
  repeat' (first | with_reducible assumption | with_reducible apply parts_retryStarts | with_reducible apply parts_raise | with_reducible apply parts_enterHoldover | with_reducible apply parts_foldl | with_reducible apply parts_foldl_fst | with_reducible apply parts_foldl_snd | ((with_reducible refine Covers.of hw ?_) <;> rfl) | with_reducible apply parts_ite | with_reducible apply parts_ite_snd | split | with_reducible apply parts_mk | ((with_reducible refine Or.inl (Covers.has hw _ ?_)) <;> rfl) | with_reducible exact Or.inr rfl | with_reducible exact Or.inr ⟨rfl, rfl⟩ | with_reducible exact Or.inr ⟨rfl, rfl, rfl⟩ | with_reducible exact Or.inr ⟨rfl, rfl, rfl, rfl⟩ | with_reducible exact Or.inr ⟨rfl, rfl, rfl, rfl, rfl⟩ | (intro _ _ _; dsimp only) | (intro _ _ _))

theorem parts_execDpllLocked {w : Part → Bool} {s0 s : State} {a0} (h : Fixes w s0 s) (hw : Covers [.free, .force, .sess, .doms, .pins] w) : FixesOut w s0 (execDpllLocked a0 s) := by
  unfold execDpllLocked
  try dsimp only
  repeat' (first | with_reducible assumption | with_reducible apply parts_drawUpTo | with_reducible apply parts_domainOn | with_reducible apply parts_setFreq | with_reducible apply parts_setN | with_reducible apply parts_setDom | with_reducible apply parts_next | exact parts_fault _ | ((with_reducible refine Covers.of hw ?_) <;> rfl) | with_reducible apply parts_ite | with_reducible apply parts_ite_snd | split | with_reducible apply parts_mk | ((with_reducible refine Or.inl (Covers.has hw _ ?_)) <;> rfl) | with_reducible exact Or.inr rfl | with_reducible exact Or.inr ⟨rfl, rfl⟩ | with_reducible exact Or.inr ⟨rfl, rfl, rfl⟩ | with_reducible exact Or.inr ⟨rfl, rfl, rfl, rfl⟩ | with_reducible exact Or.inr ⟨rfl, rfl, rfl, rfl, rfl⟩ | (intro _ _ _; dsimp only) | (intro _ _ _))

theorem parts_execDpllSlewDone {w : Part → Bool} {s0 s : State} {a0} (h : Fixes w s0 s) (hw : Covers [.force, .doms] w) : FixesOut w s0 (execDpllSlewDone a0 s) := by
  unfold execDpllSlewDone
  try dsimp only
  repeat' (first | with_reducible assumption | with_reducible apply parts_setN | with_reducible apply parts_setDom | with_reducible apply parts_next | exact parts_fault _ | ((with_reducible refine Covers.of hw ?_) <;> rfl) | with_reducible apply parts_ite | with_reducible apply parts_ite_snd | split | with_reducible apply parts_mk | ((with_reducible refine Or.inl (Covers.has hw _ ?_)) <;> rfl) | with_reducible exact Or.inr rfl | with_reducible exact Or.inr ⟨rfl, rfl⟩ | with_reducible exact Or.inr ⟨rfl, rfl, rfl⟩ | with_reducible exact Or.inr ⟨rfl, rfl, rfl, rfl⟩ | with_reducible exact Or.inr ⟨rfl, rfl, rfl, rfl, rfl⟩ | (intro _ _ _; dsimp only) | (intro _ _ _))

theorem parts_slewTick {w : Part → Bool} {s0 s : State} {a1} (h : Fixes w s0 s) (hw : Covers [.force, .doms, .pins] w) : Fixes w s0 (slewTick s a1) := by
  unfold slewTick
  try dsimp only
  repeat' (first | with_reducible assumption | with_reducible apply parts_setFreq | with_reducible apply parts_setPhase | with_reducible apply parts_setDom | ((with_reducible refine Covers.of hw ?_) <;> rfl) | with_reducible apply parts_ite | with_reducible apply parts_ite_snd | split | with_reducible apply parts_mk | ((with_reducible refine Or.inl (Covers.has hw _ ?_)) <;> rfl) | with_reducible exact Or.inr rfl | with_reducible exact Or.inr ⟨rfl, rfl⟩ | with_reducible exact Or.inr ⟨rfl, rfl, rfl⟩ | with_reducible exact Or.inr ⟨rfl, rfl, rfl, rfl⟩ | with_reducible exact Or.inr ⟨rfl, rfl, rfl, rfl, rfl⟩ | (intro _ _ _; dsimp only) | (intro _ _ _))

theorem parts_lockTick {w : Part → Bool} {s0 s : State} {a1} (h : Fixes w s0 s) (hw : Covers [.force, .doms, .pins] w) : Fixes w s0 (lockTick s a1) := by
  unfold lockTick
  try dsimp only
  repeat' (first | with_reducible assumption | with_reducible apply parts_setFreq | with_reducible apply parts_noteLock | ((with_reducible refine Covers.of hw ?_) <;> rfl) | with_reducible apply parts_ite | with_reducible apply parts_ite_snd | split | with_reducible apply parts_mk | ((with_reducible refine Or.inl (Covers.has hw _ ?_)) <;> rfl) | with_reducible exact Or.inr rfl | with_reducible exact Or.inr ⟨rfl, rfl⟩ | with_reducible exact Or.inr ⟨rfl, rfl, rfl⟩ | with_reducible exact Or.inr ⟨rfl, rfl, rfl, rfl⟩ | with_reducible exact Or.inr ⟨rfl, rfl, rfl, rfl, rfl⟩ | (intro _ _ _; dsimp only) | (intro _ _ _))

theorem parts_execDomainFreeRunTimeout {w : Part → Bool} {s0 s : State} {a0} (h : Fixes w s0 s) (hw : Covers [.force, .sess, .doms, .pins] w) : FixesOut w s0 (execDomainFreeRunTimeout a0 s) := by
  unfold execDomainFreeRunTimeout
  try dsimp only
  repeat' (first | with_reducible assumption | with_reducible apply parts_domainOn | with_reducible apply parts_setFreq | with_reducible apply parts_setN | with_reducible apply parts_setDom | with_reducible apply parts_next | exact parts_fault _ | ((with_reducible refine Covers.of hw ?_) <;> rfl) | with_reducible apply parts_ite | with_reducible apply parts_ite_snd | split | with_reducible apply parts_mk | ((with_reducible refine Or.inl (Covers.has hw _ ?_)) <;> rfl) | with_reducible exact Or.inr rfl | with_reducible exact Or.inr ⟨rfl, rfl⟩ | with_reducible exact Or.inr ⟨rfl, rfl, rfl⟩ | with_reducible exact Or.inr ⟨rfl, rfl, rfl, rfl⟩ | with_reducible exact Or.inr ⟨rfl, rfl, rfl, rfl, rfl⟩ | (intro _ _ _; dsimp only) | (intro _ _ _))

theorem parts_setRef {w : Part → Bool} {s0 s : State} {a1 a2} (h : Fixes w s0 s) (hw : Covers [.refs] w) : Fixes w s0 (setRef s a1 a2) := by
  unfold setRef
  try dsimp only
  repeat' (first | with_reducible assumption | ((with_reducible refine Covers.of hw ?_) <;> rfl) | with_reducible apply parts_ite | with_reducible apply parts_ite_snd | split | with_reducible apply parts_mk | ((with_reducible refine Or.inl (Covers.has hw _ ?_)) <;> rfl) | with_reducible exact Or.inr rfl | with_reducible exact Or.inr ⟨rfl, rfl⟩ | with_reducible exact Or.inr ⟨rfl, rfl, rfl⟩ | with_reducible exact Or.inr ⟨rfl, rfl, rfl, rfl⟩ | with_reducible exact Or.inr ⟨rfl, rfl, rfl, rfl, rfl⟩ | (intro _ _ _; dsimp only) | (intro _ _ _))

theorem parts_execReferenceEdgeMissing {w : Part → Bool} {s0 s : State} {a0} (h : Fixes w s0 s) (hw : Covers [.force, .sess, .doms, .refs, .pins] w) : FixesOut w s0 (execReferenceEdgeMissing a0 s) := by
  unfold execReferenceEdgeMissing
  try dsimp only
  repeat' (first | with_reducible assumption | with_reducible apply parts_bump | with_reducible apply parts_setN | with_reducible apply parts_setRef | with_reducible apply parts_loseRef | with_reducible apply parts_next | exact parts_fault _ | ((with_reducible refine Covers.of hw ?_) <;> rfl) | with_reducible apply parts_ite | with_reducible apply parts_ite_snd | split | with_reducible apply parts_mk | ((with_reducible refine Or.inl (Covers.has hw _ ?_)) <;> rfl) | with_reducible exact Or.inr rfl | with_reducible exact Or.inr ⟨rfl, rfl⟩ | with_reducible exact Or.inr ⟨rfl, rfl, rfl⟩ | with_reducible exact Or.inr ⟨rfl, rfl, rfl, rfl⟩ | with_reducible exact Or.inr ⟨rfl, rfl, rfl, rfl, rfl⟩ | (intro _ _ _; dsimp only) | (intro _ _ _))

theorem parts_execReferenceGlitch {w : Part → Bool} {s0 s : State} {a0} (h : Fixes w s0 s) (hw : Covers [.force, .sess, .doms, .refs, .pins] w) : FixesOut w s0 (execReferenceGlitch a0 s) := by
  unfold execReferenceGlitch
  try dsimp only
  repeat' (first | with_reducible assumption | with_reducible apply parts_bump | with_reducible apply parts_setN | with_reducible apply parts_setRef | with_reducible apply parts_loseRef | with_reducible apply parts_next | exact parts_fault _ | ((with_reducible refine Covers.of hw ?_) <;> rfl) | with_reducible apply parts_ite | with_reducible apply parts_ite_snd | split | with_reducible apply parts_mk | ((with_reducible refine Or.inl (Covers.has hw _ ?_)) <;> rfl) | with_reducible exact Or.inr rfl | with_reducible exact Or.inr ⟨rfl, rfl⟩ | with_reducible exact Or.inr ⟨rfl, rfl, rfl⟩ | with_reducible exact Or.inr ⟨rfl, rfl, rfl, rfl⟩ | with_reducible exact Or.inr ⟨rfl, rfl, rfl, rfl, rfl⟩ | (intro _ _ _; dsimp only) | (intro _ _ _))

theorem parts_execGlitchHoldEnd {w : Part → Bool} {s0 s : State} {a0} (h : Fixes w s0 s) (hw : Covers [.force, .sess, .doms, .pins] w) : FixesOut w s0 (execGlitchHoldEnd a0 s) := by
  unfold execGlitchHoldEnd
  try dsimp only
  repeat' (first | with_reducible assumption | with_reducible apply parts_retryStarts | with_reducible apply parts_setN | with_reducible apply parts_raise | with_reducible apply parts_next | exact parts_fault _ | ((with_reducible refine Covers.of hw ?_) <;> rfl) | with_reducible apply parts_ite | with_reducible apply parts_ite_snd | split | with_reducible apply parts_mk | ((with_reducible refine Or.inl (Covers.has hw _ ?_)) <;> rfl) | with_reducible exact Or.inr rfl | with_reducible exact Or.inr ⟨rfl, rfl⟩ | with_reducible exact Or.inr ⟨rfl, rfl, rfl⟩ | with_reducible exact Or.inr ⟨rfl, rfl, rfl, rfl⟩ | with_reducible exact Or.inr ⟨rfl, rfl, rfl, rfl, rfl⟩ | (intro _ _ _; dsimp only) | (intro _ _ _))

theorem parts_execReferenceFirstEdge {w : Part → Bool} {s0 s : State} {a0} (h : Fixes w s0 s) (hw : Covers [.force, .refs] w) : FixesOut w s0 (execReferenceFirstEdge a0 s) := by
  unfold execReferenceFirstEdge
  try dsimp only
  repeat' (first | with_reducible assumption | with_reducible apply parts_setN | with_reducible apply parts_setRef | with_reducible apply parts_next | exact parts_fault _ | ((with_reducible refine Covers.of hw ?_) <;> rfl) | with_reducible apply parts_ite | with_reducible apply parts_ite_snd | split | with_reducible apply parts_mk | ((with_reducible refine Or.inl (Covers.has hw _ ?_)) <;> rfl) | with_reducible exact Or.inr rfl | with_reducible exact Or.inr ⟨rfl, rfl⟩ | with_reducible exact Or.inr ⟨rfl, rfl, rfl⟩ | with_reducible exact Or.inr ⟨rfl, rfl, rfl, rfl⟩ | with_reducible exact Or.inr ⟨rfl, rfl, rfl, rfl, rfl⟩ | (intro _ _ _; dsimp only) | (intro _ _ _))

theorem parts_execRateGateEnd {w : Part → Bool} {s0 s : State} {a0 a1} (h : Fixes w s0 s) (hw : Covers [.force, .sess, .doms, .refs, .pins] w) : FixesOut w s0 (execRateGateEnd a0 a1 s) := by
  unfold execRateGateEnd
  try dsimp only
  repeat' (first | with_reducible assumption | with_reducible apply parts_bump | with_reducible apply parts_retryStarts | with_reducible apply parts_setN | with_reducible apply parts_setRef | with_reducible apply parts_raise | with_reducible apply parts_loseRef | with_reducible apply parts_next | exact parts_fault _ | ((with_reducible refine Covers.of hw ?_) <;> rfl) | with_reducible apply parts_ite | with_reducible apply parts_ite_snd | split | with_reducible apply parts_mk | ((with_reducible refine Or.inl (Covers.has hw _ ?_)) <;> rfl) | with_reducible exact Or.inr rfl | with_reducible exact Or.inr ⟨rfl, rfl⟩ | with_reducible exact Or.inr ⟨rfl, rfl, rfl⟩ | with_reducible exact Or.inr ⟨rfl, rfl, rfl, rfl⟩ | with_reducible exact Or.inr ⟨rfl, rfl, rfl, rfl, rfl⟩ | (intro _ _ _; dsimp only) | (intro _ _ _))

theorem parts_selectAtTick {w : Part → Bool} {s0 s : State} {a1} (h : Fixes w s0 s) (hw : Covers [.free, .force, .sess, .doms, .pins] w) : Fixes w s0 (selectAtTick s a1) := by
  unfold selectAtTick
  try dsimp only
  repeat' (first | with_reducible assumption | with_reducible apply parts_switchTo | with_reducible apply parts_raise | with_reducible apply parts_setDom | ((with_reducible refine Covers.of hw ?_) <;> rfl) | with_reducible apply parts_ite | with_reducible apply parts_ite_snd | split | with_reducible apply parts_mk | ((with_reducible refine Or.inl (Covers.has hw _ ?_)) <;> rfl) | with_reducible exact Or.inr rfl | with_reducible exact Or.inr ⟨rfl, rfl⟩ | with_reducible exact Or.inr ⟨rfl, rfl, rfl⟩ | with_reducible exact Or.inr ⟨rfl, rfl, rfl, rfl⟩ | with_reducible exact Or.inr ⟨rfl, rfl, rfl, rfl, rfl⟩ | (intro _ _ _; dsimp only) | (intro _ _ _))

theorem parts_reportOutError {w : Part → Bool} {s0 s : State} {a1} (h : Fixes w s0 s) (hw : Covers [.force] w) : Fixes w s0 (reportOutError s a1) := by
  unfold reportOutError
  try dsimp only
  repeat' (first | with_reducible assumption | with_reducible apply parts_setN | with_reducible apply parts_foldl | with_reducible apply parts_foldl_fst | with_reducible apply parts_foldl_snd | ((with_reducible refine Covers.of hw ?_) <;> rfl) | with_reducible apply parts_ite | with_reducible apply parts_ite_snd | split | with_reducible apply parts_mk | ((with_reducible refine Or.inl (Covers.has hw _ ?_)) <;> rfl) | with_reducible exact Or.inr rfl | with_reducible exact Or.inr ⟨rfl, rfl⟩ | with_reducible exact Or.inr ⟨rfl, rfl, rfl⟩ | with_reducible exact Or.inr ⟨rfl, rfl, rfl, rfl⟩ | with_reducible exact Or.inr ⟨rfl, rfl, rfl, rfl, rfl⟩ | (intro _ _ _; dsimp only) | (intro _ _ _))

theorem parts_applyStep {w : Part → Bool} {s0 s : State} {a1} (h : Fixes w s0 s) (hw : Covers [.force, .doms] w) : Fixes w s0 (applyStep s a1) := by
  unfold applyStep
  try dsimp only
  repeat' (first | with_reducible assumption | with_reducible apply parts_setPhase | with_reducible apply parts_setDom | with_reducible apply parts_foldl | with_reducible apply parts_foldl_fst | with_reducible apply parts_foldl_snd | ((with_reducible refine Covers.of hw ?_) <;> rfl) | with_reducible apply parts_ite | with_reducible apply parts_ite_snd | split | with_reducible apply parts_mk | ((with_reducible refine Or.inl (Covers.has hw _ ?_)) <;> rfl) | with_reducible exact Or.inr rfl | with_reducible exact Or.inr ⟨rfl, rfl⟩ | with_reducible exact Or.inr ⟨rfl, rfl, rfl⟩ | with_reducible exact Or.inr ⟨rfl, rfl, rfl, rfl⟩ | with_reducible exact Or.inr ⟨rfl, rfl, rfl, rfl, rfl⟩ | (intro _ _ _; dsimp only) | (intro _ _ _))

theorem parts_servePhase {w : Part → Bool} {s0 s : State} {a1} (h : Fixes w s0 s) (hw : Covers [.force, .doms] w) : Fixes w s0 (servePhase s a1) := by
  unfold servePhase
  try dsimp only
  repeat' (first | with_reducible assumption | with_reducible apply parts_startStep | with_reducible apply parts_startSlew | with_reducible apply parts_noteLock | with_reducible apply parts_setDom | ((with_reducible refine Covers.of hw ?_) <;> rfl) | with_reducible apply parts_ite | with_reducible apply parts_ite_snd | split | with_reducible apply parts_mk | ((with_reducible refine Or.inl (Covers.has hw _ ?_)) <;> rfl) | with_reducible exact Or.inr rfl | with_reducible exact Or.inr ⟨rfl, rfl⟩ | with_reducible exact Or.inr ⟨rfl, rfl, rfl⟩ | with_reducible exact Or.inr ⟨rfl, rfl, rfl, rfl⟩ | with_reducible exact Or.inr ⟨rfl, rfl, rfl, rfl, rfl⟩ | (intro _ _ _; dsimp only) | (intro _ _ _))

theorem parts_driveOutputs {w : Part → Bool} {s0 s : State} {a1} (h : Fixes w s0 s) (hw : Covers [.force, .doms, .pins] w) : Fixes w s0 (driveOutputs s a1) := by
  unfold driveOutputs
  try dsimp only
  repeat' (first | with_reducible assumption | with_reducible apply parts_reportOutError | with_reducible apply parts_driveWclk | with_reducible apply parts_setDom | with_reducible apply parts_foldl | with_reducible apply parts_foldl_fst | with_reducible apply parts_foldl_snd | ((with_reducible refine Covers.of hw ?_) <;> rfl) | with_reducible apply parts_ite | with_reducible apply parts_ite_snd | split | with_reducible apply parts_mk | ((with_reducible refine Or.inl (Covers.has hw _ ?_)) <;> rfl) | with_reducible exact Or.inr rfl | with_reducible exact Or.inr ⟨rfl, rfl⟩ | with_reducible exact Or.inr ⟨rfl, rfl, rfl⟩ | with_reducible exact Or.inr ⟨rfl, rfl, rfl, rfl⟩ | with_reducible exact Or.inr ⟨rfl, rfl, rfl, rfl, rfl⟩ | (intro _ _ _; dsimp only) | (intro _ _ _))

theorem parts_realignOutputs {w : Part → Bool} {s0 s : State} {a1 a2} (h : Fixes w s0 s) (hw : Covers [.doms] w) : Fixes w s0 (realignOutputs s a1 a2) := by
  unfold realignOutputs
  try dsimp only
  repeat' (first | with_reducible assumption | with_reducible apply parts_setDom | with_reducible apply parts_foldl | with_reducible apply parts_foldl_fst | with_reducible apply parts_foldl_snd | ((with_reducible refine Covers.of hw ?_) <;> rfl) | with_reducible apply parts_ite | with_reducible apply parts_ite_snd | split | with_reducible apply parts_mk | ((with_reducible refine Or.inl (Covers.has hw _ ?_)) <;> rfl) | with_reducible exact Or.inr rfl | with_reducible exact Or.inr ⟨rfl, rfl⟩ | with_reducible exact Or.inr ⟨rfl, rfl, rfl⟩ | with_reducible exact Or.inr ⟨rfl, rfl, rfl, rfl⟩ | with_reducible exact Or.inr ⟨rfl, rfl, rfl, rfl, rfl⟩ | (intro _ _ _; dsimp only) | (intro _ _ _))

theorem parts_reactClock {w : Part → Bool} {s0 s : State} {a1 a2} (h : Fixes w s0 s) (hw : Covers [.free, .force, .sess, .doms, .pins] w) : Fixes w s0 (reactClock s a1 a2) := by
  unfold reactClock
  try dsimp only
  repeat' (first | with_reducible assumption | with_reducible apply parts_switchTo | with_reducible apply parts_retryStarts | with_reducible apply parts_realignOutputs | with_reducible apply parts_startDpll | with_reducible apply parts_setDom | ((with_reducible refine Covers.of hw ?_) <;> rfl) | with_reducible apply parts_ite | with_reducible apply parts_ite_snd | split | with_reducible apply parts_mk | ((with_reducible refine Or.inl (Covers.has hw _ ?_)) <;> rfl) | with_reducible exact Or.inr rfl | with_reducible exact Or.inr ⟨rfl, rfl⟩ | with_reducible exact Or.inr ⟨rfl, rfl, rfl⟩ | with_reducible exact Or.inr ⟨rfl, rfl, rfl, rfl⟩ | with_reducible exact Or.inr ⟨rfl, rfl, rfl, rfl, rfl⟩ | (intro _ _ _; dsimp only) | (intro _ _ _))

end Sys2Proof.Machine
end

