-- ==== Sys2Proof/Laws/PartsBudget.lean ====
section
/-!
SUPPORT. Laws/PartsBudget.lean: the operations of Machine/Budget.lean change only the parts of the state named (Laws/Parts.lean).
-/
-- One declaration at a time and no linter: the package is compiled as one text under a memory limit.
set_option linter.all false
set_option Elab.async false
namespace Sys2Proof.Machine

theorem parts_publishBudgets {w : Part → Bool} {s0 s : State} {a1 a2} (h : Fixes w s0 s) (hw : Covers [.force] w) : Fixes w s0 (publishBudgets s a1 a2) := by
  unfold publishBudgets
  try dsimp only
  repeat' (first | with_reducible assumption | with_reducible apply parts_setN | with_reducible apply parts_foldl | with_reducible apply parts_foldl_fst | with_reducible apply parts_foldl_snd | ((with_reducible refine Covers.of hw ?_) <;> rfl) | with_reducible apply parts_ite | with_reducible apply parts_ite_snd | split | with_reducible apply parts_mk | ((with_reducible refine Or.inl (Covers.has hw _ ?_)) <;> rfl) | with_reducible exact Or.inr rfl | with_reducible exact Or.inr ⟨rfl, rfl⟩ | with_reducible exact Or.inr ⟨rfl, rfl, rfl⟩ | with_reducible exact Or.inr ⟨rfl, rfl, rfl, rfl⟩ | with_reducible exact Or.inr ⟨rfl, rfl, rfl, rfl, rfl⟩ | (intro _ _ _; dsimp only) | (intro _ _ _))

end Sys2Proof.Machine
end

