-- ==== Sys2Proof/Laws/PartsLanes.lean ====
section
/-!
SUPPORT. Laws/PartsLanes.lean: the operations of Machine/Lanes.lean change only the parts of the state named (Laws/Parts.lean).
-/
-- One declaration at a time and no linter: the package is compiled as one text under a memory limit.
set_option linter.all false
set_option Elab.async false
namespace Sys2Proof.Machine

theorem parts_chipEdit {w : Part → Bool} {s0 s : State} {a1 a2} (h : Fixes w s0 s) (hw : Covers [.mem, .sage] w) : Fixes w s0 (chipEdit s a1 a2) := by
  unfold chipEdit
  try dsimp only
  repeat' (first | with_reducible assumption | ((with_reducible refine Covers.of hw ?_) <;> rfl) | with_reducible apply parts_ite | with_reducible apply parts_ite_snd | split | with_reducible apply parts_mk | ((with_reducible refine Or.inl (Covers.has hw _ ?_)) <;> rfl) | with_reducible exact Or.inr rfl | with_reducible exact Or.inr ⟨rfl, rfl⟩ | with_reducible exact Or.inr ⟨rfl, rfl, rfl⟩ | with_reducible exact Or.inr ⟨rfl, rfl, rfl, rfl⟩ | with_reducible exact Or.inr ⟨rfl, rfl, rfl, rfl, rfl⟩ | (intro _ _ _; dsimp only) | (intro _ _ _))

theorem parts_clearPoison {w : Part → Bool} {s0 s : State} {a1} (h : Fixes w s0 s) (hw : Covers [.sage] w) : Fixes w s0 (clearPoison s a1) := by
  unfold clearPoison
  try dsimp only
  repeat' (first | with_reducible assumption | ((with_reducible refine Covers.of hw ?_) <;> rfl) | with_reducible apply parts_ite | with_reducible apply parts_ite_snd | split | with_reducible apply parts_mk | ((with_reducible refine Or.inl (Covers.has hw _ ?_)) <;> rfl) | with_reducible exact Or.inr rfl | with_reducible exact Or.inr ⟨rfl, rfl⟩ | with_reducible exact Or.inr ⟨rfl, rfl, rfl⟩ | with_reducible exact Or.inr ⟨rfl, rfl, rfl, rfl⟩ | with_reducible exact Or.inr ⟨rfl, rfl, rfl, rfl, rfl⟩ | (intro _ _ _; dsimp only) | (intro _ _ _))

theorem parts_putBytes {w : Part → Bool} {s0 s : State} {a1 a2} (h : Fixes w s0 s) (hw : Covers [.mem, .sage] w) : Fixes w s0 (putBytes s a1 a2) := by
  unfold putBytes
  try dsimp only
  repeat' (first | with_reducible assumption | with_reducible apply parts_chipEdit | with_reducible apply parts_clearPoison | ((with_reducible refine Covers.of hw ?_) <;> rfl) | with_reducible apply parts_ite | with_reducible apply parts_ite_snd | split | with_reducible apply parts_mk | ((with_reducible refine Or.inl (Covers.has hw _ ?_)) <;> rfl) | with_reducible exact Or.inr rfl | with_reducible exact Or.inr ⟨rfl, rfl⟩ | with_reducible exact Or.inr ⟨rfl, rfl, rfl⟩ | with_reducible exact Or.inr ⟨rfl, rfl, rfl, rfl⟩ | with_reducible exact Or.inr ⟨rfl, rfl, rfl, rfl, rfl⟩ | (intro _ _ _; dsimp only) | (intro _ _ _))

theorem parts_putLaneWord {w : Part → Bool} {s0 s : State} {a1 a2 a3} (h : Fixes w s0 s) (hw : Covers [.mem, .sage] w) : Fixes w s0 (putLaneWord s a1 a2 a3) := by
  unfold putLaneWord
  try dsimp only
  repeat' (first | with_reducible assumption | with_reducible apply parts_putBytes | ((with_reducible refine Covers.of hw ?_) <;> rfl) | with_reducible apply parts_ite | with_reducible apply parts_ite_snd | split | with_reducible apply parts_mk | ((with_reducible refine Or.inl (Covers.has hw _ ?_)) <;> rfl) | with_reducible exact Or.inr rfl | with_reducible exact Or.inr ⟨rfl, rfl⟩ | with_reducible exact Or.inr ⟨rfl, rfl, rfl⟩ | with_reducible exact Or.inr ⟨rfl, rfl, rfl, rfl⟩ | with_reducible exact Or.inr ⟨rfl, rfl, rfl, rfl, rfl⟩ | (intro _ _ _; dsimp only) | (intro _ _ _))

theorem parts_setLane {w : Part → Bool} {s0 s : State} {a1 a2} (h : Fixes w s0 s) (hw : Covers [.lanes] w) : Fixes w s0 (setLane s a1 a2) := by
  unfold setLane
  try dsimp only
  repeat' (first | with_reducible assumption | ((with_reducible refine Covers.of hw ?_) <;> rfl) | with_reducible apply parts_ite | with_reducible apply parts_ite_snd | split | with_reducible apply parts_mk | ((with_reducible refine Or.inl (Covers.has hw _ ?_)) <;> rfl) | with_reducible exact Or.inr rfl | with_reducible exact Or.inr ⟨rfl, rfl⟩ | with_reducible exact Or.inr ⟨rfl, rfl, rfl⟩ | with_reducible exact Or.inr ⟨rfl, rfl, rfl, rfl⟩ | with_reducible exact Or.inr ⟨rfl, rfl, rfl, rfl, rfl⟩ | (intro _ _ _; dsimp only) | (intro _ _ _))

theorem parts_loadWord {w : Part → Bool} {s0 s : State} {a1 a2} (h : Fixes w s0 s) (hw : Covers [.free, .lanes] w) : Fixes w s0 (loadWord s a1 a2).2 := by
  unfold loadWord
  try dsimp only
  repeat' (first | with_reducible assumption | with_reducible apply parts_drawUpTo | with_reducible apply parts_setLane | ((with_reducible refine Covers.of hw ?_) <;> rfl) | with_reducible apply parts_ite | with_reducible apply parts_ite_snd | split | with_reducible apply parts_mk | ((with_reducible refine Or.inl (Covers.has hw _ ?_)) <;> rfl) | with_reducible exact Or.inr rfl | with_reducible exact Or.inr ⟨rfl, rfl⟩ | with_reducible exact Or.inr ⟨rfl, rfl, rfl⟩ | with_reducible exact Or.inr ⟨rfl, rfl, rfl, rfl⟩ | with_reducible exact Or.inr ⟨rfl, rfl, rfl, rfl, rfl⟩ | (intro _ _ _; dsimp only) | (intro _ _ _))

theorem parts_storeWord {w : Part → Bool} {s0 s : State} {a1 a2 a3} (h : Fixes w s0 s) (hw : Covers [.free, .force, .lanes, .mem, .sage] w) : Fixes w s0 (storeWord s a1 a2 a3) := by
  unfold storeWord
  try dsimp only
  repeat' (first | with_reducible assumption | with_reducible apply parts_drawUpTo | with_reducible apply parts_bump | with_reducible apply parts_putLaneWord | with_reducible apply parts_setLane | ((with_reducible refine Covers.of hw ?_) <;> rfl) | with_reducible apply parts_ite | with_reducible apply parts_ite_snd | split | with_reducible apply parts_mk | ((with_reducible refine Or.inl (Covers.has hw _ ?_)) <;> rfl) | with_reducible exact Or.inr rfl | with_reducible exact Or.inr ⟨rfl, rfl⟩ | with_reducible exact Or.inr ⟨rfl, rfl, rfl⟩ | with_reducible exact Or.inr ⟨rfl, rfl, rfl, rfl⟩ | with_reducible exact Or.inr ⟨rfl, rfl, rfl, rfl, rfl⟩ | (intro _ _ _; dsimp only) | (intro _ _ _))

theorem parts_closeBundle {w : Part → Bool} {s0 s : State} {a1 a2} (h : Fixes w s0 s) (hw : Covers [.free, .force, .lanes, .mem, .sage] w) : Fixes w s0 (closeBundle s a1 a2) := by
  unfold closeBundle
  try dsimp only
  repeat' (first | with_reducible assumption | with_reducible apply parts_storeWord | with_reducible apply parts_setLane | with_reducible apply parts_foldl | with_reducible apply parts_foldl_fst | with_reducible apply parts_foldl_snd | ((with_reducible refine Covers.of hw ?_) <;> rfl) | with_reducible apply parts_ite | with_reducible apply parts_ite_snd | split | with_reducible apply parts_mk | ((with_reducible refine Or.inl (Covers.has hw _ ?_)) <;> rfl) | with_reducible exact Or.inr rfl | with_reducible exact Or.inr ⟨rfl, rfl⟩ | with_reducible exact Or.inr ⟨rfl, rfl, rfl⟩ | with_reducible exact Or.inr ⟨rfl, rfl, rfl, rfl⟩ | with_reducible exact Or.inr ⟨rfl, rfl, rfl, rfl, rfl⟩ | (intro _ _ _; dsimp only) | (intro _ _ _))

theorem parts_onLane {w : Part → Bool} {s0 s : State} {a0 a2} (h : Fixes w s0 s) (hw : Covers [.lanes] w) : FixesOut w s0 (onLane a0 s a2) := by
  unfold onLane
  try dsimp only
  repeat' (first | with_reducible assumption | with_reducible apply parts_setLane | with_reducible apply parts_next | exact parts_fault _ | ((with_reducible refine Covers.of hw ?_) <;> rfl) | with_reducible apply parts_ite | with_reducible apply parts_ite_snd | split | with_reducible apply parts_mk | ((with_reducible refine Or.inl (Covers.has hw _ ?_)) <;> rfl) | with_reducible exact Or.inr rfl | with_reducible exact Or.inr ⟨rfl, rfl⟩ | with_reducible exact Or.inr ⟨rfl, rfl, rfl⟩ | with_reducible exact Or.inr ⟨rfl, rfl, rfl, rfl⟩ | with_reducible exact Or.inr ⟨rfl, rfl, rfl, rfl, rfl⟩ | (intro _ _ _; dsimp only) | (intro _ _ _))

theorem parts_execMac {w : Part → Bool} {s0 s : State} {a0 a1 a2 a3 a4} (h : Fixes w s0 s) (hw : Covers [.lanes] w) : FixesOut w s0 (execMac a0 a1 a2 a3 a4 s) := by
  unfold execMac
  try dsimp only
  repeat' (first | with_reducible assumption | with_reducible apply parts_onLane | with_reducible apply parts_next | exact parts_fault _ | ((with_reducible refine Covers.of hw ?_) <;> rfl) | with_reducible apply parts_ite | with_reducible apply parts_ite_snd | split | with_reducible apply parts_mk | ((with_reducible refine Or.inl (Covers.has hw _ ?_)) <;> rfl) | with_reducible exact Or.inr rfl | with_reducible exact Or.inr ⟨rfl, rfl⟩ | with_reducible exact Or.inr ⟨rfl, rfl, rfl⟩ | with_reducible exact Or.inr ⟨rfl, rfl, rfl, rfl⟩ | with_reducible exact Or.inr ⟨rfl, rfl, rfl, rfl, rfl⟩ | (intro _ _ _; dsimp only) | (intro _ _ _))

theorem parts_execMsu {w : Part → Bool} {s0 s : State} {a0 a1 a2 a3 a4} (h : Fixes w s0 s) (hw : Covers [.lanes] w) : FixesOut w s0 (execMsu a0 a1 a2 a3 a4 s) := by
  unfold execMsu
  try dsimp only
  repeat' (first | with_reducible assumption | with_reducible apply parts_onLane | with_reducible apply parts_next | exact parts_fault _ | ((with_reducible refine Covers.of hw ?_) <;> rfl) | with_reducible apply parts_ite | with_reducible apply parts_ite_snd | split | with_reducible apply parts_mk | ((with_reducible refine Or.inl (Covers.has hw _ ?_)) <;> rfl) | with_reducible exact Or.inr rfl | with_reducible exact Or.inr ⟨rfl, rfl⟩ | with_reducible exact Or.inr ⟨rfl, rfl, rfl⟩ | with_reducible exact Or.inr ⟨rfl, rfl, rfl, rfl⟩ | with_reducible exact Or.inr ⟨rfl, rfl, rfl, rfl, rfl⟩ | (intro _ _ _; dsimp only) | (intro _ _ _))

theorem parts_execMpy {w : Part → Bool} {s0 s : State} {a0 a1 a2 a3 a4} (h : Fixes w s0 s) (hw : Covers [.lanes] w) : FixesOut w s0 (execMpy a0 a1 a2 a3 a4 s) := by
  unfold execMpy
  try dsimp only
  repeat' (first | with_reducible assumption | with_reducible apply parts_onLane | with_reducible apply parts_next | exact parts_fault _ | ((with_reducible refine Covers.of hw ?_) <;> rfl) | with_reducible apply parts_ite | with_reducible apply parts_ite_snd | split | with_reducible apply parts_mk | ((with_reducible refine Or.inl (Covers.has hw _ ?_)) <;> rfl) | with_reducible exact Or.inr rfl | with_reducible exact Or.inr ⟨rfl, rfl⟩ | with_reducible exact Or.inr ⟨rfl, rfl, rfl⟩ | with_reducible exact Or.inr ⟨rfl, rfl, rfl, rfl⟩ | with_reducible exact Or.inr ⟨rfl, rfl, rfl, rfl, rfl⟩ | (intro _ _ _; dsimp only) | (intro _ _ _))

theorem parts_execExt {w : Part → Bool} {s0 s : State} {a0 a1 a2 a3 a4 a5} (h : Fixes w s0 s) (hw : Covers [.lanes] w) : FixesOut w s0 (execExt a0 a1 a2 a3 a4 a5 s) := by
  unfold execExt
  try dsimp only
  repeat' (first | with_reducible assumption | with_reducible apply parts_onLane | with_reducible apply parts_next | exact parts_fault _ | ((with_reducible refine Covers.of hw ?_) <;> rfl) | with_reducible apply parts_ite | with_reducible apply parts_ite_snd | split | with_reducible apply parts_mk | ((with_reducible refine Or.inl (Covers.has hw _ ?_)) <;> rfl) | with_reducible exact Or.inr rfl | with_reducible exact Or.inr ⟨rfl, rfl⟩ | with_reducible exact Or.inr ⟨rfl, rfl, rfl⟩ | with_reducible exact Or.inr ⟨rfl, rfl, rfl, rfl⟩ | with_reducible exact Or.inr ⟨rfl, rfl, rfl, rfl, rfl⟩ | (intro _ _ _; dsimp only) | (intro _ _ _))

theorem parts_execAcc {w : Part → Bool} {s0 s : State} {a0 a1 a2 a3} (h : Fixes w s0 s) (hw : Covers [.lanes] w) : FixesOut w s0 (execAcc a0 a1 a2 a3 s) := by
  unfold execAcc
  try dsimp only
  repeat' (first | with_reducible assumption | with_reducible apply parts_onLane | with_reducible apply parts_next | exact parts_fault _ | ((with_reducible refine Covers.of hw ?_) <;> rfl) | with_reducible apply parts_ite | with_reducible apply parts_ite_snd | split | with_reducible apply parts_mk | ((with_reducible refine Or.inl (Covers.has hw _ ?_)) <;> rfl) | with_reducible exact Or.inr rfl | with_reducible exact Or.inr ⟨rfl, rfl⟩ | with_reducible exact Or.inr ⟨rfl, rfl, rfl⟩ | with_reducible exact Or.inr ⟨rfl, rfl, rfl, rfl⟩ | with_reducible exact Or.inr ⟨rfl, rfl, rfl, rfl, rfl⟩ | (intro _ _ _; dsimp only) | (intro _ _ _))

theorem parts_execAdda {w : Part → Bool} {s0 s : State} {a0 a1 a2} (h : Fixes w s0 s) (hw : Covers [.lanes] w) : FixesOut w s0 (execAdda a0 a1 a2 s) := by
  unfold execAdda
  try dsimp only
  repeat' (first | with_reducible assumption | with_reducible apply parts_onLane | with_reducible apply parts_next | exact parts_fault _ | ((with_reducible refine Covers.of hw ?_) <;> rfl) | with_reducible apply parts_ite | with_reducible apply parts_ite_snd | split | with_reducible apply parts_mk | ((with_reducible refine Or.inl (Covers.has hw _ ?_)) <;> rfl) | with_reducible exact Or.inr rfl | with_reducible exact Or.inr ⟨rfl, rfl⟩ | with_reducible exact Or.inr ⟨rfl, rfl, rfl⟩ | with_reducible exact Or.inr ⟨rfl, rfl, rfl, rfl⟩ | with_reducible exact Or.inr ⟨rfl, rfl, rfl, rfl, rfl⟩ | (intro _ _ _; dsimp only) | (intro _ _ _))

theorem parts_execSuba {w : Part → Bool} {s0 s : State} {a0 a1 a2} (h : Fixes w s0 s) (hw : Covers [.lanes] w) : FixesOut w s0 (execSuba a0 a1 a2 s) := by
  unfold execSuba
  try dsimp only
  repeat' (first | with_reducible assumption | with_reducible apply parts_onLane | with_reducible apply parts_next | exact parts_fault _ | ((with_reducible refine Covers.of hw ?_) <;> rfl) | with_reducible apply parts_ite | with_reducible apply parts_ite_snd | split | with_reducible apply parts_mk | ((with_reducible refine Or.inl (Covers.has hw _ ?_)) <;> rfl) | with_reducible exact Or.inr rfl | with_reducible exact Or.inr ⟨rfl, rfl⟩ | with_reducible exact Or.inr ⟨rfl, rfl, rfl⟩ | with_reducible exact Or.inr ⟨rfl, rfl, rfl, rfl⟩ | with_reducible exact Or.inr ⟨rfl, rfl, rfl, rfl, rfl⟩ | (intro _ _ _; dsimp only) | (intro _ _ _))

theorem parts_execSha {w : Part → Bool} {s0 s : State} {a0 a1 a2} (h : Fixes w s0 s) (hw : Covers [.lanes] w) : FixesOut w s0 (execSha a0 a1 a2 s) := by
  unfold execSha
  try dsimp only
  repeat' (first | with_reducible assumption | with_reducible apply parts_onLane | with_reducible apply parts_next | exact parts_fault _ | ((with_reducible refine Covers.of hw ?_) <;> rfl) | with_reducible apply parts_ite | with_reducible apply parts_ite_snd | split | with_reducible apply parts_mk | ((with_reducible refine Or.inl (Covers.has hw _ ?_)) <;> rfl) | with_reducible exact Or.inr rfl | with_reducible exact Or.inr ⟨rfl, rfl⟩ | with_reducible exact Or.inr ⟨rfl, rfl, rfl⟩ | with_reducible exact Or.inr ⟨rfl, rfl, rfl, rfl⟩ | with_reducible exact Or.inr ⟨rfl, rfl, rfl, rfl, rfl⟩ | (intro _ _ _; dsimp only) | (intro _ _ _))

theorem parts_execClr {w : Part → Bool} {s0 s : State} {a0 a1} (h : Fixes w s0 s) (hw : Covers [.lanes] w) : FixesOut w s0 (execClr a0 a1 s) := by
  unfold execClr
  try dsimp only
  repeat' (first | with_reducible assumption | with_reducible apply parts_onLane | with_reducible apply parts_next | exact parts_fault _ | ((with_reducible refine Covers.of hw ?_) <;> rfl) | with_reducible apply parts_ite | with_reducible apply parts_ite_snd | split | with_reducible apply parts_mk | ((with_reducible refine Or.inl (Covers.has hw _ ?_)) <;> rfl) | with_reducible exact Or.inr rfl | with_reducible exact Or.inr ⟨rfl, rfl⟩ | with_reducible exact Or.inr ⟨rfl, rfl, rfl⟩ | with_reducible exact Or.inr ⟨rfl, rfl, rfl, rfl⟩ | with_reducible exact Or.inr ⟨rfl, rfl, rfl, rfl, rfl⟩ | (intro _ _ _; dsimp only) | (intro _ _ _))

theorem parts_execAdd {w : Part → Bool} {s0 s : State} {a0 a1 a2 a3} (h : Fixes w s0 s) (hw : Covers [.lanes] w) : FixesOut w s0 (execAdd a0 a1 a2 a3 s) := by
  unfold execAdd
  try dsimp only
  repeat' (first | with_reducible assumption | with_reducible apply parts_onLane | with_reducible apply parts_next | exact parts_fault _ | ((with_reducible refine Covers.of hw ?_) <;> rfl) | with_reducible apply parts_ite | with_reducible apply parts_ite_snd | split | with_reducible apply parts_mk | ((with_reducible refine Or.inl (Covers.has hw _ ?_)) <;> rfl) | with_reducible exact Or.inr rfl | with_reducible exact Or.inr ⟨rfl, rfl⟩ | with_reducible exact Or.inr ⟨rfl, rfl, rfl⟩ | with_reducible exact Or.inr ⟨rfl, rfl, rfl, rfl⟩ | with_reducible exact Or.inr ⟨rfl, rfl, rfl, rfl, rfl⟩ | (intro _ _ _; dsimp only) | (intro _ _ _))

theorem parts_execSub {w : Part → Bool} {s0 s : State} {a0 a1 a2 a3} (h : Fixes w s0 s) (hw : Covers [.lanes] w) : FixesOut w s0 (execSub a0 a1 a2 a3 s) := by
  unfold execSub
  try dsimp only
  repeat' (first | with_reducible assumption | with_reducible apply parts_onLane | with_reducible apply parts_next | exact parts_fault _ | ((with_reducible refine Covers.of hw ?_) <;> rfl) | with_reducible apply parts_ite | with_reducible apply parts_ite_snd | split | with_reducible apply parts_mk | ((with_reducible refine Or.inl (Covers.has hw _ ?_)) <;> rfl) | with_reducible exact Or.inr rfl | with_reducible exact Or.inr ⟨rfl, rfl⟩ | with_reducible exact Or.inr ⟨rfl, rfl, rfl⟩ | with_reducible exact Or.inr ⟨rfl, rfl, rfl, rfl⟩ | with_reducible exact Or.inr ⟨rfl, rfl, rfl, rfl, rfl⟩ | (intro _ _ _; dsimp only) | (intro _ _ _))

theorem parts_execAsr {w : Part → Bool} {s0 s : State} {a0 a1 a2 a3} (h : Fixes w s0 s) (hw : Covers [.lanes] w) : FixesOut w s0 (execAsr a0 a1 a2 a3 s) := by
  unfold execAsr
  try dsimp only
  repeat' (first | with_reducible assumption | with_reducible apply parts_onLane | with_reducible apply parts_next | exact parts_fault _ | ((with_reducible refine Covers.of hw ?_) <;> rfl) | with_reducible apply parts_ite | with_reducible apply parts_ite_snd | split | with_reducible apply parts_mk | ((with_reducible refine Or.inl (Covers.has hw _ ?_)) <;> rfl) | with_reducible exact Or.inr rfl | with_reducible exact Or.inr ⟨rfl, rfl⟩ | with_reducible exact Or.inr ⟨rfl, rfl, rfl⟩ | with_reducible exact Or.inr ⟨rfl, rfl, rfl, rfl⟩ | with_reducible exact Or.inr ⟨rfl, rfl, rfl, rfl, rfl⟩ | (intro _ _ _; dsimp only) | (intro _ _ _))

theorem parts_execAsl {w : Part → Bool} {s0 s : State} {a0 a1 a2 a3} (h : Fixes w s0 s) (hw : Covers [.lanes] w) : FixesOut w s0 (execAsl a0 a1 a2 a3 s) := by
  unfold execAsl
  try dsimp only
  repeat' (first | with_reducible assumption | with_reducible apply parts_onLane | with_reducible apply parts_next | exact parts_fault _ | ((with_reducible refine Covers.of hw ?_) <;> rfl) | with_reducible apply parts_ite | with_reducible apply parts_ite_snd | split | with_reducible apply parts_mk | ((with_reducible refine Or.inl (Covers.has hw _ ?_)) <;> rfl) | with_reducible exact Or.inr rfl | with_reducible exact Or.inr ⟨rfl, rfl⟩ | with_reducible exact Or.inr ⟨rfl, rfl, rfl⟩ | with_reducible exact Or.inr ⟨rfl, rfl, rfl, rfl⟩ | with_reducible exact Or.inr ⟨rfl, rfl, rfl, rfl, rfl⟩ | (intro _ _ _; dsimp only) | (intro _ _ _))

theorem parts_execAbs {w : Part → Bool} {s0 s : State} {a0 a1 a2} (h : Fixes w s0 s) (hw : Covers [.lanes] w) : FixesOut w s0 (execAbs a0 a1 a2 s) := by
  unfold execAbs
  try dsimp only
  repeat' (first | with_reducible assumption | with_reducible apply parts_onLane | with_reducible apply parts_next | exact parts_fault _ | ((with_reducible refine Covers.of hw ?_) <;> rfl) | with_reducible apply parts_ite | with_reducible apply parts_ite_snd | split | with_reducible apply parts_mk | ((with_reducible refine Or.inl (Covers.has hw _ ?_)) <;> rfl) | with_reducible exact Or.inr rfl | with_reducible exact Or.inr ⟨rfl, rfl⟩ | with_reducible exact Or.inr ⟨rfl, rfl, rfl⟩ | with_reducible exact Or.inr ⟨rfl, rfl, rfl, rfl⟩ | with_reducible exact Or.inr ⟨rfl, rfl, rfl, rfl, rfl⟩ | (intro _ _ _; dsimp only) | (intro _ _ _))

theorem parts_execNeg {w : Part → Bool} {s0 s : State} {a0 a1 a2} (h : Fixes w s0 s) (hw : Covers [.lanes] w) : FixesOut w s0 (execNeg a0 a1 a2 s) := by
  unfold execNeg
  try dsimp only
  repeat' (first | with_reducible assumption | with_reducible apply parts_onLane | with_reducible apply parts_next | exact parts_fault _ | ((with_reducible refine Covers.of hw ?_) <;> rfl) | with_reducible apply parts_ite | with_reducible apply parts_ite_snd | split | with_reducible apply parts_mk | ((with_reducible refine Or.inl (Covers.has hw _ ?_)) <;> rfl) | with_reducible exact Or.inr rfl | with_reducible exact Or.inr ⟨rfl, rfl⟩ | with_reducible exact Or.inr ⟨rfl, rfl, rfl⟩ | with_reducible exact Or.inr ⟨rfl, rfl, rfl, rfl⟩ | with_reducible exact Or.inr ⟨rfl, rfl, rfl, rfl, rfl⟩ | (intro _ _ _; dsimp only) | (intro _ _ _))

theorem parts_execMov {w : Part → Bool} {s0 s : State} {a0 a1 a2} (h : Fixes w s0 s) (hw : Covers [.lanes] w) : FixesOut w s0 (execMov a0 a1 a2 s) := by
  unfold execMov
  try dsimp only
  repeat' (first | with_reducible assumption | with_reducible apply parts_onLane | with_reducible apply parts_next | exact parts_fault _ | ((with_reducible refine Covers.of hw ?_) <;> rfl) | with_reducible apply parts_ite | with_reducible apply parts_ite_snd | split | with_reducible apply parts_mk | ((with_reducible refine Or.inl (Covers.has hw _ ?_)) <;> rfl) | with_reducible exact Or.inr rfl | with_reducible exact Or.inr ⟨rfl, rfl⟩ | with_reducible exact Or.inr ⟨rfl, rfl, rfl⟩ | with_reducible exact Or.inr ⟨rfl, rfl, rfl, rfl⟩ | with_reducible exact Or.inr ⟨rfl, rfl, rfl, rfl, rfl⟩ | (intro _ _ _; dsimp only) | (intro _ _ _))

theorem parts_execMvi {w : Part → Bool} {s0 s : State} {a0 a1 a2} (h : Fixes w s0 s) (hw : Covers [.lanes] w) : FixesOut w s0 (execMvi a0 a1 a2 s) := by
  unfold execMvi
  try dsimp only
  repeat' (first | with_reducible assumption | with_reducible apply parts_onLane | with_reducible apply parts_next | exact parts_fault _ | ((with_reducible refine Covers.of hw ?_) <;> rfl) | with_reducible apply parts_ite | with_reducible apply parts_ite_snd | split | with_reducible apply parts_mk | ((with_reducible refine Or.inl (Covers.has hw _ ?_)) <;> rfl) | with_reducible exact Or.inr rfl | with_reducible exact Or.inr ⟨rfl, rfl⟩ | with_reducible exact Or.inr ⟨rfl, rfl, rfl⟩ | with_reducible exact Or.inr ⟨rfl, rfl, rfl, rfl⟩ | with_reducible exact Or.inr ⟨rfl, rfl, rfl, rfl, rfl⟩ | (intro _ _ _; dsimp only) | (intro _ _ _))

theorem parts_execAnd {w : Part → Bool} {s0 s : State} {a0 a1 a2 a3} (h : Fixes w s0 s) (hw : Covers [.lanes] w) : FixesOut w s0 (execAnd a0 a1 a2 a3 s) := by
  unfold execAnd
  try dsimp only
  repeat' (first | with_reducible assumption | with_reducible apply parts_onLane | with_reducible apply parts_next | exact parts_fault _ | ((with_reducible refine Covers.of hw ?_) <;> rfl) | with_reducible apply parts_ite | with_reducible apply parts_ite_snd | split | with_reducible apply parts_mk | ((with_reducible refine Or.inl (Covers.has hw _ ?_)) <;> rfl) | with_reducible exact Or.inr rfl | with_reducible exact Or.inr ⟨rfl, rfl⟩ | with_reducible exact Or.inr ⟨rfl, rfl, rfl⟩ | with_reducible exact Or.inr ⟨rfl, rfl, rfl, rfl⟩ | with_reducible exact Or.inr ⟨rfl, rfl, rfl, rfl, rfl⟩ | (intro _ _ _; dsimp only) | (intro _ _ _))

theorem parts_execOr {w : Part → Bool} {s0 s : State} {a0 a1 a2 a3} (h : Fixes w s0 s) (hw : Covers [.lanes] w) : FixesOut w s0 (execOr a0 a1 a2 a3 s) := by
  unfold execOr
  try dsimp only
  repeat' (first | with_reducible assumption | with_reducible apply parts_onLane | with_reducible apply parts_next | exact parts_fault _ | ((with_reducible refine Covers.of hw ?_) <;> rfl) | with_reducible apply parts_ite | with_reducible apply parts_ite_snd | split | with_reducible apply parts_mk | ((with_reducible refine Or.inl (Covers.has hw _ ?_)) <;> rfl) | with_reducible exact Or.inr rfl | with_reducible exact Or.inr ⟨rfl, rfl⟩ | with_reducible exact Or.inr ⟨rfl, rfl, rfl⟩ | with_reducible exact Or.inr ⟨rfl, rfl, rfl, rfl⟩ | with_reducible exact Or.inr ⟨rfl, rfl, rfl, rfl, rfl⟩ | (intro _ _ _; dsimp only) | (intro _ _ _))

theorem parts_execXor {w : Part → Bool} {s0 s : State} {a0 a1 a2 a3} (h : Fixes w s0 s) (hw : Covers [.lanes] w) : FixesOut w s0 (execXor a0 a1 a2 a3 s) := by
  unfold execXor
  try dsimp only
  repeat' (first | with_reducible assumption | with_reducible apply parts_onLane | with_reducible apply parts_next | exact parts_fault _ | ((with_reducible refine Covers.of hw ?_) <;> rfl) | with_reducible apply parts_ite | with_reducible apply parts_ite_snd | split | with_reducible apply parts_mk | ((with_reducible refine Or.inl (Covers.has hw _ ?_)) <;> rfl) | with_reducible exact Or.inr rfl | with_reducible exact Or.inr ⟨rfl, rfl⟩ | with_reducible exact Or.inr ⟨rfl, rfl, rfl⟩ | with_reducible exact Or.inr ⟨rfl, rfl, rfl, rfl⟩ | with_reducible exact Or.inr ⟨rfl, rfl, rfl, rfl, rfl⟩ | (intro _ _ _; dsimp only) | (intro _ _ _))

theorem parts_execMvs {w : Part → Bool} {s0 s : State} {a0 a1 a2} (h : Fixes w s0 s) (hw : Covers [.lanes] w) : FixesOut w s0 (execMvs a0 a1 a2 s) := by
  unfold execMvs
  try dsimp only
  repeat' (first | with_reducible assumption | with_reducible apply parts_onLane | with_reducible apply parts_next | exact parts_fault _ | ((with_reducible refine Covers.of hw ?_) <;> rfl) | with_reducible apply parts_ite | with_reducible apply parts_ite_snd | split | with_reducible apply parts_mk | ((with_reducible refine Or.inl (Covers.has hw _ ?_)) <;> rfl) | with_reducible exact Or.inr rfl | with_reducible exact Or.inr ⟨rfl, rfl⟩ | with_reducible exact Or.inr ⟨rfl, rfl, rfl⟩ | with_reducible exact Or.inr ⟨rfl, rfl, rfl, rfl⟩ | with_reducible exact Or.inr ⟨rfl, rfl, rfl, rfl, rfl⟩ | (intro _ _ _; dsimp only) | (intro _ _ _))

theorem parts_execMvr {w : Part → Bool} {s0 s : State} {a0 a1 a2} (h : Fixes w s0 s) (hw : Covers [.lanes] w) : FixesOut w s0 (execMvr a0 a1 a2 s) := by
  unfold execMvr
  try dsimp only
  repeat' (first | with_reducible assumption | with_reducible apply parts_onLane | with_reducible apply parts_next | exact parts_fault _ | ((with_reducible refine Covers.of hw ?_) <;> rfl) | with_reducible apply parts_ite | with_reducible apply parts_ite_snd | split | with_reducible apply parts_mk | ((with_reducible refine Or.inl (Covers.has hw _ ?_)) <;> rfl) | with_reducible exact Or.inr rfl | with_reducible exact Or.inr ⟨rfl, rfl⟩ | with_reducible exact Or.inr ⟨rfl, rfl, rfl⟩ | with_reducible exact Or.inr ⟨rfl, rfl, rfl, rfl⟩ | with_reducible exact Or.inr ⟨rfl, rfl, rfl, rfl, rfl⟩ | (intro _ _ _; dsimp only) | (intro _ _ _))

theorem parts_execMax {w : Part → Bool} {s0 s : State} {a0 a1} (h : Fixes w s0 s) (hw : Covers [.lanes] w) : FixesOut w s0 (execMax a0 a1 s) := by
  unfold execMax
  try dsimp only
  repeat' (first | with_reducible assumption | with_reducible apply parts_onLane | with_reducible apply parts_next | exact parts_fault _ | ((with_reducible refine Covers.of hw ?_) <;> rfl) | with_reducible apply parts_ite | with_reducible apply parts_ite_snd | split | with_reducible apply parts_mk | ((with_reducible refine Or.inl (Covers.has hw _ ?_)) <;> rfl) | with_reducible exact Or.inr rfl | with_reducible exact Or.inr ⟨rfl, rfl⟩ | with_reducible exact Or.inr ⟨rfl, rfl, rfl⟩ | with_reducible exact Or.inr ⟨rfl, rfl, rfl, rfl⟩ | with_reducible exact Or.inr ⟨rfl, rfl, rfl, rfl, rfl⟩ | (intro _ _ _; dsimp only) | (intro _ _ _))

theorem parts_execMin {w : Part → Bool} {s0 s : State} {a0 a1} (h : Fixes w s0 s) (hw : Covers [.lanes] w) : FixesOut w s0 (execMin a0 a1 s) := by
  unfold execMin
  try dsimp only
  repeat' (first | with_reducible assumption | with_reducible apply parts_onLane | with_reducible apply parts_next | exact parts_fault _ | ((with_reducible refine Covers.of hw ?_) <;> rfl) | with_reducible apply parts_ite | with_reducible apply parts_ite_snd | split | with_reducible apply parts_mk | ((with_reducible refine Or.inl (Covers.has hw _ ?_)) <;> rfl) | with_reducible exact Or.inr rfl | with_reducible exact Or.inr ⟨rfl, rfl⟩ | with_reducible exact Or.inr ⟨rfl, rfl, rfl⟩ | with_reducible exact Or.inr ⟨rfl, rfl, rfl, rfl⟩ | with_reducible exact Or.inr ⟨rfl, rfl, rfl, rfl, rfl⟩ | (intro _ _ _; dsimp only) | (intro _ _ _))

theorem parts_execMxclr {w : Part → Bool} {s0 s : State} {a0 a1} (h : Fixes w s0 s) (hw : Covers [.lanes] w) : FixesOut w s0 (execMxclr a0 a1 s) := by
  unfold execMxclr
  try dsimp only
  repeat' (first | with_reducible assumption | with_reducible apply parts_onLane | with_reducible apply parts_next | exact parts_fault _ | ((with_reducible refine Covers.of hw ?_) <;> rfl) | with_reducible apply parts_ite | with_reducible apply parts_ite_snd | split | with_reducible apply parts_mk | ((with_reducible refine Or.inl (Covers.has hw _ ?_)) <;> rfl) | with_reducible exact Or.inr rfl | with_reducible exact Or.inr ⟨rfl, rfl⟩ | with_reducible exact Or.inr ⟨rfl, rfl, rfl⟩ | with_reducible exact Or.inr ⟨rfl, rfl, rfl, rfl⟩ | with_reducible exact Or.inr ⟨rfl, rfl, rfl, rfl, rfl⟩ | (intro _ _ _; dsimp only) | (intro _ _ _))

theorem parts_addressError {w : Part → Bool} {s0 s : State} {a1 a2} (h : Fixes w s0 s) (hw : Covers [.force, .sess] w) : Fixes w s0 (addressError s a1 a2) := by
  unfold addressError
  try dsimp only
  repeat' (first | with_reducible assumption | with_reducible apply parts_bump | with_reducible apply parts_raise | ((with_reducible refine Covers.of hw ?_) <;> rfl) | with_reducible apply parts_ite | with_reducible apply parts_ite_snd | split | with_reducible apply parts_mk | ((with_reducible refine Or.inl (Covers.has hw _ ?_)) <;> rfl) | with_reducible exact Or.inr rfl | with_reducible exact Or.inr ⟨rfl, rfl⟩ | with_reducible exact Or.inr ⟨rfl, rfl, rfl⟩ | with_reducible exact Or.inr ⟨rfl, rfl, rfl, rfl⟩ | with_reducible exact Or.inr ⟨rfl, rfl, rfl, rfl, rfl⟩ | (intro _ _ _; dsimp only) | (intro _ _ _))

theorem parts_execLd {w : Part → Bool} {s0 s : State} {a0 a1 a2 a3 a4} (h : Fixes w s0 s) (hw : Covers [.free, .force, .sess, .lanes] w) : FixesOut w s0 (execLd a0 a1 a2 a3 a4 s) := by
  unfold execLd
  try dsimp only
  repeat' (first | with_reducible assumption | with_reducible apply parts_addressError | with_reducible apply parts_loadWord | with_reducible apply parts_setLane | with_reducible apply parts_next | exact parts_fault _ | ((with_reducible refine Covers.of hw ?_) <;> rfl) | with_reducible apply parts_ite | with_reducible apply parts_ite_snd | split | with_reducible apply parts_mk | ((with_reducible refine Or.inl (Covers.has hw _ ?_)) <;> rfl) | with_reducible exact Or.inr rfl | with_reducible exact Or.inr ⟨rfl, rfl⟩ | with_reducible exact Or.inr ⟨rfl, rfl, rfl⟩ | with_reducible exact Or.inr ⟨rfl, rfl, rfl, rfl⟩ | with_reducible exact Or.inr ⟨rfl, rfl, rfl, rfl, rfl⟩ | (intro _ _ _; dsimp only) | (intro _ _ _))

theorem parts_execSt {w : Part → Bool} {s0 s : State} {a0 a1 a2 a3} (h : Fixes w s0 s) (hw : Covers [.force, .sess, .lanes] w) : FixesOut w s0 (execSt a0 a1 a2 a3 s) := by
  unfold execSt
  try dsimp only
  repeat' (first | with_reducible assumption | with_reducible apply parts_addressError | with_reducible apply parts_setLane | with_reducible apply parts_next | exact parts_fault _ | ((with_reducible refine Covers.of hw ?_) <;> rfl) | with_reducible apply parts_ite | with_reducible apply parts_ite_snd | split | with_reducible apply parts_mk | ((with_reducible refine Or.inl (Covers.has hw _ ?_)) <;> rfl) | with_reducible exact Or.inr rfl | with_reducible exact Or.inr ⟨rfl, rfl⟩ | with_reducible exact Or.inr ⟨rfl, rfl, rfl⟩ | with_reducible exact Or.inr ⟨rfl, rfl, rfl, rfl⟩ | with_reducible exact Or.inr ⟨rfl, rfl, rfl, rfl, rfl⟩ | (intro _ _ _; dsimp only) | (intro _ _ _))

theorem parts_execXmod {w : Part → Bool} {s0 s : State} {a0 a1 a2 a3} (h : Fixes w s0 s) (hw : Covers [.lanes] w) : FixesOut w s0 (execXmod a0 a1 a2 a3 s) := by
  unfold execXmod
  try dsimp only
  repeat' (first | with_reducible assumption | with_reducible apply parts_onLane | with_reducible apply parts_next | exact parts_fault _ | ((with_reducible refine Covers.of hw ?_) <;> rfl) | with_reducible apply parts_ite | with_reducible apply parts_ite_snd | split | with_reducible apply parts_mk | ((with_reducible refine Or.inl (Covers.has hw _ ?_)) <;> rfl) | with_reducible exact Or.inr rfl | with_reducible exact Or.inr ⟨rfl, rfl⟩ | with_reducible exact Or.inr ⟨rfl, rfl, rfl⟩ | with_reducible exact Or.inr ⟨rfl, rfl, rfl, rfl⟩ | with_reducible exact Or.inr ⟨rfl, rfl, rfl, rfl, rfl⟩ | (intro _ _ _; dsimp only) | (intro _ _ _))

theorem parts_closeWith {w : Part → Bool} {s0 s : State} {a0 a1 a3} (h : Fixes w s0 s) (hw : Covers [.free, .force, .lanes, .mem, .sage] w) : FixesOut w s0 (closeWith a0 a1 s a3) := by
  unfold closeWith
  try dsimp only
  repeat' (first | with_reducible assumption | with_reducible apply parts_closeBundle | with_reducible apply parts_setLane | with_reducible apply parts_next | exact parts_fault _ | ((with_reducible refine Covers.of hw ?_) <;> rfl) | with_reducible apply parts_ite | with_reducible apply parts_ite_snd | split | with_reducible apply parts_mk | ((with_reducible refine Or.inl (Covers.has hw _ ?_)) <;> rfl) | with_reducible exact Or.inr rfl | with_reducible exact Or.inr ⟨rfl, rfl⟩ | with_reducible exact Or.inr ⟨rfl, rfl, rfl⟩ | with_reducible exact Or.inr ⟨rfl, rfl, rfl, rfl⟩ | with_reducible exact Or.inr ⟨rfl, rfl, rfl, rfl, rfl⟩ | (intro _ _ _; dsimp only) | (intro _ _ _))

theorem parts_execNopBundle {w : Part → Bool} {s0 s : State} {a0} (h : Fixes w s0 s) (hw : Covers [.free, .force, .lanes, .mem, .sage] w) : FixesOut w s0 (execNopBundle a0 s) := by
  unfold execNopBundle
  try dsimp only
  repeat' (first | with_reducible assumption | with_reducible apply parts_closeWith | with_reducible apply parts_next | exact parts_fault _ | ((with_reducible refine Covers.of hw ?_) <;> rfl) | with_reducible apply parts_ite | with_reducible apply parts_ite_snd | split | with_reducible apply parts_mk | ((with_reducible refine Or.inl (Covers.has hw _ ?_)) <;> rfl) | with_reducible exact Or.inr rfl | with_reducible exact Or.inr ⟨rfl, rfl⟩ | with_reducible exact Or.inr ⟨rfl, rfl, rfl⟩ | with_reducible exact Or.inr ⟨rfl, rfl, rfl, rfl⟩ | with_reducible exact Or.inr ⟨rfl, rfl, rfl, rfl, rfl⟩ | (intro _ _ _; dsimp only) | (intro _ _ _))

theorem parts_execLset {w : Part → Bool} {s0 s : State} {a0 a1 a2} (h : Fixes w s0 s) (hw : Covers [.free, .force, .lanes, .mem, .sage] w) : FixesOut w s0 (execLset a0 a1 a2 s) := by
  unfold execLset
  try dsimp only
  repeat' (first | with_reducible assumption | with_reducible apply parts_closeWith | with_reducible apply parts_next | exact parts_fault _ | ((with_reducible refine Covers.of hw ?_) <;> rfl) | with_reducible apply parts_ite | with_reducible apply parts_ite_snd | split | with_reducible apply parts_mk | ((with_reducible refine Or.inl (Covers.has hw _ ?_)) <;> rfl) | with_reducible exact Or.inr rfl | with_reducible exact Or.inr ⟨rfl, rfl⟩ | with_reducible exact Or.inr ⟨rfl, rfl, rfl⟩ | with_reducible exact Or.inr ⟨rfl, rfl, rfl, rfl⟩ | with_reducible exact Or.inr ⟨rfl, rfl, rfl, rfl, rfl⟩ | (intro _ _ _; dsimp only) | (intro _ _ _))

theorem parts_execLoop {w : Part → Bool} {s0 s : State} {a0 a1 a2} (h : Fixes w s0 s) (hw : Covers [.free, .force, .lanes, .mem, .sage] w) : FixesOut w s0 (execLoop a0 a1 a2 s) := by
  unfold execLoop
  try dsimp only
  repeat' (first | with_reducible assumption | with_reducible apply parts_closeWith | with_reducible apply parts_next | exact parts_fault _ | ((with_reducible refine Covers.of hw ?_) <;> rfl) | with_reducible apply parts_ite | with_reducible apply parts_ite_snd | split | with_reducible apply parts_mk | ((with_reducible refine Or.inl (Covers.has hw _ ?_)) <;> rfl) | with_reducible exact Or.inr rfl | with_reducible exact Or.inr ⟨rfl, rfl⟩ | with_reducible exact Or.inr ⟨rfl, rfl, rfl⟩ | with_reducible exact Or.inr ⟨rfl, rfl, rfl, rfl⟩ | with_reducible exact Or.inr ⟨rfl, rfl, rfl, rfl, rfl⟩ | (intro _ _ _; dsimp only) | (intro _ _ _))

theorem parts_execBld {w : Part → Bool} {s0 s : State} {a0 a1 a2} (h : Fixes w s0 s) (hw : Covers [.free, .force, .lanes, .mem, .sage] w) : FixesOut w s0 (execBld a0 a1 a2 s) := by
  unfold execBld
  try dsimp only
  repeat' (first | with_reducible assumption | with_reducible apply parts_closeWith | with_reducible apply parts_next | exact parts_fault _ | ((with_reducible refine Covers.of hw ?_) <;> rfl) | with_reducible apply parts_ite | with_reducible apply parts_ite_snd | split | with_reducible apply parts_mk | ((with_reducible refine Or.inl (Covers.has hw _ ?_)) <;> rfl) | with_reducible exact Or.inr rfl | with_reducible exact Or.inr ⟨rfl, rfl⟩ | with_reducible exact Or.inr ⟨rfl, rfl, rfl⟩ | with_reducible exact Or.inr ⟨rfl, rfl, rfl, rfl⟩ | with_reducible exact Or.inr ⟨rfl, rfl, rfl, rfl, rfl⟩ | (intro _ _ _; dsimp only) | (intro _ _ _))

end Sys2Proof.Machine
end

