-- ==== Sys2Proof/Laws/PartsPrograms.lean ====
section
/-!
SUPPORT. Laws/PartsPrograms.lean: the operations of Machine/Programs.lean change only the parts of the state named (Laws/Parts.lean).
-/
-- One declaration at a time and no linter: the package is compiled as one text under a memory limit.
set_option linter.all false
set_option Elab.async false
namespace Sys2Proof.Machine

theorem parts_setResidents {w : Part → Bool} {s0 s : State} {a1 a2} (h : Fixes w s0 s) (hw : Covers [.iram] w) : Fixes w s0 (setResidents s a1 a2) := by
  unfold setResidents
  try dsimp only
  repeat' (first | with_reducible assumption | ((with_reducible refine Covers.of hw ?_) <;> rfl) | with_reducible apply parts_ite | with_reducible apply parts_ite_snd | split | with_reducible apply parts_mk | ((with_reducible refine Or.inl (Covers.has hw _ ?_)) <;> rfl) | with_reducible exact Or.inr rfl | with_reducible exact Or.inr ⟨rfl, rfl⟩ | with_reducible exact Or.inr ⟨rfl, rfl, rfl⟩ | with_reducible exact Or.inr ⟨rfl, rfl, rfl, rfl⟩ | with_reducible exact Or.inr ⟨rfl, rfl, rfl, rfl, rfl⟩ | (intro _ _ _; dsimp only) | (intro _ _ _))

theorem parts_putBundles {w : Part → Bool} {s0 s : State} {a1 a2 a3} (h : Fixes w s0 s) (hw : Covers [.mem, .sage] w) : Fixes w s0 (putBundles s a1 a2 a3) := by
  unfold putBundles
  try dsimp only
  repeat' (first | with_reducible assumption | with_reducible apply parts_putBytes | with_reducible apply parts_foldl | with_reducible apply parts_foldl_fst | with_reducible apply parts_foldl_snd | ((with_reducible refine Covers.of hw ?_) <;> rfl) | with_reducible apply parts_ite | with_reducible apply parts_ite_snd | split | with_reducible apply parts_mk | ((with_reducible refine Or.inl (Covers.has hw _ ?_)) <;> rfl) | with_reducible exact Or.inr rfl | with_reducible exact Or.inr ⟨rfl, rfl⟩ | with_reducible exact Or.inr ⟨rfl, rfl, rfl⟩ | with_reducible exact Or.inr ⟨rfl, rfl, rfl, rfl⟩ | with_reducible exact Or.inr ⟨rfl, rfl, rfl, rfl, rfl⟩ | (intro _ _ _; dsimp only) | (intro _ _ _))

theorem parts_loadImage {w : Part → Bool} {s0 s : State} {a1 a2} (h : Fixes w s0 s) (hw : Covers [.iram, .mem, .sage] w) : Fixes w s0 (loadImage s a1 a2) := by
  unfold loadImage
  try dsimp only
  repeat' (first | with_reducible assumption | with_reducible apply parts_putBundles | with_reducible apply parts_setResidents | ((with_reducible refine Covers.of hw ?_) <;> rfl) | with_reducible apply parts_ite | with_reducible apply parts_ite_snd | split | with_reducible apply parts_mk | ((with_reducible refine Or.inl (Covers.has hw _ ?_)) <;> rfl) | with_reducible exact Or.inr rfl | with_reducible exact Or.inr ⟨rfl, rfl⟩ | with_reducible exact Or.inr ⟨rfl, rfl, rfl⟩ | with_reducible exact Or.inr ⟨rfl, rfl, rfl, rfl⟩ | with_reducible exact Or.inr ⟨rfl, rfl, rfl, rfl, rfl⟩ | (intro _ _ _; dsimp only) | (intro _ _ _))

theorem parts_freeImages {w : Part → Bool} {s0 s : State} {a1 a2} (h : Fixes w s0 s) (hw : Covers [.iram] w) : Fixes w s0 (freeImages s a1 a2) := by
  unfold freeImages
  try dsimp only
  repeat' (first | with_reducible assumption | with_reducible apply parts_setResidents | ((with_reducible refine Covers.of hw ?_) <;> rfl) | with_reducible apply parts_ite | with_reducible apply parts_ite_snd | split | with_reducible apply parts_mk | ((with_reducible refine Or.inl (Covers.has hw _ ?_)) <;> rfl) | with_reducible exact Or.inr rfl | with_reducible exact Or.inr ⟨rfl, rfl⟩ | with_reducible exact Or.inr ⟨rfl, rfl, rfl⟩ | with_reducible exact Or.inr ⟨rfl, rfl, rfl, rfl⟩ | with_reducible exact Or.inr ⟨rfl, rfl, rfl, rfl, rfl⟩ | (intro _ _ _; dsimp only) | (intro _ _ _))

theorem parts_putLaneWords {w : Part → Bool} {s0 : State} {l : List _} (hw : Covers [.mem, .sage] w) : ∀ {s : State} {a1 a2}, Fixes w s0 s → Fixes w s0 (putLaneWords s a1 a2 l) := by
  induction l with
  | nil =>
    intro s a1 a2 h
    unfold putLaneWords
    try dsimp only
    repeat' (first | with_reducible assumption | with_reducible apply parts_putLaneWord | ((with_reducible refine Covers.of hw ?_) <;> rfl) | with_reducible apply parts_ite | with_reducible apply parts_ite_snd | split | with_reducible apply parts_mk | ((with_reducible refine Or.inl (Covers.has hw _ ?_)) <;> rfl) | with_reducible exact Or.inr rfl | with_reducible exact Or.inr ⟨rfl, rfl⟩ | with_reducible exact Or.inr ⟨rfl, rfl, rfl⟩ | with_reducible exact Or.inr ⟨rfl, rfl, rfl, rfl⟩ | with_reducible exact Or.inr ⟨rfl, rfl, rfl, rfl, rfl⟩ | (intro _ _ _; dsimp only) | (intro _ _ _))
  | cons x r ih =>
    intro s a1 a2 h
    unfold putLaneWords
    try dsimp only
    repeat' (first | with_reducible assumption | with_reducible apply ih | with_reducible apply parts_putLaneWord | ((with_reducible refine Covers.of hw ?_) <;> rfl) | with_reducible apply parts_ite | with_reducible apply parts_ite_snd | split | with_reducible apply parts_mk | ((with_reducible refine Or.inl (Covers.has hw _ ?_)) <;> rfl) | with_reducible exact Or.inr rfl | with_reducible exact Or.inr ⟨rfl, rfl⟩ | with_reducible exact Or.inr ⟨rfl, rfl, rfl⟩ | with_reducible exact Or.inr ⟨rfl, rfl, rfl, rfl⟩ | with_reducible exact Or.inr ⟨rfl, rfl, rfl, rfl, rfl⟩ | (intro _ _ _; dsimp only) | (intro _ _ _))

theorem parts_arriveDma {w : Part → Bool} {s0 s : State} {a1} (h : Fixes w s0 s) (hw : Covers [.lanes, .mem, .sage] w) : Fixes w s0 (arriveDma s a1) := by
  unfold arriveDma
  try dsimp only
  repeat' (first | with_reducible assumption | with_reducible apply parts_putLaneWord | with_reducible apply parts_setLane | with_reducible apply parts_foldl | with_reducible apply parts_foldl_fst | with_reducible apply parts_foldl_snd | ((with_reducible refine Covers.of hw ?_) <;> rfl) | with_reducible apply parts_ite | with_reducible apply parts_ite_snd | split | with_reducible apply parts_mk | ((with_reducible refine Or.inl (Covers.has hw _ ?_)) <;> rfl) | with_reducible exact Or.inr rfl | with_reducible exact Or.inr ⟨rfl, rfl⟩ | with_reducible exact Or.inr ⟨rfl, rfl, rfl⟩ | with_reducible exact Or.inr ⟨rfl, rfl, rfl, rfl⟩ | with_reducible exact Or.inr ⟨rfl, rfl, rfl, rfl, rfl⟩ | (intro _ _ _; dsimp only) | (intro _ _ _))

theorem parts_issueGather {w : Part → Bool} {s0 s : State} {a1 a2} (h : Fixes w s0 s) (hw : Covers [.free, .lanes] w) : Fixes w s0 (issueGather s a1 a2) := by
  unfold issueGather
  try dsimp only
  repeat' (first | with_reducible assumption | with_reducible apply parts_drawUpTo | with_reducible apply parts_setLane | ((with_reducible refine Covers.of hw ?_) <;> rfl) | with_reducible apply parts_ite | with_reducible apply parts_ite_snd | split | with_reducible apply parts_mk | ((with_reducible refine Or.inl (Covers.has hw _ ?_)) <;> rfl) | with_reducible exact Or.inr rfl | with_reducible exact Or.inr ⟨rfl, rfl⟩ | with_reducible exact Or.inr ⟨rfl, rfl, rfl⟩ | with_reducible exact Or.inr ⟨rfl, rfl, rfl, rfl⟩ | with_reducible exact Or.inr ⟨rfl, rfl, rfl, rfl, rfl⟩ | (intro _ _ _; dsimp only) | (intro _ _ _))

theorem parts_landDma {w : Part → Bool} {s0 s : State} {a1} (h : Fixes w s0 s) (hw : Covers [.lanes, .mem, .sage] w) : Fixes w s0 (landDma s a1) := by
  unfold landDma
  try dsimp only
  repeat' (first | with_reducible assumption | with_reducible apply parts_putLaneWord | with_reducible apply parts_setLane | with_reducible apply parts_foldl | with_reducible apply parts_foldl_fst | with_reducible apply parts_foldl_snd | ((with_reducible refine Covers.of hw ?_) <;> rfl) | with_reducible apply parts_ite | with_reducible apply parts_ite_snd | split | with_reducible apply parts_mk | ((with_reducible refine Or.inl (Covers.has hw _ ?_)) <;> rfl) | with_reducible exact Or.inr rfl | with_reducible exact Or.inr ⟨rfl, rfl⟩ | with_reducible exact Or.inr ⟨rfl, rfl, rfl⟩ | with_reducible exact Or.inr ⟨rfl, rfl, rfl, rfl⟩ | with_reducible exact Or.inr ⟨rfl, rfl, rfl, rfl, rfl⟩ | (intro _ _ _; dsimp only) | (intro _ _ _))

theorem parts_scatter {w : Part → Bool} {s0 s : State} {a1 a2} (h : Fixes w s0 s) (hw : Covers [.audio] w) : Fixes w s0 (scatter s a1 a2) := by
  unfold scatter
  try dsimp only
  repeat' (first | with_reducible assumption | with_reducible apply parts_putSig | with_reducible apply parts_foldl | with_reducible apply parts_foldl_fst | with_reducible apply parts_foldl_snd | ((with_reducible refine Covers.of hw ?_) <;> rfl) | with_reducible apply parts_ite | with_reducible apply parts_ite_snd | split | with_reducible apply parts_mk | ((with_reducible refine Or.inl (Covers.has hw _ ?_)) <;> rfl) | with_reducible exact Or.inr rfl | with_reducible exact Or.inr ⟨rfl, rfl⟩ | with_reducible exact Or.inr ⟨rfl, rfl, rfl⟩ | with_reducible exact Or.inr ⟨rfl, rfl, rfl, rfl⟩ | with_reducible exact Or.inr ⟨rfl, rfl, rfl, rfl, rfl⟩ | (intro _ _ _; dsimp only) | (intro _ _ _))

theorem parts_prologue {w : Part → Bool} {s0 s : State} {a1 a2 a3} (h : Fixes w s0 s) (hw : Covers [.lanes] w) : Fixes w s0 (prologue s a1 a2 a3) := by
  unfold prologue
  try dsimp only
  repeat' (first | with_reducible assumption | with_reducible apply parts_setLane | ((with_reducible refine Covers.of hw ?_) <;> rfl) | with_reducible apply parts_ite | with_reducible apply parts_ite_snd | split | with_reducible apply parts_mk | ((with_reducible refine Or.inl (Covers.has hw _ ?_)) <;> rfl) | with_reducible exact Or.inr rfl | with_reducible exact Or.inr ⟨rfl, rfl⟩ | with_reducible exact Or.inr ⟨rfl, rfl, rfl⟩ | with_reducible exact Or.inr ⟨rfl, rfl, rfl, rfl⟩ | with_reducible exact Or.inr ⟨rfl, rfl, rfl, rfl, rfl⟩ | (intro _ _ _; dsimp only) | (intro _ _ _))

theorem parts_slotEffect {w : Part → Bool} {s0 s : State} {a0} (h : Fixes w s0 s) (hw : Covers [.free, .force, .sess, .lanes, .mem, .sage] w) : Fixes w s0 (slotEffect a0 s) := by
  unfold slotEffect
  try dsimp only
  repeat' (first | with_reducible assumption | with_reducible apply parts_execMac | with_reducible apply parts_execAsl | with_reducible apply parts_execMvi | with_reducible apply parts_execSuba | with_reducible apply parts_execLoop | with_reducible apply parts_execAnd | with_reducible apply parts_execClr | with_reducible apply parts_execAbs | with_reducible apply parts_execNeg | with_reducible apply parts_execAdd | with_reducible apply parts_execMov | with_reducible apply parts_execOr | with_reducible apply parts_execLd | with_reducible apply parts_execXor | with_reducible apply parts_execMin | with_reducible apply parts_execMpy | with_reducible apply parts_execSt | with_reducible apply parts_execMax | with_reducible apply parts_execSha | with_reducible apply parts_execMvr | with_reducible apply parts_execMxclr | with_reducible apply parts_execBld | with_reducible apply parts_execAdda | with_reducible apply parts_execXmod | with_reducible apply parts_execExt | with_reducible apply parts_execAcc | with_reducible apply parts_execAsr | with_reducible apply parts_execLset | with_reducible apply parts_execMvs | with_reducible apply parts_execSub | with_reducible apply parts_execMsu | with_reducible apply parts_next | exact parts_fault _ | with_reducible apply parts_outState | ((with_reducible refine Covers.of hw ?_) <;> rfl) | with_reducible apply parts_ite | with_reducible apply parts_ite_snd | split | with_reducible apply parts_mk | ((with_reducible refine Or.inl (Covers.has hw _ ?_)) <;> rfl) | with_reducible exact Or.inr rfl | with_reducible exact Or.inr ⟨rfl, rfl⟩ | with_reducible exact Or.inr ⟨rfl, rfl, rfl⟩ | with_reducible exact Or.inr ⟨rfl, rfl, rfl, rfl⟩ | with_reducible exact Or.inr ⟨rfl, rfl, rfl, rfl, rfl⟩ | (intro _ _ _; dsimp only) | (intro _ _ _))

theorem parts_storeX {w : Part → Bool} {s0 s : State} {a1 a2} (h : Fixes w s0 s) (hw : Covers [.mem, .sage] w) : Fixes w s0 (storeX s a1 a2) := by
  unfold storeX
  try dsimp only
  repeat' (first | with_reducible assumption | with_reducible apply parts_putLaneWords | ((with_reducible refine Covers.of hw ?_) <;> rfl) | with_reducible apply parts_ite | with_reducible apply parts_ite_snd | split | with_reducible apply parts_mk | ((with_reducible refine Or.inl (Covers.has hw _ ?_)) <;> rfl) | with_reducible exact Or.inr rfl | with_reducible exact Or.inr ⟨rfl, rfl⟩ | with_reducible exact Or.inr ⟨rfl, rfl, rfl⟩ | with_reducible exact Or.inr ⟨rfl, rfl, rfl, rfl⟩ | with_reducible exact Or.inr ⟨rfl, rfl, rfl, rfl, rfl⟩ | (intro _ _ _; dsimp only) | (intro _ _ _))

theorem parts_epilogue {w : Part → Bool} {s0 s : State} {a1 a2} (h : Fixes w s0 s) (hw : Covers [.lanes, .mem, .sage] w) : Fixes w s0 (epilogue s a1 a2) := by
  unfold epilogue
  try dsimp only
  repeat' (first | with_reducible assumption | with_reducible apply parts_storeX | with_reducible apply parts_setLane | ((with_reducible refine Covers.of hw ?_) <;> rfl) | with_reducible apply parts_ite | with_reducible apply parts_ite_snd | split | with_reducible apply parts_mk | ((with_reducible refine Or.inl (Covers.has hw _ ?_)) <;> rfl) | with_reducible exact Or.inr rfl | with_reducible exact Or.inr ⟨rfl, rfl⟩ | with_reducible exact Or.inr ⟨rfl, rfl, rfl⟩ | with_reducible exact Or.inr ⟨rfl, rfl, rfl, rfl⟩ | with_reducible exact Or.inr ⟨rfl, rfl, rfl, rfl, rfl⟩ | (intro _ _ _; dsimp only) | (intro _ _ _))

theorem parts_finishProgram {w : Part → Bool} {s0 s : State} {a1 a2} (h : Fixes w s0 s) (hw : Covers [.force, .audio, .lanes, .mem, .sage] w) : Fixes w s0 (finishProgram s a1 a2) := by
  unfold finishProgram
  try dsimp only
  repeat' (first | with_reducible assumption | with_reducible apply parts_bump | with_reducible apply parts_landDma | with_reducible apply parts_scatter | with_reducible apply parts_setN | with_reducible apply parts_setLane | ((with_reducible refine Covers.of hw ?_) <;> rfl) | with_reducible apply parts_ite | with_reducible apply parts_ite_snd | split | with_reducible apply parts_mk | ((with_reducible refine Or.inl (Covers.has hw _ ?_)) <;> rfl) | with_reducible exact Or.inr rfl | with_reducible exact Or.inr ⟨rfl, rfl⟩ | with_reducible exact Or.inr ⟨rfl, rfl, rfl⟩ | with_reducible exact Or.inr ⟨rfl, rfl, rfl, rfl⟩ | with_reducible exact Or.inr ⟨rfl, rfl, rfl, rfl, rfl⟩ | (intro _ _ _; dsimp only) | (intro _ _ _))

theorem parts_execHalt {w : Part → Bool} {s0 s : State} {a0} (h : Fixes w s0 s) (hw : Covers [.free, .force, .audio, .lanes, .mem, .sage] w) : FixesOut w s0 (execHalt a0 s) := by
  unfold execHalt
  try dsimp only
  repeat' (first | with_reducible assumption | with_reducible apply parts_closeBundle | with_reducible apply parts_epilogue | with_reducible apply parts_finishProgram | with_reducible apply parts_next | exact parts_fault _ | ((with_reducible refine Covers.of hw ?_) <;> rfl) | with_reducible apply parts_ite | with_reducible apply parts_ite_snd | split | with_reducible apply parts_mk | ((with_reducible refine Or.inl (Covers.has hw _ ?_)) <;> rfl) | with_reducible exact Or.inr rfl | with_reducible exact Or.inr ⟨rfl, rfl⟩ | with_reducible exact Or.inr ⟨rfl, rfl, rfl⟩ | with_reducible exact Or.inr ⟨rfl, rfl, rfl, rfl⟩ | with_reducible exact Or.inr ⟨rfl, rfl, rfl, rfl, rfl⟩ | (intro _ _ _; dsimp only) | (intro _ _ _))

theorem parts_awaitGather {w : Part → Bool} {s0 s : State} {a1 a2} (h : Fixes w s0 s) (hw : Covers [.lanes, .mem, .sage] w) : Fixes w s0 (awaitGather s a1 a2) := by
  unfold awaitGather
  try dsimp only
  repeat' (first | with_reducible assumption | with_reducible apply parts_putLaneWord | with_reducible apply parts_setLane | with_reducible apply parts_arriveDma | with_reducible apply parts_foldl | with_reducible apply parts_foldl_fst | with_reducible apply parts_foldl_snd | ((with_reducible refine Covers.of hw ?_) <;> rfl) | with_reducible apply parts_ite | with_reducible apply parts_ite_snd | split | with_reducible apply parts_mk | ((with_reducible refine Or.inl (Covers.has hw _ ?_)) <;> rfl) | with_reducible exact Or.inr rfl | with_reducible exact Or.inr ⟨rfl, rfl⟩ | with_reducible exact Or.inr ⟨rfl, rfl, rfl⟩ | with_reducible exact Or.inr ⟨rfl, rfl, rfl, rfl⟩ | with_reducible exact Or.inr ⟨rfl, rfl, rfl, rfl, rfl⟩ | (intro _ _ _; dsimp only) | (intro _ _ _))

theorem parts_startProgram {w : Part → Bool} {s0 s : State} {a1 a2} (h : Fixes w s0 s) (hw : Covers [.free, .lanes, .mem, .sage] w) : Fixes w s0 (startProgram s a1 a2) := by
  unfold startProgram
  try dsimp only
  repeat' (first | with_reducible assumption | with_reducible apply parts_prologue | with_reducible apply parts_issueGather | with_reducible apply parts_awaitGather | ((with_reducible refine Covers.of hw ?_) <;> rfl) | with_reducible apply parts_ite | with_reducible apply parts_ite_snd | split | with_reducible apply parts_mk | ((with_reducible refine Or.inl (Covers.has hw _ ?_)) <;> rfl) | with_reducible exact Or.inr rfl | with_reducible exact Or.inr ⟨rfl, rfl⟩ | with_reducible exact Or.inr ⟨rfl, rfl, rfl⟩ | with_reducible exact Or.inr ⟨rfl, rfl, rfl, rfl⟩ | with_reducible exact Or.inr ⟨rfl, rfl, rfl, rfl, rfl⟩ | (intro _ _ _; dsimp only) | (intro _ _ _))

theorem parts_execProgramStart {w : Part → Bool} {s0 s : State} {a0 a1} (h : Fixes w s0 s) (hw : Covers [.free, .lanes, .mem, .sage] w) : FixesOut w s0 (execProgramStart a0 a1 s) := by
  unfold execProgramStart
  try dsimp only
  repeat' (first | with_reducible assumption | with_reducible apply parts_startProgram | with_reducible apply parts_next | exact parts_fault _ | ((with_reducible refine Covers.of hw ?_) <;> rfl) | with_reducible apply parts_ite | with_reducible apply parts_ite_snd | split | with_reducible apply parts_mk | ((with_reducible refine Or.inl (Covers.has hw _ ?_)) <;> rfl) | with_reducible exact Or.inr rfl | with_reducible exact Or.inr ⟨rfl, rfl⟩ | with_reducible exact Or.inr ⟨rfl, rfl, rfl⟩ | with_reducible exact Or.inr ⟨rfl, rfl, rfl, rfl⟩ | with_reducible exact Or.inr ⟨rfl, rfl, rfl, rfl, rfl⟩ | (intro _ _ _; dsimp only) | (intro _ _ _))

theorem parts_runOps {w : Part → Bool} {s0 s : State} {a1} (h : Fixes w s0 s) (hw : Covers [.free, .force, .sess, .lanes, .mem, .sage] w) : Fixes w s0 (runOps s a1) := by
  unfold runOps
  try dsimp only
  repeat' (first | with_reducible assumption | with_reducible apply parts_slotEffect | with_reducible apply parts_foldl | with_reducible apply parts_foldl_fst | with_reducible apply parts_foldl_snd | ((with_reducible refine Covers.of hw ?_) <;> rfl) | with_reducible apply parts_ite | with_reducible apply parts_ite_snd | split | with_reducible apply parts_mk | ((with_reducible refine Or.inl (Covers.has hw _ ?_)) <;> rfl) | with_reducible exact Or.inr rfl | with_reducible exact Or.inr ⟨rfl, rfl⟩ | with_reducible exact Or.inr ⟨rfl, rfl, rfl⟩ | with_reducible exact Or.inr ⟨rfl, rfl, rfl, rfl⟩ | with_reducible exact Or.inr ⟨rfl, rfl, rfl, rfl, rfl⟩ | (intro _ _ _; dsimp only) | (intro _ _ _))

theorem parts_runBundles {w : Part → Bool} {s0 : State} {l : Nat} (hw : Covers [.free, .force, .sess, .lanes, .mem, .sage] w) : ∀ {s : State} {a0 a1 a2}, Fixes w s0 s → Fixes w s0 (runBundles a0 a1 a2 l s).1 := by
  induction l with
  | zero =>
    intro s a0 a1 a2 h
    unfold runBundles
    try dsimp only
    repeat' (first | with_reducible assumption | with_reducible apply parts_execNopBundle | with_reducible apply parts_runOps | with_reducible apply parts_slotEffect | with_reducible apply parts_next | exact parts_fault _ | with_reducible apply parts_outState | ((with_reducible refine Covers.of hw ?_) <;> rfl) | with_reducible apply parts_ite | with_reducible apply parts_ite_snd | split | with_reducible apply parts_mk | ((with_reducible refine Or.inl (Covers.has hw _ ?_)) <;> rfl) | with_reducible exact Or.inr rfl | with_reducible exact Or.inr ⟨rfl, rfl⟩ | with_reducible exact Or.inr ⟨rfl, rfl, rfl⟩ | with_reducible exact Or.inr ⟨rfl, rfl, rfl, rfl⟩ | with_reducible exact Or.inr ⟨rfl, rfl, rfl, rfl, rfl⟩ | (intro _ _ _; dsimp only) | (intro _ _ _))
  | succ k ih =>
    intro s a0 a1 a2 h
    unfold runBundles
    try dsimp only
    repeat' (first | with_reducible assumption | with_reducible apply ih | with_reducible apply parts_execNopBundle | with_reducible apply parts_runOps | with_reducible apply parts_slotEffect | with_reducible apply parts_next | exact parts_fault _ | with_reducible apply parts_outState | ((with_reducible refine Covers.of hw ?_) <;> rfl) | with_reducible apply parts_ite | with_reducible apply parts_ite_snd | split | with_reducible apply parts_mk | ((with_reducible refine Or.inl (Covers.has hw _ ?_)) <;> rfl) | with_reducible exact Or.inr rfl | with_reducible exact Or.inr ⟨rfl, rfl⟩ | with_reducible exact Or.inr ⟨rfl, rfl, rfl⟩ | with_reducible exact Or.inr ⟨rfl, rfl, rfl, rfl⟩ | with_reducible exact Or.inr ⟨rfl, rfl, rfl, rfl, rfl⟩ | (intro _ _ _; dsimp only) | (intro _ _ _))

theorem parts_overrun {w : Part → Bool} {s0 s : State} {a1 a2} (h : Fixes w s0 s) (hw : Covers [.lanes] w) : Fixes w s0 (overrun s a1 a2) := by
  unfold overrun
  try dsimp only
  repeat' (first | with_reducible assumption | with_reducible apply parts_setLane | ((with_reducible refine Covers.of hw ?_) <;> rfl) | with_reducible apply parts_ite | with_reducible apply parts_ite_snd | split | with_reducible apply parts_mk | ((with_reducible refine Or.inl (Covers.has hw _ ?_)) <;> rfl) | with_reducible exact Or.inr rfl | with_reducible exact Or.inr ⟨rfl, rfl⟩ | with_reducible exact Or.inr ⟨rfl, rfl, rfl⟩ | with_reducible exact Or.inr ⟨rfl, rfl, rfl, rfl⟩ | with_reducible exact Or.inr ⟨rfl, rfl, rfl, rfl, rfl⟩ | (intro _ _ _; dsimp only) | (intro _ _ _))

theorem parts_runPlacement {w : Part → Bool} {s0 s : State} {a1 a2 a3} (h : Fixes w s0 s) (hw : Covers [.free, .force, .sess, .audio, .lanes, .mem, .sage] w) : Fixes w s0 (runPlacement s a1 a2 a3) := by
  unfold runPlacement
  try dsimp only
  repeat' (first | with_reducible assumption | with_reducible apply parts_overrun | with_reducible apply parts_runBundles | with_reducible apply parts_execHalt | with_reducible apply parts_startProgram | with_reducible apply parts_next | exact parts_fault _ | with_reducible apply parts_outState | ((with_reducible refine Covers.of hw ?_) <;> rfl) | with_reducible apply parts_ite | with_reducible apply parts_ite_snd | split | with_reducible apply parts_mk | ((with_reducible refine Or.inl (Covers.has hw _ ?_)) <;> rfl) | with_reducible exact Or.inr rfl | with_reducible exact Or.inr ⟨rfl, rfl⟩ | with_reducible exact Or.inr ⟨rfl, rfl, rfl⟩ | with_reducible exact Or.inr ⟨rfl, rfl, rfl, rfl⟩ | with_reducible exact Or.inr ⟨rfl, rfl, rfl, rfl, rfl⟩ | (intro _ _ _; dsimp only) | (intro _ _ _))

theorem parts_openLane {w : Part → Bool} {s0 s : State} {a1 a2} (h : Fixes w s0 s) (hw : Covers [.free, .lanes] w) : Fixes w s0 (openLane s a1 a2) := by
  unfold openLane
  try dsimp only
  repeat' (first | with_reducible assumption | with_reducible apply parts_issueGather | with_reducible apply parts_setLane | ((with_reducible refine Covers.of hw ?_) <;> rfl) | with_reducible apply parts_ite | with_reducible apply parts_ite_snd | split | with_reducible apply parts_mk | ((with_reducible refine Or.inl (Covers.has hw _ ?_)) <;> rfl) | with_reducible exact Or.inr rfl | with_reducible exact Or.inr ⟨rfl, rfl⟩ | with_reducible exact Or.inr ⟨rfl, rfl, rfl⟩ | with_reducible exact Or.inr ⟨rfl, rfl, rfl, rfl⟩ | with_reducible exact Or.inr ⟨rfl, rfl, rfl, rfl, rfl⟩ | (intro _ _ _; dsimp only) | (intro _ _ _))

theorem parts_passProgram {w : Part → Bool} {s0 s : State} {a1 a2 a3 a4} (h : Fixes w s0 s) (hw : Covers [.free, .force, .lanes, .mem, .sage] w) : Fixes w s0 (passProgram s a1 a2 a3 a4) := by
  unfold passProgram
  try dsimp only
  repeat' (first | with_reducible assumption | with_reducible apply parts_overrun | with_reducible apply parts_setN | with_reducible apply parts_setLane | with_reducible apply parts_startProgram | ((with_reducible refine Covers.of hw ?_) <;> rfl) | with_reducible apply parts_ite | with_reducible apply parts_ite_snd | split | with_reducible apply parts_mk | ((with_reducible refine Or.inl (Covers.has hw _ ?_)) <;> rfl) | with_reducible exact Or.inr rfl | with_reducible exact Or.inr ⟨rfl, rfl⟩ | with_reducible exact Or.inr ⟨rfl, rfl, rfl⟩ | with_reducible exact Or.inr ⟨rfl, rfl, rfl, rfl⟩ | with_reducible exact Or.inr ⟨rfl, rfl, rfl, rfl, rfl⟩ | (intro _ _ _; dsimp only) | (intro _ _ _))

theorem parts_runSlotPath {w : Part → Bool} {s0 s : State} {a1 a2 a3 a4 a5} (h : Fixes w s0 s) (hw : Covers [.free, .force, .sess, .lanes, .mem, .sage] w) : Fixes w s0 (runSlotPath s a1 a2 a3 a4 a5).1 := by
  unfold runSlotPath
  try dsimp only
  repeat' (first | with_reducible assumption | with_reducible apply parts_closeBundle | with_reducible apply parts_epilogue | with_reducible apply parts_overrun | with_reducible apply parts_runBundles | with_reducible apply parts_prologue | with_reducible apply parts_setLane | ((with_reducible refine Covers.of hw ?_) <;> rfl) | with_reducible apply parts_ite | with_reducible apply parts_ite_snd | split | with_reducible apply parts_mk | ((with_reducible refine Or.inl (Covers.has hw _ ?_)) <;> rfl) | with_reducible exact Or.inr rfl | with_reducible exact Or.inr ⟨rfl, rfl⟩ | with_reducible exact Or.inr ⟨rfl, rfl, rfl⟩ | with_reducible exact Or.inr ⟨rfl, rfl, rfl, rfl⟩ | with_reducible exact Or.inr ⟨rfl, rfl, rfl, rfl, rfl⟩ | (intro _ _ _; dsimp only) | (intro _ _ _))

theorem parts_repeatFrame {w : Part → Bool} {s0 s : State} {a1 a2} (h : Fixes w s0 s) (hw : Covers [.audio] w) : Fixes w s0 (repeatFrame s a1 a2) := by
  unfold repeatFrame
  try dsimp only
  repeat' (first | with_reducible assumption | with_reducible apply parts_putSig | ((with_reducible refine Covers.of hw ?_) <;> rfl) | with_reducible apply parts_ite | with_reducible apply parts_ite_snd | split | with_reducible apply parts_mk | ((with_reducible refine Or.inl (Covers.has hw _ ?_)) <;> rfl) | with_reducible exact Or.inr rfl | with_reducible exact Or.inr ⟨rfl, rfl⟩ | with_reducible exact Or.inr ⟨rfl, rfl, rfl⟩ | with_reducible exact Or.inr ⟨rfl, rfl, rfl, rfl⟩ | with_reducible exact Or.inr ⟨rfl, rfl, rfl, rfl, rfl⟩ | (intro _ _ _; dsimp only) | (intro _ _ _))

end Sys2Proof.Machine
end

