-- ==== Sys2Proof/Laws/PartsSage.lean ====
section
/-!
SUPPORT. Laws/PartsSage.lean: the operations of Machine/Sage.lean change only the parts of the state named (Laws/Parts.lean).
-/
-- One declaration at a time and no linter: the package is compiled as one text under a memory limit.
set_option linter.all false
set_option Elab.async false
namespace Sys2Proof.Machine

theorem parts_writeLog {w : Part → Bool} {s0 s : State} {a1 a2 a3 a4 a5} (h : Fixes w s0 s) (hw : Covers [.aon, .force, .sess, .sage] w) : Fixes w s0 (writeLog s a1 a2 a3 a4 a5) := by
  unfold writeLog
  try dsimp only
  repeat' (first | with_reducible assumption | with_reducible apply parts_bump | with_reducible apply parts_setN | with_reducible apply parts_raise | ((with_reducible refine Covers.of hw ?_) <;> rfl) | with_reducible apply parts_ite | with_reducible apply parts_ite_snd | split | with_reducible apply parts_mk | ((with_reducible refine Or.inl (Covers.has hw _ ?_)) <;> rfl) | with_reducible exact Or.inr rfl | with_reducible exact Or.inr ⟨rfl, rfl⟩ | with_reducible exact Or.inr ⟨rfl, rfl, rfl⟩ | with_reducible exact Or.inr ⟨rfl, rfl, rfl, rfl⟩ | with_reducible exact Or.inr ⟨rfl, rfl, rfl, rfl, rfl⟩ | (intro _ _ _; dsimp only) | (intro _ _ _))

theorem parts_setRole {w : Part → Bool} {s0 s : State} {a1} (h : Fixes w s0 s) (hw : Covers [.force, .sess] w) : Fixes w s0 (setRole s a1) := by
  unfold setRole
  try dsimp only
  repeat' (first | with_reducible assumption | with_reducible apply parts_setN | with_reducible apply parts_raise | ((with_reducible refine Covers.of hw ?_) <;> rfl) | with_reducible apply parts_ite | with_reducible apply parts_ite_snd | split | with_reducible apply parts_mk | ((with_reducible refine Or.inl (Covers.has hw _ ?_)) <;> rfl) | with_reducible exact Or.inr rfl | with_reducible exact Or.inr ⟨rfl, rfl⟩ | with_reducible exact Or.inr ⟨rfl, rfl, rfl⟩ | with_reducible exact Or.inr ⟨rfl, rfl, rfl, rfl⟩ | with_reducible exact Or.inr ⟨rfl, rfl, rfl, rfl, rfl⟩ | (intro _ _ _; dsimp only) | (intro _ _ _))

theorem parts_takeToken {w : Part → Bool} {s0 s : State} (h : Fixes w s0 s) (hw : Covers [.pins] w) : Fixes w s0 (takeToken s) := by
  unfold takeToken
  try dsimp only
  repeat' (first | with_reducible assumption | ((with_reducible refine Covers.of hw ?_) <;> rfl) | with_reducible apply parts_ite | with_reducible apply parts_ite_snd | split | with_reducible apply parts_mk | ((with_reducible refine Or.inl (Covers.has hw _ ?_)) <;> rfl) | with_reducible exact Or.inr rfl | with_reducible exact Or.inr ⟨rfl, rfl⟩ | with_reducible exact Or.inr ⟨rfl, rfl, rfl⟩ | with_reducible exact Or.inr ⟨rfl, rfl, rfl, rfl⟩ | with_reducible exact Or.inr ⟨rfl, rfl, rfl, rfl, rfl⟩ | (intro _ _ _; dsimp only) | (intro _ _ _))

theorem parts_dropToken {w : Part → Bool} {s0 s : State} (h : Fixes w s0 s) (hw : Covers [.pair, .pins] w) : Fixes w s0 (dropToken s) := by
  unfold dropToken
  try dsimp only
  repeat' (first | with_reducible assumption | ((with_reducible refine Covers.of hw ?_) <;> rfl) | with_reducible apply parts_ite | with_reducible apply parts_ite_snd | split | with_reducible apply parts_mk | ((with_reducible refine Or.inl (Covers.has hw _ ?_)) <;> rfl) | with_reducible exact Or.inr rfl | with_reducible exact Or.inr ⟨rfl, rfl⟩ | with_reducible exact Or.inr ⟨rfl, rfl, rfl⟩ | with_reducible exact Or.inr ⟨rfl, rfl, rfl, rfl⟩ | with_reducible exact Or.inr ⟨rfl, rfl, rfl, rfl, rfl⟩ | (intro _ _ _; dsimp only) | (intro _ _ _))

theorem parts_fatal {w : Part → Bool} {s0 s : State} {a1} (h : Fixes w s0 s) (hw : Covers [.aon, .force, .sess, .sage, .pair] w) : Fixes w s0 (fatal s a1) := by
  unfold fatal
  try dsimp only
  repeat' (first | with_reducible assumption | with_reducible apply parts_setN | with_reducible apply parts_writeLog | with_reducible apply parts_raise | ((with_reducible refine Covers.of hw ?_) <;> rfl) | with_reducible apply parts_ite | with_reducible apply parts_ite_snd | split | with_reducible apply parts_mk | ((with_reducible refine Or.inl (Covers.has hw _ ?_)) <;> rfl) | with_reducible exact Or.inr rfl | with_reducible exact Or.inr ⟨rfl, rfl⟩ | with_reducible exact Or.inr ⟨rfl, rfl, rfl⟩ | with_reducible exact Or.inr ⟨rfl, rfl, rfl, rfl⟩ | with_reducible exact Or.inr ⟨rfl, rfl, rfl, rfl, rfl⟩ | (intro _ _ _; dsimp only) | (intro _ _ _))

theorem parts_fatalTick {w : Part → Bool} {s0 s : State} {a1} (h : Fixes w s0 s) (hw : Covers [.audio, .sage] w) : Fixes w s0 (fatalTick s a1) := by
  unfold fatalTick
  try dsimp only
  repeat' (first | with_reducible assumption | with_reducible apply parts_setOutFade | ((with_reducible refine Covers.of hw ?_) <;> rfl) | with_reducible apply parts_ite | with_reducible apply parts_ite_snd | split | with_reducible apply parts_mk | ((with_reducible refine Or.inl (Covers.has hw _ ?_)) <;> rfl) | with_reducible exact Or.inr rfl | with_reducible exact Or.inr ⟨rfl, rfl⟩ | with_reducible exact Or.inr ⟨rfl, rfl, rfl⟩ | with_reducible exact Or.inr ⟨rfl, rfl, rfl, rfl⟩ | with_reducible exact Or.inr ⟨rfl, rfl, rfl, rfl, rfl⟩ | (intro _ _ _; dsimp only) | (intro _ _ _))

theorem parts_fatalRelease {w : Part → Bool} {s0 s : State} (h : Fixes w s0 s) (hw : Covers [.force, .sess, .pair, .pins] w) : Fixes w s0 (fatalRelease s) := by
  unfold fatalRelease
  try dsimp only
  repeat' (first | with_reducible assumption | with_reducible apply parts_dropToken | with_reducible apply parts_setRole | ((with_reducible refine Covers.of hw ?_) <;> rfl) | with_reducible apply parts_ite | with_reducible apply parts_ite_snd | split | with_reducible apply parts_mk | ((with_reducible refine Or.inl (Covers.has hw _ ?_)) <;> rfl) | with_reducible exact Or.inr rfl | with_reducible exact Or.inr ⟨rfl, rfl⟩ | with_reducible exact Or.inr ⟨rfl, rfl, rfl⟩ | with_reducible exact Or.inr ⟨rfl, rfl, rfl, rfl⟩ | with_reducible exact Or.inr ⟨rfl, rfl, rfl, rfl, rfl⟩ | (intro _ _ _; dsimp only) | (intro _ _ _))

theorem parts_endTest {w : Part → Bool} {s0 s : State} {a1 a2} (h : Fixes w s0 s) (hw : Covers [.sage] w) : Fixes w s0 (endTest s a1 a2) := by
  unfold endTest
  try dsimp only
  repeat' (first | with_reducible assumption | ((with_reducible refine Covers.of hw ?_) <;> rfl) | with_reducible apply parts_ite | with_reducible apply parts_ite_snd | split | with_reducible apply parts_mk | ((with_reducible refine Or.inl (Covers.has hw _ ?_)) <;> rfl) | with_reducible exact Or.inr rfl | with_reducible exact Or.inr ⟨rfl, rfl⟩ | with_reducible exact Or.inr ⟨rfl, rfl, rfl⟩ | with_reducible exact Or.inr ⟨rfl, rfl, rfl, rfl⟩ | with_reducible exact Or.inr ⟨rfl, rfl, rfl, rfl, rfl⟩ | (intro _ _ _; dsimp only) | (intro _ _ _))

theorem parts_reportError {w : Part → Bool} {s0 s : State} {a1} (h : Fixes w s0 s) (hw : Covers [.aon, .force, .sess, .sage] w) : Fixes w s0 (reportError s a1) := by
  unfold reportError
  try dsimp only
  repeat' (first | with_reducible assumption | with_reducible apply parts_writeLog | ((with_reducible refine Covers.of hw ?_) <;> rfl) | with_reducible apply parts_ite | with_reducible apply parts_ite_snd | split | with_reducible apply parts_mk | ((with_reducible refine Or.inl (Covers.has hw _ ?_)) <;> rfl) | with_reducible exact Or.inr rfl | with_reducible exact Or.inr ⟨rfl, rfl⟩ | with_reducible exact Or.inr ⟨rfl, rfl, rfl⟩ | with_reducible exact Or.inr ⟨rfl, rfl, rfl, rfl⟩ | with_reducible exact Or.inr ⟨rfl, rfl, rfl, rfl, rfl⟩ | (intro _ _ _; dsimp only) | (intro _ _ _))

theorem parts_saveRegion {w : Part → Bool} {s0 s : State} {a1} (h : Fixes w s0 s) (hw : Covers [.sage] w) : Fixes w s0 (saveRegion s a1) := by
  unfold saveRegion
  try dsimp only
  repeat' (first | with_reducible assumption | ((with_reducible refine Covers.of hw ?_) <;> rfl) | with_reducible apply parts_ite | with_reducible apply parts_ite_snd | split | with_reducible apply parts_mk | ((with_reducible refine Or.inl (Covers.has hw _ ?_)) <;> rfl) | with_reducible exact Or.inr rfl | with_reducible exact Or.inr ⟨rfl, rfl⟩ | with_reducible exact Or.inr ⟨rfl, rfl, rfl⟩ | with_reducible exact Or.inr ⟨rfl, rfl, rfl, rfl⟩ | with_reducible exact Or.inr ⟨rfl, rfl, rfl, rfl, rfl⟩ | (intro _ _ _; dsimp only) | (intro _ _ _))

theorem parts_restoreRegion {w : Part → Bool} {s0 s : State} {a1} (h : Fixes w s0 s) (hw : Covers [.mem, .sage] w) : Fixes w s0 (restoreRegion s a1) := by
  unfold restoreRegion
  try dsimp only
  repeat' (first | with_reducible assumption | with_reducible apply parts_foldl | with_reducible apply parts_foldl_fst | with_reducible apply parts_foldl_snd | ((with_reducible refine Covers.of hw ?_) <;> rfl) | with_reducible apply parts_ite | with_reducible apply parts_ite_snd | split | with_reducible apply parts_mk | ((with_reducible refine Or.inl (Covers.has hw _ ?_)) <;> rfl) | with_reducible exact Or.inr rfl | with_reducible exact Or.inr ⟨rfl, rfl⟩ | with_reducible exact Or.inr ⟨rfl, rfl, rfl⟩ | with_reducible exact Or.inr ⟨rfl, rfl, rfl, rfl⟩ | with_reducible exact Or.inr ⟨rfl, rfl, rfl, rfl, rfl⟩ | (intro _ _ _; dsimp only) | (intro _ _ _))

theorem parts_startTargeted {w : Part → Bool} {s0 s : State} (h : Fixes w s0 s) (hw : Covers [.sage] w) : Fixes w s0 (startTargeted s) := by
  unfold startTargeted
  try dsimp only
  repeat' (first | with_reducible assumption | with_reducible apply parts_saveRegion | with_reducible apply parts_foldl | with_reducible apply parts_foldl_fst | with_reducible apply parts_foldl_snd | ((with_reducible refine Covers.of hw ?_) <;> rfl) | with_reducible apply parts_ite | with_reducible apply parts_ite_snd | split | with_reducible apply parts_mk | ((with_reducible refine Or.inl (Covers.has hw _ ?_)) <;> rfl) | with_reducible exact Or.inr rfl | with_reducible exact Or.inr ⟨rfl, rfl⟩ | with_reducible exact Or.inr ⟨rfl, rfl, rfl⟩ | with_reducible exact Or.inr ⟨rfl, rfl, rfl, rfl⟩ | with_reducible exact Or.inr ⟨rfl, rfl, rfl, rfl, rfl⟩ | (intro _ _ _; dsimp only) | (intro _ _ _))

theorem parts_passOn {w : Part → Bool} {s0 s : State} (h : Fixes w s0 s) (hw : Covers [.force, .sage] w) : Fixes w s0 (passOn s) := by
  unfold passOn
  try dsimp only
  repeat' (first | with_reducible assumption | with_reducible apply parts_bump | with_reducible apply parts_setN | ((with_reducible refine Covers.of hw ?_) <;> rfl) | with_reducible apply parts_ite | with_reducible apply parts_ite_snd | split | with_reducible apply parts_mk | ((with_reducible refine Or.inl (Covers.has hw _ ?_)) <;> rfl) | with_reducible exact Or.inr rfl | with_reducible exact Or.inr ⟨rfl, rfl⟩ | with_reducible exact Or.inr ⟨rfl, rfl, rfl⟩ | with_reducible exact Or.inr ⟨rfl, rfl, rfl, rfl⟩ | with_reducible exact Or.inr ⟨rfl, rfl, rfl, rfl, rfl⟩ | (intro _ _ _; dsimp only) | (intro _ _ _))

theorem parts_passTake {w : Part → Bool} {s0 : State} (n : Nat) : ∀ {s : State}, Fixes w s0 s → Covers [.force, .sage] w → Fixes w s0 (passTake n s) := by
  induction n with
  | zero => intro s h _; exact h
  | succ n ih =>
    intro s h hw
    have h1 : Fixes w s0 (if s.sage.position = 0 then { s with sage := { s.sage with started := s.now } } else s) := by
      refine parts_ite ?_ h
      intro q hq
      have := h q hq
      cases q <;> first | exact this | exact absurd (hw.has .sage rfl) (by rw [hq]; exact Bool.false_ne_true)
    unfold passTake
    dsimp only
    split
    · exact ih (parts_passOn (parts_saveRegion h1 (hw.of rfl)) (hw.of rfl)) hw
    · exact h

theorem parts_sageWindow {w : Part → Bool} {s0 s : State} (h : Fixes w s0 s) (hw : Covers [.force, .sage] w) : Fixes w s0 (sageWindow s) :=
  parts_ite h (parts_passTake _ (parts_startTargeted h (hw.of rfl)) (hw.of rfl))

theorem parts_endPass {w : Part → Bool} {s0 s : State} (h : Fixes w s0 s) (hw : Covers [.mem, .sage] w) : Fixes w s0 (endPass s) := by
  unfold endPass
  try dsimp only
  repeat' (first | with_reducible assumption | with_reducible apply parts_restoreRegion | with_reducible apply parts_foldl | with_reducible apply parts_foldl_fst | with_reducible apply parts_foldl_snd | ((with_reducible refine Covers.of hw ?_) <;> rfl) | with_reducible apply parts_ite | with_reducible apply parts_ite_snd | split | with_reducible apply parts_mk | ((with_reducible refine Or.inl (Covers.has hw _ ?_)) <;> rfl) | with_reducible exact Or.inr rfl | with_reducible exact Or.inr ⟨rfl, rfl⟩ | with_reducible exact Or.inr ⟨rfl, rfl, rfl⟩ | with_reducible exact Or.inr ⟨rfl, rfl, rfl, rfl⟩ | with_reducible exact Or.inr ⟨rfl, rfl, rfl, rfl, rfl⟩ | (intro _ _ _; dsimp only) | (intro _ _ _))

theorem parts_poisonWord {w : Part → Bool} {s0 s : State} {a1 a2} (h : Fixes w s0 s) (hw : Covers [.sage] w) : Fixes w s0 (poisonWord s a1 a2) := by
  unfold poisonWord
  try dsimp only
  repeat' (first | with_reducible assumption | ((with_reducible refine Covers.of hw ?_) <;> rfl) | with_reducible apply parts_ite | with_reducible apply parts_ite_snd | split | with_reducible apply parts_mk | ((with_reducible refine Or.inl (Covers.has hw _ ?_)) <;> rfl) | with_reducible exact Or.inr rfl | with_reducible exact Or.inr ⟨rfl, rfl⟩ | with_reducible exact Or.inr ⟨rfl, rfl, rfl⟩ | with_reducible exact Or.inr ⟨rfl, rfl, rfl, rfl⟩ | with_reducible exact Or.inr ⟨rfl, rfl, rfl, rfl, rfl⟩ | (intro _ _ _; dsimp only) | (intro _ _ _))

theorem parts_execSramEccError {w : Part → Bool} {s0 s : State} {a0 a1 a2} (h : Fixes w s0 s) (hw : Covers [.aon, .force, .sess, .sage] w) : FixesOut w s0 (execSramEccError a0 a1 a2 s) := by
  unfold execSramEccError
  try dsimp only
  repeat' (first | with_reducible assumption | with_reducible apply parts_poisonWord | with_reducible apply parts_reportError | with_reducible apply parts_writeLog | with_reducible apply parts_next | exact parts_fault _ | ((with_reducible refine Covers.of hw ?_) <;> rfl) | with_reducible apply parts_ite | with_reducible apply parts_ite_snd | split | with_reducible apply parts_mk | ((with_reducible refine Or.inl (Covers.has hw _ ?_)) <;> rfl) | with_reducible exact Or.inr rfl | with_reducible exact Or.inr ⟨rfl, rfl⟩ | with_reducible exact Or.inr ⟨rfl, rfl, rfl⟩ | with_reducible exact Or.inr ⟨rfl, rfl, rfl, rfl⟩ | with_reducible exact Or.inr ⟨rfl, rfl, rfl, rfl, rfl⟩ | (intro _ _ _; dsimp only) | (intro _ _ _))

theorem parts_addSpare {w : Part → Bool} {s0 s : State} {a1} (h : Fixes w s0 s) (hw : Covers [.force, .sage] w) : Fixes w s0 (addSpare s a1) := by
  unfold addSpare
  try dsimp only
  repeat' (first | with_reducible assumption | with_reducible apply parts_bump | ((with_reducible refine Covers.of hw ?_) <;> rfl) | with_reducible apply parts_ite | with_reducible apply parts_ite_snd | split | with_reducible apply parts_mk | ((with_reducible refine Or.inl (Covers.has hw _ ?_)) <;> rfl) | with_reducible exact Or.inr rfl | with_reducible exact Or.inr ⟨rfl, rfl⟩ | with_reducible exact Or.inr ⟨rfl, rfl, rfl⟩ | with_reducible exact Or.inr ⟨rfl, rfl, rfl, rfl⟩ | with_reducible exact Or.inr ⟨rfl, rfl, rfl, rfl, rfl⟩ | (intro _ _ _; dsimp only) | (intro _ _ _))

theorem parts_mapSpare {w : Part → Bool} {s0 s : State} {a1} (h : Fixes w s0 s) (hw : Covers [.aon, .force, .sage] w) : Fixes w s0 (mapSpare s a1) := by
  unfold mapSpare
  try dsimp only
  repeat' (first | with_reducible assumption | with_reducible apply parts_addSpare | ((with_reducible refine Covers.of hw ?_) <;> rfl) | with_reducible apply parts_ite | with_reducible apply parts_ite_snd | split | with_reducible apply parts_mk | ((with_reducible refine Or.inl (Covers.has hw _ ?_)) <;> rfl) | with_reducible exact Or.inr rfl | with_reducible exact Or.inr ⟨rfl, rfl⟩ | with_reducible exact Or.inr ⟨rfl, rfl, rfl⟩ | with_reducible exact Or.inr ⟨rfl, rfl, rfl, rfl⟩ | with_reducible exact Or.inr ⟨rfl, rfl, rfl, rfl, rfl⟩ | (intro _ _ _; dsimp only) | (intro _ _ _))

theorem parts_addFailed {w : Part → Bool} {s0 s : State} {a1 a2} (h : Fixes w s0 s) (hw : Covers [.force, .sage] w) : Fixes w s0 (addFailed s a1 a2) := by
  unfold addFailed
  try dsimp only
  repeat' (first | with_reducible assumption | with_reducible apply parts_bump | ((with_reducible refine Covers.of hw ?_) <;> rfl) | with_reducible apply parts_ite | with_reducible apply parts_ite_snd | split | with_reducible apply parts_mk | ((with_reducible refine Or.inl (Covers.has hw _ ?_)) <;> rfl) | with_reducible exact Or.inr rfl | with_reducible exact Or.inr ⟨rfl, rfl⟩ | with_reducible exact Or.inr ⟨rfl, rfl, rfl⟩ | with_reducible exact Or.inr ⟨rfl, rfl, rfl, rfl⟩ | with_reducible exact Or.inr ⟨rfl, rfl, rfl, rfl, rfl⟩ | (intro _ _ _; dsimp only) | (intro _ _ _))

theorem parts_failRegion {w : Part → Bool} {s0 s : State} {a1 a2} (h : Fixes w s0 s) (hw : Covers [.aon, .force, .sage] w) : Fixes w s0 (failRegion s a1 a2) := by
  unfold failRegion
  try dsimp only
  repeat' (first | with_reducible assumption | with_reducible apply parts_addFailed | ((with_reducible refine Covers.of hw ?_) <;> rfl) | with_reducible apply parts_ite | with_reducible apply parts_ite_snd | split | with_reducible apply parts_mk | ((with_reducible refine Or.inl (Covers.has hw _ ?_)) <;> rfl) | with_reducible exact Or.inr rfl | with_reducible exact Or.inr ⟨rfl, rfl⟩ | with_reducible exact Or.inr ⟨rfl, rfl, rfl⟩ | with_reducible exact Or.inr ⟨rfl, rfl, rfl, rfl⟩ | with_reducible exact Or.inr ⟨rfl, rfl, rfl, rfl, rfl⟩ | (intro _ _ _; dsimp only) | (intro _ _ _))

theorem parts_sramTestDone {w : Part → Bool} {s0 s : State} {a1 a2 a3} (h : Fixes w s0 s) (hw : Covers [.aon, .force, .sess, .mem, .sage, .pair] w) : Fixes w s0 (sramTestDone s a1 a2 a3) := by
  unfold sramTestDone
  try dsimp only
  repeat' (first | with_reducible assumption | with_reducible apply parts_endTest | with_reducible apply parts_restoreRegion | with_reducible apply parts_fatal | with_reducible apply parts_writeLog | with_reducible apply parts_failRegion | with_reducible apply parts_mapSpare | with_reducible apply parts_raise | ((with_reducible refine Covers.of hw ?_) <;> rfl) | with_reducible apply parts_ite | with_reducible apply parts_ite_snd | split | with_reducible apply parts_mk | ((with_reducible refine Or.inl (Covers.has hw _ ?_)) <;> rfl) | with_reducible exact Or.inr rfl | with_reducible exact Or.inr ⟨rfl, rfl⟩ | with_reducible exact Or.inr ⟨rfl, rfl, rfl⟩ | with_reducible exact Or.inr ⟨rfl, rfl, rfl, rfl⟩ | with_reducible exact Or.inr ⟨rfl, rfl, rfl, rfl, rfl⟩ | (intro _ _ _; dsimp only) | (intro _ _ _))

theorem parts_execSramTestEnd {w : Part → Bool} {s0 s : State} {a0 a1 a2} (h : Fixes w s0 s) (hw : Covers [.aon, .force, .sess, .mem, .sage, .pair] w) : FixesOut w s0 (execSramTestEnd a0 a1 a2 s) := by
  unfold execSramTestEnd
  try dsimp only
  repeat' (first | with_reducible assumption | with_reducible apply parts_restoreRegion | with_reducible apply parts_sramTestDone | with_reducible apply parts_reportError | with_reducible apply parts_next | exact parts_fault _ | ((with_reducible refine Covers.of hw ?_) <;> rfl) | with_reducible apply parts_ite | with_reducible apply parts_ite_snd | split | with_reducible apply parts_mk | ((with_reducible refine Or.inl (Covers.has hw _ ?_)) <;> rfl) | with_reducible exact Or.inr rfl | with_reducible exact Or.inr ⟨rfl, rfl⟩ | with_reducible exact Or.inr ⟨rfl, rfl, rfl⟩ | with_reducible exact Or.inr ⟨rfl, rfl, rfl, rfl⟩ | with_reducible exact Or.inr ⟨rfl, rfl, rfl, rfl, rfl⟩ | (intro _ _ _; dsimp only) | (intro _ _ _))

theorem parts_laneError {w : Part → Bool} {s0 s : State} {a1 a2 a3 a4 a5} (h : Fixes w s0 s) (hw : Covers [.aon, .force, .sess, .sage] w) : Fixes w s0 (laneError s a1 a2 a3 a4 a5) := by
  unfold laneError
  try dsimp only
  repeat' (first | with_reducible assumption | with_reducible apply parts_reportError | ((with_reducible refine Covers.of hw ?_) <;> rfl) | with_reducible apply parts_ite | with_reducible apply parts_ite_snd | split | with_reducible apply parts_mk | ((with_reducible refine Or.inl (Covers.has hw _ ?_)) <;> rfl) | with_reducible exact Or.inr rfl | with_reducible exact Or.inr ⟨rfl, rfl⟩ | with_reducible exact Or.inr ⟨rfl, rfl, rfl⟩ | with_reducible exact Or.inr ⟨rfl, rfl, rfl, rfl⟩ | with_reducible exact Or.inr ⟨rfl, rfl, rfl, rfl, rfl⟩ | (intro _ _ _; dsimp only) | (intro _ _ _))

theorem parts_execLaneResidueError {w : Part → Bool} {s0 s : State} {a0 a1} (h : Fixes w s0 s) (hw : Covers [.aon, .force, .sess, .sage] w) : FixesOut w s0 (execLaneResidueError a0 a1 s) := by
  unfold execLaneResidueError
  try dsimp only
  repeat' (first | with_reducible assumption | with_reducible apply parts_laneError | with_reducible apply parts_next | exact parts_fault _ | ((with_reducible refine Covers.of hw ?_) <;> rfl) | with_reducible apply parts_ite | with_reducible apply parts_ite_snd | split | with_reducible apply parts_mk | ((with_reducible refine Or.inl (Covers.has hw _ ?_)) <;> rfl) | with_reducible exact Or.inr rfl | with_reducible exact Or.inr ⟨rfl, rfl⟩ | with_reducible exact Or.inr ⟨rfl, rfl, rfl⟩ | with_reducible exact Or.inr ⟨rfl, rfl, rfl, rfl⟩ | with_reducible exact Or.inr ⟨rfl, rfl, rfl, rfl, rfl⟩ | (intro _ _ _; dsimp only) | (intro _ _ _))

theorem parts_repeatSlot {w : Part → Bool} {s0 s : State} {a1 a2} (h : Fixes w s0 s) (hw : Covers [.audio] w) : Fixes w s0 (repeatSlot s a1 a2) := by
  unfold repeatSlot
  try dsimp only
  repeat' (first | with_reducible assumption | with_reducible apply parts_putSlot | ((with_reducible refine Covers.of hw ?_) <;> rfl) | with_reducible apply parts_ite | with_reducible apply parts_ite_snd | split | with_reducible apply parts_mk | ((with_reducible refine Or.inl (Covers.has hw _ ?_)) <;> rfl) | with_reducible exact Or.inr rfl | with_reducible exact Or.inr ⟨rfl, rfl⟩ | with_reducible exact Or.inr ⟨rfl, rfl, rfl⟩ | with_reducible exact Or.inr ⟨rfl, rfl, rfl, rfl⟩ | with_reducible exact Or.inr ⟨rfl, rfl, rfl, rfl, rfl⟩ | (intro _ _ _; dsimp only) | (intro _ _ _))

theorem parts_execLaneBudgetStop {w : Part → Bool} {s0 s : State} {a0 a1 a2} (h : Fixes w s0 s) (hw : Covers [.aon, .force, .sess, .audio, .lanes, .sage] w) : FixesOut w s0 (execLaneBudgetStop a0 a1 a2 s) := by
  unfold execLaneBudgetStop
  try dsimp only
  repeat' (first | with_reducible assumption | with_reducible apply parts_bump | with_reducible apply parts_repeatFrame | with_reducible apply parts_repeatSlot | with_reducible apply parts_setLane | with_reducible apply parts_laneError | with_reducible apply parts_next | exact parts_fault _ | with_reducible apply parts_foldl | with_reducible apply parts_foldl_fst | with_reducible apply parts_foldl_snd | ((with_reducible refine Covers.of hw ?_) <;> rfl) | with_reducible apply parts_ite | with_reducible apply parts_ite_snd | split | with_reducible apply parts_mk | ((with_reducible refine Or.inl (Covers.has hw _ ?_)) <;> rfl) | with_reducible exact Or.inr rfl | with_reducible exact Or.inr ⟨rfl, rfl⟩ | with_reducible exact Or.inr ⟨rfl, rfl, rfl⟩ | with_reducible exact Or.inr ⟨rfl, rfl, rfl, rfl⟩ | with_reducible exact Or.inr ⟨rfl, rfl, rfl, rfl, rfl⟩ | (intro _ _ _; dsimp only) | (intro _ _ _))

theorem parts_tileFaultDue {w : Part → Bool} {s0 s : State} {a1} (h : Fixes w s0 s) (hw : Covers [.sage] w) : Fixes w s0 (tileFaultDue s a1) := by
  unfold tileFaultDue
  try dsimp only
  repeat' (first | with_reducible assumption | ((with_reducible refine Covers.of hw ?_) <;> rfl) | with_reducible apply parts_ite | with_reducible apply parts_ite_snd | split | with_reducible apply parts_mk | ((with_reducible refine Or.inl (Covers.has hw _ ?_)) <;> rfl) | with_reducible exact Or.inr rfl | with_reducible exact Or.inr ⟨rfl, rfl⟩ | with_reducible exact Or.inr ⟨rfl, rfl, rfl⟩ | with_reducible exact Or.inr ⟨rfl, rfl, rfl, rfl⟩ | with_reducible exact Or.inr ⟨rfl, rfl, rfl, rfl, rfl⟩ | (intro _ _ _; dsimp only) | (intro _ _ _))

theorem parts_execKnownAnswerTestEnd {w : Part → Bool} {s0 s : State} {a0 a1 a2} (h : Fixes w s0 s) (hw : Covers [.aon, .force, .sess, .sage] w) : FixesOut w s0 (execKnownAnswerTestEnd a0 a1 a2 s) := by
  unfold execKnownAnswerTestEnd
  try dsimp only
  repeat' (first | with_reducible assumption | with_reducible apply parts_endTest | with_reducible apply parts_setN | with_reducible apply parts_writeLog | with_reducible apply parts_tileFaultDue | with_reducible apply parts_next | exact parts_fault _ | ((with_reducible refine Covers.of hw ?_) <;> rfl) | with_reducible apply parts_ite | with_reducible apply parts_ite_snd | split | with_reducible apply parts_mk | ((with_reducible refine Or.inl (Covers.has hw _ ?_)) <;> rfl) | with_reducible exact Or.inr rfl | with_reducible exact Or.inr ⟨rfl, rfl⟩ | with_reducible exact Or.inr ⟨rfl, rfl, rfl⟩ | with_reducible exact Or.inr ⟨rfl, rfl, rfl, rfl⟩ | with_reducible exact Or.inr ⟨rfl, rfl, rfl, rfl, rfl⟩ | (intro _ _ _; dsimp only) | (intro _ _ _))

theorem parts_execSparePipelineTest {w : Part → Bool} {s0 s : State} {a0 a1 a2} (h : Fixes w s0 s) (hw : Covers [.aon, .force, .sess, .sage] w) : FixesOut w s0 (execSparePipelineTest a0 a1 a2 s) := by
  unfold execSparePipelineTest
  try dsimp only
  repeat' (first | with_reducible assumption | with_reducible apply parts_setN | with_reducible apply parts_writeLog | with_reducible apply parts_next | exact parts_fault _ | ((with_reducible refine Covers.of hw ?_) <;> rfl) | with_reducible apply parts_ite | with_reducible apply parts_ite_snd | split | with_reducible apply parts_mk | ((with_reducible refine Or.inl (Covers.has hw _ ?_)) <;> rfl) | with_reducible exact Or.inr rfl | with_reducible exact Or.inr ⟨rfl, rfl⟩ | with_reducible exact Or.inr ⟨rfl, rfl, rfl⟩ | with_reducible exact Or.inr ⟨rfl, rfl, rfl, rfl⟩ | with_reducible exact Or.inr ⟨rfl, rfl, rfl, rfl, rfl⟩ | (intro _ _ _; dsimp only) | (intro _ _ _))

theorem parts_moveLanes {w : Part → Bool} {s0 s : State} {a1} (h : Fixes w s0 s) (hw : Covers [.force, .sage] w) : Fixes w s0 (moveLanes s a1) := by
  unfold moveLanes
  try dsimp only
  repeat' (first | with_reducible assumption | with_reducible apply parts_setN | with_reducible apply parts_foldl | with_reducible apply parts_foldl_fst | with_reducible apply parts_foldl_snd | ((with_reducible refine Covers.of hw ?_) <;> rfl) | with_reducible apply parts_ite | with_reducible apply parts_ite_snd | split | with_reducible apply parts_mk | ((with_reducible refine Or.inl (Covers.has hw _ ?_)) <;> rfl) | with_reducible exact Or.inr rfl | with_reducible exact Or.inr ⟨rfl, rfl⟩ | with_reducible exact Or.inr ⟨rfl, rfl, rfl⟩ | with_reducible exact Or.inr ⟨rfl, rfl, rfl, rfl⟩ | with_reducible exact Or.inr ⟨rfl, rfl, rfl, rfl, rfl⟩ | (intro _ _ _; dsimp only) | (intro _ _ _))

theorem parts_execCrosspointResidueError {w : Part → Bool} {s0 s : State} {a0 a1} (h : Fixes w s0 s) (hw : Covers [.aon, .force, .sess, .sage] w) : FixesOut w s0 (execCrosspointResidueError a0 a1 s) := by
  unfold execCrosspointResidueError
  try dsimp only
  repeat' (first | with_reducible assumption | with_reducible apply parts_reportError | with_reducible apply parts_next | exact parts_fault _ | ((with_reducible refine Covers.of hw ?_) <;> rfl) | with_reducible apply parts_ite | with_reducible apply parts_ite_snd | split | with_reducible apply parts_mk | ((with_reducible refine Or.inl (Covers.has hw _ ?_)) <;> rfl) | with_reducible exact Or.inr rfl | with_reducible exact Or.inr ⟨rfl, rfl⟩ | with_reducible exact Or.inr ⟨rfl, rfl, rfl⟩ | with_reducible exact Or.inr ⟨rfl, rfl, rfl, rfl⟩ | with_reducible exact Or.inr ⟨rfl, rfl, rfl, rfl, rfl⟩ | (intro _ _ _; dsimp only) | (intro _ _ _))

theorem parts_execCrosspointTestEnd {w : Part → Bool} {s0 s : State} {a0 a1} (h : Fixes w s0 s) (hw : Covers [.aon, .force, .sess, .sage, .pair] w) : FixesOut w s0 (execCrosspointTestEnd a0 a1 s) := by
  unfold execCrosspointTestEnd
  try dsimp only
  repeat' (first | with_reducible assumption | with_reducible apply parts_endTest | with_reducible apply parts_fatal | with_reducible apply parts_writeLog | with_reducible apply parts_next | exact parts_fault _ | ((with_reducible refine Covers.of hw ?_) <;> rfl) | with_reducible apply parts_ite | with_reducible apply parts_ite_snd | split | with_reducible apply parts_mk | ((with_reducible refine Or.inl (Covers.has hw _ ?_)) <;> rfl) | with_reducible exact Or.inr rfl | with_reducible exact Or.inr ⟨rfl, rfl⟩ | with_reducible exact Or.inr ⟨rfl, rfl, rfl⟩ | with_reducible exact Or.inr ⟨rfl, rfl, rfl, rfl⟩ | with_reducible exact Or.inr ⟨rfl, rfl, rfl, rfl, rfl⟩ | (intro _ _ _; dsimp only) | (intro _ _ _))

theorem parts_retireMacs {w : Part → Bool} {s0 s : State} (h : Fixes w s0 s) (hw : Covers [.force, .sage] w) : Fixes w s0 (retireMacs s) := by
  unfold retireMacs
  try dsimp only
  repeat' (first | with_reducible assumption | with_reducible apply parts_setN | ((with_reducible refine Covers.of hw ?_) <;> rfl) | with_reducible apply parts_ite | with_reducible apply parts_ite_snd | split | with_reducible apply parts_mk | ((with_reducible refine Or.inl (Covers.has hw _ ?_)) <;> rfl) | with_reducible exact Or.inr rfl | with_reducible exact Or.inr ⟨rfl, rfl⟩ | with_reducible exact Or.inr ⟨rfl, rfl, rfl⟩ | with_reducible exact Or.inr ⟨rfl, rfl, rfl, rfl⟩ | with_reducible exact Or.inr ⟨rfl, rfl, rfl, rfl, rfl⟩ | (intro _ _ _; dsimp only) | (intro _ _ _))

theorem parts_execLockstepMismatch {w : Part → Bool} {s0 s : State} {a0} (h : Fixes w s0 s) (hw : Covers [.aon, .force, .sess, .sage, .pair] w) : FixesOut w s0 (execLockstepMismatch a0 s) := by
  unfold execLockstepMismatch
  try dsimp only
  repeat' (first | with_reducible assumption | with_reducible apply parts_fatal | with_reducible apply parts_next | exact parts_fault _ | ((with_reducible refine Covers.of hw ?_) <;> rfl) | with_reducible apply parts_ite | with_reducible apply parts_ite_snd | split | with_reducible apply parts_mk | ((with_reducible refine Or.inl (Covers.has hw _ ?_)) <;> rfl) | with_reducible exact Or.inr rfl | with_reducible exact Or.inr ⟨rfl, rfl⟩ | with_reducible exact Or.inr ⟨rfl, rfl, rfl⟩ | with_reducible exact Or.inr ⟨rfl, rfl, rfl, rfl⟩ | with_reducible exact Or.inr ⟨rfl, rfl, rfl, rfl, rfl⟩ | (intro _ _ _; dsimp only) | (intro _ _ _))

theorem parts_execFullTestDone {w : Part → Bool} {s0 s : State} {a0} (h : Fixes w s0 s) (hw : Covers [.force] w) : FixesOut w s0 (execFullTestDone a0 s) := by
  unfold execFullTestDone
  try dsimp only
  repeat' (first | with_reducible assumption | with_reducible apply parts_setN | with_reducible apply parts_next | exact parts_fault _ | ((with_reducible refine Covers.of hw ?_) <;> rfl) | with_reducible apply parts_ite | with_reducible apply parts_ite_snd | split | with_reducible apply parts_mk | ((with_reducible refine Or.inl (Covers.has hw _ ?_)) <;> rfl) | with_reducible exact Or.inr rfl | with_reducible exact Or.inr ⟨rfl, rfl⟩ | with_reducible exact Or.inr ⟨rfl, rfl, rfl⟩ | with_reducible exact Or.inr ⟨rfl, rfl, rfl, rfl⟩ | with_reducible exact Or.inr ⟨rfl, rfl, rfl, rfl, rfl⟩ | (intro _ _ _; dsimp only) | (intro _ _ _))

theorem parts_execJtagInstructionLoad {w : Part → Bool} {s0 s : State} {a0} (h : Fixes w s0 s) (hw : Covers [.aon, .force, .sess, .sage, .pair, .pins] w) : FixesOut w s0 (execJtagInstructionLoad a0 s) := by
  unfold execJtagInstructionLoad
  try dsimp only
  repeat' (first | with_reducible assumption | with_reducible apply parts_fatal | with_reducible apply parts_next | exact parts_fault _ | ((with_reducible refine Covers.of hw ?_) <;> rfl) | with_reducible apply parts_ite | with_reducible apply parts_ite_snd | split | with_reducible apply parts_mk | ((with_reducible refine Or.inl (Covers.has hw _ ?_)) <;> rfl) | with_reducible exact Or.inr rfl | with_reducible exact Or.inr ⟨rfl, rfl⟩ | with_reducible exact Or.inr ⟨rfl, rfl, rfl⟩ | with_reducible exact Or.inr ⟨rfl, rfl, rfl, rfl⟩ | with_reducible exact Or.inr ⟨rfl, rfl, rfl, rfl, rfl⟩ | (intro _ _ _; dsimp only) | (intro _ _ _))

theorem parts_execDieTempUpdate {w : Part → Bool} {s0 s : State} {a0} (h : Fixes w s0 s) (hw : Covers [.force, .sess, .pins] w) : FixesOut w s0 (execDieTempUpdate a0 s) := by
  unfold execDieTempUpdate
  try dsimp only
  repeat' (first | with_reducible assumption | with_reducible apply parts_setN | with_reducible apply parts_raise | with_reducible apply parts_next | exact parts_fault _ | ((with_reducible refine Covers.of hw ?_) <;> rfl) | with_reducible apply parts_ite | with_reducible apply parts_ite_snd | split | with_reducible apply parts_mk | ((with_reducible refine Or.inl (Covers.has hw _ ?_)) <;> rfl) | with_reducible exact Or.inr rfl | with_reducible exact Or.inr ⟨rfl, rfl⟩ | with_reducible exact Or.inr ⟨rfl, rfl, rfl⟩ | with_reducible exact Or.inr ⟨rfl, rfl, rfl, rfl⟩ | with_reducible exact Or.inr ⟨rfl, rfl, rfl, rfl, rfl⟩ | (intro _ _ _; dsimp only) | (intro _ _ _))

end Sys2Proof.Machine
end

