-- ==== Sys2Proof/Laws/PartsModes.lean ====
section
/-!
SUPPORT. Laws/PartsModes.lean: the operations of Machine/Modes.lean change only the parts of the state named (Laws/Parts.lean).
-/
-- One declaration at a time and no linter: the package is compiled as one text under a memory limit.
set_option linter.all false
set_option Elab.async false
namespace Sys2Proof.Machine

theorem parts_setTrans {w : Part → Bool} {s0 s : State} {a1} (h : Fixes w s0 s) (hw : Covers [.force] w) : Fixes w s0 (setTrans s a1) := by
  unfold setTrans
  try dsimp only
  repeat' (first | with_reducible assumption | with_reducible apply parts_setN | ((with_reducible refine Covers.of hw ?_) <;> rfl) | with_reducible apply parts_ite | with_reducible apply parts_ite_snd | split | with_reducible apply parts_mk | ((with_reducible refine Or.inl (Covers.has hw _ ?_)) <;> rfl) | with_reducible exact Or.inr rfl | with_reducible exact Or.inr ⟨rfl, rfl⟩ | with_reducible exact Or.inr ⟨rfl, rfl, rfl⟩ | with_reducible exact Or.inr ⟨rfl, rfl, rfl, rfl⟩ | with_reducible exact Or.inr ⟨rfl, rfl, rfl, rfl, rfl⟩ | (intro _ _ _; dsimp only) | (intro _ _ _))

theorem parts_withConf {w : Part → Bool} {s0 s : State} {a1} (h : Fixes w s0 s) (hw : Covers [.force] w) : Fixes w s0 (withConf s a1) := by
  unfold withConf
  try dsimp only
  repeat' (first | with_reducible assumption | with_reducible apply parts_setF | with_reducible apply parts_foldl | with_reducible apply parts_foldl_fst | with_reducible apply parts_foldl_snd | ((with_reducible refine Covers.of hw ?_) <;> rfl) | with_reducible apply parts_ite | with_reducible apply parts_ite_snd | split | with_reducible apply parts_mk | ((with_reducible refine Or.inl (Covers.has hw _ ?_)) <;> rfl) | with_reducible exact Or.inr rfl | with_reducible exact Or.inr ⟨rfl, rfl⟩ | with_reducible exact Or.inr ⟨rfl, rfl, rfl⟩ | with_reducible exact Or.inr ⟨rfl, rfl, rfl, rfl⟩ | with_reducible exact Or.inr ⟨rfl, rfl, rfl, rfl, rfl⟩ | (intro _ _ _; dsimp only) | (intro _ _ _))

theorem parts_inMode {w : Part → Bool} {s0 s : State} {a1 a2} (h : Fixes w s0 s) (hw : Covers [.force, .pair] w) : Fixes w s0 (inMode s a1 a2) := by
  unfold inMode
  try dsimp only
  repeat' (first | with_reducible assumption | with_reducible apply parts_setN | ((with_reducible refine Covers.of hw ?_) <;> rfl) | with_reducible apply parts_ite | with_reducible apply parts_ite_snd | split | with_reducible apply parts_mk | ((with_reducible refine Or.inl (Covers.has hw _ ?_)) <;> rfl) | with_reducible exact Or.inr rfl | with_reducible exact Or.inr ⟨rfl, rfl⟩ | with_reducible exact Or.inr ⟨rfl, rfl, rfl⟩ | with_reducible exact Or.inr ⟨rfl, rfl, rfl, rfl⟩ | with_reducible exact Or.inr ⟨rfl, rfl, rfl, rfl, rfl⟩ | (intro _ _ _; dsimp only) | (intro _ _ _))

theorem parts_scaleCounts {w : Part → Bool} {s0 s : State} {a} (h : Fixes w s0 s) (hw : Covers [.force] w) : Fixes w s0 (scaleCounts a s) := by
  unfold scaleCounts
  apply parts_foldl
  · intro t o ht
    exact parts_ite ht (parts_setN ht (hw.of rfl))
  · exact h

theorem parts_suspendRefs {w : Part → Bool} {s0 s : State} (h : Fixes w s0 s) (hw : Covers [.mode] w) : Fixes w s0 (suspendRefs s) := by
  unfold suspendRefs
  try dsimp only
  repeat' (first | with_reducible assumption | ((with_reducible refine Covers.of hw ?_) <;> rfl) | with_reducible apply parts_ite | with_reducible apply parts_ite_snd | split | with_reducible apply parts_mk | ((with_reducible refine Or.inl (Covers.has hw _ ?_)) <;> rfl) | with_reducible exact Or.inr rfl | with_reducible exact Or.inr ⟨rfl, rfl⟩ | with_reducible exact Or.inr ⟨rfl, rfl, rfl⟩ | with_reducible exact Or.inr ⟨rfl, rfl, rfl, rfl⟩ | with_reducible exact Or.inr ⟨rfl, rfl, rfl, rfl, rfl⟩ | (intro _ _ _; dsimp only) | (intro _ _ _))

theorem parts_placeAgain {w : Part → Bool} {s0 s : State} (h : Fixes w s0 s) (hw : Covers [.force, .mode] w) : Fixes w s0 (placeAgain s) := by
  unfold placeAgain
  try dsimp only
  repeat' (first | with_reducible assumption | with_reducible apply parts_revive | with_reducible apply parts_setN | with_reducible apply parts_foldl | with_reducible apply parts_foldl_fst | with_reducible apply parts_foldl_snd | ((with_reducible refine Covers.of hw ?_) <;> rfl) | with_reducible apply parts_ite | with_reducible apply parts_ite_snd | split | with_reducible apply parts_mk | ((with_reducible refine Or.inl (Covers.has hw _ ?_)) <;> rfl) | with_reducible exact Or.inr rfl | with_reducible exact Or.inr ⟨rfl, rfl⟩ | with_reducible exact Or.inr ⟨rfl, rfl, rfl⟩ | with_reducible exact Or.inr ⟨rfl, rfl, rfl, rfl⟩ | with_reducible exact Or.inr ⟨rfl, rfl, rfl, rfl, rfl⟩ | (intro _ _ _; dsimp only) | (intro _ _ _))

theorem parts_noLookahead {w : Part → Bool} {s0 s : State} (h : Fixes w s0 s) (hw : Covers [.force] w) : Fixes w s0 (noLookahead s) := by
  unfold noLookahead
  try dsimp only
  repeat' (first | with_reducible assumption | with_reducible apply parts_setN | with_reducible apply parts_foldl | with_reducible apply parts_foldl_fst | with_reducible apply parts_foldl_snd | ((with_reducible refine Covers.of hw ?_) <;> rfl) | with_reducible apply parts_ite | with_reducible apply parts_ite_snd | split | with_reducible apply parts_mk | ((with_reducible refine Or.inl (Covers.has hw _ ?_)) <;> rfl) | with_reducible exact Or.inr rfl | with_reducible exact Or.inr ⟨rfl, rfl⟩ | with_reducible exact Or.inr ⟨rfl, rfl, rfl⟩ | with_reducible exact Or.inr ⟨rfl, rfl, rfl, rfl⟩ | with_reducible exact Or.inr ⟨rfl, rfl, rfl, rfl, rfl⟩ | (intro _ _ _; dsimp only) | (intro _ _ _))

theorem parts_adapt {w : Part → Bool} {s0 s : State} {a1 a2} (h : Fixes w s0 s) (hw : Covers [.force, .mode, .ctxs, .pair] w) : Fixes w s0 (adapt s a1 a2).1 := by
  unfold adapt
  try dsimp only
  repeat' (first | with_reducible assumption | with_reducible apply parts_scaleCounts | with_reducible apply parts_placeAgain | with_reducible apply parts_giveSignals | with_reducible apply parts_noLookahead | with_reducible apply parts_withConf | with_reducible apply parts_inMode | with_reducible apply parts_suspendRefs | ((with_reducible refine Covers.of hw ?_) <;> rfl) | with_reducible apply parts_ite | with_reducible apply parts_ite_snd | split | with_reducible apply parts_mk | ((with_reducible refine Or.inl (Covers.has hw _ ?_)) <;> rfl) | with_reducible exact Or.inr rfl | with_reducible exact Or.inr ⟨rfl, rfl⟩ | with_reducible exact Or.inr ⟨rfl, rfl, rfl⟩ | with_reducible exact Or.inr ⟨rfl, rfl, rfl, rfl⟩ | with_reducible exact Or.inr ⟨rfl, rfl, rfl, rfl, rfl⟩ | (intro _ _ _; dsimp only) | (intro _ _ _))

theorem parts_initServes {w : Part → Bool} {s0 s : State} (h : Fixes w s0 s) (hw : Covers [.force] w) : Fixes w s0 (initServes s) := by
  unfold initServes
  try dsimp only
  repeat' (first | with_reducible assumption | with_reducible apply parts_serveUnit | with_reducible apply parts_setF | with_reducible apply parts_foldl | with_reducible apply parts_foldl_fst | with_reducible apply parts_foldl_snd | ((with_reducible refine Covers.of hw ?_) <;> rfl) | with_reducible apply parts_ite | with_reducible apply parts_ite_snd | split | with_reducible apply parts_mk | ((with_reducible refine Or.inl (Covers.has hw _ ?_)) <;> rfl) | with_reducible exact Or.inr rfl | with_reducible exact Or.inr ⟨rfl, rfl⟩ | with_reducible exact Or.inr ⟨rfl, rfl, rfl⟩ | with_reducible exact Or.inr ⟨rfl, rfl, rfl, rfl⟩ | with_reducible exact Or.inr ⟨rfl, rfl, rfl, rfl, rfl⟩ | (intro _ _ _; dsimp only) | (intro _ _ _))

theorem parts_initOutlets {w : Part → Bool} {s0 s : State} (h : Fixes w s0 s) (hw : Covers [.audio] w) : Fixes w s0 (initOutlets s) := by
  unfold initOutlets
  try dsimp only
  repeat' (first | with_reducible assumption | with_reducible apply parts_setOutlet | with_reducible apply parts_foldl | with_reducible apply parts_foldl_fst | with_reducible apply parts_foldl_snd | ((with_reducible refine Covers.of hw ?_) <;> rfl) | with_reducible apply parts_ite | with_reducible apply parts_ite_snd | split | with_reducible apply parts_mk | ((with_reducible refine Or.inl (Covers.has hw _ ?_)) <;> rfl) | with_reducible exact Or.inr rfl | with_reducible exact Or.inr ⟨rfl, rfl⟩ | with_reducible exact Or.inr ⟨rfl, rfl, rfl⟩ | with_reducible exact Or.inr ⟨rfl, rfl, rfl, rfl⟩ | with_reducible exact Or.inr ⟨rfl, rfl, rfl, rfl, rfl⟩ | (intro _ _ _; dsimp only) | (intro _ _ _))

theorem parts_initBudgets {w : Part → Bool} {s0 s : State} (h : Fixes w s0 s) (hw : Covers [.budget] w) : Fixes w s0 (initBudgets s) := by
  unfold initBudgets
  try dsimp only
  repeat' (first | with_reducible assumption | with_reducible apply parts_setBudget | with_reducible apply parts_foldl | with_reducible apply parts_foldl_fst | with_reducible apply parts_foldl_snd | ((with_reducible refine Covers.of hw ?_) <;> rfl) | with_reducible apply parts_ite | with_reducible apply parts_ite_snd | split | with_reducible apply parts_mk | ((with_reducible refine Or.inl (Covers.has hw _ ?_)) <;> rfl) | with_reducible exact Or.inr rfl | with_reducible exact Or.inr ⟨rfl, rfl⟩ | with_reducible exact Or.inr ⟨rfl, rfl, rfl⟩ | with_reducible exact Or.inr ⟨rfl, rfl, rfl, rfl⟩ | with_reducible exact Or.inr ⟨rfl, rfl, rfl, rfl, rfl⟩ | (intro _ _ _; dsimp only) | (intro _ _ _))

theorem parts_initAudio {w : Part → Bool} {s0 s : State} (h : Fixes w s0 s) (hw : Covers [.force, .landing, .audio, .lanes, .iram, .budget, .trans, .mem, .sage] w) : Fixes w s0 (initAudio s) := by
  unfold initAudio
  try dsimp only
  repeat' (first | with_reducible assumption | with_reducible apply parts_initBudgets | with_reducible apply parts_loadImages | with_reducible apply parts_startTile | with_reducible apply parts_setN | with_reducible apply parts_initServes | with_reducible apply parts_initOutlets | with_reducible apply parts_keepImages | with_reducible apply parts_foldl | with_reducible apply parts_foldl_fst | with_reducible apply parts_foldl_snd | ((with_reducible refine Covers.of hw ?_) <;> rfl) | with_reducible apply parts_ite | with_reducible apply parts_ite_snd | split | with_reducible apply parts_mk | ((with_reducible refine Or.inl (Covers.has hw _ ?_)) <;> rfl) | with_reducible exact Or.inr rfl | with_reducible exact Or.inr ⟨rfl, rfl⟩ | with_reducible exact Or.inr ⟨rfl, rfl, rfl⟩ | with_reducible exact Or.inr ⟨rfl, rfl, rfl, rfl⟩ | with_reducible exact Or.inr ⟨rfl, rfl, rfl, rfl, rfl⟩ | (intro _ _ _; dsimp only) | (intro _ _ _))

theorem parts_forceOff {w : Part → Bool} {s0 s : State} {a1} (h : Fixes w s0 s) (hw : Covers [.free, .force, .sess, .doms, .life, .rings, .net, .ctxs, .tdm, .audio, .mem, .sage, .pair, .pins] w) : Fixes w s0 (forceOff s a1) := by
  unfold forceOff
  try dsimp only
  repeat' (first | with_reducible assumption | with_reducible apply parts_setLife | with_reducible apply parts_unitEntered | with_reducible apply parts_moveUnit | ((with_reducible refine Covers.of hw ?_) <;> rfl) | with_reducible apply parts_ite | with_reducible apply parts_ite_snd | split | with_reducible apply parts_mk | ((with_reducible refine Or.inl (Covers.has hw _ ?_)) <;> rfl) | with_reducible exact Or.inr rfl | with_reducible exact Or.inr ⟨rfl, rfl⟩ | with_reducible exact Or.inr ⟨rfl, rfl, rfl⟩ | with_reducible exact Or.inr ⟨rfl, rfl, rfl, rfl⟩ | with_reducible exact Or.inr ⟨rfl, rfl, rfl, rfl, rfl⟩ | (intro _ _ _; dsimp only) | (intro _ _ _))

theorem parts_resumeUnit {w : Part → Bool} {s0 s : State} {a1} (h : Fixes w s0 s) (hw : Covers [.free, .force, .sess, .doms, .life, .rings, .net, .ctxs, .tdm, .audio, .mem, .sage, .pair, .pins] w) : Fixes w s0 (resumeUnit s a1) := by
  unfold resumeUnit
  try dsimp only
  repeat' (first | with_reducible assumption | with_reducible apply parts_forceOff | with_reducible apply parts_bridgeEntered | with_reducible apply parts_request | with_reducible apply parts_setRing | with_reducible apply parts_restartPort | with_reducible apply parts_moveUnit | with_reducible apply parts_captureEntered | ((with_reducible refine Covers.of hw ?_) <;> rfl) | with_reducible apply parts_ite | with_reducible apply parts_ite_snd | split | with_reducible apply parts_mk | ((with_reducible refine Or.inl (Covers.has hw _ ?_)) <;> rfl) | with_reducible exact Or.inr rfl | with_reducible exact Or.inr ⟨rfl, rfl⟩ | with_reducible exact Or.inr ⟨rfl, rfl, rfl⟩ | with_reducible exact Or.inr ⟨rfl, rfl, rfl, rfl⟩ | with_reducible exact Or.inr ⟨rfl, rfl, rfl, rfl, rfl⟩ | (intro _ _ _; dsimp only) | (intro _ _ _))

theorem parts_resumeUnits {w : Part → Bool} {s0 s : State} (h : Fixes w s0 s) (hw : Covers [.free, .force, .sess, .doms, .life, .rings, .net, .ctxs, .tdm, .audio, .mem, .sage, .pair, .pins] w) : Fixes w s0 (resumeUnits s) := by
  unfold resumeUnits
  try dsimp only
  repeat' (first | with_reducible assumption | with_reducible apply parts_resumeUnit | with_reducible apply parts_request | with_reducible apply parts_foldl | with_reducible apply parts_foldl_fst | with_reducible apply parts_foldl_snd | ((with_reducible refine Covers.of hw ?_) <;> rfl) | with_reducible apply parts_ite | with_reducible apply parts_ite_snd | split | with_reducible apply parts_mk | ((with_reducible refine Or.inl (Covers.has hw _ ?_)) <;> rfl) | with_reducible exact Or.inr rfl | with_reducible exact Or.inr ⟨rfl, rfl⟩ | with_reducible exact Or.inr ⟨rfl, rfl, rfl⟩ | with_reducible exact Or.inr ⟨rfl, rfl, rfl, rfl⟩ | with_reducible exact Or.inr ⟨rfl, rfl, rfl, rfl, rfl⟩ | (intro _ _ _; dsimp only) | (intro _ _ _))

theorem parts_startTransition {w : Part → Bool} {s0 s : State} {a1 a2} (h : Fixes w s0 s) (hw : Covers [.force, .mode, .pair] w) : Fixes w s0 (startTransition s a1 a2) := by
  unfold startTransition
  try dsimp only
  repeat' (first | with_reducible assumption | with_reducible apply parts_formRecord | with_reducible apply parts_setTrans | ((with_reducible refine Covers.of hw ?_) <;> rfl) | with_reducible apply parts_ite | with_reducible apply parts_ite_snd | split | with_reducible apply parts_mk | ((with_reducible refine Or.inl (Covers.has hw _ ?_)) <;> rfl) | with_reducible exact Or.inr rfl | with_reducible exact Or.inr ⟨rfl, rfl⟩ | with_reducible exact Or.inr ⟨rfl, rfl, rfl⟩ | with_reducible exact Or.inr ⟨rfl, rfl, rfl, rfl⟩ | with_reducible exact Or.inr ⟨rfl, rfl, rfl, rfl, rfl⟩ | (intro _ _ _; dsimp only) | (intro _ _ _))

theorem parts_leavePair {w : Part → Bool} {s0 s : State} (h : Fixes w s0 s) (hw : Covers [.free, .force, .sess, .doms, .pair, .pins] w) : Fixes w s0 (leavePair s) := by
  unfold leavePair
  try dsimp only
  repeat' (first | with_reducible assumption | with_reducible apply parts_sendNotice | with_reducible apply parts_setRole | with_reducible apply parts_linkLost | ((with_reducible refine Covers.of hw ?_) <;> rfl) | with_reducible apply parts_ite | with_reducible apply parts_ite_snd | split | with_reducible apply parts_mk | ((with_reducible refine Or.inl (Covers.has hw _ ?_)) <;> rfl) | with_reducible exact Or.inr rfl | with_reducible exact Or.inr ⟨rfl, rfl⟩ | with_reducible exact Or.inr ⟨rfl, rfl, rfl⟩ | with_reducible exact Or.inr ⟨rfl, rfl, rfl, rfl⟩ | with_reducible exact Or.inr ⟨rfl, rfl, rfl, rfl, rfl⟩ | (intro _ _ _; dsimp only) | (intro _ _ _))

theorem parts_doReqMode {w : Part → Bool} {s0 s : State} {a1 a2 a3} (h : Fixes w s0 s) (hw : Covers [.free, .force, .sess, .mode, .doms, .pair, .pins] w) : Fixes w s0 (doReqMode s a1 a2 a3).2 := by
  unfold doReqMode
  try dsimp only
  repeat' (first | with_reducible assumption | with_reducible apply parts_startTransition | with_reducible apply parts_leavePair | ((with_reducible refine Covers.of hw ?_) <;> rfl) | with_reducible apply parts_ite | with_reducible apply parts_ite_snd | split | with_reducible apply parts_mk | ((with_reducible refine Or.inl (Covers.has hw _ ?_)) <;> rfl) | with_reducible exact Or.inr rfl | with_reducible exact Or.inr ⟨rfl, rfl⟩ | with_reducible exact Or.inr ⟨rfl, rfl, rfl⟩ | with_reducible exact Or.inr ⟨rfl, rfl, rfl, rfl⟩ | with_reducible exact Or.inr ⟨rfl, rfl, rfl, rfl, rfl⟩ | (intro _ _ _; dsimp only) | (intro _ _ _))

theorem parts_dropStaged {w : Part → Bool} {s0 s : State} (h : Fixes w s0 s) (hw : Covers [.force, .bank, .landing, .commit, .trans] w) : Fixes w s0 (dropStaged s) := by
  unfold dropStaged
  try dsimp only
  repeat' (first | with_reducible assumption | with_reducible apply parts_emptyBank | with_reducible apply parts_setN | with_reducible apply parts_setCommitState | ((with_reducible refine Covers.of hw ?_) <;> rfl) | with_reducible apply parts_ite | with_reducible apply parts_ite_snd | split | with_reducible apply parts_mk | ((with_reducible refine Or.inl (Covers.has hw _ ?_)) <;> rfl) | with_reducible exact Or.inr rfl | with_reducible exact Or.inr ⟨rfl, rfl⟩ | with_reducible exact Or.inr ⟨rfl, rfl, rfl⟩ | with_reducible exact Or.inr ⟨rfl, rfl, rfl, rfl⟩ | with_reducible exact Or.inr ⟨rfl, rfl, rfl, rfl, rfl⟩ | (intro _ _ _; dsimp only) | (intro _ _ _))

theorem parts_serviceByRole {w : Part → Bool} {s0 s : State} (h : Fixes w s0 s) (hw : Covers [.force, .bank, .landing, .sess, .commit, .mode, .trans, .pair] w) : Fixes w s0 (serviceByRole s) := by
  unfold serviceByRole
  try dsimp only
  repeat' (first | with_reducible assumption | with_reducible apply parts_setSync | with_reducible apply parts_dropStaged | with_reducible apply parts_setRole | with_reducible apply parts_startTransition | ((with_reducible refine Covers.of hw ?_) <;> rfl) | with_reducible apply parts_ite | with_reducible apply parts_ite_snd | split | with_reducible apply parts_mk | ((with_reducible refine Or.inl (Covers.has hw _ ?_)) <;> rfl) | with_reducible exact Or.inr rfl | with_reducible exact Or.inr ⟨rfl, rfl⟩ | with_reducible exact Or.inr ⟨rfl, rfl, rfl⟩ | with_reducible exact Or.inr ⟨rfl, rfl, rfl, rfl⟩ | with_reducible exact Or.inr ⟨rfl, rfl, rfl, rfl, rfl⟩ | (intro _ _ _; dsimp only) | (intro _ _ _))

theorem parts_failTransition {w : Part → Bool} {s0 s : State} {a1} (h : Fixes w s0 s) (hw : Covers [.force, .sess] w) : Fixes w s0 (failTransition s a1) := by
  unfold failTransition
  try dsimp only
  repeat' (first | with_reducible assumption | with_reducible apply parts_setTrans | with_reducible apply parts_setN | with_reducible apply parts_raise | ((with_reducible refine Covers.of hw ?_) <;> rfl) | with_reducible apply parts_ite | with_reducible apply parts_ite_snd | split | with_reducible apply parts_mk | ((with_reducible refine Or.inl (Covers.has hw _ ?_)) <;> rfl) | with_reducible exact Or.inr rfl | with_reducible exact Or.inr ⟨rfl, rfl⟩ | with_reducible exact Or.inr ⟨rfl, rfl, rfl⟩ | with_reducible exact Or.inr ⟨rfl, rfl, rfl, rfl⟩ | with_reducible exact Or.inr ⟨rfl, rfl, rfl, rfl, rfl⟩ | (intro _ _ _; dsimp only) | (intro _ _ _))

theorem parts_startFadeOut {w : Part → Bool} {s0 s : State} (h : Fixes w s0 s) (hw : Covers [.force, .mode] w) : Fixes w s0 (startFadeOut s) := by
  unfold startFadeOut
  try dsimp only
  repeat' (first | with_reducible assumption | with_reducible apply parts_setTrans | ((with_reducible refine Covers.of hw ?_) <;> rfl) | with_reducible apply parts_ite | with_reducible apply parts_ite_snd | split | with_reducible apply parts_mk | ((with_reducible refine Or.inl (Covers.has hw _ ?_)) <;> rfl) | with_reducible exact Or.inr rfl | with_reducible exact Or.inr ⟨rfl, rfl⟩ | with_reducible exact Or.inr ⟨rfl, rfl, rfl⟩ | with_reducible exact Or.inr ⟨rfl, rfl, rfl, rfl⟩ | with_reducible exact Or.inr ⟨rfl, rfl, rfl, rfl, rfl⟩ | (intro _ _ _; dsimp only) | (intro _ _ _))

theorem parts_endModeValidation {w : Part → Bool} {s0 s : State} (h : Fixes w s0 s) (hw : Covers [.force, .sess, .mode, .ctxs, .pair] w) : Fixes w s0 (endModeValidation s) := by
  unfold endModeValidation
  split
  · exact h
  · split
    · exact parts_startFadeOut h (hw.of rfl)
    · have hv := parts_validate (a1 := (adapt s s.mode.target s.mode.rate).1) (a2 := (adapt s s.mode.target s.mode.rate).2) h (hw.of rfl)
      dsimp only
      split
      · next hq => rw [hq] at hv; exact parts_failTransition hv (hw.of rfl)
      · next hq => rw [hq] at hv; exact parts_startFadeOut hv (hw.of rfl)

theorem parts_execModeValidationEnd {w : Part → Bool} {s0 s : State} (h : Fixes w s0 s) (hw : Covers [.force, .sess, .mode, .ctxs, .pair] w) : FixesOut w s0 (execModeValidationEnd s) :=
  parts_next (parts_endModeValidation h hw)

theorem parts_armFade {w : Part → Bool} {s0 s : State} (h : Fixes w s0 s) (hw : Covers [.mode, .audio] w) : Fixes w s0 (armFade s) := by
  unfold armFade
  try dsimp only
  repeat' (first | with_reducible assumption | with_reducible apply parts_fadeOutlets | ((with_reducible refine Covers.of hw ?_) <;> rfl) | with_reducible apply parts_ite | with_reducible apply parts_ite_snd | split | with_reducible apply parts_mk | ((with_reducible refine Or.inl (Covers.has hw _ ?_)) <;> rfl) | with_reducible exact Or.inr rfl | with_reducible exact Or.inr ⟨rfl, rfl⟩ | with_reducible exact Or.inr ⟨rfl, rfl, rfl⟩ | with_reducible exact Or.inr ⟨rfl, rfl, rfl, rfl⟩ | with_reducible exact Or.inr ⟨rfl, rfl, rfl, rfl, rfl⟩ | (intro _ _ _; dsimp only) | (intro _ _ _))

theorem parts_endFadeOut {w : Part → Bool} {s0 s : State} (h : Fixes w s0 s) (hw : Covers [.free, .force, .sess, .mode, .doms, .life, .rings, .net, .ctxs, .tdm, .audio, .mem, .sage, .pair, .pins] w) : Fixes w s0 (endFadeOut s) := by
  unfold endFadeOut
  try dsimp only
  repeat' (first | with_reducible assumption | with_reducible apply parts_forceOff | with_reducible apply parts_setTrans | with_reducible apply parts_haltPort | with_reducible apply parts_foldl | with_reducible apply parts_foldl_fst | with_reducible apply parts_foldl_snd | ((with_reducible refine Covers.of hw ?_) <;> rfl) | with_reducible apply parts_ite | with_reducible apply parts_ite_snd | split | with_reducible apply parts_mk | ((with_reducible refine Or.inl (Covers.has hw _ ?_)) <;> rfl) | with_reducible exact Or.inr rfl | with_reducible exact Or.inr ⟨rfl, rfl⟩ | with_reducible exact Or.inr ⟨rfl, rfl, rfl⟩ | with_reducible exact Or.inr ⟨rfl, rfl, rfl, rfl⟩ | with_reducible exact Or.inr ⟨rfl, rfl, rfl, rfl, rfl⟩ | (intro _ _ _; dsimp only) | (intro _ _ _))

theorem parts_execModeFadeOutEnd {w : Part → Bool} {s0 s : State} (h : Fixes w s0 s) (hw : Covers [.free, .force, .sess, .mode, .doms, .life, .rings, .net, .ctxs, .tdm, .audio, .mem, .sage, .pair, .pins] w) : FixesOut w s0 (execModeFadeOutEnd s) := by
  unfold execModeFadeOutEnd
  try dsimp only
  repeat' (first | with_reducible assumption | with_reducible apply parts_endFadeOut | with_reducible apply parts_next | exact parts_fault _ | ((with_reducible refine Covers.of hw ?_) <;> rfl) | with_reducible apply parts_ite | with_reducible apply parts_ite_snd | split | with_reducible apply parts_mk | ((with_reducible refine Or.inl (Covers.has hw _ ?_)) <;> rfl) | with_reducible exact Or.inr rfl | with_reducible exact Or.inr ⟨rfl, rfl⟩ | with_reducible exact Or.inr ⟨rfl, rfl, rfl⟩ | with_reducible exact Or.inr ⟨rfl, rfl, rfl, rfl⟩ | with_reducible exact Or.inr ⟨rfl, rfl, rfl, rfl, rfl⟩ | (intro _ _ _; dsimp only) | (intro _ _ _))

theorem parts_stopDomain {w : Part → Bool} {s0 s : State} {a1} (h : Fixes w s0 s) (hw : Covers [.doms, .pins] w) : Fixes w s0 (stopDomain s a1) := by
  unfold stopDomain
  try dsimp only
  repeat' (first | with_reducible assumption | with_reducible apply parts_lowOutputs | with_reducible apply parts_setDom | ((with_reducible refine Covers.of hw ?_) <;> rfl) | with_reducible apply parts_ite | with_reducible apply parts_ite_snd | split | with_reducible apply parts_mk | ((with_reducible refine Or.inl (Covers.has hw _ ?_)) <;> rfl) | with_reducible exact Or.inr rfl | with_reducible exact Or.inr ⟨rfl, rfl⟩ | with_reducible exact Or.inr ⟨rfl, rfl, rfl⟩ | with_reducible exact Or.inr ⟨rfl, rfl, rfl, rfl⟩ | with_reducible exact Or.inr ⟨rfl, rfl, rfl, rfl, rfl⟩ | (intro _ _ _; dsimp only) | (intro _ _ _))

theorem parts_restartDomains {w : Part → Bool} {s0 s : State} (h : Fixes w s0 s) (hw : Covers [.force, .doms, .pins] w) : Fixes w s0 (restartDomains s) := by
  unfold restartDomains
  try dsimp only
  repeat' (first | with_reducible assumption | with_reducible apply parts_setFreq | with_reducible apply parts_setN | with_reducible apply parts_setDom | with_reducible apply parts_foldl | with_reducible apply parts_foldl_fst | with_reducible apply parts_foldl_snd | ((with_reducible refine Covers.of hw ?_) <;> rfl) | with_reducible apply parts_ite | with_reducible apply parts_ite_snd | split | with_reducible apply parts_mk | ((with_reducible refine Or.inl (Covers.has hw _ ?_)) <;> rfl) | with_reducible exact Or.inr rfl | with_reducible exact Or.inr ⟨rfl, rfl⟩ | with_reducible exact Or.inr ⟨rfl, rfl, rfl⟩ | with_reducible exact Or.inr ⟨rfl, rfl, rfl, rfl⟩ | with_reducible exact Or.inr ⟨rfl, rfl, rfl, rfl, rfl⟩ | (intro _ _ _; dsimp only) | (intro _ _ _))

theorem parts_finishTransition {w : Part → Bool} {s0 s : State} (h : Fixes w s0 s) (hw : Covers [.force, .sess] w) : Fixes w s0 (finishTransition s) := by
  unfold finishTransition
  try dsimp only
  repeat' (first | with_reducible assumption | with_reducible apply parts_bump | with_reducible apply parts_setTrans | with_reducible apply parts_setN | with_reducible apply parts_raise | ((with_reducible refine Covers.of hw ?_) <;> rfl) | with_reducible apply parts_ite | with_reducible apply parts_ite_snd | split | with_reducible apply parts_mk | ((with_reducible refine Or.inl (Covers.has hw _ ?_)) <;> rfl) | with_reducible exact Or.inr rfl | with_reducible exact Or.inr ⟨rfl, rfl⟩ | with_reducible exact Or.inr ⟨rfl, rfl, rfl⟩ | with_reducible exact Or.inr ⟨rfl, rfl, rfl, rfl⟩ | with_reducible exact Or.inr ⟨rfl, rfl, rfl, rfl, rfl⟩ | (intro _ _ _; dsimp only) | (intro _ _ _))

theorem parts_serviceOff {w : Part → Bool} {s0 s : State} (h : Fixes w s0 s) (hw : Covers [.free, .force, .landing, .sess, .doms, .life, .rings, .net, .ctxs, .tdm, .audio, .mem, .sage, .pair, .pins] w) : Fixes w s0 (serviceOff s) := by
  unfold serviceOff
  try dsimp only
  repeat' (first | with_reducible assumption | with_reducible apply parts_pairEntered | with_reducible apply parts_forceOff | with_reducible apply parts_domainEntered | with_reducible apply parts_setLife | with_reducible apply parts_moveUnit | with_reducible apply parts_foldl | with_reducible apply parts_foldl_fst | with_reducible apply parts_foldl_snd | ((with_reducible refine Covers.of hw ?_) <;> rfl) | with_reducible apply parts_ite | with_reducible apply parts_ite_snd | split | with_reducible apply parts_mk | ((with_reducible refine Or.inl (Covers.has hw _ ?_)) <;> rfl) | with_reducible exact Or.inr rfl | with_reducible exact Or.inr ⟨rfl, rfl⟩ | with_reducible exact Or.inr ⟨rfl, rfl, rfl⟩ | with_reducible exact Or.inr ⟨rfl, rfl, rfl, rfl⟩ | with_reducible exact Or.inr ⟨rfl, rfl, rfl, rfl, rfl⟩ | (intro _ _ _; dsimp only) | (intro _ _ _))

theorem parts_enterService {w : Part → Bool} {s0 s : State} (h : Fixes w s0 s) (hw : Covers [.free, .force, .landing, .sess, .doms, .life, .rings, .net, .ctxs, .tdm, .audio, .lanes, .iram, .budget, .trans, .mem, .sage, .pair, .pins] w) : Fixes w s0 (enterService s) := by
  unfold enterService
  try dsimp only
  repeat' (first | with_reducible assumption | with_reducible apply parts_serviceOff | with_reducible apply parts_restartDomains | with_reducible apply parts_finishTransition | with_reducible apply parts_restartPort | with_reducible apply parts_moveUnit | with_reducible apply parts_haltPort | with_reducible apply parts_inMode | with_reducible apply parts_initAudio | with_reducible apply parts_setPort | with_reducible apply parts_foldl | with_reducible apply parts_foldl_fst | with_reducible apply parts_foldl_snd | ((with_reducible refine Covers.of hw ?_) <;> rfl) | with_reducible apply parts_ite | with_reducible apply parts_ite_snd | split | with_reducible apply parts_mk | ((with_reducible refine Or.inl (Covers.has hw _ ?_)) <;> rfl) | with_reducible exact Or.inr rfl | with_reducible exact Or.inr ⟨rfl, rfl⟩ | with_reducible exact Or.inr ⟨rfl, rfl, rfl⟩ | with_reducible exact Or.inr ⟨rfl, rfl, rfl, rfl⟩ | with_reducible exact Or.inr ⟨rfl, rfl, rfl, rfl, rfl⟩ | (intro _ _ _; dsimp only) | (intro _ _ _))

theorem parts_restoreMode {w : Part → Bool} {s0 s : State} (h : Fixes w s0 s) (hw : Covers [.free, .force, .landing, .sess, .mode, .doms, .life, .rings, .net, .ctxs, .tdm, .audio, .lanes, .iram, .budget, .trans, .mem, .sage, .pair, .pins] w) : Fixes w s0 (restoreMode s) := by
  unfold restoreMode
  try dsimp only
  repeat' (first | with_reducible assumption | with_reducible apply parts_adapt | with_reducible apply parts_restartDomains | with_reducible apply parts_setTrans | with_reducible apply parts_setN | with_reducible apply parts_resumeUnits | with_reducible apply parts_initAudio | ((with_reducible refine Covers.of hw ?_) <;> rfl) | with_reducible apply parts_ite | with_reducible apply parts_ite_snd | split | with_reducible apply parts_mk | ((with_reducible refine Or.inl (Covers.has hw _ ?_)) <;> rfl) | with_reducible exact Or.inr rfl | with_reducible exact Or.inr ⟨rfl, rfl⟩ | with_reducible exact Or.inr ⟨rfl, rfl, rfl⟩ | with_reducible exact Or.inr ⟨rfl, rfl, rfl, rfl⟩ | with_reducible exact Or.inr ⟨rfl, rfl, rfl, rfl, rfl⟩ | (intro _ _ _; dsimp only) | (intro _ _ _))

theorem parts_endReconfigure {w : Part → Bool} {s0 s : State} (h : Fixes w s0 s) (hw : Covers [.free, .aon, .force, .landing, .sess, .ver, .mode, .doms, .life, .rings, .net, .ctxs, .tdm, .audio, .lanes, .iram, .budget, .trans, .mem, .dram, .sage, .pair, .pins] w) : Fixes w s0 (endReconfigure s) := by
  unfold endReconfigure
  try dsimp only
  repeat' (first | with_reducible assumption | with_reducible apply parts_stopDomain | with_reducible apply parts_enterService | with_reducible apply parts_changeSetpoint | with_reducible apply parts_restoreMode | with_reducible apply parts_loseDirectory | with_reducible apply parts_foldl | with_reducible apply parts_foldl_fst | with_reducible apply parts_foldl_snd | ((with_reducible refine Covers.of hw ?_) <;> rfl) | with_reducible apply parts_ite | with_reducible apply parts_ite_snd | split | with_reducible apply parts_mk | ((with_reducible refine Or.inl (Covers.has hw _ ?_)) <;> rfl) | with_reducible exact Or.inr rfl | with_reducible exact Or.inr ⟨rfl, rfl⟩ | with_reducible exact Or.inr ⟨rfl, rfl, rfl⟩ | with_reducible exact Or.inr ⟨rfl, rfl, rfl, rfl⟩ | with_reducible exact Or.inr ⟨rfl, rfl, rfl, rfl, rfl⟩ | (intro _ _ _; dsimp only) | (intro _ _ _))

theorem parts_execModeReconfigureEnd {w : Part → Bool} {s0 s : State} (h : Fixes w s0 s) (hw : Covers [.free, .aon, .force, .landing, .sess, .ver, .mode, .doms, .life, .rings, .net, .ctxs, .tdm, .audio, .lanes, .iram, .budget, .trans, .mem, .dram, .sage, .pair, .pins] w) : FixesOut w s0 (execModeReconfigureEnd s) := by
  unfold execModeReconfigureEnd
  try dsimp only
  repeat' (first | with_reducible assumption | with_reducible apply parts_endReconfigure | with_reducible apply parts_next | exact parts_fault _ | ((with_reducible refine Covers.of hw ?_) <;> rfl) | with_reducible apply parts_ite | with_reducible apply parts_ite_snd | split | with_reducible apply parts_mk | ((with_reducible refine Or.inl (Covers.has hw _ ?_)) <;> rfl) | with_reducible exact Or.inr rfl | with_reducible exact Or.inr ⟨rfl, rfl⟩ | with_reducible exact Or.inr ⟨rfl, rfl, rfl⟩ | with_reducible exact Or.inr ⟨rfl, rfl, rfl, rfl⟩ | with_reducible exact Or.inr ⟨rfl, rfl, rfl, rfl, rfl⟩ | (intro _ _ _; dsimp only) | (intro _ _ _))

theorem parts_startFadeIn {w : Part → Bool} {s0 s : State} (h : Fixes w s0 s) (hw : Covers [.force, .audio] w) : Fixes w s0 (startFadeIn s) := by
  unfold startFadeIn
  try dsimp only
  repeat' (first | with_reducible assumption | with_reducible apply parts_setTrans | with_reducible apply parts_fadeOutlets | ((with_reducible refine Covers.of hw ?_) <;> rfl) | with_reducible apply parts_ite | with_reducible apply parts_ite_snd | split | with_reducible apply parts_mk | ((with_reducible refine Or.inl (Covers.has hw _ ?_)) <;> rfl) | with_reducible exact Or.inr rfl | with_reducible exact Or.inr ⟨rfl, rfl⟩ | with_reducible exact Or.inr ⟨rfl, rfl, rfl⟩ | with_reducible exact Or.inr ⟨rfl, rfl, rfl, rfl⟩ | with_reducible exact Or.inr ⟨rfl, rfl, rfl, rfl, rfl⟩ | (intro _ _ _; dsimp only) | (intro _ _ _))

theorem parts_execModeFadeInStart {w : Part → Bool} {s0 s : State} (h : Fixes w s0 s) (hw : Covers [.force, .audio] w) : FixesOut w s0 (execModeFadeInStart s) := by
  unfold execModeFadeInStart
  try dsimp only
  repeat' (first | with_reducible assumption | with_reducible apply parts_startFadeIn | with_reducible apply parts_next | exact parts_fault _ | ((with_reducible refine Covers.of hw ?_) <;> rfl) | with_reducible apply parts_ite | with_reducible apply parts_ite_snd | split | with_reducible apply parts_mk | ((with_reducible refine Or.inl (Covers.has hw _ ?_)) <;> rfl) | with_reducible exact Or.inr rfl | with_reducible exact Or.inr ⟨rfl, rfl⟩ | with_reducible exact Or.inr ⟨rfl, rfl, rfl⟩ | with_reducible exact Or.inr ⟨rfl, rfl, rfl, rfl⟩ | with_reducible exact Or.inr ⟨rfl, rfl, rfl, rfl, rfl⟩ | (intro _ _ _; dsimp only) | (intro _ _ _))

theorem parts_endFadeIn {w : Part → Bool} {s0 s : State} (h : Fixes w s0 s) (hw : Covers [.aon, .force, .sess, .ver] w) : Fixes w s0 (endFadeIn s) := by
  unfold endFadeIn
  try dsimp only
  repeat' (first | with_reducible assumption | with_reducible apply parts_addVersion | with_reducible apply parts_finishTransition | ((with_reducible refine Covers.of hw ?_) <;> rfl) | with_reducible apply parts_ite | with_reducible apply parts_ite_snd | split | with_reducible apply parts_mk | ((with_reducible refine Or.inl (Covers.has hw _ ?_)) <;> rfl) | with_reducible exact Or.inr rfl | with_reducible exact Or.inr ⟨rfl, rfl⟩ | with_reducible exact Or.inr ⟨rfl, rfl, rfl⟩ | with_reducible exact Or.inr ⟨rfl, rfl, rfl, rfl⟩ | with_reducible exact Or.inr ⟨rfl, rfl, rfl, rfl, rfl⟩ | (intro _ _ _; dsimp only) | (intro _ _ _))

theorem parts_execModeFadeInEnd {w : Part → Bool} {s0 s : State} (h : Fixes w s0 s) (hw : Covers [.aon, .force, .sess, .ver] w) : FixesOut w s0 (execModeFadeInEnd s) := by
  unfold execModeFadeInEnd
  try dsimp only
  repeat' (first | with_reducible assumption | with_reducible apply parts_endFadeIn | with_reducible apply parts_next | exact parts_fault _ | ((with_reducible refine Covers.of hw ?_) <;> rfl) | with_reducible apply parts_ite | with_reducible apply parts_ite_snd | split | with_reducible apply parts_mk | ((with_reducible refine Or.inl (Covers.has hw _ ?_)) <;> rfl) | with_reducible exact Or.inr rfl | with_reducible exact Or.inr ⟨rfl, rfl⟩ | with_reducible exact Or.inr ⟨rfl, rfl, rfl⟩ | with_reducible exact Or.inr ⟨rfl, rfl, rfl, rfl⟩ | with_reducible exact Or.inr ⟨rfl, rfl, rfl, rfl, rfl⟩ | (intro _ _ _; dsimp only) | (intro _ _ _))

theorem parts_followLink {w : Part → Bool} {s0 s : State} (h : Fixes w s0 s) (hw : Covers [.force, .doms] w) : Fixes w s0 (followLink s) := by
  unfold followLink
  try dsimp only
  repeat' (first | with_reducible assumption | with_reducible apply parts_setN | with_reducible apply parts_setPhase | with_reducible apply parts_setDom | with_reducible apply parts_foldl | with_reducible apply parts_foldl_fst | with_reducible apply parts_foldl_snd | ((with_reducible refine Covers.of hw ?_) <;> rfl) | with_reducible apply parts_ite | with_reducible apply parts_ite_snd | split | with_reducible apply parts_mk | ((with_reducible refine Or.inl (Covers.has hw _ ?_)) <;> rfl) | with_reducible exact Or.inr rfl | with_reducible exact Or.inr ⟨rfl, rfl⟩ | with_reducible exact Or.inr ⟨rfl, rfl, rfl⟩ | with_reducible exact Or.inr ⟨rfl, rfl, rfl, rfl⟩ | with_reducible exact Or.inr ⟨rfl, rfl, rfl, rfl, rfl⟩ | (intro _ _ _; dsimp only) | (intro _ _ _))

theorem parts_landCopied {w : Part → Bool} {s0 s : State} {a1 a2 a3} (h : Fixes w s0 s) (hw : Covers [.force, .landing] w) : Fixes w s0 (landCopied s a1 a2 a3) := by
  unfold landCopied
  try dsimp only
  repeat' (first | with_reducible assumption | with_reducible apply parts_landLive | with_reducible apply parts_setF | with_reducible apply parts_addLanding | ((with_reducible refine Covers.of hw ?_) <;> rfl) | with_reducible apply parts_ite | with_reducible apply parts_ite_snd | split | with_reducible apply parts_mk | ((with_reducible refine Or.inl (Covers.has hw _ ?_)) <;> rfl) | with_reducible exact Or.inr rfl | with_reducible exact Or.inr ⟨rfl, rfl⟩ | with_reducible exact Or.inr ⟨rfl, rfl, rfl⟩ | with_reducible exact Or.inr ⟨rfl, rfl, rfl, rfl⟩ | with_reducible exact Or.inr ⟨rfl, rfl, rfl, rfl, rfl⟩ | (intro _ _ _; dsimp only) | (intro _ _ _))

theorem parts_copyConfig {w : Part → Bool} {s0 s : State} {a1} (h : Fixes w s0 s) (hw : Covers [.free, .aon, .force, .bank, .landing, .sess, .commit, .ver, .mode, .doms, .life, .rings, .net, .ctxs, .tdm, .audio, .lanes, .iram, .budget, .trans, .mem, .sage, .pair, .pins] w) : Fixes w s0 (copyConfig s a1) := by
  unfold copyConfig
  try dsimp only
  repeat' (first | with_reducible assumption | with_reducible apply parts_dropStaged | with_reducible apply parts_setN | with_reducible apply parts_resumeUnits | with_reducible apply parts_addVersion | with_reducible apply parts_placeAgain | with_reducible apply parts_giveSignals | with_reducible apply parts_withConf | with_reducible apply parts_initAudio | with_reducible apply parts_setDom | with_reducible apply parts_suspendRefs | with_reducible apply parts_followLink | with_reducible apply parts_foldl | with_reducible apply parts_foldl_fst | with_reducible apply parts_foldl_snd | ((with_reducible refine Covers.of hw ?_) <;> rfl) | with_reducible apply parts_ite | with_reducible apply parts_ite_snd | split | with_reducible apply parts_mk | ((with_reducible refine Or.inl (Covers.has hw _ ?_)) <;> rfl) | with_reducible exact Or.inr rfl | with_reducible exact Or.inr ⟨rfl, rfl⟩ | with_reducible exact Or.inr ⟨rfl, rfl, rfl⟩ | with_reducible exact Or.inr ⟨rfl, rfl, rfl, rfl⟩ | with_reducible exact Or.inr ⟨rfl, rfl, rfl, rfl, rfl⟩ | (intro _ _ _; dsimp only) | (intro _ _ _))

theorem parts_copyCommit {w : Part → Bool} {s0 s : State} {a1} (h : Fixes w s0 s) (hw : Covers [.force, .bank, .landing, .commit, .mode, .ctxs, .iram, .budget, .mem, .sage] w) : Fixes w s0 (copyCommit s a1) := by
  unfold copyCommit
  try dsimp only
  repeat' (first | with_reducible assumption | with_reducible apply parts_stageBudgets | with_reducible apply parts_revive | with_reducible apply parts_loadImages | with_reducible apply parts_configWith | with_reducible apply parts_clearBank | with_reducible apply parts_setN | with_reducible apply parts_giveSignals | with_reducible apply parts_setCommitState | with_reducible apply parts_scheduleAt | with_reducible apply parts_foldl | with_reducible apply parts_foldl_fst | with_reducible apply parts_foldl_snd | ((with_reducible refine Covers.of hw ?_) <;> rfl) | with_reducible apply parts_ite | with_reducible apply parts_ite_snd | split | with_reducible apply parts_mk | ((with_reducible refine Or.inl (Covers.has hw _ ?_)) <;> rfl) | with_reducible exact Or.inr rfl | with_reducible exact Or.inr ⟨rfl, rfl⟩ | with_reducible exact Or.inr ⟨rfl, rfl, rfl⟩ | with_reducible exact Or.inr ⟨rfl, rfl, rfl, rfl⟩ | with_reducible exact Or.inr ⟨rfl, rfl, rfl, rfl, rfl⟩ | (intro _ _ _; dsimp only) | (intro _ _ _))

theorem parts_takeRecord {w : Part → Bool} {s0 s : State} {a1} (h : Fixes w s0 s) (hw : Covers [.free, .aon, .force, .bank, .landing, .sess, .commit, .ver, .mode, .doms, .life, .rings, .net, .ctxs, .tdm, .audio, .lanes, .iram, .budget, .trans, .mem, .sage, .pair, .pins] w) : Fixes w s0 (takeRecord s a1) := by
  unfold takeRecord
  try dsimp only
  repeat' (first | with_reducible assumption | with_reducible apply parts_setSync | with_reducible apply parts_copyConfig | with_reducible apply parts_emptyBank | with_reducible apply parts_setBank | with_reducible apply parts_landCopied | with_reducible apply parts_copyCommit | with_reducible apply parts_startTransition | with_reducible apply parts_doCancel | with_reducible apply parts_foldl | with_reducible apply parts_foldl_fst | with_reducible apply parts_foldl_snd | ((with_reducible refine Covers.of hw ?_) <;> rfl) | with_reducible apply parts_ite | with_reducible apply parts_ite_snd | split | with_reducible apply parts_mk | ((with_reducible refine Or.inl (Covers.has hw _ ?_)) <;> rfl) | with_reducible exact Or.inr rfl | with_reducible exact Or.inr ⟨rfl, rfl⟩ | with_reducible exact Or.inr ⟨rfl, rfl, rfl⟩ | with_reducible exact Or.inr ⟨rfl, rfl, rfl, rfl⟩ | with_reducible exact Or.inr ⟨rfl, rfl, rfl, rfl, rfl⟩ | (intro _ _ _; dsimp only) | (intro _ _ _))

theorem parts_execConfigRecordReceived {w : Part → Bool} {s0 s : State} {a0} (h : Fixes w s0 s) (hw : Covers [.free, .aon, .force, .bank, .landing, .sess, .commit, .ver, .mode, .doms, .life, .rings, .net, .ctxs, .tdm, .audio, .lanes, .iram, .budget, .trans, .mem, .sage, .pair, .pins] w) : FixesOut w s0 (execConfigRecordReceived a0 s) := by
  unfold execConfigRecordReceived
  try dsimp only
  repeat' (first | with_reducible assumption | with_reducible apply parts_takeRecord | with_reducible apply parts_next | exact parts_fault _ | ((with_reducible refine Covers.of hw ?_) <;> rfl) | with_reducible apply parts_ite | with_reducible apply parts_ite_snd | split | with_reducible apply parts_mk | ((with_reducible refine Or.inl (Covers.has hw _ ?_)) <;> rfl) | with_reducible exact Or.inr rfl | with_reducible exact Or.inr ⟨rfl, rfl⟩ | with_reducible exact Or.inr ⟨rfl, rfl, rfl⟩ | with_reducible exact Or.inr ⟨rfl, rfl, rfl, rfl⟩ | with_reducible exact Or.inr ⟨rfl, rfl, rfl, rfl, rfl⟩ | (intro _ _ _; dsimp only) | (intro _ _ _))

end Sys2Proof.Machine
end

