-- ==== Sys2Proof/Laws/PartsBoot.lean ====
section
/-!
SUPPORT. Laws/PartsBoot.lean: the operations of Machine/Boot.lean change only the parts of the state named (Laws/Parts.lean).
-/
-- One declaration at a time and no linter: the package is compiled as one text under a memory limit.
set_option linter.all false
set_option Elab.async false
namespace Sys2Proof.Machine

theorem parts_wiped {w : Part → Bool} {s0 s : State} (h : Fixes w s0 s) (hw : Covers [.boot, .force, .bank, .landing, .sess, .locks, .odp, .commit, .ver, .mode, .doms, .refs, .tbs, .life, .otp, .pairs, .rings, .msix, .net, .ctxs, .na, .tdm, .audio, .lanes, .iram, .budget, .trans, .xbar, .mem, .dram, .sage, .pair, .pins] w) : Fixes w s0 (wiped s) := by
  unfold wiped
  try dsimp only
  repeat' (first | with_reducible assumption | ((with_reducible refine Covers.of hw ?_) <;> rfl) | with_reducible apply parts_ite | with_reducible apply parts_ite_snd | split | with_reducible apply parts_mk | ((with_reducible refine Or.inl (Covers.has hw _ ?_)) <;> rfl) | with_reducible exact Or.inr rfl | with_reducible exact Or.inr ⟨rfl, rfl⟩ | with_reducible exact Or.inr ⟨rfl, rfl, rfl⟩ | with_reducible exact Or.inr ⟨rfl, rfl, rfl, rfl⟩ | with_reducible exact Or.inr ⟨rfl, rfl, rfl, rfl, rfl⟩ | (intro _ _ _; dsimp only) | (intro _ _ _))

theorem parts_keepLog {w : Part → Bool} {s0 s : State} {a1} (h : Fixes w s0 s) (hw : Covers [.sage] w) : Fixes w s0 (keepLog s a1) := by
  unfold keepLog
  try dsimp only
  repeat' (first | with_reducible assumption | ((with_reducible refine Covers.of hw ?_) <;> rfl) | with_reducible apply parts_ite | with_reducible apply parts_ite_snd | split | with_reducible apply parts_mk | ((with_reducible refine Or.inl (Covers.has hw _ ?_)) <;> rfl) | with_reducible exact Or.inr rfl | with_reducible exact Or.inr ⟨rfl, rfl⟩ | with_reducible exact Or.inr ⟨rfl, rfl, rfl⟩ | with_reducible exact Or.inr ⟨rfl, rfl, rfl, rfl⟩ | with_reducible exact Or.inr ⟨rfl, rfl, rfl, rfl, rfl⟩ | (intro _ _ _; dsimp only) | (intro _ _ _))

theorem parts_execColdStart {w : Part → Bool} {s0 s : State} (h : Fixes w s0 s) (hw : Covers [.boot, .aon, .force, .bank, .landing, .sess, .locks, .odp, .commit, .ver, .mode, .doms, .refs, .tbs, .life, .otp, .pairs, .rings, .msix, .net, .ctxs, .na, .tdm, .audio, .lanes, .iram, .budget, .trans, .xbar, .mem, .dram, .sage, .pair, .pins] w) : FixesOut w s0 (execColdStart s) := by
  unfold execColdStart
  try dsimp only
  repeat' (first | with_reducible assumption | with_reducible apply parts_wiped | with_reducible apply parts_keepLog | with_reducible apply parts_next | exact parts_fault _ | ((with_reducible refine Covers.of hw ?_) <;> rfl) | with_reducible apply parts_ite | with_reducible apply parts_ite_snd | split | with_reducible apply parts_mk | ((with_reducible refine Or.inl (Covers.has hw _ ?_)) <;> rfl) | with_reducible exact Or.inr rfl | with_reducible exact Or.inr ⟨rfl, rfl⟩ | with_reducible exact Or.inr ⟨rfl, rfl, rfl⟩ | with_reducible exact Or.inr ⟨rfl, rfl, rfl, rfl⟩ | with_reducible exact Or.inr ⟨rfl, rfl, rfl, rfl, rfl⟩ | (intro _ _ _; dsimp only) | (intro _ _ _))

theorem parts_execExternalWarmReset {w : Part → Bool} {s0 s : State} {a0} (h : Fixes w s0 s) (hw : Covers [.boot, .force, .bank, .landing, .sess, .locks, .odp, .commit, .ver, .mode, .doms, .refs, .tbs, .life, .otp, .pairs, .rings, .msix, .net, .ctxs, .na, .tdm, .audio, .lanes, .iram, .budget, .trans, .xbar, .mem, .dram, .sage, .pair, .pins] w) : FixesOut w s0 (execExternalWarmReset a0 s) := by
  unfold execExternalWarmReset
  try dsimp only
  repeat' (first | with_reducible assumption | with_reducible apply parts_wiped | with_reducible apply parts_keepLog | with_reducible apply parts_next | exact parts_fault _ | ((with_reducible refine Covers.of hw ?_) <;> rfl) | with_reducible apply parts_ite | with_reducible apply parts_ite_snd | split | with_reducible apply parts_mk | ((with_reducible refine Or.inl (Covers.has hw _ ?_)) <;> rfl) | with_reducible exact Or.inr rfl | with_reducible exact Or.inr ⟨rfl, rfl⟩ | with_reducible exact Or.inr ⟨rfl, rfl, rfl⟩ | with_reducible exact Or.inr ⟨rfl, rfl, rfl, rfl⟩ | with_reducible exact Or.inr ⟨rfl, rfl, rfl, rfl, rfl⟩ | (intro _ _ _; dsimp only) | (intro _ _ _))

theorem parts_internalReset {w : Part → Bool} {s0 s : State} {a1 a2} (h : Fixes w s0 s) (hw : Covers [.boot, .aon, .force, .bank, .landing, .sess, .locks, .odp, .commit, .ver, .mode, .doms, .refs, .tbs, .life, .otp, .pairs, .rings, .msix, .net, .ctxs, .na, .tdm, .audio, .lanes, .iram, .budget, .trans, .xbar, .mem, .dram, .sage, .pair, .pins] w) : Fixes w s0 (internalReset s a1 a2) := by
  unfold internalReset
  try dsimp only
  repeat' (first | with_reducible assumption | with_reducible apply parts_wiped | with_reducible apply parts_setN | with_reducible apply parts_keepLog | with_reducible apply parts_foldl | with_reducible apply parts_foldl_fst | with_reducible apply parts_foldl_snd | ((with_reducible refine Covers.of hw ?_) <;> rfl) | with_reducible apply parts_ite | with_reducible apply parts_ite_snd | split | with_reducible apply parts_mk | ((with_reducible refine Or.inl (Covers.has hw _ ?_)) <;> rfl) | with_reducible exact Or.inr rfl | with_reducible exact Or.inr ⟨rfl, rfl⟩ | with_reducible exact Or.inr ⟨rfl, rfl, rfl⟩ | with_reducible exact Or.inr ⟨rfl, rfl, rfl, rfl⟩ | with_reducible exact Or.inr ⟨rfl, rfl, rfl, rfl, rfl⟩ | (intro _ _ _; dsimp only) | (intro _ _ _))

theorem parts_execSupplyMonitorTrip {w : Part → Bool} {s0 s : State} {a0 a1 a2 a3} (h : Fixes w s0 s) (hw : Covers [.boot, .aon, .force, .bank, .landing, .sess, .locks, .odp, .commit, .ver, .mode, .doms, .refs, .tbs, .life, .otp, .pairs, .rings, .msix, .net, .ctxs, .na, .tdm, .audio, .lanes, .iram, .budget, .trans, .xbar, .mem, .dram, .sage, .pair, .pins] w) : FixesOut w s0 (execSupplyMonitorTrip a0 a1 a2 a3 s) := by
  unfold execSupplyMonitorTrip
  try dsimp only
  repeat' (first | with_reducible assumption | with_reducible apply parts_internalReset | with_reducible apply parts_next | exact parts_fault _ | ((with_reducible refine Covers.of hw ?_) <;> rfl) | with_reducible apply parts_ite | with_reducible apply parts_ite_snd | split | with_reducible apply parts_mk | ((with_reducible refine Or.inl (Covers.has hw _ ?_)) <;> rfl) | with_reducible exact Or.inr rfl | with_reducible exact Or.inr ⟨rfl, rfl⟩ | with_reducible exact Or.inr ⟨rfl, rfl, rfl⟩ | with_reducible exact Or.inr ⟨rfl, rfl, rfl, rfl⟩ | with_reducible exact Or.inr ⟨rfl, rfl, rfl, rfl, rfl⟩ | (intro _ _ _; dsimp only) | (intro _ _ _))

theorem parts_execLockstepResetTimeout {w : Part → Bool} {s0 s : State} (h : Fixes w s0 s) (hw : Covers [.boot, .aon, .force, .bank, .landing, .sess, .locks, .odp, .commit, .ver, .mode, .doms, .refs, .tbs, .life, .otp, .pairs, .rings, .msix, .net, .ctxs, .na, .tdm, .audio, .lanes, .iram, .budget, .trans, .xbar, .mem, .dram, .sage, .pair, .pins] w) : FixesOut w s0 (execLockstepResetTimeout s) := by
  unfold execLockstepResetTimeout
  try dsimp only
  repeat' (first | with_reducible assumption | with_reducible apply parts_internalReset | with_reducible apply parts_next | exact parts_fault _ | ((with_reducible refine Covers.of hw ?_) <;> rfl) | with_reducible apply parts_ite | with_reducible apply parts_ite_snd | split | with_reducible apply parts_mk | ((with_reducible refine Or.inl (Covers.has hw _ ?_)) <;> rfl) | with_reducible exact Or.inr rfl | with_reducible exact Or.inr ⟨rfl, rfl⟩ | with_reducible exact Or.inr ⟨rfl, rfl, rfl⟩ | with_reducible exact Or.inr ⟨rfl, rfl, rfl, rfl⟩ | with_reducible exact Or.inr ⟨rfl, rfl, rfl, rfl, rfl⟩ | (intro _ _ _; dsimp only) | (intro _ _ _))

theorem parts_execResetNRelease {w : Part → Bool} {s0 s : State} {a0 a1 a2} (h : Fixes w s0 s) (hw : Covers [.boot, .force, .pins] w) : FixesOut w s0 (execResetNRelease a0 a1 a2 s) := by
  unfold execResetNRelease
  try dsimp only
  repeat' (first | with_reducible assumption | with_reducible apply parts_setN | with_reducible apply parts_next | exact parts_fault _ | with_reducible apply parts_foldl | with_reducible apply parts_foldl_fst | with_reducible apply parts_foldl_snd | ((with_reducible refine Covers.of hw ?_) <;> rfl) | with_reducible apply parts_ite | with_reducible apply parts_ite_snd | split | with_reducible apply parts_mk | ((with_reducible refine Or.inl (Covers.has hw _ ?_)) <;> rfl) | with_reducible exact Or.inr rfl | with_reducible exact Or.inr ⟨rfl, rfl⟩ | with_reducible exact Or.inr ⟨rfl, rfl, rfl⟩ | with_reducible exact Or.inr ⟨rfl, rfl, rfl, rfl⟩ | with_reducible exact Or.inr ⟨rfl, rfl, rfl, rfl, rfl⟩ | (intro _ _ _; dsimp only) | (intro _ _ _))

theorem parts_setFwSlot {w : Part → Bool} {s0 s : State} {a1 a2} (h : Fixes w s0 s) (hw : Covers [.boot] w) : Fixes w s0 (setFwSlot s a1 a2) := by
  unfold setFwSlot
  try dsimp only
  repeat' (first | with_reducible assumption | ((with_reducible refine Covers.of hw ?_) <;> rfl) | with_reducible apply parts_ite | with_reducible apply parts_ite_snd | split | with_reducible apply parts_mk | ((with_reducible refine Or.inl (Covers.has hw _ ?_)) <;> rfl) | with_reducible exact Or.inr rfl | with_reducible exact Or.inr ⟨rfl, rfl⟩ | with_reducible exact Or.inr ⟨rfl, rfl, rfl⟩ | with_reducible exact Or.inr ⟨rfl, rfl, rfl, rfl⟩ | with_reducible exact Or.inr ⟨rfl, rfl, rfl, rfl, rfl⟩ | (intro _ _ _; dsimp only) | (intro _ _ _))

theorem parts_loadSlot {w : Part → Bool} {s0 s : State} {a1} (h : Fixes w s0 s) (hw : Covers [.boot] w) : Fixes w s0 (loadSlot s a1) := by
  unfold loadSlot
  try dsimp only
  repeat' (first | with_reducible assumption | ((with_reducible refine Covers.of hw ?_) <;> rfl) | with_reducible apply parts_ite | with_reducible apply parts_ite_snd | split | with_reducible apply parts_mk | ((with_reducible refine Or.inl (Covers.has hw _ ?_)) <;> rfl) | with_reducible exact Or.inr rfl | with_reducible exact Or.inr ⟨rfl, rfl⟩ | with_reducible exact Or.inr ⟨rfl, rfl, rfl⟩ | with_reducible exact Or.inr ⟨rfl, rfl, rfl, rfl⟩ | with_reducible exact Or.inr ⟨rfl, rfl, rfl, rfl, rfl⟩ | (intro _ _ _; dsimp only) | (intro _ _ _))

theorem parts_slotSequences {w : Part → Bool} {s0 s : State} (h : Fixes w s0 s) (hw : Covers [.force] w) : Fixes w s0 (slotSequences s) := by
  unfold slotSequences
  try dsimp only
  repeat' (first | with_reducible assumption | with_reducible apply parts_setN | ((with_reducible refine Covers.of hw ?_) <;> rfl) | with_reducible apply parts_ite | with_reducible apply parts_ite_snd | split | with_reducible apply parts_mk | ((with_reducible refine Or.inl (Covers.has hw _ ?_)) <;> rfl) | with_reducible exact Or.inr rfl | with_reducible exact Or.inr ⟨rfl, rfl⟩ | with_reducible exact Or.inr ⟨rfl, rfl, rfl⟩ | with_reducible exact Or.inr ⟨rfl, rfl, rfl, rfl⟩ | with_reducible exact Or.inr ⟨rfl, rfl, rfl, rfl, rfl⟩ | (intro _ _ _; dsimp only) | (intro _ _ _))

theorem parts_giveBack {w : Part → Bool} {s0 s : State} (h : Fixes w s0 s) (hw : Covers [.force, .sage] w) : Fixes w s0 (giveBack s) := by
  unfold giveBack
  try dsimp only
  repeat' (first | with_reducible assumption | with_reducible apply parts_addSpare | with_reducible apply parts_addFailed | with_reducible apply parts_setN | with_reducible apply parts_foldl | with_reducible apply parts_foldl_fst | with_reducible apply parts_foldl_snd | ((with_reducible refine Covers.of hw ?_) <;> rfl) | with_reducible apply parts_ite | with_reducible apply parts_ite_snd | split | with_reducible apply parts_mk | ((with_reducible refine Or.inl (Covers.has hw _ ?_)) <;> rfl) | with_reducible exact Or.inr rfl | with_reducible exact Or.inr ⟨rfl, rfl⟩ | with_reducible exact Or.inr ⟨rfl, rfl, rfl⟩ | with_reducible exact Or.inr ⟨rfl, rfl, rfl, rfl⟩ | with_reducible exact Or.inr ⟨rfl, rfl, rfl, rfl, rfl⟩ | (intro _ _ _; dsimp only) | (intro _ _ _))

theorem parts_loadFuses {w : Part → Bool} {s0 s : State} (h : Fixes w s0 s) (hw : Covers [.boot, .aon, .force, .otp, .sage] w) : Fixes w s0 (loadFuses s) := by
  unfold loadFuses
  try dsimp only
  repeat' (first | with_reducible assumption | with_reducible apply parts_giveBack | with_reducible apply parts_setN | with_reducible apply parts_slotSequences | with_reducible apply parts_loadSlot | ((with_reducible refine Covers.of hw ?_) <;> rfl) | with_reducible apply parts_ite | with_reducible apply parts_ite_snd | split | with_reducible apply parts_mk | ((with_reducible refine Or.inl (Covers.has hw _ ?_)) <;> rfl) | with_reducible exact Or.inr rfl | with_reducible exact Or.inr ⟨rfl, rfl⟩ | with_reducible exact Or.inr ⟨rfl, rfl, rfl⟩ | with_reducible exact Or.inr ⟨rfl, rfl, rfl, rfl⟩ | with_reducible exact Or.inr ⟨rfl, rfl, rfl, rfl, rfl⟩ | (intro _ _ _; dsimp only) | (intro _ _ _))

theorem parts_execFuseLoadDone {w : Part → Bool} {s0 s : State} (h : Fixes w s0 s) (hw : Covers [.boot, .aon, .force, .otp, .sage] w) : FixesOut w s0 (execFuseLoadDone s) := by
  unfold execFuseLoadDone
  try dsimp only
  repeat' (first | with_reducible assumption | with_reducible apply parts_loadFuses | with_reducible apply parts_next | exact parts_fault _ | ((with_reducible refine Covers.of hw ?_) <;> rfl) | with_reducible apply parts_ite | with_reducible apply parts_ite_snd | split | with_reducible apply parts_mk | ((with_reducible refine Or.inl (Covers.has hw _ ?_)) <;> rfl) | with_reducible exact Or.inr rfl | with_reducible exact Or.inr ⟨rfl, rfl⟩ | with_reducible exact Or.inr ⟨rfl, rfl, rfl⟩ | with_reducible exact Or.inr ⟨rfl, rfl, rfl, rfl⟩ | with_reducible exact Or.inr ⟨rfl, rfl, rfl, rfl, rfl⟩ | (intro _ _ _; dsimp only) | (intro _ _ _))

theorem parts_skipVersions {w : Part → Bool} {s0 s : State} {a1} (h : Fixes w s0 s) (hw : Covers [.force, .sess] w) : Fixes w s0 (skipVersions s a1) := by
  unfold skipVersions
  try dsimp only
  repeat' (first | with_reducible assumption | with_reducible apply parts_bump | with_reducible apply parts_raise | with_reducible apply parts_foldl | with_reducible apply parts_foldl_fst | with_reducible apply parts_foldl_snd | ((with_reducible refine Covers.of hw ?_) <;> rfl) | with_reducible apply parts_ite | with_reducible apply parts_ite_snd | split | with_reducible apply parts_mk | ((with_reducible refine Or.inl (Covers.has hw _ ?_)) <;> rfl) | with_reducible exact Or.inr rfl | with_reducible exact Or.inr ⟨rfl, rfl⟩ | with_reducible exact Or.inr ⟨rfl, rfl, rfl⟩ | with_reducible exact Or.inr ⟨rfl, rfl, rfl, rfl⟩ | with_reducible exact Or.inr ⟨rfl, rfl, rfl, rfl, rfl⟩ | (intro _ _ _; dsimp only) | (intro _ _ _))

theorem parts_selectVersion {w : Part → Bool} {s0 s : State} (h : Fixes w s0 s) (hw : Covers [.aon, .force, .sess, .sage] w) : Fixes w s0 (selectVersion s) := by
  unfold selectVersion
  try dsimp only
  repeat' (first | with_reducible assumption | with_reducible apply parts_setN | with_reducible apply parts_writeLog | with_reducible apply parts_skipVersions | ((with_reducible refine Covers.of hw ?_) <;> rfl) | with_reducible apply parts_ite | with_reducible apply parts_ite_snd | split | with_reducible apply parts_mk | ((with_reducible refine Or.inl (Covers.has hw _ ?_)) <;> rfl) | with_reducible exact Or.inr rfl | with_reducible exact Or.inr ⟨rfl, rfl⟩ | with_reducible exact Or.inr ⟨rfl, rfl, rfl⟩ | with_reducible exact Or.inr ⟨rfl, rfl, rfl, rfl⟩ | with_reducible exact Or.inr ⟨rfl, rfl, rfl, rfl, rfl⟩ | (intro _ _ _; dsimp only) | (intro _ _ _))

theorem parts_runFirmware {w : Part → Bool} {s0 s : State} {a1 a2} (h : Fixes w s0 s) (hw : Covers [.boot, .aon, .force, .sess, .mem, .dram, .sage, .pins] w) : Fixes w s0 (runFirmware s a1 a2) := by
  unfold runFirmware
  try dsimp only
  repeat' (first | with_reducible assumption | with_reducible apply parts_setN | with_reducible apply parts_selectVersion | with_reducible apply parts_startTraining | ((with_reducible refine Covers.of hw ?_) <;> rfl) | with_reducible apply parts_ite | with_reducible apply parts_ite_snd | split | with_reducible apply parts_mk | ((with_reducible refine Or.inl (Covers.has hw _ ?_)) <;> rfl) | with_reducible exact Or.inr rfl | with_reducible exact Or.inr ⟨rfl, rfl⟩ | with_reducible exact Or.inr ⟨rfl, rfl, rfl⟩ | with_reducible exact Or.inr ⟨rfl, rfl, rfl, rfl⟩ | with_reducible exact Or.inr ⟨rfl, rfl, rfl, rfl, rfl⟩ | (intro _ _ _; dsimp only) | (intro _ _ _))

theorem parts_execFirmwareLoaded {w : Part → Bool} {s0 s : State} {a0} (h : Fixes w s0 s) (hw : Covers [.boot, .aon, .force, .sess, .mem, .dram, .sage, .pins] w) : FixesOut w s0 (execFirmwareLoaded a0 s) := by
  unfold execFirmwareLoaded
  try dsimp only
  repeat' (first | with_reducible assumption | with_reducible apply parts_raise | with_reducible apply parts_loadSlot | with_reducible apply parts_runFirmware | with_reducible apply parts_next | exact parts_fault _ | ((with_reducible refine Covers.of hw ?_) <;> rfl) | with_reducible apply parts_ite | with_reducible apply parts_ite_snd | split | with_reducible apply parts_mk | ((with_reducible refine Or.inl (Covers.has hw _ ?_)) <;> rfl) | with_reducible exact Or.inr rfl | with_reducible exact Or.inr ⟨rfl, rfl⟩ | with_reducible exact Or.inr ⟨rfl, rfl, rfl⟩ | with_reducible exact Or.inr ⟨rfl, rfl, rfl, rfl⟩ | with_reducible exact Or.inr ⟨rfl, rfl, rfl, rfl, rfl⟩ | (intro _ _ _; dsimp only) | (intro _ _ _))

theorem parts_execBootCheckTimeout {w : Part → Bool} {s0 s : State} (h : Fixes w s0 s) (hw : Covers [.boot, .aon, .force, .bank, .landing, .sess, .locks, .odp, .commit, .ver, .mode, .doms, .refs, .tbs, .life, .otp, .pairs, .rings, .msix, .net, .ctxs, .na, .tdm, .audio, .lanes, .iram, .budget, .trans, .xbar, .mem, .dram, .sage, .pair, .pins] w) : FixesOut w s0 (execBootCheckTimeout s) := by
  unfold execBootCheckTimeout
  try dsimp only
  repeat' (first | with_reducible assumption | with_reducible apply parts_internalReset | with_reducible apply parts_raise | with_reducible apply parts_next | exact parts_fault _ | ((with_reducible refine Covers.of hw ?_) <;> rfl) | with_reducible apply parts_ite | with_reducible apply parts_ite_snd | split | with_reducible apply parts_mk | ((with_reducible refine Or.inl (Covers.has hw _ ?_)) <;> rfl) | with_reducible exact Or.inr rfl | with_reducible exact Or.inr ⟨rfl, rfl⟩ | with_reducible exact Or.inr ⟨rfl, rfl, rfl⟩ | with_reducible exact Or.inr ⟨rfl, rfl, rfl, rfl⟩ | with_reducible exact Or.inr ⟨rfl, rfl, rfl, rfl, rfl⟩ | (intro _ _ _; dsimp only) | (intro _ _ _))

theorem parts_execFirmwareRetry {w : Part → Bool} {s0 s : State} (h : Fixes w s0 s) (hw : Covers [.boot, .force] w) : FixesOut w s0 (execFirmwareRetry s) := by
  unfold execFirmwareRetry
  try dsimp only
  repeat' (first | with_reducible assumption | with_reducible apply parts_slotSequences | with_reducible apply parts_loadSlot | with_reducible apply parts_next | exact parts_fault _ | ((with_reducible refine Covers.of hw ?_) <;> rfl) | with_reducible apply parts_ite | with_reducible apply parts_ite_snd | split | with_reducible apply parts_mk | ((with_reducible refine Or.inl (Covers.has hw _ ?_)) <;> rfl) | with_reducible exact Or.inr rfl | with_reducible exact Or.inr ⟨rfl, rfl⟩ | with_reducible exact Or.inr ⟨rfl, rfl, rfl⟩ | with_reducible exact Or.inr ⟨rfl, rfl, rfl, rfl⟩ | with_reducible exact Or.inr ⟨rfl, rfl, rfl, rfl, rfl⟩ | (intro _ _ _; dsimp only) | (intro _ _ _))

theorem parts_restoreConf {w : Part → Bool} {s0 s : State} {a1} (h : Fixes w s0 s) (hw : Covers [.force, .mode, .ctxs, .pair] w) : Fixes w s0 (restoreConf s a1).1 := by
  unfold restoreConf
  try dsimp only
  repeat' (first | with_reducible assumption | with_reducible apply parts_placeAgain | with_reducible apply parts_giveSignals | with_reducible apply parts_withConf | with_reducible apply parts_inMode | with_reducible apply parts_suspendRefs | ((with_reducible refine Covers.of hw ?_) <;> rfl) | with_reducible apply parts_ite | with_reducible apply parts_ite_snd | split | with_reducible apply parts_mk | ((with_reducible refine Or.inl (Covers.has hw _ ?_)) <;> rfl) | with_reducible exact Or.inr rfl | with_reducible exact Or.inr ⟨rfl, rfl⟩ | with_reducible exact Or.inr ⟨rfl, rfl, rfl⟩ | with_reducible exact Or.inr ⟨rfl, rfl, rfl, rfl⟩ | with_reducible exact Or.inr ⟨rfl, rfl, rfl, rfl, rfl⟩ | (intro _ _ _; dsimp only) | (intro _ _ _))

theorem parts_factoryConf {w : Part → Bool} {s0 s : State} (h : Fixes w s0 s) (hw : Covers [.force, .pair] w) : Fixes w s0 (factoryConf s) := by
  unfold factoryConf
  try dsimp only
  repeat' (first | with_reducible assumption | with_reducible apply parts_setF | with_reducible apply parts_withConf | with_reducible apply parts_inMode | with_reducible apply parts_foldl | with_reducible apply parts_foldl_fst | with_reducible apply parts_foldl_snd | ((with_reducible refine Covers.of hw ?_) <;> rfl) | with_reducible apply parts_ite | with_reducible apply parts_ite_snd | split | with_reducible apply parts_mk | ((with_reducible refine Or.inl (Covers.has hw _ ?_)) <;> rfl) | with_reducible exact Or.inr rfl | with_reducible exact Or.inr ⟨rfl, rfl⟩ | with_reducible exact Or.inr ⟨rfl, rfl, rfl⟩ | with_reducible exact Or.inr ⟨rfl, rfl, rfl, rfl⟩ | with_reducible exact Or.inr ⟨rfl, rfl, rfl, rfl, rfl⟩ | (intro _ _ _; dsimp only) | (intro _ _ _))

theorem parts_startConf {w : Part → Bool} {s0 s : State} (h : Fixes w s0 s) (hw : Covers [.free, .force, .landing, .sess, .doms, .life, .rings, .net, .ctxs, .tdm, .audio, .lanes, .iram, .budget, .trans, .mem, .sage, .pair, .pins] w) : Fixes w s0 (startConf s) := by
  unfold startConf
  try dsimp only
  repeat' (first | with_reducible assumption | with_reducible apply parts_domainEntered | with_reducible apply parts_resumeUnits | with_reducible apply parts_moveUnit | with_reducible apply parts_initAudio | ((with_reducible refine Covers.of hw ?_) <;> rfl) | with_reducible apply parts_ite | with_reducible apply parts_ite_snd | split | with_reducible apply parts_mk | ((with_reducible refine Or.inl (Covers.has hw _ ?_)) <;> rfl) | with_reducible exact Or.inr rfl | with_reducible exact Or.inr ⟨rfl, rfl⟩ | with_reducible exact Or.inr ⟨rfl, rfl, rfl⟩ | with_reducible exact Or.inr ⟨rfl, rfl, rfl, rfl⟩ | with_reducible exact Or.inr ⟨rfl, rfl, rfl, rfl, rfl⟩ | (intro _ _ _; dsimp only) | (intro _ _ _))

theorem parts_restored {w : Part → Bool} {s0 s : State} {a1 a2 a3} (h : Fixes w s0 s) (hw : Covers [.aon, .force, .ver] w) : Fixes w s0 (restored s a1 a2 a3) := by
  unfold restored
  try dsimp only
  repeat' (first | with_reducible assumption | with_reducible apply parts_setN | ((with_reducible refine Covers.of hw ?_) <;> rfl) | with_reducible apply parts_ite | with_reducible apply parts_ite_snd | split | with_reducible apply parts_mk | ((with_reducible refine Or.inl (Covers.has hw _ ?_)) <;> rfl) | with_reducible exact Or.inr rfl | with_reducible exact Or.inr ⟨rfl, rfl⟩ | with_reducible exact Or.inr ⟨rfl, rfl, rfl⟩ | with_reducible exact Or.inr ⟨rfl, rfl, rfl, rfl⟩ | with_reducible exact Or.inr ⟨rfl, rfl, rfl, rfl, rfl⟩ | (intro _ _ _; dsimp only) | (intro _ _ _))

theorem parts_restoreNone {w : Part → Bool} {s0 s : State} (h : Fixes w s0 s) (hw : Covers [.free, .aon, .force, .landing, .sess, .ver, .doms, .life, .rings, .net, .ctxs, .tdm, .audio, .lanes, .iram, .budget, .trans, .mem, .sage, .pair, .pins] w) : Fixes w s0 (restoreNone s) := by
  unfold restoreNone
  try dsimp only
  repeat' (first | with_reducible assumption | with_reducible apply parts_restored | with_reducible apply parts_factoryConf | with_reducible apply parts_startConf | ((with_reducible refine Covers.of hw ?_) <;> rfl) | with_reducible apply parts_ite | with_reducible apply parts_ite_snd | split | with_reducible apply parts_mk | ((with_reducible refine Or.inl (Covers.has hw _ ?_)) <;> rfl) | with_reducible exact Or.inr rfl | with_reducible exact Or.inr ⟨rfl, rfl⟩ | with_reducible exact Or.inr ⟨rfl, rfl, rfl⟩ | with_reducible exact Or.inr ⟨rfl, rfl, rfl, rfl⟩ | with_reducible exact Or.inr ⟨rfl, rfl, rfl, rfl, rfl⟩ | (intro _ _ _; dsimp only) | (intro _ _ _))

theorem parts_restoreOne {w : Part → Bool} {s0 s : State} {a1 a2 a3} (h : Fixes w s0 s) (hw : Covers [.free, .aon, .force, .landing, .sess, .ver, .mode, .doms, .life, .rings, .net, .ctxs, .tdm, .audio, .lanes, .iram, .budget, .trans, .mem, .sage, .pair, .pins] w) : Fixes w s0 (restoreOne s a1 a2 a3) := by
  unfold restoreOne
  try dsimp only
  repeat' (first | with_reducible assumption | with_reducible apply parts_restored | with_reducible apply parts_startConf | ((with_reducible refine Covers.of hw ?_) <;> rfl) | with_reducible apply parts_ite | with_reducible apply parts_ite_snd | split | with_reducible apply parts_mk | ((with_reducible refine Or.inl (Covers.has hw _ ?_)) <;> rfl) | with_reducible exact Or.inr rfl | with_reducible exact Or.inr ⟨rfl, rfl⟩ | with_reducible exact Or.inr ⟨rfl, rfl, rfl⟩ | with_reducible exact Or.inr ⟨rfl, rfl, rfl, rfl⟩ | with_reducible exact Or.inr ⟨rfl, rfl, rfl, rfl, rfl⟩ | (intro _ _ _; dsimp only) | (intro _ _ _))

theorem parts_restoreCheck {w : Part → Bool} {s0 s : State} {a1} (h : Fixes w s0 s) (hw : Covers [.force, .mode, .ctxs, .pair] w) : Fixes w s0 (restoreCheck s a1).1 := by
  unfold restoreCheck
  try dsimp only
  repeat' (first | with_reducible assumption | with_reducible apply parts_validate | with_reducible apply parts_restoreConf | ((with_reducible refine Covers.of hw ?_) <;> rfl) | with_reducible apply parts_ite | with_reducible apply parts_ite_snd | split | with_reducible apply parts_mk | ((with_reducible refine Or.inl (Covers.has hw _ ?_)) <;> rfl) | with_reducible exact Or.inr rfl | with_reducible exact Or.inr ⟨rfl, rfl⟩ | with_reducible exact Or.inr ⟨rfl, rfl, rfl⟩ | with_reducible exact Or.inr ⟨rfl, rfl, rfl, rfl⟩ | with_reducible exact Or.inr ⟨rfl, rfl, rfl, rfl, rfl⟩ | (intro _ _ _; dsimp only) | (intro _ _ _))

theorem parts_restoreNext {w : Part → Bool} {s0 s : State} {k v r next} (hn : ∀ t j, Fixes w s0 t → Fixes w s0 (next t j)) (h : Fixes w s0 s)
    (hw : Covers [.free, .aon, .force, .landing, .sess, .ver, .mode, .doms, .life, .rings, .net, .ctxs, .tdm, .audio, .lanes, .iram, .budget, .trans, .mem, .sage, .pair, .pins] w) : Fixes w s0 (restoreNext s k v r next) := by
  have hv := parts_restoreCheck (a1 := v) h (hw.of rfl)
  unfold restoreNext
  split
  · next hq => rw [hq] at hv; exact parts_restoreOne hv (hw.of rfl)
  · exact hn _ _ (parts_skipVersions h (hw.of rfl))

theorem parts_restoreFrom {w : Part → Bool} {s0 : State} {l : List Version} (hw : Covers [.free, .aon, .force, .landing, .sess, .ver, .mode, .doms, .life, .rings, .net, .ctxs, .tdm, .audio, .lanes, .iram, .budget, .trans, .mem, .sage, .pair, .pins] w) : ∀ {s : State} {k}, Fixes w s0 s → Fixes w s0 (restoreFrom l s k) := by
  induction l with
  | nil => intro s k h; exact parts_restoreNone h (hw.of rfl)
  | cons v r ih => intro s k h; exact parts_restoreNext (fun _ _ => ih) h (hw.of rfl)

theorem parts_restoreBoot {w : Part → Bool} {s0 s : State} (h : Fixes w s0 s) (hw : Covers [.free, .aon, .force, .landing, .sess, .ver, .mode, .doms, .life, .rings, .net, .ctxs, .tdm, .audio, .lanes, .iram, .budget, .trans, .mem, .sage, .pair, .pins] w) : Fixes w s0 (restoreBoot s) := by
  unfold restoreBoot
  try dsimp only
  repeat' (first | with_reducible assumption | with_reducible apply parts_restoreFrom | ((with_reducible refine Covers.of hw ?_) <;> rfl) | with_reducible apply parts_ite | with_reducible apply parts_ite_snd | split | with_reducible apply parts_mk | ((with_reducible refine Or.inl (Covers.has hw _ ?_)) <;> rfl) | with_reducible exact Or.inr rfl | with_reducible exact Or.inr ⟨rfl, rfl⟩ | with_reducible exact Or.inr ⟨rfl, rfl, rfl⟩ | with_reducible exact Or.inr ⟨rfl, rfl, rfl, rfl⟩ | with_reducible exact Or.inr ⟨rfl, rfl, rfl, rfl, rfl⟩ | (intro _ _ _; dsimp only) | (intro _ _ _))

theorem parts_trainedBoth {w : Part → Bool} {s0 s : State} {a1} (h : Fixes w s0 s) (hw : Covers [.force, .sess] w) : Fixes w s0 (trainedBoth s a1) := by
  unfold trainedBoth
  try dsimp only
  repeat' (first | with_reducible assumption | with_reducible apply parts_trainedChannel | with_reducible apply parts_foldl | with_reducible apply parts_foldl_fst | with_reducible apply parts_foldl_snd | ((with_reducible refine Covers.of hw ?_) <;> rfl) | with_reducible apply parts_ite | with_reducible apply parts_ite_snd | split | with_reducible apply parts_mk | ((with_reducible refine Or.inl (Covers.has hw _ ?_)) <;> rfl) | with_reducible exact Or.inr rfl | with_reducible exact Or.inr ⟨rfl, rfl⟩ | with_reducible exact Or.inr ⟨rfl, rfl, rfl⟩ | with_reducible exact Or.inr ⟨rfl, rfl, rfl, rfl⟩ | with_reducible exact Or.inr ⟨rfl, rfl, rfl, rfl, rfl⟩ | (intro _ _ _; dsimp only) | (intro _ _ _))

theorem parts_checkOrder {w : Part → Bool} {s0 s : State} (h : Fixes w s0 s) (hw : Covers [.force] w) : Fixes w s0 (checkOrder s) := by
  unfold checkOrder
  try dsimp only
  repeat' (first | with_reducible assumption | with_reducible apply parts_setN | ((with_reducible refine Covers.of hw ?_) <;> rfl) | with_reducible apply parts_ite | with_reducible apply parts_ite_snd | split | with_reducible apply parts_mk | ((with_reducible refine Or.inl (Covers.has hw _ ?_)) <;> rfl) | with_reducible exact Or.inr rfl | with_reducible exact Or.inr ⟨rfl, rfl⟩ | with_reducible exact Or.inr ⟨rfl, rfl, rfl⟩ | with_reducible exact Or.inr ⟨rfl, rfl, rfl, rfl⟩ | with_reducible exact Or.inr ⟨rfl, rfl, rfl, rfl, rfl⟩ | (intro _ _ _; dsimp only) | (intro _ _ _))

theorem parts_failStart {w : Part → Bool} {s0 s : State} (h : Fixes w s0 s) (hw : Covers [.free, .boot, .aon, .force, .landing, .sess, .ver, .doms, .life, .rings, .net, .ctxs, .tdm, .audio, .lanes, .iram, .budget, .trans, .mem, .sage, .pair, .pins] w) : Fixes w s0 (failStart s) := by
  unfold failStart
  try dsimp only
  repeat' (first | with_reducible assumption | with_reducible apply parts_restored | with_reducible apply parts_factoryConf | with_reducible apply parts_startConf | with_reducible apply parts_fatal | ((with_reducible refine Covers.of hw ?_) <;> rfl) | with_reducible apply parts_ite | with_reducible apply parts_ite_snd | split | with_reducible apply parts_mk | ((with_reducible refine Or.inl (Covers.has hw _ ?_)) <;> rfl) | with_reducible exact Or.inr rfl | with_reducible exact Or.inr ⟨rfl, rfl⟩ | with_reducible exact Or.inr ⟨rfl, rfl, rfl⟩ | with_reducible exact Or.inr ⟨rfl, rfl, rfl, rfl⟩ | with_reducible exact Or.inr ⟨rfl, rfl, rfl, rfl, rfl⟩ | (intro _ _ _; dsimp only) | (intro _ _ _))

theorem parts_restoreStart {w : Part → Bool} {s0 s : State} (h : Fixes w s0 s) (hw : Covers [.free, .boot, .aon, .force, .landing, .sess, .ver, .mode, .doms, .life, .rings, .net, .ctxs, .tdm, .audio, .lanes, .iram, .budget, .trans, .mem, .sage, .pair, .pins] w) : Fixes w s0 (restoreStart s) := by
  unfold restoreStart
  try dsimp only
  repeat' (first | with_reducible assumption | with_reducible apply parts_restoreBoot | with_reducible apply parts_setRole | ((with_reducible refine Covers.of hw ?_) <;> rfl) | with_reducible apply parts_ite | with_reducible apply parts_ite_snd | split | with_reducible apply parts_mk | ((with_reducible refine Or.inl (Covers.has hw _ ?_)) <;> rfl) | with_reducible exact Or.inr rfl | with_reducible exact Or.inr ⟨rfl, rfl⟩ | with_reducible exact Or.inr ⟨rfl, rfl, rfl⟩ | with_reducible exact Or.inr ⟨rfl, rfl, rfl, rfl⟩ | with_reducible exact Or.inr ⟨rfl, rfl, rfl, rfl, rfl⟩ | (intro _ _ _; dsimp only) | (intro _ _ _))

theorem parts_execDramTrainingDone {w : Part → Bool} {s0 s : State} {a0} (h : Fixes w s0 s) (hw : Covers [.free, .boot, .aon, .force, .landing, .sess, .ver, .mode, .doms, .life, .rings, .net, .ctxs, .tdm, .audio, .lanes, .iram, .budget, .trans, .xbar, .mem, .dram, .sage, .pair, .pins] w) : FixesOut w s0 (execDramTrainingDone a0 s) := by
  unfold execDramTrainingDone
  try dsimp only
  repeat' (first | with_reducible assumption | with_reducible apply parts_restoreStart | with_reducible apply parts_failStart | with_reducible apply parts_wakeChannel | with_reducible apply parts_stepTraining | with_reducible apply parts_checkOrder | with_reducible apply parts_trainedBoth | with_reducible apply parts_next | exact parts_fault _ | with_reducible apply parts_foldl | with_reducible apply parts_foldl_fst | with_reducible apply parts_foldl_snd | ((with_reducible refine Covers.of hw ?_) <;> rfl) | with_reducible apply parts_ite | with_reducible apply parts_ite_snd | split | with_reducible apply parts_mk | ((with_reducible refine Or.inl (Covers.has hw _ ?_)) <;> rfl) | with_reducible exact Or.inr rfl | with_reducible exact Or.inr ⟨rfl, rfl⟩ | with_reducible exact Or.inr ⟨rfl, rfl, rfl⟩ | with_reducible exact Or.inr ⟨rfl, rfl, rfl, rfl⟩ | with_reducible exact Or.inr ⟨rfl, rfl, rfl, rfl, rfl⟩ | (intro _ _ _; dsimp only) | (intro _ _ _))

theorem parts_writeSetpoint {w : Part → Bool} {s0 s : State} {a1} (h : Fixes w s0 s) (hw : Covers [.aon, .force, .sess, .ver, .mem, .dram, .sage] w) : Fixes w s0 (writeSetpoint s a1).2 := by
  unfold writeSetpoint
  try dsimp only
  repeat' (first | with_reducible assumption | with_reducible apply parts_setDram | with_reducible apply parts_changeSetpoint | with_reducible apply parts_loseDirectory | ((with_reducible refine Covers.of hw ?_) <;> rfl) | with_reducible apply parts_ite | with_reducible apply parts_ite_snd | split | with_reducible apply parts_mk | ((with_reducible refine Or.inl (Covers.has hw _ ?_)) <;> rfl) | with_reducible exact Or.inr rfl | with_reducible exact Or.inr ⟨rfl, rfl⟩ | with_reducible exact Or.inr ⟨rfl, rfl, rfl⟩ | with_reducible exact Or.inr ⟨rfl, rfl, rfl, rfl⟩ | with_reducible exact Or.inr ⟨rfl, rfl, rfl, rfl, rfl⟩ | (intro _ _ _; dsimp only) | (intro _ _ _))

theorem parts_writeTrain {w : Part → Bool} {s0 s : State} (h : Fixes w s0 s) (hw : Covers [.aon, .force, .sess, .ver, .mem, .dram, .sage] w) : Fixes w s0 (writeTrain s).2 := by
  unfold writeTrain
  try dsimp only
  repeat' (first | with_reducible assumption | with_reducible apply parts_startTraining | with_reducible apply parts_loseDirectory | ((with_reducible refine Covers.of hw ?_) <;> rfl) | with_reducible apply parts_ite | with_reducible apply parts_ite_snd | split | with_reducible apply parts_mk | ((with_reducible refine Or.inl (Covers.has hw _ ?_)) <;> rfl) | with_reducible exact Or.inr rfl | with_reducible exact Or.inr ⟨rfl, rfl⟩ | with_reducible exact Or.inr ⟨rfl, rfl, rfl⟩ | with_reducible exact Or.inr ⟨rfl, rfl, rfl, rfl⟩ | with_reducible exact Or.inr ⟨rfl, rfl, rfl, rfl, rfl⟩ | (intro _ _ _; dsimp only) | (intro _ _ _))

theorem parts_startUnmute {w : Part → Bool} {s0 s : State} (h : Fixes w s0 s) (hw : Covers [.boot, .force, .sess, .ctxs, .tdm, .audio, .pins] w) : Fixes w s0 (startUnmute s) := by
  unfold startUnmute
  try dsimp only
  repeat' (first | with_reducible assumption | with_reducible apply parts_takeToken | with_reducible apply parts_fadeOutlets | with_reducible apply parts_setRole | with_reducible apply parts_openWindows | ((with_reducible refine Covers.of hw ?_) <;> rfl) | with_reducible apply parts_ite | with_reducible apply parts_ite_snd | split | with_reducible apply parts_mk | ((with_reducible refine Or.inl (Covers.has hw _ ?_)) <;> rfl) | with_reducible exact Or.inr rfl | with_reducible exact Or.inr ⟨rfl, rfl⟩ | with_reducible exact Or.inr ⟨rfl, rfl, rfl⟩ | with_reducible exact Or.inr ⟨rfl, rfl, rfl, rfl⟩ | with_reducible exact Or.inr ⟨rfl, rfl, rfl, rfl, rfl⟩ | (intro _ _ _; dsimp only) | (intro _ _ _))

theorem parts_execUnmuteStart {w : Part → Bool} {s0 s : State} (h : Fixes w s0 s) (hw : Covers [.boot, .force, .sess, .ctxs, .tdm, .audio, .pins] w) : FixesOut w s0 (execUnmuteStart s) := by
  unfold execUnmuteStart
  try dsimp only
  repeat' (first | with_reducible assumption | with_reducible apply parts_startUnmute | with_reducible apply parts_next | exact parts_fault _ | ((with_reducible refine Covers.of hw ?_) <;> rfl) | with_reducible apply parts_ite | with_reducible apply parts_ite_snd | split | with_reducible apply parts_mk | ((with_reducible refine Or.inl (Covers.has hw _ ?_)) <;> rfl) | with_reducible exact Or.inr rfl | with_reducible exact Or.inr ⟨rfl, rfl⟩ | with_reducible exact Or.inr ⟨rfl, rfl, rfl⟩ | with_reducible exact Or.inr ⟨rfl, rfl, rfl, rfl⟩ | with_reducible exact Or.inr ⟨rfl, rfl, rfl, rfl, rfl⟩ | (intro _ _ _; dsimp only) | (intro _ _ _))

theorem parts_execStartUpDone {w : Part → Bool} {s0 s : State} (h : Fixes w s0 s) (hw : Covers [.boot, .aon, .force, .sess] w) : FixesOut w s0 (execStartUpDone s) := by
  unfold execStartUpDone
  try dsimp only
  repeat' (first | with_reducible assumption | with_reducible apply parts_setN | with_reducible apply parts_raise | with_reducible apply parts_next | exact parts_fault _ | ((with_reducible refine Covers.of hw ?_) <;> rfl) | with_reducible apply parts_ite | with_reducible apply parts_ite_snd | split | with_reducible apply parts_mk | ((with_reducible refine Or.inl (Covers.has hw _ ?_)) <;> rfl) | with_reducible exact Or.inr rfl | with_reducible exact Or.inr ⟨rfl, rfl⟩ | with_reducible exact Or.inr ⟨rfl, rfl, rfl⟩ | with_reducible exact Or.inr ⟨rfl, rfl, rfl, rfl⟩ | with_reducible exact Or.inr ⟨rfl, rfl, rfl, rfl, rfl⟩ | (intro _ _ _; dsimp only) | (intro _ _ _))

theorem parts_writeFw {w : Part → Bool} {s0 s : State} {a1} (h : Fixes w s0 s) (hw : Covers [.boot, .force] w) : Fixes w s0 (writeFw s a1) := by
  unfold writeFw
  try dsimp only
  repeat' (first | with_reducible assumption | with_reducible apply parts_setFwSlot | with_reducible apply parts_setN | with_reducible apply parts_slotSequences | ((with_reducible refine Covers.of hw ?_) <;> rfl) | with_reducible apply parts_ite | with_reducible apply parts_ite_snd | split | with_reducible apply parts_mk | ((with_reducible refine Or.inl (Covers.has hw _ ?_)) <;> rfl) | with_reducible exact Or.inr rfl | with_reducible exact Or.inr ⟨rfl, rfl⟩ | with_reducible exact Or.inr ⟨rfl, rfl, rfl⟩ | with_reducible exact Or.inr ⟨rfl, rfl, rfl, rfl⟩ | with_reducible exact Or.inr ⟨rfl, rfl, rfl, rfl, rfl⟩ | (intro _ _ _; dsimp only) | (intro _ _ _))

theorem parts_execFwProgramDone {w : Part → Bool} {s0 s : State} (h : Fixes w s0 s) (hw : Covers [.boot, .force] w) : FixesOut w s0 (execFwProgramDone s) := by
  unfold execFwProgramDone
  try dsimp only
  repeat' (first | with_reducible assumption | with_reducible apply parts_setFwSlot | with_reducible apply parts_setN | with_reducible apply parts_next | exact parts_fault _ | with_reducible apply parts_foldl | with_reducible apply parts_foldl_fst | with_reducible apply parts_foldl_snd | ((with_reducible refine Covers.of hw ?_) <;> rfl) | with_reducible apply parts_ite | with_reducible apply parts_ite_snd | split | with_reducible apply parts_mk | ((with_reducible refine Or.inl (Covers.has hw _ ?_)) <;> rfl) | with_reducible exact Or.inr rfl | with_reducible exact Or.inr ⟨rfl, rfl⟩ | with_reducible exact Or.inr ⟨rfl, rfl, rfl⟩ | with_reducible exact Or.inr ⟨rfl, rfl, rfl, rfl⟩ | with_reducible exact Or.inr ⟨rfl, rfl, rfl, rfl, rfl⟩ | (intro _ _ _; dsimp only) | (intro _ _ _))

theorem parts_execFwVerifyDone {w : Part → Bool} {s0 s : State} (h : Fixes w s0 s) (hw : Covers [.boot, .force] w) : FixesOut w s0 (execFwVerifyDone s) := by
  unfold execFwVerifyDone
  try dsimp only
  repeat' (first | with_reducible assumption | with_reducible apply parts_setFwSlot | with_reducible apply parts_setN | with_reducible apply parts_slotSequences | with_reducible apply parts_next | exact parts_fault _ | ((with_reducible refine Covers.of hw ?_) <;> rfl) | with_reducible apply parts_ite | with_reducible apply parts_ite_snd | split | with_reducible apply parts_mk | ((with_reducible refine Or.inl (Covers.has hw _ ?_)) <;> rfl) | with_reducible exact Or.inr rfl | with_reducible exact Or.inr ⟨rfl, rfl⟩ | with_reducible exact Or.inr ⟨rfl, rfl, rfl⟩ | with_reducible exact Or.inr ⟨rfl, rfl, rfl, rfl⟩ | with_reducible exact Or.inr ⟨rfl, rfl, rfl, rfl, rfl⟩ | (intro _ _ _; dsimp only) | (intro _ _ _))

end Sys2Proof.Machine
end

