-- ==== Sys2Proof/Laws/PartsAccess.lean ====
section
/-!
SUPPORT. Laws/PartsAccess.lean: the operations of Machine/Access.lean change only the parts of the state named (Laws/Parts.lean).
-/
-- One declaration at a time and no linter: the package is compiled as one text under a memory limit.
set_option linter.all false
set_option Elab.async false
namespace Sys2Proof.Machine

theorem parts_ownMarks {w : Part → Bool} {s0 s : State} {a1 a2 a3} (h : Fixes w s0 s) (hw : Covers [.force, .bank, .sess, .commit] w) : Fixes w s0 (ownMarks s a1 a2 a3) := by
  unfold ownMarks
  try dsimp only
  repeat' (first | with_reducible assumption | with_reducible apply parts_openContext | with_reducible apply parts_setN | ((with_reducible refine Covers.of hw ?_) <;> rfl) | with_reducible apply parts_ite | with_reducible apply parts_ite_snd | split | with_reducible apply parts_mk | ((with_reducible refine Or.inl (Covers.has hw _ ?_)) <;> rfl) | with_reducible exact Or.inr rfl | with_reducible exact Or.inr ⟨rfl, rfl⟩ | with_reducible exact Or.inr ⟨rfl, rfl, rfl⟩ | with_reducible exact Or.inr ⟨rfl, rfl, rfl, rfl⟩ | with_reducible exact Or.inr ⟨rfl, rfl, rfl, rfl, rfl⟩ | (intro _ _ _; dsimp only) | (intro _ _ _))

theorem parts_checkWrite {w : Part → Bool} {s0 s : State} {a1 a2 a3} (h : Fixes w s0 s) (hw : Covers [.free, .aon, .force, .bank, .landing, .sess, .commit, .ver, .mode, .doms, .ctxs, .audio, .iram, .budget, .trans, .mem, .dram, .sage, .pair, .pins] w) : Fixes w s0 (checkWrite s a1 a2 a3).2.2 := by
  unfold checkWrite
  try dsimp only
  repeat' (first | with_reducible assumption | with_reducible apply parts_ownMarks | ((with_reducible refine Covers.of hw ?_) <;> rfl) | with_reducible apply parts_ite | with_reducible apply parts_ite_snd | split | with_reducible apply parts_mk | ((with_reducible refine Or.inl (Covers.has hw _ ?_)) <;> rfl) | with_reducible exact Or.inr rfl | with_reducible exact Or.inr ⟨rfl, rfl⟩ | with_reducible exact Or.inr ⟨rfl, rfl, rfl⟩ | with_reducible exact Or.inr ⟨rfl, rfl, rfl, rfl⟩ | with_reducible exact Or.inr ⟨rfl, rfl, rfl, rfl, rfl⟩ | (intro _ _ _; dsimp only) | (intro _ _ _))

theorem parts_writeEntry {w : Part → Bool} {s0 s : State} {a1 a2} (h : Fixes w s0 s) (hw : Covers [.bank, .commit] w) : Fixes w s0 (writeEntry s a1 a2) := by
  unfold writeEntry
  try dsimp only
  repeat' (first | with_reducible assumption | with_reducible apply parts_setBank | with_reducible apply parts_foldl | with_reducible apply parts_foldl_fst | with_reducible apply parts_foldl_snd | ((with_reducible refine Covers.of hw ?_) <;> rfl) | with_reducible apply parts_ite | with_reducible apply parts_ite_snd | split | with_reducible apply parts_mk | ((with_reducible refine Or.inl (Covers.has hw _ ?_)) <;> rfl) | with_reducible exact Or.inr rfl | with_reducible exact Or.inr ⟨rfl, rfl⟩ | with_reducible exact Or.inr ⟨rfl, rfl, rfl⟩ | with_reducible exact Or.inr ⟨rfl, rfl, rfl, rfl⟩ | with_reducible exact Or.inr ⟨rfl, rfl, rfl, rfl, rfl⟩ | (intro _ _ _; dsimp only) | (intro _ _ _))

theorem parts_stageWrite {w : Part → Bool} {s0 s : State} {a1 a2} (h : Fixes w s0 s) (hw : Covers [.bank, .commit] w) : Fixes w s0 (stageWrite s a1 a2) := by
  unfold stageWrite
  try dsimp only
  repeat' (first | with_reducible assumption | with_reducible apply parts_setBank | with_reducible apply parts_writeEntry | ((with_reducible refine Covers.of hw ?_) <;> rfl) | with_reducible apply parts_ite | with_reducible apply parts_ite_snd | split | with_reducible apply parts_mk | ((with_reducible refine Or.inl (Covers.has hw _ ?_)) <;> rfl) | with_reducible exact Or.inr rfl | with_reducible exact Or.inr ⟨rfl, rfl⟩ | with_reducible exact Or.inr ⟨rfl, rfl, rfl⟩ | with_reducible exact Or.inr ⟨rfl, rfl, rfl, rfl⟩ | with_reducible exact Or.inr ⟨rfl, rfl, rfl, rfl, rfl⟩ | (intro _ _ _; dsimp only) | (intro _ _ _))

theorem parts_closeBy {w : Part → Bool} {s0 s : State} {a1} (h : Fixes w s0 s) (hw : Covers [.force, .sess, .commit, .pairs, .msix] w) : Fixes w s0 (closeBy s a1) := by
  unfold closeBy
  try dsimp only
  repeat' (first | with_reducible assumption | with_reducible apply parts_closeSession | with_reducible apply parts_disablePair | with_reducible apply parts_setPair | with_reducible apply parts_raisePair | ((with_reducible refine Covers.of hw ?_) <;> rfl) | with_reducible apply parts_ite | with_reducible apply parts_ite_snd | split | with_reducible apply parts_mk | ((with_reducible refine Or.inl (Covers.has hw _ ?_)) <;> rfl) | with_reducible exact Or.inr rfl | with_reducible exact Or.inr ⟨rfl, rfl⟩ | with_reducible exact Or.inr ⟨rfl, rfl, rfl⟩ | with_reducible exact Or.inr ⟨rfl, rfl, rfl, rfl⟩ | with_reducible exact Or.inr ⟨rfl, rfl, rfl, rfl, rfl⟩ | (intro _ _ _; dsimp only) | (intro _ _ _))

theorem parts_restartRing {w : Part → Bool} {s0 s : State} {a1} (h : Fixes w s0 s) (hw : Covers [.life] w) : Fixes w s0 (restartRing s a1) := by
  unfold restartRing
  try dsimp only
  repeat' (first | with_reducible assumption | with_reducible apply parts_setLife | ((with_reducible refine Covers.of hw ?_) <;> rfl) | with_reducible apply parts_ite | with_reducible apply parts_ite_snd | split | with_reducible apply parts_mk | ((with_reducible refine Or.inl (Covers.has hw _ ?_)) <;> rfl) | with_reducible exact Or.inr rfl | with_reducible exact Or.inr ⟨rfl, rfl⟩ | with_reducible exact Or.inr ⟨rfl, rfl, rfl⟩ | with_reducible exact Or.inr ⟨rfl, rfl, rfl, rfl⟩ | with_reducible exact Or.inr ⟨rfl, rfl, rfl, rfl, rfl⟩ | (intro _ _ _; dsimp only) | (intro _ _ _))

theorem parts_stageFactory {w : Part → Bool} {s0 s : State} (h : Fixes w s0 s) (hw : Covers [.bank] w) : Fixes w s0 (stageFactory s) := by
  unfold stageFactory
  try dsimp only
  repeat' (first | with_reducible assumption | ((with_reducible refine Covers.of hw ?_) <;> rfl) | with_reducible apply parts_ite | with_reducible apply parts_ite_snd | split | with_reducible apply parts_mk | ((with_reducible refine Or.inl (Covers.has hw _ ?_)) <;> rfl) | with_reducible exact Or.inr rfl | with_reducible exact Or.inr ⟨rfl, rfl⟩ | with_reducible exact Or.inr ⟨rfl, rfl, rfl⟩ | with_reducible exact Or.inr ⟨rfl, rfl, rfl, rfl⟩ | with_reducible exact Or.inr ⟨rfl, rfl, rfl, rfl, rfl⟩ | (intro _ _ _; dsimp only) | (intro _ _ _))

theorem parts_act {w : Part → Bool} {s0 s : State} {a1 a2 a3} (h : Fixes w s0 s) (hw : Covers [.free, .boot, .aon, .force, .bank, .landing, .sess, .locks, .odp, .commit, .ver, .mode, .doms, .refs, .tbs, .life, .otp, .pairs, .rings, .msix, .net, .ctxs, .na, .tdm, .audio, .lanes, .iram, .budget, .trans, .xbar, .mem, .dram, .sage, .pair, .pins] w) : Fixes w s0 (act s a1 a2 a3) := by
  unfold act
  try dsimp only
  repeat' (first | with_reducible assumption | with_reducible apply parts_restartRing | with_reducible apply parts_doReadback | with_reducible apply parts_writeTrain | with_reducible apply parts_openContext | with_reducible apply parts_closeBy | with_reducible apply parts_landLive | with_reducible apply parts_formRecord | with_reducible apply parts_doReqMode | with_reducible apply parts_internalReset | with_reducible apply parts_doRenumber | with_reducible apply parts_setN | with_reducible apply parts_acceptStep | with_reducible apply parts_realignOutputs | with_reducible apply parts_stageFactory | with_reducible apply parts_clearMembers | with_reducible apply parts_rejectStep | with_reducible apply parts_doDiscard | with_reducible apply parts_writeFw | with_reducible apply parts_requestHandover | with_reducible apply parts_setDom | with_reducible apply parts_doCancel | ((with_reducible refine Covers.of hw ?_) <;> rfl) | with_reducible apply parts_ite | with_reducible apply parts_ite_snd | split | with_reducible apply parts_mk | ((with_reducible refine Or.inl (Covers.has hw _ ?_)) <;> rfl) | with_reducible exact Or.inr rfl | with_reducible exact Or.inr ⟨rfl, rfl⟩ | with_reducible exact Or.inr ⟨rfl, rfl, rfl⟩ | with_reducible exact Or.inr ⟨rfl, rfl, rfl, rfl⟩ | with_reducible exact Or.inr ⟨rfl, rfl, rfl, rfl, rfl⟩ | (intro _ _ _; dsimp only) | (intro _ _ _))

theorem parts_liveWrite {w : Part → Bool} {s0 s : State} {a1 a2 a3} (h : Fixes w s0 s) (hw : Covers [.aon, .force, .landing, .sess, .ver, .mem, .dram, .sage] w) : Fixes w s0 (liveWrite s a1 a2 a3) := by
  unfold liveWrite
  try dsimp only
  repeat' (first | with_reducible assumption | with_reducible apply parts_landLive | with_reducible apply parts_writeSetpoint | with_reducible apply parts_setF | with_reducible apply parts_setSess | ((with_reducible refine Covers.of hw ?_) <;> rfl) | with_reducible apply parts_ite | with_reducible apply parts_ite_snd | split | with_reducible apply parts_mk | ((with_reducible refine Or.inl (Covers.has hw _ ?_)) <;> rfl) | with_reducible exact Or.inr rfl | with_reducible exact Or.inr ⟨rfl, rfl⟩ | with_reducible exact Or.inr ⟨rfl, rfl, rfl⟩ | with_reducible exact Or.inr ⟨rfl, rfl, rfl, rfl⟩ | with_reducible exact Or.inr ⟨rfl, rfl, rfl, rfl, rfl⟩ | (intro _ _ _; dsimp only) | (intro _ _ _))

theorem parts_writeEffect {w : Part → Bool} {s0 s : State} {a1 a2 a3} (h : Fixes w s0 s) (hw : Covers [.free, .boot, .aon, .force, .bank, .landing, .sess, .locks, .odp, .commit, .ver, .mode, .doms, .refs, .tbs, .life, .otp, .pairs, .rings, .msix, .net, .ctxs, .na, .tdm, .audio, .lanes, .iram, .budget, .trans, .xbar, .mem, .dram, .sage, .pair, .pins] w) : Fixes w s0 (writeEffect s a1 a2 a3) := by
  unfold writeEffect
  try dsimp only
  repeat' (first | with_reducible assumption | with_reducible apply parts_act | with_reducible apply parts_stageWrite | with_reducible apply parts_liveWrite | ((with_reducible refine Covers.of hw ?_) <;> rfl) | with_reducible apply parts_ite | with_reducible apply parts_ite_snd | split | with_reducible apply parts_mk | ((with_reducible refine Or.inl (Covers.has hw _ ?_)) <;> rfl) | with_reducible exact Or.inr rfl | with_reducible exact Or.inr ⟨rfl, rfl⟩ | with_reducible exact Or.inr ⟨rfl, rfl, rfl⟩ | with_reducible exact Or.inr ⟨rfl, rfl, rfl, rfl⟩ | with_reducible exact Or.inr ⟨rfl, rfl, rfl, rfl, rfl⟩ | (intro _ _ _; dsimp only) | (intro _ _ _))

theorem parts_writeAll {w : Part → Bool} {s0 s : State} {a1 a2} (h : Fixes w s0 s) (hw : Covers [.free, .boot, .aon, .force, .bank, .landing, .sess, .locks, .odp, .commit, .ver, .mode, .doms, .refs, .tbs, .life, .otp, .pairs, .rings, .msix, .net, .ctxs, .na, .tdm, .audio, .lanes, .iram, .budget, .trans, .xbar, .mem, .dram, .sage, .pair, .pins] w) : Fixes w s0 (writeAll s a1 a2) := by
  unfold writeAll
  try dsimp only
  repeat' (first | with_reducible assumption | with_reducible apply parts_recordWrites | with_reducible apply parts_writeEffect | with_reducible apply parts_foldl | with_reducible apply parts_foldl_fst | with_reducible apply parts_foldl_snd | ((with_reducible refine Covers.of hw ?_) <;> rfl) | with_reducible apply parts_ite | with_reducible apply parts_ite_snd | split | with_reducible apply parts_mk | ((with_reducible refine Or.inl (Covers.has hw _ ?_)) <;> rfl) | with_reducible exact Or.inr rfl | with_reducible exact Or.inr ⟨rfl, rfl⟩ | with_reducible exact Or.inr ⟨rfl, rfl, rfl⟩ | with_reducible exact Or.inr ⟨rfl, rfl, rfl, rfl⟩ | with_reducible exact Or.inr ⟨rfl, rfl, rfl, rfl, rfl⟩ | (intro _ _ _; dsimp only) | (intro _ _ _))

end Sys2Proof.Machine
end

