-- ==== Sys2Proof/Laws/PerInstr.lean ====
section
/-!
SUPPORT. Laws/PerInstr.lean: what well-formedness says of each command as syntax: the lanes and the sessions that it names exist.
-/
namespace Sys2Proof.Laws.Sized

/-- The lanes of the part that a command names (R16). -/
def lanes : Instr → List Nat
  | .programStart lane _ => [lane]
  | .nopBundle lane => [lane]
  | .halt lane => [lane]
  | .lset lane _ _ => [lane]
  | .loop lane _ _ => [lane]
  | .bld lane _ _ => [lane]
  | .mac lane _ _ _ _ => [lane]
  | .msu lane _ _ _ _ => [lane]
  | .mpy lane _ _ _ _ => [lane]
  | .ext lane _ _ _ _ _ => [lane]
  | .acc lane _ _ _ => [lane]
  | .adda lane _ _ => [lane]
  | .suba lane _ _ => [lane]
  | .sha lane _ _ => [lane]
  | .clr lane _ => [lane]
  | .add lane _ _ _ => [lane]
  | .sub lane _ _ _ => [lane]
  | .asr lane _ _ _ => [lane]
  | .asl lane _ _ _ => [lane]
  | .abs lane _ _ => [lane]
  | .neg lane _ _ => [lane]
  | .mov lane _ _ => [lane]
  | .mvi lane _ _ => [lane]
  | .mvs lane _ _ => [lane]
  | .mvr lane _ _ => [lane]
  | .max lane _ => [lane]
  | .min lane _ => [lane]
  | .mxclr lane _ => [lane]
  | .and lane _ _ _ => [lane]
  | .or lane _ _ _ => [lane]
  | .xor lane _ _ _ => [lane]
  | .ld lane _ _ _ _ => [lane]
  | .st lane _ _ _ => [lane]
  | .xmod lane _ _ _ => [lane]
  | _ => []

/-- The sessions that a command names (R236). -/
def sessions : Instr → List Nat
  | .revert n _ _ _ => [n]
  | .realign n _ _ _ => [n]
  | .stepAccept n _ _ _ => [n]
  | .stepReject n _ _ _ => [n]
  | .rxOpen n _ _ _ => [n]
  | .txOpen n _ _ _ => [n]
  | .restart n _ _ _ => [n]
  | .odpSessionIdleTimeout n => [n]
  | .odpReassemblyTimeout n _ => [n]
  | .auth n _ _ _ _ => [n]
  | .authPendingTimeout n => [n]
  | .read n _ _ => [n]
  | .write n _ _ _ => [n]
  | .readBlock n _ _ _ _ => [n]
  | .writeBlock n _ _ _ _ => [n]
  | .txnBegin n _ => [n]
  | .txnEnd n _ => [n]
  | .txnExpired n => [n]
  | .lockAcquired n => [n]
  | .lockTimeout n => [n]
  | .commit n _ _ => [n]
  | .rollback n _ _ => [n]
  | .subscribe n _ _ => [n]
  | .unsubscribe n _ _ => [n]
  | .close n _ => [n]
  | .nop n _ => [n]
  | .closeSession n _ _ _ => [n]
  | .subscriptionIntervalEnd n _ _ => [n]
  | .notifySend n => [n]
  | .cancel n _ _ _ => [n]
  | .discard n _ _ _ => [n]
  | .renumber n _ _ _ => [n]
  | .sessionStagingWrite n _ _ _ => [n]
  | .factory n _ _ _ => [n]
  | .nodeLiveWrite n _ _ _ _ => [n]
  | .imageWrite n _ _ _ => [n]
  | .placementListWrite n _ _ _ _ => [n]
  | .patchWrite n _ _ _ => [n]
  | .clear n _ _ _ => [n]
  | .reqMode n _ _ _ => [n]
  | .rbGo n _ _ _ => [n]
  | .setpoint n _ _ _ => [n]
  | .train n _ _ _ => [n]
  | .recover n _ _ _ => [n]
  | .logClear n _ _ _ => [n]
  | .fullTest n _ _ _ => [n]
  | .tempClear n _ _ _ => [n]
  | .fwData n _ _ _ => [n]
  | .fwVerify n _ _ _ => [n]
  | .handover n _ _ _ => [n]
  | _ => []

/-- A well-formed command names lanes below 256 and sessions below 32. -/
def Statement (i : Instr) : Prop := wellFormed i = true → (∀ l ∈ lanes i, l < 256) ∧ (∀ n ∈ sessions i, n < 32)

/-- A command that names neither. -/
theorem of_none (i : Instr) (hl : lanes i = []) (hn : sessions i = []) : Statement i := by
  intro _; rw [hl, hn]; exact ⟨fun _ h => absurd h List.not_mem_nil, fun _ h => absurd h List.not_mem_nil⟩

/-- A command that names one lane. -/
theorem of_lane (i : Instr) (k : Nat) (hl : lanes i = [k]) (hn : sessions i = []) (h : wellFormed i = true → k < 256) : Statement i := by
  intro w; rw [hl, hn]; exact ⟨fun _ m => List.mem_singleton.mp m ▸ h w, fun _ m => absurd m List.not_mem_nil⟩

/-- A command that names one session. -/
theorem of_session (i : Instr) (k : Nat) (hl : lanes i = []) (hn : sessions i = [k]) (h : wellFormed i = true → k < 32) : Statement i := by
  intro w; rw [hl, hn]; exact ⟨fun _ m => absurd m List.not_mem_nil, fun _ m => List.mem_singleton.mp m ▸ h w⟩

/-- Of two checks that hold the first holds. -/
theorem left {a b : Bool} (h : (a && b) = true) : a = true := (Bool.and_eq_true a b ▸ h).1

theorem coldStart : Statement (.coldStart) := of_none _ rfl rfl
theorem externalWarmReset (a0 : _) : Statement (.externalWarmReset a0) := of_none _ rfl rfl
theorem supplyMonitorTrip (a0 : _) (a1 : _) (a2 : _) (a3 : _) : Statement (.supplyMonitorTrip a0 a1 a2 a3) := of_none _ rfl rfl
theorem resetNRelease (a0 : _) (a1 : _) (a2 : _) : Statement (.resetNRelease a0 a1 a2) := of_none _ rfl rfl
theorem fuseLoadDone : Statement (.fuseLoadDone) := of_none _ rfl rfl
theorem firmwareLoaded (a0 : _) : Statement (.firmwareLoaded a0) := of_none _ rfl rfl
theorem bootCheckTimeout : Statement (.bootCheckTimeout) := of_none _ rfl rfl
theorem firmwareRetry : Statement (.firmwareRetry) := of_none _ rfl rfl
theorem dramTrainingStepEnd (a0 : _) : Statement (.dramTrainingStepEnd a0) := of_none _ rfl rfl
theorem dramTrainingDone (a0 : _) : Statement (.dramTrainingDone a0) := of_none _ rfl rfl
theorem unmuteStart : Statement (.unmuteStart) := of_none _ rfl rfl
theorem startUpDone : Statement (.startUpDone) := of_none _ rfl rfl
theorem frameTick (a0 : _) (a1 : _) (a2 : _) : Statement (.frameTick a0 a1 a2) := of_none _ rfl rfl
theorem shadowCopyEnd (a0 : _) : Statement (.shadowCopyEnd a0) := of_none _ rfl rfl
theorem phaseWindowStart (a0 : _) (a1 : _) (a2 : _) (a3 : _) : Statement (.phaseWindowStart a0 a1 a2 a3) := of_none _ rfl rfl
theorem phaseCutoff (a0 : _) (a1 : _) (a2 : _) : Statement (.phaseCutoff a0 a1 a2) := of_none _ rfl rfl
theorem budgetCounterExhausted (a0 : _) : Statement (.budgetCounterExhausted a0) := of_none _ rfl rfl
theorem laneBudgetStop (a0 : _) (a1 : _) (a2 : _) : Statement (.laneBudgetStop a0 a1 a2) := of_none _ rfl rfl
theorem drainComplete (a0 : _) : Statement (.drainComplete a0) := of_none _ rfl rfl
theorem bridgeRatioSettled (a0 : _) (a1 : _) : Statement (.bridgeRatioSettled a0 a1) := of_none _ rfl rfl
theorem domainFreeRunTimeout (a0 : _) : Statement (.domainFreeRunTimeout a0) := of_none _ rfl rfl
theorem dpllLocked (a0 : _) : Statement (.dpllLocked a0) := of_none _ rfl rfl
theorem dpllSlewDone (a0 : _) : Statement (.dpllSlewDone a0) := of_none _ rfl rfl
theorem referenceEdgeMissing (a0 : _) : Statement (.referenceEdgeMissing a0) := of_none _ rfl rfl
theorem referenceGlitch (a0 : _) : Statement (.referenceGlitch a0) := of_none _ rfl rfl
theorem glitchHoldEnd (a0 : _) : Statement (.glitchHoldEnd a0) := of_none _ rfl rfl
theorem rateGateEnd (a0 : _) (a1 : _) : Statement (.rateGateEnd a0 a1) := of_none _ rfl rfl
theorem revert (a0 : _) (a1 : _) (a2 : _) (a3 : _) : Statement (.revert a0 a1 a2 a3) := of_session _ a0 rfl rfl (fun w => of_decide_eq_true (left (left (left w))))
theorem realign (a0 : _) (a1 : _) (a2 : _) (a3 : _) : Statement (.realign a0 a1 a2 a3) := of_session _ a0 rfl rfl (fun w => of_decide_eq_true (left (left (left w))))
theorem ptpAnnounceReceived (a0 : _) (a1 : _) (a2 : _) : Statement (.ptpAnnounceReceived a0 a1 a2) := of_none _ rfl rfl
theorem ptpSyncReceived (a0 : _) (a1 : _) (a2 : _) : Statement (.ptpSyncReceived a0 a1 a2) := of_none _ rfl rfl
theorem ptpFollowUpReceived (a0 : _) (a1 : _) : Statement (.ptpFollowUpReceived a0 a1) := of_none _ rfl rfl
theorem ptpDelayRespReceived (a0 : _) (a1 : _) : Statement (.ptpDelayRespReceived a0 a1) := of_none _ rfl rfl
theorem delayReqSend (a0 : _) (a1 : _) : Statement (.delayReqSend a0 a1) := of_none _ rfl rfl
theorem ptpMasterLost (a0 : _) : Statement (.ptpMasterLost a0) := of_none _ rfl rfl
theorem holdLimitExpired (a0 : _) : Statement (.holdLimitExpired a0) := of_none _ rfl rfl
theorem stepAccept (a0 : _) (a1 : _) (a2 : _) (a3 : _) : Statement (.stepAccept a0 a1 a2 a3) := of_session _ a0 rfl rfl (fun w => of_decide_eq_true (left (left (left w))))
theorem stepReject (a0 : _) (a1 : _) (a2 : _) (a3 : _) : Statement (.stepReject a0 a1 a2 a3) := of_session _ a0 rfl rfl (fun w => of_decide_eq_true (left (left (left w))))
theorem rtpPacketReceived (a0 : _) (a1 : _) (a2 : _) : Statement (.rtpPacketReceived a0 a1 a2) := of_none _ rfl rfl
theorem legLost (a0 : _) (a1 : _) : Statement (.legLost a0 a1) := of_none _ rfl rfl
theorem rateFitUpdate (a0 : _) (a1 : _) : Statement (.rateFitUpdate a0 a1) := of_none _ rfl rfl
theorem igmpQueryReceived (a0 : _) (a1 : _) (a2 : _) : Statement (.igmpQueryReceived a0 a1 a2) := of_none _ rfl rfl
theorem arpRequest (a0 : _) (a1 : _) (a2 : _) : Statement (.arpRequest a0 a1 a2) := of_none _ rfl rfl
theorem icmpEchoRequest (a0 : _) (a1 : _) (a2 : _) (a3 : _) : Statement (.icmpEchoRequest a0 a1 a2 a3) := of_none _ rfl rfl
theorem networkLinkChange (a0 : _) (a1 : _) : Statement (.networkLinkChange a0 a1) := of_none _ rfl rfl
theorem rxOpen (a0 : _) (a1 : _) (a2 : _) (a3 : _) : Statement (.rxOpen a0 a1 a2 a3) := of_session _ a0 rfl rfl (fun w => of_decide_eq_true (left (left (left w))))
theorem txOpen (a0 : _) (a1 : _) (a2 : _) (a3 : _) : Statement (.txOpen a0 a1 a2 a3) := of_session _ a0 rfl rfl (fun w => of_decide_eq_true (left (left (left w))))
theorem nonaudioCleared (a0 : _) (a1 : _) : Statement (.nonaudioCleared a0 a1) := of_none _ rfl rfl
theorem mutingWindowEnd (a0 : _) : Statement (.mutingWindowEnd a0) := of_none _ rfl rfl
theorem bankSupplyFault (a0 : _) : Statement (.bankSupplyFault a0) := of_none _ rfl rfl
theorem submissionDoorbell (a0 : _) (a1 : _) (a2 : _) : Statement (.submissionDoorbell a0 a1 a2) := of_none _ rfl rfl
theorem completionDoorbell (a0 : _) (a1 : _) : Statement (.completionDoorbell a0 a1) := of_none _ rfl rfl
theorem recordDoorbell (a0 : _) (a1 : _) : Statement (.recordDoorbell a0 a1) := of_none _ rfl rfl
theorem playbackDoorbell (a0 : _) (a1 : _) (a2 : _) : Statement (.playbackDoorbell a0 a1 a2) := of_none _ rfl rfl
theorem submissionFetch (a0 : _) : Statement (.submissionFetch a0) := of_none _ rfl rfl
theorem commandPairEnable (a0 : _) : Statement (.commandPairEnable a0) := of_none _ rfl rfl
theorem commandPairDisable (a0 : _) : Statement (.commandPairDisable a0) := of_none _ rfl rfl
theorem pcieFunctionReset : Statement (.pcieFunctionReset) := of_none _ rfl rfl
theorem pcieLinkDown : Statement (.pcieLinkDown) := of_none _ rfl rfl
theorem busMasterDisable : Statement (.busMasterDisable) := of_none _ rfl rfl
theorem ringDmaError (a0 : _) : Statement (.ringDmaError a0) := of_none _ rfl rfl
theorem restart (a0 : _) (a1 : _) (a2 : _) (a3 : _) : Statement (.restart a0 a1 a2 a3) := of_session _ a0 rfl rfl (fun w => of_decide_eq_true (left (left (left w))))
theorem otpKeyProgram (a0 : _) : Statement (.otpKeyProgram a0) := of_none _ rfl rfl
theorem otpProgramDone (a0 : _) : Statement (.otpProgramDone a0) := of_none _ rfl rfl
theorem otpKeyRevoke (a0 : _) : Statement (.otpKeyRevoke a0) := of_none _ rfl rfl
theorem bar0RegisterWrite (a0 : _) (a1 : _) (a2 : _) : Statement (.bar0RegisterWrite a0 a1 a2) := of_none _ rfl rfl
theorem odpDatagramReceived (a0 : _) (a1 : _) (a2 : _) : Statement (.odpDatagramReceived a0 a1 a2) := of_none _ rfl rfl
theorem odpSessionIdleTimeout (a0 : _) : Statement (.odpSessionIdleTimeout a0) := of_session _ a0 rfl rfl (fun w => of_decide_eq_true w)
theorem odpReassemblyTimeout (a0 : _) (a1 : _) : Statement (.odpReassemblyTimeout a0 a1) := of_session _ a0 rfl rfl (fun w => of_decide_eq_true (left w))
theorem hello (a0 : _) (a1 : _) (a2 : _) (a3 : _) (a4 : _) (a5 : _) : Statement (.hello a0 a1 a2 a3 a4 a5) := of_none _ rfl rfl
theorem auth (a0 : _) (a1 : _) (a2 : _) (a3 : _) (a4 : _) : Statement (.auth a0 a1 a2 a3 a4) := of_session _ a0 rfl rfl (fun w => of_decide_eq_true (left (left (left w))))
theorem authPendingTimeout (a0 : _) : Statement (.authPendingTimeout a0) := of_session _ a0 rfl rfl (fun w => of_decide_eq_true w)
theorem authLockoutEnd (a0 : _) : Statement (.authLockoutEnd a0) := of_none _ rfl rfl
theorem read (a0 : _) (a1 : _) (a2 : _) : Statement (.read a0 a1 a2) := of_session _ a0 rfl rfl (fun w => of_decide_eq_true (left (left w)))
theorem write (a0 : _) (a1 : _) (a2 : _) (a3 : _) : Statement (.write a0 a1 a2 a3) := of_session _ a0 rfl rfl (fun w => of_decide_eq_true (left (left (left w))))
theorem readBlock (a0 : _) (a1 : _) (a2 : _) (a3 : _) (a4 : _) : Statement (.readBlock a0 a1 a2 a3 a4) := of_session _ a0 rfl rfl (fun w => of_decide_eq_true (left (left (left (left w)))))
theorem writeBlock (a0 : _) (a1 : _) (a2 : _) (a3 : _) (a4 : _) : Statement (.writeBlock a0 a1 a2 a3 a4) := of_session _ a0 rfl rfl (fun w => of_decide_eq_true (left (left (left w))))
theorem txnBegin (a0 : _) (a1 : _) : Statement (.txnBegin a0 a1) := of_session _ a0 rfl rfl (fun w => of_decide_eq_true (left w))
theorem txnEnd (a0 : _) (a1 : _) : Statement (.txnEnd a0 a1) := of_session _ a0 rfl rfl (fun w => of_decide_eq_true (left w))
theorem txnExpired (a0 : _) : Statement (.txnExpired a0) := of_session _ a0 rfl rfl (fun w => of_decide_eq_true w)
theorem lockAcquired (a0 : _) : Statement (.lockAcquired a0) := of_session _ a0 rfl rfl (fun w => of_decide_eq_true w)
theorem lockTimeout (a0 : _) : Statement (.lockTimeout a0) := of_session _ a0 rfl rfl (fun w => of_decide_eq_true w)
theorem commit (a0 : _) (a1 : _) (a2 : _) : Statement (.commit a0 a1 a2) := of_session _ a0 rfl rfl (fun w => of_decide_eq_true (left w))
theorem rollback (a0 : _) (a1 : _) (a2 : _) : Statement (.rollback a0 a1 a2) := of_session _ a0 rfl rfl (fun w => of_decide_eq_true (left w))
theorem subscribe (a0 : _) (a1 : _) (a2 : _) : Statement (.subscribe a0 a1 a2) := of_session _ a0 rfl rfl (fun w => of_decide_eq_true (left w))
theorem unsubscribe (a0 : _) (a1 : _) (a2 : _) : Statement (.unsubscribe a0 a1 a2) := of_session _ a0 rfl rfl (fun w => of_decide_eq_true (left (left w)))
theorem close (a0 : _) (a1 : _) : Statement (.close a0 a1) := of_session _ a0 rfl rfl (fun w => of_decide_eq_true (left w))
theorem nop (a0 : _) (a1 : _) : Statement (.nop a0 a1) := of_session _ a0 rfl rfl (fun w => of_decide_eq_true (left w))
theorem closeSession (a0 : _) (a1 : _) (a2 : _) (a3 : _) : Statement (.closeSession a0 a1 a2 a3) := of_session _ a0 rfl rfl (fun w => of_decide_eq_true (left (left (left w))))
theorem subscriptionIntervalEnd (a0 : _) (a1 : _) (a2 : _) : Statement (.subscriptionIntervalEnd a0 a1 a2) := of_session _ a0 rfl rfl (fun w => of_decide_eq_true (left (left w)))
theorem notifySend (a0 : _) : Statement (.notifySend a0) := of_session _ a0 rfl rfl (fun w => of_decide_eq_true w)
theorem commitValidationEnd : Statement (.commitValidationEnd) := of_none _ rfl rfl
theorem cancel (a0 : _) (a1 : _) (a2 : _) (a3 : _) : Statement (.cancel a0 a1 a2 a3) := of_session _ a0 rfl rfl (fun w => of_decide_eq_true (left (left (left w))))
theorem discard (a0 : _) (a1 : _) (a2 : _) (a3 : _) : Statement (.discard a0 a1 a2 a3) := of_session _ a0 rfl rfl (fun w => of_decide_eq_true (left (left (left w))))
theorem renumber (a0 : _) (a1 : _) (a2 : _) (a3 : _) : Statement (.renumber a0 a1 a2 a3) := of_session _ a0 rfl rfl (fun w => of_decide_eq_true (left (left (left w))))
theorem renumberEnd : Statement (.renumberEnd) := of_none _ rfl rfl
theorem sessionStagingWrite (a0 : _) (a1 : _) (a2 : _) (a3 : _) : Statement (.sessionStagingWrite a0 a1 a2 a3) := of_session _ a0 rfl rfl (fun w => of_decide_eq_true (left (left (left w))))
theorem factory (a0 : _) (a1 : _) (a2 : _) (a3 : _) : Statement (.factory a0 a1 a2 a3) := of_session _ a0 rfl rfl (fun w => of_decide_eq_true (left (left (left w))))
theorem journalWriteDone : Statement (.journalWriteDone) := of_none _ rfl rfl
theorem nodeLiveWrite (a0 : _) (a1 : _) (a2 : _) (a3 : _) (a4 : _) : Statement (.nodeLiveWrite a0 a1 a2 a3 a4) := of_session _ a0 rfl rfl (fun w => of_decide_eq_true (left (left (left (left w)))))
theorem imageWrite (a0 : _) (a1 : _) (a2 : _) (a3 : _) : Statement (.imageWrite a0 a1 a2 a3) := of_session _ a0 rfl rfl (fun w => of_decide_eq_true (left (left (left w))))
theorem placementListWrite (a0 : _) (a1 : _) (a2 : _) (a3 : _) (a4 : _) : Statement (.placementListWrite a0 a1 a2 a3 a4) := of_session _ a0 rfl rfl (fun w => of_decide_eq_true (left (left (left w))))
theorem patchWrite (a0 : _) (a1 : _) (a2 : _) (a3 : _) : Statement (.patchWrite a0 a1 a2 a3) := of_session _ a0 rfl rfl (fun w => of_decide_eq_true (left (left (left w))))
theorem clear (a0 : _) (a1 : _) (a2 : _) (a3 : _) : Statement (.clear a0 a1 a2 a3) := of_session _ a0 rfl rfl (fun w => of_decide_eq_true (left (left (left w))))
theorem reqMode (a0 : _) (a1 : _) (a2 : _) (a3 : _) : Statement (.reqMode a0 a1 a2 a3) := of_session _ a0 rfl rfl (fun w => of_decide_eq_true (left (left (left w))))
theorem modeValidationEnd : Statement (.modeValidationEnd) := of_none _ rfl rfl
theorem modeFadeOutEnd : Statement (.modeFadeOutEnd) := of_none _ rfl rfl
theorem modeReconfigureEnd : Statement (.modeReconfigureEnd) := of_none _ rfl rfl
theorem modeFadeInStart : Statement (.modeFadeInStart) := of_none _ rfl rfl
theorem modeFadeInEnd : Statement (.modeFadeInEnd) := of_none _ rfl rfl
theorem rbGo (a0 : _) (a1 : _) (a2 : _) (a3 : _) : Statement (.rbGo a0 a1 a2 a3) := of_session _ a0 rfl rfl (fun w => of_decide_eq_true (left (left (left w))))
theorem coreCrossfadeEnd (a0 : _) : Statement (.coreCrossfadeEnd a0) := of_none _ rfl rfl
theorem inputCrossfadeEnd (a0 : _) : Statement (.inputCrossfadeEnd a0) := of_none _ rfl rfl
theorem delayDipFadeEnd (a0 : _) : Statement (.delayDipFadeEnd a0) := of_none _ rfl rfl
theorem patchDipFadeEnd (a0 : _) : Statement (.patchDipFadeEnd a0) := of_none _ rfl rfl
theorem nodeRampEnd (a0 : _) (a1 : _) : Statement (.nodeRampEnd a0 a1) := of_none _ rfl rfl
theorem firCrossfadeEnd (a0 : _) : Statement (.firCrossfadeEnd a0) := of_none _ rfl rfl
theorem limOnCrossfadeEnd (a0 : _) : Statement (.limOnCrossfadeEnd a0) := of_none _ rfl rfl
theorem gateHoldExpired (a0 : _) : Statement (.gateHoldExpired a0) := of_none _ rfl rfl
theorem programStart (a0 : _) (a1 : _) : Statement (.programStart a0 a1) := of_lane _ a0 rfl rfl (fun w => of_decide_eq_true w)
theorem nopBundle (a0 : _) : Statement (.nopBundle a0) := of_lane _ a0 rfl rfl (fun w => of_decide_eq_true w)
theorem halt (a0 : _) : Statement (.halt a0) := of_lane _ a0 rfl rfl (fun w => of_decide_eq_true w)
theorem lset (a0 : _) (a1 : _) (a2 : _) : Statement (.lset a0 a1 a2) := of_lane _ a0 rfl rfl (fun w => of_decide_eq_true (left (left (left w))))
theorem loop (a0 : _) (a1 : _) (a2 : _) : Statement (.loop a0 a1 a2) := of_lane _ a0 rfl rfl (fun w => of_decide_eq_true (left (left (left w))))
theorem bld (a0 : _) (a1 : _) (a2 : _) : Statement (.bld a0 a1 a2) := of_lane _ a0 rfl rfl (fun w => of_decide_eq_true (left (left (left w))))
theorem mac (a0 : _) (a1 : _) (a2 : _) (a3 : _) (a4 : _) : Statement (.mac a0 a1 a2 a3 a4) := of_lane _ a0 rfl rfl (fun w => of_decide_eq_true (left (left (left w))))
theorem msu (a0 : _) (a1 : _) (a2 : _) (a3 : _) (a4 : _) : Statement (.msu a0 a1 a2 a3 a4) := of_lane _ a0 rfl rfl (fun w => of_decide_eq_true (left (left (left w))))
theorem mpy (a0 : _) (a1 : _) (a2 : _) (a3 : _) (a4 : _) : Statement (.mpy a0 a1 a2 a3 a4) := of_lane _ a0 rfl rfl (fun w => of_decide_eq_true (left (left (left w))))
theorem ext (a0 : _) (a1 : _) (a2 : _) (a3 : _) (a4 : _) (a5 : _) : Statement (.ext a0 a1 a2 a3 a4 a5) := of_lane _ a0 rfl rfl (fun w => of_decide_eq_true (left (left (left (left w)))))
theorem acc (a0 : _) (a1 : _) (a2 : _) (a3 : _) : Statement (.acc a0 a1 a2 a3) := of_lane _ a0 rfl rfl (fun w => of_decide_eq_true (left (left w)))
theorem adda (a0 : _) (a1 : _) (a2 : _) : Statement (.adda a0 a1 a2) := of_lane _ a0 rfl rfl (fun w => of_decide_eq_true (left (left w)))
theorem suba (a0 : _) (a1 : _) (a2 : _) : Statement (.suba a0 a1 a2) := of_lane _ a0 rfl rfl (fun w => of_decide_eq_true (left (left w)))
theorem sha (a0 : _) (a1 : _) (a2 : _) : Statement (.sha a0 a1 a2) := of_lane _ a0 rfl rfl (fun w => of_decide_eq_true (left (left (left w))))
theorem clr (a0 : _) (a1 : _) : Statement (.clr a0 a1) := of_lane _ a0 rfl rfl (fun w => of_decide_eq_true (left w))
theorem add (a0 : _) (a1 : _) (a2 : _) (a3 : _) : Statement (.add a0 a1 a2 a3) := of_lane _ a0 rfl rfl (fun w => of_decide_eq_true (left (left (left w))))
theorem sub (a0 : _) (a1 : _) (a2 : _) (a3 : _) : Statement (.sub a0 a1 a2 a3) := of_lane _ a0 rfl rfl (fun w => of_decide_eq_true (left (left (left w))))
theorem asr (a0 : _) (a1 : _) (a2 : _) (a3 : _) : Statement (.asr a0 a1 a2 a3) := of_lane _ a0 rfl rfl (fun w => of_decide_eq_true (left (left (left w))))
theorem asl (a0 : _) (a1 : _) (a2 : _) (a3 : _) : Statement (.asl a0 a1 a2 a3) := of_lane _ a0 rfl rfl (fun w => of_decide_eq_true (left (left (left w))))
theorem abs (a0 : _) (a1 : _) (a2 : _) : Statement (.abs a0 a1 a2) := of_lane _ a0 rfl rfl (fun w => of_decide_eq_true (left (left w)))
theorem neg (a0 : _) (a1 : _) (a2 : _) : Statement (.neg a0 a1 a2) := of_lane _ a0 rfl rfl (fun w => of_decide_eq_true (left (left w)))
theorem mov (a0 : _) (a1 : _) (a2 : _) : Statement (.mov a0 a1 a2) := of_lane _ a0 rfl rfl (fun w => of_decide_eq_true (left (left w)))
theorem mvi (a0 : _) (a1 : _) (a2 : _) : Statement (.mvi a0 a1 a2) := of_lane _ a0 rfl rfl (fun w => of_decide_eq_true (left (left (left w))))
theorem mvs (a0 : _) (a1 : _) (a2 : _) : Statement (.mvs a0 a1 a2) := of_lane _ a0 rfl rfl (fun w => of_decide_eq_true (left (left (left (left w)))))
theorem mvr (a0 : _) (a1 : _) (a2 : _) : Statement (.mvr a0 a1 a2) := of_lane _ a0 rfl rfl (fun w => of_decide_eq_true (left (left w)))
theorem max (a0 : _) (a1 : _) : Statement (.max a0 a1) := of_lane _ a0 rfl rfl (fun w => of_decide_eq_true (left w))
theorem min (a0 : _) (a1 : _) : Statement (.min a0 a1) := of_lane _ a0 rfl rfl (fun w => of_decide_eq_true (left w))
theorem mxclr (a0 : _) (a1 : _) : Statement (.mxclr a0 a1) := of_lane _ a0 rfl rfl (fun w => of_decide_eq_true (left w))
theorem and (a0 : _) (a1 : _) (a2 : _) (a3 : _) : Statement (.and a0 a1 a2 a3) := of_lane _ a0 rfl rfl (fun w => of_decide_eq_true (left (left (left w))))
theorem or (a0 : _) (a1 : _) (a2 : _) (a3 : _) : Statement (.or a0 a1 a2 a3) := of_lane _ a0 rfl rfl (fun w => of_decide_eq_true (left (left (left w))))
theorem xor (a0 : _) (a1 : _) (a2 : _) (a3 : _) : Statement (.xor a0 a1 a2 a3) := of_lane _ a0 rfl rfl (fun w => of_decide_eq_true (left (left (left w))))
theorem ld (a0 : _) (a1 : _) (a2 : _) (a3 : _) (a4 : _) : Statement (.ld a0 a1 a2 a3 a4) := of_lane _ a0 rfl rfl (fun w => of_decide_eq_true (left (left w)))
theorem st (a0 : _) (a1 : _) (a2 : _) (a3 : _) : Statement (.st a0 a1 a2 a3) := of_lane _ a0 rfl rfl (fun w => of_decide_eq_true (left (left w)))
theorem xmod (a0 : _) (a1 : _) (a2 : _) (a3 : _) : Statement (.xmod a0 a1 a2 a3) := of_lane _ a0 rfl rfl (fun w => of_decide_eq_true (left w))
theorem crossbarRequest (a0 : _) (a1 : _) (a2 : _) (a3 : _) (a4 : _) (a5 : _) : Statement (.crossbarRequest a0 a1 a2 a3 a4 a5) := of_none _ rfl rfl
theorem chunkEndGrant (a0 : _) : Statement (.chunkEndGrant a0) := of_none _ rfl rfl
theorem emergencyRequest (a0 : _) (a1 : _) (a2 : _) (a3 : _) (a4 : _) (a5 : _) : Statement (.emergencyRequest a0 a1 a2 a3 a4 a5) := of_none _ rfl rfl
theorem priorityPreemption (a0 : _) (a1 : _) (a2 : _) : Statement (.priorityPreemption a0 a1 a2) := of_none _ rfl rfl
theorem readDataReturn (a0 : _) (a1 : _) : Statement (.readDataReturn a0 a1) := of_none _ rfl rfl
theorem flagAliasWrite (a0 : _) (a1 : _) (a2 : _) (a3 : _) : Statement (.flagAliasWrite a0 a1 a2 a3) := of_none _ rfl rfl
theorem dramRefresh (a0 : _) : Statement (.dramRefresh a0) := of_none _ rfl rfl
theorem dramSingleBitError (a0 : _) (a1 : _) (a2 : _) : Statement (.dramSingleBitError a0 a1 a2) := of_none _ rfl rfl
theorem dramUncorrectable (a0 : _) (a1 : _) (a2 : _) : Statement (.dramUncorrectable a0 a1 a2) := of_none _ rfl rfl
theorem dramWriteBack (a0 : _) : Statement (.dramWriteBack a0) := of_none _ rfl rfl
theorem dramParityAlert (a0 : _) : Statement (.dramParityAlert a0) := of_none _ rfl rfl
theorem dramAlertRelease (a0 : _) (a1 : _) : Statement (.dramAlertRelease a0 a1) := of_none _ rfl rfl
theorem commandBusTestEnd (a0 : _) (a1 : _) : Statement (.commandBusTestEnd a0 a1) := of_none _ rfl rfl
theorem dramRowTestEnd (a0 : _) (a1 : _) : Statement (.dramRowTestEnd a0 a1) := of_none _ rfl rfl
theorem setpoint (a0 : _) (a1 : _) (a2 : _) (a3 : _) : Statement (.setpoint a0 a1 a2 a3) := of_session _ a0 rfl rfl (fun w => of_decide_eq_true (left (left (left w))))
theorem train (a0 : _) (a1 : _) (a2 : _) (a3 : _) : Statement (.train a0 a1 a2 a3) := of_session _ a0 rfl rfl (fun w => of_decide_eq_true (left (left (left w))))
theorem laneResidueError (a0 : _) (a1 : _) : Statement (.laneResidueError a0 a1) := of_none _ rfl rfl
theorem knownAnswerTestEnd (a0 : _) (a1 : _) (a2 : _) : Statement (.knownAnswerTestEnd a0 a1 a2) := of_none _ rfl rfl
theorem sparePipelineTest (a0 : _) (a1 : _) (a2 : _) : Statement (.sparePipelineTest a0 a1 a2) := of_none _ rfl rfl
theorem crosspointResidueError (a0 : _) (a1 : _) : Statement (.crosspointResidueError a0 a1) := of_none _ rfl rfl
theorem crosspointTestEnd (a0 : _) (a1 : _) : Statement (.crosspointTestEnd a0 a1) := of_none _ rfl rfl
theorem sramEccError (a0 : _) (a1 : _) (a2 : _) : Statement (.sramEccError a0 a1 a2) := of_none _ rfl rfl
theorem sramTestEnd (a0 : _) (a1 : _) (a2 : _) : Statement (.sramTestEnd a0 a1 a2) := of_none _ rfl rfl
theorem lockstepMismatch (a0 : _) : Statement (.lockstepMismatch a0) := of_none _ rfl rfl
theorem lockstepResetTimeout : Statement (.lockstepResetTimeout) := of_none _ rfl rfl
theorem recover (a0 : _) (a1 : _) (a2 : _) (a3 : _) : Statement (.recover a0 a1 a2 a3) := of_session _ a0 rfl rfl (fun w => of_decide_eq_true (left (left (left w))))
theorem logClear (a0 : _) (a1 : _) (a2 : _) (a3 : _) : Statement (.logClear a0 a1 a2 a3) := of_session _ a0 rfl rfl (fun w => of_decide_eq_true (left (left (left w))))
theorem fullTest (a0 : _) (a1 : _) (a2 : _) (a3 : _) : Statement (.fullTest a0 a1 a2 a3) := of_session _ a0 rfl rfl (fun w => of_decide_eq_true (left (left (left w))))
theorem fullTestDone (a0 : _) : Statement (.fullTestDone a0) := of_none _ rfl rfl
theorem jtagInstructionLoad (a0 : _) : Statement (.jtagInstructionLoad a0) := of_none _ rfl rfl
theorem dieTempUpdate (a0 : _) : Statement (.dieTempUpdate a0) := of_none _ rfl rfl
theorem tempClear (a0 : _) (a1 : _) (a2 : _) (a3 : _) : Statement (.tempClear a0 a1 a2 a3) := of_session _ a0 rfl rfl (fun w => of_decide_eq_true (left (left (left w))))
theorem fwData (a0 : _) (a1 : _) (a2 : _) (a3 : _) : Statement (.fwData a0 a1 a2 a3) := of_session _ a0 rfl rfl (fun w => of_decide_eq_true (left (left (left w))))
theorem fwProgramDone : Statement (.fwProgramDone) := of_none _ rfl rfl
theorem fwVerify (a0 : _) (a1 : _) (a2 : _) (a3 : _) : Statement (.fwVerify a0 a1 a2 a3) := of_session _ a0 rfl rfl (fun w => of_decide_eq_true (left (left (left w))))
theorem fwVerifyDone : Statement (.fwVerifyDone) := of_none _ rfl rfl
theorem rsmLinkUp (a0 : _) : Statement (.rsmLinkUp a0) := of_none _ rfl rfl
theorem joinWaitExpired : Statement (.joinWaitExpired) := of_none _ rfl rfl
theorem rsmFrameError (a0 : _) : Statement (.rsmFrameError a0) := of_none _ rfl rfl
theorem rsmLaneLockLoss (a0 : _) : Statement (.rsmLaneLockLoss a0) := of_none _ rfl rfl
theorem linkTestEnd (a0 : _) : Statement (.linkTestEnd a0) := of_none _ rfl rfl
theorem configRecordReceived (a0 : _) : Statement (.configRecordReceived a0) := of_none _ rfl rfl
theorem exportItemReceived (a0 : _) : Statement (.exportItemReceived a0) := of_none _ rfl rfl
theorem exportAckReceived (a0 : _) : Statement (.exportAckReceived a0) := of_none _ rfl rfl
theorem fillingEnd : Statement (.fillingEnd) := of_none _ rfl rfl
theorem leaseExpired : Statement (.leaseExpired) := of_none _ rfl rfl
theorem standbyTakeover : Statement (.standbyTakeover) := of_none _ rfl rfl
theorem orphanTakeToken : Statement (.orphanTakeToken) := of_none _ rfl rfl
theorem releaseNoticeReceived : Statement (.releaseNoticeReceived) := of_none _ rfl rfl
theorem handover (a0 : _) (a1 : _) (a2 : _) (a3 : _) : Statement (.handover a0 a1 a2 a3) := of_session _ a0 rfl rfl (fun w => of_decide_eq_true (left (left (left w))))
theorem referenceFirstEdge (a0 : _) : Statement (.referenceFirstEdge a0) := of_none _ rfl rfl
theorem arpReplyReceived (a0 : _) (a1 : _) (a2 : _) : Statement (.arpReplyReceived a0 a1 a2) := of_none _ rfl rfl
theorem frameDiscarded (a0 : _) (a1 : _) : Statement (.frameDiscarded a0 a1) := of_none _ rfl rfl

end Sys2Proof.Laws.Sized
end

