-- ==== Sys2Proof/Laws/State.lean ====
section
/-!
SUPPORT. Laws/State.lean: for every named update of the state, the fields that it leaves as they are, and what is read back after it.
-/
namespace Sys2Proof.Machine

variable (s : State)

/-! ### setF -/

@[simp] theorem setF_pending (o : Obj) (v : Val) : (setF s o v).pending = s.pending := rfl
@[simp] theorem setF_now (o : Obj) (v : Val) : (setF s o v).now = s.now := rfl
@[simp] theorem setF_free (o : Obj) (v : Val) : (setF s o v).free = s.free := rfl
@[simp] theorem setF_boot (o : Obj) (v : Val) : (setF s o v).boot = s.boot := rfl
@[simp] theorem setF_aon (o : Obj) (v : Val) : (setF s o v).aon = s.aon := rfl
@[simp] theorem setF_ctl (o : Obj) (v : Val) : (setF s o v).ctl = s.ctl := rfl
@[simp] theorem setF_commit (o : Obj) (v : Val) : (setF s o v).commit = s.commit := rfl
@[simp] theorem setF_ver (o : Obj) (v : Val) : (setF s o v).ver = s.ver := rfl
@[simp] theorem setF_mode (o : Obj) (v : Val) : (setF s o v).mode = s.mode := rfl
@[simp] theorem setF_doms (o : Obj) (v : Val) : (setF s o v).doms = s.doms := rfl
@[simp] theorem setF_refs (o : Obj) (v : Val) : (setF s o v).refs = s.refs := rfl
@[simp] theorem setF_tbs (o : Obj) (v : Val) : (setF s o v).tbs = s.tbs := rfl
@[simp] theorem setF_life (o : Obj) (v : Val) : (setF s o v).life = s.life := rfl
@[simp] theorem setF_host (o : Obj) (v : Val) : (setF s o v).host = s.host := rfl
@[simp] theorem setF_net (o : Obj) (v : Val) : (setF s o v).net = s.net := rfl
@[simp] theorem setF_ctxs (o : Obj) (v : Val) : (setF s o v).ctxs = s.ctxs := rfl
@[simp] theorem setF_na (o : Obj) (v : Val) : (setF s o v).na = s.na := rfl
@[simp] theorem setF_tdm (o : Obj) (v : Val) : (setF s o v).tdm = s.tdm := rfl
@[simp] theorem setF_audio (o : Obj) (v : Val) : (setF s o v).audio = s.audio := rfl
@[simp] theorem setF_lanes (o : Obj) (v : Val) : (setF s o v).lanes = s.lanes := rfl
@[simp] theorem setF_budget (o : Obj) (v : Val) : (setF s o v).budget = s.budget := rfl
@[simp] theorem setF_trans (o : Obj) (v : Val) : (setF s o v).trans = s.trans := rfl
@[simp] theorem setF_xbar (o : Obj) (v : Val) : (setF s o v).xbar = s.xbar := rfl
@[simp] theorem setF_mem (o : Obj) (v : Val) : (setF s o v).mem = s.mem := rfl
@[simp] theorem setF_dram (o : Obj) (v : Val) : (setF s o v).dram = s.dram := rfl
@[simp] theorem setF_sage (o : Obj) (v : Val) : (setF s o v).sage = s.sage := rfl
@[simp] theorem setF_pair (o : Obj) (v : Val) : (setF s o v).pair = s.pair := rfl
@[simp] theorem setF_pins (o : Obj) (v : Val) : (setF s o v).pins = s.pins := rfl

/-! ### setN -/

@[simp] theorem setN_pending (o k : Nat) : (setN s o k).pending = s.pending := rfl
@[simp] theorem setN_now (o k : Nat) : (setN s o k).now = s.now := rfl
@[simp] theorem setN_free (o k : Nat) : (setN s o k).free = s.free := rfl
@[simp] theorem setN_boot (o k : Nat) : (setN s o k).boot = s.boot := rfl
@[simp] theorem setN_aon (o k : Nat) : (setN s o k).aon = s.aon := rfl
@[simp] theorem setN_ctl (o k : Nat) : (setN s o k).ctl = s.ctl := rfl
@[simp] theorem setN_commit (o k : Nat) : (setN s o k).commit = s.commit := rfl
@[simp] theorem setN_ver (o k : Nat) : (setN s o k).ver = s.ver := rfl
@[simp] theorem setN_mode (o k : Nat) : (setN s o k).mode = s.mode := rfl
@[simp] theorem setN_doms (o k : Nat) : (setN s o k).doms = s.doms := rfl
@[simp] theorem setN_refs (o k : Nat) : (setN s o k).refs = s.refs := rfl
@[simp] theorem setN_tbs (o k : Nat) : (setN s o k).tbs = s.tbs := rfl
@[simp] theorem setN_life (o k : Nat) : (setN s o k).life = s.life := rfl
@[simp] theorem setN_host (o k : Nat) : (setN s o k).host = s.host := rfl
@[simp] theorem setN_net (o k : Nat) : (setN s o k).net = s.net := rfl
@[simp] theorem setN_ctxs (o k : Nat) : (setN s o k).ctxs = s.ctxs := rfl
@[simp] theorem setN_na (o k : Nat) : (setN s o k).na = s.na := rfl
@[simp] theorem setN_tdm (o k : Nat) : (setN s o k).tdm = s.tdm := rfl
@[simp] theorem setN_audio (o k : Nat) : (setN s o k).audio = s.audio := rfl
@[simp] theorem setN_lanes (o k : Nat) : (setN s o k).lanes = s.lanes := rfl
@[simp] theorem setN_budget (o k : Nat) : (setN s o k).budget = s.budget := rfl
@[simp] theorem setN_trans (o k : Nat) : (setN s o k).trans = s.trans := rfl
@[simp] theorem setN_xbar (o k : Nat) : (setN s o k).xbar = s.xbar := rfl
@[simp] theorem setN_mem (o k : Nat) : (setN s o k).mem = s.mem := rfl
@[simp] theorem setN_dram (o k : Nat) : (setN s o k).dram = s.dram := rfl
@[simp] theorem setN_sage (o k : Nat) : (setN s o k).sage = s.sage := rfl
@[simp] theorem setN_pair (o k : Nat) : (setN s o k).pair = s.pair := rfl
@[simp] theorem setN_pins (o k : Nat) : (setN s o k).pins = s.pins := rfl

/-! ### bump -/

@[simp] theorem bump_pending (o : Obj) : (bump s o).pending = s.pending := rfl
@[simp] theorem bump_now (o : Obj) : (bump s o).now = s.now := rfl
@[simp] theorem bump_free (o : Obj) : (bump s o).free = s.free := rfl
@[simp] theorem bump_boot (o : Obj) : (bump s o).boot = s.boot := rfl
@[simp] theorem bump_aon (o : Obj) : (bump s o).aon = s.aon := rfl
@[simp] theorem bump_ctl (o : Obj) : (bump s o).ctl = s.ctl := rfl
@[simp] theorem bump_commit (o : Obj) : (bump s o).commit = s.commit := rfl
@[simp] theorem bump_ver (o : Obj) : (bump s o).ver = s.ver := rfl
@[simp] theorem bump_mode (o : Obj) : (bump s o).mode = s.mode := rfl
@[simp] theorem bump_doms (o : Obj) : (bump s o).doms = s.doms := rfl
@[simp] theorem bump_refs (o : Obj) : (bump s o).refs = s.refs := rfl
@[simp] theorem bump_tbs (o : Obj) : (bump s o).tbs = s.tbs := rfl
@[simp] theorem bump_life (o : Obj) : (bump s o).life = s.life := rfl
@[simp] theorem bump_host (o : Obj) : (bump s o).host = s.host := rfl
@[simp] theorem bump_net (o : Obj) : (bump s o).net = s.net := rfl
@[simp] theorem bump_ctxs (o : Obj) : (bump s o).ctxs = s.ctxs := rfl
@[simp] theorem bump_na (o : Obj) : (bump s o).na = s.na := rfl
@[simp] theorem bump_tdm (o : Obj) : (bump s o).tdm = s.tdm := rfl
@[simp] theorem bump_audio (o : Obj) : (bump s o).audio = s.audio := rfl
@[simp] theorem bump_lanes (o : Obj) : (bump s o).lanes = s.lanes := rfl
@[simp] theorem bump_budget (o : Obj) : (bump s o).budget = s.budget := rfl
@[simp] theorem bump_trans (o : Obj) : (bump s o).trans = s.trans := rfl
@[simp] theorem bump_xbar (o : Obj) : (bump s o).xbar = s.xbar := rfl
@[simp] theorem bump_mem (o : Obj) : (bump s o).mem = s.mem := rfl
@[simp] theorem bump_dram (o : Obj) : (bump s o).dram = s.dram := rfl
@[simp] theorem bump_sage (o : Obj) : (bump s o).sage = s.sage := rfl
@[simp] theorem bump_pair (o : Obj) : (bump s o).pair = s.pair := rfl
@[simp] theorem bump_pins (o : Obj) : (bump s o).pins = s.pins := rfl

/-! ### bumpBy -/

@[simp] theorem bumpBy_pending (o k : Nat) : (bumpBy s o k).pending = s.pending := rfl
@[simp] theorem bumpBy_now (o k : Nat) : (bumpBy s o k).now = s.now := rfl
@[simp] theorem bumpBy_free (o k : Nat) : (bumpBy s o k).free = s.free := rfl
@[simp] theorem bumpBy_boot (o k : Nat) : (bumpBy s o k).boot = s.boot := rfl
@[simp] theorem bumpBy_aon (o k : Nat) : (bumpBy s o k).aon = s.aon := rfl
@[simp] theorem bumpBy_ctl (o k : Nat) : (bumpBy s o k).ctl = s.ctl := rfl
@[simp] theorem bumpBy_commit (o k : Nat) : (bumpBy s o k).commit = s.commit := rfl
@[simp] theorem bumpBy_ver (o k : Nat) : (bumpBy s o k).ver = s.ver := rfl
@[simp] theorem bumpBy_mode (o k : Nat) : (bumpBy s o k).mode = s.mode := rfl
@[simp] theorem bumpBy_doms (o k : Nat) : (bumpBy s o k).doms = s.doms := rfl
@[simp] theorem bumpBy_refs (o k : Nat) : (bumpBy s o k).refs = s.refs := rfl
@[simp] theorem bumpBy_tbs (o k : Nat) : (bumpBy s o k).tbs = s.tbs := rfl
@[simp] theorem bumpBy_life (o k : Nat) : (bumpBy s o k).life = s.life := rfl
@[simp] theorem bumpBy_host (o k : Nat) : (bumpBy s o k).host = s.host := rfl
@[simp] theorem bumpBy_net (o k : Nat) : (bumpBy s o k).net = s.net := rfl
@[simp] theorem bumpBy_ctxs (o k : Nat) : (bumpBy s o k).ctxs = s.ctxs := rfl
@[simp] theorem bumpBy_na (o k : Nat) : (bumpBy s o k).na = s.na := rfl
@[simp] theorem bumpBy_tdm (o k : Nat) : (bumpBy s o k).tdm = s.tdm := rfl
@[simp] theorem bumpBy_audio (o k : Nat) : (bumpBy s o k).audio = s.audio := rfl
@[simp] theorem bumpBy_lanes (o k : Nat) : (bumpBy s o k).lanes = s.lanes := rfl
@[simp] theorem bumpBy_budget (o k : Nat) : (bumpBy s o k).budget = s.budget := rfl
@[simp] theorem bumpBy_trans (o k : Nat) : (bumpBy s o k).trans = s.trans := rfl
@[simp] theorem bumpBy_xbar (o k : Nat) : (bumpBy s o k).xbar = s.xbar := rfl
@[simp] theorem bumpBy_mem (o k : Nat) : (bumpBy s o k).mem = s.mem := rfl
@[simp] theorem bumpBy_dram (o k : Nat) : (bumpBy s o k).dram = s.dram := rfl
@[simp] theorem bumpBy_sage (o k : Nat) : (bumpBy s o k).sage = s.sage := rfl
@[simp] theorem bumpBy_pair (o k : Nat) : (bumpBy s o k).pair = s.pair := rfl
@[simp] theorem bumpBy_pins (o k : Nat) : (bumpBy s o k).pins = s.pins := rfl

/-! ### emptyBank -/

@[simp] theorem emptyBank_pending  : (emptyBank s).pending = s.pending := rfl
@[simp] theorem emptyBank_now  : (emptyBank s).now = s.now := rfl
@[simp] theorem emptyBank_free  : (emptyBank s).free = s.free := rfl
@[simp] theorem emptyBank_boot  : (emptyBank s).boot = s.boot := rfl
@[simp] theorem emptyBank_aon  : (emptyBank s).aon = s.aon := rfl
@[simp] theorem emptyBank_ctl  : (emptyBank s).ctl = s.ctl := rfl
@[simp] theorem emptyBank_commit  : (emptyBank s).commit = s.commit := rfl
@[simp] theorem emptyBank_ver  : (emptyBank s).ver = s.ver := rfl
@[simp] theorem emptyBank_mode  : (emptyBank s).mode = s.mode := rfl
@[simp] theorem emptyBank_doms  : (emptyBank s).doms = s.doms := rfl
@[simp] theorem emptyBank_refs  : (emptyBank s).refs = s.refs := rfl
@[simp] theorem emptyBank_tbs  : (emptyBank s).tbs = s.tbs := rfl
@[simp] theorem emptyBank_life  : (emptyBank s).life = s.life := rfl
@[simp] theorem emptyBank_host  : (emptyBank s).host = s.host := rfl
@[simp] theorem emptyBank_net  : (emptyBank s).net = s.net := rfl
@[simp] theorem emptyBank_ctxs  : (emptyBank s).ctxs = s.ctxs := rfl
@[simp] theorem emptyBank_na  : (emptyBank s).na = s.na := rfl
@[simp] theorem emptyBank_tdm  : (emptyBank s).tdm = s.tdm := rfl
@[simp] theorem emptyBank_audio  : (emptyBank s).audio = s.audio := rfl
@[simp] theorem emptyBank_lanes  : (emptyBank s).lanes = s.lanes := rfl
@[simp] theorem emptyBank_budget  : (emptyBank s).budget = s.budget := rfl
@[simp] theorem emptyBank_trans  : (emptyBank s).trans = s.trans := rfl
@[simp] theorem emptyBank_xbar  : (emptyBank s).xbar = s.xbar := rfl
@[simp] theorem emptyBank_mem  : (emptyBank s).mem = s.mem := rfl
@[simp] theorem emptyBank_dram  : (emptyBank s).dram = s.dram := rfl
@[simp] theorem emptyBank_sage  : (emptyBank s).sage = s.sage := rfl
@[simp] theorem emptyBank_pair  : (emptyBank s).pair = s.pair := rfl
@[simp] theorem emptyBank_pins  : (emptyBank s).pins = s.pins := rfl

/-! ### setBank -/

@[simp] theorem setBank_pending (o : Obj) (v : Val) : (setBank s o v).pending = s.pending := rfl
@[simp] theorem setBank_now (o : Obj) (v : Val) : (setBank s o v).now = s.now := rfl
@[simp] theorem setBank_free (o : Obj) (v : Val) : (setBank s o v).free = s.free := rfl
@[simp] theorem setBank_boot (o : Obj) (v : Val) : (setBank s o v).boot = s.boot := rfl
@[simp] theorem setBank_aon (o : Obj) (v : Val) : (setBank s o v).aon = s.aon := rfl
@[simp] theorem setBank_ctl (o : Obj) (v : Val) : (setBank s o v).ctl = s.ctl := rfl
/-- A bank write only tells a commit in work which member has been written. -/
@[simp] theorem setBank_commit_isSome (o : Obj) (v : Val) : (setBank s o v).commit.isSome = s.commit.isSome := by simp [setBank]
@[simp] theorem setBank_ver (o : Obj) (v : Val) : (setBank s o v).ver = s.ver := rfl
@[simp] theorem setBank_mode (o : Obj) (v : Val) : (setBank s o v).mode = s.mode := rfl
@[simp] theorem setBank_doms (o : Obj) (v : Val) : (setBank s o v).doms = s.doms := rfl
@[simp] theorem setBank_refs (o : Obj) (v : Val) : (setBank s o v).refs = s.refs := rfl
@[simp] theorem setBank_tbs (o : Obj) (v : Val) : (setBank s o v).tbs = s.tbs := rfl
@[simp] theorem setBank_life (o : Obj) (v : Val) : (setBank s o v).life = s.life := rfl
@[simp] theorem setBank_host (o : Obj) (v : Val) : (setBank s o v).host = s.host := rfl
@[simp] theorem setBank_net (o : Obj) (v : Val) : (setBank s o v).net = s.net := rfl
@[simp] theorem setBank_ctxs (o : Obj) (v : Val) : (setBank s o v).ctxs = s.ctxs := rfl
@[simp] theorem setBank_na (o : Obj) (v : Val) : (setBank s o v).na = s.na := rfl
@[simp] theorem setBank_tdm (o : Obj) (v : Val) : (setBank s o v).tdm = s.tdm := rfl
@[simp] theorem setBank_audio (o : Obj) (v : Val) : (setBank s o v).audio = s.audio := rfl
@[simp] theorem setBank_lanes (o : Obj) (v : Val) : (setBank s o v).lanes = s.lanes := rfl
@[simp] theorem setBank_budget (o : Obj) (v : Val) : (setBank s o v).budget = s.budget := rfl
@[simp] theorem setBank_trans (o : Obj) (v : Val) : (setBank s o v).trans = s.trans := rfl
@[simp] theorem setBank_xbar (o : Obj) (v : Val) : (setBank s o v).xbar = s.xbar := rfl
@[simp] theorem setBank_mem (o : Obj) (v : Val) : (setBank s o v).mem = s.mem := rfl
@[simp] theorem setBank_dram (o : Obj) (v : Val) : (setBank s o v).dram = s.dram := rfl
@[simp] theorem setBank_sage (o : Obj) (v : Val) : (setBank s o v).sage = s.sage := rfl
@[simp] theorem setBank_pair (o : Obj) (v : Val) : (setBank s o v).pair = s.pair := rfl
@[simp] theorem setBank_pins (o : Obj) (v : Val) : (setBank s o v).pins = s.pins := rfl

/-! ### addLanding -/

@[simp] theorem addLanding_pending (x : Landing) : (addLanding s x).pending = s.pending := rfl
@[simp] theorem addLanding_now (x : Landing) : (addLanding s x).now = s.now := rfl
@[simp] theorem addLanding_free (x : Landing) : (addLanding s x).free = s.free := rfl
@[simp] theorem addLanding_boot (x : Landing) : (addLanding s x).boot = s.boot := rfl
@[simp] theorem addLanding_aon (x : Landing) : (addLanding s x).aon = s.aon := rfl
@[simp] theorem addLanding_ctl (x : Landing) : (addLanding s x).ctl = s.ctl := rfl
@[simp] theorem addLanding_commit (x : Landing) : (addLanding s x).commit = s.commit := rfl
@[simp] theorem addLanding_ver (x : Landing) : (addLanding s x).ver = s.ver := rfl
@[simp] theorem addLanding_mode (x : Landing) : (addLanding s x).mode = s.mode := rfl
@[simp] theorem addLanding_doms (x : Landing) : (addLanding s x).doms = s.doms := rfl
@[simp] theorem addLanding_refs (x : Landing) : (addLanding s x).refs = s.refs := rfl
@[simp] theorem addLanding_tbs (x : Landing) : (addLanding s x).tbs = s.tbs := rfl
@[simp] theorem addLanding_life (x : Landing) : (addLanding s x).life = s.life := rfl
@[simp] theorem addLanding_host (x : Landing) : (addLanding s x).host = s.host := rfl
@[simp] theorem addLanding_net (x : Landing) : (addLanding s x).net = s.net := rfl
@[simp] theorem addLanding_ctxs (x : Landing) : (addLanding s x).ctxs = s.ctxs := rfl
@[simp] theorem addLanding_na (x : Landing) : (addLanding s x).na = s.na := rfl
@[simp] theorem addLanding_tdm (x : Landing) : (addLanding s x).tdm = s.tdm := rfl
@[simp] theorem addLanding_audio (x : Landing) : (addLanding s x).audio = s.audio := rfl
@[simp] theorem addLanding_lanes (x : Landing) : (addLanding s x).lanes = s.lanes := rfl
@[simp] theorem addLanding_budget (x : Landing) : (addLanding s x).budget = s.budget := rfl
@[simp] theorem addLanding_trans (x : Landing) : (addLanding s x).trans = s.trans := rfl
@[simp] theorem addLanding_xbar (x : Landing) : (addLanding s x).xbar = s.xbar := rfl
@[simp] theorem addLanding_mem (x : Landing) : (addLanding s x).mem = s.mem := rfl
@[simp] theorem addLanding_dram (x : Landing) : (addLanding s x).dram = s.dram := rfl
@[simp] theorem addLanding_sage (x : Landing) : (addLanding s x).sage = s.sage := rfl
@[simp] theorem addLanding_pair (x : Landing) : (addLanding s x).pair = s.pair := rfl
@[simp] theorem addLanding_pins (x : Landing) : (addLanding s x).pins = s.pins := rfl

/-! ### setDom -/

@[simp] theorem setDom_pending (k : Nat) (x : Domain) : (setDom s k x).pending = s.pending := rfl
@[simp] theorem setDom_now (k : Nat) (x : Domain) : (setDom s k x).now = s.now := rfl
@[simp] theorem setDom_free (k : Nat) (x : Domain) : (setDom s k x).free = s.free := rfl
@[simp] theorem setDom_boot (k : Nat) (x : Domain) : (setDom s k x).boot = s.boot := rfl
@[simp] theorem setDom_aon (k : Nat) (x : Domain) : (setDom s k x).aon = s.aon := rfl
@[simp] theorem setDom_dict (k : Nat) (x : Domain) : (setDom s k x).dict = s.dict := rfl
@[simp] theorem setDom_ctl (k : Nat) (x : Domain) : (setDom s k x).ctl = s.ctl := rfl
@[simp] theorem setDom_commit (k : Nat) (x : Domain) : (setDom s k x).commit = s.commit := rfl
@[simp] theorem setDom_ver (k : Nat) (x : Domain) : (setDom s k x).ver = s.ver := rfl
@[simp] theorem setDom_mode (k : Nat) (x : Domain) : (setDom s k x).mode = s.mode := rfl
@[simp] theorem setDom_refs (k : Nat) (x : Domain) : (setDom s k x).refs = s.refs := rfl
@[simp] theorem setDom_tbs (k : Nat) (x : Domain) : (setDom s k x).tbs = s.tbs := rfl
@[simp] theorem setDom_life (k : Nat) (x : Domain) : (setDom s k x).life = s.life := rfl
@[simp] theorem setDom_host (k : Nat) (x : Domain) : (setDom s k x).host = s.host := rfl
@[simp] theorem setDom_net (k : Nat) (x : Domain) : (setDom s k x).net = s.net := rfl
@[simp] theorem setDom_ctxs (k : Nat) (x : Domain) : (setDom s k x).ctxs = s.ctxs := rfl
@[simp] theorem setDom_na (k : Nat) (x : Domain) : (setDom s k x).na = s.na := rfl
@[simp] theorem setDom_tdm (k : Nat) (x : Domain) : (setDom s k x).tdm = s.tdm := rfl
@[simp] theorem setDom_audio (k : Nat) (x : Domain) : (setDom s k x).audio = s.audio := rfl
@[simp] theorem setDom_lanes (k : Nat) (x : Domain) : (setDom s k x).lanes = s.lanes := rfl
@[simp] theorem setDom_budget (k : Nat) (x : Domain) : (setDom s k x).budget = s.budget := rfl
@[simp] theorem setDom_trans (k : Nat) (x : Domain) : (setDom s k x).trans = s.trans := rfl
@[simp] theorem setDom_xbar (k : Nat) (x : Domain) : (setDom s k x).xbar = s.xbar := rfl
@[simp] theorem setDom_mem (k : Nat) (x : Domain) : (setDom s k x).mem = s.mem := rfl
@[simp] theorem setDom_dram (k : Nat) (x : Domain) : (setDom s k x).dram = s.dram := rfl
@[simp] theorem setDom_sage (k : Nat) (x : Domain) : (setDom s k x).sage = s.sage := rfl
@[simp] theorem setDom_pair (k : Nat) (x : Domain) : (setDom s k x).pair = s.pair := rfl
@[simp] theorem setDom_pins (k : Nat) (x : Domain) : (setDom s k x).pins = s.pins := rfl
@[simp] theorem forceVal_setDom_same (k : Nat) (x : Domain) (p : Obj) : forceVal (setDom s k x) p = forceVal s p := rfl

/-! ### setSess -/

@[simp] theorem setSess_pending (k : Nat) (x : Session) : (setSess s k x).pending = s.pending := rfl
@[simp] theorem setSess_now (k : Nat) (x : Session) : (setSess s k x).now = s.now := rfl
@[simp] theorem setSess_free (k : Nat) (x : Session) : (setSess s k x).free = s.free := rfl
@[simp] theorem setSess_boot (k : Nat) (x : Session) : (setSess s k x).boot = s.boot := rfl
@[simp] theorem setSess_aon (k : Nat) (x : Session) : (setSess s k x).aon = s.aon := rfl
@[simp] theorem setSess_dict (k : Nat) (x : Session) : (setSess s k x).dict = s.dict := rfl
@[simp] theorem setSess_commit (k : Nat) (x : Session) : (setSess s k x).commit = s.commit := rfl
@[simp] theorem setSess_ver (k : Nat) (x : Session) : (setSess s k x).ver = s.ver := rfl
@[simp] theorem setSess_mode (k : Nat) (x : Session) : (setSess s k x).mode = s.mode := rfl
@[simp] theorem setSess_doms (k : Nat) (x : Session) : (setSess s k x).doms = s.doms := rfl
@[simp] theorem setSess_refs (k : Nat) (x : Session) : (setSess s k x).refs = s.refs := rfl
@[simp] theorem setSess_tbs (k : Nat) (x : Session) : (setSess s k x).tbs = s.tbs := rfl
@[simp] theorem setSess_life (k : Nat) (x : Session) : (setSess s k x).life = s.life := rfl
@[simp] theorem setSess_host (k : Nat) (x : Session) : (setSess s k x).host = s.host := rfl
@[simp] theorem setSess_net (k : Nat) (x : Session) : (setSess s k x).net = s.net := rfl
@[simp] theorem setSess_ctxs (k : Nat) (x : Session) : (setSess s k x).ctxs = s.ctxs := rfl
@[simp] theorem setSess_na (k : Nat) (x : Session) : (setSess s k x).na = s.na := rfl
@[simp] theorem setSess_tdm (k : Nat) (x : Session) : (setSess s k x).tdm = s.tdm := rfl
@[simp] theorem setSess_audio (k : Nat) (x : Session) : (setSess s k x).audio = s.audio := rfl
@[simp] theorem setSess_lanes (k : Nat) (x : Session) : (setSess s k x).lanes = s.lanes := rfl
@[simp] theorem setSess_budget (k : Nat) (x : Session) : (setSess s k x).budget = s.budget := rfl
@[simp] theorem setSess_trans (k : Nat) (x : Session) : (setSess s k x).trans = s.trans := rfl
@[simp] theorem setSess_xbar (k : Nat) (x : Session) : (setSess s k x).xbar = s.xbar := rfl
@[simp] theorem setSess_mem (k : Nat) (x : Session) : (setSess s k x).mem = s.mem := rfl
@[simp] theorem setSess_dram (k : Nat) (x : Session) : (setSess s k x).dram = s.dram := rfl
@[simp] theorem setSess_sage (k : Nat) (x : Session) : (setSess s k x).sage = s.sage := rfl
@[simp] theorem setSess_pair (k : Nat) (x : Session) : (setSess s k x).pair = s.pair := rfl
@[simp] theorem setSess_pins (k : Nat) (x : Session) : (setSess s k x).pins = s.pins := rfl
@[simp] theorem forceVal_setSess_same (k : Nat) (x : Session) (p : Obj) : forceVal (setSess s k x) p = forceVal s p := rfl

/-! ### setBudget -/

@[simp] theorem setBudget_pending (k : Nat) (x : BudgetRt) : (setBudget s k x).pending = s.pending := rfl
@[simp] theorem setBudget_now (k : Nat) (x : BudgetRt) : (setBudget s k x).now = s.now := rfl
@[simp] theorem setBudget_free (k : Nat) (x : BudgetRt) : (setBudget s k x).free = s.free := rfl
@[simp] theorem setBudget_boot (k : Nat) (x : BudgetRt) : (setBudget s k x).boot = s.boot := rfl
@[simp] theorem setBudget_aon (k : Nat) (x : BudgetRt) : (setBudget s k x).aon = s.aon := rfl
@[simp] theorem setBudget_dict (k : Nat) (x : BudgetRt) : (setBudget s k x).dict = s.dict := rfl
@[simp] theorem setBudget_ctl (k : Nat) (x : BudgetRt) : (setBudget s k x).ctl = s.ctl := rfl
@[simp] theorem setBudget_commit (k : Nat) (x : BudgetRt) : (setBudget s k x).commit = s.commit := rfl
@[simp] theorem setBudget_ver (k : Nat) (x : BudgetRt) : (setBudget s k x).ver = s.ver := rfl
@[simp] theorem setBudget_mode (k : Nat) (x : BudgetRt) : (setBudget s k x).mode = s.mode := rfl
@[simp] theorem setBudget_doms (k : Nat) (x : BudgetRt) : (setBudget s k x).doms = s.doms := rfl
@[simp] theorem setBudget_refs (k : Nat) (x : BudgetRt) : (setBudget s k x).refs = s.refs := rfl
@[simp] theorem setBudget_tbs (k : Nat) (x : BudgetRt) : (setBudget s k x).tbs = s.tbs := rfl
@[simp] theorem setBudget_life (k : Nat) (x : BudgetRt) : (setBudget s k x).life = s.life := rfl
@[simp] theorem setBudget_host (k : Nat) (x : BudgetRt) : (setBudget s k x).host = s.host := rfl
@[simp] theorem setBudget_net (k : Nat) (x : BudgetRt) : (setBudget s k x).net = s.net := rfl
@[simp] theorem setBudget_ctxs (k : Nat) (x : BudgetRt) : (setBudget s k x).ctxs = s.ctxs := rfl
@[simp] theorem setBudget_na (k : Nat) (x : BudgetRt) : (setBudget s k x).na = s.na := rfl
@[simp] theorem setBudget_tdm (k : Nat) (x : BudgetRt) : (setBudget s k x).tdm = s.tdm := rfl
@[simp] theorem setBudget_audio (k : Nat) (x : BudgetRt) : (setBudget s k x).audio = s.audio := rfl
@[simp] theorem setBudget_lanes (k : Nat) (x : BudgetRt) : (setBudget s k x).lanes = s.lanes := rfl
@[simp] theorem setBudget_trans (k : Nat) (x : BudgetRt) : (setBudget s k x).trans = s.trans := rfl
@[simp] theorem setBudget_xbar (k : Nat) (x : BudgetRt) : (setBudget s k x).xbar = s.xbar := rfl
@[simp] theorem setBudget_mem (k : Nat) (x : BudgetRt) : (setBudget s k x).mem = s.mem := rfl
@[simp] theorem setBudget_dram (k : Nat) (x : BudgetRt) : (setBudget s k x).dram = s.dram := rfl
@[simp] theorem setBudget_sage (k : Nat) (x : BudgetRt) : (setBudget s k x).sage = s.sage := rfl
@[simp] theorem setBudget_pair (k : Nat) (x : BudgetRt) : (setBudget s k x).pair = s.pair := rfl
@[simp] theorem setBudget_pins (k : Nat) (x : BudgetRt) : (setBudget s k x).pins = s.pins := rfl
@[simp] theorem forceVal_setBudget_same (k : Nat) (x : BudgetRt) (p : Obj) : forceVal (setBudget s k x) p = forceVal s p := rfl

/-! ### setDram -/

@[simp] theorem setDram_pending (k : Nat) (x : Dram) : (setDram s k x).pending = s.pending := rfl
@[simp] theorem setDram_now (k : Nat) (x : Dram) : (setDram s k x).now = s.now := rfl
@[simp] theorem setDram_free (k : Nat) (x : Dram) : (setDram s k x).free = s.free := rfl
@[simp] theorem setDram_boot (k : Nat) (x : Dram) : (setDram s k x).boot = s.boot := rfl
@[simp] theorem setDram_aon (k : Nat) (x : Dram) : (setDram s k x).aon = s.aon := rfl
@[simp] theorem setDram_dict (k : Nat) (x : Dram) : (setDram s k x).dict = s.dict := rfl
@[simp] theorem setDram_ctl (k : Nat) (x : Dram) : (setDram s k x).ctl = s.ctl := rfl
@[simp] theorem setDram_commit (k : Nat) (x : Dram) : (setDram s k x).commit = s.commit := rfl
@[simp] theorem setDram_ver (k : Nat) (x : Dram) : (setDram s k x).ver = s.ver := rfl
@[simp] theorem setDram_mode (k : Nat) (x : Dram) : (setDram s k x).mode = s.mode := rfl
@[simp] theorem setDram_doms (k : Nat) (x : Dram) : (setDram s k x).doms = s.doms := rfl
@[simp] theorem setDram_refs (k : Nat) (x : Dram) : (setDram s k x).refs = s.refs := rfl
@[simp] theorem setDram_tbs (k : Nat) (x : Dram) : (setDram s k x).tbs = s.tbs := rfl
@[simp] theorem setDram_life (k : Nat) (x : Dram) : (setDram s k x).life = s.life := rfl
@[simp] theorem setDram_host (k : Nat) (x : Dram) : (setDram s k x).host = s.host := rfl
@[simp] theorem setDram_net (k : Nat) (x : Dram) : (setDram s k x).net = s.net := rfl
@[simp] theorem setDram_ctxs (k : Nat) (x : Dram) : (setDram s k x).ctxs = s.ctxs := rfl
@[simp] theorem setDram_na (k : Nat) (x : Dram) : (setDram s k x).na = s.na := rfl
@[simp] theorem setDram_tdm (k : Nat) (x : Dram) : (setDram s k x).tdm = s.tdm := rfl
@[simp] theorem setDram_audio (k : Nat) (x : Dram) : (setDram s k x).audio = s.audio := rfl
@[simp] theorem setDram_lanes (k : Nat) (x : Dram) : (setDram s k x).lanes = s.lanes := rfl
@[simp] theorem setDram_budget (k : Nat) (x : Dram) : (setDram s k x).budget = s.budget := rfl
@[simp] theorem setDram_trans (k : Nat) (x : Dram) : (setDram s k x).trans = s.trans := rfl
@[simp] theorem setDram_xbar (k : Nat) (x : Dram) : (setDram s k x).xbar = s.xbar := rfl
@[simp] theorem setDram_mem (k : Nat) (x : Dram) : (setDram s k x).mem = s.mem := rfl
@[simp] theorem setDram_sage (k : Nat) (x : Dram) : (setDram s k x).sage = s.sage := rfl
@[simp] theorem setDram_pair (k : Nat) (x : Dram) : (setDram s k x).pair = s.pair := rfl
@[simp] theorem setDram_pins (k : Nat) (x : Dram) : (setDram s k x).pins = s.pins := rfl
@[simp] theorem forceVal_setDram_same (k : Nat) (x : Dram) (p : Obj) : forceVal (setDram s k x) p = forceVal s p := rfl

/-! ### setLane -/

@[simp] theorem setLane_pending (k : Nat) (x : Lane) : (setLane s k x).pending = s.pending := rfl
@[simp] theorem setLane_now (k : Nat) (x : Lane) : (setLane s k x).now = s.now := rfl
@[simp] theorem setLane_free (k : Nat) (x : Lane) : (setLane s k x).free = s.free := rfl
@[simp] theorem setLane_boot (k : Nat) (x : Lane) : (setLane s k x).boot = s.boot := rfl
@[simp] theorem setLane_aon (k : Nat) (x : Lane) : (setLane s k x).aon = s.aon := rfl
@[simp] theorem setLane_dict (k : Nat) (x : Lane) : (setLane s k x).dict = s.dict := rfl
@[simp] theorem setLane_ctl (k : Nat) (x : Lane) : (setLane s k x).ctl = s.ctl := rfl
@[simp] theorem setLane_commit (k : Nat) (x : Lane) : (setLane s k x).commit = s.commit := rfl
@[simp] theorem setLane_ver (k : Nat) (x : Lane) : (setLane s k x).ver = s.ver := rfl
@[simp] theorem setLane_mode (k : Nat) (x : Lane) : (setLane s k x).mode = s.mode := rfl
@[simp] theorem setLane_doms (k : Nat) (x : Lane) : (setLane s k x).doms = s.doms := rfl
@[simp] theorem setLane_refs (k : Nat) (x : Lane) : (setLane s k x).refs = s.refs := rfl
@[simp] theorem setLane_tbs (k : Nat) (x : Lane) : (setLane s k x).tbs = s.tbs := rfl
@[simp] theorem setLane_life (k : Nat) (x : Lane) : (setLane s k x).life = s.life := rfl
@[simp] theorem setLane_host (k : Nat) (x : Lane) : (setLane s k x).host = s.host := rfl
@[simp] theorem setLane_net (k : Nat) (x : Lane) : (setLane s k x).net = s.net := rfl
@[simp] theorem setLane_ctxs (k : Nat) (x : Lane) : (setLane s k x).ctxs = s.ctxs := rfl
@[simp] theorem setLane_na (k : Nat) (x : Lane) : (setLane s k x).na = s.na := rfl
@[simp] theorem setLane_tdm (k : Nat) (x : Lane) : (setLane s k x).tdm = s.tdm := rfl
@[simp] theorem setLane_audio (k : Nat) (x : Lane) : (setLane s k x).audio = s.audio := rfl
@[simp] theorem setLane_budget (k : Nat) (x : Lane) : (setLane s k x).budget = s.budget := rfl
@[simp] theorem setLane_trans (k : Nat) (x : Lane) : (setLane s k x).trans = s.trans := rfl
@[simp] theorem setLane_xbar (k : Nat) (x : Lane) : (setLane s k x).xbar = s.xbar := rfl
@[simp] theorem setLane_mem (k : Nat) (x : Lane) : (setLane s k x).mem = s.mem := rfl
@[simp] theorem setLane_dram (k : Nat) (x : Lane) : (setLane s k x).dram = s.dram := rfl
@[simp] theorem setLane_sage (k : Nat) (x : Lane) : (setLane s k x).sage = s.sage := rfl
@[simp] theorem setLane_pair (k : Nat) (x : Lane) : (setLane s k x).pair = s.pair := rfl
@[simp] theorem setLane_pins (k : Nat) (x : Lane) : (setLane s k x).pins = s.pins := rfl
@[simp] theorem forceVal_setLane_same (k : Nat) (x : Lane) (p : Obj) : forceVal (setLane s k x) p = forceVal s p := rfl

/-! ### setTb -/

@[simp] theorem setTb_pending (k : Nat) (x : TimeBase) : (setTb s k x).pending = s.pending := rfl
@[simp] theorem setTb_now (k : Nat) (x : TimeBase) : (setTb s k x).now = s.now := rfl
@[simp] theorem setTb_free (k : Nat) (x : TimeBase) : (setTb s k x).free = s.free := rfl
@[simp] theorem setTb_boot (k : Nat) (x : TimeBase) : (setTb s k x).boot = s.boot := rfl
@[simp] theorem setTb_aon (k : Nat) (x : TimeBase) : (setTb s k x).aon = s.aon := rfl
@[simp] theorem setTb_dict (k : Nat) (x : TimeBase) : (setTb s k x).dict = s.dict := rfl
@[simp] theorem setTb_ctl (k : Nat) (x : TimeBase) : (setTb s k x).ctl = s.ctl := rfl
@[simp] theorem setTb_commit (k : Nat) (x : TimeBase) : (setTb s k x).commit = s.commit := rfl
@[simp] theorem setTb_ver (k : Nat) (x : TimeBase) : (setTb s k x).ver = s.ver := rfl
@[simp] theorem setTb_mode (k : Nat) (x : TimeBase) : (setTb s k x).mode = s.mode := rfl
@[simp] theorem setTb_doms (k : Nat) (x : TimeBase) : (setTb s k x).doms = s.doms := rfl
@[simp] theorem setTb_refs (k : Nat) (x : TimeBase) : (setTb s k x).refs = s.refs := rfl
@[simp] theorem setTb_life (k : Nat) (x : TimeBase) : (setTb s k x).life = s.life := rfl
@[simp] theorem setTb_host (k : Nat) (x : TimeBase) : (setTb s k x).host = s.host := rfl
@[simp] theorem setTb_net (k : Nat) (x : TimeBase) : (setTb s k x).net = s.net := rfl
@[simp] theorem setTb_ctxs (k : Nat) (x : TimeBase) : (setTb s k x).ctxs = s.ctxs := rfl
@[simp] theorem setTb_na (k : Nat) (x : TimeBase) : (setTb s k x).na = s.na := rfl
@[simp] theorem setTb_tdm (k : Nat) (x : TimeBase) : (setTb s k x).tdm = s.tdm := rfl
@[simp] theorem setTb_audio (k : Nat) (x : TimeBase) : (setTb s k x).audio = s.audio := rfl
@[simp] theorem setTb_lanes (k : Nat) (x : TimeBase) : (setTb s k x).lanes = s.lanes := rfl
@[simp] theorem setTb_budget (k : Nat) (x : TimeBase) : (setTb s k x).budget = s.budget := rfl
@[simp] theorem setTb_trans (k : Nat) (x : TimeBase) : (setTb s k x).trans = s.trans := rfl
@[simp] theorem setTb_xbar (k : Nat) (x : TimeBase) : (setTb s k x).xbar = s.xbar := rfl
@[simp] theorem setTb_mem (k : Nat) (x : TimeBase) : (setTb s k x).mem = s.mem := rfl
@[simp] theorem setTb_dram (k : Nat) (x : TimeBase) : (setTb s k x).dram = s.dram := rfl
@[simp] theorem setTb_sage (k : Nat) (x : TimeBase) : (setTb s k x).sage = s.sage := rfl
@[simp] theorem setTb_pair (k : Nat) (x : TimeBase) : (setTb s k x).pair = s.pair := rfl
@[simp] theorem setTb_pins (k : Nat) (x : TimeBase) : (setTb s k x).pins = s.pins := rfl
@[simp] theorem forceVal_setTb_same (k : Nat) (x : TimeBase) (p : Obj) : forceVal (setTb s k x) p = forceVal s p := rfl

/-! ### setLife -/

@[simp] theorem setLife_pending (u : Obj) (x : Life) : (setLife s u x).pending = s.pending := rfl
@[simp] theorem setLife_now (u : Obj) (x : Life) : (setLife s u x).now = s.now := rfl
@[simp] theorem setLife_free (u : Obj) (x : Life) : (setLife s u x).free = s.free := rfl
@[simp] theorem setLife_boot (u : Obj) (x : Life) : (setLife s u x).boot = s.boot := rfl
@[simp] theorem setLife_aon (u : Obj) (x : Life) : (setLife s u x).aon = s.aon := rfl
@[simp] theorem setLife_dict (u : Obj) (x : Life) : (setLife s u x).dict = s.dict := rfl
@[simp] theorem setLife_ctl (u : Obj) (x : Life) : (setLife s u x).ctl = s.ctl := rfl
@[simp] theorem setLife_commit (u : Obj) (x : Life) : (setLife s u x).commit = s.commit := rfl
@[simp] theorem setLife_ver (u : Obj) (x : Life) : (setLife s u x).ver = s.ver := rfl
@[simp] theorem setLife_mode (u : Obj) (x : Life) : (setLife s u x).mode = s.mode := rfl
@[simp] theorem setLife_doms (u : Obj) (x : Life) : (setLife s u x).doms = s.doms := rfl
@[simp] theorem setLife_refs (u : Obj) (x : Life) : (setLife s u x).refs = s.refs := rfl
@[simp] theorem setLife_tbs (u : Obj) (x : Life) : (setLife s u x).tbs = s.tbs := rfl
@[simp] theorem setLife_host (u : Obj) (x : Life) : (setLife s u x).host = s.host := rfl
@[simp] theorem setLife_net (u : Obj) (x : Life) : (setLife s u x).net = s.net := rfl
@[simp] theorem setLife_ctxs (u : Obj) (x : Life) : (setLife s u x).ctxs = s.ctxs := rfl
@[simp] theorem setLife_na (u : Obj) (x : Life) : (setLife s u x).na = s.na := rfl
@[simp] theorem setLife_tdm (u : Obj) (x : Life) : (setLife s u x).tdm = s.tdm := rfl
@[simp] theorem setLife_audio (u : Obj) (x : Life) : (setLife s u x).audio = s.audio := rfl
@[simp] theorem setLife_lanes (u : Obj) (x : Life) : (setLife s u x).lanes = s.lanes := rfl
@[simp] theorem setLife_budget (u : Obj) (x : Life) : (setLife s u x).budget = s.budget := rfl
@[simp] theorem setLife_trans (u : Obj) (x : Life) : (setLife s u x).trans = s.trans := rfl
@[simp] theorem setLife_xbar (u : Obj) (x : Life) : (setLife s u x).xbar = s.xbar := rfl
@[simp] theorem setLife_mem (u : Obj) (x : Life) : (setLife s u x).mem = s.mem := rfl
@[simp] theorem setLife_dram (u : Obj) (x : Life) : (setLife s u x).dram = s.dram := rfl
@[simp] theorem setLife_sage (u : Obj) (x : Life) : (setLife s u x).sage = s.sage := rfl
@[simp] theorem setLife_pair (u : Obj) (x : Life) : (setLife s u x).pair = s.pair := rfl
@[simp] theorem setLife_pins (u : Obj) (x : Life) : (setLife s u x).pins = s.pins := rfl
@[simp] theorem forceVal_setLife_same (u : Obj) (x : Life) (p : Obj) : forceVal (setLife s u x) p = forceVal s p := rfl

/-! ### setRef -/

@[simp] theorem setRef_pending (k : Nat) (x : RefIn) : (setRef s k x).pending = s.pending := rfl
@[simp] theorem setRef_now (k : Nat) (x : RefIn) : (setRef s k x).now = s.now := rfl
@[simp] theorem setRef_free (k : Nat) (x : RefIn) : (setRef s k x).free = s.free := rfl
@[simp] theorem setRef_boot (k : Nat) (x : RefIn) : (setRef s k x).boot = s.boot := rfl
@[simp] theorem setRef_aon (k : Nat) (x : RefIn) : (setRef s k x).aon = s.aon := rfl
@[simp] theorem setRef_dict (k : Nat) (x : RefIn) : (setRef s k x).dict = s.dict := rfl
@[simp] theorem setRef_ctl (k : Nat) (x : RefIn) : (setRef s k x).ctl = s.ctl := rfl
@[simp] theorem setRef_commit (k : Nat) (x : RefIn) : (setRef s k x).commit = s.commit := rfl
@[simp] theorem setRef_ver (k : Nat) (x : RefIn) : (setRef s k x).ver = s.ver := rfl
@[simp] theorem setRef_mode (k : Nat) (x : RefIn) : (setRef s k x).mode = s.mode := rfl
@[simp] theorem setRef_doms (k : Nat) (x : RefIn) : (setRef s k x).doms = s.doms := rfl
@[simp] theorem setRef_tbs (k : Nat) (x : RefIn) : (setRef s k x).tbs = s.tbs := rfl
@[simp] theorem setRef_life (k : Nat) (x : RefIn) : (setRef s k x).life = s.life := rfl
@[simp] theorem setRef_host (k : Nat) (x : RefIn) : (setRef s k x).host = s.host := rfl
@[simp] theorem setRef_net (k : Nat) (x : RefIn) : (setRef s k x).net = s.net := rfl
@[simp] theorem setRef_ctxs (k : Nat) (x : RefIn) : (setRef s k x).ctxs = s.ctxs := rfl
@[simp] theorem setRef_na (k : Nat) (x : RefIn) : (setRef s k x).na = s.na := rfl
@[simp] theorem setRef_tdm (k : Nat) (x : RefIn) : (setRef s k x).tdm = s.tdm := rfl
@[simp] theorem setRef_audio (k : Nat) (x : RefIn) : (setRef s k x).audio = s.audio := rfl
@[simp] theorem setRef_lanes (k : Nat) (x : RefIn) : (setRef s k x).lanes = s.lanes := rfl
@[simp] theorem setRef_budget (k : Nat) (x : RefIn) : (setRef s k x).budget = s.budget := rfl
@[simp] theorem setRef_trans (k : Nat) (x : RefIn) : (setRef s k x).trans = s.trans := rfl
@[simp] theorem setRef_xbar (k : Nat) (x : RefIn) : (setRef s k x).xbar = s.xbar := rfl
@[simp] theorem setRef_mem (k : Nat) (x : RefIn) : (setRef s k x).mem = s.mem := rfl
@[simp] theorem setRef_dram (k : Nat) (x : RefIn) : (setRef s k x).dram = s.dram := rfl
@[simp] theorem setRef_sage (k : Nat) (x : RefIn) : (setRef s k x).sage = s.sage := rfl
@[simp] theorem setRef_pair (k : Nat) (x : RefIn) : (setRef s k x).pair = s.pair := rfl
@[simp] theorem setRef_pins (k : Nat) (x : RefIn) : (setRef s k x).pins = s.pins := rfl
@[simp] theorem forceVal_setRef_same (k : Nat) (x : RefIn) (p : Obj) : forceVal (setRef s k x) p = forceVal s p := rfl

/-! ### setArb -/

@[simp] theorem setArb_pending (k : Nat) (x : Arbiter) : (setArb s k x).pending = s.pending := rfl
@[simp] theorem setArb_now (k : Nat) (x : Arbiter) : (setArb s k x).now = s.now := rfl
@[simp] theorem setArb_free (k : Nat) (x : Arbiter) : (setArb s k x).free = s.free := rfl
@[simp] theorem setArb_boot (k : Nat) (x : Arbiter) : (setArb s k x).boot = s.boot := rfl
@[simp] theorem setArb_aon (k : Nat) (x : Arbiter) : (setArb s k x).aon = s.aon := rfl
@[simp] theorem setArb_dict (k : Nat) (x : Arbiter) : (setArb s k x).dict = s.dict := rfl
@[simp] theorem setArb_ctl (k : Nat) (x : Arbiter) : (setArb s k x).ctl = s.ctl := rfl
@[simp] theorem setArb_commit (k : Nat) (x : Arbiter) : (setArb s k x).commit = s.commit := rfl
@[simp] theorem setArb_ver (k : Nat) (x : Arbiter) : (setArb s k x).ver = s.ver := rfl
@[simp] theorem setArb_mode (k : Nat) (x : Arbiter) : (setArb s k x).mode = s.mode := rfl
@[simp] theorem setArb_doms (k : Nat) (x : Arbiter) : (setArb s k x).doms = s.doms := rfl
@[simp] theorem setArb_refs (k : Nat) (x : Arbiter) : (setArb s k x).refs = s.refs := rfl
@[simp] theorem setArb_tbs (k : Nat) (x : Arbiter) : (setArb s k x).tbs = s.tbs := rfl
@[simp] theorem setArb_life (k : Nat) (x : Arbiter) : (setArb s k x).life = s.life := rfl
@[simp] theorem setArb_host (k : Nat) (x : Arbiter) : (setArb s k x).host = s.host := rfl
@[simp] theorem setArb_net (k : Nat) (x : Arbiter) : (setArb s k x).net = s.net := rfl
@[simp] theorem setArb_ctxs (k : Nat) (x : Arbiter) : (setArb s k x).ctxs = s.ctxs := rfl
@[simp] theorem setArb_na (k : Nat) (x : Arbiter) : (setArb s k x).na = s.na := rfl
@[simp] theorem setArb_tdm (k : Nat) (x : Arbiter) : (setArb s k x).tdm = s.tdm := rfl
@[simp] theorem setArb_audio (k : Nat) (x : Arbiter) : (setArb s k x).audio = s.audio := rfl
@[simp] theorem setArb_lanes (k : Nat) (x : Arbiter) : (setArb s k x).lanes = s.lanes := rfl
@[simp] theorem setArb_budget (k : Nat) (x : Arbiter) : (setArb s k x).budget = s.budget := rfl
@[simp] theorem setArb_trans (k : Nat) (x : Arbiter) : (setArb s k x).trans = s.trans := rfl
@[simp] theorem setArb_mem (k : Nat) (x : Arbiter) : (setArb s k x).mem = s.mem := rfl
@[simp] theorem setArb_dram (k : Nat) (x : Arbiter) : (setArb s k x).dram = s.dram := rfl
@[simp] theorem setArb_sage (k : Nat) (x : Arbiter) : (setArb s k x).sage = s.sage := rfl
@[simp] theorem setArb_pair (k : Nat) (x : Arbiter) : (setArb s k x).pair = s.pair := rfl
@[simp] theorem setArb_pins (k : Nat) (x : Arbiter) : (setArb s k x).pins = s.pins := rfl
@[simp] theorem forceVal_setArb_same (k : Nat) (x : Arbiter) (p : Obj) : forceVal (setArb s k x) p = forceVal s p := rfl

/-! ### putOut -/

@[simp] theorem putOut_pending (o : Obj) (x : OutRt) : (putOut s o x).pending = s.pending := rfl
@[simp] theorem putOut_now (o : Obj) (x : OutRt) : (putOut s o x).now = s.now := rfl
@[simp] theorem putOut_free (o : Obj) (x : OutRt) : (putOut s o x).free = s.free := rfl
@[simp] theorem putOut_boot (o : Obj) (x : OutRt) : (putOut s o x).boot = s.boot := rfl
@[simp] theorem putOut_aon (o : Obj) (x : OutRt) : (putOut s o x).aon = s.aon := rfl
@[simp] theorem putOut_dict (o : Obj) (x : OutRt) : (putOut s o x).dict = s.dict := rfl
@[simp] theorem putOut_ctl (o : Obj) (x : OutRt) : (putOut s o x).ctl = s.ctl := rfl
@[simp] theorem putOut_commit (o : Obj) (x : OutRt) : (putOut s o x).commit = s.commit := rfl
@[simp] theorem putOut_ver (o : Obj) (x : OutRt) : (putOut s o x).ver = s.ver := rfl
@[simp] theorem putOut_mode (o : Obj) (x : OutRt) : (putOut s o x).mode = s.mode := rfl
@[simp] theorem putOut_doms (o : Obj) (x : OutRt) : (putOut s o x).doms = s.doms := rfl
@[simp] theorem putOut_refs (o : Obj) (x : OutRt) : (putOut s o x).refs = s.refs := rfl
@[simp] theorem putOut_tbs (o : Obj) (x : OutRt) : (putOut s o x).tbs = s.tbs := rfl
@[simp] theorem putOut_life (o : Obj) (x : OutRt) : (putOut s o x).life = s.life := rfl
@[simp] theorem putOut_host (o : Obj) (x : OutRt) : (putOut s o x).host = s.host := rfl
@[simp] theorem putOut_net (o : Obj) (x : OutRt) : (putOut s o x).net = s.net := rfl
@[simp] theorem putOut_ctxs (o : Obj) (x : OutRt) : (putOut s o x).ctxs = s.ctxs := rfl
@[simp] theorem putOut_na (o : Obj) (x : OutRt) : (putOut s o x).na = s.na := rfl
@[simp] theorem putOut_tdm (o : Obj) (x : OutRt) : (putOut s o x).tdm = s.tdm := rfl
@[simp] theorem putOut_lanes (o : Obj) (x : OutRt) : (putOut s o x).lanes = s.lanes := rfl
@[simp] theorem putOut_budget (o : Obj) (x : OutRt) : (putOut s o x).budget = s.budget := rfl
@[simp] theorem putOut_trans (o : Obj) (x : OutRt) : (putOut s o x).trans = s.trans := rfl
@[simp] theorem putOut_xbar (o : Obj) (x : OutRt) : (putOut s o x).xbar = s.xbar := rfl
@[simp] theorem putOut_mem (o : Obj) (x : OutRt) : (putOut s o x).mem = s.mem := rfl
@[simp] theorem putOut_dram (o : Obj) (x : OutRt) : (putOut s o x).dram = s.dram := rfl
@[simp] theorem putOut_sage (o : Obj) (x : OutRt) : (putOut s o x).sage = s.sage := rfl
@[simp] theorem putOut_pair (o : Obj) (x : OutRt) : (putOut s o x).pair = s.pair := rfl
@[simp] theorem putOut_pins (o : Obj) (x : OutRt) : (putOut s o x).pins = s.pins := rfl
@[simp] theorem forceVal_putOut_same (o : Obj) (x : OutRt) (p : Obj) : forceVal (putOut s o x) p = forceVal s p := rfl

/-! ### putUnit -/

@[simp] theorem putUnit_pending (o : Obj) (x : UnitRt) : (putUnit s o x).pending = s.pending := rfl
@[simp] theorem putUnit_now (o : Obj) (x : UnitRt) : (putUnit s o x).now = s.now := rfl
@[simp] theorem putUnit_free (o : Obj) (x : UnitRt) : (putUnit s o x).free = s.free := rfl
@[simp] theorem putUnit_boot (o : Obj) (x : UnitRt) : (putUnit s o x).boot = s.boot := rfl
@[simp] theorem putUnit_aon (o : Obj) (x : UnitRt) : (putUnit s o x).aon = s.aon := rfl
@[simp] theorem putUnit_dict (o : Obj) (x : UnitRt) : (putUnit s o x).dict = s.dict := rfl
@[simp] theorem putUnit_ctl (o : Obj) (x : UnitRt) : (putUnit s o x).ctl = s.ctl := rfl
@[simp] theorem putUnit_commit (o : Obj) (x : UnitRt) : (putUnit s o x).commit = s.commit := rfl
@[simp] theorem putUnit_ver (o : Obj) (x : UnitRt) : (putUnit s o x).ver = s.ver := rfl
@[simp] theorem putUnit_mode (o : Obj) (x : UnitRt) : (putUnit s o x).mode = s.mode := rfl
@[simp] theorem putUnit_doms (o : Obj) (x : UnitRt) : (putUnit s o x).doms = s.doms := rfl
@[simp] theorem putUnit_refs (o : Obj) (x : UnitRt) : (putUnit s o x).refs = s.refs := rfl
@[simp] theorem putUnit_tbs (o : Obj) (x : UnitRt) : (putUnit s o x).tbs = s.tbs := rfl
@[simp] theorem putUnit_life (o : Obj) (x : UnitRt) : (putUnit s o x).life = s.life := rfl
@[simp] theorem putUnit_host (o : Obj) (x : UnitRt) : (putUnit s o x).host = s.host := rfl
@[simp] theorem putUnit_net (o : Obj) (x : UnitRt) : (putUnit s o x).net = s.net := rfl
@[simp] theorem putUnit_ctxs (o : Obj) (x : UnitRt) : (putUnit s o x).ctxs = s.ctxs := rfl
@[simp] theorem putUnit_na (o : Obj) (x : UnitRt) : (putUnit s o x).na = s.na := rfl
@[simp] theorem putUnit_tdm (o : Obj) (x : UnitRt) : (putUnit s o x).tdm = s.tdm := rfl
@[simp] theorem putUnit_lanes (o : Obj) (x : UnitRt) : (putUnit s o x).lanes = s.lanes := rfl
@[simp] theorem putUnit_budget (o : Obj) (x : UnitRt) : (putUnit s o x).budget = s.budget := rfl
@[simp] theorem putUnit_trans (o : Obj) (x : UnitRt) : (putUnit s o x).trans = s.trans := rfl
@[simp] theorem putUnit_xbar (o : Obj) (x : UnitRt) : (putUnit s o x).xbar = s.xbar := rfl
@[simp] theorem putUnit_mem (o : Obj) (x : UnitRt) : (putUnit s o x).mem = s.mem := rfl
@[simp] theorem putUnit_dram (o : Obj) (x : UnitRt) : (putUnit s o x).dram = s.dram := rfl
@[simp] theorem putUnit_sage (o : Obj) (x : UnitRt) : (putUnit s o x).sage = s.sage := rfl
@[simp] theorem putUnit_pair (o : Obj) (x : UnitRt) : (putUnit s o x).pair = s.pair := rfl
@[simp] theorem putUnit_pins (o : Obj) (x : UnitRt) : (putUnit s o x).pins = s.pins := rfl
@[simp] theorem forceVal_putUnit_same (o : Obj) (x : UnitRt) (p : Obj) : forceVal (putUnit s o x) p = forceVal s p := rfl

/-! ### putRamp -/

@[simp] theorem putRamp_pending (o : Obj) (x : Ramp) : (putRamp s o x).pending = s.pending := rfl
@[simp] theorem putRamp_now (o : Obj) (x : Ramp) : (putRamp s o x).now = s.now := rfl
@[simp] theorem putRamp_free (o : Obj) (x : Ramp) : (putRamp s o x).free = s.free := rfl
@[simp] theorem putRamp_boot (o : Obj) (x : Ramp) : (putRamp s o x).boot = s.boot := rfl
@[simp] theorem putRamp_aon (o : Obj) (x : Ramp) : (putRamp s o x).aon = s.aon := rfl
@[simp] theorem putRamp_dict (o : Obj) (x : Ramp) : (putRamp s o x).dict = s.dict := rfl
@[simp] theorem putRamp_ctl (o : Obj) (x : Ramp) : (putRamp s o x).ctl = s.ctl := rfl
@[simp] theorem putRamp_commit (o : Obj) (x : Ramp) : (putRamp s o x).commit = s.commit := rfl
@[simp] theorem putRamp_ver (o : Obj) (x : Ramp) : (putRamp s o x).ver = s.ver := rfl
@[simp] theorem putRamp_mode (o : Obj) (x : Ramp) : (putRamp s o x).mode = s.mode := rfl
@[simp] theorem putRamp_doms (o : Obj) (x : Ramp) : (putRamp s o x).doms = s.doms := rfl
@[simp] theorem putRamp_refs (o : Obj) (x : Ramp) : (putRamp s o x).refs = s.refs := rfl
@[simp] theorem putRamp_tbs (o : Obj) (x : Ramp) : (putRamp s o x).tbs = s.tbs := rfl
@[simp] theorem putRamp_life (o : Obj) (x : Ramp) : (putRamp s o x).life = s.life := rfl
@[simp] theorem putRamp_host (o : Obj) (x : Ramp) : (putRamp s o x).host = s.host := rfl
@[simp] theorem putRamp_net (o : Obj) (x : Ramp) : (putRamp s o x).net = s.net := rfl
@[simp] theorem putRamp_ctxs (o : Obj) (x : Ramp) : (putRamp s o x).ctxs = s.ctxs := rfl
@[simp] theorem putRamp_na (o : Obj) (x : Ramp) : (putRamp s o x).na = s.na := rfl
@[simp] theorem putRamp_tdm (o : Obj) (x : Ramp) : (putRamp s o x).tdm = s.tdm := rfl
@[simp] theorem putRamp_lanes (o : Obj) (x : Ramp) : (putRamp s o x).lanes = s.lanes := rfl
@[simp] theorem putRamp_budget (o : Obj) (x : Ramp) : (putRamp s o x).budget = s.budget := rfl
@[simp] theorem putRamp_trans (o : Obj) (x : Ramp) : (putRamp s o x).trans = s.trans := rfl
@[simp] theorem putRamp_xbar (o : Obj) (x : Ramp) : (putRamp s o x).xbar = s.xbar := rfl
@[simp] theorem putRamp_mem (o : Obj) (x : Ramp) : (putRamp s o x).mem = s.mem := rfl
@[simp] theorem putRamp_dram (o : Obj) (x : Ramp) : (putRamp s o x).dram = s.dram := rfl
@[simp] theorem putRamp_sage (o : Obj) (x : Ramp) : (putRamp s o x).sage = s.sage := rfl
@[simp] theorem putRamp_pair (o : Obj) (x : Ramp) : (putRamp s o x).pair = s.pair := rfl
@[simp] theorem putRamp_pins (o : Obj) (x : Ramp) : (putRamp s o x).pins = s.pins := rfl
@[simp] theorem forceVal_putRamp_same (o : Obj) (x : Ramp) (p : Obj) : forceVal (putRamp s o x) p = forceVal s p := rfl

/-! ### putSig -/

@[simp] theorem putSig_pending (k f : Nat) (v : List Int) : (putSig s k f v).pending = s.pending := rfl
@[simp] theorem putSig_now (k f : Nat) (v : List Int) : (putSig s k f v).now = s.now := rfl
@[simp] theorem putSig_free (k f : Nat) (v : List Int) : (putSig s k f v).free = s.free := rfl
@[simp] theorem putSig_boot (k f : Nat) (v : List Int) : (putSig s k f v).boot = s.boot := rfl
@[simp] theorem putSig_aon (k f : Nat) (v : List Int) : (putSig s k f v).aon = s.aon := rfl
@[simp] theorem putSig_dict (k f : Nat) (v : List Int) : (putSig s k f v).dict = s.dict := rfl
@[simp] theorem putSig_ctl (k f : Nat) (v : List Int) : (putSig s k f v).ctl = s.ctl := rfl
@[simp] theorem putSig_commit (k f : Nat) (v : List Int) : (putSig s k f v).commit = s.commit := rfl
@[simp] theorem putSig_ver (k f : Nat) (v : List Int) : (putSig s k f v).ver = s.ver := rfl
@[simp] theorem putSig_mode (k f : Nat) (v : List Int) : (putSig s k f v).mode = s.mode := rfl
@[simp] theorem putSig_doms (k f : Nat) (v : List Int) : (putSig s k f v).doms = s.doms := rfl
@[simp] theorem putSig_refs (k f : Nat) (v : List Int) : (putSig s k f v).refs = s.refs := rfl
@[simp] theorem putSig_tbs (k f : Nat) (v : List Int) : (putSig s k f v).tbs = s.tbs := rfl
@[simp] theorem putSig_life (k f : Nat) (v : List Int) : (putSig s k f v).life = s.life := rfl
@[simp] theorem putSig_host (k f : Nat) (v : List Int) : (putSig s k f v).host = s.host := rfl
@[simp] theorem putSig_net (k f : Nat) (v : List Int) : (putSig s k f v).net = s.net := rfl
@[simp] theorem putSig_ctxs (k f : Nat) (v : List Int) : (putSig s k f v).ctxs = s.ctxs := rfl
@[simp] theorem putSig_na (k f : Nat) (v : List Int) : (putSig s k f v).na = s.na := rfl
@[simp] theorem putSig_tdm (k f : Nat) (v : List Int) : (putSig s k f v).tdm = s.tdm := rfl
@[simp] theorem putSig_lanes (k f : Nat) (v : List Int) : (putSig s k f v).lanes = s.lanes := rfl
@[simp] theorem putSig_budget (k f : Nat) (v : List Int) : (putSig s k f v).budget = s.budget := rfl
@[simp] theorem putSig_trans (k f : Nat) (v : List Int) : (putSig s k f v).trans = s.trans := rfl
@[simp] theorem putSig_xbar (k f : Nat) (v : List Int) : (putSig s k f v).xbar = s.xbar := rfl
@[simp] theorem putSig_mem (k f : Nat) (v : List Int) : (putSig s k f v).mem = s.mem := rfl
@[simp] theorem putSig_dram (k f : Nat) (v : List Int) : (putSig s k f v).dram = s.dram := rfl
@[simp] theorem putSig_sage (k f : Nat) (v : List Int) : (putSig s k f v).sage = s.sage := rfl
@[simp] theorem putSig_pair (k f : Nat) (v : List Int) : (putSig s k f v).pair = s.pair := rfl
@[simp] theorem putSig_pins (k f : Nat) (v : List Int) : (putSig s k f v).pins = s.pins := rfl
@[simp] theorem forceVal_putSig_same (k f : Nat) (v : List Int) (p : Obj) : forceVal (putSig s k f v) p = forceVal s p := rfl

/-! ### putSlot -/

@[simp] theorem putSlot_pending (k f : Nat) (v : List Int) : (putSlot s k f v).pending = s.pending := rfl
@[simp] theorem putSlot_now (k f : Nat) (v : List Int) : (putSlot s k f v).now = s.now := rfl
@[simp] theorem putSlot_free (k f : Nat) (v : List Int) : (putSlot s k f v).free = s.free := rfl
@[simp] theorem putSlot_boot (k f : Nat) (v : List Int) : (putSlot s k f v).boot = s.boot := rfl
@[simp] theorem putSlot_aon (k f : Nat) (v : List Int) : (putSlot s k f v).aon = s.aon := rfl
@[simp] theorem putSlot_dict (k f : Nat) (v : List Int) : (putSlot s k f v).dict = s.dict := rfl
@[simp] theorem putSlot_ctl (k f : Nat) (v : List Int) : (putSlot s k f v).ctl = s.ctl := rfl
@[simp] theorem putSlot_commit (k f : Nat) (v : List Int) : (putSlot s k f v).commit = s.commit := rfl
@[simp] theorem putSlot_ver (k f : Nat) (v : List Int) : (putSlot s k f v).ver = s.ver := rfl
@[simp] theorem putSlot_mode (k f : Nat) (v : List Int) : (putSlot s k f v).mode = s.mode := rfl
@[simp] theorem putSlot_doms (k f : Nat) (v : List Int) : (putSlot s k f v).doms = s.doms := rfl
@[simp] theorem putSlot_refs (k f : Nat) (v : List Int) : (putSlot s k f v).refs = s.refs := rfl
@[simp] theorem putSlot_tbs (k f : Nat) (v : List Int) : (putSlot s k f v).tbs = s.tbs := rfl
@[simp] theorem putSlot_life (k f : Nat) (v : List Int) : (putSlot s k f v).life = s.life := rfl
@[simp] theorem putSlot_host (k f : Nat) (v : List Int) : (putSlot s k f v).host = s.host := rfl
@[simp] theorem putSlot_net (k f : Nat) (v : List Int) : (putSlot s k f v).net = s.net := rfl
@[simp] theorem putSlot_ctxs (k f : Nat) (v : List Int) : (putSlot s k f v).ctxs = s.ctxs := rfl
@[simp] theorem putSlot_na (k f : Nat) (v : List Int) : (putSlot s k f v).na = s.na := rfl
@[simp] theorem putSlot_tdm (k f : Nat) (v : List Int) : (putSlot s k f v).tdm = s.tdm := rfl
@[simp] theorem putSlot_lanes (k f : Nat) (v : List Int) : (putSlot s k f v).lanes = s.lanes := rfl
@[simp] theorem putSlot_budget (k f : Nat) (v : List Int) : (putSlot s k f v).budget = s.budget := rfl
@[simp] theorem putSlot_trans (k f : Nat) (v : List Int) : (putSlot s k f v).trans = s.trans := rfl
@[simp] theorem putSlot_xbar (k f : Nat) (v : List Int) : (putSlot s k f v).xbar = s.xbar := rfl
@[simp] theorem putSlot_mem (k f : Nat) (v : List Int) : (putSlot s k f v).mem = s.mem := rfl
@[simp] theorem putSlot_dram (k f : Nat) (v : List Int) : (putSlot s k f v).dram = s.dram := rfl
@[simp] theorem putSlot_sage (k f : Nat) (v : List Int) : (putSlot s k f v).sage = s.sage := rfl
@[simp] theorem putSlot_pair (k f : Nat) (v : List Int) : (putSlot s k f v).pair = s.pair := rfl
@[simp] theorem putSlot_pins (k f : Nat) (v : List Int) : (putSlot s k f v).pins = s.pins := rfl
@[simp] theorem forceVal_putSlot_same (k f : Nat) (v : List Int) (p : Obj) : forceVal (putSlot s k f v) p = forceVal s p := rfl

/-! ### setCap -/

@[simp] theorem setCap_pending (x : Capture) : (setCap s x).pending = s.pending := rfl
@[simp] theorem setCap_now (x : Capture) : (setCap s x).now = s.now := rfl
@[simp] theorem setCap_free (x : Capture) : (setCap s x).free = s.free := rfl
@[simp] theorem setCap_boot (x : Capture) : (setCap s x).boot = s.boot := rfl
@[simp] theorem setCap_aon (x : Capture) : (setCap s x).aon = s.aon := rfl
@[simp] theorem setCap_dict (x : Capture) : (setCap s x).dict = s.dict := rfl
@[simp] theorem setCap_ctl (x : Capture) : (setCap s x).ctl = s.ctl := rfl
@[simp] theorem setCap_commit (x : Capture) : (setCap s x).commit = s.commit := rfl
@[simp] theorem setCap_ver (x : Capture) : (setCap s x).ver = s.ver := rfl
@[simp] theorem setCap_mode (x : Capture) : (setCap s x).mode = s.mode := rfl
@[simp] theorem setCap_doms (x : Capture) : (setCap s x).doms = s.doms := rfl
@[simp] theorem setCap_refs (x : Capture) : (setCap s x).refs = s.refs := rfl
@[simp] theorem setCap_tbs (x : Capture) : (setCap s x).tbs = s.tbs := rfl
@[simp] theorem setCap_life (x : Capture) : (setCap s x).life = s.life := rfl
@[simp] theorem setCap_host (x : Capture) : (setCap s x).host = s.host := rfl
@[simp] theorem setCap_net (x : Capture) : (setCap s x).net = s.net := rfl
@[simp] theorem setCap_ctxs (x : Capture) : (setCap s x).ctxs = s.ctxs := rfl
@[simp] theorem setCap_na (x : Capture) : (setCap s x).na = s.na := rfl
@[simp] theorem setCap_tdm (x : Capture) : (setCap s x).tdm = s.tdm := rfl
@[simp] theorem setCap_lanes (x : Capture) : (setCap s x).lanes = s.lanes := rfl
@[simp] theorem setCap_budget (x : Capture) : (setCap s x).budget = s.budget := rfl
@[simp] theorem setCap_trans (x : Capture) : (setCap s x).trans = s.trans := rfl
@[simp] theorem setCap_xbar (x : Capture) : (setCap s x).xbar = s.xbar := rfl
@[simp] theorem setCap_mem (x : Capture) : (setCap s x).mem = s.mem := rfl
@[simp] theorem setCap_dram (x : Capture) : (setCap s x).dram = s.dram := rfl
@[simp] theorem setCap_sage (x : Capture) : (setCap s x).sage = s.sage := rfl
@[simp] theorem setCap_pair (x : Capture) : (setCap s x).pair = s.pair := rfl
@[simp] theorem setCap_pins (x : Capture) : (setCap s x).pins = s.pins := rfl
@[simp] theorem forceVal_setCap_same (x : Capture) (p : Obj) : forceVal (setCap s x) p = forceVal s p := rfl

/-! ### setBridge -/

@[simp] theorem setBridge_pending (u : Obj) (x : BridgeRt) : (setBridge s u x).pending = s.pending := rfl
@[simp] theorem setBridge_now (u : Obj) (x : BridgeRt) : (setBridge s u x).now = s.now := rfl
@[simp] theorem setBridge_free (u : Obj) (x : BridgeRt) : (setBridge s u x).free = s.free := rfl
@[simp] theorem setBridge_boot (u : Obj) (x : BridgeRt) : (setBridge s u x).boot = s.boot := rfl
@[simp] theorem setBridge_aon (u : Obj) (x : BridgeRt) : (setBridge s u x).aon = s.aon := rfl
@[simp] theorem setBridge_dict (u : Obj) (x : BridgeRt) : (setBridge s u x).dict = s.dict := rfl
@[simp] theorem setBridge_ctl (u : Obj) (x : BridgeRt) : (setBridge s u x).ctl = s.ctl := rfl
@[simp] theorem setBridge_commit (u : Obj) (x : BridgeRt) : (setBridge s u x).commit = s.commit := rfl
@[simp] theorem setBridge_ver (u : Obj) (x : BridgeRt) : (setBridge s u x).ver = s.ver := rfl
@[simp] theorem setBridge_mode (u : Obj) (x : BridgeRt) : (setBridge s u x).mode = s.mode := rfl
@[simp] theorem setBridge_doms (u : Obj) (x : BridgeRt) : (setBridge s u x).doms = s.doms := rfl
@[simp] theorem setBridge_refs (u : Obj) (x : BridgeRt) : (setBridge s u x).refs = s.refs := rfl
@[simp] theorem setBridge_tbs (u : Obj) (x : BridgeRt) : (setBridge s u x).tbs = s.tbs := rfl
@[simp] theorem setBridge_life (u : Obj) (x : BridgeRt) : (setBridge s u x).life = s.life := rfl
@[simp] theorem setBridge_host (u : Obj) (x : BridgeRt) : (setBridge s u x).host = s.host := rfl
@[simp] theorem setBridge_net (u : Obj) (x : BridgeRt) : (setBridge s u x).net = s.net := rfl
@[simp] theorem setBridge_ctxs (u : Obj) (x : BridgeRt) : (setBridge s u x).ctxs = s.ctxs := rfl
@[simp] theorem setBridge_na (u : Obj) (x : BridgeRt) : (setBridge s u x).na = s.na := rfl
@[simp] theorem setBridge_tdm (u : Obj) (x : BridgeRt) : (setBridge s u x).tdm = s.tdm := rfl
@[simp] theorem setBridge_lanes (u : Obj) (x : BridgeRt) : (setBridge s u x).lanes = s.lanes := rfl
@[simp] theorem setBridge_budget (u : Obj) (x : BridgeRt) : (setBridge s u x).budget = s.budget := rfl
@[simp] theorem setBridge_trans (u : Obj) (x : BridgeRt) : (setBridge s u x).trans = s.trans := rfl
@[simp] theorem setBridge_xbar (u : Obj) (x : BridgeRt) : (setBridge s u x).xbar = s.xbar := rfl
@[simp] theorem setBridge_mem (u : Obj) (x : BridgeRt) : (setBridge s u x).mem = s.mem := rfl
@[simp] theorem setBridge_dram (u : Obj) (x : BridgeRt) : (setBridge s u x).dram = s.dram := rfl
@[simp] theorem setBridge_sage (u : Obj) (x : BridgeRt) : (setBridge s u x).sage = s.sage := rfl
@[simp] theorem setBridge_pair (u : Obj) (x : BridgeRt) : (setBridge s u x).pair = s.pair := rfl
@[simp] theorem setBridge_pins (u : Obj) (x : BridgeRt) : (setBridge s u x).pins = s.pins := rfl
@[simp] theorem forceVal_setBridge_same (u : Obj) (x : BridgeRt) (p : Obj) : forceVal (setBridge s u x) p = forceVal s p := rfl

/-! ### setOutFade -/

@[simp] theorem setOutFade_pending (k : Nat) (x : OutFade) : (setOutFade s k x).pending = s.pending := rfl
@[simp] theorem setOutFade_now (k : Nat) (x : OutFade) : (setOutFade s k x).now = s.now := rfl
@[simp] theorem setOutFade_free (k : Nat) (x : OutFade) : (setOutFade s k x).free = s.free := rfl
@[simp] theorem setOutFade_boot (k : Nat) (x : OutFade) : (setOutFade s k x).boot = s.boot := rfl
@[simp] theorem setOutFade_aon (k : Nat) (x : OutFade) : (setOutFade s k x).aon = s.aon := rfl
@[simp] theorem setOutFade_dict (k : Nat) (x : OutFade) : (setOutFade s k x).dict = s.dict := rfl
@[simp] theorem setOutFade_ctl (k : Nat) (x : OutFade) : (setOutFade s k x).ctl = s.ctl := rfl
@[simp] theorem setOutFade_commit (k : Nat) (x : OutFade) : (setOutFade s k x).commit = s.commit := rfl
@[simp] theorem setOutFade_ver (k : Nat) (x : OutFade) : (setOutFade s k x).ver = s.ver := rfl
@[simp] theorem setOutFade_mode (k : Nat) (x : OutFade) : (setOutFade s k x).mode = s.mode := rfl
@[simp] theorem setOutFade_doms (k : Nat) (x : OutFade) : (setOutFade s k x).doms = s.doms := rfl
@[simp] theorem setOutFade_refs (k : Nat) (x : OutFade) : (setOutFade s k x).refs = s.refs := rfl
@[simp] theorem setOutFade_tbs (k : Nat) (x : OutFade) : (setOutFade s k x).tbs = s.tbs := rfl
@[simp] theorem setOutFade_life (k : Nat) (x : OutFade) : (setOutFade s k x).life = s.life := rfl
@[simp] theorem setOutFade_host (k : Nat) (x : OutFade) : (setOutFade s k x).host = s.host := rfl
@[simp] theorem setOutFade_net (k : Nat) (x : OutFade) : (setOutFade s k x).net = s.net := rfl
@[simp] theorem setOutFade_ctxs (k : Nat) (x : OutFade) : (setOutFade s k x).ctxs = s.ctxs := rfl
@[simp] theorem setOutFade_na (k : Nat) (x : OutFade) : (setOutFade s k x).na = s.na := rfl
@[simp] theorem setOutFade_tdm (k : Nat) (x : OutFade) : (setOutFade s k x).tdm = s.tdm := rfl
@[simp] theorem setOutFade_lanes (k : Nat) (x : OutFade) : (setOutFade s k x).lanes = s.lanes := rfl
@[simp] theorem setOutFade_budget (k : Nat) (x : OutFade) : (setOutFade s k x).budget = s.budget := rfl
@[simp] theorem setOutFade_trans (k : Nat) (x : OutFade) : (setOutFade s k x).trans = s.trans := rfl
@[simp] theorem setOutFade_xbar (k : Nat) (x : OutFade) : (setOutFade s k x).xbar = s.xbar := rfl
@[simp] theorem setOutFade_mem (k : Nat) (x : OutFade) : (setOutFade s k x).mem = s.mem := rfl
@[simp] theorem setOutFade_dram (k : Nat) (x : OutFade) : (setOutFade s k x).dram = s.dram := rfl
@[simp] theorem setOutFade_sage (k : Nat) (x : OutFade) : (setOutFade s k x).sage = s.sage := rfl
@[simp] theorem setOutFade_pair (k : Nat) (x : OutFade) : (setOutFade s k x).pair = s.pair := rfl
@[simp] theorem setOutFade_pins (k : Nat) (x : OutFade) : (setOutFade s k x).pins = s.pins := rfl
@[simp] theorem forceVal_setOutFade_same (k : Nat) (x : OutFade) (p : Obj) : forceVal (setOutFade s k x) p = forceVal s p := rfl

/-! ### setOutlet -/

@[simp] theorem setOutlet_pending (o : Obj) (x : OutletRt) : (setOutlet s o x).pending = s.pending := rfl
@[simp] theorem setOutlet_now (o : Obj) (x : OutletRt) : (setOutlet s o x).now = s.now := rfl
@[simp] theorem setOutlet_free (o : Obj) (x : OutletRt) : (setOutlet s o x).free = s.free := rfl
@[simp] theorem setOutlet_boot (o : Obj) (x : OutletRt) : (setOutlet s o x).boot = s.boot := rfl
@[simp] theorem setOutlet_aon (o : Obj) (x : OutletRt) : (setOutlet s o x).aon = s.aon := rfl
@[simp] theorem setOutlet_dict (o : Obj) (x : OutletRt) : (setOutlet s o x).dict = s.dict := rfl
@[simp] theorem setOutlet_ctl (o : Obj) (x : OutletRt) : (setOutlet s o x).ctl = s.ctl := rfl
@[simp] theorem setOutlet_commit (o : Obj) (x : OutletRt) : (setOutlet s o x).commit = s.commit := rfl
@[simp] theorem setOutlet_ver (o : Obj) (x : OutletRt) : (setOutlet s o x).ver = s.ver := rfl
@[simp] theorem setOutlet_mode (o : Obj) (x : OutletRt) : (setOutlet s o x).mode = s.mode := rfl
@[simp] theorem setOutlet_doms (o : Obj) (x : OutletRt) : (setOutlet s o x).doms = s.doms := rfl
@[simp] theorem setOutlet_refs (o : Obj) (x : OutletRt) : (setOutlet s o x).refs = s.refs := rfl
@[simp] theorem setOutlet_tbs (o : Obj) (x : OutletRt) : (setOutlet s o x).tbs = s.tbs := rfl
@[simp] theorem setOutlet_life (o : Obj) (x : OutletRt) : (setOutlet s o x).life = s.life := rfl
@[simp] theorem setOutlet_host (o : Obj) (x : OutletRt) : (setOutlet s o x).host = s.host := rfl
@[simp] theorem setOutlet_net (o : Obj) (x : OutletRt) : (setOutlet s o x).net = s.net := rfl
@[simp] theorem setOutlet_ctxs (o : Obj) (x : OutletRt) : (setOutlet s o x).ctxs = s.ctxs := rfl
@[simp] theorem setOutlet_na (o : Obj) (x : OutletRt) : (setOutlet s o x).na = s.na := rfl
@[simp] theorem setOutlet_tdm (o : Obj) (x : OutletRt) : (setOutlet s o x).tdm = s.tdm := rfl
@[simp] theorem setOutlet_lanes (o : Obj) (x : OutletRt) : (setOutlet s o x).lanes = s.lanes := rfl
@[simp] theorem setOutlet_budget (o : Obj) (x : OutletRt) : (setOutlet s o x).budget = s.budget := rfl
@[simp] theorem setOutlet_trans (o : Obj) (x : OutletRt) : (setOutlet s o x).trans = s.trans := rfl
@[simp] theorem setOutlet_xbar (o : Obj) (x : OutletRt) : (setOutlet s o x).xbar = s.xbar := rfl
@[simp] theorem setOutlet_mem (o : Obj) (x : OutletRt) : (setOutlet s o x).mem = s.mem := rfl
@[simp] theorem setOutlet_dram (o : Obj) (x : OutletRt) : (setOutlet s o x).dram = s.dram := rfl
@[simp] theorem setOutlet_sage (o : Obj) (x : OutletRt) : (setOutlet s o x).sage = s.sage := rfl
@[simp] theorem setOutlet_pair (o : Obj) (x : OutletRt) : (setOutlet s o x).pair = s.pair := rfl
@[simp] theorem setOutlet_pins (o : Obj) (x : OutletRt) : (setOutlet s o x).pins = s.pins := rfl
@[simp] theorem forceVal_setOutlet_same (o : Obj) (x : OutletRt) (p : Obj) : forceVal (setOutlet s o x) p = forceVal s p := rfl

/-! ### setNa -/

@[simp] theorem setNa_pending (u : Obj) (k : Nat) (x : NaDet) : (setNa s u k x).pending = s.pending := rfl
@[simp] theorem setNa_now (u : Obj) (k : Nat) (x : NaDet) : (setNa s u k x).now = s.now := rfl
@[simp] theorem setNa_free (u : Obj) (k : Nat) (x : NaDet) : (setNa s u k x).free = s.free := rfl
@[simp] theorem setNa_boot (u : Obj) (k : Nat) (x : NaDet) : (setNa s u k x).boot = s.boot := rfl
@[simp] theorem setNa_aon (u : Obj) (k : Nat) (x : NaDet) : (setNa s u k x).aon = s.aon := rfl
@[simp] theorem setNa_dict (u : Obj) (k : Nat) (x : NaDet) : (setNa s u k x).dict = s.dict := rfl
@[simp] theorem setNa_ctl (u : Obj) (k : Nat) (x : NaDet) : (setNa s u k x).ctl = s.ctl := rfl
@[simp] theorem setNa_commit (u : Obj) (k : Nat) (x : NaDet) : (setNa s u k x).commit = s.commit := rfl
@[simp] theorem setNa_ver (u : Obj) (k : Nat) (x : NaDet) : (setNa s u k x).ver = s.ver := rfl
@[simp] theorem setNa_mode (u : Obj) (k : Nat) (x : NaDet) : (setNa s u k x).mode = s.mode := rfl
@[simp] theorem setNa_doms (u : Obj) (k : Nat) (x : NaDet) : (setNa s u k x).doms = s.doms := rfl
@[simp] theorem setNa_refs (u : Obj) (k : Nat) (x : NaDet) : (setNa s u k x).refs = s.refs := rfl
@[simp] theorem setNa_tbs (u : Obj) (k : Nat) (x : NaDet) : (setNa s u k x).tbs = s.tbs := rfl
@[simp] theorem setNa_life (u : Obj) (k : Nat) (x : NaDet) : (setNa s u k x).life = s.life := rfl
@[simp] theorem setNa_host (u : Obj) (k : Nat) (x : NaDet) : (setNa s u k x).host = s.host := rfl
@[simp] theorem setNa_net (u : Obj) (k : Nat) (x : NaDet) : (setNa s u k x).net = s.net := rfl
@[simp] theorem setNa_ctxs (u : Obj) (k : Nat) (x : NaDet) : (setNa s u k x).ctxs = s.ctxs := rfl
@[simp] theorem setNa_tdm (u : Obj) (k : Nat) (x : NaDet) : (setNa s u k x).tdm = s.tdm := rfl
@[simp] theorem setNa_audio (u : Obj) (k : Nat) (x : NaDet) : (setNa s u k x).audio = s.audio := rfl
@[simp] theorem setNa_lanes (u : Obj) (k : Nat) (x : NaDet) : (setNa s u k x).lanes = s.lanes := rfl
@[simp] theorem setNa_budget (u : Obj) (k : Nat) (x : NaDet) : (setNa s u k x).budget = s.budget := rfl
@[simp] theorem setNa_trans (u : Obj) (k : Nat) (x : NaDet) : (setNa s u k x).trans = s.trans := rfl
@[simp] theorem setNa_xbar (u : Obj) (k : Nat) (x : NaDet) : (setNa s u k x).xbar = s.xbar := rfl
@[simp] theorem setNa_mem (u : Obj) (k : Nat) (x : NaDet) : (setNa s u k x).mem = s.mem := rfl
@[simp] theorem setNa_dram (u : Obj) (k : Nat) (x : NaDet) : (setNa s u k x).dram = s.dram := rfl
@[simp] theorem setNa_sage (u : Obj) (k : Nat) (x : NaDet) : (setNa s u k x).sage = s.sage := rfl
@[simp] theorem setNa_pair (u : Obj) (k : Nat) (x : NaDet) : (setNa s u k x).pair = s.pair := rfl
@[simp] theorem setNa_pins (u : Obj) (k : Nat) (x : NaDet) : (setNa s u k x).pins = s.pins := rfl
@[simp] theorem forceVal_setNa_same (u : Obj) (k : Nat) (x : NaDet) (p : Obj) : forceVal (setNa s u k x) p = forceVal s p := rfl

/-! ### setPort -/

@[simp] theorem setPort_pending (k : Nat) (x : TdmPort) : (setPort s k x).pending = s.pending := rfl
@[simp] theorem setPort_now (k : Nat) (x : TdmPort) : (setPort s k x).now = s.now := rfl
@[simp] theorem setPort_free (k : Nat) (x : TdmPort) : (setPort s k x).free = s.free := rfl
@[simp] theorem setPort_boot (k : Nat) (x : TdmPort) : (setPort s k x).boot = s.boot := rfl
@[simp] theorem setPort_aon (k : Nat) (x : TdmPort) : (setPort s k x).aon = s.aon := rfl
@[simp] theorem setPort_dict (k : Nat) (x : TdmPort) : (setPort s k x).dict = s.dict := rfl
@[simp] theorem setPort_ctl (k : Nat) (x : TdmPort) : (setPort s k x).ctl = s.ctl := rfl
@[simp] theorem setPort_commit (k : Nat) (x : TdmPort) : (setPort s k x).commit = s.commit := rfl
@[simp] theorem setPort_ver (k : Nat) (x : TdmPort) : (setPort s k x).ver = s.ver := rfl
@[simp] theorem setPort_mode (k : Nat) (x : TdmPort) : (setPort s k x).mode = s.mode := rfl
@[simp] theorem setPort_doms (k : Nat) (x : TdmPort) : (setPort s k x).doms = s.doms := rfl
@[simp] theorem setPort_refs (k : Nat) (x : TdmPort) : (setPort s k x).refs = s.refs := rfl
@[simp] theorem setPort_tbs (k : Nat) (x : TdmPort) : (setPort s k x).tbs = s.tbs := rfl
@[simp] theorem setPort_life (k : Nat) (x : TdmPort) : (setPort s k x).life = s.life := rfl
@[simp] theorem setPort_host (k : Nat) (x : TdmPort) : (setPort s k x).host = s.host := rfl
@[simp] theorem setPort_net (k : Nat) (x : TdmPort) : (setPort s k x).net = s.net := rfl
@[simp] theorem setPort_ctxs (k : Nat) (x : TdmPort) : (setPort s k x).ctxs = s.ctxs := rfl
@[simp] theorem setPort_na (k : Nat) (x : TdmPort) : (setPort s k x).na = s.na := rfl
@[simp] theorem setPort_audio (k : Nat) (x : TdmPort) : (setPort s k x).audio = s.audio := rfl
@[simp] theorem setPort_lanes (k : Nat) (x : TdmPort) : (setPort s k x).lanes = s.lanes := rfl
@[simp] theorem setPort_budget (k : Nat) (x : TdmPort) : (setPort s k x).budget = s.budget := rfl
@[simp] theorem setPort_trans (k : Nat) (x : TdmPort) : (setPort s k x).trans = s.trans := rfl
@[simp] theorem setPort_xbar (k : Nat) (x : TdmPort) : (setPort s k x).xbar = s.xbar := rfl
@[simp] theorem setPort_mem (k : Nat) (x : TdmPort) : (setPort s k x).mem = s.mem := rfl
@[simp] theorem setPort_dram (k : Nat) (x : TdmPort) : (setPort s k x).dram = s.dram := rfl
@[simp] theorem setPort_sage (k : Nat) (x : TdmPort) : (setPort s k x).sage = s.sage := rfl
@[simp] theorem setPort_pair (k : Nat) (x : TdmPort) : (setPort s k x).pair = s.pair := rfl
@[simp] theorem setPort_pins (k : Nat) (x : TdmPort) : (setPort s k x).pins = s.pins := rfl
@[simp] theorem forceVal_setPort_same (k : Nat) (x : TdmPort) (p : Obj) : forceVal (setPort s k x) p = forceVal s p := rfl

/-! ### setCtx -/

@[simp] theorem setCtx_pending (k : Nat) (x : Context) : (setCtx s k x).pending = s.pending := rfl
@[simp] theorem setCtx_now (k : Nat) (x : Context) : (setCtx s k x).now = s.now := rfl
@[simp] theorem setCtx_free (k : Nat) (x : Context) : (setCtx s k x).free = s.free := rfl
@[simp] theorem setCtx_boot (k : Nat) (x : Context) : (setCtx s k x).boot = s.boot := rfl
@[simp] theorem setCtx_aon (k : Nat) (x : Context) : (setCtx s k x).aon = s.aon := rfl
@[simp] theorem setCtx_dict (k : Nat) (x : Context) : (setCtx s k x).dict = s.dict := rfl
@[simp] theorem setCtx_ctl (k : Nat) (x : Context) : (setCtx s k x).ctl = s.ctl := rfl
@[simp] theorem setCtx_commit (k : Nat) (x : Context) : (setCtx s k x).commit = s.commit := rfl
@[simp] theorem setCtx_ver (k : Nat) (x : Context) : (setCtx s k x).ver = s.ver := rfl
@[simp] theorem setCtx_mode (k : Nat) (x : Context) : (setCtx s k x).mode = s.mode := rfl
@[simp] theorem setCtx_doms (k : Nat) (x : Context) : (setCtx s k x).doms = s.doms := rfl
@[simp] theorem setCtx_refs (k : Nat) (x : Context) : (setCtx s k x).refs = s.refs := rfl
@[simp] theorem setCtx_tbs (k : Nat) (x : Context) : (setCtx s k x).tbs = s.tbs := rfl
@[simp] theorem setCtx_life (k : Nat) (x : Context) : (setCtx s k x).life = s.life := rfl
@[simp] theorem setCtx_host (k : Nat) (x : Context) : (setCtx s k x).host = s.host := rfl
@[simp] theorem setCtx_net (k : Nat) (x : Context) : (setCtx s k x).net = s.net := rfl
@[simp] theorem setCtx_na (k : Nat) (x : Context) : (setCtx s k x).na = s.na := rfl
@[simp] theorem setCtx_tdm (k : Nat) (x : Context) : (setCtx s k x).tdm = s.tdm := rfl
@[simp] theorem setCtx_audio (k : Nat) (x : Context) : (setCtx s k x).audio = s.audio := rfl
@[simp] theorem setCtx_lanes (k : Nat) (x : Context) : (setCtx s k x).lanes = s.lanes := rfl
@[simp] theorem setCtx_budget (k : Nat) (x : Context) : (setCtx s k x).budget = s.budget := rfl
@[simp] theorem setCtx_trans (k : Nat) (x : Context) : (setCtx s k x).trans = s.trans := rfl
@[simp] theorem setCtx_xbar (k : Nat) (x : Context) : (setCtx s k x).xbar = s.xbar := rfl
@[simp] theorem setCtx_mem (k : Nat) (x : Context) : (setCtx s k x).mem = s.mem := rfl
@[simp] theorem setCtx_dram (k : Nat) (x : Context) : (setCtx s k x).dram = s.dram := rfl
@[simp] theorem setCtx_sage (k : Nat) (x : Context) : (setCtx s k x).sage = s.sage := rfl
@[simp] theorem setCtx_pair (k : Nat) (x : Context) : (setCtx s k x).pair = s.pair := rfl
@[simp] theorem setCtx_pins (k : Nat) (x : Context) : (setCtx s k x).pins = s.pins := rfl
@[simp] theorem forceVal_setCtx_same (k : Nat) (x : Context) (p : Obj) : forceVal (setCtx s k x) p = forceVal s p := rfl

/-! ### setNet -/

@[simp] theorem setNet_pending (k : Nat) (x : NetPort) : (setNet s k x).pending = s.pending := rfl
@[simp] theorem setNet_now (k : Nat) (x : NetPort) : (setNet s k x).now = s.now := rfl
@[simp] theorem setNet_free (k : Nat) (x : NetPort) : (setNet s k x).free = s.free := rfl
@[simp] theorem setNet_boot (k : Nat) (x : NetPort) : (setNet s k x).boot = s.boot := rfl
@[simp] theorem setNet_aon (k : Nat) (x : NetPort) : (setNet s k x).aon = s.aon := rfl
@[simp] theorem setNet_dict (k : Nat) (x : NetPort) : (setNet s k x).dict = s.dict := rfl
@[simp] theorem setNet_ctl (k : Nat) (x : NetPort) : (setNet s k x).ctl = s.ctl := rfl
@[simp] theorem setNet_commit (k : Nat) (x : NetPort) : (setNet s k x).commit = s.commit := rfl
@[simp] theorem setNet_ver (k : Nat) (x : NetPort) : (setNet s k x).ver = s.ver := rfl
@[simp] theorem setNet_mode (k : Nat) (x : NetPort) : (setNet s k x).mode = s.mode := rfl
@[simp] theorem setNet_doms (k : Nat) (x : NetPort) : (setNet s k x).doms = s.doms := rfl
@[simp] theorem setNet_refs (k : Nat) (x : NetPort) : (setNet s k x).refs = s.refs := rfl
@[simp] theorem setNet_tbs (k : Nat) (x : NetPort) : (setNet s k x).tbs = s.tbs := rfl
@[simp] theorem setNet_life (k : Nat) (x : NetPort) : (setNet s k x).life = s.life := rfl
@[simp] theorem setNet_host (k : Nat) (x : NetPort) : (setNet s k x).host = s.host := rfl
@[simp] theorem setNet_ctxs (k : Nat) (x : NetPort) : (setNet s k x).ctxs = s.ctxs := rfl
@[simp] theorem setNet_na (k : Nat) (x : NetPort) : (setNet s k x).na = s.na := rfl
@[simp] theorem setNet_tdm (k : Nat) (x : NetPort) : (setNet s k x).tdm = s.tdm := rfl
@[simp] theorem setNet_audio (k : Nat) (x : NetPort) : (setNet s k x).audio = s.audio := rfl
@[simp] theorem setNet_lanes (k : Nat) (x : NetPort) : (setNet s k x).lanes = s.lanes := rfl
@[simp] theorem setNet_budget (k : Nat) (x : NetPort) : (setNet s k x).budget = s.budget := rfl
@[simp] theorem setNet_trans (k : Nat) (x : NetPort) : (setNet s k x).trans = s.trans := rfl
@[simp] theorem setNet_xbar (k : Nat) (x : NetPort) : (setNet s k x).xbar = s.xbar := rfl
@[simp] theorem setNet_mem (k : Nat) (x : NetPort) : (setNet s k x).mem = s.mem := rfl
@[simp] theorem setNet_dram (k : Nat) (x : NetPort) : (setNet s k x).dram = s.dram := rfl
@[simp] theorem setNet_sage (k : Nat) (x : NetPort) : (setNet s k x).sage = s.sage := rfl
@[simp] theorem setNet_pair (k : Nat) (x : NetPort) : (setNet s k x).pair = s.pair := rfl
@[simp] theorem setNet_pins (k : Nat) (x : NetPort) : (setNet s k x).pins = s.pins := rfl
@[simp] theorem forceVal_setNet_same (k : Nat) (x : NetPort) (p : Obj) : forceVal (setNet s k x) p = forceVal s p := rfl

/-! ### setRing -/

@[simp] theorem setRing_pending (k : Nat) (x : Ring) : (setRing s k x).pending = s.pending := rfl
@[simp] theorem setRing_now (k : Nat) (x : Ring) : (setRing s k x).now = s.now := rfl
@[simp] theorem setRing_free (k : Nat) (x : Ring) : (setRing s k x).free = s.free := rfl
@[simp] theorem setRing_boot (k : Nat) (x : Ring) : (setRing s k x).boot = s.boot := rfl
@[simp] theorem setRing_aon (k : Nat) (x : Ring) : (setRing s k x).aon = s.aon := rfl
@[simp] theorem setRing_dict (k : Nat) (x : Ring) : (setRing s k x).dict = s.dict := rfl
@[simp] theorem setRing_ctl (k : Nat) (x : Ring) : (setRing s k x).ctl = s.ctl := rfl
@[simp] theorem setRing_commit (k : Nat) (x : Ring) : (setRing s k x).commit = s.commit := rfl
@[simp] theorem setRing_ver (k : Nat) (x : Ring) : (setRing s k x).ver = s.ver := rfl
@[simp] theorem setRing_mode (k : Nat) (x : Ring) : (setRing s k x).mode = s.mode := rfl
@[simp] theorem setRing_doms (k : Nat) (x : Ring) : (setRing s k x).doms = s.doms := rfl
@[simp] theorem setRing_refs (k : Nat) (x : Ring) : (setRing s k x).refs = s.refs := rfl
@[simp] theorem setRing_tbs (k : Nat) (x : Ring) : (setRing s k x).tbs = s.tbs := rfl
@[simp] theorem setRing_life (k : Nat) (x : Ring) : (setRing s k x).life = s.life := rfl
@[simp] theorem setRing_net (k : Nat) (x : Ring) : (setRing s k x).net = s.net := rfl
@[simp] theorem setRing_ctxs (k : Nat) (x : Ring) : (setRing s k x).ctxs = s.ctxs := rfl
@[simp] theorem setRing_na (k : Nat) (x : Ring) : (setRing s k x).na = s.na := rfl
@[simp] theorem setRing_tdm (k : Nat) (x : Ring) : (setRing s k x).tdm = s.tdm := rfl
@[simp] theorem setRing_audio (k : Nat) (x : Ring) : (setRing s k x).audio = s.audio := rfl
@[simp] theorem setRing_lanes (k : Nat) (x : Ring) : (setRing s k x).lanes = s.lanes := rfl
@[simp] theorem setRing_budget (k : Nat) (x : Ring) : (setRing s k x).budget = s.budget := rfl
@[simp] theorem setRing_trans (k : Nat) (x : Ring) : (setRing s k x).trans = s.trans := rfl
@[simp] theorem setRing_xbar (k : Nat) (x : Ring) : (setRing s k x).xbar = s.xbar := rfl
@[simp] theorem setRing_mem (k : Nat) (x : Ring) : (setRing s k x).mem = s.mem := rfl
@[simp] theorem setRing_dram (k : Nat) (x : Ring) : (setRing s k x).dram = s.dram := rfl
@[simp] theorem setRing_sage (k : Nat) (x : Ring) : (setRing s k x).sage = s.sage := rfl
@[simp] theorem setRing_pair (k : Nat) (x : Ring) : (setRing s k x).pair = s.pair := rfl
@[simp] theorem setRing_pins (k : Nat) (x : Ring) : (setRing s k x).pins = s.pins := rfl
@[simp] theorem forceVal_setRing_same (k : Nat) (x : Ring) (p : Obj) : forceVal (setRing s k x) p = forceVal s p := rfl

/-! ### setPair -/

@[simp] theorem setPair_pending (k : Nat) (x : CmdPair) : (setPair s k x).pending = s.pending := rfl
@[simp] theorem setPair_now (k : Nat) (x : CmdPair) : (setPair s k x).now = s.now := rfl
@[simp] theorem setPair_free (k : Nat) (x : CmdPair) : (setPair s k x).free = s.free := rfl
@[simp] theorem setPair_boot (k : Nat) (x : CmdPair) : (setPair s k x).boot = s.boot := rfl
@[simp] theorem setPair_aon (k : Nat) (x : CmdPair) : (setPair s k x).aon = s.aon := rfl
@[simp] theorem setPair_dict (k : Nat) (x : CmdPair) : (setPair s k x).dict = s.dict := rfl
@[simp] theorem setPair_ctl (k : Nat) (x : CmdPair) : (setPair s k x).ctl = s.ctl := rfl
@[simp] theorem setPair_commit (k : Nat) (x : CmdPair) : (setPair s k x).commit = s.commit := rfl
@[simp] theorem setPair_ver (k : Nat) (x : CmdPair) : (setPair s k x).ver = s.ver := rfl
@[simp] theorem setPair_mode (k : Nat) (x : CmdPair) : (setPair s k x).mode = s.mode := rfl
@[simp] theorem setPair_doms (k : Nat) (x : CmdPair) : (setPair s k x).doms = s.doms := rfl
@[simp] theorem setPair_refs (k : Nat) (x : CmdPair) : (setPair s k x).refs = s.refs := rfl
@[simp] theorem setPair_tbs (k : Nat) (x : CmdPair) : (setPair s k x).tbs = s.tbs := rfl
@[simp] theorem setPair_life (k : Nat) (x : CmdPair) : (setPair s k x).life = s.life := rfl
@[simp] theorem setPair_net (k : Nat) (x : CmdPair) : (setPair s k x).net = s.net := rfl
@[simp] theorem setPair_ctxs (k : Nat) (x : CmdPair) : (setPair s k x).ctxs = s.ctxs := rfl
@[simp] theorem setPair_na (k : Nat) (x : CmdPair) : (setPair s k x).na = s.na := rfl
@[simp] theorem setPair_tdm (k : Nat) (x : CmdPair) : (setPair s k x).tdm = s.tdm := rfl
@[simp] theorem setPair_audio (k : Nat) (x : CmdPair) : (setPair s k x).audio = s.audio := rfl
@[simp] theorem setPair_lanes (k : Nat) (x : CmdPair) : (setPair s k x).lanes = s.lanes := rfl
@[simp] theorem setPair_budget (k : Nat) (x : CmdPair) : (setPair s k x).budget = s.budget := rfl
@[simp] theorem setPair_trans (k : Nat) (x : CmdPair) : (setPair s k x).trans = s.trans := rfl
@[simp] theorem setPair_xbar (k : Nat) (x : CmdPair) : (setPair s k x).xbar = s.xbar := rfl
@[simp] theorem setPair_mem (k : Nat) (x : CmdPair) : (setPair s k x).mem = s.mem := rfl
@[simp] theorem setPair_dram (k : Nat) (x : CmdPair) : (setPair s k x).dram = s.dram := rfl
@[simp] theorem setPair_sage (k : Nat) (x : CmdPair) : (setPair s k x).sage = s.sage := rfl
@[simp] theorem setPair_pair (k : Nat) (x : CmdPair) : (setPair s k x).pair = s.pair := rfl
@[simp] theorem setPair_pins (k : Nat) (x : CmdPair) : (setPair s k x).pins = s.pins := rfl
@[simp] theorem forceVal_setPair_same (k : Nat) (x : CmdPair) (p : Obj) : forceVal (setPair s k x) p = forceVal s p := rfl

/-! ### hostWrite -/

@[simp] theorem hostWrite_pending (a : Nat) (b : Octets) : (hostWrite s a b).pending = s.pending := rfl
@[simp] theorem hostWrite_now (a : Nat) (b : Octets) : (hostWrite s a b).now = s.now := rfl
@[simp] theorem hostWrite_free (a : Nat) (b : Octets) : (hostWrite s a b).free = s.free := rfl
@[simp] theorem hostWrite_boot (a : Nat) (b : Octets) : (hostWrite s a b).boot = s.boot := rfl
@[simp] theorem hostWrite_aon (a : Nat) (b : Octets) : (hostWrite s a b).aon = s.aon := rfl
@[simp] theorem hostWrite_dict (a : Nat) (b : Octets) : (hostWrite s a b).dict = s.dict := rfl
@[simp] theorem hostWrite_ctl (a : Nat) (b : Octets) : (hostWrite s a b).ctl = s.ctl := rfl
@[simp] theorem hostWrite_commit (a : Nat) (b : Octets) : (hostWrite s a b).commit = s.commit := rfl
@[simp] theorem hostWrite_ver (a : Nat) (b : Octets) : (hostWrite s a b).ver = s.ver := rfl
@[simp] theorem hostWrite_mode (a : Nat) (b : Octets) : (hostWrite s a b).mode = s.mode := rfl
@[simp] theorem hostWrite_doms (a : Nat) (b : Octets) : (hostWrite s a b).doms = s.doms := rfl
@[simp] theorem hostWrite_refs (a : Nat) (b : Octets) : (hostWrite s a b).refs = s.refs := rfl
@[simp] theorem hostWrite_tbs (a : Nat) (b : Octets) : (hostWrite s a b).tbs = s.tbs := rfl
@[simp] theorem hostWrite_life (a : Nat) (b : Octets) : (hostWrite s a b).life = s.life := rfl
@[simp] theorem hostWrite_net (a : Nat) (b : Octets) : (hostWrite s a b).net = s.net := rfl
@[simp] theorem hostWrite_ctxs (a : Nat) (b : Octets) : (hostWrite s a b).ctxs = s.ctxs := rfl
@[simp] theorem hostWrite_na (a : Nat) (b : Octets) : (hostWrite s a b).na = s.na := rfl
@[simp] theorem hostWrite_tdm (a : Nat) (b : Octets) : (hostWrite s a b).tdm = s.tdm := rfl
@[simp] theorem hostWrite_audio (a : Nat) (b : Octets) : (hostWrite s a b).audio = s.audio := rfl
@[simp] theorem hostWrite_lanes (a : Nat) (b : Octets) : (hostWrite s a b).lanes = s.lanes := rfl
@[simp] theorem hostWrite_budget (a : Nat) (b : Octets) : (hostWrite s a b).budget = s.budget := rfl
@[simp] theorem hostWrite_trans (a : Nat) (b : Octets) : (hostWrite s a b).trans = s.trans := rfl
@[simp] theorem hostWrite_xbar (a : Nat) (b : Octets) : (hostWrite s a b).xbar = s.xbar := rfl
@[simp] theorem hostWrite_mem (a : Nat) (b : Octets) : (hostWrite s a b).mem = s.mem := rfl
@[simp] theorem hostWrite_dram (a : Nat) (b : Octets) : (hostWrite s a b).dram = s.dram := rfl
@[simp] theorem hostWrite_sage (a : Nat) (b : Octets) : (hostWrite s a b).sage = s.sage := rfl
@[simp] theorem hostWrite_pair (a : Nat) (b : Octets) : (hostWrite s a b).pair = s.pair := rfl
@[simp] theorem hostWrite_pins (a : Nat) (b : Octets) : (hostWrite s a b).pins = s.pins := rfl
@[simp] theorem forceVal_hostWrite_same (a : Nat) (b : Octets) (p : Obj) : forceVal (hostWrite s a b) p = forceVal s p := rfl

/-! ### hostStores -/

@[simp] theorem hostStores_pending (l : List Host.Cell) : (hostStores s l).pending = s.pending := rfl
@[simp] theorem hostStores_now (l : List Host.Cell) : (hostStores s l).now = s.now := rfl
@[simp] theorem hostStores_free (l : List Host.Cell) : (hostStores s l).free = s.free := rfl
@[simp] theorem hostStores_boot (l : List Host.Cell) : (hostStores s l).boot = s.boot := rfl
@[simp] theorem hostStores_aon (l : List Host.Cell) : (hostStores s l).aon = s.aon := rfl
@[simp] theorem hostStores_dict (l : List Host.Cell) : (hostStores s l).dict = s.dict := rfl
@[simp] theorem hostStores_ctl (l : List Host.Cell) : (hostStores s l).ctl = s.ctl := rfl
@[simp] theorem hostStores_commit (l : List Host.Cell) : (hostStores s l).commit = s.commit := rfl
@[simp] theorem hostStores_ver (l : List Host.Cell) : (hostStores s l).ver = s.ver := rfl
@[simp] theorem hostStores_mode (l : List Host.Cell) : (hostStores s l).mode = s.mode := rfl
@[simp] theorem hostStores_doms (l : List Host.Cell) : (hostStores s l).doms = s.doms := rfl
@[simp] theorem hostStores_refs (l : List Host.Cell) : (hostStores s l).refs = s.refs := rfl
@[simp] theorem hostStores_tbs (l : List Host.Cell) : (hostStores s l).tbs = s.tbs := rfl
@[simp] theorem hostStores_life (l : List Host.Cell) : (hostStores s l).life = s.life := rfl
@[simp] theorem hostStores_net (l : List Host.Cell) : (hostStores s l).net = s.net := rfl
@[simp] theorem hostStores_ctxs (l : List Host.Cell) : (hostStores s l).ctxs = s.ctxs := rfl
@[simp] theorem hostStores_na (l : List Host.Cell) : (hostStores s l).na = s.na := rfl
@[simp] theorem hostStores_tdm (l : List Host.Cell) : (hostStores s l).tdm = s.tdm := rfl
@[simp] theorem hostStores_audio (l : List Host.Cell) : (hostStores s l).audio = s.audio := rfl
@[simp] theorem hostStores_lanes (l : List Host.Cell) : (hostStores s l).lanes = s.lanes := rfl
@[simp] theorem hostStores_budget (l : List Host.Cell) : (hostStores s l).budget = s.budget := rfl
@[simp] theorem hostStores_trans (l : List Host.Cell) : (hostStores s l).trans = s.trans := rfl
@[simp] theorem hostStores_xbar (l : List Host.Cell) : (hostStores s l).xbar = s.xbar := rfl
@[simp] theorem hostStores_mem (l : List Host.Cell) : (hostStores s l).mem = s.mem := rfl
@[simp] theorem hostStores_dram (l : List Host.Cell) : (hostStores s l).dram = s.dram := rfl
@[simp] theorem hostStores_sage (l : List Host.Cell) : (hostStores s l).sage = s.sage := rfl
@[simp] theorem hostStores_pair (l : List Host.Cell) : (hostStores s l).pair = s.pair := rfl
@[simp] theorem hostStores_pins (l : List Host.Cell) : (hostStores s l).pins = s.pins := rfl
@[simp] theorem forceVal_hostStores_same (l : List Host.Cell) (p : Obj) : forceVal (hostStores s l) p = forceVal s p := rfl

/-! ### setPairRt -/

@[simp] theorem setPairRt_pending (x : Pair) : (setPairRt s x).pending = s.pending := rfl
@[simp] theorem setPairRt_now (x : Pair) : (setPairRt s x).now = s.now := rfl
@[simp] theorem setPairRt_free (x : Pair) : (setPairRt s x).free = s.free := rfl
@[simp] theorem setPairRt_boot (x : Pair) : (setPairRt s x).boot = s.boot := rfl
@[simp] theorem setPairRt_aon (x : Pair) : (setPairRt s x).aon = s.aon := rfl
@[simp] theorem setPairRt_dict (x : Pair) : (setPairRt s x).dict = s.dict := rfl
@[simp] theorem setPairRt_ctl (x : Pair) : (setPairRt s x).ctl = s.ctl := rfl
@[simp] theorem setPairRt_commit (x : Pair) : (setPairRt s x).commit = s.commit := rfl
@[simp] theorem setPairRt_ver (x : Pair) : (setPairRt s x).ver = s.ver := rfl
@[simp] theorem setPairRt_mode (x : Pair) : (setPairRt s x).mode = s.mode := rfl
@[simp] theorem setPairRt_doms (x : Pair) : (setPairRt s x).doms = s.doms := rfl
@[simp] theorem setPairRt_refs (x : Pair) : (setPairRt s x).refs = s.refs := rfl
@[simp] theorem setPairRt_tbs (x : Pair) : (setPairRt s x).tbs = s.tbs := rfl
@[simp] theorem setPairRt_life (x : Pair) : (setPairRt s x).life = s.life := rfl
@[simp] theorem setPairRt_host (x : Pair) : (setPairRt s x).host = s.host := rfl
@[simp] theorem setPairRt_net (x : Pair) : (setPairRt s x).net = s.net := rfl
@[simp] theorem setPairRt_ctxs (x : Pair) : (setPairRt s x).ctxs = s.ctxs := rfl
@[simp] theorem setPairRt_na (x : Pair) : (setPairRt s x).na = s.na := rfl
@[simp] theorem setPairRt_tdm (x : Pair) : (setPairRt s x).tdm = s.tdm := rfl
@[simp] theorem setPairRt_audio (x : Pair) : (setPairRt s x).audio = s.audio := rfl
@[simp] theorem setPairRt_lanes (x : Pair) : (setPairRt s x).lanes = s.lanes := rfl
@[simp] theorem setPairRt_budget (x : Pair) : (setPairRt s x).budget = s.budget := rfl
@[simp] theorem setPairRt_trans (x : Pair) : (setPairRt s x).trans = s.trans := rfl
@[simp] theorem setPairRt_xbar (x : Pair) : (setPairRt s x).xbar = s.xbar := rfl
@[simp] theorem setPairRt_mem (x : Pair) : (setPairRt s x).mem = s.mem := rfl
@[simp] theorem setPairRt_dram (x : Pair) : (setPairRt s x).dram = s.dram := rfl
@[simp] theorem setPairRt_sage (x : Pair) : (setPairRt s x).sage = s.sage := rfl
@[simp] theorem setPairRt_pins (x : Pair) : (setPairRt s x).pins = s.pins := rfl
@[simp] theorem forceVal_setPairRt_same (x : Pair) (p : Obj) : forceVal (setPairRt s x) p = forceVal s p := rfl

/-! ### atCycle -/

@[simp] theorem atCycle_pending (c : Cycle) : (atCycle s c).pending = s.pending := rfl
@[simp] theorem atCycle_free (c : Cycle) : (atCycle s c).free = s.free := rfl
@[simp] theorem atCycle_boot (c : Cycle) : (atCycle s c).boot = s.boot := rfl
@[simp] theorem atCycle_aon (c : Cycle) : (atCycle s c).aon = s.aon := rfl
@[simp] theorem atCycle_dict (c : Cycle) : (atCycle s c).dict = s.dict := rfl
@[simp] theorem atCycle_ctl (c : Cycle) : (atCycle s c).ctl = s.ctl := rfl
@[simp] theorem atCycle_commit (c : Cycle) : (atCycle s c).commit = s.commit := rfl
@[simp] theorem atCycle_ver (c : Cycle) : (atCycle s c).ver = s.ver := rfl
@[simp] theorem atCycle_mode (c : Cycle) : (atCycle s c).mode = s.mode := rfl
@[simp] theorem atCycle_doms (c : Cycle) : (atCycle s c).doms = s.doms := rfl
@[simp] theorem atCycle_refs (c : Cycle) : (atCycle s c).refs = s.refs := rfl
@[simp] theorem atCycle_tbs (c : Cycle) : (atCycle s c).tbs = s.tbs := rfl
@[simp] theorem atCycle_life (c : Cycle) : (atCycle s c).life = s.life := rfl
@[simp] theorem atCycle_host (c : Cycle) : (atCycle s c).host = s.host := rfl
@[simp] theorem atCycle_net (c : Cycle) : (atCycle s c).net = s.net := rfl
@[simp] theorem atCycle_ctxs (c : Cycle) : (atCycle s c).ctxs = s.ctxs := rfl
@[simp] theorem atCycle_na (c : Cycle) : (atCycle s c).na = s.na := rfl
@[simp] theorem atCycle_tdm (c : Cycle) : (atCycle s c).tdm = s.tdm := rfl
@[simp] theorem atCycle_audio (c : Cycle) : (atCycle s c).audio = s.audio := rfl
@[simp] theorem atCycle_lanes (c : Cycle) : (atCycle s c).lanes = s.lanes := rfl
@[simp] theorem atCycle_budget (c : Cycle) : (atCycle s c).budget = s.budget := rfl
@[simp] theorem atCycle_trans (c : Cycle) : (atCycle s c).trans = s.trans := rfl
@[simp] theorem atCycle_xbar (c : Cycle) : (atCycle s c).xbar = s.xbar := rfl
@[simp] theorem atCycle_mem (c : Cycle) : (atCycle s c).mem = s.mem := rfl
@[simp] theorem atCycle_dram (c : Cycle) : (atCycle s c).dram = s.dram := rfl
@[simp] theorem atCycle_sage (c : Cycle) : (atCycle s c).sage = s.sage := rfl
@[simp] theorem atCycle_pair (c : Cycle) : (atCycle s c).pair = s.pair := rfl
@[simp] theorem atCycle_pins (c : Cycle) : (atCycle s c).pins = s.pins := rfl
@[simp] theorem forceVal_atCycle_same (c : Cycle) (p : Obj) : forceVal (atCycle s c) p = forceVal s p := rfl

/-! ### What is read back -/

@[simp] theorem dom_setDom_back (k : Nat) (x : Domain) : dom (setDom s k x) k = x := tget_tput_self _ _ _ _
theorem dom_setDom_other (k : Nat) (x : Domain) (j : Nat) (h : j ≠ k) : dom (setDom s k x) j = dom s j := tget_tput_other _ _ _ _ h
@[simp] theorem budgetRt_setBudget_back (k : Nat) (x : BudgetRt) : budgetRt (setBudget s k x) k = x := tget_tput_self _ _ _ _
theorem budgetRt_setBudget_other (k : Nat) (x : BudgetRt) (j : Nat) (h : j ≠ k) : budgetRt (setBudget s k x) j = budgetRt s j := tget_tput_other _ _ _ _ h
@[simp] theorem dramRt_setDram_back (k : Nat) (x : Dram) : dramRt (setDram s k x) k = x := tget_tput_self _ _ _ _
theorem dramRt_setDram_other (k : Nat) (x : Dram) (j : Nat) (h : j ≠ k) : dramRt (setDram s k x) j = dramRt s j := tget_tput_other _ _ _ _ h
@[simp] theorem tb_setTb_back (k : Nat) (x : TimeBase) : tb (setTb s k x) k = x := tget_tput_self _ _ _ _
theorem tb_setTb_other (k : Nat) (x : TimeBase) (j : Nat) (h : j ≠ k) : tb (setTb s k x) j = tb s j := tget_tput_other _ _ _ _ h
@[simp] theorem refIn_setRef_back (k : Nat) (x : RefIn) : refIn (setRef s k x) k = x := tget_tput_self _ _ _ _
theorem refIn_setRef_other (k : Nat) (x : RefIn) (j : Nat) (h : j ≠ k) : refIn (setRef s k x) j = refIn s j := tget_tput_other _ _ _ _ h
@[simp] theorem arb_setArb_back (k : Nat) (x : Arbiter) : arb (setArb s k x) k = x := tget_tput_self _ _ _ _
theorem arb_setArb_other (k : Nat) (x : Arbiter) (j : Nat) (h : j ≠ k) : arb (setArb s k x) j = arb s j := tget_tput_other _ _ _ _ h
@[simp] theorem outRt_putOut_back (k : Obj) (x : OutRt) : outRt (putOut s k x) k = x := tget_tput_self _ _ _ _
theorem outRt_putOut_other (k : Obj) (x : OutRt) (j : Nat) (h : j ≠ k) : outRt (putOut s k x) j = outRt s j := tget_tput_other _ _ _ _ h
@[simp] theorem unitRt_putUnit_back (k : Obj) (x : UnitRt) : unitRt (putUnit s k x) k = x := tget_tput_self _ _ _ _
theorem unitRt_putUnit_other (k : Obj) (x : UnitRt) (j : Nat) (h : j ≠ k) : unitRt (putUnit s k x) j = unitRt s j := tget_tput_other _ _ _ _ h
@[simp] theorem rampOf_putRamp_back (k : Obj) (x : Ramp) : rampOf (putRamp s k x) k = x := tget_tput_self _ _ _ _
theorem rampOf_putRamp_other (k : Obj) (x : Ramp) (j : Nat) (h : j ≠ k) : rampOf (putRamp s k x) j = rampOf s j := tget_tput_other _ _ _ _ h
@[simp] theorem bridgeRt_setBridge_back (k : Obj) (x : BridgeRt) : bridgeRt (setBridge s k x) k = x := tget_tput_self _ _ _ _
theorem bridgeRt_setBridge_other (k : Obj) (x : BridgeRt) (j : Nat) (h : j ≠ k) : bridgeRt (setBridge s k x) j = bridgeRt s j := tget_tput_other _ _ _ _ h
@[simp] theorem outFade_setOutFade_back (k : Nat) (x : OutFade) : outFade (setOutFade s k x) k = x := tget_tput_self _ _ _ _
theorem outFade_setOutFade_other (k : Nat) (x : OutFade) (j : Nat) (h : j ≠ k) : outFade (setOutFade s k x) j = outFade s j := tget_tput_other _ _ _ _ h
@[simp] theorem outletOf_setOutlet_back (k : Obj) (x : OutletRt) : outletOf (setOutlet s k x) k = x := tget_tput_self _ _ _ _
theorem outletOf_setOutlet_other (k : Obj) (x : OutletRt) (j : Nat) (h : j ≠ k) : outletOf (setOutlet s k x) j = outletOf s j := tget_tput_other _ _ _ _ h
@[simp] theorem tdmPort_setPort_back (k : Nat) (x : TdmPort) : tdmPort (setPort s k x) k = x := tget_tput_self _ _ _ _
theorem tdmPort_setPort_other (k : Nat) (x : TdmPort) (j : Nat) (h : j ≠ k) : tdmPort (setPort s k x) j = tdmPort s j := tget_tput_other _ _ _ _ h
@[simp] theorem netPort_setNet_back (k : Nat) (x : NetPort) : netPort (setNet s k x) k = x := tget_tput_self _ _ _ _
theorem netPort_setNet_other (k : Nat) (x : NetPort) (j : Nat) (h : j ≠ k) : netPort (setNet s k x) j = netPort s j := tget_tput_other _ _ _ _ h
@[simp] theorem ringRt_setRing_back (k : Nat) (x : Ring) : ringRt (setRing s k x) k = x := tget_tput_self _ _ _ _
theorem ringRt_setRing_other (k : Nat) (x : Ring) (j : Nat) (h : j ≠ k) : ringRt (setRing s k x) j = ringRt s j := tget_tput_other _ _ _ _ h
@[simp] theorem cmdPair_setPair_back (k : Nat) (x : CmdPair) : cmdPair (setPair s k x) k = x := tget_tput_self _ _ _ _
theorem cmdPair_setPair_other (k : Nat) (x : CmdPair) (j : Nat) (h : j ≠ k) : cmdPair (setPair s k x) j = cmdPair s j := tget_tput_other _ _ _ _ h
@[simp] theorem ctxRt_setCtx_back (k : Nat) (x : Context) : ctxRt (setCtx s k x) k = x := tget_tput_self _ _ _ _
theorem ctxRt_setCtx_other (k : Nat) (x : Context) (j : Nat) (h : j ≠ k) : ctxRt (setCtx s k x) j = ctxRt s j := tget_tput_other _ _ _ _ h

end Sys2Proof.Machine
end

