-- ==== Sys2Proof/Tests/Slice0.lean ====
section
/-!
SUPPORT. Tests/Slice0.lean: tests of the model on fixed small states: the operand checks, the worked examples of the spec, and for each
statement with hypotheses a state that meets them.
-/
-- One declaration at a time and no linter: the package is compiled as one text under a memory limit.
set_option linter.all false
set_option Elab.async false
namespace Sys2Proof.Tests
open Machine Claims

/-- A state with members set. -/
def put (l : List (Obj × Nat)) (s : State) : State := l.foldl (fun t e => setN t e.1 e.2) s

/-- Some property of the state that a command leaves. -/
def gives (i : Instr) (s : State) (p : State → Bool) : Bool :=
  match exec i s with
  | .next t => p t
  | _ => false

/-- A step's answer is a next state. -/
def goes (o : Host.Outcome State Fault Refusal) : Bool :=
  match o with
  | .next _ => true
  | _ => false

/-! ### Operand checks -/

def okTv : TVal := { code := 1, size := 1, val := .num 0 }
/-- A type code is one byte. -/
def badTv : TVal := { code := 256, size := 1, val := .num 0 }
def okReq : CommitReq := { when := 0, base := 0, instant := 0, label := 0 }
def okAnn : Announce :=
  { domain := 0, sender := 0, portNo := 0, gm := 0, prio1 := 0, cclass := 0, accuracy := 0, variance := 0, prio2 := 0, steps := 0, interval := 0, timeout := 0 }
def okMsg : PtpMsg :=
  { domain := 0, sender := 0, portNo := 0, seq := 0, stamp := 0, correction := 0, twoStep := false, logDelay := 0, interval := 0, reqClock := 0,
    reqPort := 0, arrival := 0 }
def okPkt : RtpPacket := { source := 0, dest := 0, udpPort := 0, version := 2, ptype := 0, ssrc := 0, seq := 0, stamp := 0, payload := [] }
def okEdge : MissedEdge := { input := 0, again := false }
/-- A MAC of 1 by 1 over an empty accumulator. -/
def okCheck : ResidueCheck :=
  { lane := 0, program := none, cycle := 0, op := .mac, kind := .sc, a := 1, b := 1, product := 1, before := 0, after := 1, saturated := false }
theorem test_values_out_of_form : tvalWf badTv = false ∧ tvalWf { okTv with val := .num (2 ^ 64) } = false
    ∧ tvalWf { okTv with val := .blob [256] } = false ∧ tvalWf okTv = true := by decide
/-- Each term breaks one check of wellFormed, and is refused by it; the terms are those of `test_formed` with one operand changed. -/
theorem test_illformed_1 : ([.resetNRelease 4 0 [], .resetNRelease 0 2 [], .frameTick 4 0 false, .shadowCopyEnd 4, .phaseWindowStart 4 .ingest [] [],
    .phaseCutoff 4 .ingest [], .budgetCounterExhausted 256, .laneBudgetStop 16 0 .ingest, .laneBudgetStop 0 16 .ingest, .bridgeRatioSettled 256 0,
    .domainFreeRunTimeout 4, .dpllLocked 4, .dpllSlewDone 4, .referenceEdgeMissing { okEdge with input := 8 }, .referenceGlitch 8,
    .glitchHoldEnd 8, .rateGateEnd 8 0, .revert 32 0 0 okTv, .revert 0 65536 0 okTv, .revert 0 0 65536 okTv,
    .revert 0 0 0 badTv, .realign 32 0 0 okTv, .realign 0 65536 0 okTv, .realign 0 0 65536 okTv, .realign 0 0 0 badTv,
    .ptpAnnounceReceived 65536 okAnn 0, .ptpSyncReceived 65536 okMsg 0, .ptpFollowUpReceived 65536 okMsg, .ptpDelayRespReceived 65536 okMsg, .delayReqSend 4 0] : List Instr).all (fun i => !(wellFormed i)) = true := by decide
theorem test_illformed_2 : ([.ptpMasterLost 4, .holdLimitExpired 4, .stepAccept 32 0 0 okTv, .stepAccept 0 65536 0 okTv, .stepAccept 0 0 65536 okTv,
    .stepAccept 0 0 0 badTv, .stepReject 32 0 0 okTv, .stepReject 0 65536 0 okTv, .stepReject 0 0 65536 okTv, .stepReject 0 0 0 badTv,
    .rtpPacketReceived 65536 okPkt 0, .legLost 256 0, .legLost 0 2, .rateFitUpdate 256 0, .igmpQueryReceived 65536 0 0,
    .arpRequest 65536 0 0, .icmpEchoRequest 65536 0 0 [], .icmpEchoRequest 0 0 0 [256], .networkLinkChange 65536 false, .rxOpen 32 0 0 okTv,
    .rxOpen 0 65536 0 okTv, .rxOpen 0 0 65536 okTv, .rxOpen 0 0 0 badTv, .txOpen 32 0 0 okTv, .txOpen 0 65536 0 okTv,
    .txOpen 0 0 65536 okTv, .txOpen 0 0 0 badTv, .nonaudioCleared 0 32, .bankSupplyFault 4, .submissionDoorbell 16 0 []] : List Instr).all (fun i => !(wellFormed i)) = true := by decide
theorem test_illformed_3 : ([.completionDoorbell 15 0, .completionDoorbell 32 0, .recordDoorbell 31 0, .recordDoorbell 48 0, .playbackDoorbell 47 0 [],
    .playbackDoorbell 64 0 [], .submissionFetch 16, .commandPairEnable 16, .commandPairDisable 16, .ringDmaError 31,
    .ringDmaError 64, .restart 32 0 0 okTv, .restart 0 65536 0 okTv, .restart 0 0 65536 okTv, .restart 0 0 0 badTv,
    .otpKeyProgram 16, .otpProgramDone 16, .otpKeyRevoke 16, .odpDatagramReceived 0 65536 [], .odpDatagramReceived 0 0 [256],
    .odpSessionIdleTimeout 32, .odpReassemblyTimeout 32 0, .odpReassemblyTimeout 0 65536, .hello 0 65536 0 0 0 [], .hello 0 0 4 0 0 [],
    .hello 0 0 0 2 0 [], .hello 0 0 0 0 16 [], .hello 0 0 0 0 0 [256], .auth 32 0 0 0 [], .auth 0 0 65536 0 []] : List Instr).all (fun i => !(wellFormed i)) = true := by decide
theorem test_illformed_4 : ([.auth 0 0 0 65536 [], .auth 0 0 0 0 [256], .authPendingTimeout 32, .read 32 0 0, .read 0 65536 0,
    .read 0 0 (2 ^ 32), .write 32 0 0 okTv, .write 0 65536 0 okTv, .write 0 0 (2 ^ 32) okTv, .write 0 0 0 badTv,
    .readBlock 32 0 0 1 false, .readBlock 0 65536 0 1 false, .readBlock 0 0 (2 ^ 32) 1 false, .readBlock 0 0 0 0 false, .readBlock 0 0 0 4097 false,
    .writeBlock 32 0 0 false [], .writeBlock 0 65536 0 false [], .writeBlock 0 0 (2 ^ 32) false [], .writeBlock 0 0 0 false [badTv], .txnBegin 32 0,
    .txnBegin 0 65536, .txnEnd 32 0, .txnEnd 0 65536, .txnExpired 32, .lockAcquired 32,
    .lockTimeout 32, .commit 32 0 okReq, .commit 0 65536 okReq, .rollback 32 0 okReq, .rollback 0 65536 okReq] : List Instr).all (fun i => !(wellFormed i)) = true := by decide
theorem test_illformed_5 : ([.subscribe 32 0 (.event []), .subscribe 0 65536 (.event []), .unsubscribe 32 0 0, .unsubscribe 0 65536 0, .unsubscribe 0 0 64,
    .close 32 0, .close 0 65536, .nop 32 0, .nop 0 65536, .closeSession 32 0 0 okTv,
    .closeSession 0 65536 0 okTv, .closeSession 0 0 65536 okTv, .closeSession 0 0 0 badTv, .subscriptionIntervalEnd 32 0 0, .subscriptionIntervalEnd 0 64 0,
    .subscriptionIntervalEnd 0 0 (2 ^ 32), .notifySend 32, .cancel 32 0 0 okTv, .cancel 0 65536 0 okTv, .cancel 0 0 65536 okTv,
    .cancel 0 0 0 badTv, .discard 32 0 0 okTv, .discard 0 65536 0 okTv, .discard 0 0 65536 okTv, .discard 0 0 0 badTv,
    .renumber 32 0 0 okTv, .renumber 0 65536 0 okTv, .renumber 0 0 65536 okTv, .renumber 0 0 0 badTv, .sessionStagingWrite 32 0 0 okTv] : List Instr).all (fun i => !(wellFormed i)) = true := by decide
theorem test_illformed_6 : ([.sessionStagingWrite 0 65536 0 okTv, .sessionStagingWrite 0 0 65536 okTv, .sessionStagingWrite 0 0 0 badTv, .factory 32 0 0 okTv, .factory 0 65536 0 okTv,
    .factory 0 0 65536 okTv, .factory 0 0 0 badTv, .nodeLiveWrite 32 0 0 0 okTv, .nodeLiveWrite 0 65536 0 0 okTv, .nodeLiveWrite 0 0 0x180 0 okTv,
    .nodeLiveWrite 0 0 0 1024 okTv, .nodeLiveWrite 0 0 0 0 badTv, .imageWrite 32 0 0 okTv, .imageWrite 0 65536 0 okTv, .imageWrite 0 0 65536 okTv,
    .imageWrite 0 0 0 badTv, .placementListWrite 32 0 0 false okTv, .placementListWrite 0 65536 0 false okTv, .placementListWrite 0 0 65536 false okTv, .placementListWrite 0 0 0 false badTv,
    .patchWrite 32 0 0 okTv, .patchWrite 0 65536 0 okTv, .patchWrite 0 0 (2 ^ 32) okTv, .patchWrite 0 0 0 badTv, .clear 32 0 0 okTv,
    .clear 0 65536 0 okTv, .clear 0 0 (2 ^ 32) okTv, .clear 0 0 0 badTv, .reqMode 32 0 0 okTv, .reqMode 0 65536 0 okTv] : List Instr).all (fun i => !(wellFormed i)) = true := by decide
theorem test_illformed_7 : ([.reqMode 0 0 65536 okTv, .reqMode 0 0 0 badTv, .rbGo 32 0 0 okTv, .rbGo 0 65536 0 okTv, .rbGo 0 0 65536 okTv,
    .rbGo 0 0 0 badTv, .coreCrossfadeEnd (2 ^ 32), .inputCrossfadeEnd 1024, .nodeRampEnd 0x180 0, .nodeRampEnd 0 1024,
    .firCrossfadeEnd 384, .limOnCrossfadeEnd 384, .gateHoldExpired 2048, .programStart 256 0, .nopBundle 256,
    .halt 256, .lset 256 0 1, .lset 0 2 1, .lset 0 0 0, .lset 0 0 513,
    .loop 256 0 1, .loop 0 2 1, .loop 0 0 0, .loop 0 0 513, .bld 256 0 1,
    .bld 0 2 1, .bld 0 0 0, .bld 0 0 513, .mac 256 .sc 0 0 0, .mac 0 .sc 4 0 0] : List Instr).all (fun i => !(wellFormed i)) = true := by decide
theorem test_illformed_8 : ([.mac 0 .sc 0 16 0, .mac 0 .sc 0 0 16, .msu 256 .sc 0 0 0, .msu 0 .sc 4 0 0, .msu 0 .sc 0 16 0,
    .msu 0 .sc 0 0 16, .mpy 256 .sc 0 0 0, .mpy 0 .sc 4 0 0, .mpy 0 .sc 0 16 0, .mpy 0 .sc 0 0 16,
    .ext 256 0 0 .q823 .rn 0, .ext 0 16 0 .q823 .rn 0, .ext 0 0 4 .q823 .rn 0, .ext 0 0 0 .q823 .rn (-9), .ext 0 0 0 .q823 .rn 8,
    .acc 256 0 0 .q823, .acc 0 4 0 .q823, .acc 0 0 16 .q823, .adda 256 0 0, .adda 0 4 0,
    .adda 0 0 4, .suba 256 0 0, .suba 0 4 0, .suba 0 0 4, .sha 256 0 0,
    .sha 0 4 0, .sha 0 0 (-33), .sha 0 0 32, .clr 256 0, .clr 0 4] : List Instr).all (fun i => !(wellFormed i)) = true := by decide
theorem test_illformed_9 : ([.add 256 0 0 0, .add 0 16 0 0, .add 0 0 16 0, .add 0 0 0 16, .sub 256 0 0 0,
    .sub 0 16 0 0, .sub 0 0 16 0, .sub 0 0 0 16, .asr 256 0 0 0, .asr 0 16 0 0,
    .asr 0 0 16 0, .asr 0 0 0 32, .asl 256 0 0 0, .asl 0 16 0 0, .asl 0 0 16 0,
    .asl 0 0 0 32, .abs 256 0 0, .abs 0 16 0, .abs 0 0 16, .neg 256 0 0,
    .neg 0 16 0, .neg 0 0 16, .mov 256 0 0, .mov 0 16 0, .mov 0 0 16,
    .mvi 256 0 0, .mvi 0 16 0, .mvi 0 0 (-1025), .mvi 0 0 1024, .mvs 256 0 0] : List Instr).all (fun i => !(wellFormed i)) = true := by decide
theorem test_illformed_10 : ([.mvs 0 28 0, .mvs 0 24 0, .mvs 0 25 0, .mvs 0 0 16, .mvr 256 0 0,
    .mvr 0 16 0, .mvr 0 0 29, .max 256 0, .max 0 16, .min 256 0,
    .min 0 16, .mxclr 256 0, .mxclr 0 2, .and 256 0 0 0, .and 0 16 0 0,
    .and 0 0 16 0, .and 0 0 0 16, .or 256 0 0 0, .or 0 16 0 0, .or 0 0 16 0,
    .or 0 0 0 16, .xor 256 0 0 0, .xor 0 16 0 0, .xor 0 0 16 0, .xor 0 0 0 16,
    .ld 256 .ld0 0 0 .none, .ld 0 .ld0 16 0 .none, .ld 0 .ld0 0 8 .none, .st 256 0 0 .none, .st 0 16 0 .none] : List Instr).all (fun i => !(wellFormed i)) = true := by decide
theorem test_illformed_11 : ([.st 0 0 8 .none, .xmod 256 .ld0 0 .none, .xmod 0 .ld0 8 .none, .crossbarRequest 0 0 0 0 4 none, .crossbarRequest 0 0 0 0 0 (some [257]),
    .chunkEndGrant 48, .emergencyRequest 48 0 0 0 0 none, .emergencyRequest 0 0 0 0 0 (some [257]), .priorityPreemption 48 0 0, .flagAliasWrite 0 false 0 [257],
    .dramRefresh 2, .dramSingleBitError 2 0 0, .dramUncorrectable 2 0 0, .dramWriteBack 2, .dramParityAlert 2,
    .dramAlertRelease 2 none, .commandBusTestEnd 2 false, .dramRowTestEnd 2 false, .setpoint 32 0 0 okTv, .setpoint 0 65536 0 okTv,
    .setpoint 0 0 65536 okTv, .setpoint 0 0 0 badTv, .train 32 0 0 okTv, .train 0 65536 0 okTv, .train 0 0 65536 okTv,
    .train 0 0 0 badTv, .laneResidueError 16 okCheck, .laneResidueError 0 { okCheck with lane := 16 }, .knownAnswerTestEnd 16 0 false, .knownAnswerTestEnd 0 16 false] : List Instr).all (fun i => !(wellFormed i)) = true := by decide
theorem test_illformed_12 : ([.sparePipelineTest 16 0 false, .sparePipelineTest 0 4 false, .crosspointResidueError 64 0, .crosspointTestEnd 64 false, .recover 32 0 0 okTv,
    .recover 0 65536 0 okTv, .recover 0 0 65536 okTv, .recover 0 0 0 badTv, .logClear 32 0 0 okTv, .logClear 0 65536 0 okTv,
    .logClear 0 0 65536 okTv, .logClear 0 0 0 badTv, .fullTest 32 0 0 okTv, .fullTest 0 65536 0 okTv, .fullTest 0 0 65536 okTv,
    .fullTest 0 0 0 badTv, .jtagInstructionLoad 64, .tempClear 32 0 0 okTv, .tempClear 0 65536 0 okTv, .tempClear 0 0 65536 okTv,
    .tempClear 0 0 0 badTv, .fwData 32 0 0 okTv, .fwData 0 65536 0 okTv, .fwData 0 0 65536 okTv, .fwData 0 0 0 badTv,
    .fwVerify 32 0 0 okTv, .fwVerify 0 65536 0 okTv, .fwVerify 0 0 65536 okTv, .fwVerify 0 0 0 badTv, .crossbarRequest 0 16 0 0 0 none] : List Instr).all (fun i => !(wellFormed i)) = true := by decide
theorem test_illformed_13 : ([.rsmLaneLockLoss 4, .handover 32 0 0 okTv, .handover 0 65536 0 okTv, .handover 0 0 65536 okTv, .handover 0 0 0 badTv,
    .referenceFirstEdge 8, .arpReplyReceived 65536 0 0, .frameDiscarded 65536 false] : List Instr).all (fun i => !(wellFormed i)) = true := by decide
theorem test_formed_1 : ([.resetNRelease 0 0 [], .frameTick 0 0 false, .shadowCopyEnd 0, .phaseWindowStart 0 .ingest [] [], .phaseCutoff 0 .ingest [],
    .budgetCounterExhausted 0, .laneBudgetStop 0 0 .ingest, .bridgeRatioSettled 0 0, .domainFreeRunTimeout 0, .dpllLocked 0,
    .dpllSlewDone 0, .referenceEdgeMissing okEdge, .referenceGlitch 0, .glitchHoldEnd 0, .rateGateEnd 0 0,
    .revert 0 0 0 okTv, .realign 0 0 0 okTv, .ptpAnnounceReceived 0 okAnn 0, .ptpSyncReceived 0 okMsg 0, .ptpFollowUpReceived 0 okMsg,
    .ptpDelayRespReceived 0 okMsg, .delayReqSend 0 0, .ptpMasterLost 0, .holdLimitExpired 0, .stepAccept 0 0 0 okTv,
    .stepReject 0 0 0 okTv, .rtpPacketReceived 0 okPkt 0, .legLost 0 0, .rateFitUpdate 0 0, .igmpQueryReceived 0 0 0] : List Instr).all (fun i => wellFormed i) = true := by decide
theorem test_formed_2 : ([.arpRequest 0 0 0, .icmpEchoRequest 0 0 0 [], .networkLinkChange 0 false, .rxOpen 0 0 0 okTv, .txOpen 0 0 0 okTv,
    .nonaudioCleared 0 0, .bankSupplyFault 0, .submissionDoorbell 0 0 [], .completionDoorbell 16 0, .recordDoorbell 32 0,
    .playbackDoorbell 48 0 [], .submissionFetch 0, .commandPairEnable 0, .commandPairDisable 0, .ringDmaError 32,
    .restart 0 0 0 okTv, .otpKeyProgram 0, .otpProgramDone 0, .otpKeyRevoke 0, .odpDatagramReceived 0 0 [],
    .odpSessionIdleTimeout 0, .odpReassemblyTimeout 0 0, .hello 0 0 0 0 0 [], .auth 0 0 0 0 [], .authPendingTimeout 0,
    .read 0 0 0, .write 0 0 0 okTv, .readBlock 0 0 0 1 false, .writeBlock 0 0 0 false [], .txnBegin 0 0] : List Instr).all (fun i => wellFormed i) = true := by decide
theorem test_formed_3 : ([.txnEnd 0 0, .txnExpired 0, .lockAcquired 0, .lockTimeout 0, .commit 0 0 okReq,
    .rollback 0 0 okReq, .subscribe 0 0 (.event []), .unsubscribe 0 0 0, .close 0 0, .nop 0 0,
    .closeSession 0 0 0 okTv, .subscriptionIntervalEnd 0 0 0, .notifySend 0, .cancel 0 0 0 okTv, .discard 0 0 0 okTv,
    .renumber 0 0 0 okTv, .sessionStagingWrite 0 0 0 okTv, .factory 0 0 0 okTv, .nodeLiveWrite 0 0 0 0 okTv, .imageWrite 0 0 0 okTv,
    .placementListWrite 0 0 0 false okTv, .patchWrite 0 0 0 okTv, .clear 0 0 0 okTv, .reqMode 0 0 0 okTv, .rbGo 0 0 0 okTv,
    .coreCrossfadeEnd 0, .inputCrossfadeEnd 0, .nodeRampEnd 0 0, .firCrossfadeEnd 0, .limOnCrossfadeEnd 0] : List Instr).all (fun i => wellFormed i) = true := by decide
theorem test_formed_4 : ([.gateHoldExpired 0, .programStart 0 0, .nopBundle 0, .halt 0, .lset 0 0 1,
    .loop 0 0 1, .bld 0 0 1, .mac 0 .sc 0 0 0, .msu 0 .sc 0 0 0, .mpy 0 .sc 0 0 0,
    .ext 0 0 0 .q823 .rn 0, .acc 0 0 0 .q823, .adda 0 0 0, .suba 0 0 0, .sha 0 0 0,
    .clr 0 0, .add 0 0 0 0, .sub 0 0 0 0, .asr 0 0 0 0, .asl 0 0 0 0,
    .abs 0 0 0, .neg 0 0 0, .mov 0 0 0, .mvi 0 0 0, .mvs 0 0 0,
    .mvr 0 0 0, .max 0 0, .min 0 0, .mxclr 0 0, .and 0 0 0 0] : List Instr).all (fun i => wellFormed i) = true := by decide
theorem test_formed_5 : ([.or 0 0 0 0, .xor 0 0 0 0, .ld 0 .ld0 0 0 .none, .st 0 0 0 .none, .xmod 0 .ld0 0 .none,
    .crossbarRequest 0 0 0 0 0 none, .chunkEndGrant 0, .emergencyRequest 0 0 0 0 0 none, .priorityPreemption 0 0 0, .flagAliasWrite 0 false 0 [],
    .dramRefresh 0, .dramSingleBitError 0 0 0, .dramUncorrectable 0 0 0, .dramWriteBack 0, .dramParityAlert 0,
    .dramAlertRelease 0 none, .commandBusTestEnd 0 false, .dramRowTestEnd 0 false, .setpoint 0 0 0 okTv, .train 0 0 0 okTv,
    .laneResidueError 0 okCheck, .knownAnswerTestEnd 0 0 false, .sparePipelineTest 0 0 false, .crosspointResidueError 0 0, .crosspointTestEnd 0 false,
    .recover 0 0 0 okTv, .logClear 0 0 0 okTv, .fullTest 0 0 0 okTv, .jtagInstructionLoad 0, .tempClear 0 0 0 okTv] : List Instr).all (fun i => wellFormed i) = true := by decide
theorem test_formed_6 : ([.fwData 0 0 0 okTv, .fwVerify 0 0 0 okTv, .rsmFrameError 0, .rsmLaneLockLoss 0, .handover 0 0 0 okTv,
    .referenceFirstEdge 0, .arpReplyReceived 0 0 0, .frameDiscarded 0 false] : List Instr).all (fun i => wellFormed i) = true := by decide
/-- No row of the table has bits, so no word spells a command. -/
theorem test_no_word_spells_a_command : decodeTableWord 16 0 = none ∧ decodeTableWord 64 (2 ^ 63) = none := by decide

/-! ### The machine as a whole -/

theorem test_witness_EmptyQueueIdlesOneCycle : State.reset.pending = [] := by decide
/-- Reset is sound, and a command and an empty queue both answer a next state. -/
theorem test_witness_StepKeepsSound :
    memWf State.reset.mem = true ∧ memWf State.reset.host.mem = true ∧ keyOk (keySlot State.reset 0)
    ∧ goes (step State.reset) = true ∧ goes (step { State.reset with pending := [.drainComplete 0] }) = true := by
  unfold keyOk; decide
/-- Key slot 0 programmed, slot 1 revoked, a network record, and a step that goes on from there. -/
def fused : State :=
  { State.reset with pending := [.otpProgramDone 0], host := { State.reset.host with
      keys := [(0, { KeySlot.blank with key := [1, 2], priv := 3, programmed := true }), (1, { KeySlot.blank with revoked := true })],
      netRecs := [(0, some { mode := 0, ip := 1, prefix_ := 24, gateway := 2 })] } }
theorem test_witness_FusesArePermanent :
    (keySlot fused 0).programmed = true ∧ (keySlot fused 1).revoked = true ∧ (tget fused.host.netRecs none 0).isSome = true
    ∧ goes (step fused) = true := by decide
theorem test_witness_QueueIsServedInOrder : goes (step { State.reset with pending := [.drainComplete 0, .glitchHoldEnd 1] }) = true := by decide
theorem test_witness_CommandsChangeOnlyTheirParts : goes (exec (.drainComplete 0) State.reset) = true := by decide
theorem test_witness_WellFormedCommandsComplete : wellFormed (.halt 255) = true ∧ wellFormed .coldStart = true := by decide

/-! ### Lanes -/

/-- Lane 5 at rest with data, pointers, a circular buffer of 48 words and a counter. -/
def atRest : State :=
  setLane State.reset 5 { Lane.idle with
    d := [(1, 0x00800000), (2, 0xFF800000), (3, 0x7FFFFFFF), (4, 0x80000000)],
    a := [(1, 0x00000000500000000000)], x := [(0, 0x0068), (1, 0x4000), (2, 0x6000)], m := [(0, 9)], w := [(0, 48)],
    l := [(0, 3)], maxv := 5, maxi := 0x00020001, pc := 7, prog := some (ob 9 0x1150 0) }

/-- A lane that is still at rest is a witness for the lane statements, at the ends of their operand ranges. -/
theorem test_witness_AccumulatorResults :
    Quiet (lane atRest 5) ∧ Quiet (lane atRest 255) ∧ 255 < 256 ∧ 3 < 4 ∧ 15 < 16
    ∧ (0 : Int) ≤ 0 ∧ (0 : Int) ≤ 31 ∧ (31 : Int) ≤ 31 ∧ (-32 : Int) ≤ -32 ∧ (-32 : Int) < 0 ∧ (-1 : Int) < 0 := by
  unfold Quiet; decide
theorem test_witness_ExtractRoundsThenSaturates :
    Quiet (lane atRest 5) ∧ 5 < 256 ∧ 15 < 16 ∧ 3 < 4 ∧ (-8 : Int) ≤ -8 ∧ (7 : Int) ≤ 7
    ∧ (1 ≤ 1 ∧ 2 * ((3 : Int) - shiftNearest 3 1 * 2 ^ 1) = -(2 ^ 1) ∧ 2 * ((5 : Int) - shiftNearest 5 1 * 2 ^ 1) = 2 ^ 1) := by
  unfold Quiet; decide
theorem test_witness_DataAddsAndShiftsSaturate : Quiet (lane atRest 5) ∧ 5 < 256 ∧ 15 < 16 ∧ 31 < 32 := by
  unfold Quiet; decide
theorem test_witness_DataMovesAndLogic :
    Quiet (lane atRest 5) ∧ 5 < 256 ∧ 15 < 16 ∧ (-1024 : Int) ≤ -1024 ∧ (1023 : Int) ≤ 1023 := by
  unfold Quiet; decide
theorem test_witness_LanesEndAt255 : 256 ≤ 256 := by decide
theorem test_witness_SpecialRegisterMoves :
    Quiet (lane atRest 5) ∧ 5 < 256 ∧ 15 < 16 ∧ 7 < 8 ∧ 1 < 2 ∧ tget (lane atRest 5).l 0 0 < 65536 := by
  unfold Quiet; decide
/-- One value above the extreme, one below, one equal. -/
theorem test_witness_SearchKeepsFirstExtreme :
    Quiet (lane atRest 5) ∧ (lane atRest 5).maxv.toInt < dInt (lane atRest 5) 3 ∧ dInt (lane atRest 5) 4 ≤ (lane atRest 5).maxv.toInt
    ∧ dInt (lane atRest 5) 4 < (lane atRest 5).maxv.toInt ∧ (lane State.reset 5).maxv.toInt ≤ dInt (lane atRest 5) 4 := by
  unfold Quiet; decide
/-- Pointers at bank B's last words, at its end and at the first unmapped word; a placement runs. -/
theorem test_witness_MemorySlotMoves :
    Quiet (lane atRest 5) ∧ (tget (lane atRest 5).x 0 0).toNat < 0x4000 ∧ 0x4000 ≤ (tget (lane atRest 5).x 0 1).toNat
    ∧ (tget (lane atRest 5).x 0 1).toNat < 0x6000 ∧ 0x6000 ≤ (tget (lane atRest 5).x 0 2).toNat
    ∧ (lane atRest 5).prog = some (ob 9 0x1150 0) ∧ areaOf (ob 9 0x1150 0) = 9 ∧ areaOf (ob 9 0x1150 0 + 0x10) = 9
    ∧ laneAddr 5 0x68 = some (0x04000000 + 0x80000 + 0x10000 + 4 * 0x68) ∧ regionFailed atRest 0x040901A0 = false ∧ saveOf atRest 0x040901A0 = none
    ∧ tget (lane atRest 5).w 0 0 ≠ 0 ∧ tget (lane atRest 5).w 0 1 = 0
    ∧ PointerMoves 0x0068 48 9 0x0041 ∧ PointerMoves 0x4000 0 (-1) 0x3FFF := by
  refine ⟨by unfold Quiet; decide, by decide, by decide, by decide, by decide, by decide, by decide, by decide, by decide, by decide, by decide,
    by decide, by decide, ⟨by decide, fun _ k h m => ?_⟩, by decide, fun h => absurd rfl h⟩
  have h6 : k = 6 := Nat.le_antisymm (m 6 (by decide)) (Nat.le_of_not_lt (fun c =>
    absurd (Nat.le_trans h (Nat.pow_le_pow_right (by decide) (Nat.le_of_lt_succ c))) (by decide)))
  subst h6; decide
theorem test_witness_LoopTakesBodyTimesCount :
    Quiet (lane atRest 5) ∧ tget (lane atRest 5).l 0 0 = 3 ∧ 1 ≤ 3 ∧ 1 ≤ 512 ∧ 0 < 2 := by
  unfold Quiet; decide
/-- A counter above 1, one at 0, a branch back to bundle 0, and a placement whose program ends. -/
theorem test_witness_ProgramsFlowThroughTheirBundles :
    Quiet (lane atRest 5) ∧ tget (lane atRest 5).l 0 0 ≠ 0 ∧ 1 < tget (lane atRest 5).l 0 0 ∧ tget (lane atRest 5).l 0 1 = 0
    ∧ 7 ≤ (lane atRest 5).pc ∧ (lane atRest 5).prog = some (ob 9 0x1150 0) ∧ isPlacement (ob 9 0x1150 0) = true
    ∧ numF atRest (ob 9 0x1150 0 + 5) + 3 < 0x4000 ∧ atRest.sage.failed = [] := by
  unfold Quiet; decide

/-- A lane with an accumulator, where an EXT to D0 has become visible: D0 and ST. -/
def extOf (a : Int) (r : Rnd) : Option (Nat × Nat) :=
  match runs [.ext 0 0 0 .q823 r 0, .nopBundle 0, .nopBundle 0]
      (setLane State.reset 0 { Lane.idle with a := [(0, BitVec.ofInt 80 a)] }) with
  | .next t => some ((tget (lane t 0).d 0 0).toNat, (lane t 0).st.toNat)
  | _ => none
/-- The table of R86. -/
theorem test_ext_of_R86 :
    extOf 0x50000000 .rn = some (2, 0) ∧ extOf 0x50000000 .rd = some (2, 0)
    ∧ extOf (7 * 2 ^ 28) .rn = some (4, 0) ∧ extOf (7 * 2 ^ 28) .rd = some (3, 0)
    ∧ extOf (-5 * 2 ^ 28) .rn = some (0xFFFFFFFE, 2) ∧ extOf (-5 * 2 ^ 28) .rd = some (0xFFFFFFFD, 2)
    ∧ extOf (300 * 2 ^ 52) .rn = some (0x7FFFFFFF, 12) ∧ extOf (300 * 2 ^ 52) .rd = some (0x7FFFFFFF, 12) := by decide +kernel

/-- X0 after an XMOD +M with M0 and W0. -/
def xmodOf (x m w : Nat) : Option Nat :=
  match runs [.xmod 0 .ld0 0 .plusM, .nopBundle 0] (setLane State.reset 0 { Lane.idle with
      x := [(0, BitVec.ofNat 16 x)], m := [(0, BitVec.ofNat 16 m)], w := [(0, BitVec.ofNat 16 w)] }) with
  | .next t => some (tget (lane t 0).x 0 0).toNat
  | _ => none
/-- The circular pointer of R91's example, both directions. -/
theorem test_circular_pointer_of_R91 :
    [0x68, 0x41, 0x4A, 0x53, 0x5C, 0x65, 0x6E].map (fun x => xmodOf x 9 48)
      = [0x41, 0x4A, 0x53, 0x5C, 0x65, 0x6E, 0x47].map some ∧ xmodOf 0x40 0xFFFF 48 = some 0x6F := by decide +kernel

/-- R110's example: an EXT to D5 and one bundle later an ADD to D5 become visible together, and the ADD prevails; SAT tells the EXT. -/
theorem test_later_bundle_prevails :
    (match runs [.ext 0 5 0 .q823 .rn 0, .nopBundle 0, .add 0 5 1 1, .nopBundle 0]
        (setLane State.reset 0 { Lane.idle with a := [(0, BitVec.ofInt 80 (300 * 2 ^ 52))], d := [(1, 1)] }) with
      | .next t => some ((tget (lane t 0).d 0 5).toNat, (lane t 0).st.toNat)
      | _ => none) = some (2, 8) := by decide +kernel

/-- A MAX search over equal values keeps step 0, and counts its steps (R122). -/
theorem test_max_keeps_the_first :
    (match runs [.mxclr 0 0, .nopBundle 0, .max 0 1, .nopBundle 0, .max 0 2, .nopBundle 0, .max 0 1, .nopBundle 0]
        (setLane State.reset 0 { Lane.idle with d := [(1, 9), (2, 9)] }) with
      | .next t => some ((lane t 0).maxv.toNat, (lane t 0).maxi.toNat)
      | _ => none) = some (9, 0x00030000) := by decide +kernel

/-- ADD and ASL saturate, ASR rounds down, ABS and NEG of the most negative number saturate (R85, R119). -/
def dOf (i : Instr) : Option (Nat × Nat) :=
  match runs [i, .nopBundle 0] (setLane State.reset 0 { Lane.idle with d := [(1, 0x7FFFFFFF), (2, 0x80000000), (3, 0xFFFFFFFD)] }) with
  | .next t => some ((tget (lane t 0).d 0 0).toNat, (lane t 0).st.toNat)
  | _ => none
theorem test_data_operations :
    dOf (.add 0 0 1 1) = some (0x7FFFFFFF, 12) ∧ dOf (.sub 0 0 2 1) = some (0x80000000, 14) ∧ dOf (.asl 0 0 1 1) = some (0x7FFFFFFF, 12)
    ∧ dOf (.asr 0 0 3 1) = some (0xFFFFFFFE, 2) ∧ dOf (.abs 0 0 2) = some (0x7FFFFFFF, 12) ∧ dOf (.neg 0 0 2) = some (0x7FFFFFFF, 12)
    ∧ dOf (.mvi 0 0 (-1024)) = some (0xFFFFFC00, 2) ∧ dOf (.xor 0 0 1 2) = some (0xFFFFFFFF, 2) := by decide +kernel

/-- A store of one bundle is read by a load of the next (R108), at the bank address of the lane (R87). -/
theorem test_store_then_load :
    (match runs [.st 5 1 0 .none, .nopBundle 5, .ld 5 .ls1 9 0 .none, .nopBundle 5, .nopBundle 5] atRest with
      | .next t => some ((tget (lane t 5).d 0 9).toNat, memRead t.mem 0x040901A0 4)
      | _ => none) = some (0x00800000, [0, 0, 0x80, 0]) := by decide +kernel

/-! ### Reset and start-up -/

theorem test_witness_ResetsKeepOnlyRetainedState :
    ((1 : Nat) = 1 ∧ 749 < 750) ∧ ((0 : Nat) = 0 ∧ 699 < 700) ∧ 1000 ≤ 1000
    ∧ { State.reset.boot with inReset := false }.inReset = false
    ∧ parsleyDead { State.reset with sage := { State.reset.sage with dead := true } } = true
    ∧ (let b := { State.reset.boot with step := 2, pick := none, stopped := false, slot := 1 }
       b.step = 2 ∧ b.pick = none ∧ b.stopped = false ∧ b.slot < 2) := by decide
/-- Start-up at the step after the release, and at the load of a candidate. -/
def bootAt (k : Nat) (p : Option Nat) (good : Bool) : State :=
  { State.reset with boot := { State.reset.boot with step := k, pick := p, inReset := false,
                                                     slots := [(0, sealSlot { FwSlot.blank with good := good } 1)] } }
def trainingAt (k : Nat) (d : Option Nat) : State :=
  let s := put [(dramObj 0, 1), (dramObj 1, 1)] (bootAt k none true)
  { s with dram := tput s.dram Dram.idle 0 { Dram.idle with deferred := d } }
/-- CD0 ran, and nothing else is enabled. -/
def domainUp : State := put [(ob 2 0 1, 2)] (bootAt 5 none true)
/-- A copy of the retained state passes its CRC (R439). -/
theorem test_copies_pass_their_crc (a : Retained) : (copyOf a).good = true := by
  unfold copyOf RetainedCopy.good RetainedCopy.octets
  simp only [beq_self_eq_true, Bool.and_self]
theorem test_witness_StartUpRunsItsSteps_kept : (takeCopy (retain Retained.none id)).valid = true := by
  have h : (retain Retained.none id).copyA.good = true := test_copies_pass_their_crc { Retained.none with valid := true, generation := 1 }
  have g : ¬ (retain Retained.none id).copyA.generation < (retain Retained.none id).copyB.generation := by decide
  unfold takeCopy
  simp only [if_neg g, if_pos h]
  rfl
theorem test_witness_StartUpRunsItsSteps :
    State.reset.boot.inReset = true
    ∧ ((bootAt 1 none true).boot.step = 1 ∧ (bootAt 1 none true).boot.testmode = 0 ∧ (bootAt 1 none true).aon.valid = false
        ∧ (takeCopy (bootAt 1 none true).aon).valid = false)
    ∧ ((bootAt 2 (some 0) true).boot.pick = some 0 ∧ (fwSlot (bootAt 2 (some 0) true) 0).good = true)
    ∧ (fwSlot (bootAt 2 (some 0) false) 0).good = false
    ∧ { State.reset.boot with stopped := true }.stopped = true
    ∧ (∀ ch, ch < 2 → (dramRt (trainingAt 3 none) ch).again ≠ 1)
    ∧ (numF (trainingAt 3 none) (dramObj 0) = 1 ∧ numF (trainingAt 3 none) (dramObj 1) = 1 ∧ numF (put [(dramObj 0, 3)] (trainingAt 3 none)) (dramObj 0) = 3)
    ∧ (training (trainingAt 3 none) = true ∧ (dramRt (trainingAt 3 none) 0).deferred = none ∧ (trainingAt 3 none).boot.step = 3)
    ∧ (training (trainingAt 7 (some 2)) = true ∧ (dramRt (trainingAt 7 (some 2)) 0).deferred = some 2 ∧ (trainingAt 7 (some 2)).boot.step ≠ 3
        ∧ numF (trainingAt 7 none) (dramObj 0) = 1 ∧ numF (trainingAt 7 none) (dramObj 1) = 1 ∧ (dramRt (trainingAt 7 none) 0).deferred = none)
    ∧ (domainUp.boot.step = 5 ∧ domainsOn domainUp = true ∧ portsRan domainUp = true ∧ isFatal domainUp = false ∧ isOn domainUp pairObj = false
        ∧ (outFade domainUp 0).dir ≠ 2)
    ∧ { State.reset.boot with step := 6 }.step = 6 := by decide +kernel
def fwAt (n : Nat) : State :=
  put [(ob 0 0 0x023, n)] { bootAt 7 none true with boot := { (bootAt 7 none true).boot with fwWrite := some (4, [7, 8]) } }
theorem test_witness_FirmwareUpdatesTheOtherSlot :
    (fwAt 1).boot.fwWrite = some (4, [7, 8]) ∧ 4 + [7, 8].length ≤ imageArea ∧ numF (fwAt 2) (ob 0 0 0x023) = 2 ∧ (fwAt 2).boot.slot < 2 := by decide

/-! ### Balls and the boundary register -/

/-- R450's examples, by row letter and column. -/
def ballNamed (r : String) (c : Nat) : Ball := ballAt (rowIndex r) c
theorem test_balls :
    ballNamed "C" 31 = .signal (.ddr 0 74) ∧ ballNamed "BD" 31 = .signal (.ddr 1 74) ∧ ballNamed "A" 13 = .signal (.ddr 0 0)
    ∧ ballNamed "BE" 44 = .signal (.ddr 1 125) ∧ ballNamed "BC" 44 = .signal (.ddr 1 127) := by decide +kernel
/-- R448's counts of the outer band. -/
theorem test_outer_band :
    let outer := (List.range 44).flatMap (fun r => (List.range 44).filterMap (fun c =>
      if ringIndex (r + 1) (c + 1) ≤ 4 then some (ballAt (r + 1) (c + 1)) else none))
    outer.length = 640 ∧ outer.countP (fun b => b == .reserved) = 15 ∧ outer.countP (fun b => b == .vss) = 84 := by decide +kernel
/-- R465: the length of the boundary register. -/
theorem test_boundary_length : boundaryRegister.length = 1014 := by decide +kernel

/-! ### Sage -/

def testOf (kind key source : Nat) : Test := { kind := kind, key := key, source := source, loc := 1, detail := 2, frame := 3, count := 255 }
/-- Tests in the queue of Sage. -/
def testing (l : List Test) (s : State) : State := { s with sage := { s.sage with queue := l } }
/-- Save buffer 3 stands for a region under test. -/
def saving (r : Nat) : State := { State.reset with sage := { State.reset.sage with saves := [{ no := 3, region := r, cells := [] }] } }
/-- 64 tests wait. -/
def crowded : State := testing ((List.range 64).map (fun k => testOf 5 k 8)) State.reset
theorem test_witness_ErrorsAreTestedAndLogged :
    (findTest State.reset 3 0xFF = none ∧ State.reset.sage.queue.length < 64 ∧ isFatal State.reset = false)
    ∧ (findTest (testing [testOf 3 0xFF 6] State.reset) 3 0xFF).isSome = true
    ∧ (findTest crowded 3 0xFF = none ∧ 64 ≤ crowded.sage.queue.length)
    ∧ (standsFor State.reset 0xF0000803 = none ∧ standsFor (saving 0x5E001) 0xF0000803 = some 0x5E001
      ∧ (saving 0x5E001).sage.failed.any (fun e => e.1 == 0x5E001) = false)
    ∧ (700 : Nat) ∉ State.reset.pair.resent ∧ 700 ∈ { State.reset.pair with resent := [700] }.resent
    ∧ ((dramRt State.reset 1).rowTest ≠ some (rowKey State.reset 1 64) ∧ (dramRt State.reset 1).backs.length < 64)
    ∧ (findTest (testing [testOf 3 0xFF 6] State.reset) 3 (16 * 15 + 15)).isSome = true ∧ numF State.reset (repairObj 15 + 15 / 4) = 0
    ∧ numF (put [(repairObj 15 + 3, 1)] State.reset) (repairObj 15 + 15 / 4) ≠ 0
    ∧ ((findTest (testing [testOf 5 63 8] State.reset) 5 63).isSome = true ∧ 63 ∉ State.reset.sage.retired ∧ State.reset.sage.retired.length < 11)
    ∧ (let s := { State.reset with sage := { State.reset.sage with queue := [testOf 5 63 8], retired := List.range 11 } }
       (findTest s 5 63).isSome = true ∧ 63 ∉ s.sage.retired ∧ 11 ≤ s.sage.retired.length)
    ∧ ((findTest (testing [testOf 4 1 5] State.reset) 4 1).isSome = true ∧ (dramRt State.reset 1).busLeft = 0
      ∧ (let s := setDram State.reset 1 { Dram.idle with busLeft := 256, rowLeft := 1536 }; (dramRt s 1).busLeft ≠ 0 ∧ (dramRt s 1).rowLeft ≠ 0))
    ∧ (let s := setDram (testing [testOf 2 (2 * 9 + 1) 3] State.reset) 1 { Dram.idle with rowTest := some 9 }
       (dramRt s 1).rowTest = some 9 ∧ (dramRt s 1).rowLeft = 0 ∧ (findTest s 2 (2 * 9 + 1)).isSome = true)
    ∧ (let s := put [(pairObj + 1, 2), (pairObj + 0x00C, 4)] (testing [testOf 6 0 11] State.reset)
       (findTest s 6 0).isSome = true ∧ unitState s pairObj ≠ 0 ∧ numF s (pairObj + 0x00C) - (sortUp [0, 1, 2]).length < 2
       ∧ 2 ≤ numF s (pairObj + 0x00C) - (sortUp [3]).length) := by decide
/-- A MAC of kind SC on the last lane: 2 * 3 added to 1, in program 4. -/
def macCheck (after : Int) : ResidueCheck :=
  { lane := 15, program := some 4, cycle := 77, op := .mac, kind := .sc, a := 2, b := 3, product := 6, before := 1, after := after, saturated := false }
/-- R99: a sum that is off shows in its residue unless the operation saturated or the kind is CC or GG; a wrong product always does. -/
theorem test_residues :
    residueMismatch (macCheck 7) = false ∧ residueMismatch (macCheck 8) = true ∧ (macCheck 8).lane < 16
    ∧ residueMismatch { macCheck 8 with saturated := true } = false ∧ residueMismatch { macCheck 8 with kind := .cc } = false
    ∧ residueMismatch { macCheck 25 with kind := .sg } = false ∧ residueMismatch { macCheck 25 with kind := .sg, product := 5 } = true := by decide
/-- A region of tile 15 under test, with `n` spare rows of its macro taken. -/
def sramTest (n : Nat) : State :=
  let s := put [(ob 9 0x10F 1, 2)] (testing [testOf 1 0x5E001 1] State.reset)
  { s with sage := { s.sage with saves := [{ no := 0, region := 0x5E001, cells := [] }], spares := (List.range n).map (fun k => (0x5E000 + k, k)) } }
theorem test_witness_SramFaultsTakeSpareRows :
    (0x5E001 ∈ underTest (sramTest 3) ∧ (findTest (sramTest 3) 1 0x5E001).isSome = true ∧ sparesUsed (sramTest 3) 0x5E001 < 4)
    ∧ (4 ≤ sparesUsed (sramTest 4) 0x5E001 ∧ regionTile 0x5E001 = some 15 ∧ 15 < 16 ∧ unitState (sramTest 4) (ob 9 (0x100 + 15) 0) ≠ 0) := by decide
theorem test_witness_FatalErrorsAndStops :
    isFatal State.reset = false ∧ State.reset.boot.inReset = true ∧ (bootAt 7 none true).boot.inReset = false
    ∧ numF (put [(faultObj + 0x012, 1)] State.reset) (faultObj + 0x012) = 1
    ∧ signedOf 32 (numF State.reset (ob 0 0 0x031)) < 1051 ∧ 15 < 16
    ∧ ((lane State.reset 255).phase ≠ some .strip
      ∧ (let s := setLane State.reset 255 { Lane.idle with phase := some .strip }
         (lane s 255).phase = some .strip ∧ (lane s 255).prog = none ∧ (lane s 255).todo = [])) := by decide

/-! ### DRAM and budgets -/

/-- Channel 1 READY, with an alert, and a command in its retry buffer that was replayed `n` times. -/
def alerted (a : Bool) (n : Nat) : State :=
  setDram (put [(dramObj 1, 2)] (bootAt 7 none true)) 1
    { Dram.idle with alert := a, buffer := [{ no := 4, resp := none, beat := 0, addr := 64, old := [], snap := [] }], next := 5, suspect := some (4, n) }
/-- The transition table's entry 118 gives patrol scrub of channel 1 its beats; write-backs wait. -/
def scrubbed : State :=
  let s := put [(entryObj 255, 1), (dramObj 1, 2)] (bootAt 7 none true)
  setBudget (setDram s 1 { Dram.idle with backs := [7, 8] }) 118 { BudgetRt.zero with count := 10 }
theorem test_witness_DramAlertsReplayAndBeatsCount :
    (numF (alerted true 2) (dramObj 1) = 2 ∧ (dramRt (alerted true 2) 1).alert = true ∧ (dramRt (alerted true 2) 1).waiting = []
      ∧ (dramRt (alerted true 2) 1).buffer.length = 1 ∧ (dramRt (alerted true 2) 1).suspect = some (4, 2))
    ∧ ((dramRt (alerted false 0) 1).alert = false) ∧ (dramRt (alerted true 3) 1).suspect = some (4, 3)
    ∧ ((dramRt scrubbed 1).backs = [7, 8] ∧ entryFor scrubbed 0x27 1 0 = some 118 ∧ channelStopped scrubbed 1 = false
      ∧ 4 ≤ beatsLeft scrubbed 0x27 1 0 ∧ (dramRt State.reset 1).backs = [] ∧ channelStopped (alerted true 2) 1 = true
      ∧ ∀ d, d < 4 → beatsLeft State.reset 0x27 1 d < 4)
    ∧ numF (alerted true 2) (dramObj 1) ≠ 1
    ∧ (numF (put [(dramObj 1, 1)] (alerted false 0)) (dramObj 1) = 1 ∧ (dramRt (alerted false 0) 1).again = 0 ∧ { Dram.idle with again := 2, repeated := true }.again ≠ 0)
    ∧ (∃ c, (dramRt (alerted true 2) 1).buffer[0]? = some c ∧ c.no = 4)
    ∧ (tableRestored scrubbed = true ∧ isOn scrubbed (entryObj 255) = true ∧ (budgetRt scrubbed 255).hitZero = false ∧ { BudgetRt.zero with hitZero := true }.hitZero = true) := by
  decide +kernel

/-! ### Mode transitions -/

/-- A transition at a step of PROGRESS towards a mode. -/
def moving (k target : Nat) : State :=
  let s := put [(modeObj + 4, k), (ob 2 0 1, 2)] (bootAt 7 none true)
  { s with mode := { s.mode with target := target, rate := 1 } }
theorem test_witness_TransitionsRunTheirSteps :
    (numF (moving 1 6) (modeObj + 4) = 1 ∧ (moving 1 6).mode.target = 6)
    ∧ numF (moving 2 1) (modeObj + 4) = 2
    ∧ (numF (moving 3 1) (modeObj + 4) = 3 ∧ (moving 3 1).mode.target ≠ 6 ∧ modeNow (moving 3 1) ≠ 5 ∧ ∀ v ∈ (moving 3 1).ver.dir, v.mode ≠ 5)
    ∧ (let s := put [(modeObj, 5)] (moving 3 1)
       let t := { s with pair := { s.pair with partner := some { side := 1, dieId := 77, token := true, mode := 1, rate := 1 } } }
       numF t (modeObj + 4) = 3 ∧ t.mode.target ≠ 6 ∧ modeNow t = 5 ∧ t.pair.partner.isSome = true)
    ∧ (numF (moving 3 6) (modeObj + 4) = 3 ∧ (moving 3 6).mode.target = 6 ∧ role (moving 3 6) ≠ 2)
    ∧ (numF (moving 4 1) (modeObj + 4) = 4 ∧ portsRan (moving 4 1) = true ∧ isFatal (moving 4 1) = false ∧ (outFade (moving 4 1) 0).dir ≠ 2)
    ∧ numF (moving 5 1) (modeObj + 4) = 5 := by decide +kernel

/-- A domain with a rate of a higher class than the target's. -/
def tooFast : State := put [(ob 2 1 0, 1), (ob 2 1 2, 5), (modeObj, 4)] (moving 1 4)
theorem validate_of_step1 (s c : State) (sh : Option Nat) (h : (step1 s c).isEmpty = false) : ∃ f, (validate s c sh).2 = some f := by
  unfold validate
  split
  · exact ⟨_, rfl⟩
  · rename_i h0; rw [h0] at h; exact absurd h (by decide)
/-- Such a target does not validate. -/
theorem test_witness_TransitionsRunTheirSteps_refused :
    numF tooFast (modeObj + 4) = 1 ∧ tooFast.mode.target ≠ 6
    ∧ ∃ f, (validate tooFast (adapt tooFast tooFast.mode.target tooFast.mode.rate).1 (adapt tooFast tooFast.mode.target tooFast.mode.rate).2).2 = some f :=
  ⟨by decide, by decide, validate_of_step1 _ _ _ (by decide +kernel)⟩

/-! ### Redundant pairs -/

/-- A partner of the other letter. -/
def partner (side : Nat) (token : Bool) : LinkPeer := { side := side, dieId := 77, token := token, mode := 1, rate := 1 }
/-- A side with a role, its link ON, the token or not, and a lease. -/
def sideWith (r side : Nat) (token : Bool) (x frame : Nat) : State :=
  let s := put [(pairObj + 1, 2), (pairObj + 2, side), (pairObj + 3, r), (ob 2 0 0x14, frame)] (bootAt 7 none true)
  { s with pins := { s.pins with ownN := !token }, pair := { s.pair with leaseX := x, peerHigh := 6, joinWait := false, partner := some (partner 1 true) } }
/-- A side whose link starts, and has found its partner. -/
def joining (side : Nat) (token : Bool) : State :=
  let s := put [(pairObj + 1, 1)] (sideWith 0 side token 0 0)
  { s with pair := { s.pair with linkUp := some (partner 1 true) } }
theorem test_witness_SidesJoinByRole :
    (unitState (joining 0 true) pairObj = 1 ∧ (joining 0 true).pair.linkUp = some (partner 1 true) ∧ (partner 0 true).side = sideOf (joining 0 true))
    ∧ ((partner 1 true).side ≠ sideOf (joining 0 true) ∧ holdsToken (joining 0 true) = true ∧ sideOf (joining 0 true) = 0)
    ∧ (isFatal (joining 0 false) = false ∧ isFatal (put [(faultObj, 1)] (joining 0 false)) = true ∧ holdsToken (joining 0 false) = false ∧ (partner 1 false).token = false ∧ sideOf (joining 0 false) = 0)
    ∧ ((partner 0 true).side ≠ sideOf (joining 1 true) ∧ holdsToken (joining 1 true) = true ∧ sideOf (joining 1 true) ≠ 0 ∧ (partner 0 true).token = true)
    ∧ (unitState (joining 1 false) pairObj = 1 ∧ holdsToken (joining 1 false) = false ∧ sideOf (joining 1 false) ≠ 0) := by decide
theorem test_witness_TokenChangesHands :
    (role (sideWith 1 0 true 9 8) = 1 ∧ holdsToken (sideWith 1 0 true 9 8) = true ∧ (sideWith 1 0 true 9 8).pair.leaseX ≤ frameOf (sideWith 1 0 true 9 8) 0 + 1
      ∧ leaseHeld (sideWith 1 0 true 9 8) = false)
    ∧ frameOf (sideWith 1 0 true 9 7) 0 + 1 < (sideWith 1 0 true 9 7).pair.leaseX
    ∧ (role (sideWith 2 1 false 9 10) = 2 ∧ (sideWith 2 1 false 9 10).pair.leaseX + 1 ≤ frameOf (sideWith 2 1 false 9 10) 0
      ∧ leaseHeld (sideWith 2 1 false 9 10) = false ∧ isOn (sideWith 2 1 false 9 10) (pairObj + 0x00A) = false
      ∧ isOn (put [(pairObj + 0x00A, 1)] (sideWith 2 1 false 9 10)) (pairObj + 0x00A) = true)
    ∧ (role (sideWith 3 1 false 9 10) = 3 ∧ modeNow (sideWith 3 1 false 9 10) ≠ 6 ∧ sideOf (sideWith 3 1 false 9 10) = 1
      ∧ 6 ≤ (sideWith 3 1 false 9 10).pair.peerHigh ∧ (sideWith 3 1 false 9 10).pair.joinWait = false ∧ isFatal (sideWith 3 1 false 9 10) = false
      ∧ 7 ≤ (sideWith 3 1 false 9 10).boot.step) := by decide
theorem test_witness_StandbyFollowsTheActiveSide :
    (role (sideWith 2 1 false 9 10) = 2 ∧ linkOn (sideWith 2 1 false 9 10) = true
      ∧ frameOf (sideWith 2 1 false 9 10) 0 ≤ 8 + 2 ∧ 7 + 2 < frameOf (sideWith 2 1 false 9 10) 0 ∧ 5 ≠ nextItem (sideWith 2 1 false 9 10) 8)
    ∧ (inTransition (sideWith 2 1 false 9 10) = false ∧ inTransition (put [(modeObj + 4, 2)] (sideWith 2 1 false 9 10)) = true)
    ∧ (let c : Pending := { set := [], marks := [], bank := [], since := [], factory := false, budgets := [], kind := 1, number := 2, source := 0, label := 0, session := 0,
                            tag := 1, op := 7, req := default, arrived := 0, land := [(0, 9)], open_ := [] }
       let s := { put [(commitObj, 2)] (sideWith 2 1 false 9 10) with commit := some c }
       commitState s = 2 ∧ s.commit.isSome = true)
    ∧ (role (sideWith 1 0 true 9 8) = 1 ∧ linkOn (sideWith 1 0 true 9 8) = true ∧ isFatal (sideWith 1 0 true 9 8) = false ∧ (sideWith 1 0 true 9 8).pair.ackPeriod ≠ some 8)
    ∧ numF (put [(pairObj + 4, 2)] (sideWith 2 1 false 9 10)) (pairObj + 4) = 2
    ∧ numF (put [(pairObj + 4, 1)] (sideWith 2 1 false 9 10)) (pairObj + 4) = 1
    ∧ noDomain (ob 11 3 5) = true := by decide

/-! ### Clock domains and references -/

/-- Domain 3 waits for a lock, runs on reference input 2 or slews; the input is at a status. -/
def clockAt (st lock ref : Nat) : State := put [(ob 2 3 1, st), (ob 2 3 0x11, lock), (ob 2 3 0x10, 2), (ob 2 3 3, 2), (ob 2 0x22 0, ref)] (bootAt 7 none true)
def refWith (x : RefIn) (s : State) : State := { s with refs := tput s.refs RefIn.idle 2 x }
theorem test_witness_DomainsLockToQualifiedReferences :
    (followsPeer (clockAt 1 0 0) = false ∧ numF (put [(ob 2 3 0x10, 15)] (clockAt 1 0 0)) (ob 2 3 1) = 1 ∧ numF (put [(ob 2 3 0x10, 15)] (clockAt 1 0 0)) (ob 2 3 0x10) = 15
      ∧ numF (put [(ob 2 3 0x10, 7)] (clockAt 1 0 0)) (ob 2 3 0x10) = 7)
    ∧ numF (clockAt 1 1 2) (ob 2 3 0x11) = 1 ∧ numF (clockAt 2 1 2) (ob 2 3 1) ≠ 1 ∧ numF (clockAt 2 4 2) (ob 2 3 0x11) = 4
    ∧ followsPeer (clockAt 1 1 2) = false
    ∧ ((let s := refWith { RefIn.idle with clean := 10000000 } (clockAt 2 4 2)
        freqOf s 3 = heldFreq (refOffset s 3 (numF s (ob 2 3 0x10))))
      ∧ (dom (clockAt 2 4 2) 3).slew.natAbs ≤ frameCycles (clockAt 2 4 2) 3
      ∧ (let s := { clockAt 2 4 2 with doms := [(3, { Domain.idle with slew := -10 ^ 9 })] }
         numF s (ob 2 3 0x11) = 4 ∧ frameCycles s 3 < (dom s 3).slew.natAbs))
    ∧ (numF (clockAt 2 2 2) (ob 2 (0x20 + 2) 0) ≠ 0 ∧ (refIn (clockAt 2 2 2) 2).missed = 0
      ∧ (refIn (refWith { RefIn.idle with missed := 1 } (clockAt 2 2 2)) 2).missed ≠ 0
      ∧ followsPeer (clockAt 2 2 2) = false ∧ numF (clockAt 2 2 2) (ob 2 3 1) = 2 ∧ numF (clockAt 2 2 2) (ob 2 3 0x10) = 2)
    ∧ numF (clockAt 2 2 3) (ob 2 (0x20 + 2) 0) = 3 ∧ numF (clockAt 2 2 0) (ob 2 (0x20 + 2) 0) = 0
    ∧ (numF (clockAt 2 2 1) (ob 2 (0x20 + 2) 0) = 1 ∧ (refIn (refWith { RefIn.idle with gates := 4 } (clockAt 2 2 1)) 2).gates = 4
      ∧ (refIn (refWith { RefIn.idle with gates := 3 } (clockAt 2 2 1)) 2).gates < 4
      ∧ (refIn (refWith { RefIn.idle with dirty := true } (clockAt 2 2 1)) 2).dirty = true) := by decide

/-! ### Crossbar -/

def xreq (m a beats chunk : Nat) (data : Option Octets) : XReq :=
  { no := 3, master := m, id := 1, dom := 0, addr := a, beats := beats, data := data, chunk := chunk }
/-- A target with an owner and a queue; the parts of state that the crossbar reads beside. -/
def owned (k : Nat) (c : Option XReq) (q : List XReq) : State :=
  setArb (setBudget (bootAt 7 none true) 2 { BudgetRt.zero with count := 9 }) k { Arbiter.idle with current := c, queue := q }
theorem test_witness_RequestsWaitOrAreGranted :
    (15 < 16 ∧ idsFull (owned 0x20 none []) 0 = false ∧ targetOf (owned 0x20 none []) 0 0x4000100 = some 0x20 ∧ hasPath (owned 0x20 none []) 0 0x20 = true
      ∧ targetOf (owned 0x20 none []) 0 (0x4000100 + 32 * (4 - 1)) = some 0x20)
    ∧ ((arb (owned 0x20 (some (xreq 0 0x4000000 2 2 none)) []) 0x20).current.isSome = true)
    ∧ ((arb (owned 0x20 none []) 0x20).current = none ∧ (arb (owned 0x20 none []) 0x20).queue = [] ∧ 2 ≤ 0x20
      ∧ 0 < beatsLeft (owned 0x20 none []) 0 0x20 0)
    ∧ (targetOf State.reset 0 (0x20FFFE0 + 32 * (2 - 1)) ≠ targetOf State.reset 0 0x20FFFE0 ∧ partsReach State.reset 0 0x20FFFE0 2 = false)
    ∧ targetOf State.reset 0 0x1280000 = none ∧ (targetOf State.reset 0 0x4200000 = some 0x21 ∧ hasPath State.reset 0 0x21 = false) := by
  decide +kernel
/-- A response that waits for its beat. -/
def resp (left : Nat) : XResp := { no := 3, master := 0, id := 1, dom := 0, tgt := 0x20, left := left, data := [], err := false, bad := [], read := true, due := 0 }
def withResps (l : List XResp) (s : State) : State := { s with xbar := { s.xbar with resps := l } }
/-- KV4100 mode with master 0x26 above master 0, which owns the target. -/
def contested : State :=
  put [(ob 10 0x40 0, 1), (ob 10 0x40 (0x100 + 0x26), 5)] (setBudget (owned 0x20 (some (xreq 0 0x4000000 2 2 none)) [xreq 0x26 0x4000000 1 0 none])
    101 { BudgetRt.zero with count := 9 })
def debugging : State := put [(ob 10 0x40 1, 1)] (bootAt 7 none true)
theorem test_witness_ChunksAndEmergenciesMoveBeats :
    ((arb (owned 0x20 (some (xreq 0 0x4000047 1 1 none)) []) 0x20).current = some (xreq 0 0x4000047 1 1 none) ∧ plainAddr (0x4000047 / 32 * 32) = 0x4000047 / 32 * 32
      ∧ regionFailed State.reset (0x4000047 / 32 * 32) = false ∧ poisoned State.reset (0x4000047 / 32 * 32) = false)
    ∧ (withResps [resp 1] State.reset).xbar.resps = [resp 1] ∧ (resp 1).no = (xreq 0 0x4000047 1 1 none).no
    ∧ ((xreq 0 0x4000047 1 1 (some (List.replicate 31 7 ++ [256]))).data = some (List.replicate 31 7 ++ [256]) ∧ (List.replicate 31 7 ++ [256]).length = 32)
    ∧ ((withResps [resp 0] State.reset).xbar.resps.find? (fun q => q.master == 0 && q.id == 1) = some (resp 0) ∧ (resp 0).left = 0)
    ∧ (hasPath debugging debugPort 5 = true ∧ namesTarget debugging 5 0x2000010 1 = true ∧ targetOf debugging debugPort 0x2000010 = some 5 ∧ plainAddr (0x2000010 / 32 * 32) = 0x2000010 / 32 * 32
      ∧ debugging.xbar.resps = [])
    ∧ (numF contested (ob 10 0x40 0) = 1 ∧ (arb contested 0x20).current = some (xreq 0 0x4000000 2 2 none)
      ∧ (arb contested 0x20).queue.find? (fun r => r.master == 0x26 && grantable contested 0x20 r) = some (xreq 0x26 0x4000000 1 0 none) ∧ prioOf contested 0 < prioOf contested 0x26 ∧ 0 < 256) := by
  decide +kernel
theorem test_witness_FlagAliasesSetAndClearBits :
    hasPath State.reset 0x29 5 = true ∧ (List.replicate 32 255).length = 32 ∧ (List.replicate 32 255).all (fun b => decide (b < 256)) = true
    ∧ (0x29 ≠ debugPort ∧ (arb State.reset 5).current = none ∧ beatsLeft State.reset 0x29 5 0 = 0)
    ∧ (let s := setBudget (bootAt 7 none true) 0 { BudgetRt.zero with count := 9 }
       let k := (List.range 256).find? (fun e => 0 < beatsLeft (setBudget (bootAt 7 none true) e { BudgetRt.zero with count := 9 }) 0x29 5 0)
       (arb s 5).current = none ∧ k.isSome = true)
    ∧ idsFull State.reset 0x29 = false ∧ (withResps [resp 1] State.reset).xbar.resps.any (fun q => q.master == 0 && q.id == 1) = true
    ∧ saveOf (saving 0x20000) 0x2000000 ≠ none ∧ regionFailed State.reset (0x2000000 + 0xFFFFF % 0x100000 / 32 * 32) = false := by decide

/-! ### Network time -/

def announceOf : Announce :=
  { domain := 0, sender := 9, portNo := 1, gm := 9, prio1 := 1, cclass := 6, accuracy := 0x20, variance := 1, prio2 := 1, steps := 254, interval := 4, timeout := 3 }
def msgOf (two : Bool) : PtpMsg :=
  { domain := 0, sender := 9, portNo := 1, seq := 5, stamp := 1000000, correction := 3, twoStep := two, logDelay := 0, interval := -3,
    reqClock := 0, reqPort := 0, arrival := 0 }
/-- Time base 3 at a servo state, that follows master 9 on port 1. -/
def timeBase (sv : Nat) (f : TimeBase → TimeBase) : State :=
  setTb (put [(tbObj 3 + 1, 1), (tbObj 3 + 0x10, sv), (tbObj 3 + 2, 0), (tbObj 3 + 3, 0), (tbObj 3 + 8, 1), (netObj 1, 1)] (bootAt 7 none true)) 3
    (f { TimeBase.free with port := 1, best := some announceOf })
/-- It asked on port 1, and its delay mechanism is 0 (end to end) or 1 (peer). -/
def asking (p2p : Nat) : State :=
  setTb (put [(tbObj 3 + 4, p2p), (tbObj 3 + 0x00D, 8)] (timeBase 2 id)) 3
    { tb (timeBase 2 id) 3 with reqSeq := 5, asked := [(1, 9)], t1 := 3, t2 := 8 }
/-- A response to the time base's own request on port 1. -/
theorem test_witness_TimeBasesFollowAndHold_answer :
    ∀ p, p < 2 → answersMe (asking p) 3 1 { msgOf false with reqClock := clockIdentity (asking p) 3, reqPort := 2 } = true := by
  intro p hp
  have h : ∀ p, p < 2 → ((tb (asking p) 3).reqSeq == 5 && (tb (asking p) 3).asked.any (fun e => e.1 == 1) && (2 == ptpPortNo 1)) = true := by decide
  unfold answersMe
  simp only [beq_self_eq_true, Bool.and_true]
  exact h p hp
theorem test_witness_TimeBasesFollowAndHold :
    (let s := timeBase 0 (fun x => { x with masters := [(1, announceOf, 1, 0)] })
     listens s 3 1 announceOf.domain = true ∧ announceOf.interval ≤ 4 ∧ announceOf.steps < 255 ∧ (tb s 3).masters = [(1, announceOf, 1, 0)]
      ∧ 80000000000 ≤ 0 + 4 * 1250000000 * 2 ^ announceOf.interval ∧ s.now ≤ 80000000000)
    ∧ (fromMaster (timeBase 0 id) 3 1 (msgOf true) = true ∧ (tb (timeBase 0 id) 3).heardSeq.contains (msgOf true).seq = false
      ∧ (-4 : Int) ≤ (msgOf true).interval ∧ (msgOf true).interval ≤ 1 ∧ (tb (timeBase 0 id) 3).timed = false ∧ servo (timeBase 0 id) 3 = 0
      ∧ (msgOf true).twoStep = true ∧ fromMaster (timeBase 0 id) 3 1 (msgOf false) = true ∧ (msgOf false).twoStep = false)
    ∧ (let s := timeBase 0 (fun x => { x with syncs := [(msgOf true, 77)] })
       fromMaster s 3 1 (msgOf false) = true ∧ (tb s 3).syncs.find? (fun e => e.1.seq == (msgOf false).seq) = some (msgOf true, 77) ∧ servo s 3 = 0
       ∧ (tb s 3).timed = false)
    ∧ (numF (timeBase 0 id) (tbObj 3 + 1) = 1 ∧ askPorts (timeBase 0 id) 3 = [1] ∧ askPorts (asking 1) 3 = [1] ∧ isOn (timeBase 0 id) (netObj 1) = true)
    ∧ (fromMaster (asking 0) 3 1 { msgOf false with reqClock := 4, reqPort := 2 } = true ∧ numF (asking 0) (tbObj 3 + 4) ≠ 1
      ∧ (tb (asking 0) 3).delayN < numF (asking 0) (tbObj 3 + 0x00D))
    ∧ (listens (asking 1) 3 1 0 = true ∧ numF (asking 1) (tbObj 3 + 4) = 1 ∧ 1 = delayPort (asking 1) 3
      ∧ (tb (asking 1) 3).delayN < numF (asking 1) (tbObj 3 + 0x00D))
    ∧ ((tb (timeBase 2 id) 3).best = some announceOf ∧ (tb (timeBase 2 id) 3).masters = [] ∧ servo (timeBase 2 id) 3 = 2 ∧ 3 ≤ servo (timeBase 3 id) 3)
    ∧ (servo (timeBase 4 id) 3 = 4 ∧ numF (timeBase 4 id) (tbObj 3 + 8) ≠ 0
      ∧ (let s := put [(ob 2 0 1, 2), (ob 2 0 0x10, 6)] (timeBase 4 id)
         followsPeer s = false ∧ numF s (ob 2 0 1) = 2 ∧ numF s (ob 2 0 0x10) = 3 + 3)) := by decide

/-! ### Streams and network ports -/

/-- Context 255 receives on network 0, both legs, 1 channel of 16 bits, from any source. -/
def receiving : State :=
  let s := put [(ctxObj 255, 1), (ctxObj 255 + 1, 2), (ctxObj 255 + 3, 0), (ctxObj 255 + 4, 3), (ctxObj 255 + 0x00B, 500), (ctxObj 255 + 0x00D, 5004),
    (ctxObj 255 + 5, 1), (ctxObj 255 + 6, 0), (ctxObj 255 + 0x00A, 97)] (bootAt 7 none true)
  { s with now := 1000 }
def packet (stamp : Nat) (n : Nat) : RtpPacket :=
  { source := 1, dest := 500, udpPort := 5004, version := 2, ptype := 97, ssrc := 8, seq := 9, stamp := stamp, payload := List.replicate n 1 }
def since0 : Int := (1000 : Int) - (dom receiving (ctxDom receiving 255)).cycle
def lastOf (stamp : Nat) : Int := aheadOf receiving 255 stamp + perPacket receiving 255 - 1
theorem test_witness_PacketsReachTheJitterBuffer :
    (0 < 4 ∧ receiving.now ≤ 1000)
    ∧ (List.range 256).all (fun c => !rxLeg receiving 0 501 5004 c) = true
    ∧ (rxLeg receiving 0 500 5004 255 = true ∧ numF receiving (ctxObj 255 + 1) = 2)
    ∧ packetValid receiving 255 0 (packet 0 1) = false
    ∧ (packetValid receiving 255 0 (packet 0 (2 * perPacket receiving 255)) = true ∧ (ctxRt receiving 255).ssrc = none ∧ (ctxRt receiving 255).packets = [])
    ∧ pointOf receiving (lastOf (2 ^ 32 - 10000)) < (since0 + 2500) * domHz receiving 0
    ∧ ((since0 + 2500) * domHz receiving 0 ≤ pointOf receiving (lastOf (2 ^ 32 - 48))
      ∧ lastOf (2 ^ 32 - 48) * 1250000000 - since0 * domHz receiving 0 ≤ ((linkUs receiving 255 : Int) + 1000) * 1250 * domHz receiving 0)
    ∧ ((since0 + 2500) * domHz receiving 0 ≤ pointOf receiving (lastOf 96000)
      ∧ ((linkUs receiving 255 : Int) + 1000) * 1250 * domHz receiving 0 < lastOf 96000 * 1250000000 - since0 * domHz receiving 0) := by decide +kernel
def links : State := put [(netObj 3, 1), (ctxObj 255 + 1, 1), (ctxObj 255 + 4, 3)] State.reset
theorem test_witness_NetworkPortsAnswer :
    (255 < 256 ∧ 1 < 2 ∧ numF links (ctxObj 255 + 1) = 1 ∧ numF links (ctxObj 255 + 4) = 3)
    ∧ numF links (ctxObj 255 + 1) ≠ 0 ∧ numF links (netObj 2) = 0 ∧ numF links (netObj 3) = 1
    ∧ (let s := put [(netObj 0 + 1, 0x0A000001)] links
       portAddr s 0 = 0x0A000001 ∧ 0x0A000002 ≠ portAddr s 0)
    ∧ isOn links (netObj 3) = true ∧ isOn links (netObj 2) = false
    ∧ numF (put [(tbObj 0 + 2, 1)] links) (tbObj 0 + 2) = 3 / 2
    ∧ (3, announceOf, 2, 0) ∈ (tb (setTb links 0 { TimeBase.free with masters := [(3, announceOf, 2, 0)] }) 0).masters := by decide

/-! ### Ports, rings and the host side -/

def nonaudio (u : Obj) (muted : Nat) : State := setNa (put [((naMembers u).bits, 2), ((naMembers u).muted, muted)] State.reset) u 1 { since := 16384, fade := 5 }
theorem test_witness_TdmUnitsAnswer :
    (bit (numF (nonaudio (portObj 47) 2) (naMembers (portObj 47)).bits) 1 = 1 ∧ 16384 ≤ (naOf (nonaudio (portObj 47) 2) (portObj 47) 1).since
      ∧ bit (numF (nonaudio (portObj 47) 2) (naMembers (portObj 47)).muted) 1 = 1)
    ∧ (bit (numF (nonaudio (ctxObj 255) 0) (naMembers (ctxObj 255)).bits) 1 = 1 ∧ bit (numF (nonaudio (ctxObj 255) 0) (naMembers (ctxObj 255)).muted) 1 = 0
      ∧ 16384 ≤ (naOf (nonaudio (ctxObj 255) 0) (ctxObj 255) 1).since)
    ∧ (47 / 12 = 3 ∧ numF (put [(portObj 47 + 1, 2)] State.reset) (portObj 47 + 1) ≠ 0 ∧ 11 / 12 ≠ 3) := by decide
/-- A command pair of 8 entries, and rings of 16 entries. -/
def hosted (st : Nat) : State :=
  setPair (put [(ringObj 32 + 7, 16), (ringObj 63 + 7, 16), (ringObj 63 + 1, 2)] (bootAt 7 none true)) 15
    { CmdPair.off with entries := 8, state := st, session := 0, enable := true, sqTail := 1, sqBase := 0x1000, cqBase := 0x2000 }
theorem test_witness_DoorbellsMoveTheHostIndex :
    (15 < 16 ∧ 7 < (cmdPair (hosted 2) 15).entries ∧ (cmdPair (hosted 2) 15).entries ≤ 8) ∧ (31 < 32 ∧ 7 < (cmdPair (hosted 2) (31 - 16)).entries)
    ∧ (15 < numF (hosted 2) (ringObj 32 + 7) ∧ numF (hosted 2) (ringObj 32 + 7) ≤ 16) ∧ (15 < numF (hosted 2) (ringObj 63 + 7) ∧ numF (hosted 2) (ringObj 63 + 7) ≤ 16) := by
  decide
theorem test_witness_HostSideStops :
    (cmdPair (hosted 2) 15).state ≠ 0 ∧ (cmdPair (hosted 3) 15).state = 3 ∧ (cmdPair (hosted 4) 15).state = 4
    ∧ Instr.pcieLinkDown ∈ [Instr.pcieFunctionReset, .pcieLinkDown, .busMasterDisable] ∧ numF (hosted 2) (ringObj 63 + 1) ≠ 0 ∧ numF (hosted 2) (ringObj 63 + 1) ≠ 5
    ∧ (sess (hosted 2) (cmdPair (hosted 2) 15).session).inbox = []
    ∧ numF (hosted 2) (ringObj 32 + 1) = 0 := by decide
def keyed (x : KeySlot) : State := { bootAt 7 none true with host := { State.reset.host with keys := [(15, x)] } }
theorem test_witness_KeySlotsAreProgrammedOnce :
    (otpReady (keyed KeySlot.blank) = true ∧ (keySlot (keyed KeySlot.blank) 15).programmed = false ∧ (keySlot (keyed KeySlot.blank) 15).busy = false)
    ∧ (otpReady State.reset = false ∧ (keySlot (keyed { KeySlot.blank with programmed := true }) 15).programmed = true)
    ∧ (keySlot (keyed { KeySlot.blank with busy := true }) 15).busy = true := by decide
theorem test_witness_BarWritesReachTheRegisters :
    0xFFFFFFFF < 2 ^ 32 ∧ ¬((2 : Nat) = 4 ∧ 0x1000 % 4 = 0) ∧ ¬((4 : Nat) = 4 ∧ 0x1002 % 4 = 0) ∧ ¬((8 : Nat) = 8 ∧ 0x1004 % 8 = 0)
    ∧ 0x1008 % 8 = 0 ∧ 63 < 64 ∧ (cmdPair State.reset 15).state = 0 ∧ (cmdPair (hosted 2) 15).state ≠ 0 ∧ 0x14 < 0x18 ∧ 0x14 % 4 = 0 := by decide

/-! ### Sessions and transports -/

/-- An ODP session 0 of privilege 3 on a running engine. -/
def ready : State := put [(sob 0 0, 1), (sob 0 1, 1), (sob 0 2, 3), (ob 1 0x200 2, 1)] (bootAt 7 none true)
def withSess (n : Sess) (f : Session → Session) (s : State) : State := setSess s n (f (sess s n))
/-- The same with a command pair 3 that carries the session. -/
def overPcie : State :=
  setPair (put [(sob 0 1, 2)] ready) 3 { CmdPair.off with entries := 8, state := 2, enable := true, sqTail := 1, sqBase := 0x1000, cqBase := 0x2000 }
theorem idle_ready : Idle ready 0 := by unfold Idle; decide
theorem idle_overPcie : Idle overPcie 0 := by unfold Idle; decide
/-- A commit of session 0 in validation. -/
def pendingOf (l : List (Obj × Val)) (w : Nat) : Pending :=
  { set := l, marks := [], bank := [], since := [], factory := false, budgets := [], kind := 1, number := 2, source := 0, label := 0, session := 0, tag := 1, op := 7,
    req := { when := w, base := 0, instant := 0, label := 0 }, arrived := 0, land := [], open_ := [] }
def booting : State := { ready with boot := { ready.boot with step := 6 } }
theorem test_witness_RequestsWaitTheirTurn :
    (command 0 9 .txnBegin = some (.txnBegin 0 9) ∧ sessOpen State.reset 0 = false ∧ parsleyDead { ready with sage := { ready.sage with dead := true } } = true)
    ∧ (let s := { put [(commitObj, 1)] ready with commit := some (pendingOf [] 0) }
       sessOpen s 0 = true ∧ parsleyDead s = false ∧ atWork s 0 = true)
    ∧ Idle booting 0 ∧ startGate booting .txnBegin = false := by unfold Idle; decide
/-- A NOP of tag 5 in a submission entry, and in a datagram of session 0 under its key. -/
def fetching (st : Nat) : State :=
  { setPair overPcie 3 { cmdPair overPcie 3 with state := st } with host := { (setPair overPcie 3 { cmdPair overPcie 3 with state := st }).host with
      mem := memWrite [] 0x1000 [0x0C, 0, 5, 0] } }
def keyed0 : State := withSess 0 (fun x => { x with addr := 77, port := 88, ks := [1, 2, 3] }) ready
def signedNop : Octets := [0x4F, 0x44, 1, 0, 0, 0, 0, 1, 0, 5, 0, 0, 0, 1, 0, 0] ++ [0x0C, 0, 0, 5, 0, 0, 0, 0, 0, 0, 0, 0, 0, 0, 0, 0]
def nopDatagram : Octets := signedNop ++ (hmac [1, 2, 3] signedNop).take 16
def nopParsed : Datagram :=
  { session := 0, seq := 1, tag := 5, segment := 0, segments := 1, body := signedNop.drop 16, mac := (hmac [1, 2, 3] signedNop).take 16, signed_ := signedNop }
theorem test_witness_TransportsBringCommands :
    (let s := fetching 2
     let x := cmdPair s 3
     x.state = 2 ∧ x.enable = true ∧ x.sqHead ≠ x.sqTail ∧ x.fetched.length < cqFree x ∧ sessOpen s x.session = true ∧ parsleyDead s = false
     ∧ entryReq s (hostRead s (x.sqBase + 64 * x.sqHead) 64) = (5, .nop) ∧ command x.session 5 .nop = some (.nop 0 5))
    ∧ (cmdPair (fetching 1) 3).state ≠ 2
    ∧ (ready0 keyed0 = true ∧ datagramOf [] = none ∧ datagramOf nopDatagram = some nopParsed ∧ (sess keyed0 0).authWait = false ∧ numF keyed0 (sob 0 1) = 1)
    ∧ (sess ready 0).addr ≠ 77
    ∧ ((hmac (sess keyed0 0).ks nopParsed.signed_).take 16 = nopParsed.mac ∧ seqFits (sess keyed0 0) nopParsed.seq = true ∧ nopParsed.segments = 1
      ∧ messagesHeld keyed0 0 < 8 ∧ 16 ≤ nopParsed.body.length ∧ (sess keyed0 0).kept = [] ∧ tagKnown keyed0 0 5 = false
      ∧ ofBe (slice nopParsed.body 8 4) = nopParsed.body.length - 16 ∧ ofBe (slice nopParsed.body 2 2) = nopParsed.tag
      ∧ reqOf true (ofBe (slice nopParsed.body 0 1)) (ofBe (slice nopParsed.body 1 1)) (ofBe (slice nopParsed.body 4 4)) (ofBe (slice nopParsed.body 12 4))
          (nopParsed.body.drop 16) = .nop) := by decide +kernel
/-- Slot 4 pending for an address, with the key of slot 15. -/
def pending4 (k : KeySlot) : State :=
  let s := withSess 4 (fun x => { x with authWait := true, addr := 77, port := 88, wantPriv := 2, slot := 15, nc := [1], ne := [2] }) (keyed k)
  { s with ctl := { s.ctl with fails := [(77, 0), (77, 0)] } }
theorem test_witness_SessionsOpenByProof :
    (ready0 ready = true ∧ 77 ∈ { ready.ctl with lockout := [77] }.lockout ∧ 77 ∉ ready.ctl.lockout ∧ freeSlot ready = some 1)
    ∧ freeSlot (put ((List.range 32).map (fun n => (sob n 0, 1))) (bootAt 7 none true)) = none
    ∧ (let k := { KeySlot.blank with programmed := true, key := [5], priv := 2 }
       let s := pending4 k
       (sess s 4).authWait = true ∧ (sess s 4).addr = 77 ∧ (sess s 4).port = 88 ∧ keySlot s (sess s 4).slot = k ∧ k.programmed = true ∧ k.revoked = false
       ∧ (sess s 4).wantPriv ≤ k.priv)
    ∧ ((keySlot (pending4 KeySlot.blank) 15).programmed = false
      ∧ 2 ≤ ((pending4 KeySlot.blank).ctl.fails.filter (fun e => e.1 == 77 && decide ((pending4 KeySlot.blank).now < e.2 + 12500000000))).length) := by
  decide +kernel
def notifying (s : State) : State := withSess 0 (fun x => { x with queue := [.value 3 (ob 5 0 0x040) 1 (.num 2)] }) s
/-- Subscription 63 to a strip's member, and to a session's, whose interval runs. -/
def subscribed (o : Obj) (due : List Obj) : State :=
  withSess 0 (fun x => { x with subs := [(63, some { req := .value o 1 false 10, last := [(o, .num 5)], wait := [(o, 1)], due := due })] }) ready
theorem test_witness_SessionsNotifyAndEnd :
    (sessOpen ready 0 = true ∧ numF ready (sob 0 1) = 1 ∧ numF overPcie (sob 0 1) ≠ 1)
    ∧ ((sess (notifying ready) 0).lostNow = 0 ∧ (sess (notifying ready) 0).queue = [.value 3 (ob 5 0 0x040) 1 (.num 2)] ∧ pairOf (notifying ready) 0 = none)
    ∧ (pairOf (notifying overPcie) 0 = some 3 ∧ (cmdPair (notifying overPcie) 3).fetched.length < cqFree (cmdPair (notifying overPcie) 3)
      ∧ (notifFor (notifying overPcie) 0 false (.value 3 (ob 5 0 0x040) 1 (.num 2))).2.length ≤ 44
      ∧ cqFree { cmdPair overPcie 3 with cqTail := 7 } ≤ 0
      ∧ 44 < (notifFor overPcie 0 false (.value 3 (ob 9 0 0) 1 (.blob (List.replicate 40 0)))).2.length)
    ∧ ((sess (withSess 0 (fun x => { x with lostNow := 5 }) (notifying ready)) 0).lostNow ≠ 0)
    ∧ (tickDom (subscribed (ob 5 0 0x040) []) (ob 5 0 0x040) ≠ none ∧ tickDom (subscribed (ob 1 0x200 0) [ob 1 0x200 0]) (ob 1 0x200 0) = none
      ∧ (lookup (subscribed (ob 1 0x200 0) [ob 1 0x200 0]) (ob 1 0x200 0)).isSome = true
      ∧ (sess (subscribed (ob 1 0x200 0) [ob 1 0x200 0]) 0).queue = []) := by decide +kernel

/-! ### Requests -/

theorem test_witness_ReadsAnswerTheirValues :
    Idle ready 0 ∧ isPrivateArea (serving ready 0) 0 0xF0000000 = true ∧ isPrivateArea (serving ready 0) 0 0 = false
    ∧ namedRow (serving ready 0) 0 (ob 2 9 0) = none
    ∧ ((namedRow (serving ready 0) 0 (ob 13 0 2)).map (fun e => isWo e.2) = some true)
    ∧ ((namedRow (serving ready 0) 0 (ob 5 0 0x040)).map (fun e => isWo e.2) = some false)
    ∧ (blockNos (serving ready 0) 0 (ob 5 0 0xFFF) 2 false = none ∧ blockNos (serving ready 0) 0 (ob 5 0 0xFFF) 1 false = some [ob 5 0 0xFFF]
      ∧ blockNos (serving ready 0) 0 (ob 5 0xFFFF 0) 2 true = none) := by unfold Idle; decide +kernel
theorem test_witness_SubscriptionsAreNumbered :
    Idle ready 0 ∧ (subObjects (serving ready 0) 0 (ob 5 0 0x040) 1 false 10001).1 ≠ stOk
    ∧ (subObjects (serving ready 0) 0 (ob 5 0 0x040) 1 false 10000).1 = stOk ∧ freeSub (serving ready 0) 0 = some 0
    ∧ (1 ≤ (List.range 32).length ∧ (List.range 32).length ≤ 32) ∧ ¬(1 ≤ ([] : List Nat).length)
    ∧ Idle (subscribed (ob 5 0 0x040) []) 0 ∧ (tget (sess (subscribed (ob 5 0 0x040) []) 0).subs none 63).isSome = true
    ∧ tget (sess ready 0).subs none 63 = none
    ∧ freeSub (withSess 0 (fun x => { x with subs := (List.range 64).map (fun k => (k, some { req := .event [1], last := [], wait := [], due := [] })) }) ready) 0
        = none := by unfold Idle; decide +kernel
def txnOf (bad : Nat) (w : List (Obj × Val)) : State :=
  put [(sob 0 4, 1)] (withSess 0 (fun x => { x with txn := some { writes := w, bad := bad, start := 0 } }) ready)
theorem test_witness_TransactionsHoldTheirWrites :
    (Idle ready 0 ∧ 7 ≤ ready.boot.step ∧ inTransition ready = false ∧ (sess ready 0).txn = none)
    ∧ inTransition (put [(modeObj + 4, 1)] ready) = true
    ∧ (Idle (txnOf 0 []) 0 ∧ (sess (txnOf 0 []) 0).txn = some { writes := [], bad := stOk, start := 0 }
      ∧ (checkWrite (serving (txnOf 0 []) 0) 0 (ob 2 0 0x025) { code := 1, size := 1, val := .num 9 }).1 = stRange
      ∧ (checkWrite (serving (txnOf 0 []) 0) 0 (ob 2 0 0x025) { code := 1, size := 1, val := .num 1 }).1 = stOk
      ∧ (checkWrite (serving (txnOf 0 []) 0) 0 (ob 2 0 0x025) { code := 1, size := 1, val := .num 1 }).2.1.isSome = true
      ∧ (checkWrite (serving (txnOf 0 []) 0) 0 (ob 2 9 0) { code := 1, size := 1, val := .num 1 }).2.1 = none)
    ∧ (sess (txnOf 0 []) 0).waiting = none := by unfold Idle; decide +kernel

/-! ### Writes -/

/-- `Accepts` as a check that evaluates. -/
def accepted (s : State) (i : Instr) (n : Sess) (o : Obj) (w : Val) : Bool :=
  sessOpen s n && !(parsleyDead s) && (sess s n).inbox.isEmpty && !(atWork s n) && (decide (7 ≤ s.boot.step) || isFatal s) && (sess s n).txn.isNone
  && (lockHolder s n (baseOf o)).isNone
  && (match writeOf s i with
      | some (m, _, x, v) => m == n && (match checkWrite (serving s n) n x v with
          | (st, some e, _) => st == stOk && e.1 == o && decide (e.2 = w)
          | _ => false)
      | none => false)
theorem accepts_of_accepted {s : State} {i : Instr} {n : Sess} {o : Obj} {w : Val} (h : accepted s i n o w = true) : Accepts s i n o w := by
  unfold accepted at h
  cases hw : writeOf s i with
  | none => simp [hw] at h
  | some e =>
    obtain ⟨m, tag, x, v⟩ := e
    simp only [hw] at h
    cases hc : checkWrite (serving s n) n x v with
    | mk st e =>
      obtain ⟨e, u⟩ := e
      simp only [hc] at h
      cases e with
      | none => simp at h
      | some e =>
        simp only [Bool.and_eq_true, Bool.or_eq_true, Bool.not_eq_true', List.isEmpty_iff, beq_iff_eq, decide_eq_true_eq, Option.isNone_iff_eq_none] at h
        obtain ⟨⟨⟨⟨⟨⟨⟨h1, h2⟩, h3⟩, h4⟩, h5⟩, h6⟩, h7⟩, h8, ⟨h9, h10⟩, h11⟩ := h
        obtain ⟨o', w'⟩ := e
        subst h8; subst h9; subst h10; subst h11
        exact ⟨⟨⟨h1, h2, h3, h4⟩, h5, h6⟩, h7, tag, x, v, u, hw, hc⟩

/-- A value of a member's type. -/
def tv (o : Obj) (n : Nat) : TVal := typedOf o (.num n)
/-- SERVICE. -/
def service : State := put [(modeObj, 6)] ready
/-- A write command of a member of instance `i` is accepted with a number. -/
def okay (s : State) (i : Instr) (o : Obj) (n : Nat) : Bool := accepted s i 0 o (.num n)
/-- One state for each answer of the checks, in their order. -/
theorem test_witness_WritesAreCheckedInOrder :
    isPrivateArea ready 0 0xF0000000 = true ∧ namedRow ready 0 (ob 2 9 0) = none
    ∧ (namedRow ready 0 (ob 0 0 0)).map (fun e => isRo e.2) = some true
    ∧ (namedRow ready 0 (ob 2 0 0x025)).map (fun e => isRo e.2 || ruledOut ready e.1 || isReqMode e.1) = some false
    ∧ (let s := put [(sob 0 2, 0)] ready
       (namedRow s 0 (ob 2 0 0x025)).map (fun e => decide (privOf s 0 < needPriv 0 e.1 e.2)) = some true)
    ∧ modeForbids ready (ob 14 0 0x013) 1 = true ∧ modeForbids ready (ob 2 0 0x025) 1 = false
    ∧ inTransition (put [(modeObj + 4, 1)] ready) = true ∧ txnForbids (txnOf 0 []) 0 (commitObj + 0x011) = true
    ∧ (namedRow ready 0 (ob 2 0 0x025)).map (fun e => typeOk ready 0 e.1 e.2 { code := 4, size := 4, val := .num 1 }) = some false
    ∧ (namedRow ready 0 (ob 2 0 0x025)).map (fun e => rangeOk ready e.1 e.2 (nativeVal ready 0 e.1 (tv (ob 2 0 0x025) 9))) = some false
    ∧ (namedRow ready 0 (ob 2 0 0x025)).map (fun e => typeOk ready 0 e.1 e.2 (tv (ob 2 0 0x025) 1)
        && rangeOk ready e.1 e.2 (nativeVal ready 0 e.1 (tv (ob 2 0 0x025) 1))) = some true
    ∧ (Idle ready 0 ∧ 7 ≤ ready.boot.step ∧ (sess ready 0).txn = none
      ∧ (checkWrite (serving ready 0) 0 (ob 2 0 0x025) (tv (ob 2 0 0x025) 9)).2.1 = none
      ∧ (checkWrite (serving ready 0) 0 (ob 2 0 0x025) (tv (ob 2 0 0x025) 9)).1 = stRange) := by unfold Idle; decide +kernel
/-- A block of two members of one type, of two types, out of its instance, and with a value out of range; a session with a transaction. -/
theorem test_witness_BlocksAreWrittenWhole :
    (Idle ready 0 ∧ 7 ≤ ready.boot.step ∧ (sess ready 0).txn = none ∧ blockNos (serving ready 0) 0 (ob 5 0 0xFFF) 2 false = none)
    ∧ blockNos (serving ready 0) 0 (ob 5 0 0x202) 2 true = some [ob 5 0 0x202, ob 5 1 0x202]
    ∧ (let items := [(ob 5 0 0x202, tv (ob 5 0 0x202) 3), (ob 5 1 0x202, tv (ob 5 1 0x202) 4)]
       let a := checkAll 0 0 (serving ready 0) items
       oddType (serving ready 0) 0 items = none ∧ a.2.2 = none ∧ a.1 = [(ob 5 0 0x202, .num 3), (ob 5 1 0x202, .num 4)]
       ∧ a.1.all (fun e => areaOf e.1 != 11 && (lockHolder ready 0 (baseOf e.1)).isNone
           && (lookup ready e.1).map (fun r => !(isWo r) && goesToBank ready 0 r) == some true) = true
       ∧ (checkAll 0 0 (serving (txnOf 0 []) 0) items).2.2 = none)
    ∧ (checkAll 0 0 (serving ready 0) [(ob 2 0 0x025, tv (ob 2 0 0x025) 1), (ob 2 1 0x025, tv (ob 2 1 0x025) 9)]).2.2 = some (1, stRange)
    ∧ oddType (serving ready 0) 0 [(ob 5 0 0, tv (ob 5 0 0) 1), (ob 5 0 1, tv (ob 5 0 1) 1)] = some 1
    ∧ (sess (txnOf 0 []) 0).txn = some { writes := [], bad := stOk, start := 0 } := by unfold Idle; decide +kernel
/-- SESSION_STAGING of session 0 is on. -/
def stagingOn : State := withSess 0 (fun x => { x with staging := true }) ready
/-- Each of these writes is accepted, and its row goes to the bank. -/
theorem test_witness_StagedWritesEnterTheBank :
    (∃ n o w, Accepts stagingOn (.patchWrite 0 1 (ob 3 0 0x100) (tv (ob 3 0 0x100) 0x8001)) n o w)
    ∧ (∃ n o w, Accepts ready (.imageWrite 0 1 5 (typedOf (ob 9 5 0) (.blob []))) n o w)
    ∧ (∃ n o w, Accepts ready (.placementListWrite 0 1 0x1050 true (typedOf (ob 9 0x1050 10) (.blob []))) n o w)
    ∧ (∃ n o w, Accepts ready (.write 0 1 (ob 11 255 0x00C) (tv (ob 11 255 0x00C) (2 ^ 63))) n o w)
    ∧ (∃ n o w, Accepts ready (.write 0 1 (ob 11 255 5) (tv (ob 11 255 5) 7)) n o w)
    ∧ (∃ n o w, Accepts ready (.write 0 1 (ob 5 0 0x202) (tv (ob 5 0 0x202) 3)) n o w)
    ∧ (lookup stagingOn (ob 3 0 0x100)).map (fun r => !(isWo r) && goesToBank stagingOn 0 r) = some true
    ∧ [ob 9 5 0, ob 9 0x1050 10, ob 11 255 0x00C, ob 11 255 5, ob 5 0 0x202].all (fun o =>
        (lookup ready o).map (fun r => !(isWo r) && goesToBank ready 0 r) == some true) = true
    ∧ valNat (stagedVal ready (baseOf (ob 11 255 5) + 4)) = 0 ∧ valNat (stagedVal (put [(ob 11 255 4, 1)] ready) (baseOf (ob 11 255 5) + 4)) ≠ 0 := by
  refine ⟨⟨0, ob 3 0 0x100, .num 0x8001, accepts_of_accepted ?_⟩, ⟨0, ob 9 5 0, .blob [], accepts_of_accepted ?_⟩,
    ⟨0, ob 9 0x1050 10, .blob [], accepts_of_accepted ?_⟩, ⟨0, ob 11 255 0x00C, .num (2 ^ 63), accepts_of_accepted ?_⟩,
    ⟨0, ob 11 255 5, .num 7, accepts_of_accepted ?_⟩, ⟨0, ob 5 0 0x202, .num 3, accepts_of_accepted ?_⟩, ?_⟩ <;> decide +kernel
theorem test_witness_LiveWritesLandInTheirDomain :
    (∃ n o w, Accepts ready (.patchWrite 0 1 (ob 3 0 0x100) (tv (ob 3 0 0x100) 0x8001)) n o w)
    ∧ (∃ n o w, Accepts ready (.sessionStagingWrite 0 1 0 (tv (commitObj + 0x010) 1)) n o w)
    ∧ (∃ n o w, Accepts ready (.write 0 1 (ob 1 0x200 0) (tv (ob 1 0x200 0) 100)) n o w)
    ∧ (∃ n o w, Accepts ready (.nodeLiveWrite 0 1 0 0 (tv (ob 6 0 0x800) 0)) n o w)
    ∧ (∃ n o w, Accepts ready (.write 0 1 (ob 5 0 0x040) (tv (ob 5 0 0x040) 1)) n o w)
    ∧ [ob 3 0 0x100, commitObj + 0x010, ob 1 0x200 0, ob 6 0 0x800, ob 5 0 0x040].all (fun o =>
        (lookup ready o).map (fun r => !(isWo r) && !(goesToBank ready 0 r)) == some true) = true
    ∧ noDomain (ob 1 0x200 0) = true ∧ noDomain (ob 6 0 0x800) = false ∧ noDomain (ob 5 0 0x040) = false := by
  refine ⟨⟨0, ob 3 0 0x100, .num 0x8001, accepts_of_accepted ?_⟩, ⟨0, commitObj + 0x010, .num 1, accepts_of_accepted ?_⟩, ⟨0, ob 1 0x200 0, .num 100, accepts_of_accepted ?_⟩,
    ⟨0, ob 6 0 0x800, .num 0, accepts_of_accepted ?_⟩, ⟨0, ob 5 0 0x040, .num 1, accepts_of_accepted ?_⟩, ?_⟩ <;> decide +kernel
def stepping : State := put [(tbObj 3 + 0x10, 4)] ready
theorem test_witness_ClockAndStreamWritesAct :
    Accepts ready (.revert 0 1 3 (tv (ob 2 3 0x00B) 1)) 0 (ob 2 3 0x00B) (.num 1)
    ∧ Accepts ready (.realign 0 1 3 (tv (ob 2 3 0x025) 1)) 0 (ob 2 3 0x025) (.num 1)
    ∧ Accepts stepping (.stepAccept 0 1 (0x10 + 3) (tv (tbObj 3 + 7) 1)) 0 (tbObj 3 + 7) (.num 1)
    ∧ Accepts stepping (.stepReject 0 1 (0x10 + 3) (tv (tbObj 3 + 7) 2)) 0 (tbObj 3 + 7) (.num 2)
    ∧ (freeContext ready 0 = some 0 ∧ Accepts ready (.rxOpen 0 1 0x200 (tv (ob 4 0x200 0x080) 8)) 0 (ob 4 0x200 0x080) (.num 8))
    ∧ (freeContext ready 0x100 = some 0x100 ∧ Accepts ready (.txOpen 0 1 0x200 (tv (ob 4 0x200 0x081) 8)) 0 (ob 4 0x200 0x081) (.num 8))
    ∧ Accepts (put [(ringObj 63 + 1, 5)] ready) (.restart 0 1 (0x300 + 63) (tv (ringObj 63 + 0x00E) 1)) 0 (ringObj 63 + 0x00E) (.num 1) := by
  refine ⟨accepts_of_accepted ?_, accepts_of_accepted ?_, accepts_of_accepted ?_, accepts_of_accepted ?_, ⟨?_, accepts_of_accepted ?_⟩,
    ⟨?_, accepts_of_accepted ?_⟩, accepts_of_accepted ?_⟩ <;> decide +kernel
theorem test_witness_SessionsCloseAndTheBankIsReset :
    Idle ready 0 ∧ pairOf overPcie 0 = some 3
    ∧ (sessOpen (put [(sob 31 0, 1)] ready) 31 = true ∧ Accepts (put [(sob 31 0, 1)] ready) (.closeSession 0 1 (0x100 + 31) (tv (sob 31 0x00A) 1)) 0 (sob 31 0x00A) (.num 1))
    ∧ Accepts ready (.factory 0 1 0x200 (tv (ob 1 0x200 6) 1)) 0 (ob 1 0x200 6) (.num 1)
    ∧ Accepts ready (.discard 0 1 0 (tv (commitObj + 0x011) 1)) 0 (commitObj + 0x011) (.num 1) := by
  refine ⟨idle_ready, ?_, ⟨?_, accepts_of_accepted ?_⟩, accepts_of_accepted ?_, accepts_of_accepted ?_⟩ <;> decide +kernel
/-- A staged value, and a held version to go back to. -/
def versioned (mode : Nat) : State :=
  let v : Version := { number := 1, parent := 0, source := 0, kind := 1, mode := mode, rate := rate0 ready, frame := 0, time := 0, changes := 0,
                       persisted := 2, label := 0, session := 0, conf := [] }
  { put [(commitObj + 1, 2)] ready with ver := { ready.ver with dir := [{ v with number := 2, parent := 1 }, v] } }
def staged (s : State) : State := { s with dict := { s.dict with bank := [(ob 5 0 0x202, .num 3)] } }
def nowReq (w : Nat) : CommitReq := { when := w, base := 0, instant := 0, label := 4 }
def scheduled : State := { put [(commitObj, 2)] ready with commit := some (pendingOf [] 0) }
theorem test_witness_CommitsStartValidation :
    (Idle ready 0 ∧ 7 ≤ ready.boot.step)
    ∧ badCommit (serving ready 0) (nowReq 3) = true ∧ badCommit (serving ready 0) (nowReq 0) = false
    ∧ (Idle (put [(sob 0 2, 0)] ready) 0 ∧ firstChecks (serving (put [(sob 0 2, 0)] ready) 0) 0 (nowReq 0) ≠ stOk)
    ∧ (firstChecks (serving (staged ready) 0) 0 (nowReq 0) = stOk ∧ changeSet (serving (staged ready) 0) = [(ob 5 0 0x202, .num 3)])
    ∧ rollbackTarget (serving ready 0) = none
    ∧ (Idle (staged (versioned 1)) 0 ∧ firstChecks (serving (staged (versioned 1)) 0) 0 (nowReq 0) = stOk
      ∧ (rollbackTarget (serving (staged (versioned 1)) 0)).map (·.number) = some 1 ∧ changeSet (serving (staged (versioned 1)) 0) ≠ [])
    ∧ ((rollbackTarget (serving (versioned 2) 0)).map (·.mode) = some 2 ∧ changeSet (serving (versioned 2) 0) = [] ∧ 2 ≠ modeNow (versioned 2))
    ∧ ((rollbackTarget (serving (versioned 1) 0)).map (fun x => (x.mode, x.rate)) = some (modeNow (versioned 1), rate0 (versioned 1))
      ∧ changeSet (serving (versioned 1) 0) = [] ∧ firstChecks (serving (versioned 1) 0) 0 (nowReq 0) = stOk)
    ∧ Accepts scheduled (.cancel 0 1 0 (tv (commitObj + 0x012) 1)) 0 (commitObj + 0x012) (.num 1)
    ∧ Accepts service (.renumber 0 1 0 (tv (commitObj + 0x013) 1)) 0 (commitObj + 0x013) (.num 1) := by
  refine ⟨⟨idle_ready, ?_⟩, ?_, ?_, ⟨by unfold Idle; decide, ?_⟩, ?_, ?_, ⟨by unfold Idle; decide, ?_⟩, ?_, ?_, accepts_of_accepted ?_, accepts_of_accepted ?_⟩ <;> decide +kernel
/-- A commit in validation: of nothing, of a configuration whose domain 1 has a rate of a higher class than domain 0, and of a staged value. -/
def validating (s : State) (l : List (Obj × Val)) : State := { put [(commitObj, 1)] s with commit := some (pendingOf l 0) }
def tooFast1 : State := validating (put [(ob 2 1 0, 1), (ob 2 1 2, 5)] ready) []
theorem test_witness_ValidationDecidesTheCommit :
    (commitState (validating ready []) = 1 ∧ (sess (validating ready []) 0).inbox = [] ∧ emptyCommit (validating ready []) (pendingOf [] 0) = true)
    ∧ (commitState tooFast1 = 1 ∧ tooFast1.commit = some (pendingOf [] 0) ∧ emptyCommit tooFast1 (pendingOf [] 0) = false
      ∧ ∃ f, (validate tooFast1 (giveSignals (revive (configWith tooFast1 []))).1 (giveSignals (revive (configWith tooFast1 []))).2).2 = some f)
    ∧ commitState (put [(commitObj, 4)] service) = 4
    ∧ ({ ready.ver with writing := (versioned 1).ver.dir.head? }.writing.isSome = true ∧ (versioned 1).ver.dir.head?.isSome = true) := by
  refine ⟨by decide +kernel, ⟨by decide, by decide, by decide +kernel, validate_of_step1 _ _ _ (by decide +kernel)⟩, by decide, by decide⟩
theorem test_witness_SystemWritesAct :
    (Accepts ready (.clear 0 1 (ob 5 0 0x6FF) (tv (ob 5 0 0x6FF) 1)) 0 (ob 5 0 0x6FF) (.num 1)
      ∧ clears (ob 5 0 0x6FF) ≠ [] ∧ areaOf (ob 5 0 0x6FF) ≠ 1 ∧ noDomain (ob 5 0 0x6FF) = false)
    ∧ (Accepts ready (.clear 0 1 (ob 11 7 0x00B) (tv (ob 11 7 0x00B) 1)) 0 (ob 11 7 0x00B) (.num 1)
      ∧ clears (ob 11 7 0x00B) ≠ [] ∧ areaOf (ob 11 7 0x00B) ≠ 1 ∧ noDomain (ob 11 7 0x00B) = true)
    ∧ Accepts ready (.clear 0 1 (ob 1 0x200 7) (tv (ob 1 0x200 7) 1)) 0 (ob 1 0x200 7) (.num 1)
    ∧ (Accepts (put [(modeObj + 2, 3)] ready) (.reqMode 0 1 0 (tv (modeObj + 3) 2)) 0 (modeObj + 3) (.num 2) ∧ 2 ≠ modeNow ready)
    ∧ Accepts ready (.reqMode 0 1 0 (tv (modeObj + 3) 6)) 0 (modeObj + 3) (.num 6)
    ∧ Accepts (put [(capObj + 0x010, 1), (capObj + 1, 2)] ready) (.rbGo 0 1 0x400 (tv (capObj + 0x016) 1)) 0 (capObj + 0x016) (.num 1)
    ∧ (Accepts (put [(dramObj 1, 1)] service) (.setpoint 0 1 (0x100 + 1) (tv (dramObj 1 + 3) 1)) 0 (dramObj 1 + 3) (.num 1)
      ∧ training (put [(dramObj 1, 1)] service) = true)
    ∧ (Accepts service (.setpoint 0 1 (0x100 + 1) (tv (dramObj 1 + 3) 1)) 0 (dramObj 1 + 3) (.num 1) ∧ training service = false)
    ∧ Accepts service (.train 0 1 (0x100 + 1) (tv (dramObj 1 + 6) 1)) 0 (dramObj 1 + 6) (.num 1)
    ∧ Accepts (put [(faultObj, 1)] ready) (.recover 0 1 0 (tv (faultObj + 2) 1)) 0 (faultObj + 2) (.num 1)
    ∧ Accepts service (.logClear 0 1 0 (tv (faultObj + 0x010) 1)) 0 (faultObj + 0x010) (.num 1)
    ∧ Accepts service (.fullTest 0 1 0 (tv (faultObj + 0x011) 1)) 0 (faultObj + 0x011) (.num 1)
    ∧ Accepts ready (.tempClear 0 1 0 (tv (ob 0 0 0x032) 1)) 0 (ob 0 0 0x032) (.num 1)
    ∧ (Accepts service (.fwData 0 1 0 (typedOf (ob 0 0 0x021) (.blob [1, 2]))) 0 (ob 0 0 0x021) (.blob [1, 2]) ∧ numF service (ob 0 0 0x020) = 0)
    ∧ Accepts service (.fwVerify 0 1 0 (tv (ob 0 0 0x022) 1)) 0 (ob 0 0 0x022) (.num 1)
    ∧ Accepts (put [(pairObj + 3, 1), (pairObj + 4, 3)] ready) (.handover 0 1 0 (tv (pairObj + 7) 1)) 0 (pairObj + 7) (.num 1) := by
  refine ⟨⟨accepts_of_accepted ?_, ?_⟩, ⟨accepts_of_accepted ?_, ?_⟩, accepts_of_accepted ?_, ⟨accepts_of_accepted ?_, ?_⟩, accepts_of_accepted ?_, accepts_of_accepted ?_,
    ⟨accepts_of_accepted ?_, ?_⟩, ⟨accepts_of_accepted ?_, ?_⟩, accepts_of_accepted ?_, accepts_of_accepted ?_, accepts_of_accepted ?_,
    accepts_of_accepted ?_, accepts_of_accepted ?_, ⟨accepts_of_accepted ?_, ?_⟩, accepts_of_accepted ?_, accepts_of_accepted ?_⟩ <;> decide +kernel
/-- Session 1 holds the instance of strip `k` and waits for another. -/
def lockedBy1 (k : Nat) (s : State) : State :=
  { withSess 1 (fun x => { x with waiting := some { op := 2, tag := 1, obj := 0, writes := [], want := [ob 5 9 0], since := 0 } }) s with
    ctl := { (withSess 1 (fun x => { x with waiting := some { op := 2, tag := 1, obj := 0, writes := [], want := [ob 5 9 0], since := 0 } }) s).ctl with
      locks := [{ inst := ob 5 k 0, owner := 1, until_ := 0 }] } }
def waitingFor (l : List Nat) : State :=
  withSess 0 (fun x => { x with waiting := some { op := 2, tag := 7, obj := ob 5 0 0x202, writes := [(ob 5 0 0x202, .num 3)], want := l, since := 0 } }) ready
theorem test_witness_LocksOrderTheWrites :
    (Idle ready 0 ∧ 7 ≤ ready.boot.step ∧ (sess ready 0).txn = none)
    ∧ (Idle (txnOf stRange []) 0 ∧ (sess (txnOf stRange []) 0).txn = some { writes := [], bad := stRange, start := 0 })
    ∧ (Idle (put [(modeObj + 4, 1)] (txnOf 0 [])) 0 ∧ inTransition (put [(modeObj + 4, 1)] (txnOf 0 [])) = true)
    ∧ (let s := txnOf 0 [(ob 5 0 0x202, .num 3)]
       Idle s 0 ∧ inTransition s = false ∧ isFatal s = false ∧ areaOf (ob 5 0 0x202) ≠ 11
       ∧ (lookup s (ob 5 0 0x202)).map (fun r => !(isWo r) && goesToBank s 0 r) = some true ∧ lockHolder s 0 (baseOf (ob 5 0 0x202)) = none)
    ∧ (let s := lockedBy1 0 (txnOf 0 [(ob 5 0 0x202, .num 3)])
       Idle s 0 ∧ lockHolder s 0 (baseOf (ob 5 0 0x202)) = some 1)
    ∧ (let s := lockedBy1 0 ready
       (7 ≤ s.boot.step ∧ (sess s 0).txn = none) ∧ lockHolder s 0 (baseOf (ob 5 0 0x202)) = some 1
       ∧ (checkWrite (serving s 0) 0 (ob 5 0 0x202) (tv (ob 5 0 0x202) 3)).1 = stOk
       ∧ (checkWrite (serving s 0) 0 (ob 5 0 0x202) (tv (ob 5 0 0x202) 3)).2.1 = some (ob 5 0 0x202, .num 3))
    ∧ isFatal (put [(faultObj, 1)] (txnOf 0 [(ob 5 0 0x202, .num 3)])) = true
    ∧ (inTransition (put [(modeObj + 4, 1)] (waitingFor [ob 5 0 0])) = true
      ∧ (sess (put [(modeObj + 4, 1)] (waitingFor [ob 5 0 0])) 0).waiting.map (·.writes) = some [(ob 5 0 0x202, .num 3)])
    ∧ (let s := lockedBy1 0 (waitingFor [ob 5 0 0])
       lockHolder s 0 (ob 5 0 0) = some 1 ∧ (sess s 1).waiting.isSome = true)
    ∧ (sessOpen (waitingFor [ob 5 0 0]) 0 = true ∧ ((sess (waitingFor [ob 5 0 0]) 0).waiting.map (·.want)) = some [ob 5 0 0]
      ∧ (sess (waitingFor [ob 5 0 0]) 0).inbox = [] ∧ lockHolder (waitingFor [ob 5 0 0]) 0 (ob 5 0 0) = none)
    ∧ (let s := lockedBy1 1 (waitingFor [ob 5 0 0, ob 5 1 0])
       (sess s 0).waiting.map (·.want) = some [ob 5 0 0, ob 5 1 0] ∧ ob 5 0 0 ≠ ob 5 1 0 ∧ lockHolder s 0 (ob 5 0 0) = none
       ∧ lockHolder s 0 (ob 5 1 0) = some 1) := by unfold Idle; decide +kernel

/-! ### Ticks, phases and fades -/

/-- Domain 3 runs in period `p`, in a mode. -/
def ticking (p : Nat) (mode : Nat) : State :=
  { put [(ob 2 3 1, 2), (ob 2 3 0x14, p), (modeObj, mode)] ready with doms := [(3, { Domain.idle with running := true, fresh := false })] }
/-- Port 47 of domain 3 with two slots, at a life-cycle state and with a request, in period 5; budget entry 255 is of the same domain. -/
def porting (st : Nat) (r : Option Bool) : State :=
  let s := put [(portObj 47 + 1, st), (portObj 47 + 2, 3), (portObj 47 + 4, 2), (entryObj 255 + 1, 0x27), (entryObj 255 + 3, 3)] (ticking 5 1)
  setLife { s with pins := { s.pins with ownN := false } } (portObj 47) { Life.rest with request := r }
theorem test_witness_TicksAndPhasesRunTheirFrames :
    (dom ready 3).running = false ∧ (dom (ticking 5 1) 3).running = true
    ∧ numF (put [(modeObj + 4, 3)] (ticking 5 1)) (modeObj + 4) = 3 ∧ numF (ticking 5 1) (modeObj + 4) ≠ 3
    ∧ ((ticking 5 1).commit = none ∧ (ticking 5 1).dict.landing = [] ∧ (ticking 5 1).sage.faults = [] ∧ (ticking 5 1).xbar.arbs = [])
    ∧ (ownerDom (porting 2 (some false)) (portObj 47) = 3 ∧ unitState (porting 2 (some false)) (portObj 47) = 2
      ∧ (life (porting 2 (some false)) (portObj 47)).request = some false ∧ (life (porting 0 (some true)) (portObj 47)).request = some true
      ∧ unitState (porting 0 (some true)) (portObj 47) = 0 ∧ unitState (porting 3 none) (portObj 47) = 3 ∧ (life (porting 3 none) (portObj 47)).drain ≤ 1
      ∧ ownerDom (porting 2 none) (entryObj 255) = 3)
    ∧ (servedFrame .ingest (frameOf (porting 2 none) 3) = some 4 ∧ numF (porting 2 none) (portObj 47 + 2) = 3
      ∧ delivers (porting 2 none) (portObj 47) 4 = true ∧ 1 < numF (porting 2 none) (portObj 47 + 4) ∧ (tdmPort (porting 2 none) 47).faultK = none
      ∧ portSends (porting 2 none) 47 = true ∧ portSends (porting 0 none) 47 = false ∧ (outletOf (porting 2 none) (portObj 47 + 0x100 + 1)).stage = 0
      ∧ ownerDom (porting 2 none) (portObj 47 + 0x100 + 1) = 3
      ∧ numF (porting 2 none) (pairObj + 8) ≠ 2 ∧ (porting 2 none).pair.giving = false ∧ isFatal (porting 2 none) = false)
    ∧ (1 ≤ frameOf (ticking 1 1) 3 ∧ Phase.bus ∈ [Phase.ingest, .strip, .cross, .bus, .matrix2, .matrixP] ∧ servedFrame .bus 1 = some 0)
    ∧ (2 ≤ frameOf (ticking 2 1) 3 ∧ Phase.egress ∈ [Phase.output, .egress] ∧ servedFrame .egress 2 = some 0 ∧ servedFrame .egress 1 = none)
    ∧ (let s := put [(modeObj + 4, 3)] { put [(ob 2 3 1, 2)] ready with doms := [(3, { Domain.idle with resume := true, fresh := false })] }
       haltedEgress s 3 .egress = true)
    ∧ haltedEgress ready 3 .egress = false
    ∧ modeNow (ticking 5 5) = 5 ∧ modeNow (ticking 5 6) = 6 ∧ Phase.egress ≠ .background
    ∧ (dom { ready with doms := [(0, { Domain.idle with running := true })] } 0).running = true := by decide
def copying : State :=
  { ready with dict := { ready.dict with copying := [3], held := [(3, { dom := 3, frame := 9, sample := 0, obj := ob 5 0 0x040, val := .num 1, commit := false })] } }
theorem test_witness_CutOffsAndTickSidesComplete :
    ((dom (ticking 5 1) 3).running = true ∧ areaOf (ob 8 2047 0) = 8)
    ∧ (areaOf (ob 5 0x3FF 0) = 5 ∧ instOf (ob 5 0x3FF 0) < 0x400 ∧ memOf (ob 5 0x3FF 0) ≠ 0x054)
    ∧ memOf (ob 5 0x3FF 0x054) = 0x054 ∧ (areaOf (ob 7 (0x200 + 383) 3) = 7 ∧ 0x200 ≤ instOf (ob 7 (0x200 + 383) 3) ∧ memOf (ob 7 (0x200 + 383) 3) ≠ 4)
    ∧ (shortEntryOf (ticking 5 1) 3 (entryObj 255) = some (entryObj 255) ∧ areaOf (entryObj 255) = 11)
    ∧ (areaOf (ob 6 0xFF 0) = 6 ∧ instOf (ob 6 0xFF 0) < 0x100)
    ∧ copying.dict.held = [(3, { dom := 3, frame := 9, sample := 0, obj := ob 5 0 0x040, val := .num 1, commit := false })]
    ∧ unitState (put [(portObj 47 + 1, 3)] ready) (portObj 47) = 3 ∧ unitState (put [(ob 2 0x1FF 4, 1)] ready) (ob 2 (0x100 + 255) 0) = 1
    ∧ unitState (put [(ob 2 0x1FF 4, 2)] ready) (ob 2 (0x100 + 255) 0) = 2 ∧ unitState ready (ob 2 (0x100 + 255) 0) ≠ 1 ∧ unitState ready (ob 2 (0x100 + 255) 0) ≠ 2 := by decide
def fading (c : CoreX) (x : SelX) : State := putUnit ready (ob 5 7 0) { UnitRt.fresh with core := some c, input := some x }
def coreOf (k : Nat) (held : List (Obj × Val)) : CoreX := { k := k, n := 64, old := UnitRt.fresh.path, vals := [], held := held }
def selOf (k : Nat) (held : Option Nat) : SelX := { k := k, n := 64, old := 1, new := 2, held := held }
def firFading (k : Nat) (h : Option (List Int)) (x : SelX) : State :=
  putOut (put [(ob 7 0x37F 0x010, 1)] ready) (ob 7 (0x200 + 383) 0)
    { OutRt.fresh with taps := [1, 2], firx := some (selOf k none, [3], h), lim := { LimRt.fresh with onx := some x } }
theorem test_witness_CrossfadesEndAndHeldChangesStart :
    ((unitRt (fading (coreOf 63 []) (selOf 63 none)) (ob 5 7 0)).core = some (coreOf 63 []) ∧ (coreOf 63 []).k < (coreOf 63 []).n)
    ∧ ((unitRt (fading (coreOf 64 []) (selOf 64 none)) (ob 5 7 0)).core = some (coreOf 64 []) ∧ (coreOf 64 []).n ≤ (coreOf 64 []).k ∧ (coreOf 64 []).held = [])
    ∧ ((coreOf 64 [(ob 5 7 0x202, .num 9)]).held = [(ob 5 7 0x202, .num 9)] ∧ Val.num 9 ≠ forceVal (fading (coreOf 64 [(ob 5 7 0x202, .num 9)]) (selOf 64 none)) (ob 5 7 0x202))
    ∧ ((unitRt (fading (coreOf 64 []) (selOf 64 (some 3))) (ob 5 7 0)).input = some (selOf 64 (some 3)) ∧ (selOf 64 (some 3)).held = some 3 ∧ 3 ≠ (selOf 64 (some 3)).new)
    ∧ (let s := firFading 64 (some [5]) (selOf 64 none)
       (outRt s (ob 7 (0x200 + 383) 0)).firx = some (selOf 64 none, [3], some [5]) ∧ isOn s (ob 7 (0x200 + 383) 0 + 0x010) = true
       ∧ (outRt s (ob 7 (0x200 + 383) 0)).fdip = none ∧ [5] ≠ (outRt s (ob 7 (0x200 + 383) 0)).taps ∧ [5].length ≤ 2048 / unitClass s (ob 7 (0x200 + 383) 0)
       ∧ (outRt s (ob 7 (0x200 + 383) 0)).taps.length ≤ 2048 / unitClass s (ob 7 (0x200 + 383) 0))
    ∧ ((outRt (firFading 64 none (selOf 64 (some 3))) (ob 7 (0x200 + 383) 0)).firx = some (selOf 64 none, [3], none)
      ∧ (outRt (firFading 63 none (selOf 64 (some 3))) (ob 7 (0x200 + 383) 0)).lim.onx = some (selOf 64 (some 3)))
    ∧ (let s := putRamp ready (ob 6 0x17F 1023) { start := 0, target := 5, pos := 4, len := 4, law := 0, active := true }
       (rampOf s (ob 6 0x17F 1023)).active = true ∧ (rampOf s (ob 6 0x17F 1023)).len ≤ (rampOf s (ob 6 0x17F 1023)).pos)
    ∧ (let s := putRamp ready (ob 6 0x17F 1023) { start := 0, target := 5, pos := 3, len := 4, law := 0, active := true }
       (rampOf s (ob 6 0x17F 1023)).pos < (rampOf s (ob 6 0x17F 1023)).len) := by decide +kernel
def dipOf (st : Nat) : Dip := { stage := st, k := 32, next := 12, held := none }
def dipping (st : Nat) : State :=
  putOut (putUnit ready (ob 5 0x3FF 0) { UnitRt.fresh with delay := { UnitRt.fresh.delay with dip := some (dipOf st) } }) (ob 7 (0x200 + 0x17F) 0)
    { OutRt.fresh with delay := { OutRt.fresh.delay with dip := some (dipOf st) }, lim := { LimRt.fresh with dip := some (dipOf st) }, fdip := some (dipOf st, [7]) }
def patching (st p : Nat) : State := setOutlet ready (ob 3 0 0x100) { OutletRt.idle with carried := 1, pending := p, stage := st, k := 32 }
def gated (o : Bool) (h : Nat) : State :=
  putUnit (put [(unitObj 1 + 1, 0)] ready) (ob 5 0 0) { UnitRt.fresh with path := { UnitRt.fresh.path with
    gate := { UnitRt.fresh.path.gate with isOpen := o, hold := h, level := -2 ^ 80 }
    comp := { UnitRt.fresh.path.comp with isOpen := o, hold := h, level := -2 ^ 80 } } }
theorem test_witness_DipsPassThroughSilence :
    ((unitRt (dipping 1) (ob 5 0x3FF 0)).delay.dip = some (dipOf 1) ∧ 32 ≤ (dipOf 1).k ∧ (dipOf 1).stage = 1)
    ∧ ((unitRt (dipping 2) (ob 5 0x3FF 0)).delay.dip = some (dipOf 2) ∧ (dipOf 2).stage = 2 ∧ (dipOf 2).held = none)
    ∧ ((outRt (dipping 1) (ob 7 (0x200 + 0x17F) 0)).delay.dip = some (dipOf 1) ∧ (outRt (dipping 1) (ob 7 (0x200 + 0x17F) 0)).lim.dip = some (dipOf 1)
      ∧ (outRt (dipping 1) (ob 7 (0x200 + 0x17F) 0)).fdip = some (dipOf 1, [7]))
    ∧ (32 ≤ (outletOf (patching 1 9) (ob 3 0 0x100)).k ∧ (outletOf (patching 1 9) (ob 3 0 0x100)).stage = 1 ∧ (outletOf (patching 1 9) (ob 3 0 0x100)).pending ≠ 0)
    ∧ ((outletOf (patching 1 0) (ob 3 0 0x100)).stage = 1 ∧ (outletOf (patching 1 0) (ob 3 0 0x100)).pending = 0)
    ∧ (outletOf (patching 2 0) (ob 3 0 0x100)).stage = 2
    ∧ (servedBy (gated true 0) 0 = ob 5 0 0 ∧ servedBy (gated true 0) 1 = ob 5 0 0 ∧ numF (gated true 0) (unitObj 0 + 1) = 0 ∧ numF (gated true 0) (unitObj 1 + 1) = 0
      ∧ (unitRt (gated true 0) (ob 5 0 0)).path.gate.isOpen = true ∧ (unitRt (gated true 0) (ob 5 0 0)).path.gate.hold = 0
      ∧ (unitRt (gated true 0) (ob 5 0 0)).path.comp.isOpen = true)
    ∧ 0 < (unitRt (gated true 1) (ob 5 0 0)).path.gate.hold
    ∧ (let l := newView (unitRt (gated true 0) (ob 5 0 0))
       let th := fun k => (gateOf l (gated true 0) (unitObj k) (domHz (gated true 0) (ownerDom (gated true 0) (unitObj k)))).1
         - (gateOf l (gated true 0) (unitObj k) (domHz (gated true 0) (ownerDom (gated true 0) (unitObj k)))).2.1
       seen l (gated true 0) (unitObj 0 + 1) = 0 ∧ seen l (gated true 0) (unitObj 1 + 1) = 0
       ∧ (unitRt (gated true 0) (ob 5 0 0)).path.gate.level < th 0 ∧ (unitRt (gated true 0) (ob 5 0 0)).path.comp.level < th 1) := by decide +kernel

/-! ### Worked examples of the spec -/

/-- The object number of strip 18's trim (00_scope.md). -/
theorem test_object_number : ob 5 0x12 0x040 = 0x50012040 := by decide
/-- DIVIDER of a frame of 640 bits at 48 kHz (the example of 14_tdm_ports.md). -/
theorem test_divider : divider 640 1 = 0x06666666 := by decide
/-- The check value of the CRC-32 of IEEE 802.3, over the digits 1 to 9 (R223). -/
theorem test_crc32 : crc32 (ascii "123456789") = 0xCBF43926 := by decide +kernel
/-- SHA-256 of the three letters abc, from FIPS 180-4: its first octets. -/
theorem test_sha256 : (sha256 (ascii "abc")).take 4 = [0xBA, 0x78, 0x16, 0xBF] := by decide +kernel
/-- The static curve of the compressor example (08_dynamics_and_limiting.md), in ten-thousandths of a dB. -/
theorem test_compressor_curve :
    ([-30, -23, -20, -10] : List Int).map (fun l => compGain (-20 * fxOne) (fxOne / 4) (6 * fxOne) (l * fxOne) * 10000 / fxOne)
      = [0, 0, -5625, -75000] := by decide +kernel
/-- Four strip-slot programs of a lane: the bounds of the worked budget (02_frame_tick_and_budgets.md). -/
theorem test_lane_bounds : placementBounds (List.replicate 4 (1840, 2, 1)) = [1920, 1840, 1840, 1904] := by decide
/-- AUTO budgets of the worked budget (02_frame_tick_and_budgets.md). -/
theorem test_auto_budgets : [264, 560, 3072, 4096, 12288, 66].map autoBudget = [297, 630, 3456, 4608, 13824, 75] := by decide
/-- Bundles of the biquad cascade with their words (05_lane_instruction_set.md). -/
theorem test_bundles :
    decodeBundle 9 0xA0500000548071A0
      = some { ctl := some (.loop 9 1 6), ops := [.ld 9 .ld0 5 1 .none, .ld 9 .ls1 12 3 .inc] }
    ∧ decodeBundle 9 0x0001802000000000 = some { ctl := none, ops := [.mpy 9 .sc 0 0 8] }
    ∧ decodeBundle 9 0x0000806400009480 = some { ctl := none, ops := [.mac 9 .sc 0 1 9, .st 9 5 1 .none] }
    ∧ decodeBundle 9 0x000080EC44204CA0
      = some { ctl := none, ops := [.mac 9 .sc 0 3 11, .ld 9 .ld0 1 0 .inc, .ld 9 .ls1 3 1 .inc] }
    ∧ decodeBundle 9 0x0000817048400000 = some { ctl := none, ops := [.mac 9 .sc 0 5 12, .ld 9 .ld0 2 0 .dec] }
    ∧ decodeBundle 9 0x0002280000000000 = some { ctl := none, ops := [.ext 9 5 0 .q823 .rn 0] }
    ∧ decodeBundle 9 0x1000000000009E60 = some { ctl := some (.halt 9), ops := [.st 9 7 4 .plusM] } := by decide
/-- The control operations of the biquad cascade: its 21 bundles take E + 6 + 2 cycles with E = 462 (05_lane_instruction_set.md). -/
theorem test_biquad_bound :
    boundOf (([some (Instr.lset 9 0 8), some (Instr.loop 9 0 15), none, none, none, some (Instr.lset 9 1 8), some (Instr.loop 9 1 6)]
      ++ List.replicate 13 none ++ [some (Instr.halt 9)]).map (fun c => some { ctl := c, ops := [] })) = some 470 := by decide +kernel
/-- IDCODE: step B0, 0x9600, Limah's identity 0x3A7, and 1 (R465). -/
theorem test_idcode : bits idcode 31 28 = 1 ∧ bits idcode 27 12 = 0x9600 ∧ bits idcode 11 1 = 0x3A7 ∧ bits idcode 0 0 = 1 := by decide
/-- The accepted step of the festival example leaves a phase of 2.6 us modulo one sample (13_network_time.md). -/
theorem test_phase_of_a_step : phaseNs (nearestPhase ready 0 (finePhase (fine (-37002600)))) = -2600 := by decide +kernel
/-- The order of the blocks (06_channel_strips_and_patching.md): in ORDER_C the EQ follows the compressor. -/
theorem test_order_c : coreOrder 2 = ([.filters], [], [.eq, .insert]) := by decide
/-- The heatsink of the stage rack: 0.465 degrees per watt (21_pins_package_electrical.md). -/
theorem test_heatsink : heatsinkLimit 85 42 50 = 465 := by decide
/-- Data of the stage box miss the rising edge after 3 H and meet the falling one after 6 H (21_pins_package_electrical.md). -/
theorem test_sdi_late : sdiInTime 15260 18000 = false ∧ sdiInTime 30520 18000 = true := by decide
end Sys2Proof.Tests
end

section
/-!
PROOFS. Lanes and the totality of `exec`: a command answers a next state unless it names a lane that the part does not have
(01_engine_overview.md, R16; 95_what_each_step_holds.md).
-/
namespace Sys2Proof.EngineOverview
open Machine

/-! ### Outcomes that are a next state -/

/-- The outcome is a next state: no stop, no refusal. -/
def Answers (o : Host.Outcome State Fault Refusal) : Prop := ∃ t, o = .next t

theorem answers_next (t : State) : Answers (.next t) := ⟨t, rfl⟩

theorem answers_ite {c : Prop} [Decidable c] {a b : Host.Outcome State Fault Refusal} (ha : Answers a) (hb : Answers b) :
    Answers (if c then a else b) := by
  split
  · exact ha
  · exact hb

/-- An event with an occasion: its effect where the occasion is given, and another state (mostly the same one) where it is not (log
entry 3). -/
theorem answers_guarded {c : Prop} [Decidable c] {t u : State} : Answers (if c then .next t else .next u) :=
  answers_ite (answers_next t) (answers_next u)

/-- A condition that holds decides a conditional outcome. -/
theorem answers_ite_pos {c : Prop} [Decidable c] {a b : Host.Outcome State Fault Refusal} (h : c) (ha : Answers a) :
    Answers (if c then a else b) := (if_pos h).symm ▸ ha

/-! ### Lane commands (R16) -/

/-- The lane that a well-formed command names is one of the 256. -/
theorem lane_lt {i : Instr} {n : Nat} (w : wellFormed i = true) (e : Laws.Sized.lanes i = [n]) : n < 256 := by
  cases i with
  | programStart | nopBundle | halt | lset | loop | bld | mac | msu | mpy | ext | acc | adda | suba | sha | clr | add | sub | asr | asl
  | abs | neg | mov | mvi | mvs | mvr | max | min | mxclr | and | or | xor | ld | st | xmod =>
    obtain ⟨rfl, -⟩ := List.cons.inj e
    simp only [wellFormed, Bool.and_eq_true, decide_eq_true_eq] at w
    omega
  | _ => cases e

/-- Settles O8: the check of the lane number comes before anything else that the six commands do. -/
theorem lanesEndAt255 : Obligations.LanesEndAt255 := by
  intro s n hn
  have h : ¬ n < 256 := Nat.not_lt.mpr hn
  exact ⟨fun _ => if_neg h, if_neg h, if_neg h, fun _ _ _ _ => if_neg h,
    fun _ _ _ _ => if_neg h, fun _ _ _ => if_neg h⟩

/-! ### Commands with more than one occasion -/

theorem execHalt_answers {n : Nat} {s : State} (h : n < 256) : Answers (execHalt n s) := by
  refine answers_ite_pos h ?_
  dsimp only
  split
  · exact answers_next _
  · exact answers_next _

theorem execLaneBudgetStop_answers {t l : Nat} {ph : Phase} {s : State} (h : t < 16 ∧ l < 16) : Answers (execLaneBudgetStop t l ph s) :=
  answers_ite (answers_next _) (answers_ite_pos h (answers_next _))

theorem execKnownAnswerTestEnd_answers {t l : Nat} {pass : Bool} {s : State} (h : t < 16 ∧ l < 16) :
    Answers (execKnownAnswerTestEnd t l pass s) := by
  refine answers_ite_pos h ?_
  split
  · exact answers_next _
  · exact answers_next _

theorem execFirmwareLoaded_answers (ready : Bool) (s : State) : Answers (execFirmwareLoaded ready s) := by
  unfold execFirmwareLoaded
  split
  · exact answers_guarded
  · exact answers_next _

theorem execSubscriptionIntervalEnd_answers (n sub : Nat) (o : Obj) (s : State) : Answers (execSubscriptionIntervalEnd n sub o s) := by
  unfold execSubscriptionIntervalEnd
  dsimp only
  split
  · exact answers_next _
  · exact answers_next _

theorem execNotifySend_answers (n : Sess) (s : State) : Answers (execNotifySend n s) := by
  refine answers_ite ?_ (answers_next _)
  split
  · exact answers_next _
  · dsimp only
    split
    · exact answers_ite (answers_next _) answers_guarded
    · exact answers_next _

theorem execOdpDatagramReceived_answers (addr port : Nat) (b : Octets) (s : State) : Answers (execOdpDatagramReceived addr port b s) := by
  refine answers_ite (answers_next _) ?_
  split
  · exact answers_next _
  · exact answers_ite (answers_next _) (answers_ite (answers_next _) (answers_ite (answers_next _) answers_guarded))

theorem execLockAcquired_answers (n : Sess) (s : State) : Answers (execLockAcquired n s) := by
  unfold execLockAcquired
  split
  · split
    · exact answers_guarded
    · exact answers_next _
  · exact answers_next _

theorem execLockTimeout_answers (n : Sess) (s : State) : Answers (execLockTimeout n s) := by
  unfold execLockTimeout
  split
  · exact answers_next _
  · exact answers_next _

theorem execCommitValidationEnd_answers (s : State) : Answers (execCommitValidationEnd s) := by
  unfold execCommitValidationEnd
  split
  · exact answers_next _
  · exact answers_next _

theorem execCrossbarRequest_answers (m id a beats d : Nat) (data : Option Octets) (s : State) :
    Answers (execCrossbarRequest m id a beats d data s) := by
  refine answers_ite (answers_next _) ?_
  split
  · exact answers_next _
  · exact answers_ite (answers_next _) (answers_ite (answers_next _) answers_guarded)

theorem execPriorityPreemption_answers (t m done : Nat) (s : State) : Answers (execPriorityPreemption t m done s) := by
  unfold execPriorityPreemption
  split
  · exact answers_guarded
  · exact answers_next _

theorem execReadDataReturn_answers (m id : Nat) (s : State) : Answers (execReadDataReturn m id s) := by
  unfold execReadDataReturn
  split
  · exact answers_next _
  · exact answers_next _

/-- A write of the flags that the chip target cannot take at once is a request like any other. -/
theorem execFlagAliasWrite_answers (m : Nat) (set : Bool) (a : Nat) (data : Octets) (s : State) :
    Answers (execFlagAliasWrite m set a data s) :=
  answers_ite (answers_next _)
    (answers_ite (answers_ite (answers_next _) (execCrossbarRequest_answers _ _ _ _ _ _ _)) answers_guarded)

theorem execCrosspointTestEnd_answers (mac : Nat) (pass : Bool) (s : State) : Answers (execCrosspointTestEnd mac pass s) := by
  unfold execCrosspointTestEnd
  split
  · exact answers_next _
  · exact answers_guarded

theorem execFwProgramDone_answers (s : State) : Answers (execFwProgramDone s) := by
  unfold execFwProgramDone
  split
  · exact answers_next _
  · exact answers_next _

theorem execLinkTestEnd_answers (bad : List Nat) (s : State) : Answers (execLinkTestEnd bad s) := by
  unfold execLinkTestEnd
  split
  · exact answers_next _
  · exact answers_guarded

/-! ### Every command -/

/-- Every well-formed command answers a next state: a lane command because its lane is one of the 256, an event because each of its
branches is a next state. -/
theorem exec_answers {i : Instr} (s : State) (w : wellFormed i = true) : Answers (exec i s) := by
  cases i with
  -- The commands of a lane, whose first question is whether it exists.
  | programStart | nopBundle | lset | loop | mac | msu | mpy | ext | acc | adda | suba | sha | clr | add | sub | asr | asl | abs | neg | mov
  | mvi | mvs | mvr | max | min | mxclr | and | or | xor | ld | st | xmod => exact answers_ite_pos (lane_lt w rfl) (answers_next _)
  | bld =>
    have h := lane_lt w rfl
    exact answers_ite (answers_ite_pos h (answers_next _)) (answers_ite_pos h (answers_next _))
  | halt => exact execHalt_answers (lane_lt w rfl)
  -- Errors of a lane of a tile.
  | laneBudgetStop => exact execLaneBudgetStop_answers (by simpa [wellFormed] using w)
  | laneResidueError => exact answers_ite_pos (by simpa [wellFormed] using w) (answers_next _)
  | knownAnswerTestEnd => exact execKnownAnswerTestEnd_answers (by simpa [wellFormed] using w)
  -- Events with one occasion.
  | resetNRelease | bootCheckTimeout | startUpDone | domainFreeRunTimeout | dpllLocked | dpllSlewDone | referenceGlitch | glitchHoldEnd
  | rateGateEnd | delayReqSend | ptpMasterLost | holdLimitExpired | legLost | rateFitUpdate | networkLinkChange | nonaudioCleared
  | submissionFetch | delayDipFadeEnd | dramAlertRelease | fwVerifyDone | rsmFrameError | exportAckReceived | leaseExpired
  | orphanTakeToken | referenceFirstEdge => exact answers_guarded
  -- Events with more than one.
  | dramTrainingDone => exact answers_ite (answers_next _) (answers_ite (answers_next _) answers_guarded)
  | emergencyRequest => exact answers_ite answers_guarded answers_guarded
  | referenceEdgeMissing | auth | exportItemReceived | standbyTakeover => exact answers_ite answers_guarded (answers_next _)
  | firmwareLoaded => exact execFirmwareLoaded_answers _ s
  | subscriptionIntervalEnd => exact execSubscriptionIntervalEnd_answers _ _ _ s
  | notifySend => exact execNotifySend_answers _ s
  | odpDatagramReceived => exact execOdpDatagramReceived_answers _ _ _ s
  | lockAcquired => exact execLockAcquired_answers _ s
  | lockTimeout => exact execLockTimeout_answers _ s
  | commitValidationEnd => exact execCommitValidationEnd_answers s
  | crossbarRequest => exact execCrossbarRequest_answers _ _ _ _ _ _ s
  | priorityPreemption => exact execPriorityPreemption_answers _ _ _ s
  | readDataReturn => exact execReadDataReturn_answers _ _ s
  | flagAliasWrite => exact execFlagAliasWrite_answers _ _ _ _ s
  | crosspointTestEnd => exact execCrosspointTestEnd_answers _ _ s
  | fwProgramDone => exact execFwProgramDone_answers s
  | linkTestEnd => exact execLinkTestEnd_answers _ s
  -- The meaning of every other command is one next state.
  | _ => exact answers_next _

/-- Settles O7, by the cases of the command. -/
theorem wellFormedCommandsComplete : Obligations.WellFormedCommandsComplete := fun _ s w => exec_answers s w

end Sys2Proof.EngineOverview
end

section
/-!
PROOFS. The TDM units: the detector of non-audio payloads (R323), muting windows (R324) and the loss of a bank's supply (R27, R309).
-/
namespace Sys2Proof.EngineOverview
open Machine Claims

/-! ### Objects -/

@[simp] theorem areaOf_portObj_add {p m : Nat} (hp : p < 48) (hm : m < 2 ^ 12) : areaOf (portObj p + m) = 3 := by
  unfold areaOf portObj ob; omega

@[simp] theorem areaOf_ctxObj_add {c m : Nat} (hc : c < 256) (hm : m < 2 ^ 12) : areaOf (ctxObj c + m) = 4 := by
  unfold areaOf ctxObj ob; omega

theorem areaOf_portObj {p : Nat} (hp : p < 48) : areaOf (portObj p) = 3 := areaOf_portObj_add (m := 0) hp (by decide)

theorem areaOf_ctxObj {c : Nat} (hc : c < 256) : areaOf (ctxObj c) = 4 := areaOf_ctxObj_add (m := 0) hc (by decide)

theorem instOf_portObj {p : Nat} (hp : p < 48) : instOf (portObj p) = p := by
  unfold instOf portObj ob; omega

theorem instOf_ctxObj {c : Nat} (hc : c < 256) : instOf (ctxObj c) = c := by
  unfold instOf ctxObj ob; omega

/-- Members of two ports coincide only where port and member do. -/
theorem portObj_add_inj {p q m k : Nat} (hm : m < 2 ^ 12) (hk : k < 2 ^ 12) : portObj p + m = portObj q + k ↔ p = q ∧ m = k := by
  unfold portObj ob
  change (_ : Nat) = _ ↔ _
  omega

@[simp] theorem portObj_inj {p q : Nat} : portObj p = portObj q ↔ p = q := by
  simpa using portObj_add_inj (p := p) (q := q) (m := 0) (k := 0) (by decide) (by decide)

theorem stateObj_portObj {p : Nat} (hp : p < 48) : stateObj (portObj p) = portObj p + 1 := by
  simp [stateObj, areaOf_portObj hp]

/-! ### What an event leaves as it was -/

/-- From `s` to `t` at most events have been queued: the members outside the service area (area 1), the detectors, the balls and the
fault manager are the same. -/
structure Quietly (s t : State) : Prop where
  members : ∀ o, areaOf o ≠ 1 → numF t o = numF s o
  na      : t.na = s.na
  pins    : t.pins = s.pins
  sage    : t.sage = s.sage

theorem Quietly.refl (s : State) : Quietly s s := ⟨fun _ _ => rfl, rfl, rfl, rfl⟩

theorem quietly_raise (s : State) (c : Nat) (o : Obj) (a : Nat) : Quietly s (raise s c o a) := by
  have h : Fixes (fun p => [Part.force, .sess].contains p) s (raise s c o a) := parts_raise (.refl _ s) (fun p hp => by simpa using hp)
  exact ⟨fun _ ho => numF_raise s c o a _ ho, h .na rfl, h .pins rfl, h .sage rfl⟩

theorem quietly_ite {s a b : State} {c : Prop} [Decidable c] (ha : Quietly s a) (hb : Quietly s b) : Quietly s (if c then a else b) := by
  split
  · exact ha
  · exact hb

/-! ### The detector of non-audio payloads (R323, R324) -/

@[simp] theorem naOf_setNa_self (s : State) (u : Obj) (k : Nat) (x : NaDet) : naOf (setNa s u k x) u k = x := tget_tput_self _ _ _ _

@[simp] theorem naOf_setN (s : State) (o n : Nat) (u : Obj) (k : Nat) : naOf (setN s o n) u k = naOf s u k := rfl

@[simp] theorem numF_setNa (s : State) (u : Obj) (k : Nat) (x : NaDet) (o : Obj) : numF (setNa s u k x) o = numF s o := rfl

theorem Quietly.naOf {s t : State} (h : Quietly s t) (u : Obj) (k : Nat) : naOf t u k = naOf s u k := by
  unfold Machine.naOf; rw [h.na]

/-- A unit with a detector: a TDM port or a receive context. -/
def Detects (u : Obj) : Prop := (∃ p, p < 48 ∧ u = portObj p) ∨ ∃ c, c < 256 ∧ u = ctxObj c

/-- NONAUDIO and NA_MUTED are two members of the unit's own area. -/
theorem Detects.members {u : Obj} (h : Detects u) :
    areaOf (naMembers u).bits ≠ 1 ∧ areaOf (naMembers u).muted ≠ 1 ∧ (naMembers u).bits ≠ (naMembers u).muted := by
  obtain ⟨p, hp, rfl⟩ | ⟨c, hc, rfl⟩ := h
  · simp [naMembers, areaOf_portObj hp, areaOf_portObj_add hp]
  · simp [naMembers, areaOf_ctxObj hc, areaOf_ctxObj_add hc]

/-- The detection of pair `k` ends: its bit is clear, and the event is raised. -/
def detectionEnded (s : State) (u : Obj) (k : Nat) : State :=
  raise (setN s (naMembers u).bits (clearBit (numF s (naMembers u).bits) k)) ((naMembers u).code + 1) u k

/-- A muted pair is muted no more, and fades in from its first sample. -/
def pairUnmuted (s : State) (u : Obj) (k : Nat) (x : NaDet) : State :=
  setNa (setN s (naMembers u).muted (clearBit (numF s (naMembers u).muted) k)) u k { x with fade := 0 }

theorem execNonaudioCleared_eq {s : State} {u : Obj} {k : Nat} (hb : bit (numF s (naMembers u).bits) k = 1) (hs : 16384 ≤ (naOf s u k).since) :
    execNonaudioCleared u k s = .next (if bit (numF (detectionEnded s u k) (naMembers u).muted) k = 1
      then pairUnmuted (detectionEnded s u k) u k (naOf s u k) else detectionEnded s u k) := if_pos ⟨hb, hs⟩

theorem detectionEnded_quietly (s : State) (u : Obj) (k : Nat) :
    Quietly (setN s (naMembers u).bits (clearBit (numF s (naMembers u).bits) k)) (detectionEnded s u k) := quietly_raise _ _ _ _

/-- NONAUDIO_CLEARED clears the pair's bit, unmutes a muted pair with a fade-in from its first sample, and leaves another as it is. -/
theorem nonaudioCleared_gives {s : State} {u : Obj} {k : Nat} (hu : Detects u) (hb : bit (numF s (naMembers u).bits) k = 1)
    (hs : 16384 ≤ (naOf s u k).since) :
    Gives (.nonaudioCleared u k) s (fun t => numF t (naMembers u).bits = clearBit (numF s (naMembers u).bits) k
      ∧ (bit (numF s (naMembers u).muted) k = 1 → numF t (naMembers u).muted = clearBit (numF s (naMembers u).muted) k ∧ (naOf t u k).fade = 0)
      ∧ (bit (numF s (naMembers u).muted) k = 0 → numF t (naMembers u).muted = numF s (naMembers u).muted ∧ naOf t u k = naOf s u k)) := by
  obtain ⟨hbits, hmuted, hne⟩ := hu.members
  have q := detectionEnded_quietly s u k
  have ebits : numF (detectionEnded s u k) (naMembers u).bits = clearBit (numF s (naMembers u).bits) k := by
    rw [q.members _ hbits, numF_setN_self]
  have emuted : numF (detectionEnded s u k) (naMembers u).muted = numF s (naMembers u).muted := by
    rw [q.members _ hmuted, numF_setN_other _ _ _ _ hne.symm]
  have ena : naOf (detectionEnded s u k) u k = naOf s u k := q.naOf u k
  refine ⟨_, execNonaudioCleared_eq hb hs, ?_⟩
  rw [emuted]
  by_cases h : bit (numF s (naMembers u).muted) k = 1
  · rw [if_pos h]
    refine ⟨?_, fun _ => ⟨?_, ?_⟩, fun h0 => absurd h (by rw [h0]; decide)⟩
    · rw [pairUnmuted, numF_setNa, numF_setN_other _ _ _ _ hne, ebits]
    · rw [pairUnmuted, numF_setNa, numF_setN_self, emuted]
    · rw [pairUnmuted, naOf_setNa_self]
  · rw [if_neg h]
    exact ⟨ebits, fun h1 => absurd h1 h, fun _ => ⟨emuted, ena⟩⟩

/-! ### Muting windows (R324) -/

theorem mutingWindowEnd_port_gives {s : State} {p : Nat} (hp : p < 48) :
    Gives (.mutingWindowEnd (portObj p)) s (fun t => (tdmPort t p).window = false ∧ ∀ q, q ≠ p → tdmPort t q = tdmPort s q) := by
  refine ⟨setPort s p { tdmPort s p with window := false }, ?_, ?_⟩
  · exact congrArg _ ((if_pos (areaOf_portObj hp)).trans (by rw [instOf_portObj hp]))
  · exact ⟨by rw [tdmPort_setPort_back], fun q hq => tdmPort_setPort_other s p _ q hq⟩

theorem mutingWindowEnd_ctx_gives {s : State} {c : Nat} (hc : c < 256) :
    Gives (.mutingWindowEnd (ctxObj c)) s (fun t => (ctxRt t c).window = false ∧ ∀ q, q ≠ c → ctxRt t q = ctxRt s q) := by
  have h : areaOf (ctxObj c) ≠ 3 := by rw [areaOf_ctxObj hc]; decide
  refine ⟨setCtx s c { ctxRt s c with window := false }, ?_, ?_⟩
  · exact congrArg _ ((if_neg h).trans (by rw [instOf_ctxObj hc]; rfl))
  · exact ⟨by rw [ctxRt_setCtx_back], fun q hq => ctxRt_setCtx_other s c _ q hq⟩

/-! ### The supply of a bank (R27, R309) -/

/-- The ports of bank `b`. -/
def bankPorts (b : Nat) : List Nat := (List.range 12).map (12 * b + ·)

@[simp] theorem mem_bankPorts {b p : Nat} : p ∈ bankPorts b ↔ p / 12 = b := by
  simp only [bankPorts, List.mem_map, List.mem_range]
  constructor
  · rintro ⟨i, hi, rfl⟩
    omega
  · intro h
    exact ⟨p % 12, by omega, by omega⟩

/-- A value written to a member of each unit in a list reads back at these members, and no other member changes. -/
theorem numF_foldl_setN (f : Nat → Obj) (n : Nat) (o : Obj) (l : List Nat) (s : State) :
    numF (l.foldl (fun t p => setN t (f p) n) s) o = if o ∈ l.map f then n else numF s o := by
  induction l generalizing s with
  | nil => rfl
  | cons p r ih =>
    rw [List.foldl_cons, ih]
    by_cases h : o = f p
    · subst h; simp
    · simp [h, numF_setN_other _ _ _ _ h]

/-- Writes of members leave the balls. -/
theorem pins_foldl_setN (f : Nat → Obj) (n : Nat) (l : List Nat) (s : State) : (l.foldl (fun t p => setN t (f p) n) s).pins = s.pins := by
  induction l generalizing s with
  | nil => rfl
  | cons p r ih => exact ih _

/-- A port lets its balls go, and the next tick of its domain faults it. -/
def portReleased (s : State) (p : Nat) : State := setSdo (setClk (faultDue s (portObj p)) p .hiZ) p []

theorem mem_addOnce {l : List Nat} {x y : Nat} : y ∈ addOnce l x ↔ y = x ∨ y ∈ l := by
  unfold addOnce
  split
  · next h =>
    have hx : x ∈ l := by simpa using h
    exact ⟨.inr, fun e => e.elim (fun e => e ▸ hx) id⟩
  · exact List.mem_cons

theorem mem_faults_foldl_portReleased (l : List Nat) (s : State) (o : Obj) :
    o ∈ (l.foldl portReleased s).sage.faults ↔ o ∈ l.map portObj ∨ o ∈ s.sage.faults := by
  induction l generalizing s with
  | nil => simp
  | cons p r ih =>
    have h : (portReleased s p).sage.faults = addOnce s.sage.faults (portObj p) := rfl
    rw [List.foldl_cons, ih, h, mem_addOnce, List.map_cons, List.mem_cons, or_left_comm, or_assoc]

theorem sdo_foldl_portReleased (l : List Nat) (s : State) (p : Nat) :
    tget (l.foldl portReleased s).pins.sdo [] p = if p ∈ l then [] else tget s.pins.sdo [] p := by
  induction l generalizing s with
  | nil => rfl
  | cons q r ih =>
    have h : (portReleased s q).pins.sdo = tput s.pins.sdo [] q [] := rfl
    rw [List.foldl_cons, ih, h]
    by_cases hq : p = q
    · subst hq; simp
    · simp [hq, tget_tput_other _ _ _ _ hq]

theorem tdmClk_foldl_portReleased (l : List Nat) (s : State) (p : Nat) :
    tget (l.foldl portReleased s).pins.tdmClk .low p = if p ∈ l then .hiZ else tget s.pins.tdmClk .low p := by
  induction l generalizing s with
  | nil => rfl
  | cons q r ih =>
    have h : (portReleased s q).pins.tdmClk = tput s.pins.tdmClk .low q .hiZ := rfl
    rw [List.foldl_cons, ih, h]
    by_cases hq : p = q
    · subst hq; simp
    · simp [hq, tget_tput_other _ _ _ _ hq]

/-- Neither a member nor the list of failed banks changes as ports let their balls go. -/
theorem foldl_portReleased_frame (l : List Nat) (s : State) :
    (l.foldl portReleased s).dict = s.dict ∧ (l.foldl portReleased s).pins.bankFault = s.pins.bankFault := by
  induction l generalizing s with
  | nil => exact ⟨rfl, rfl⟩
  | cons p r ih => exact ih _

/-- The ports of bank `b` that are not OFF. -/
def enabledPorts (b : Nat) (s : State) : List Nat := (bankPorts b).filter (fun p => numF s (portObj p + 1) != 0)

theorem mem_enabledPorts {b p : Nat} {s : State} : p ∈ enabledPorts b s ↔ p / 12 = b ∧ numF s (portObj p + 1) ≠ 0 := by
  simp [enabledPorts]

/-- The bank's failure is noted, and BANK_LEVEL of its ports reads 0. -/
def bankLevelsLost (b : Nat) (s : State) : State :=
  (bankPorts b).foldl (fun t p => setN t (portObj p + 0x013) 0) { s with pins := { s.pins with bankFault := addOnce s.pins.bankFault b } }

/-- The enabled ports of a bank without supply have let their balls go. -/
def bankReleased (b : Nat) (s : State) : State := (enabledPorts b s).foldl portReleased (bankLevelsLost b s)

theorem execBankSupplyFault_eq (b : Nat) (s : State) :
    execBankSupplyFault b s = .next (if (enabledPorts b s).isEmpty then bankReleased b s
      else raise (bankReleased b s) 0x3003 (portObj (12 * b)) b) := rfl

/-- BANK_LEVEL of the bank's ports reads 0, and every other member is as before. -/
theorem numF_bankReleased (b : Nat) (s : State) (o : Obj) :
    numF (bankReleased b s) o = if o ∈ (bankPorts b).map (fun p => portObj p + 0x013) then 0 else numF s o := by
  have h : numF (bankReleased b s) o = numF (bankLevelsLost b s) o :=
    numF_congr (congrArg Dict.force (foldl_portReleased_frame _ _).1) o
  rw [h, bankLevelsLost, numF_foldl_setN]
  rfl

theorem bankLevelsLost_pins (b : Nat) (s : State) :
    (bankLevelsLost b s).pins = { s.pins with bankFault := addOnce s.pins.bankFault b } := pins_foldl_setN _ _ _ _

theorem mem_bankLevel_iff {b p : Nat} : portObj p + 0x013 ∈ (bankPorts b).map (fun q => portObj q + 0x013) ↔ p / 12 = b := by
  simp

theorem state_not_mem_bankLevel {b p : Nat} : portObj p + 1 ∉ (bankPorts b).map (fun q => portObj q + 0x013) := by
  simp [portObj_add_inj]

/-- BANK_SUPPLY_FAULT: the levels of the bank's ports read 0, and exactly its enabled ports let their balls go and are faulted at the next
tick of their domain, their STATE being the same until then. -/
theorem bankSupplyFault_gives (b : Nat) (s : State) :
    Gives (.bankSupplyFault b) s (fun t => b ∈ t.pins.bankFault ∧ ∀ p, p < 48 →
      numF t (portObj p + 1) = numF s (portObj p + 1)
      ∧ (p / 12 = b → numF t (portObj p + 0x013) = 0
        ∧ (numF s (portObj p + 1) ≠ 0 → tget t.pins.sdo [] p = [] ∧ tget t.pins.tdmClk .low p = .hiZ ∧ portObj p ∈ t.sage.faults))
      ∧ (p / 12 ≠ b → numF t (portObj p + 0x013) = numF s (portObj p + 0x013)
        ∧ tget t.pins.sdo [] p = tget s.pins.sdo [] p ∧ tget t.pins.tdmClk .low p = tget s.pins.tdmClk .low p)) := by
  refine ⟨_, execBankSupplyFault_eq b s, ?_⟩
  have q := quietly_ite (c := (enabledPorts b s).isEmpty = true) (.refl (bankReleased b s)) (quietly_raise _ 0x3003 (portObj (12 * b)) b)
  dsimp only
  rw [q.pins, q.sage]
  have hsdo := fun p => sdo_foldl_portReleased (enabledPorts b s) (bankLevelsLost b s) p
  have hclk := fun p => tdmClk_foldl_portReleased (enabledPorts b s) (bankLevelsLost b s) p
  rw [bankLevelsLost_pins] at hsdo hclk
  refine ⟨?_, fun p hp => ?_⟩
  · rw [bankReleased, (foldl_portReleased_frame _ _).2, bankLevelsLost_pins]
    exact mem_addOnce.mpr (.inl rfl)
  have hstate : areaOf (portObj p + 1) ≠ 1 := by rw [areaOf_portObj_add hp (by decide)]; decide
  have hlevel : areaOf (portObj p + 0x013) ≠ 1 := by rw [areaOf_portObj_add hp (by decide)]; decide
  rw [q.members _ hstate, q.members _ hlevel, numF_bankReleased, numF_bankReleased, if_neg state_not_mem_bankLevel]
  refine ⟨rfl, fun hb => ⟨if_pos (mem_bankLevel_iff.mpr hb), fun hon => ?_⟩, fun hb => ⟨if_neg (mt mem_bankLevel_iff.mp hb), ?_, ?_⟩⟩
  · have hmem : p ∈ enabledPorts b s := mem_enabledPorts.mpr ⟨hb, hon⟩
    exact ⟨(hsdo p).trans (if_pos hmem), (hclk p).trans (if_pos hmem),
      (mem_faults_foldl_portReleased _ _ _).mpr (.inl (List.mem_map_of_mem hmem))⟩
  · exact (hsdo p).trans (if_neg fun h => hb (mem_enabledPorts.mp h).1)
  · exact (hclk p).trans (if_neg fun h => hb (mem_enabledPorts.mp h).1)

/-! ### A fault that stops a port at a tick (R27) -/

/-- What follows a port's entry in a state leaves every member. -/
theorem numF_unitEntered_port {s : State} {p st : Nat} (hp : p < 48) (o : Obj) : numF (unitEntered s (portObj p) st) o = numF s o := by
  have e : unitEntered s (portObj p) st = portEntered s p st := by
    simp [unitEntered, areaOf_portObj hp, instOf_portObj hp]
  have h : Fixes (fun p => [Part.tdm, .audio, .pins].contains p) s (portEntered s p st) :=
    parts_portEntered (.refl _ s) (fun p hp => by simpa using hp)
  rw [e]
  exact numF_congr (h .force rfl) o

theorem unitState_faultUnit {s : State} {u : Obj} (hu : areaOf (stateObj u) ≠ 1) (h : unitState s u ≠ 0) : unitState (faultUnit s u) u = 5 := by
  unfold faultUnit
  rw [if_neg h]
  exact unitState_moveUnit s u 5 hu

/-- A port that is not OFF is FAULTED by the tick that serves its fault. -/
theorem stopFaulted_port {s : State} {p : Nat} (hp : p < 48) (h : numF s (portObj p + 1) ≠ 0) :
    numF (stopFaulted s (portObj p)) (portObj p + 1) = 5 := by
  have hs : stateObj (portObj p) = portObj p + 1 := stateObj_portObj hp
  have hst : unitState s (portObj p) = numF s (portObj p + 1) := by rw [unitState, hs]
  by_cases h5 : numF s (portObj p + 1) = 5
  · rw [stopFaulted, if_pos (.inr (hst.trans h5)), h5]
  · rw [stopFaulted, if_neg (by rw [hst]; exact not_or.mpr ⟨h, h5⟩), numF_unitEntered_port hp, ← hs]
    exact unitState_faultUnit (by rw [hs, areaOf_portObj_add hp (by decide)]; decide) (hst ▸ h)

/-- Settles O36, clause by clause. -/
theorem tdmUnitsAnswer : Obligations.TdmUnitsAnswer := fun s =>
  ⟨fun _ _ hu hb hs => nonaudioCleared_gives hu hb hs, fun _ hp => mutingWindowEnd_port_gives hp,
   fun _ hc => mutingWindowEnd_ctx_gives hc, fun b _ => bankSupplyFault_gives b s, fun _ hp h => stopFaulted_port hp h⟩

end Sys2Proof.EngineOverview
end

section
/-!
PROOFS. Errors that stop the part or a lane: the fault log, FATAL (R400, R411), the end of the full test (R405), the die temperature (R461) and
the stop of a lane at its budget (R49, R128).
-/
namespace Sys2Proof.EngineOverview
open Machine Claims

/-- The parts in a list, as those that may change. -/
theorem covers_contains (l : List Part) : Covers l (fun p => l.contains p) := fun p hp => by simpa using hp

/-! ### The fault log -/

theorem areaOf_faultObj_add {m : Nat} (hm : m < 2 ^ 12) : areaOf (faultObj + m) = 13 := by
  unfold areaOf faultObj ob; omega

theorem areaOf_faultObj : areaOf faultObj = 13 := areaOf_faultObj_add (m := 0) (by decide)

section
variable (s : State) (x : Test) (cls action : Nat) (u : Obj) (b : Bool)

/-- A log entry changes the members from the sequence number on. -/
theorem numF_writeLog_below {o : Obj} (ho : areaOf o ≠ 1) (h : o < faultObj + 3) : numF (writeLog s x cls action u b) o = numF s o := by
  have h3 : o ≠ faultObj + 3 := Nat.ne_of_lt h
  have h4 : o ≠ faultObj + 4 + cls := Nat.ne_of_lt (Nat.lt_trans h (Nat.lt_add_right cls (by decide)))
  have h8 : o ≠ faultObj + 8 := Nat.ne_of_lt (Nat.lt_trans h (by decide))
  unfold writeLog
  simp only [apply_ite (numF · o), numF_raise _ _ _ _ _ ho, numF_bump_other _ _ _ h4, numF_bump_other _ _ _ h8, numF_setN_other _ _ _ _ h3, ite_self]
  rfl

/-- An untested entry counts at its own counter, beside the one of its class. -/
theorem numF_writeLog_untested (hcls : cls ≤ 2) : numF (writeLog s x cls action u true) (faultObj + 8) = numF s (faultObj + 8) + 1 := by
  have ho : areaOf (faultObj + 8) ≠ 1 := by decide
  have h3 : faultObj + 8 ≠ faultObj + 3 := by decide
  have h4 : faultObj + 8 ≠ faultObj + 4 + cls := by change (_ : Nat) ≠ _; omega
  unfold writeLog
  simp only [apply_ite (numF · (faultObj + 8)), numF_raise _ _ _ _ _ ho, if_true, numF_bump_self, numF_bump_other _ _ _ h4,
    numF_setN_other _ _ _ _ h3, ite_self]
  rfl

theorem queue_writeLog : (writeLog s x cls action u b).sage.queue = s.sage.queue := by
  unfold writeLog
  simp only [apply_ite State.sage, (quietly_raise _ _ _ _).sage, bump_sage, setN_sage, ite_self]

theorem isFatal_writeLog : isFatal (writeLog s x cls action u b) = isFatal s := by
  unfold isFatal isOn
  rw [numF_writeLog_below s x cls action u b (by decide) (by decide)]

end

/-! ### FATAL (R400) -/

section
variable (s : State) (x : Test)

theorem fatal_of_isFatal {s : State} (h : isFatal s = true) : fatal s x = writeLog s x 3 7 0 false := if_pos h

/-- What the first FATAL error sets: FATAL, its source, and the fades of every domain. -/
theorem fatal_first {s : State} (h : isFatal s = false) :
    isFatal (fatal s x) = true ∧ numF (fatal s x) (faultObj + 1) = x.source ∧ (fatal s x).sage.fadeDue = [0, 1, 2, 3] := by
  unfold fatal
  rw [if_neg (by rw [h]; decide)]
  refine ⟨?_, ?_, ?_⟩
  · unfold isFatal isOn
    rw [numF_raise _ _ _ _ _ (by decide), numF_setN_other _ _ _ _ (by decide), numF_setN_self]
    rfl
  · rw [numF_raise _ _ _ _ _ (by decide), numF_setN_self]
  · rw [(quietly_raise _ _ _ _).sage]
    rfl

theorem isFatal_fatal : isFatal (fatal s x) = true := by
  cases h : isFatal s with
  | false => exact (fatal_first x h).1
  | true => rw [fatal_of_isFatal x h, isFatal_writeLog, h]

theorem pins_fatal : (fatal s x).pins = s.pins := by
  have h : Fixes (fun p => [Part.aon, .force, .sess, .sage, .pair].contains p) s (fatal s x) := parts_fatal (.refl _ s) (covers_contains _)
  exact h .pins rfl

end

theorem lockstepMismatch_gives (s : State) (pc : Nat) : Gives (.lockstepMismatch pc) s (fun t => isFatal t = true ∧ parsleyDead t = true
    ∧ (isFatal s = false → numF t (faultObj + 1) = 0x0C ∧ t.sage.fadeDue = [0, 1, 2, 3])) :=
  ⟨_, rfl, isFatal_fatal s _, rfl, fun h => (fatal_first _ h).2⟩

/-! ### Boundary scan (R411) -/

/-- Whether an instruction takes the balls from the engine: EXTEST, CLAMP or HIGHZ. -/
def takesBalls (op : Nat) : Bool := decide (3 ≤ op) && decide (op ≤ 5)

/-- A JTAG instruction is loaded. -/
def jtagLoaded (s : State) (op : Nat) : State := { s with pins := { s.pins with jtag := op, jtagIso := takesBalls op } }

theorem execJtagInstructionLoad_eq (op : Nat) (s : State) :
    execJtagInstructionLoad op s = .next (if takesBalls op && !s.boot.inReset then fatal (jtagLoaded s op) (newTest s 0 0 0x0F 0 0) else jtagLoaded s op) :=
  rfl

theorem takesBalls_iff {op : Nat} : takesBalls op = true ↔ 3 ≤ op ∧ op ≤ 5 := by simp [takesBalls]

theorem jtagInstructionLoad_gives (s : State) (op : Nat) : Gives (.jtagInstructionLoad op) s (fun t =>
    t.pins.jtag = op ∧ (t.pins.jtagIso = true ↔ 3 ≤ op ∧ op ≤ 5)
    ∧ (3 ≤ op → op ≤ 5 → s.boot.inReset = false → isFatal t = true)
    ∧ ((op < 3 ∨ 5 < op ∨ s.boot.inReset = true) → isFatal t = isFatal s)) := by
  refine ⟨_, execJtagInstructionLoad_eq op s, ?_⟩
  by_cases h : (takesBalls op && !s.boot.inReset) = true
  · obtain ⟨hop, hr⟩ : (3 ≤ op ∧ op ≤ 5) ∧ s.boot.inReset = false := by simpa [takesBalls_iff] using h
    rw [if_pos h, pins_fatal]
    refine ⟨rfl, takesBalls_iff, fun _ _ _ => isFatal_fatal _ _, ?_⟩
    rintro (h3 | h5 | hr')
    · omega
    · omega
    · rw [hr] at hr'; cases hr'
  · rw [if_neg h]
    refine ⟨rfl, takesBalls_iff, fun h3 h5 hr => absurd ?_ h, fun _ => rfl⟩
    rw [takesBalls_iff.mpr ⟨h3, h5⟩, hr]; rfl

/-! ### The full test (R405) -/

theorem fullTestDone_gives {s : State} (pass : Bool) (h : numF s (faultObj + 0x012) = 1) :
    Gives (.fullTestDone pass) s (fun t => numF t (faultObj + 0x012) = if pass then 2 else 3) :=
  ⟨_, congrArg Host.Outcome.next (if_pos h), numF_setN_self _ _ _⟩

/-! ### The die temperature (R461) -/

/-- DIE_TEMP reads the temperature, and its peak follows. -/
def tempRead (s : State) (c : Int) : State :=
  let s1 := setN s (ob 0 0 0x030) (wrapTo 32 c)
  if signedOf 32 (numF s1 (ob 0 0 0x031)) < c then setN s1 (ob 0 0 0x031) (wrapTo 32 c) else s1

/-- Whether the temperature is above its limit, with the hysteresis of its two crossings. -/
def tempHighAfter (s : State) (c : Int) : Bool := if 1050 < c then true else if c < 1000 then false else s.pins.tempHigh

theorem numF_tempRead_temp (s : State) (c : Int) : numF (tempRead s c) (ob 0 0 0x030) = wrapTo 32 c := by
  unfold tempRead
  dsimp only
  split
  · rw [numF_setN_other _ _ _ _ (by decide), numF_setN_self]
  · rw [numF_setN_self]

theorem numF_tempRead_peak (s : State) (c : Int) :
    numF (tempRead s c) (ob 0 0 0x031) = if signedOf 32 (numF s (ob 0 0 0x031)) < c then wrapTo 32 c else numF s (ob 0 0 0x031) := by
  have h : numF (setN s (ob 0 0 0x030) (wrapTo 32 c)) (ob 0 0 0x031) = numF s (ob 0 0 0x031) := numF_setN_other _ _ _ _ (by decide)
  unfold tempRead
  dsimp only
  rw [h, apply_ite (numF · (ob 0 0 0x031)), numF_setN_self, h]

theorem pins_tempRead (s : State) (c : Int) : (tempRead s c).pins = s.pins := by
  unfold tempRead
  dsimp only
  split <;> rfl

/-- A crossing raises an event, which leaves the temperature and its peak. -/
theorem execDieTempUpdate_next (s : State) (c : Int) :
    ∃ t, execDieTempUpdate c s = .next t ∧ (∀ o, areaOf o ≠ 1 → numF t o = numF (tempRead s c) o) ∧ t.pins.tempHigh = tempHighAfter s c := by
  by_cases hi : 1050 < c ∧ !s.pins.tempHigh
  · refine ⟨_, congrArg Host.Outcome.next (if_pos hi), fun _ ho => numF_raise _ _ _ _ _ ho, ?_⟩
    rw [(quietly_raise _ _ _ _).pins, tempHighAfter, if_pos hi.1]
  · by_cases lo : c < 1000 ∧ s.pins.tempHigh
    · refine ⟨_, congrArg Host.Outcome.next ((if_neg hi).trans (if_pos lo)), fun _ ho => numF_raise _ _ _ _ _ ho, ?_⟩
      rw [(quietly_raise _ _ _ _).pins, tempHighAfter, if_neg (show ¬1050 < c by omega), if_pos lo.1]
    · refine ⟨_, congrArg Host.Outcome.next ((if_neg hi).trans (if_neg lo)), fun _ _ => rfl, ?_⟩
      change (tempRead s c).pins.tempHigh = _
      rw [pins_tempRead, tempHighAfter]
      cases h : s.pins.tempHigh with
      | false => rw [if_neg (by simpa [h] using hi), ite_self]
      | true => rw [if_neg (show ¬c < 1000 by simpa [h] using lo), ite_self]

theorem dieTempUpdate_gives (s : State) (c : Int) : Gives (.dieTempUpdate c) s (fun t =>
    numF t (ob 0 0 0x030) = wrapTo 32 c
    ∧ (signedOf 32 (numF s (ob 0 0 0x031)) < c → numF t (ob 0 0 0x031) = wrapTo 32 c)
    ∧ (c ≤ signedOf 32 (numF s (ob 0 0 0x031)) → numF t (ob 0 0 0x031) = numF s (ob 0 0 0x031))
    ∧ (1050 < c → t.pins.tempHigh = true) ∧ (c < 1000 → t.pins.tempHigh = false)
    ∧ (1000 ≤ c → c ≤ 1050 → t.pins.tempHigh = s.pins.tempHigh)) := by
  obtain ⟨t, ht, hnum, hpin⟩ := execDieTempUpdate_next s c
  have hpeak := (hnum _ (by decide)).trans (numF_tempRead_peak s c)
  refine ⟨t, ht, (hnum _ (by decide)).trans (numF_tempRead_temp s c), fun h => ?_, fun h => ?_, fun h => ?_, fun h => ?_, fun h1 h2 => ?_⟩
  · rw [hpeak, if_pos h]
  · rw [hpeak, if_neg (Int.not_lt.mpr h)]
  · rw [hpin, tempHighAfter, if_pos h]
  · rw [hpin, tempHighAfter, if_neg (by omega), if_pos h]
  · rw [hpin, tempHighAfter, if_neg (by omega), if_neg (by omega)]

/-! ### Reports to the test queue (R395) -/

/-- What a report says of the state after it depends on the queue and on the counter of untested entries alone. -/
theorem reported_of_same {s t v : State} {kind key source loc detail : Nat} (h : Reported s t kind key source loc detail)
    (hq : v.sage.queue = t.sage.queue) (hc : numF v (faultObj + 8) = numF t (faultObj + 8)) : Reported s v kind key source loc detail := by
  unfold Reported findTest at *
  rw [hq, hc]
  exact h

/-- A waiting test of a kind and key has met one more error. -/
def countOnce (kind key : Nat) (x : Test) : Test := if x.kind = kind ∧ x.key = key then { x with count := min 255 (x.count + 1) } else x

theorem countOnce_names (kind key : Nat) (x : Test) : (countOnce kind key x).kind = x.kind ∧ (countOnce kind key x).key = x.key := by
  unfold countOnce; split <;> exact ⟨rfl, rfl⟩

theorem find_map_countOnce {l : List Test} {kind key : Nat} {y : Test} (h : l.find? (fun x => x.kind == kind && x.key == key) = some y) :
    (l.map (countOnce kind key)).find? (fun x => x.kind == kind && x.key == key) = some { y with count := min 255 (y.count + 1) } := by
  have hp : (fun x : Test => x.kind == kind && x.key == key) ∘ countOnce kind key = fun x => x.kind == kind && x.key == key := by
    funext x
    obtain ⟨hkind, hkey⟩ := countOnce_names kind key x
    simp only [Function.comp, hkind, hkey]
  have hy : y.kind = kind ∧ y.key = key := by simpa using List.find?_some h
  rw [List.find?_map, hp, h, Option.map_some, countOnce, if_pos hy]

/-- R395: a report of a new error waits at the end of the queue, one of a thing under test is merged, and with a full queue it is logged. -/
theorem reported_reportError (s : State) (kind key source loc detail : Nat) :
    Reported s (reportError s (newTest s kind key source loc detail)) kind key source loc detail := by
  have hx : (newTest s kind key source loc detail).kind = kind ∧ (newTest s kind key source loc detail).key = key := ⟨rfl, rfl⟩
  refine ⟨fun hn hl hf => ?_, fun hn => ?_, fun hn hl => ?_⟩
  · unfold reportError
    rw [hx.1, hx.2, hn, if_neg (by decide), if_neg (by omega), if_neg (by rw [hf]; decide)]
    rfl
  · have hs : (findTest s kind key).isSome = true := Option.isSome_iff_ne_none.mpr hn
    have hr : reportError s (newTest s kind key source loc detail)
        = { s with sage := { s.sage with queue := s.sage.queue.map (countOnce kind key) } } := if_pos hs
    rw [hr]
    exact ⟨List.length_map _, fun y hy => find_map_countOnce hy⟩
  · unfold reportError
    rw [hx.1, hx.2, hn, if_neg (by decide), if_pos hl]
    refine ⟨queue_writeLog _ _ _ _ _ _, numF_writeLog_untested _ _ _ _ _ ?_⟩
    unfold passClass
    split <;> decide

/-! ### A lane stopped at its budget (R49, R128) -/

/-- The placements among programs that do not run in the frame count it. -/
def notRun (l : List Obj) (s : State) : State := (l.filter isPlacement).foldl (fun u p => bump u (p + 0x011)) s

theorem parts_notRun {w : Part → Bool} {s0 s : State} {l : List Obj} (h : Fixes w s0 s) (hw : Covers [.force] w) : Fixes w s0 (notRun l s) :=
  parts_foldl (fun _ _ h => parts_bump h hw) h

/-- Only members of placements count. -/
theorem numF_notRun {o : Obj} (ho : ∀ p, isPlacement p = true → o ≠ p + 0x011) (l : List Obj) (s : State) : numF (notRun l s) o = numF s o := by
  refine foldl_keeps (fun t => numF t o = numF s o) _ _ s (fun t p hp ht => ?_) rfl
  rw [numF_bump_other _ _ _ (ho p (List.mem_filter.mp hp).2), ht]

/-- The frame before stands in at signals and internal slots. -/
def framesRepeated (f : Nat) (xs ks : List Nat) (s : State) : State :=
  ks.foldl (fun u k => repeatSlot u f k) (xs.foldl (fun u x => repeatFrame u f x) s)

theorem parts_framesRepeated {w : Part → Bool} {s0 s : State} {f : Nat} {xs ks : List Nat} (h : Fixes w s0 s) (hw : Covers [.audio] w) :
    Fixes w s0 (framesRepeated f xs ks s) :=
  parts_foldl (fun _ _ h => parts_repeatSlot h hw) (parts_foldl (fun _ _ h => parts_repeatFrame h hw) h)

/-- A lane on which nothing is left, at the count of its budget. -/
def laneEmptied (x : Lane) (budget : Nat) : Lane :=
  { x with wait := [], stores := [], loops := [], prog := none, todo := [], gathered := none, dma := [], spent := budget, stopped := true }

/-- The budget of a lane of a tile in a phase. -/
def budgetOf (s : State) (tl : Nat) (ph : Phase) : Nat := laneBudget (frameLen s == 1) (rateClass (domRate s (tileDom s tl))) ph

/-- The state before the lane is emptied: the error is reported, programs that do not run are counted, and frames are repeated. -/
def stopNoted (s : State) (tl l : Nat) (ph : Phase) (f : Nat) (xs ks : List Nat) : State :=
  framesRepeated f xs ks (notRun (lane s (16 * tl + l)).todo (laneError s tl l 7 (laneLoc s tl l) (budgetOf s tl ph)))

/-- The state after a lane's stop. -/
def laneStopped (s : State) (tl l : Nat) (ph : Phase) (f : Nat) (xs ks : List Nat) : State :=
  let u := stopNoted s tl l ph f xs ks
  bump (setLane u (16 * tl + l) (laneEmptied (lane u (16 * tl + l)) (budgetOf s tl ph))) (ob 9 (0x100 + tl) 0x015)

theorem execLaneBudgetStop_ended {s : State} {tl l : Nat} {ph : Phase} (ht : tl < 16) (hl : l < 16) (hph : (lane s (16 * tl + l)).phase = some ph)
    (hprog : (lane s (16 * tl + l)).prog = none) (htodo : (lane s (16 * tl + l)).todo = []) : execLaneBudgetStop tl l ph s = .next s :=
  if_pos ⟨ht, hl, hph, hprog, htodo⟩

theorem execLaneBudgetStop_stops {s : State} {tl l : Nat} {ph : Phase} (ht : tl < 16) (hl : l < 16)
    (h : (lane s (16 * tl + l)).phase ≠ some ph ∨ (lane s (16 * tl + l)).prog ≠ none ∨ (lane s (16 * tl + l)).todo ≠ []) :
    ∃ f xs ks, execLaneBudgetStop tl l ph s = .next (laneStopped s tl l ph f xs ks) := by
  have hn : ¬(tl < 16 ∧ l < 16 ∧ (lane s (16 * tl + l)).phase = some ph ∧ (lane s (16 * tl + l)).prog = none ∧ (lane s (16 * tl + l)).todo = []) := by
    rintro ⟨-, -, hph, hprog, htodo⟩
    rcases h with h | h | h
    · exact h hph
    · exact h hprog
    · exact h htodo
  exact ⟨_, _, _, (if_neg hn).trans (if_pos ⟨ht, hl⟩)⟩

/-- The counter of a placement is above every object of a tile and below the fault manager. -/
theorem placement_counter_ne {o : Nat} (ho : o < ob 9 0x1000 0 ∨ ob 10 0 0 ≤ o) (p : Nat) (hp : isPlacement p = true) : o ≠ p + 0x011 := by
  simp only [isPlacement, Bool.and_eq_true, beq_iff_eq, decide_eq_true_eq] at hp
  obtain ⟨⟨harea, hlow⟩, hhigh⟩ := hp
  have hp9 : p / 0x10000000 = 9 := harea
  have hlow : 0x1000 ≤ p / 0x1000 % 0x10000 := hlow
  have hhigh : p / 0x1000 % 0x10000 < 0x2000 := hhigh
  have ho : o < 0x91000000 ∨ 0xA0000000 ≤ o := ho
  omega

section
variable (s : State) (tl l : Nat) (ph : Phase) (f : Nat) (xs ks : List Nat)

/-- A lane's stop touches the log, the members, the sessions and the queue by its report, and audio by the repeated frames. -/
theorem stopNoted_frame : Fixes (fun p => [Part.aon, .force, .sess, .sage, .audio].contains p) s (stopNoted s tl l ph f xs ks) :=
  parts_framesRepeated (parts_notRun (parts_laneError (.refl _ s) ((covers_contains _).of rfl)) ((covers_contains _).of rfl)) ((covers_contains _).of rfl)

theorem numF_stopNoted {o : Nat} (ho : o < ob 9 0x1000 0 ∨ ob 10 0 0 ≤ o) : numF (stopNoted s tl l ph f xs ks) o
    = numF (laneError s tl l 7 (laneLoc s tl l) (budgetOf s tl ph)) o := by
  have h : ∀ u, Fixes (fun p => [Part.audio].contains p) u (framesRepeated f xs ks u) := fun u => parts_framesRepeated (.refl _ u) (covers_contains _)
  exact (numF_congr (h _ .force rfl) o).trans (numF_notRun (placement_counter_ne ho) _ _)

theorem sage_stopNoted : (stopNoted s tl l ph f xs ks).sage = (laneError s tl l 7 (laneLoc s tl l) (budgetOf s tl ph)).sage := by
  have h : ∀ u, Fixes (fun p => [Part.force, .audio].contains p) u (framesRepeated f xs ks (notRun (lane s (16 * tl + l)).todo u)) :=
    fun u => parts_framesRepeated (parts_notRun (.refl _ u) ((covers_contains _).of rfl)) ((covers_contains _).of rfl)
  exact h _ .sage rfl

theorem lane_stopNoted (m : Nat) : lane (stopNoted s tl l ph f xs ks) m = lane s m := by
  unfold lane
  rw [show (stopNoted s tl l ph f xs ks).lanes = s.lanes from stopNoted_frame s tl l ph f xs ks .lanes rfl]

theorem lane_laneStopped_self : lane (laneStopped s tl l ph f xs ks) (16 * tl + l) = laneEmptied (lane s (16 * tl + l)) (budgetOf s tl ph) :=
  (lane_setLane_self _ _ _).trans (by rw [lane_stopNoted])

theorem lane_laneStopped_other {m : Nat} (h : m ≠ 16 * tl + l) : lane (laneStopped s tl l ph f xs ks) m = lane s m :=
  (lane_setLane_other _ _ _ _ h).trans (lane_stopNoted s tl l ph f xs ks m)

theorem mem_laneStopped : (laneStopped s tl l ph f xs ks).mem = s.mem := stopNoted_frame s tl l ph f xs ks .mem rfl

end

/-- A report counts at members of the fault manager alone. -/
theorem numF_reportError_below (s : State) (x : Test) {o : Obj} (ho : areaOf o ≠ 1) (h : o < faultObj + 3) :
    numF (reportError s x) o = numF s o := by
  unfold reportError
  split
  · rfl
  · split
    · exact numF_writeLog_below _ _ _ _ _ _ ho h
    · split
      · exact numF_writeLog_below _ _ _ _ _ _ ho h
      · rfl

/-- The counter of stops of a tile. -/
def stopCounter (tl : Nat) : Obj := ob 9 (0x100 + tl) 0x015

section
variable {tl : Nat} (ht : tl < 16)
include ht

theorem stopCounter_below : stopCounter tl < ob 9 0x1000 0 := by
  change (_ : Nat) < _
  unfold stopCounter ob; omega

theorem areaOf_stopCounter : areaOf (stopCounter tl) = 9 := by
  unfold areaOf stopCounter ob; omega

theorem numF_laneStopped_counter (s : State) (l : Nat) (ph : Phase) (f : Nat) (xs ks : List Nat) :
    numF (laneStopped s tl l ph f xs ks) (stopCounter tl) = numF s (stopCounter tl) + 1 := by
  have hlow := stopCounter_below ht
  have hrep := numF_reportError_below s (newTest s 3 (16 * tl + l) 7 (laneLoc s tl l) (budgetOf s tl ph)) (o := stopCounter tl)
    (by rw [areaOf_stopCounter ht]; decide) (Nat.lt_trans hlow (by decide))
  exact (numF_bump_self _ _).trans (congrArg (· + 1) ((numF_setLane _ _ _ _).trans ((numF_stopNoted s tl l ph f xs ks (.inl hlow)).trans hrep)))

theorem numF_laneStopped_untested (s : State) (l : Nat) (ph : Phase) (f : Nat) (xs ks : List Nat) :
    numF (laneStopped s tl l ph f xs ks) (faultObj + 8) = numF (laneError s tl l 7 (laneLoc s tl l) (budgetOf s tl ph)) (faultObj + 8) := by
  have hne : faultObj + 8 ≠ stopCounter tl := (Nat.ne_of_lt (Nat.lt_trans (stopCounter_below ht) (by decide))).symm
  exact (numF_bump_other _ _ _ hne).trans ((numF_setLane _ _ _ _).trans (numF_stopNoted s tl l ph f xs ks (.inr (by decide))))

/-- The stop is reported as a lane error at the count of the budget. -/
theorem reported_laneStopped (s : State) (l : Nat) (ph : Phase) (f : Nat) (xs ks : List Nat) :
    Reported s (laneStopped s tl l ph f xs ks) 3 (16 * tl + l) 7 (laneLoc s tl l) (budgetOf s tl ph) :=
  reported_of_same (reported_reportError s 3 (16 * tl + l) 7 (laneLoc s tl l) (budgetOf s tl ph))
    (congrArg Sage.queue (sage_stopNoted s tl l ph f xs ks)) (numF_laneStopped_untested ht s l ph f xs ks)

end

theorem laneBudgetStop_gives {s : State} {tl l : Nat} {ph : Phase} (ht : tl < 16) (hl : l < 16)
    (h : (lane s (16 * tl + l)).phase ≠ some ph ∨ (lane s (16 * tl + l)).prog ≠ none ∨ (lane s (16 * tl + l)).todo ≠ []) :
    Gives (.laneBudgetStop tl l ph) s (fun t =>
      let y := lane t (16 * tl + l)
      y.wait = [] ∧ y.stores = [] ∧ y.loops = [] ∧ y.prog = none ∧ y.todo = [] ∧ y.stopped = true
      ∧ (∀ m, m ≠ 16 * tl + l → lane t m = lane s m) ∧ t.mem = s.mem
      ∧ numF t (stopCounter tl) = numF s (stopCounter tl) + 1
      ∧ y.spent = budgetOf s tl ph
      ∧ Reported s t 3 (16 * tl + l) 7 (laneLoc s tl l) y.spent) := by
  obtain ⟨f, xs, ks, hex⟩ := execLaneBudgetStop_stops ht hl h
  refine ⟨_, hex, ?_⟩
  dsimp only
  rw [lane_laneStopped_self]
  exact ⟨rfl, rfl, rfl, rfl, rfl, rfl, fun m hm => lane_laneStopped_other s tl l ph f xs ks hm, mem_laneStopped s tl l ph f xs ks,
    numF_laneStopped_counter ht s l ph f xs ks, rfl, reported_laneStopped ht s l ph f xs ks⟩

/-- R465: the cells of the boundary register. -/
theorem length_boundaryRegister : boundaryRegister.length = 1014 := by decide +kernel

/-- Settles O23, clause by clause. -/
theorem fatalErrorsAndStops : Obligations.FatalErrorsAndStops := fun s =>
  ⟨lockstepMismatch_gives s, fun op _ => jtagInstructionLoad_gives s op, fun pass h => fullTestDone_gives pass h, dieTempUpdate_gives s,
   fun _ _ _ ht hl hph hprog htodo => execLaneBudgetStop_ended ht hl hph hprog htodo,
   fun _ _ _ ht hl h => laneBudgetStop_gives ht hl h, length_boundaryRegister⟩

end Sys2Proof.EngineOverview
end

section
/-!
PROOFS. A bit-set or bit-clear write of the flags (R363): read, modification and write of one beat of shared flag memory.
-/
namespace Sys2Proof.EngineOverview
open Machine Claims

/-! ### Bytes of memory -/

theorem memByte_memPut_self (m : List Host.Cell) (a : Nat) (b : Byte) : memByte (memPut m a b) a = b := tget_tput_self _ _ _ _

theorem memByte_memPut_other (m : List Host.Cell) {a c : Nat} (b : Byte) (h : c ≠ a) : memByte (memPut m a b) c = memByte m c :=
  tget_tput_other _ _ _ _ h

/-- Bytes stored from `a` upwards, some of them disabled, leave every byte outside them. -/
theorem memByte_putEnabled_outside (b : Octets) (m : List Host.Cell) {a c : Nat} (h : c < a ∨ a + b.length ≤ c) :
    memByte (putEnabled m a b) c = memByte m c := by
  induction b generalizing m a with
  | nil => rfl
  | cons v r ih =>
    rw [List.length_cons] at h
    rw [putEnabled, ih _ (by omega)]
    split
    · exact memByte_memPut_other _ _ (by omega)
    · rfl

/-- An enabled byte reads back. -/
theorem memByte_putEnabled_inside (b : Octets) (m : List Host.Cell) (a : Nat) {j v : Nat} (hj : b[j]? = some v) (hv : v < 256) :
    memByte (putEnabled m a b) (a + j) = BitVec.ofNat 8 v := by
  induction b generalizing m a j with
  | nil => simp at hj
  | cons u r ih =>
    rw [putEnabled]
    cases j with
    | zero =>
      obtain rfl : u = v := by simpa using hj
      rw [memByte_putEnabled_outside _ _ (by omega), if_pos hv]
      exact memByte_memPut_self _ _ _
    | succ i =>
      rw [← Nat.add_assoc, Nat.add_right_comm]
      exact ih _ _ (by simpa using hj)

/-! ### On-chip memory as every requester reads it (R364, R365, R398) -/

/-- The cells in which the region of an address is held: its save buffer's while it is under test. -/
def heldCells (s : State) (a : Nat) : List Host.Cell := ((saveOf s a).map (·.cells)).getD s.mem

theorem heldCells_saved {s : State} {a : Nat} {b : SaveBuf} (h : saveOf s a = some b) : heldCells s a = b.cells := by simp [heldCells, h]

theorem heldCells_unsaved {s : State} {a : Nat} (h : saveOf s a = none) : heldCells s a = s.mem := by simp [heldCells, h]

theorem chipRead_eq {s : State} {a : Nat} (h : regionFailed s a = false) (n : Nat) : chipRead s a n = memRead (heldCells s a) a n := by
  unfold chipRead heldCells
  rw [h]
  cases saveOf s a <;> rfl

theorem chipRead_one {s : State} {a : Nat} (h : regionFailed s a = false) : chipRead s a 1 = [(memByte (heldCells s a) a).toNat] := by
  rw [chipRead_eq h]; rfl

theorem chipRead_failed {s : State} {a : Nat} (h : regionFailed s a = true) (n : Nat) : chipRead s a n = List.replicate n 0 := if_pos h

/-- A read depends on memory and on the fault manager's failed regions and save buffers alone. -/
theorem chipRead_congr {s t : State} (hm : t.mem = s.mem) (hs : t.sage = s.sage) (a n : Nat) : chipRead t a n = chipRead s a n := by
  unfold chipRead regionFailed saveOf
  rw [hm, hs]

theorem regionFailed_congr_region {s : State} {a c : Nat} (h : c / 256 = a / 256) : regionFailed s c = regionFailed s a := by
  unfold regionFailed; rw [h]

theorem saveOf_congr_region {s : State} {a c : Nat} (h : c / 256 = a / 256) : saveOf s c = saveOf s a := by
  unfold saveOf; rw [h]

/-- A save buffer with its cells changed, where it stands for region `r`. -/
def SaveBuf.edit (r : Nat) (f : List Host.Cell → List Host.Cell) (x : SaveBuf) : SaveBuf :=
  if x.region = r then { x with cells := f x.cells } else x

theorem SaveBuf.edit_region (r : Nat) (f : List Host.Cell → List Host.Cell) (x : SaveBuf) : (SaveBuf.edit r f x).region = x.region := by
  unfold SaveBuf.edit; split <;> rfl

section
variable {s : State} {a : Nat} {f : List Host.Cell → List Host.Cell}

theorem chipEdit_failed (h : regionFailed s a = true) : chipEdit s a f = s := if_pos h

theorem chipEdit_unsaved (h : regionFailed s a = false) (hs : saveOf s a = none) : chipEdit s a f = { s with mem := f s.mem } := by
  unfold chipEdit; rw [h, hs]; rfl

theorem chipEdit_saved (h : regionFailed s a = false) (hs : saveOf s a ≠ none) :
    chipEdit s a f = { s with sage := { s.sage with saves := s.sage.saves.map (SaveBuf.edit (a / 256) f) } } := by
  obtain ⟨b, hb⟩ := Option.ne_none_iff_exists'.mp hs
  unfold chipEdit; rw [h, hb]; rfl

theorem regionFailed_chipEdit (c : Nat) : regionFailed (chipEdit s a f) c = regionFailed s c := by
  unfold chipEdit
  split
  · rfl
  · split <;> rfl

theorem saveOf_chipEdit_saved (h : regionFailed s a = false) (hs : saveOf s a ≠ none) (c : Nat) :
    saveOf (chipEdit s a f) c = (saveOf s c).map (SaveBuf.edit (a / 256) f) := by
  have hp : (fun b => b.region == c / 256) ∘ SaveBuf.edit (a / 256) f = fun b : SaveBuf => b.region == c / 256 :=
    funext fun x => congrArg (· == c / 256) (SaveBuf.edit_region _ _ x)
  rw [chipEdit_saved h hs]
  exact List.find?_map.trans (by rw [hp]; rfl)

/-- A change of a region's cells is seen at every address of the region. -/
theorem heldCells_chipEdit_region (h : regionFailed s a = false) {c : Nat} (hc : c / 256 = a / 256) :
    heldCells (chipEdit s a f) c = f (heldCells s c) := by
  cases hs : saveOf s a with
  | none =>
    have hn : saveOf s c = none := (saveOf_congr_region hc).trans hs
    rw [chipEdit_unsaved h hs, heldCells_unsaved hn]
    exact heldCells_unsaved hn
  | some b =>
    have hb : saveOf s c = some b := (saveOf_congr_region hc).trans hs
    have hr : b.region = a / 256 := by simpa using List.find?_some hs
    have ht := saveOf_chipEdit_saved (f := f) h (by simp [hs]) c
    rw [hb] at ht
    rw [heldCells_saved ht, heldCells_saved hb, SaveBuf.edit, if_pos hr]

/-- A byte that a change leaves in any cells reads as before at every address. -/
theorem memByte_heldCells_chipEdit {c : Nat} (hf : ∀ m, memByte (f m) c = memByte m c) :
    memByte (heldCells (chipEdit s a f) c) c = memByte (heldCells s c) c := by
  cases h : regionFailed s a with
  | true => rw [chipEdit_failed h]
  | false =>
    by_cases hs : saveOf s a = none
    · have ht : saveOf (chipEdit s a f) c = saveOf s c := by rw [chipEdit_unsaved h hs]; rfl
      cases hc : saveOf s c with
      | none =>
        rw [heldCells_unsaved hc, heldCells_unsaved (ht.trans hc), chipEdit_unsaved h hs]
        exact hf _
      | some b => rw [heldCells_saved hc, heldCells_saved (ht.trans hc)]
    · have ht := saveOf_chipEdit_saved (f := f) h hs c
      cases hc : saveOf s c with
      | none => rw [hc] at ht; rw [heldCells_unsaved hc, heldCells_unsaved ht, chipEdit_saved h hs]
      | some b =>
        rw [hc] at ht
        rw [heldCells_saved hc, heldCells_saved ht, SaveBuf.edit]
        split
        · exact hf _
        · rfl

theorem memByte_mem_chipEdit {c : Nat} (hf : ∀ m, memByte (f m) c = memByte m c) :
    memByte (chipEdit s a f).mem c = memByte s.mem c := by
  unfold chipEdit
  split
  · rfl
  · split
    · rfl
    · exact hf _

theorem mem_chipEdit_saved (hs : saveOf s a ≠ none) : (chipEdit s a f).mem = s.mem := by
  unfold chipEdit
  split
  · rfl
  · split
    · rfl
    · next h => exact absurd h hs

theorem chipRead_chipEdit_outside {c : Nat} (hf : ∀ m, memByte (f m) c = memByte m c) : chipRead (chipEdit s a f) c 1 = chipRead s c 1 := by
  have hr := regionFailed_chipEdit (s := s) (a := a) (f := f) c
  cases h : regionFailed s c with
  | true => rw [chipRead_failed h, chipRead_failed (hr.trans h)]
  | false => rw [chipRead_one h, chipRead_one (hr.trans h), memByte_heldCells_chipEdit hf]

end

/-! ### The bytes that a flag write stores (R363) -/

/-- A byte of shared flag memory after a bit-set or a bit-clear write. -/
def flagByte (set : Bool) (o v : Nat) : Nat := if set then o ||| v else o &&& (255 - v)

theorem flagByte_lt (set : Bool) {o v : Nat} (ho : o < 256) (hv : v < 256) : flagByte set o v < 256 := by
  unfold flagByte
  split
  · exact Nat.or_lt_two_pow (n := 8) ho hv
  · exact Nat.lt_of_le_of_lt Nat.and_le_left ho

/-- With every byte enabled, the bytes of a beat are set or cleared one by one. -/
theorem aliasBytes_enabled (set : Bool) (old : Octets) {d : Octets} (hd : ∀ i : Nat, (d[i]?).getD 0 < 256) :
    aliasBytes set old d = ((List.range 32).map (fun j => flagByte set ((old[j]?).getD 0) ((d[j]?).getD 0)), true) := by
  have hoff (i : Nat) : (slice d i 4).all (fun b => decide (256 ≤ b)) = false :=
    List.all_eq_false.mpr ⟨_, List.mem_map_of_mem (List.mem_range.mpr (by decide : 0 < 4)), by simpa using hd i⟩
  have hon (i : Nat) : (slice d i 4).all (fun b => decide (b < 256)) = true := by
    simp [slice, hd]
  simp only [aliasBytes, hoff, hon]
  rfl

/-- The plain address of the beat that an offset names in shared flag memory. -/
def flagAddr (a : Nat) : Nat := 0x2000000 + a % 0x100000 / 32 * 32

/-- The address at which a bit-set or a bit-clear write names the beat. -/
def aliasAddr (set : Bool) (a : Nat) : Nat := (if set then 0x2400000 else 0x2800000) + a % 0x100000 / 32 * 32

theorem plainAddr_aliasAddr (set : Bool) (a : Nat) : plainAddr (aliasAddr set a) = flagAddr a := by
  unfold plainAddr aliasAddr flagAddr
  cases set <;> grind

theorem flagAddr_ne_aliasAddr (set : Bool) (a : Nat) : flagAddr a ≠ aliasAddr set a := by
  unfold aliasAddr flagAddr
  cases set <;> grind

theorem aliasAddr_lt_iff (set : Bool) (a : Nat) : decide (aliasAddr set a < 0x2800000) = set := by
  unfold aliasAddr
  cases set <;> grind

theorem region_of_flagAddr (a : Nat) {j : Nat} (hj : j < 32) : (flagAddr a + j) / 256 = flagAddr a / 256 := by
  unfold flagAddr; omega

/-! ### The beat of a flag write -/

/-- The bytes that a flag write of `data` stores. -/
def flagBytes (s : State) (set : Bool) (a : Nat) (data : Octets) : Octets :=
  (List.range 32).map (fun j => flagByte set (((chipRead s (flagAddr a) 32)[j]?).getD 0) ((data[j]?).getD 0))

/-- The state after the beat: its access is counted where a save buffer serves it, and its bytes are stored. -/
def flagStored (s : State) (set : Bool) (a : Nat) (data : Octets) : State :=
  chipEdit (countRedirect s 5 (flagAddr a)) (flagAddr a) (fun m => putEnabled m (flagAddr a) (flagBytes s set a data))

theorem length_chipRead (s : State) (a n : Nat) : (chipRead s a n).length = n := by
  unfold chipRead memRead
  split
  · simp
  · split <;> simp

section
variable {data : Octets} (hlen : data.length = 32) (hdata : data.all (fun b => decide (b < 256)) = true)
include hdata

theorem byte_lt_of_all (i : Nat) : (data[i]?).getD 0 < 256 := by
  cases h : data[i]? with
  | none => decide
  | some v => simpa using List.all_eq_true.mp hdata v (List.mem_of_getElem? h)

include hlen

/-- The old bytes return where the data's byte is enabled: all of them. -/
theorem oldBytes_enabled {old : Octets} (hold : old.length = 32) :
    (List.zip (List.range 32) old).map (fun e => if (data[e.1]?).getD 256 < 256 then e.2 else 256) = old := by
  refine List.ext_getElem (by simp [hold]) fun i h _ => ?_
  have hi : i < 32 := by simp [hold] at h; omega
  have hv : (data[i]?).getD 256 < 256 := by
    have := byte_lt_of_all hdata i
    simpa [List.getElem?_eq_getElem (hlen ▸ hi)] using this
  simp [hv]

theorem chipBeat_alias (s : State) (set : Bool) (a : Nat) :
    chipBeat s 5 (aliasAddr set a) (some data) = (flagStored s set a data, chipRead s (flagAddr a) 32, false) := by
  have hback := oldBytes_enabled hlen hdata (length_chipRead s (flagAddr a) 32)
  simp only [chipBeat, plainAddr_aliasAddr, aliasAddr_lt_iff, if_neg (flagAddr_ne_aliasAddr set a),
    aliasBytes_enabled set _ (byte_lt_of_all hdata), hback]
  rfl

end

/-! ### What the beat changes in memory -/

theorem countRedirect_frame (s : State) (t a : Nat) :
    (countRedirect s t a).mem = s.mem ∧ (countRedirect s t a).sage = s.sage ∧ (countRedirect s t a).xbar = s.xbar := by
  unfold countRedirect
  split <;> exact ⟨rfl, rfl, rfl⟩

theorem chipRead_countRedirect (s : State) (t a c n : Nat) : chipRead (countRedirect s t a) c n = chipRead s c n := by
  obtain ⟨hm, hs, -⟩ := countRedirect_frame s t a
  exact chipRead_congr hm hs c n

theorem regionFailed_countRedirect (s : State) (t a c : Nat) : regionFailed (countRedirect s t a) c = regionFailed s c := by
  unfold regionFailed; rw [(countRedirect_frame s t a).2.1]

theorem saveOf_countRedirect (s : State) (t a c : Nat) : saveOf (countRedirect s t a) c = saveOf s c := by
  unfold saveOf; rw [(countRedirect_frame s t a).2.1]

section
variable (s : State) (set : Bool) (a : Nat) (data : Octets)

theorem length_flagBytes : (flagBytes s set a data).length = 32 := by simp [flagBytes]

theorem flagBytes_getElem {j v : Nat} (hj : j < 32) (hv : data[j]? = some v) (hr : regionFailed s (flagAddr a) = false) :
    (flagBytes s set a data)[j]? = some (flagByte set (memByte (heldCells s (flagAddr a + j)) (flagAddr a + j)).toNat v) := by
  have hh : heldCells s (flagAddr a + j) = heldCells s (flagAddr a) := by
    unfold heldCells; rw [saveOf_congr_region (region_of_flagAddr a hj)]
  simp [flagBytes, chipRead_eq hr, memRead, hj, hv, hh]

theorem chipRead_flagStored_inside {j v : Nat} (hj : j < 32) (hv : data[j]? = some v) (hv256 : v < 256)
    (hr : regionFailed s (flagAddr a) = false) :
    chipRead (flagStored s set a data) (flagAddr a + j) 1 = (chipRead s (flagAddr a + j) 1).map (flagByte set · v) := by
  have hreg := region_of_flagAddr a hj
  have hrc : regionFailed (countRedirect s 5 (flagAddr a)) (flagAddr a) = false := (regionFailed_countRedirect _ _ _ _).trans hr
  have hrj : regionFailed s (flagAddr a + j) = false := (regionFailed_congr_region hreg).trans hr
  have hrt : regionFailed (flagStored s set a data) (flagAddr a + j) = false :=
    (regionFailed_chipEdit _).trans ((regionFailed_countRedirect _ _ _ _).trans hrj)
  have hlt := flagByte_lt set (memByte (heldCells s (flagAddr a + j)) (flagAddr a + j)).isLt hv256
  rw [chipRead_one hrt, chipRead_one hrj, flagStored, heldCells_chipEdit_region hrc hreg,
    memByte_putEnabled_inside _ _ _ (flagBytes_getElem s set a data hj hv hr) hlt]
  simp [Nat.mod_eq_of_lt hlt]

/-- The beat's stores leave a byte outside it. -/
theorem memByte_flagBytes_outside {c : Nat} (hc : c < flagAddr a ∨ flagAddr a + 32 ≤ c) (m : List Host.Cell) :
    memByte (putEnabled m (flagAddr a) (flagBytes s set a data)) c = memByte m c :=
  memByte_putEnabled_outside _ _ (by rwa [length_flagBytes])

theorem chipRead_flagStored_outside {c : Nat} (hc : c < flagAddr a ∨ flagAddr a + 32 ≤ c) :
    chipRead (flagStored s set a data) c 1 = chipRead s c 1 :=
  (chipRead_chipEdit_outside (memByte_flagBytes_outside s set a data hc)).trans (chipRead_countRedirect _ _ _ _ _)

theorem memByte_flagStored_outside {c : Nat} (hc : c < flagAddr a ∨ flagAddr a + 32 ≤ c) :
    memByte (flagStored s set a data).mem c = memByte s.mem c := by
  rw [flagStored, memByte_mem_chipEdit (memByte_flagBytes_outside s set a data hc), (countRedirect_frame _ _ _).1]

theorem mem_flagStored_saved (hs : saveOf s (flagAddr a) ≠ none) : (flagStored s set a data).mem = s.mem := by
  rw [flagStored, mem_chipEdit_saved (by rwa [saveOf_countRedirect]), (countRedirect_frame _ _ _).1]

theorem xbar_flagStored : (flagStored s set a data).xbar = s.xbar := by
  have h : Fixes (fun p => [Part.mem, .sage].contains p) (countRedirect s 5 (flagAddr a)) (flagStored s set a data) :=
    parts_chipEdit (.refl _ _) (covers_contains _)
  exact (h .xbar rfl).trans (countRedirect_frame _ _ _).2.2

end

/-! ### The answer (R357) and the count of the beat (R47, R361) -/

theorem answerNow_first {s : State} {r : XResp} (h : s.xbar.resps.any (fun q => q.master == r.master && q.id == r.id) = false) :
    (answerNow s r).xbar.last = some r ∧ (answerNow s r).xbar.resps = s.xbar.resps := by
  simp [answerNow, h]

theorem answerNow_behind {s : State} {r : XResp} (h : s.xbar.resps.any (fun q => q.master == r.master && q.id == r.id) = true) :
    (answerNow s r).xbar.last = s.xbar.last ∧ (answerNow s r).xbar.resps = s.xbar.resps ++ [r] := by
  simp [answerNow, h]

/-- From `s` to `t` at most counters and arbiters have changed: memory, the fault manager and the responses are the same. -/
structure OnlyCounted (s t : State) : Prop where
  mem   : t.mem = s.mem
  sage  : t.sage = s.sage
  last  : t.xbar.last = s.xbar.last
  resps : t.xbar.resps = s.xbar.resps

theorem spendBeats_onlyCounted (s : State) (m t d n : Nat) : OnlyCounted s (spendBeats s m t d n) := by
  unfold spendBeats
  dsimp only
  split <;> exact ⟨rfl, rfl, rfl, rfl⟩

/-- The beat of a flag write is counted: at the debug port, which takes the target from an owner, or at its master's budget. -/
def flagCounted (m : Nat) (s : State) : State :=
  if m = debugPort then bump (if (arb s 5).current.isSome then bump s (arbObj 5 + 4) else s) (arbObj 5 + 3)
  else spendBeats (setArb s 5 { arb s 5 with last := m }) m 5 0 1

theorem flagCounted_onlyCounted (m : Nat) (s : State) : OnlyCounted s (flagCounted m s) := by
  unfold flagCounted
  split
  · split <;> exact ⟨rfl, rfl, rfl, rfl⟩
  · obtain ⟨hm, hs, hl, hr⟩ := spendBeats_onlyCounted (setArb s 5 { arb s 5 with last := m }) m 5 0 1
    exact ⟨hm, hs, hl, hr⟩

/-- The response of a flag write: the old bytes, on ID 0. -/
def flagAnswer (s : State) (m : Nat) (set : Bool) (a : Nat) (data : Octets) : XResp :=
  { no := (flagStored s set a data).xbar.next, master := m, id := 0, dom := 0, tgt := 5, left := 0, data := chipRead s (flagAddr a) 32, err := false,
    bad := [], read := false, due := s.now + 4 }

/-! ### The command -/

section
variable {s : State} {m a : Nat} {set : Bool} {data : Octets} (hlen : data.length = 32)
include hlen

theorem slice_whole_beat : slice (data ++ List.replicate 32 256) 0 32 = data := by
  refine List.ext_getElem (by simp [slice, hlen]) fun i _ h => ?_
  simp [slice, List.getElem?_append_left h, List.getElem?_eq_getElem h]

theorem execFlagAliasWrite_waits (hpath : hasPath s m 5 = true) (hm : m ≠ debugPort)
    (hwait : (arb s 5).current.isSome = true ∨ beatsLeft s m 5 0 = 0) :
    execFlagAliasWrite m set a data s = execCrossbarRequest m 0 (aliasAddr set a) 1 0 (some data) s := by
  have hbusy : ¬(m = debugPort ∨ ((arb s 5).current.isNone ∧ 0 < beatsLeft s m 5 0)) := by
    rintro (h | ⟨hn, hb⟩)
    · exact hm h
    · rcases hwait with h | h
      · simp [Option.isNone_iff_eq_none.mp hn] at h
      · omega
  unfold execFlagAliasWrite
  rw [slice_whole_beat hlen]
  cases hfull : idsFull s m with
  | true => simp [execCrossbarRequest, hfull]
  | false => simp only [hpath, if_neg hbusy]; rfl

theorem execFlagAliasWrite_now (hdata : data.all (fun b => decide (b < 256)) = true) (hpath : hasPath s m 5 = true) (hfree : idsFull s m = false)
    (hgo : m = debugPort ∨ ((arb s 5).current = none ∧ 0 < beatsLeft s m 5 0)) :
    execFlagAliasWrite m set a data s = .next (flagCounted m (answerNow (flagStored s set a data) (flagAnswer s m set a data))) := by
  have hgo' : m = debugPort ∨ ((arb s 5).current.isNone ∧ 0 < beatsLeft s m 5 0) := by simpa using hgo
  have hbeat := chipBeat_alias hlen hdata s set a
  unfold aliasAddr at hbeat
  unfold execFlagAliasWrite
  simp only [slice_whole_beat hlen, hfree, hpath, if_pos hgo', hbeat]
  rfl

end

/-- Settles O32: the bytes, the frame and the answer of the beat, which the count of it leaves as they are. -/
theorem flagAliasesSetAndClearBits : Obligations.FlagAliasesSetAndClearBits := by
  intro s m a set data hpath hlen hdata
  refine ⟨fun hm hwait => execFlagAliasWrite_waits hlen hpath hm hwait, fun hr hfree hgo =>
    ⟨_, execFlagAliasWrite_now hlen hdata hpath hfree hgo, ?_⟩⟩
  have hc := flagCounted_onlyCounted m (answerNow (flagStored s set a data) (flagAnswer s m set a data))
  have hread := chipRead_congr hc.mem hc.sage
  refine ⟨fun j v hv => ?_, fun c hout => ?_, fun hs => ?_, flagAnswer s m set a data, rfl, rfl, rfl, rfl, rfl, fun h => ?_, fun h => ?_⟩
  · have hj : j < 32 := hlen ▸ (List.getElem?_eq_some_iff.mp hv).1
    have hv256 : v < 256 := by simpa using List.all_eq_true.mp hdata v (List.mem_of_getElem? hv)
    exact (hread _ _).trans (chipRead_flagStored_inside s set a data hj hv hv256 hr)
  · exact ⟨(hread _ _).trans (chipRead_flagStored_outside s set a data hout),
      (congrArg (memByte · c) hc.mem).trans (memByte_flagStored_outside s set a data hout)⟩
  · exact hc.mem.trans (mem_flagStored_saved s set a data hs)
  · rw [← xbar_flagStored s set a data] at h ⊢
    obtain ⟨hl, hresp⟩ := answerNow_first (r := flagAnswer s m set a data) h
    exact ⟨hc.last.trans hl, hc.resps.trans hresp⟩
  · rw [← xbar_flagStored s set a data] at h ⊢
    obtain ⟨hl, hresp⟩ := answerNow_behind (r := flagAnswer s m set a data) h
    exact ⟨hc.last.trans hl, hc.resps.trans hresp⟩

end Sys2Proof.EngineOverview
end

section
/-!
PROOFS. Replies over PCIe and the locks of write commands (R240, R247, R263): a completion entry holds the opcode of its reply in one byte.
-/
namespace Sys2Proof.OperatingModes
open Machine Claims

/-- What is read from memory are bytes. -/
theorem lt_of_mem_memRead {m : List Host.Cell} {a n b : Nat} (h : b ∈ memRead m a n) : b < 256 := by
  obtain ⟨i, -, rfl⟩ := List.mem_map.mp h
  exact (memByte m (a + i)).isLt

theorem op_mem_headerOctets (big : Bool) (op status tag obj len aux : Nat) : op ∈ headerOctets big op status tag obj len aux := by
  simp [headerOctets]

/-- A session over PCIe that has its reply has been answered with an opcode of one byte. -/
theorem op_lt_of_answered {s t : State} {n i : Nat} {r : Reply} (hp : pairOf s n = some i) (hb : (bodyOctets false r.body).length ≤ 44)
    (h : Answered s t n r) : r.op < 256 := by
  unfold Answered at h
  rw [hp] at h
  exact lt_of_mem_memRead (h hb ▸ op_mem_headerOctets false r.op r.status r.tag r.obj _ r.aux)

/-- A command with opcode 0x80 that waits for a lock. -/
def strangeWait : Waiting := { op := 0x80, tag := 0, obj := 0, writes := [], want := [], since := 0 }

/-- Session 0 is open over command pair 3, and a command with opcode 0x80 waits in it. -/
def strangeWaiting : State :=
  { State.reset with
    dict := { State.reset.dict with force := [(sob 0 0, .num 1)] }
    ctl := { State.reset.ctl with sess := [(0, { Session.free with waiting := some strangeWait })] }
    host := { State.reset.host with pairs := [(3, { CmdPair.off with state := 2 })] } }

theorem pairOf_strangeWaiting : pairOf strangeWaiting 0 = some 3 := by decide

theorem sessOpen_strangeWaiting : sessOpen strangeWaiting 0 = true := by decide

/-- Refutes O56: the clause of LOCK_TIMEOUT names no opcode of the command that waits (that of LOCK_ACQUIRED names WRITE, WRITE_BLOCK and
TXN_END). The reply to one of opcode 0x80 would have the opcode 0x100, which no completion entry can hold. -/
theorem not_locksOrderTheWrites : ¬ Obligations.LocksOrderTheWrites := by
  intro h
  obtain ⟨-, -, hwait⟩ := h strangeWaiting 0 0
  obtain ⟨-, -, -, htimeout⟩ := hwait strangeWait sessOpen_strangeWaiting rfl
  obtain ⟨t, -, hdone, -⟩ := htimeout rfl
  have hop : 0x100 < 256 := op_lt_of_answered pairOf_strangeWaiting (by decide) hdone
  exact absurd hop (by decide)

end Sys2Proof.OperatingModes
end

section
/-!
PROOFS. The restore of a configuration (R224) after a mode transition: what it leaves of the members in force, and a version of a standby that
leaves an engine in STANDBY (R64, R75, R217).
-/
namespace Sys2Proof.OperatingModes
open Machine Claims EngineOverview

/-! ### Members in force -/

theorem areaOf_ob_add {a i m : Nat} (hi : i < 2 ^ 16) (hm : m < 2 ^ 12) : areaOf (ob a i 0 + m) = a := by
  unfold areaOf ob; omega

theorem instOf_ob_add {a i m : Nat} (hi : i < 2 ^ 16) (hm : m < 2 ^ 12) : instOf (ob a i 0 + m) = i := by
  unfold instOf ob; omega

theorem forceVal_setN_other {s : State} {o p : Obj} {k : Nat} (h : p ≠ o) : forceVal (setN s o k) p = forceVal s p :=
  forceVal_setF_other s o p _ h

theorem forceVal_ite {a b s : State} {o : Obj} {c : Prop} [Decidable c] (ha : forceVal a o = forceVal s o)
    (hb : forceVal b o = forceVal s o) : forceVal (if c then a else b) o = forceVal s o := by
  split
  · exact ha
  · exact hb

/-- A member that no step of a fold changes. -/
theorem forceVal_foldl {α : Type} {f : State → α → State} {o : Obj} {l : List α}
    (h : ∀ x ∈ l, ∀ t, forceVal (f t x) o = forceVal t o) (s : State) : forceVal (l.foldl f s) o = forceVal s o :=
  foldl_keeps (fun t => forceVal t o = forceVal s o) f l s (fun t x hx ht => (h x hx t).trans ht) rfl

theorem forceVal_of_fixes {l : List Part} {s t : State} (h : Fixes (fun p => l.contains p) s t) (hl : l.contains .force = false) (o : Obj) :
    forceVal t o = forceVal s o := forceVal_congr (h .force hl) o

/-! ### The audio path from its start -/

/-- The counts of the widest mode (R58). -/
theorem lim_le (s : State) : (lim s).strips ≤ 1024 ∧ (lim s).buses ≤ 256 ∧ (lim s).mats ≤ 128 ∧ (lim s).units ≤ 2048 := by
  unfold lim limitsOf
  split
  · decide
  · decide
  · split <;> decide
  · decide

/-- A member that the start of the audio path leaves alone: of no strip, output processor, dynamics unit or placement, and not RB_STATE. -/
structure Apart (o : Obj) : Prop where
  processor : areaOf o ≠ 7
  dynamics  : areaOf o ≠ 8
  strip     : areaOf o = 5 → 0x400 ≤ instOf o
  placement : isPlacement o = false
  readback  : o ≠ capObj + 0x017

/-- The same as a check that evaluates. -/
def apart (o : Obj) : Bool :=
  decide (areaOf o ≠ 7) && decide (areaOf o ≠ 8) && decide (areaOf o = 5 → 0x400 ≤ instOf o) && !isPlacement o && decide (o ≠ capObj + 0x017)

theorem apart_iff {o : Obj} : apart o = true ↔ Apart o := by
  simp only [apart, Bool.and_eq_true, decide_eq_true_eq, Bool.not_eq_true']
  exact ⟨fun ⟨⟨⟨⟨h7, h8⟩, h5⟩, h9⟩, hr⟩ => ⟨h7, h8, h5, h9, hr⟩, fun ⟨h7, h8, h5, h9, hr⟩ => ⟨⟨⟨⟨h7, h8⟩, h5⟩, h9⟩, hr⟩⟩

theorem isPlacement_add {p m : Nat} (hp : isPlacement p = true) (h0 : memOf p = 0) (hm : m < 2 ^ 12) : isPlacement (p + m) = true := by
  have ha : areaOf (p + m) = areaOf p := by unfold areaOf memOf at *; omega
  have hi : instOf (p + m) = instOf p := by unfold instOf memOf at *; omega
  unfold isPlacement at *
  rw [ha, hi]
  exact hp

section
variable {s : State} {o : Obj}

theorem forceVal_putUnit {u : Obj} {r : UnitRt} : forceVal (putUnit s u r) o = forceVal s o := rfl

theorem forceVal_startStrip {u : Obj} (h : o ≠ u + 0x052) : forceVal (startStrip s u) o = forceVal s o := forceVal_setN_other h

theorem forceVal_startProc {q : Obj} (h2 : o ≠ q + 2) (h16 : o ≠ q + 0x016) : forceVal (startProc s q) o = forceVal s o :=
  (forceVal_setN_other h16).trans (forceVal_setN_other h2)

theorem forceVal_startPlace {p : Obj} (h : o ≠ p + 0x00B) : forceVal (startPlace s p) o = forceVal s o := by
  have hcoef : ∀ (t : State) (k : Nat), forceVal (loadCoef t p k) o = forceVal t o := fun t _ =>
    forceVal_of_fixes (parts_loadCoef (.refl _ t) (covers_contains [.mem, .sage])) rfl o
  have hctx : ∀ t, forceVal (loadContext t p) o = forceVal t o := fun t =>
    forceVal_of_fixes (parts_loadContext (.refl _ t) (covers_contains [.mem, .sage])) rfl o
  have h1 : forceVal (setN (loadContext (loadCoef s p 0) p) (p + 0x00B) 1) o = forceVal s o :=
    (forceVal_setN_other h).trans ((hctx _).trans (hcoef _ _))
  unfold startPlace
  dsimp only
  refine forceVal_ite rfl (forceVal_ite ?_ h1)
  rw [forceVal_putUnit, hcoef]
  exact h1

theorem isPlacement_of_mem_enabledPlaces {p : Obj} (h : p ∈ enabledPlaces s) : isPlacement p = true ∧ memOf p = 0 := by
  obtain ⟨h, -⟩ := List.mem_filter.mp h
  obtain ⟨e, he, rfl⟩ := List.mem_map.mp h
  have := (List.mem_filter.mp he).2
  simp only [Bool.and_eq_true, beq_iff_eq] at this
  exact this.1

/-- The output processors of a tile stand in area 7. -/
theorem areaOf_of_mem_tileProcs {t m : Nat} (ht : t < 16) {q : Obj} (h : q ∈ tileProcs s t) (hm : m < 2 ^ 12) : areaOf (q + m) = 7 := by
  obtain ⟨-, hb, hm', -⟩ := lim_le s
  rcases List.mem_append.mp h with h | h
  all_goals
    obtain ⟨j, hj, rfl⟩ := List.mem_map.mp h
    have hj := List.mem_range.mp hj
    refine areaOf_ob_add ?_ hm
  · have : (lim s).buses / 16 * t ≤ 16 * 15 := Nat.mul_le_mul (by omega) (by omega)
    omega
  · have : (lim s).mats / 16 * t ≤ 8 * 15 := Nat.mul_le_mul (by omega) (by omega)
    omega

theorem forceVal_startTile {t : Nat} (ht : t < 16) (h : Apart o) : forceVal (startTile s t) o = forceVal s o := by
  unfold startTile
  dsimp only
  rw [forceVal_foldl (fun p hp u => ?_), forceVal_foldl (fun q hq u => ?_), forceVal_foldl (fun x hx u => ?_)]
  · exact forceVal_of_fixes (parts_restNodes (.refl _ _) (covers_contains [.audio])) rfl o
  · obtain ⟨j, hj, rfl⟩ := List.mem_map.mp hx
    have hj := List.mem_range.mp hj
    have hs := (lim_le s).1
    have hi : (lim s).strips / 16 * t ≤ 64 * 15 := Nat.mul_le_mul (by omega) (by omega)
    refine forceVal_startStrip fun e => ?_
    have ha : areaOf o = 5 := e ▸ areaOf_ob_add (by omega) (by decide)
    have := h.strip ha
    rw [e, instOf_ob_add (by omega) (by decide)] at this
    omega
  · exact forceVal_startProc (fun e => h.processor (e ▸ areaOf_of_mem_tileProcs ht hq (by decide)))
      (fun e => h.processor (e ▸ areaOf_of_mem_tileProcs ht hq (by decide)))
  · obtain ⟨hp9, hp0⟩ := isPlacement_of_mem_enabledPlaces (List.mem_filter.mp hp).1
    refine forceVal_startPlace fun e => ?_
    have := isPlacement_add hp9 hp0 (m := 0x00B) (by decide)
    rw [← e, h.placement] at this
    cases this

theorem forceVal_serveUnit {k : Nat} (hk : k < 2048) (h : areaOf o ≠ 8) : forceVal (serveUnit s k) o = forceVal s o := by
  have h8 : ∀ m, m < 2 ^ 12 → o ≠ unitObj k + m := fun m hm e => h (e ▸ areaOf_ob_add (by omega) hm)
  unfold serveUnit
  dsimp only
  split
  · exact (forceVal_setN_other (h8 _ (by decide))).trans (forceVal_setN_other (h8 _ (by decide)))
  · exact (forceVal_setN_other (h8 _ (by decide))).trans (forceVal_setN_other (h8 _ (by decide)))

theorem lt_of_lentUnit {l : Overlay} {b : Obj} {k : Nat} (h : lentUnit l s b = some k) : k < 2048 := by
  obtain ⟨-, -, -, hu⟩ := lim_le s
  unfold lentUnit at h
  split at h
  · cases h
  · dsimp only at h
    split at h
    · cases h; omega
    · cases h

theorem forceVal_initServes (h : areaOf o ≠ 8) : forceVal (initServes s) o = forceVal s o := by
  unfold initServes
  dsimp only
  rw [forceVal_foldl (fun x _ u => ?_), forceVal_foldl (fun x hx u => ?_)]
  · refine forceVal_setF_other _ _ _ _ fun e => h ?_
    have := (List.mem_filter.mp hx).2
    simp only [Bool.and_eq_true, beq_iff_eq] at this
    exact e ▸ this.1
  · split
    · next k hk => exact forceVal_serveUnit (lt_of_lentUnit hk) h
    · rfl

theorem forceVal_initAudio (h : Apart o) : forceVal (initAudio s) o = forceVal s o := by
  have hload : ∀ t, forceVal (loadImages t t) o = forceVal t o := fun t =>
    forceVal_of_fixes (parts_loadImages (.refl _ t) (covers_contains [.iram, .mem, .sage])) rfl o
  have hkeep : ∀ t, forceVal (keepImages t) o = forceVal t o := fun t =>
    forceVal_of_fixes (parts_keepImages (.refl _ t) (covers_contains [.iram])) rfl o
  have hout : ∀ t, forceVal (initOutlets t) o = forceVal t o := fun t =>
    forceVal_of_fixes (parts_initOutlets (.refl _ t) (covers_contains [.audio])) rfl o
  have hbud : ∀ t, forceVal (initBudgets t) o = forceVal t o := fun t =>
    forceVal_of_fixes (parts_initBudgets (.refl _ t) (covers_contains [.budget])) rfl o
  unfold initAudio
  dsimp only
  rw [hbud, hout, forceVal_initServes h.dynamics, forceVal_foldl (fun t ht u => forceVal_startTile (List.mem_range.mp ht) h), hload, hkeep]
  exact forceVal_ite (forceVal_setN_other h.readback) rfl

/-! ### Placements of an adapted configuration (R71) -/

theorem forceVal_revive (h : isPlacement o = false) : forceVal (revive s) o = forceVal s o := by
  unfold revive
  dsimp only
  rw [forceVal_foldl (fun x hx u => ?_)]
  · rfl
  · have hx := (List.mem_filter.mp hx).2
    simp only [Bool.and_eq_true] at hx
    refine forceVal_ite (forceVal_setN_other fun e => ?_) rfl
    rw [← e, h] at hx
    simp at hx

theorem forceVal_placeAgain (h : isPlacement o = false) : forceVal (placeAgain s) o = forceVal s o := by
  unfold placeAgain
  dsimp only
  rw [forceVal_revive h, forceVal_foldl (fun x hx u => ?_)]
  obtain ⟨hp, -⟩ := Bool.and_eq_true_iff.mp (List.mem_filter.mp (List.mem_filter.mp hx).1).2
  simp only [Bool.and_eq_true, beq_iff_eq] at hp
  refine forceVal_setN_other fun e => ?_
  have := isPlacement_add hp.1 hp.2 (m := 0x00B) (by decide)
  rw [← e, h] at this
  cases this

end

end Sys2Proof.OperatingModes
end

section
/-!
PROOFS. A transition from SERVICE restores the current version (R75). A version that a side has recorded as a standby names its partner's mode
(R64), and holds the standby's own MODE 5 among its values, so that the side is in STANDBY again.
-/
namespace Sys2Proof.OperatingModes
open Machine Claims EngineOverview

/-! ### Units that are OFF as the restore resumes them (R224) -/

/-- The units that RESTORE resumes, and domain 0. -/
def resumed : List Obj :=
  (List.range 4).map (fun d => ob 2 d 0) ++ (List.range 4).map tbObj ++ lifeUnits ++ [pairObj]

theorem domain_mem_resumed {d : Nat} (h : d < 4) : ob 2 d 0 ∈ resumed := by
  simp only [resumed, List.mem_append, List.mem_map, List.mem_range]
  exact .inl (.inl (.inl ⟨d, h, rfl⟩))

theorem tbObj_mem_resumed {k : Nat} (h : k < 4) : tbObj k ∈ resumed := by
  simp only [resumed, List.mem_append, List.mem_map, List.mem_range]
  exact .inl (.inl (.inr ⟨k, h, rfl⟩))

theorem lifeUnit_mem_resumed {u : Obj} (h : u ∈ lifeUnits) : u ∈ resumed := by
  simp only [resumed, List.mem_append]
  exact .inl (.inr h)

theorem pairObj_mem_resumed : pairObj ∈ resumed := by simp [resumed]

section
variable {s : State}

theorem unitState_congr {t : State} (h : t.dict.force = s.dict.force) (u : Obj) : unitState t u = unitState s u := numF_congr h _

/-- An enable request of a unit that is OFF waits for its tick. -/
theorem force_request {u : Obj} (b : Bool) (h : unitState s u = 0) : (request s u true b).dict.force = s.dict.force := by
  unfold request
  rw [h]
  rfl

theorem forceOff_of_off {u : Obj} (h : unitState s u = 0) : forceOff s u = s := if_pos h

theorem force_resumeUnit {u : Obj} (h : unitState s u = 0) : (resumeUnit s u).dict.force = s.dict.force := by
  unfold resumeUnit
  dsimp only
  rw [h, if_pos rfl, forceOff_of_off h, ite_self]
  split
  · rfl
  · exact force_request false h

/-- A fold that leaves the values in force, as long as they are those of `s`. -/
theorem force_foldl {α : Type} {f : State → α → State} {l : List α} {u : State}
    (hf : ∀ x ∈ l, ∀ t, t.dict.force = s.dict.force → (f t x).dict.force = t.dict.force) (hu : u.dict.force = s.dict.force) :
    (l.foldl f u).dict.force = s.dict.force :=
  foldl_keeps (fun t => t.dict.force = s.dict.force) f l u (fun t x hx ht => (hf x hx t ht).trans ht) hu

/-- An enable request of a unit that has its ENABLE set and is OFF. -/
def requestOff (s : State) (u : Obj) : State := if isOn s u && unitState s u == 0 then request s u true false else s

theorem force_requestOff {u : Obj} (h : unitState s u = 0) : (requestOff s u).dict.force = s.dict.force := by
  unfold requestOff
  split
  · exact force_request false h
  · rfl

theorem resumeUnits_eq (s : State) : resumeUnits s = requestOff (lifeUnits.foldl resumeUnit
    ((List.range 4).foldl (fun t k => requestOff t (tbObj k)) ([1, 2, 3].foldl (fun t d => requestOff t (ob 2 d 0)) s))) pairObj := by
  unfold resumeUnits requestOff
  rfl

section
variable (h : ∀ u ∈ resumed, unitState s u = 0)
include h

theorem force_resumeUnits : (resumeUnits s).dict.force = s.dict.force := by
  have off : ∀ {t : State}, t.dict.force = s.dict.force → ∀ u ∈ resumed, unitState t u = 0 := fun ht u hu => (unitState_congr ht u).trans (h u hu)
  have hd := force_foldl (s := s) (l := [1, 2, 3]) (f := fun t d => requestOff t (ob 2 d 0))
    (fun d hd t ht => force_requestOff (off ht _ (domain_mem_resumed (by simp at hd; omega)))) rfl
  have hb := force_foldl (l := List.range 4) (f := fun t k => requestOff t (tbObj k))
    (fun k hk t ht => force_requestOff (off ht _ (tbObj_mem_resumed (List.mem_range.mp hk)))) hd
  have hl := force_foldl (l := lifeUnits) (f := resumeUnit) (fun u hu t ht => force_resumeUnit (off ht u (lifeUnit_mem_resumed hu))) hb
  rw [resumeUnits_eq]
  exact (force_requestOff (off hl _ pairObj_mem_resumed)).trans hl

theorem force_restartDomains : (restartDomains s).dict.force = s.dict.force := by
  unfold restartDomains
  refine force_foldl (fun d hd t ht => ?_) rfl
  have h0 : unitState t (ob 2 d 0) = 0 := (unitState_congr ht _).trans (h _ (domain_mem_resumed (List.mem_range.mp hd)))
  rw [h0, if_neg (by decide)]

end

/-! ### The restore after RECONFIGURE (R73, R75) -/

/-- A domain that does not run is not stopped, and with DRAM at SP0 no channel is set anew. -/
theorem endReconfigure_eq_restoreMode (h3 : numF s (modeObj + 4) = 3) (ht : s.mode.target ≠ 6) (hd : ∀ d < 4, (dom s d).running = false)
    (hsp : numF s (dramObj 0 + 3) ≠ 1) : endReconfigure s = restoreMode s := by
  have hstop : (List.range 4).foldl (fun t d => if (dom t d).running then stopDomain t d else t) s = s :=
    foldl_keeps (fun t => t = s) _ _ _ (fun t d hd' e => by rw [e, hd d (List.mem_range.mp hd'), if_neg Bool.false_ne_true]) rfl
  unfold endReconfigure
  dsimp only
  rw [if_neg (not_not_intro h3), hstop, if_neg ht, if_neg (fun h => hsp h.2)]

/-- The state in which RESTORE resumes the units, from the adapted configuration. -/
def restoreBegun (c : State) : State :=
  initAudio (setN (setN (setTrans { c with mode := { c.mode with pendSusp := c.mode.suspended } } 4) (modeObj + 6) (dormantCount c))
    (modeObj + 7) (droppedCount c))

theorem restoreMode_eq (s : State) :
    restoreMode s = restartDomains (resumeUnits (restoreBegun (adapt s s.mode.target s.mode.rate).1)) := rfl

/-- RESTORE itself writes TRANSITION, DORMANT and DROPPED. -/
def restoreWrites : List Obj := [modeObj + 4, modeObj + 6, modeObj + 7]

theorem forceVal_restoreBegun {c : State} {o : Obj} (h : Apart o) (hw : o ∉ restoreWrites) :
    forceVal (restoreBegun c) o = forceVal c o := by
  simp only [restoreWrites, List.mem_cons, List.not_mem_nil, or_false, not_or] at hw
  obtain ⟨h4, h6, h7⟩ := hw
  unfold restoreBegun setTrans
  rw [forceVal_initAudio h, forceVal_setN_other h7, forceVal_setN_other h6, forceVal_setN_other h4]
  rfl

theorem scaleCounts_self (s : State) : scaleCounts s s = s :=
  foldl_keeps (fun t => t = s) _ _ _ (fun t o _ ht => by rw [ht, if_pos rfl]) rfl

/-- The adaptation of a version that already has the target's mode and rate. -/
theorem adapt_of_current {v : Version} {m r : Nat} (h6 : modeNow s = 6) (hv : s.ver.dir.find? (fun v => v.number == currentVersion s) = some v)
    (hm : m ≠ 4) (hin : inMode (inMode (withConf s v.conf) v.mode v.rate) m r = inMode (withConf s v.conf) v.mode v.rate) :
    adapt s m r = giveSignals (placeAgain (suspendRefs (inMode (withConf s v.conf) v.mode v.rate))) := by
  unfold adapt
  simp only [h6, hv, hin, scaleCounts_self, if_neg hm]

theorem forceVal_giveSignals (c : State) (o : Obj) : forceVal (giveSignals c).1 o = forceVal c o :=
  forceVal_of_fixes (parts_giveSignals (.refl _ c) (covers_contains [.ctxs])) rfl o

theorem forceVal_suspendRefs (c : State) (o : Obj) : forceVal (suspendRefs c) o = forceVal c o :=
  forceVal_of_fixes (parts_suspendRefs (.refl _ c) (covers_contains [.mode])) rfl o

end

/-! ### A version of a standby -/

/-- A side in STANDBY whose partner runs in mode 1. -/
def standbySide : State :=
  { State.reset with
    dict := { State.reset.dict with force := [(modeObj, .num 5)] }
    pair := { State.reset.pair with partner := some { side := 1, dieId := 0, token := true, mode := 1, rate := 1 } } }

/-- The version that it records after a transition (R218). -/
def standbyVersion : Version := makeVersion standbySide 1 0 3 0 0 0 0

theorem standbyVersion_mode : standbyVersion.mode = 1 := by decide

/-- An engine that goes from SERVICE to mode 1, in RECONFIGURE, with this version as its current one. -/
def leavingService : State :=
  { State.reset with
    dict := { State.reset.dict with force := [(modeObj, .num 6), (modeObj + 4, .num 3), (commitObj + 1, .num 1)] }
    mode := { State.reset.mode with target := 1, rate := 1, leaving := 6 }
    ver := { State.reset.ver with dir := [standbyVersion] } }

/-- The current version with its values in force. -/
def restored : State := inMode (withConf leavingService standbyVersion.conf) 1 1

theorem modeNow_restored : modeNow restored = 5 := by decide

/-- Its mode and rate are already those of the target, as far as STANDBY lets it follow them. -/
theorem inMode_restored : inMode restored 1 1 = restored := by decide

theorem adapt_leavingService : adapt leavingService 1 1 = giveSignals (placeAgain (suspendRefs restored)) :=
  adapt_of_current (v := standbyVersion) (by decide) (by decide) (by decide) inMode_restored

theorem endReconfigure_leavingService :
    endReconfigure leavingService = restartDomains (resumeUnits (restoreBegun (adapt leavingService 1 1).1)) :=
  (endReconfigure_eq_restoreMode (by decide) (by decide) (by decide) (by decide)).trans (restoreMode_eq leavingService)

/-- The state in which RESTORE resumes the units. -/
def begun : State := restoreBegun (adapt leavingService 1 1).1

theorem numF_begun {o : Obj} (h : Apart o) (hw : o ∉ restoreWrites) : numF begun o = numF restored o := by
  unfold begun numF
  rw [forceVal_restoreBegun h hw, adapt_leavingService, forceVal_giveSignals, forceVal_placeAgain h.placement, forceVal_suspendRefs]

theorem states_restored : ∀ u ∈ resumed, (apart (stateObj u) && !restoreWrites.contains (stateObj u) && unitState restored u == 0) = true := by
  decide +kernel

theorem unitState_begun {u : Obj} (h : u ∈ resumed) : unitState begun u = 0 := by
  have := states_restored u h
  simp only [Bool.and_eq_true, Bool.not_eq_true', List.contains_eq_mem, decide_eq_false_iff_not, beq_iff_eq] at this
  obtain ⟨⟨hapart, hw⟩, h0⟩ := this
  exact (numF_begun (apart_iff.mp hapart) hw).trans h0

/-- MODE reads STANDBY as RESTORE begins. -/
theorem mode_endReconfigure_leavingService : numF (endReconfigure leavingService) modeObj = 5 := by
  have hoff : ∀ u ∈ resumed, unitState begun u = 0 := fun u hu => unitState_begun hu
  have hres := force_resumeUnits hoff
  have hoff' : ∀ u ∈ resumed, unitState (resumeUnits begun) u = 0 := fun u hu => (unitState_congr hres u).trans (hoff u hu)
  calc numF (endReconfigure leavingService) modeObj
      = numF (restartDomains (resumeUnits begun)) modeObj := congrArg (numF · modeObj) endReconfigure_leavingService
    _ = numF (resumeUnits begun) modeObj := numF_congr (force_restartDomains hoff') _
    _ = numF begun modeObj := numF_congr hres _
    _ = numF restored modeObj := numF_begun (apart_iff.mp (by decide)) (by decide)
    _ = 5 := modeNow_restored

/-- Refutes O25: at the end of RECONFIGURE, MODE need not be the target. The clause asks that no version in the directory is in mode STANDBY,
but a version that was recorded on a standby is in its partner's mode and holds MODE 5 among its values. The transition from SERVICE puts
them in force before it looks at MODE. -/
theorem not_transitionsRunTheirSteps : ¬ Obligations.TransitionsRunTheirSteps := by
  rintro ⟨-, h⟩
  obtain ⟨hrestore, -⟩ := h leavingService
  have hver : ∀ v ∈ leavingService.ver.dir, v.mode ≠ 5 := by
    intro v hv
    rw [List.mem_singleton.mp hv, standbyVersion_mode]
    decide
  obtain ⟨t, ht, -, hmode, -⟩ := hrestore (by decide) (by decide) (by decide) hver
  have hgoes : endReconfigure leavingService = t := Host.Outcome.next.inj ht
  rw [← hgoes, mode_endReconfigure_leavingService] at hmode
  exact absurd hmode (by decide)

end Sys2Proof.OperatingModes
end

section
/-!
PROOFS. Crossfades and ramps that have run their samples (06_channel_strips_and_patching.md, R142, R143; 07_crosspoint_buses_matrices.md, R165,
R175; 08_dynamics_and_limiting.md, R200): one equation for each outcome of an end, then what the command makes of it.
-/
namespace Sys2Proof.ChannelStrips
open Machine Claims

theorem gives_mono {i : Instr} {s : State} {p q : State → Prop} (h : Gives i s p) (hpq : ∀ t, p t → q t) : Gives i s q := by
  obtain ⟨t, ht, hp⟩ := h
  exact ⟨t, ht, hpq t hp⟩

/-! ### Crossfades between two choices (R142, R200) -/

section
variable {c : SelX} {n : Nat}

theorem selEnd_running (hk : c.k < c.n) : selEnd (some c) n = some c := if_pos hk

theorem selEnd_over (hk : c.n ≤ c.k) (hh : c.held = none) : selEnd (some c) n = none := by
  simp [selEnd, Nat.not_lt.mpr hk, hh]

theorem selEnd_held {h : Nat} (hk : c.n ≤ c.k) (hh : c.held = some h) (hne : h ≠ c.new) :
    selEnd (some c) n = some { k := 0, n := n, old := c.new, new := h, held := none } := by
  simp [selEnd, Nat.not_lt.mpr hk, hh, hne]

end

/-- What a command makes of a crossfade between two choices that it ends: it goes on, is over, or gives way to the held choice. -/
theorem selFade_ends {i : Instr} {s : State} {f : State → Option SelX} {x : Option SelX} {c : SelX} {n : Nat} (hc : x = some c)
    (hend : Gives i s (fun t => f t = selEnd x n)) :
    (c.k < c.n → Gives i s (fun t => f t = some c))
    ∧ (c.n ≤ c.k → c.held = none → Gives i s (fun t => f t = none))
    ∧ (∀ h, c.n ≤ c.k → c.held = some h → h ≠ c.new →
        Gives i s (fun t => f t = some { k := 0, n := n, old := c.new, new := h, held := none })) := by
  subst hc
  exact ⟨fun hk => selEnd_running hk ▸ hend, fun hk hh => selEnd_over hk hh ▸ hend,
    fun h hk hh hne => selEnd_held hk hh hne ▸ hend⟩

theorem inputCrossfadeEnd_gives (s : State) (k : Nat) : Gives (.inputCrossfadeEnd k) s (fun t =>
    (unitRt t (ob 5 k 0)).input = selEnd (unitRt s (ob 5 k 0)).input (numF s (ob 5 k 0 + 1))) :=
  ⟨_, rfl, congrArg UnitRt.input (unitRt_putUnit_back ..)⟩

theorem limOnCrossfadeEnd_gives (s : State) (k : Nat) : Gives (.limOnCrossfadeEnd k) s (fun t =>
    (outRt t (ob 7 (0x200 + k) 0)).lim.onx = selEnd (outRt s (ob 7 (0x200 + k) 0)).lim.onx 64) :=
  ⟨_, rfl, congrArg (·.lim.onx) (outRt_putOut_back ..)⟩

/-! ### Core crossfades (R143) -/

/-- A crossfade that starts stands at its first sample: the choice of the coefficient half leaves it alone. -/
theorem core_startCore (s : State) (u : Obj) (r : UnitRt) (vals : Overlay) : ∃ x, (startCore s u r vals).core = some x ∧ x.k = 0 :=
  ⟨_, rfl, rfl⟩

section
variable {s : State} {u : Obj} {r : UnitRt} {c : CoreX}

theorem coreEnd_running (hc : r.core = some c) (hk : c.k < c.n) : coreEnd s u r = r := by
  simp [coreEnd, hc, hk]

/-- The held changes that still make a difference when the crossfade ends. -/
def heldChanges (s : State) (r : UnitRt) (c : CoreX) : Overlay :=
  c.held.filter (fun e => decide (e.2 ≠ forceVal s e.1) && !(noEffect s { r with core := none } e.1))

theorem mem_heldChanges {e : Obj × Val} : e ∈ heldChanges s r c ↔
    e ∈ c.held ∧ e.2 ≠ forceVal s e.1 ∧ noEffect s { r with core := none } e.1 = false := by
  simp [heldChanges]

theorem coreEnd_over (hc : r.core = some c) (hk : c.n ≤ c.k) (hh : heldChanges s r c = []) : coreEnd s u r = { r with core := none } := by
  unfold heldChanges at hh
  simp only [coreEnd, hc, if_neg (Nat.not_lt.mpr hk), hh, List.isEmpty_nil, if_true]

theorem coreEnd_held (hc : r.core = some c) (hk : c.n ≤ c.k) (hh : heldChanges s r c ≠ []) :
    coreEnd s u r = startCore s u { r with core := none } (heldChanges s r c) := by
  unfold heldChanges at hh ⊢
  simp only [coreEnd, hc, if_neg (Nat.not_lt.mpr hk), List.isEmpty_eq_false_iff.mpr hh, Bool.false_eq_true, if_false]

theorem heldChanges_eq_nil (h : ∀ e ∈ c.held, e.2 = forceVal s e.1) : heldChanges s r c = [] := by
  refine List.eq_nil_iff_forall_not_mem.mpr fun e he => ?_
  obtain ⟨hmem, hne, -⟩ := mem_heldChanges.mp he
  exact hne (h e hmem)

end

theorem coreCrossfadeEnd_gives (s : State) (u : Obj) :
    Gives (.coreCrossfadeEnd u) s (fun t => unitRt t u = coreEnd s u (unitRt s u)) :=
  ⟨_, rfl, unitRt_putUnit_back ..⟩

/-! ### Crossfades of a FIR (R175) -/

section
variable {s : State} {o : Obj} {r : OutRt} {c : SelX} {old h : List Int} {held : Option (List Int)}

theorem firEnd_running (hr : r.firx = some (c, old, held)) (hk : c.k < c.n) : firEnd s o r = r := by
  simp [firEnd, hr, hk]

theorem firEnd_over (hr : r.firx = some (c, old, none)) (hk : c.n ≤ c.k) : firEnd s o r = { r with firx := none } := by
  simp [firEnd, hr, Nat.not_lt.mpr hk]

theorem firEnd_held (hr : r.firx = some (c, old, some h)) (hk : c.n ≤ c.k) : firEnd s o r = firChange s o { r with firx := none } h := by
  simp [firEnd, hr, Nat.not_lt.mpr hk]

/-- A new set while the FIR is in and nothing fades: a parallel crossfade from the set in use, both being short enough. -/
theorem firChange_parallel (hon : isOn s (o + 0x010) = true) (hdip : r.fdip = none) (hne : h ≠ r.taps)
    (hnew : h.length ≤ 2048 / unitClass s o) (hold : r.taps.length ≤ 2048 / unitClass s o) : firChange s o { r with firx := none } h =
      { r with firx := some ({ k := 0, n := numF s (o + 0x015), old := 0, new := 0, held := none }, r.taps, none), taps := h } := by
  simp [firChange, hon, hdip, hne.symm, hnew, hold]

end

theorem firCrossfadeEnd_gives (s : State) (k : Nat) : let u := ob 7 (0x200 + k) 0
    Gives (.firCrossfadeEnd k) s (fun t => outRt t u =
      { firEnd s u (outRt s u) with onx := selEnd (firEnd s u (outRt s u)).onx (numF s (u + 0x014)) }) :=
  ⟨_, rfl, outRt_putOut_back ..⟩

/-! ### Ramps of a node (R165) -/

theorem endRamp_over {r : Ramp} (ha : r.active = true) (hp : r.len ≤ r.pos) : endRamp r = { r with active := false } := by
  simp [endRamp, ha, hp]

theorem endRamp_running {r : Ramp} (hp : r.pos < r.len) : endRamp r = r := by
  simp [endRamp, Nat.not_le.mpr hp]

theorem nodeRampEnd_gives (s : State) (row k : Nat) :
    Gives (.nodeRampEnd row k) s (fun t => rampOf t (ob 6 row k) = endRamp (rampOf s (ob 6 row k))) :=
  ⟨_, rfl, rampOf_putRamp_back ..⟩

/-! ### The statement on crossfades and ramps -/

theorem coreFade_ends {s : State} {u : Obj} {c : CoreX} (hc : (unitRt s u).core = some c) :
    (c.k < c.n → Gives (.coreCrossfadeEnd u) s (fun t => unitRt t u = unitRt s u))
    ∧ (c.n ≤ c.k → (∀ e ∈ c.held, e.2 = forceVal s e.1) →
        Gives (.coreCrossfadeEnd u) s (fun t => unitRt t u = { unitRt s u with core := none }))
    ∧ (c.n ≤ c.k → (∃ e ∈ c.held, e.2 ≠ forceVal s e.1 ∧ noEffect s { unitRt s u with core := none } e.1 = false) →
        Gives (.coreCrossfadeEnd u) s (fun t => ∃ x, (unitRt t u).core = some x ∧ x.k = 0)) := by
  have hend := coreCrossfadeEnd_gives s u
  refine ⟨fun hk => ?running, fun hk hsame => ?ended, fun hk ⟨e, hmem, hne, heff⟩ => ?held⟩
  case running => exact gives_mono hend fun t ht => ht.trans (coreEnd_running hc hk)
  case ended => exact gives_mono hend fun t ht => ht.trans (coreEnd_over hc hk (heldChanges_eq_nil hsame))
  case held =>
    have hh : heldChanges s (unitRt s u) c ≠ [] := List.ne_nil_of_mem (mem_heldChanges.mpr ⟨hmem, hne, heff⟩)
    refine gives_mono hend fun t ht => ?_
    rw [ht, coreEnd_held hc hk hh]
    exact core_startCore ..

section
variable {s : State} {k : Nat} {c : SelX} {old : List Int}

theorem firFade_over (hr : (outRt s (ob 7 (0x200 + k) 0)).firx = some (c, old, none)) (hk : c.n ≤ c.k) :
    Gives (.firCrossfadeEnd k) s (fun t => (outRt t (ob 7 (0x200 + k) 0)).firx = none
      ∧ (outRt t (ob 7 (0x200 + k) 0)).taps = (outRt s (ob 7 (0x200 + k) 0)).taps) := by
  refine gives_mono (firCrossfadeEnd_gives s k) fun t ht => ?_
  rw [ht, firEnd_over hr hk]
  exact ⟨rfl, rfl⟩

theorem firFade_running {held : Option (List Int)} (hr : (outRt s (ob 7 (0x200 + k) 0)).firx = some (c, old, held)) (hk : c.k < c.n) :
    Gives (.firCrossfadeEnd k) s (fun t => (outRt t (ob 7 (0x200 + k) 0)).firx = some (c, old, held)) := by
  refine gives_mono (firCrossfadeEnd_gives s k) fun t ht => ?_
  rw [ht, firEnd_running hr hk]
  exact hr

theorem firFade_held {h : List Int} (hr : (outRt s (ob 7 (0x200 + k) 0)).firx = some (c, old, some h)) (hk : c.n ≤ c.k)
    (hon : isOn s (ob 7 (0x200 + k) 0 + 0x010) = true) (hdip : (outRt s (ob 7 (0x200 + k) 0)).fdip = none)
    (hne : h ≠ (outRt s (ob 7 (0x200 + k) 0)).taps) (hnew : h.length ≤ 2048 / unitClass s (ob 7 (0x200 + k) 0))
    (hold : (outRt s (ob 7 (0x200 + k) 0)).taps.length ≤ 2048 / unitClass s (ob 7 (0x200 + k) 0)) :
    Gives (.firCrossfadeEnd k) s (fun t => (outRt t (ob 7 (0x200 + k) 0)).taps = h
      ∧ ∃ x, (outRt t (ob 7 (0x200 + k) 0)).firx = some (x, (outRt s (ob 7 (0x200 + k) 0)).taps, none) ∧ x.k = 0) := by
  refine gives_mono (firCrossfadeEnd_gives s k) fun t ht => ?_
  rw [ht, firEnd_held hr hk, firChange_parallel hon hdip hne hnew hold]
  exact ⟨rfl, _, rfl, rfl⟩

end

theorem nodeRamp_ends (s : State) (row k : Nat) :
    ((rampOf s (ob 6 row k)).active = true → (rampOf s (ob 6 row k)).len ≤ (rampOf s (ob 6 row k)).pos →
      Gives (.nodeRampEnd row k) s (fun t => rampOf t (ob 6 row k) = { rampOf s (ob 6 row k) with active := false }))
    ∧ ((rampOf s (ob 6 row k)).pos < (rampOf s (ob 6 row k)).len →
      Gives (.nodeRampEnd row k) s (fun t => rampOf t (ob 6 row k) = rampOf s (ob 6 row k))) := by
  have hend := nodeRampEnd_gives s row k
  exact ⟨fun ha hp => endRamp_over ha hp ▸ hend, fun hp => endRamp_running hp ▸ hend⟩

/-- Settles O59, fade by fade. -/
theorem crossfadesEndAndHeldChangesStart : Obligations.CrossfadesEndAndHeldChangesStart := fun s =>
  ⟨fun _ _ hc => coreFade_ends hc, fun k _ hc => selFade_ends hc (inputCrossfadeEnd_gives s k),
   fun k => ⟨fun _ _ hr hk => firFade_over hr hk, fun _ _ _ hr hk => firFade_running hr hk,
     fun _ _ _ hr hk hon hdip hne hnew hold => firFade_held hr hk hon hdip hne hnew hold,
     fun _ hc => selFade_ends hc (limOnCrossfadeEnd_gives s k)⟩,
   fun row k => nodeRamp_ends s row k⟩

end Sys2Proof.ChannelStrips
end

section
/-!
PROOFS. Dips through silence (06_channel_strips_and_patching.md, R146, R153; 07_crosspoint_buses_matrices.md, R175; 08_dynamics_and_limiting.md,
R201) and the hold of a gate (R188).
-/
namespace Sys2Proof.ChannelStrips
open Machine Claims EngineOverview OperatingModes

/-! ### Fades of a dip (R146) -/

section
variable {d : Dip}

theorem dipEnd_fadeOut (hk : 32 ≤ d.k) (h1 : d.stage = 1) : dipEnd (some d) = (some { d with stage := 2, k := 0 }, some d.next) :=
  if_pos ⟨h1, hk⟩

theorem dipEnd_fadeIn (hk : 32 ≤ d.k) (h2 : d.stage = 2) (hh : d.held = none) : dipEnd (some d) = (none, none) := by
  simp [dipEnd, h2, hk, hh]

theorem delayEnd_fadeOut {r : DelayRt} (hd : r.dip = some d) (hk : 32 ≤ d.k) (h1 : d.stage = 1) :
    delayEnd r = { r with dip := some { d with stage := 2, k := 0 }, now := d.next } := by
  rw [delayEnd, hd, dipEnd_fadeOut hk h1]; rfl

theorem delayEnd_fadeIn {r : DelayRt} (hd : r.dip = some d) (hk : 32 ≤ d.k) (h2 : d.stage = 2) (hh : d.held = none) :
    delayEnd r = { r with dip := none } := by
  rw [delayEnd, hd, dipEnd_fadeIn hk h2 hh]; rfl

theorem firDipEnd_fadeOut {r : OutRt} {h : List Int} (hd : r.fdip = some (d, h)) (hk : 32 ≤ d.k) (h1 : d.stage = 1) :
    (firDipEnd r).taps = h := by
  simp [firDipEnd, hd, dipEnd_fadeOut hk h1]

end

section
variable (r : OutRt)

@[simp] theorem delay_firDipEnd : (firDipEnd r).delay = r.delay := by
  unfold firDipEnd; split <;> rfl

@[simp] theorem lim_firDipEnd : (firDipEnd r).lim = r.lim := by
  unfold firDipEnd; split <;> rfl

end

theorem areaOf_ob {a i : Nat} (hi : i < 2 ^ 16) : areaOf (ob a i 0) = a := by
  simpa using areaOf_ob_add (a := a) (m := 0) hi (by decide)

/-! ### Dips of strips and output processors (R146, R175, R201) -/

/-- At a strip: DELAY_NOW follows the delay block. -/
theorem delayDipFadeEnd_strip_gives (s : State) {u : Obj} (hu : areaOf u = 5) : Gives (.delayDipFadeEnd u) s (fun t =>
    (unitRt t u).delay = delayEnd (unitRt s u).delay ∧ numF t (u + 0x052) = (delayEnd (unitRt s u).delay).now) :=
  ⟨_, if_pos hu, congrArg UnitRt.delay (unitRt_putUnit_back s u _), numF_setN_self ..⟩

/-- At an output processor: its delay block, the look-ahead of its limiter and the coefficients of its FIR. -/
theorem delayDipFadeEnd_proc_gives (s : State) {u : Obj} (hu : areaOf u = 7) : Gives (.delayDipFadeEnd u) s (fun t =>
    (outRt t u).delay = delayEnd (outRt s u).delay ∧ numF t (u + 2) = (delayEnd (outRt s u).delay).now
    ∧ (∀ n, (dipEnd (outRt s u).lim.dip).2 = some n → (outRt t u).lim.d = n)
    ∧ (outRt t u).taps = (firDipEnd (outRt s u)).taps) := by
  have hback {x : OutRt} {n : Nat} : outRt (setN (putOut s u x) (u + 2) n) u = x := outRt_putOut_back s u x
  refine ⟨_, if_neg (by rw [hu]; decide), ?_⟩
  simp only [hback, numF_setN_self, delay_firDipEnd, lim_firDipEnd, true_and, and_true]
  exact fun n hn => by rw [hn]

theorem stripDip_ends {s : State} {k : Nat} {d : Dip} (hk : k < 0x400) (hd : (unitRt s (ob 5 k 0)).delay.dip = some d) (h32 : 32 ≤ d.k) :
    (d.stage = 1 → Gives (.delayDipFadeEnd (ob 5 k 0)) s (fun t => (unitRt t (ob 5 k 0)).delay.now = d.next
      ∧ numF t (ob 5 k 0x052) = d.next ∧ (unitRt t (ob 5 k 0)).delay.dip = some { d with stage := 2, k := 0 }))
    ∧ (d.stage = 2 → d.held = none → Gives (.delayDipFadeEnd (ob 5 k 0)) s (fun t => (unitRt t (ob 5 k 0)).delay.dip = none
      ∧ (unitRt t (ob 5 k 0)).delay.now = (unitRt s (ob 5 k 0)).delay.now)) := by
  have hend := delayDipFadeEnd_strip_gives s (areaOf_ob (a := 5) (i := k) (by omega))
  refine ⟨fun h1 => gives_mono hend fun t ht => ?fadeOut, fun h2 hh => gives_mono hend fun t ht => ?fadeIn⟩
  case fadeOut =>
    rw [delayEnd_fadeOut hd h32 h1] at ht
    obtain ⟨hdelay, hnow⟩ := ht
    exact ⟨by rw [hdelay], hnow, by rw [hdelay]⟩
  case fadeIn =>
    rw [delayEnd_fadeIn hd h32 h2 hh] at ht
    exact ⟨by rw [ht.1], by rw [ht.1]⟩

theorem procDip_fadeOut {s : State} {k : Nat} {d : Dip} (hk : k < 0x180) (h32 : 32 ≤ d.k) (h1 : d.stage = 1) :
    ((outRt s (ob 7 (0x200 + k) 0)).delay.dip = some d → Gives (.delayDipFadeEnd (ob 7 (0x200 + k) 0)) s (fun t =>
      (outRt t (ob 7 (0x200 + k) 0)).delay.now = d.next ∧ numF t (ob 7 (0x200 + k) 0 + 2) = d.next))
    ∧ ((outRt s (ob 7 (0x200 + k) 0)).lim.dip = some d → Gives (.delayDipFadeEnd (ob 7 (0x200 + k) 0)) s (fun t =>
      (outRt t (ob 7 (0x200 + k) 0)).lim.d = d.next))
    ∧ (∀ h, (outRt s (ob 7 (0x200 + k) 0)).fdip = some (d, h) → Gives (.delayDipFadeEnd (ob 7 (0x200 + k) 0)) s (fun t =>
      (outRt t (ob 7 (0x200 + k) 0)).taps = h)) := by
  have hend := delayDipFadeEnd_proc_gives s (areaOf_ob (a := 7) (i := 0x200 + k) (by omega))
  refine ⟨fun hd => gives_mono hend fun t ht => ?delay, fun hd => gives_mono hend fun t ht => ?lookahead,
    fun h hd => gives_mono hend fun t ht => ?fir⟩
  case delay =>
    obtain ⟨hdelay, hnow, -⟩ := ht
    rw [delayEnd_fadeOut hd h32 h1] at hdelay hnow
    exact ⟨by rw [hdelay], hnow⟩
  case lookahead =>
    obtain ⟨-, -, hlim, -⟩ := ht
    exact hlim d.next (by rw [hd, dipEnd_fadeOut h32 h1])
  case fir =>
    obtain ⟨-, -, -, htaps⟩ := ht
    exact htaps.trans (firDipEnd_fadeOut hd h32 h1)

/-! ### Dips of an outlet (R153) -/

section
variable {r : OutletRt}

theorem outletEnd_fadeOut (hk : 32 ≤ r.k) (h1 : r.stage = 1) (hp : r.pending ≠ 0) :
    outletEnd r = { carried := r.pending, pending := 0, stage := 2, k := 0, from_ := fxOne } := by
  simp [outletEnd, h1, hk, hp]

theorem outletEnd_disconnected (hk : 32 ≤ r.k) (h1 : r.stage = 1) (hp : r.pending = 0) : outletEnd r = OutletRt.idle := by
  simp [outletEnd, h1, hk, hp]

theorem outletEnd_fadeIn (hk : 32 ≤ r.k) (h2 : r.stage = 2) : outletEnd r = { r with stage := 0, k := 0 } := by
  simp [outletEnd, h2, hk]

end

theorem patchDipFadeEnd_gives (s : State) (o : Obj) : Gives (.patchDipFadeEnd o) s (fun t => outletOf t o = outletEnd (outletOf s o)) :=
  ⟨_, rfl, outletOf_setOutlet_back ..⟩

theorem patchDip_ends {s : State} {o : Obj} (hk : 32 ≤ (outletOf s o).k) :
    ((outletOf s o).stage = 1 → (outletOf s o).pending ≠ 0 → Gives (.patchDipFadeEnd o) s (fun t =>
      (outletOf t o).carried = (outletOf s o).pending ∧ (outletOf t o).stage = 2 ∧ (outletOf t o).k = 0))
    ∧ ((outletOf s o).stage = 1 → (outletOf s o).pending = 0 → Gives (.patchDipFadeEnd o) s (fun t => outletOf t o = OutletRt.idle))
    ∧ ((outletOf s o).stage = 2 → Gives (.patchDipFadeEnd o) s (fun t =>
      (outletOf t o).carried = (outletOf s o).carried ∧ (outletOf t o).stage = 0)) := by
  have hend := patchDipFadeEnd_gives s o
  refine ⟨fun h1 hp => gives_mono hend fun t ht => ?fadeOut, fun h1 hp => gives_mono hend fun t ht => ?disconnected,
    fun h2 => gives_mono hend fun t ht => ?fadeIn⟩
  case fadeOut => rw [ht, outletEnd_fadeOut hk h1 hp]; exact ⟨rfl, rfl, rfl⟩
  case disconnected => exact ht.trans (outletEnd_disconnected hk h1 hp)
  case fadeIn => rw [ht, outletEnd_fadeIn hk h2]; exact ⟨rfl, rfl⟩

/-! ### The hold of a gate (R188) -/

/-- The running path's state of a dynamics unit: the gate of a strip for its even unit, else the compressor. -/
def runningLov (s : State) (k : Nat) : Lov :=
  if areaOf (servedBy s k) == 5 && k % 2 == 0 then (unitRt s (servedBy s k)).path.gate else (unitRt s (servedBy s k)).path.comp

theorem execGateHoldExpired_gate {s : State} {k : Nat} (hg : seen [] s (unitObj k + 1) = 0) :
    exec (.gateHoldExpired k) s = .next (setN s (unitObj k + 0x063) (if (runningLov s k).isOpen then 1 else 0)) :=
  congrArg Host.Outcome.next (if_pos hg)

theorem execGateHoldExpired_other {s : State} {k : Nat} (hg : seen [] s (unitObj k + 1) ≠ 0) : exec (.gateHoldExpired k) s = .next s :=
  congrArg Host.Outcome.next (if_neg hg)

theorem onlyParts_setN (s : State) (o n : Nat) : OnlyParts [.force] s (setN s o n) := fun p hp =>
  parts_setN (Fixes.refl _ s) (covers_contains [.force]) p (by simpa using hp)

theorem gateHoldExpired_gives {s : State} {k : Nat} (hg : seen [] s (unitObj k + 1) = 0) : Gives (.gateHoldExpired k) s (fun t =>
    numF t (unitObj k + 0x063) = (if (runningLov s k).isOpen then 1 else 0)
    ∧ (∀ o, o ≠ unitObj k + 0x063 → forceVal t o = forceVal s o) ∧ OnlyParts [.force] s t) :=
  ⟨_, execGateHoldExpired_gate hg, numF_setN_self .., fun _ ho => forceVal_setN_other ho, onlyParts_setN _ _ _⟩

section
variable {hold len : Nat} {lev t hyst : Int}

theorem gateStep_opens (h : t ≤ lev) : gateStep false hold lev t hyst len = (true, len) := by
  simp [gateStep, h]

theorem gateStep_staysClosed (h : lev < t) : gateStep false hold lev t hyst len = (false, hold) := by
  simp [gateStep, Int.not_le.mpr h]

theorem gateStep_renews (h : t - hyst ≤ lev) : gateStep true hold lev t hyst len = (true, len) := by
  simp only [gateStep, Bool.not_true, Bool.false_eq_true, if_false, if_pos h]

theorem gateStep_below (h : lev < t - hyst) :
    gateStep true hold lev t hyst len = if hold = 0 then (false, 0) else (true, hold - 1) := by
  simp only [gateStep, Bool.not_true, Bool.false_eq_true, if_false, if_neg (Int.not_le.mpr h)]

end

/-- Settles O60, dip by dip, then the gate. -/
theorem dipsPassThroughSilence : Obligations.DipsPassThroughSilence := fun _ =>
  ⟨fun _ _ hk hd h32 => stripDip_ends hk hd h32, fun _ _ hk h32 h1 => procDip_fadeOut hk h32 h1, fun _ hk => patchDip_ends hk,
   fun _ => ⟨fun hg => gateHoldExpired_gives hg, fun hg => execGateHoldExpired_other hg⟩,
   fun _ _ _ _ _ => ⟨gateStep_opens, fun h => congrArg Prod.fst (gateStep_staysClosed h), gateStep_renews,
     fun h => (gateStep_below h).trans (if_pos rfl), fun h hpos => (gateStep_below h).trans (if_neg (Nat.ne_of_gt hpos))⟩⟩

end Sys2Proof.ChannelStrips
end

section
/-!
PROOFS. LIVE writes (07_crosspoint_buses_matrices.md, R163; 09_commit_recall_versions.md, R202; 10_object_dictionary.md, R228): the course of a
write of one member from its acceptance over its reply to its effect (R232, R240, R249, R254, R263), and where the value lands.
-/
namespace Sys2Proof.CrosspointBuses
open Machine Claims EngineOverview OperatingModes

/-! ### What a write looks at beside its session -/

/-- Neither a member of a session nor one of the service counters. -/
def Configured (o : Obj) : Prop := areaOf o ≠ 1 ∨ instOf o = 0

/-- Two states with the same values in force outside sessions and service counters, the same domains, commit in work and partner. -/
structure SameGround (s t : State) : Prop where
  force   : ∀ o, Configured o → forceVal t o = forceVal s o
  doms    : t.doms = s.doms
  commit  : t.commit = s.commit
  partner : t.pair.partner = s.pair.partner

theorem configured_mode (m : Nat) (hm : m < 2 ^ 12) : Configured (ob 1 0 m) := .inr (by unfold instOf ob; omega)

theorem configured_of_le {o : Nat} (h : 0x20000000 ≤ o) : Configured o := .inl (by unfold areaOf; omega)

theorem ne_sob_of_configured {o : Obj} {n m : Nat} (h : Configured o) (hn : n < 32) (hm : m < 2 ^ 12) : o ≠ sob n m := by
  rintro rfl
  unfold Configured sob areaOf instOf ob at h
  omega

namespace SameGround
variable {s t : State} (h : SameGround s t)
include h

theorem numF_mode {m : Nat} (hm : m < 2 ^ 12) : numF t (ob 1 0 m) = numF s (ob 1 0 m) := congrArg valNat (h.force _ (configured_mode m hm))

theorem numF_unit {o : Nat} (ho : 0x20000000 ≤ o) : numF t o = numF s o := congrArg valNat (h.force o (configured_of_le ho))

theorem dom_eq (d : Nat) : dom t d = dom s d := by unfold dom; rw [h.doms]

theorem modeNow_eq : modeNow t = modeNow s := h.numF_mode (by decide)

theorem lim_eq : lim t = lim s := by
  unfold lim resourceMode rate0
  rw [h.modeNow_eq, h.partner, h.numF_mode (by decide)]

theorem tileDom_eq (k : Nat) : tileDom t k = tileDom s k := h.numF_unit (by unfold ob; omega)

theorem stripTile_eq (i : Nat) : stripTile t i = stripTile s i := by unfold stripTile; rw [h.lim_eq]

theorem tile7_eq (i : Nat) : tile7 t i = tile7 s i := by unfold tile7 busTile matTile; rw [h.lim_eq]

theorem ringOfChannel_eq (b ch : Nat) : ringOfChannel t b ch = ringOfChannel s b ch := by
  unfold ringOfChannel isOn
  simp (disch := unfold ob; omega) only [h.numF_unit]

theorem ownerDom_eq (o : Obj) : ownerDom t o = ownerDom s o := by
  unfold ownerDom
  simp (disch := unfold ob; omega) only [h.numF_unit, h.tileDom_eq, h.stripTile_eq, h.tile7_eq, h.ringOfChannel_eq, h.lim_eq]

theorem landDomain_eq (o : Obj) : landDomain t o = landDomain s o := by
  unfold landDomain domOn
  simp (disch := unfold ob; omega) only [h.ownerDom_eq, h.numF_unit, h.dom_eq]

theorem liveFrame_eq (d : Nat) (o : Obj) : liveFrame t d o = liveFrame s d o := by
  unfold liveFrame frameOf
  rw [h.commit, h.numF_unit (by unfold ob; omega)]

theorem lookup_eq (o : Obj) : lookup t o = lookup s o := by
  unfold lookup
  rw [h.lim_eq, h.numF_unit (by unfold ob; omega)]

end SameGround

/-! ### A request of an idle session (R249) -/

section
variable {s : State} {n : Sess}

theorem lt_of_sessOpen (h : sessOpen s n = true) : n < 32 := by
  unfold sessOpen at h
  simp only [Bool.and_eq_true, decide_eq_true_eq] at h
  exact h.1

theorem sameGround_serving (hn : n < 32) : SameGround s (serving s n) where
  force o ho := forceVal_setN_other (ne_sob_of_configured ho hn (by decide))
  doms := rfl
  commit := rfl
  partner := rfl

theorem sess_serving (h : (sess s n).inbox = []) (m : Sess) : sess (serving s n) m = sess s m := by
  by_cases hm : m = n
  · subst hm
    have hback : sess (serving s m) m = { sess s m with inbox := [] } := sess_setSess_self s m _
    rw [hback, ← h]
  · exact sess_setSess_other s n m _ hm

theorem tins_tins {α : Type} (t : Tab α) (k : Nat) (v w : α) : tins (tins t k v) k w = tins t k w := by
  induction t with
  | nil => simp [tins]
  | cons e r ih =>
    obtain ⟨a, x⟩ := e
    rcases Nat.lt_trichotomy k a with hlt | rfl | hgt
    · simp [tins, hlt]
    · simp [tins]
    · have hnot : ¬ k < a := by omega
      have hne : a ≠ k := by omega
      simp [tins, hnot, hne, ih]

theorem tdrop_tins {α : Type} (t : Tab α) (k : Nat) (v : α) : tdrop (tins t k v) k = tdrop t k := by
  induction t with
  | nil => simp [tins, tdrop]
  | cons e r ih =>
    obtain ⟨a, x⟩ := e
    unfold tdrop at ih ⊢
    unfold tins
    split
    · simp
    · split
      · next _ hk => simp [hk]
      · simp [List.filter_cons, ih]

/-- The session that a request has reached holds something, so that its slot is listed. -/
theorem setSess_setSess {x y : Session} (hx : x ≠ Session.free) : setSess (setSess s n x) n y = setSess s n y := by
  have htab : tput (tput s.ctl.sess Session.free n x) Session.free n y = tput s.ctl.sess Session.free n y := by
    unfold tput
    rw [if_neg hx, tins_tins, tdrop_tins]
  unfold setSess
  rw [htab]

/-- The request of an idle session is served at once. -/
theorem arrive_idle {tag : Nat} {q : Req} (h : Idle s n) (hg : 7 ≤ s.boot.step ∨ isFatal s = true) :
    arrive s n tag q = examineNow (serveBody (serving s n) n tag q) := by
  obtain ⟨hopen, hdead, hinbox, hwork⟩ := h
  have hx : { sess s n with inbox := [(tag, q)] } ≠ Session.free := fun e => by cases congrArg Session.inbox e
  have hwork' : atWork (setSess s n { sess s n with inbox := [(tag, q)] }) n = false := by
    unfold atWork at hwork ⊢
    rw [sess_setSess_self]
    exact hwork
  have hgate : startGate (setSess s n { sess s n with inbox := [] }) q = true := by
    have : (decide (7 ≤ s.boot.step) || isFatal s) = true := by simpa using hg
    unfold startGate
    exact Bool.or_eq_true_iff.mpr (.inl this)
  unfold arrive drainAll
  simp only [hopen, hdead, hinbox, List.nil_append, sess_setSess_self, Bool.not_false, Bool.and_self, if_true, List.length_cons,
    List.length_nil]
  simp only [drain, hwork', sess_setSess_self, setSess_setSess hx, Bool.false_eq_true, if_false]
  unfold serveReq
  simp only [hgate, if_true]
  rfl

end

theorem serveBody_write (s : State) (n : Sess) (tag x : Nat) (v : TVal) :
    serveBody s n tag (.write x v) = writeCmd s n 2 tag x [(x, v)] := rfl

/-- Each write row is a WRITE of its member. -/
theorem exec_of_writeOf {s : State} {i : Instr} {n : Sess} {tag x : Nat} {v : TVal} (h : writeOf s i = some (n, tag, x, v)) :
    exec i s = .next (arrive s n tag (.write x v)) := by
  cases i <;> cases h <;> rfl

/-! ### What a check leaves (R130, R341) -/

theorem findRow_of_lookup {s : State} {o : Obj} {r : Row} (h : lookup s o = some r) :
    findRow (familyRows (lim s) (areaOf o) (instOf o)) (memOf o) = some r := by
  unfold lookup at h
  split at h
  · cases h
  · split at h
    · cases h
    · exact h

theorem isLive_image {lim : Limits} {i : Nat} {r : Row} (hi : i < 0x100) (h : findRow (familyRows lim 9 i) 0 = some r) :
    isLive r = false := by
  have hrows : familyRows lim 9 i = imageRows := if_pos hi
  rw [hrows] at h
  cases h
  rfl

theorem isLive_open {lim : Limits} {m : Nat} {r : Row} (hm : m = 0x080 ∨ m = 0x081)
    (h : findRow (familyRows lim 4 0x200) m = some r) : isLive r = false := by
  have hrows : familyRows lim 4 0x200 = netPortRows.filter (fun r => decide (0x200 = 0x200) || decide (r.lo < 0x080)) := rfl
  rw [hrows] at h
  rcases hm with rfl | rfl
  · cases h; rfl
  · cases h; rfl

/-- Only members that act on the bank leave marks of a check. -/
theorem ownMarks_live {s u : State} {n : Sess} {o : Obj} {w : Val} {r : Row} (hr : lookup s o = some r) (hl : isLive r = true) :
    ownMarks u n o w = u := by
  have hrow := findRow_of_lookup hr
  unfold ownMarks
  dsimp only
  split
  · next him =>
    obtain ⟨ha, hi, hm⟩ := him
    rw [ha, hm] at hrow
    exact absurd hl (Bool.eq_false_iff.mp (isLive_image hi hrow))
  · split
    · next hop =>
      obtain ⟨ha, hi, hm⟩ := hop
      rw [ha, hi] at hrow
      exact absurd hl (Bool.eq_false_iff.mp (isLive_open hm hrow))
    · rfl

section
variable {s : State} {n : Sess} {o : Obj} {w : Val} {r : Row} {x : Nat} {v : TVal} {u : State}

/-- A write that passes its checks comes at no transition, unless it asks for one (R74, R232). -/
theorem inTransition_of_checkRow (hq : isReqMode o = false) (h : checkRow s n o r v = stOk) : inTransition s = false := by
  refine Bool.eq_false_iff.mpr fun ht => ?_
  unfold checkRow at h
  rw [hq, if_neg Bool.false_ne_true, ht, Bool.true_or, if_pos rfl] at h
  split at h
  · exact absurd h (by decide)
  · split at h
    · exact absurd h (by decide)
    · split at h
      · exact absurd h (by decide)
      · exact absurd h (by decide)

/-- What a passed check of a LIVE member says: the check leaves nothing, and no transition runs. -/
theorem checkWrite_live (h : checkWrite s n x v = (stOk, some (o, w), u)) (hr : lookup s o = some r) (hl : isLive r = true)
    (hq : isReqMode o = false) : u = s ∧ inTransition s = false := by
  unfold checkWrite at h
  split at h
  · cases h
  · split at h
    · cases h
    · next p q hp =>
      simp only [Prod.mk.injEq] at h
      obtain ⟨hst, hw, hu⟩ := h
      rw [if_pos hst] at hw
      cases hw
      refine ⟨?_, inTransition_of_checkRow hq hst⟩
      rw [← hu, ownMarks_live hr hl, ite_self]

end

/-! ### A write that has passed its checks (R232, R240) -/

section
variable {s : State} {n : Sess} {o : Obj} {w : Val} {r : Row} {tag x : Nat}

theorem lockHolder_dropLocks (b : Obj) : lockHolder (dropLocks s n) n b = lockHolder s n b := by
  have hown : ∀ (l : Lock) (p q : Bool), (l.owner != n && (p && l.owner != n && q)) = (p && l.owner != n && q) := fun l p q => by
    cases l.owner != n <;> simp
  unfold lockHolder
  simp only [dropLocks, List.find?_filter, Bool.decide_and, Bool.decide_eq_true, sess, hown]
  rfl

theorem lockHolder_serving (h : (sess s n).inbox = []) (b : Obj) : lockHolder (serving s n) n b = lockHolder s n b := by
  unfold lockHolder
  simp only [sess_serving h]
  rfl

/-- The state in which a WRITE that holds the lock of its unit replies. -/
def locked (s : State) (n : Sess) (b : Obj) : State :=
  let u := takeLock (dropLocks s n) n b
  let q := drawUpTo u lockHold
  let t : State := { q.2 with ctl := { q.2.ctl with
    locks := q.2.ctl.locks.map (fun l => if l.owner = n then { l with until_ := u.now + q.1 } else l) } }
  setSess t n { sess t n with waiting := none }

theorem parts_setLocks {p : Part → Bool} {s0 : State} (h : Fixes p s0 s) (hp : Covers [.locks] p) (l : List Lock) :
    Fixes p s0 { s with ctl := { s.ctl with locks := l } } :=
  h.trans fun q hq => by
    cases q with
    | locks => exact absurd (hp .locks (by simp)) (by simp [hq])
    | _ => simp [samePart]

/-- The parts that a write command changes up to its reply. -/
def lockParts : List Part := [.free, .sess, .locks]

theorem locked_fixes (b : Obj) : Fixes (fun p => lockParts.contains p) s (locked s n b) := by
  have hc : Covers lockParts (fun p => lockParts.contains p) := covers_contains lockParts
  have hdraw := parts_drawUpTo (a1 := lockHold) (parts_takeLock (a1 := n) (a2 := b) (parts_dropLocks (a1 := n) (.refl _ s) (hc.of rfl)) (hc.of rfl))
    (hc.of rfl)
  exact parts_setSess (parts_setLocks hdraw (hc.of rfl) _) (hc.of rfl)

theorem sess_locked (b : Obj) : sess (locked s n b) n = { sess s n with waiting := none } := sess_setSess_self _ n _

/-- A member that is no action can be written whenever no transition runs. -/
theorem lateOne_member (ht : inTransition s = false) (hr : lookup s o = some r) (hwo : isWo r = false) : lateOne s n (o, w) = stOk := by
  unfold lateOne
  simp only [ht, hr, hwo, Bool.false_and, Bool.false_eq_true, if_false]

/-- A write of one member whose lock no other session holds is made at once. -/
theorem runWrite_one (hlock : lockHolder s n (baseOf o) = none) (ht : inTransition s = false) (hr : lookup s o = some r)
    (hwo : isWo r = false) :
    runWrite s n 2 tag x [(o, w)] = writeAll (reply (locked s n (baseOf o)) n 2 tag x stOk 0 .none) n [(o, w)] := by
  have hfree : lockHolder (dropLocks s n) n (baseOf o) = none := (lockHolder_dropLocks _).trans hlock
  have hwant : sortUp ([(o, w)].map (fun e => baseOf e.1)) = [baseOf o] := rfl
  have hlate : lateOne (takeLock (dropLocks s n) n (baseOf o)) n (o, w) = stOk := lateOne_member ht hr hwo
  unfold runWrite
  simp only [hwant, climb, hfree]
  unfold finishWrite
  simp only [lateFailure, hlate, if_true]
  rfl

/-- WRITE of a member outside a transaction, once it has passed its checks. -/
theorem writeCmd_one {v : TVal} {u : State} (htxn : (sess u n).txn = none) (h : checkWrite s n x v = (stOk, some (o, w), u)) :
    writeCmd s n 2 tag x [(x, v)] = runWrite u n 2 tag x [(o, w)] := by
  have hop : ¬ (2 = 0x04) := by decide
  unfold writeCmd
  simp only [if_neg hop, checkAll, h, htxn]

end

/-! ### The reply (R254, R263) -/

section
variable {s : State} {n : Sess}

theorem memRead_memWrite (m : List Host.Cell) (a : Nat) (b c : Octets) (hb : ∀ x ∈ b, x < 256) :
    memRead (memWrite m a (b ++ c)) a b.length = b := by
  refine List.ext_getElem (by simp [memRead]) fun i h1 h2 => ?_
  have hi : i < (b ++ c).length := by rw [List.length_append]; omega
  simp only [memRead, List.getElem_map, List.getElem_range, memByte_memWrite_inside (b ++ c) m a i hi, List.getElem_append_left h2]
  rw [BitVec.toNat_ofNat, Nat.mod_eq_of_lt (hb _ (List.getElem_mem h2))]

theorem mem_leBytes_lt {k v b : Nat} (h : b ∈ leBytes k v) : b < 256 := by
  induction k generalizing v with
  | zero => cases h
  | succ k ih =>
    rcases List.mem_cons.mp h with rfl | h
    · exact Nat.mod_lt _ (by decide)
    · exact ih h

theorem length_leBytes (k v : Nat) : (leBytes k v).length = k := by
  induction k generalizing v with
  | zero => rfl
  | succ k ih => simp [leBytes, ih]

theorem length_headerOctets (op status tag obj len aux : Nat) : (headerOctets false op status tag obj len aux).length = 16 := by
  simp [headerOctets, toBytes, length_leBytes]

theorem mem_headerOctets_lt {op status tag obj len aux b : Nat} (hop : op < 256) (hst : status < 256)
    (h : b ∈ headerOctets false op status tag obj len aux) : b < 256 := by
  simp only [headerOctets, toBytes, Bool.false_eq_true, if_false, List.mem_append, List.mem_cons, List.not_mem_nil, or_false] at h
  obtain (((((rfl | rfl) | h) | h) | h) | h) := h
  · exact hop
  · exact hst
  all_goals exact mem_leBytes_lt h

theorem memRead_postEntry (i : Nat) (head body : Octets) (q : Nat) (hh : ∀ x ∈ head, x < 256) :
    memRead (postEntry s i head body q).host.mem ((cmdPair s i).cqBase + 64 * (cmdPair s i).cqTail) head.length = head := by
  unfold postEntry
  simp only [List.append_assoc]
  exact memRead_memWrite _ _ head _ hh

theorem mem_flushPair (i : Nat) : (flushPair s i).host.mem = s.host.mem :=
  parts_flushPair (w := fun p => [Part.pairs, .msix].contains p) (.refl _ s) (covers_contains _) .hostMem rfl

theorem sess_sendOdp (tag : Nat) (b : Octets) :
    sess (sendOdp s n tag b) n = { sess s n with seqOut := (sess s n).seqOut + (segmentsOf b).length } := sess_setSess_self s n _

/-- Over ODP the newest reply kept is the one sent. -/
theorem kept_answer {r : Reply} (ho : sessOpen s n = true) (hp : pairOf s n = none) : (sess (answer s n r) n).kept.getLast? = some r := by
  unfold answer
  simp only [ho, hp, Bool.not_true, Bool.false_eq_true, if_false]
  have hlen : ¬ ((sess s n).kept ++ [r]).length ≤ (sess s n).kept.length + 1 - 8 := by
    rw [List.length_append, List.length_singleton]
    omega
  rw [sess_sendOdp, sess_setSess_self, List.getLast?_drop, if_neg hlen, List.getLast?_concat]

/-- Over PCIe the completion entry begins with the header of the reply. -/
theorem memRead_answer {r : Reply} {i : Nat} (ho : sessOpen s n = true) (hp : pairOf s n = some i) (hop : r.op < 256) (hst : r.status < 256)
    (hlen : (bodyOctets false r.body).length ≤ 44) :
    memRead (answer s n r).host.mem ((cmdPair s i).cqBase + 64 * (cmdPair s i).cqTail) 16
      = headerOctets false r.op r.status r.tag r.obj (bodyOctets false r.body).length r.aux := by
  have hread := fun u => memRead_postEntry (s := u) i (headerOctets false r.op r.status r.tag r.obj (bodyOctets false r.body).length r.aux)
    (bodyOctets false r.body) (cmdPair s i).sqHead (fun _ h => mem_headerOctets_lt hop hst h)
  unfold answer
  simp only [ho, hp, Bool.not_true, Bool.false_eq_true, if_false, mem_flushPair]
  unfold postReply
  simp only [if_pos hlen]
  have h1 := hread (setPair s i { cmdPair s i with fetched := (cmdPair s i).fetched.eraseP (fun e => e.1 == r.tag) })
  rw [length_headerOctets, cmdPair_setPair_back] at h1
  exact h1

/-- A session that is open has its reply. -/
theorem answered_answer {r : Reply} (ho : sessOpen s n = true) (hop : r.op < 256) (hst : r.status < 256) : Answered s (answer s n r) n r := by
  unfold Answered
  split
  · next hp => exact kept_answer ho hp
  · next hp => exact memRead_answer ho hp hop hst

/-- An answer leaves SESSION_STAGING. -/
theorem staging_answer (r : Reply) : (sess (answer s n r) n).staging = (sess s n).staging := by
  unfold answer
  split
  · rfl
  · split
    · next i _ =>
      have hfix : Fixes (fun p => [Part.pairs, .msix, .hostMem].contains p) s (flushPair (postReply s i r) i) :=
        parts_flushPair (parts_postReply (.refl _ s) ((covers_contains _).of rfl)) ((covers_contains _).of rfl)
      unfold sess
      rw [hfix .sess rfl]
    · rw [sess_sendOdp, sess_setSess_self]

end

/-! ### The examination as a command completes (R241) -/

section
variable {s : State} {n m : Sess} {o : Obj}

/-- What the examination of a member does: nothing, a note in its subscription, or a notification as well. -/
def Examined (s : State) (m : Sess) (t : State) : Prop :=
  t = s ∨ (∃ b, t = setSess s m { sess s m with subs := b }) ∨ ∃ b x, t = pushNotif (setSess s m { sess s m with subs := b }) m x

theorem examineOne_examined (s : State) (m k : Nat) (p : Obj) : Examined s m (examineOne s m k p) := by
  unfold examineOne
  dsimp only
  split
  · split
    · exact iteInduction (fun _ => .inl rfl) fun _ => iteInduction (fun _ => .inr (.inl ⟨_, rfl⟩)) fun _ => .inr (.inr ⟨_, _, rfl⟩)
    · exact .inl rfl
  · exact .inl rfl

/-- A session as an examination leaves it: all but its subscriptions, its queue and what it counts as lost. -/
def served (x : Session) : Session := { x with subs := [], queue := [], lostNow := 0 }

theorem served_setSess {x : Session} (h : served x = served (sess s m)) : served (sess (setSess s m x) n) = served (sess s n) := by
  by_cases hn : n = m
  · subst hn; rw [sess_setSess_self, h]
  · rw [sess_setSess_other _ _ _ _ hn]

theorem served_pushNotif (x : Notif) : served (sess (pushNotif s m x) n) = served (sess s n) := by
  unfold pushNotif
  dsimp only
  split
  · exact served_setSess rfl
  · split
    · exact served_setSess (s := s) (x := { sess s m with lostNow := _ }) rfl
    · exact served_setSess (s := s) (x := { sess s m with queue := _ }) rfl

theorem served_examineOne (k : Nat) (p : Obj) : served (sess (examineOne s m k p) n) = served (sess s n) := by
  rcases examineOne_examined s m k p with h | ⟨b, h⟩ | ⟨b, x, h⟩
  · rw [h]
  · rw [h]; exact served_setSess rfl
  · rw [h]; exact (served_pushNotif x).trans (served_setSess rfl)

/-- Not a counter that notifications move: the queue and the losses of a session, and the losses of all. -/
def Uncounted (o : Obj) : Prop := (∀ m : Nat, m < 32 → o ≠ sob m 7 ∧ o ≠ sob m 8) ∧ o ≠ ob 1 0x200 5

theorem forceVal_pushNotif_uncounted (h : Uncounted o) (hm : m < 32) (x : Notif) : forceVal (pushNotif s m x) o = forceVal s o := by
  obtain ⟨hsess, h5⟩ := h
  obtain ⟨h7, h8⟩ := hsess m hm
  unfold pushNotif
  dsimp only
  split
  · rfl
  · split
    · exact (forceVal_setN_other h5).trans (forceVal_setN_other h8)
    · exact forceVal_setN_other h7

theorem forceVal_examineOne (h : Uncounted o) (hm : m < 32) (k : Nat) (p : Obj) : forceVal (examineOne s m k p) o = forceVal s o := by
  rcases examineOne_examined s m k p with he | ⟨b, he⟩ | ⟨b, x, he⟩
  · rw [he]
  · rw [he]; rfl
  · rw [he]; exact forceVal_pushNotif_uncounted h hm x

/-- What the examination of a member leaves as it is, the examination of all subscriptions does. -/
theorem examine_keeps {α : Type} {f : State → α} (hf : ∀ u m k p, m < 32 → f (examineOne u m k p) = f u) (p : Obj → Bool) :
    f (examine s p) = f s := by
  have hone : ∀ u, f u = f s → ∀ m, m < 32 → ∀ (l : List Obj) k, f (l.foldl (fun v o => examineOne v m k o) u) = f s := fun u hu m hm l k =>
    foldl_keeps (fun v => f v = f s) _ l u (fun v o _ hv => (hf v m k o hm).trans hv) hu
  unfold examine
  refine foldl_keeps (fun t => f t = f s) _ _ s (fun t m hm ht => ?_) rfl
  have hm := List.mem_range.mp (List.mem_filter.mp hm).1
  refine foldl_keeps (fun t => f t = f s) _ _ t (fun u k _ hu => ?_) ht
  split
  · exact hone u hu m hm _ k
  · exact hu

theorem forceVal_examineNow (h : Uncounted o) : forceVal (examineNow s) o = forceVal s o :=
  examine_keeps (f := fun u => forceVal u o) (fun _ _ k p hm => forceVal_examineOne h hm k p) _

theorem served_examineNow : served (sess (examineNow s) n) = served (sess s n) :=
  examine_keeps (f := fun u => served (sess u n)) (fun _ _ k p _ => served_examineOne k p) _

end

/-! ### A LIVE write from its acceptance to its reply -/

/-- The parts that change before a write of one LIVE member takes effect. -/
def replyParts : List Part := [.free, .sess, .locks, .odp, .pairs, .msix, .hostMem]

/-- The state that a LIVE write of a session finds once it has been answered. -/
structure AfterReply (s : State) (n : Sess) (t : State) : Prop where
  fixes   : Fixes (fun p => replyParts.contains p) (serving s n) t
  staging : (sess t n).staging = (sess s n).staging

section
variable {s t u : State} {n : Sess} {o : Obj} {w : Val} {r : Row} {tag x : Nat}

theorem AfterReply.sameGround (h : AfterReply s n t) (hn : n < 32) : SameGround s t where
  force p hp := (forceVal_of_fixes h.fixes rfl p).trans ((sameGround_serving hn).force p hp)
  doms := h.fixes .doms rfl
  commit := h.fixes .commit rfl
  partner := congrArg Pair.partner (h.fixes .pair rfl)

theorem answered_of_pairs {q : Reply} (hp : u.host.pairs = s.host.pairs) (h : Answered u t n q) : Answered s t n q := by
  unfold Answered pairOf cmdPair at h ⊢
  rwa [hp] at h

theorem answered_of_kept {v : State} {q : Reply} (hmem : v.host.mem = t.host.mem) (hkept : (sess v n).kept = (sess t n).kept)
    (h : Answered s t n q) : Answered s v n q := by
  unfold Answered at h ⊢
  rwa [hmem, hkept]

theorem sessOpen_serving (h : sessOpen s n = true) : sessOpen (serving s n) n = true := by
  have hne : sob n 0 ≠ sob n 9 := Nat.ne_of_lt (by unfold sob ob; omega)
  unfold sessOpen at h ⊢
  have hopen : numF (serving s n) (sob n 0) = numF s (sob n 0) := numF_bump_other _ _ _ hne
  rwa [hopen]

theorem afterReply_reply (hi : (sess s n).inbox = []) (b : Obj) :
    AfterReply s n (reply (locked (serving s n) n b) n 2 tag x stOk 0 .none) where
  fixes := by
    have hc : Covers replyParts (fun p => replyParts.contains p) := covers_contains replyParts
    have hlock : Fixes (fun p => replyParts.contains p) (serving s n) (locked (serving s n) n b) := fun p hp =>
      locked_fixes b p (by revert hp; cases p <;> decide)
    exact parts_reply hlock (hc.of rfl)
  staging := by
    rw [reply, staging_answer, sess_locked, sess_serving hi]

theorem answered_reply (ho : sessOpen s n = true) (b : Obj) : Answered s (reply (locked (serving s n) n b) n 2 tag x stOk 0 .none) n
    { op := 0x82, status := stOk, tag := tag, obj := x, aux := 0, body := .none } := by
  have hforce : (locked (serving s n) n b).dict.force = (serving s n).dict.force := locked_fixes b .force rfl
  have hopen : sessOpen (locked (serving s n) n b) n = true := by
    rw [← sessOpen_serving ho]
    unfold sessOpen
    rw [numF_congr hforce]
  have hpairs : (locked (serving s n) n b).host.pairs = s.host.pairs := locked_fixes (s := serving s n) b .pairs rfl
  exact answered_of_pairs hpairs (answered_answer hopen (show 0x82 < 256 by decide) (show 0 < 256 by decide))

theorem isReqMode_of_member (hr : lookup s o = some r) (hwo : isWo r = false) : isReqMode o = false := by
  refine Bool.eq_false_iff.mpr fun hq => ?_
  have ho : o = modeObj + 3 := eq_of_beq hq
  have hrow := findRow_of_lookup hr
  rw [ho] at hrow
  have hr3 : findRow modeRows 3 = some r := hrow
  cases hr3
  cases hwo

/-- What a LIVE write is answered in, and what it then does. -/
theorem exec_live {i : Instr} {m : Sess} {v : TVal} (h : Accepts s i n o w) (hr : lookup s o = some r) (hwo : isWo r = false)
    (hb : goesToBank s n r = false) (hw : writeOf s i = some (m, tag, x, v)) :
    m = n ∧ ∃ t, AfterReply s n t
      ∧ Answered s t n { op := 0x82, status := stOk, tag := tag, obj := x, aux := 0, body := .none }
      ∧ exec i s = .next (examineNow (writeAll t n [(o, w)])) := by
  obtain ⟨⟨hidle, hgate, htxn⟩, hlock, tag', x', v', u, hw', hcheck⟩ := h
  rw [hw'] at hw
  cases hw
  have ⟨hopen, _, hinbox, _⟩ := hidle
  have hground : SameGround s (serving s n) := sameGround_serving (lt_of_sessOpen hopen)
  have hrow : lookup (serving s n) o = some r := (hground.lookup_eq o).trans hr
  have hlive : isLive r = true := by
    unfold goesToBank at hb
    simp only [Bool.or_eq_false_iff, Bool.not_eq_false'] at hb
    exact hb.1
  obtain ⟨rfl, ht⟩ := checkWrite_live hcheck hrow hlive (isReqMode_of_member hr hwo)
  have hlock' : lockHolder (serving s n) n (baseOf o) = none := (lockHolder_serving hinbox _).trans hlock
  refine ⟨rfl, _, afterReply_reply hinbox (baseOf o), answered_reply hopen (baseOf o), ?_⟩
  have htxn' : (sess (serving s n) n).txn = none := by rw [sess_serving hinbox]; exact htxn
  rw [exec_of_writeOf hw', arrive_idle hidle hgate, serveBody_write, writeCmd_one htxn' hcheck, runWrite_one hlock' ht hrow hwo]

theorem writeEffect_live (h : AfterReply s n t) (hn : n < 32) (hr : lookup s o = some r) (hwo : isWo r = false)
    (hb : goesToBank s n r = false) : writeEffect t n o w = liveWrite t n o w := by
  have hrow : lookup t o = some r := ((h.sameGround hn).lookup_eq o).trans hr
  have hbank : goesToBank t n r = false := by rw [← hb]; unfold goesToBank; rw [h.staging]
  unfold writeEffect
  simp only [hrow, hwo, hbank, Bool.false_eq_true, if_false]

/-- What the end of a command leaves of the state in which its write has taken effect. -/
structure Completes (u t : State) : Prop where
  fixes  : Fixes (fun p => [Part.force, .sess, .pair].contains p) u t
  force  : ∀ o, Uncounted o → forceVal t o = forceVal u o
  served : ∀ n, served (sess t n) = served (sess u n)

theorem completes_writeAll (s : State) (n : Sess) (o : Obj) (w : Val) :
    Completes (writeEffect s n o w) (examineNow (writeAll s n [(o, w)])) := by
  have hc : Covers [Part.force, .sess, .pair] (fun p => [Part.force, .sess, .pair].contains p) := covers_contains _
  have hrec : ∀ u a b, Fixes (fun p => [Part.pair].contains p) u (recordWrites u a b) := fun u a b =>
    parts_recordWrites (.refl _ u) (covers_contains _)
  have hsess : ∀ u a b m, sess (recordWrites u a b) m = sess u m := fun u a b m => by unfold sess; rw [hrec u a b .sess rfl]
  exact {
    fixes := parts_examineNow (parts_recordWrites (.refl _ _) (hc.of rfl)) (hc.of rfl)
    force := fun p hp => (forceVal_examineNow hp).trans (forceVal_of_fixes (hrec _ _ _) rfl p)
    served := fun m => served_examineNow.trans (congrArg CrosspointBuses.served (hsess _ _ _ m)) }

theorem Completes.kept (h : Completes u t) : (sess t n).kept = (sess u n).kept :=
  (congrArg Session.kept (h.served n) :)

theorem Completes.staging (h : Completes u t) : (sess t n).staging = (sess u n).staging :=
  (congrArg Session.staging (h.served n) :)

/-- A LIVE write whose effect is `e` completes in a state in which `e` has been done. -/
theorem writes_live {i : Instr} {p : State → Prop} {e : State → State} (h : Accepts s i n o w) (hr : lookup s o = some r)
    (hwo : isWo r = false) (hb : goesToBank s n r = false) (he : ∀ u, liveWrite u n o w = e u)
    (hmem : ∀ u, (e u).host.mem = u.host.mem) (hkept : ∀ u, (sess (e u) n).kept = (sess u n).kept)
    (hp : ∀ u t, AfterReply s n u → SameGround s u → Completes (e u) t → p t) : Writes s i p := by
  intro m tag x v hw
  have ⟨⟨⟨hopen, _⟩, _⟩, _⟩ := h
  have hn := lt_of_sessOpen hopen
  obtain ⟨rfl, u, hu, hans, hexec⟩ := exec_live h hr hwo hb hw
  have hdone := completes_writeAll u m o w
  rw [writeEffect_live hu hn hr hwo hb, he] at hdone
  refine ⟨_, hexec, answered_of_kept ?_ ?_ hans, hp u _ hu (hu.sameGround hn) hdone⟩
  · exact (hdone.fixes .hostMem rfl).trans (hmem u)
  · exact hdone.kept.trans (hkept u)

end

/-! ### Where a LIVE write lands (R163, R202, R228) -/

section
variable {s t u : State} {n : Sess} {o : Obj} {w : Val} {r : Row}

theorem uncounted_of_area (h : areaOf o ≠ 1) : Uncounted o := by
  have hne : ∀ {i m}, i < 2 ^ 16 → m < 2 ^ 12 → o ≠ ob 1 i m := fun hi hm e => h (e ▸ areaOf_ob1 hi hm)
  exact ⟨fun m hm => ⟨hne (by omega) (by decide), hne (by omega) (by decide)⟩, hne (by decide) (by decide)⟩

/-- LOCK_WAIT and TXN_TIMEOUT of the service are no counters. -/
theorem uncounted_service {m : Nat} (hm : m < 2) : Uncounted (ob 1 0x200 m) :=
  ⟨fun k hk => ⟨Nat.ne_of_gt (by unfold sob ob; omega), Nat.ne_of_gt (by unfold sob ob; omega)⟩, Nat.ne_of_lt (by unfold ob; omega)⟩

/-- What a LIVE write of a member of a domain puts on its way. -/
def liveLanding (s : State) (o : Obj) (v : Val) : Landing :=
  { dom := landDomain s o, frame := liveFrame s (landDomain s o) o, sample := 0, obj := o, val := v, commit := false }

theorem SameGround.liveLanding_eq (h : SameGround s t) (o : Obj) (v : Val) : liveLanding t o v = liveLanding s o v := by
  unfold liveLanding
  rw [h.landDomain_eq, h.liveFrame_eq]

theorem liveLanding_mem (s : State) (o : Obj) (v : Val) : liveLanding s o v ∈ (landLive s o v).dict.landing
    ∨ (landDomain s o, liveLanding s o v) ∈ (landLive s o v).dict.held := by
  unfold landLive
  dsimp only
  split
  · exact .inr (List.mem_append_right _ (List.mem_singleton.mpr rfl))
  · exact .inl (List.mem_append_right _ (List.mem_singleton.mpr rfl))

theorem landLive_fixes (s : State) (o : Obj) (v : Val) : Fixes (fun p => [Part.landing].contains p) s (landLive s o v) :=
  parts_landLive (.refl _ s) (covers_contains _)

/-- A part that the effect of a LIVE write leaves, and that neither the reply nor the end of the command touches. -/
theorem samePart_live {e : State} {p : Part} (hreply : replyParts.contains p = false) (hend : [Part.force, .sess, .pair].contains p = false)
    (hu : AfterReply s n u) (ht : Completes e t) (he : samePart u e p) : samePart (serving s n) t p :=
  samePart_trans (hu.fixes p hreply) (samePart_trans he (ht.fixes p hend))

/-- A member of a domain is not SESSION_STAGING. -/
theorem ne_sessionStaging (hd : noDomain o = false) : o ≠ commitObj + 0x010 := by
  rintro rfl
  cases hd

/-- A session with SESSION_STAGING written. -/
def setStaging (s : State) (n : Sess) (w : Val) : State := setSess s n { sess s n with staging := valNat w == 1 }

theorem sess_setStaging (s : State) (n : Sess) (w : Val) : sess (setStaging s n w) n = { sess s n with staging := valNat w == 1 } :=
  sess_setSess_self s n _

theorem liveWrite_sessionStaging (s : State) (n : Sess) (w : Val) : liveWrite s n (commitObj + 0x010) w = setStaging s n w := if_pos rfl

theorem liveWrite_noDomain (ho : o ≠ commitObj + 0x010) (hd : noDomain o = true) (s : State) : liveWrite s n o w = setF s o w :=
  (if_neg ho).trans (if_pos hd)

theorem liveWrite_nodeLive (hd : noDomain o = false) (hnode : areaOf o = 6 ∧ 0x800 ≤ memOf o) (s : State) :
    liveWrite s n o w = landLive s (o - 0x800) w := by
  unfold liveWrite
  rw [if_neg (ne_sessionStaging hd), if_neg (by simp [hd]), if_pos hnode]

theorem liveWrite_domain (hd : noDomain o = false) (hnode : ¬(areaOf o = 6 ∧ 0x800 ≤ memOf o))
    (hsetpoint : ¬(areaOf o = 10 ∧ 0x100 ≤ instOf o ∧ memOf o = 3)) (s : State) : liveWrite s n o w = landLive s o w := by
  unfold liveWrite
  rw [if_neg (ne_sessionStaging hd), if_neg (by simp [hd]), if_neg hnode, if_neg hsetpoint]

section
variable {i : Instr} (h : Accepts s i n o w) (hr : lookup s o = some r) (hwo : isWo r = false) (hb : goesToBank s n r = false)
include h hr hwo hb

theorem writes_sessionStaging (ho : o = commitObj + 0x010) :
    Writes s i (fun t => (sess t n).staging = (valNat w == 1) ∧ SameConf s t) := by
  subst ho
  refine writes_live h hr hwo hb (fun u => liveWrite_sessionStaging u n w) (fun _ => rfl) (fun u => by rw [sess_setStaging])
    fun u t hu hg ht => ?_
  obtain ⟨hbank, hfactory⟩ := samePart_live (p := .bank) rfl rfl hu ht ⟨rfl, rfl⟩
  obtain ⟨hland, -⟩ := samePart_live (p := .landing) rfl rfl hu ht ⟨rfl, rfl, rfl⟩
  have hforce : ∀ p, areaOf p ≠ 1 → forceVal t p = forceVal s p := fun p hp =>
    (ht.force p (uncounted_of_area hp)).trans (hg.force p (.inl hp))
  exact ⟨ht.staging.trans (by rw [sess_setStaging]), hforce, hbank, hfactory, hland⟩

theorem writes_noDomain (ho : o ≠ commitObj + 0x010) (hd : noDomain o = true) (hc : Uncounted o) :
    Writes s i (fun t => forceVal t o = w ∧ t.dict.bank = s.dict.bank) := by
  refine writes_live h hr hwo hb (liveWrite_noDomain ho hd) (fun _ => rfl) (fun _ => rfl) fun u t hu _ ht => ?_
  obtain ⟨hbank, -⟩ := samePart_live (p := .bank) rfl rfl hu ht ⟨rfl, rfl⟩
  exact ⟨(ht.force o hc).trans (forceVal_setF_self u o w), hbank⟩

/-- A write whose effect is that `p` lands at a frame of its domain. -/
theorem writes_landLive {p : Obj} (he : ∀ u, liveWrite u n o w = landLive u p w) : Writes s i (fun t => t.dict.bank = s.dict.bank ∧
    ∃ y, (y ∈ t.dict.landing ∨ (landDomain s p, y) ∈ t.dict.held) ∧ y.obj = p ∧ y.val = w ∧ y.dom = landDomain s p
      ∧ y.frame = liveFrame s (landDomain s p) p ∧ y.sample = 0 ∧ y.commit = false) := by
  have hfix : ∀ u, Fixes (fun q => [Part.landing].contains q) u (landLive u p w) := fun u => landLive_fixes u p w
  refine writes_live h hr hwo hb he (fun u => hfix u .hostMem rfl) (fun u => by unfold sess; rw [hfix u .sess rfl])
    fun u t hu hg ht => ?_
  obtain ⟨hbank, -⟩ := samePart_live (p := .bank) rfl rfl hu ht (hfix u .bank rfl)
  obtain ⟨hland, -, hheld⟩ := ht.fixes .landing rfl
  refine ⟨hbank, liveLanding s p w, ?_, rfl, rfl, rfl, rfl, rfl, rfl⟩
  rw [hland, hheld, ← hg.liveLanding_eq, ← hg.landDomain_eq]
  exact liveLanding_mem u p w

end

end

/-- Settles O50: what `liveWrite` does to the member, case by case. -/
theorem liveWritesLandInTheirDomain : Obligations.LiveWritesLandInTheirDomain := by
  intro s i n o w r h hr hwo hb lands
  refine ⟨writes_sessionStaging h hr hwo hb, fun ho hd hc => writes_noDomain h hr hwo hb ho hd ?uncounted,
    fun hd ha hm => writes_landLive h hr hwo hb (liveWrite_nodeLive hd ⟨ha, hm⟩),
    fun hd hnode hsetpoint => writes_landLive h hr hwo hb (liveWrite_domain hd hnode hsetpoint)⟩
  case uncounted =>
    rcases hc with hc | rfl | rfl
    · exact uncounted_of_area hc
    · exact uncounted_service (by decide)
    · exact uncounted_service (by decide)

end Sys2Proof.CrosspointBuses
end
